-- ==== Sys2Proof/Word.lean ====
section
/-! DEFINITION. The words of the EW-410: bytes, check values, sample frames, group times (00_scope.md, Conventions). -/

namespace Sys2Proof

/-- One stored or transmitted byte. -/
abbrev Byte := BitVec 8

/-- A CRC-32 check value (R184). -/
abbrev Crc := BitVec 32

/-- A group time or followed time, or a difference of two. Group time is a 48-bit count treated as non-wrapping in service
(00_scope.md, Group time); the arithmetic of the rules on it is exact, so it is kept as an integer. -/
abbrev Time := Int

/-- One stereo sample frame; each channel a 24-bit two's complement value (00_scope.md, Sample frames and samples). -/
structure SampleFrame where
  l : Int
  r : Int
  deriving DecidableEq, Repr

/-- The four outlets of a unit, lettered A to D. -/
inductive OutletId where
  | a | b | c | d
  deriving DecidableEq, Repr

/-- One thing for each of the four outlets. -/
structure Quad (α : Type) where
  a : α
  b : α
  c : α
  d : α
  deriving DecidableEq, Repr

end Sys2Proof
end

