-- ==== Sys2Proof/Syntax.lean ====
section
/-! DEFINITION. The commands of the EW-410: one constructor of `Instr` for each row of spec/opcode_table.json, with the operands
the frames (R178 to R182) and events of the specification carry. `dt`, the first operand of every command, is the number of
samples of the unit's sample clock since the command before it (notes/assumptions/1.md). -/

namespace Sys2Proof

/-- The common header of a received frame and the length of its body (R177, R178). -/
structure FrameHead where
  /-- link address the frame came from -/
  link : Nat
  /-- protocol mark, 0xE410 -/
  mark : Nat
  /-- sender node id -/
  sender : Nat
  /-- group time of sending -/
  sentAt : Time
  /-- length of the body as it arrived -/
  bodyLen : Nat
  deriving DecidableEq, Repr

/-- Body of an AUDIO frame (R179). -/
structure AudioBody where
  feed : Nat
  letter : Nat
  rank : Nat
  fallback : Bool
  yielding : Bool
  frameTime : Time
  leadTag : Nat
  entryOffset : Int
  breakTag : Nat
  breakOffset : Int
  samples : List SampleFrame
  deriving DecidableEq, Repr

/-- A pending cue in an outlet block (R180). -/
structure PendingCue where
  tag : Nat
  start : Time
  len : Nat
  deriving DecidableEq, Repr

/-- An echo in an outlet block (R180); `check` is absent for MISSING. -/
structure EchoReport where
  feed : Nat
  block : Time
  check : Option Crc
  deriving DecidableEq, Repr

/-- One outlet block of a beacon (R180), codes as carried. -/
structure OutletBlock where
  letter : Nat
  feed : Nat
  mode : Nat
  air : Nat
  rank : Nat
  leadTag : Nat
  meter : Int
  silence : Nat
  clip : Nat
  cue : Option PendingCue
  echo : Option EchoReport
  deriving DecidableEq, Repr

/-- Body of a BEACON (R180). -/
structure BeaconBody where
  role : Nat
  boot : Nat
  timeSet : Bool
  groupTime : Time
  clockState : Nat
  trim : Int
  mask : Nat
  blocks : List OutletBlock
  deriving DecidableEq, Repr

/-- Body of a CUE frame (R181). -/
structure CueBody where
  feed : Nat
  tag : Nat
  start : Time
  len : Nat
  cancel : Nat
  deriving DecidableEq, Repr

/-- Body of a CLAIM frame (R181). -/
structure ClaimBody where
  feed : Nat
  rank : Nat
  deriving DecidableEq, Repr

/-- Body of a RELEASE frame (R181); successor 0 names none. -/
structure ReleaseBody where
  feed : Nat
  successor : Nat
  deriving DecidableEq, Repr

/-- The addressing of a request (R182): a 64-bit unit mask, a feed, or a mode that is neither, with its code. -/
inductive Addressing where
  | unitMask (mask : Nat)
  | feed (feed : Nat)
  | unknown (code : Nat)
  deriving DecidableEq, Repr

/-- Header and common part of a REQUEST frame (R178, R182). -/
structure RequestHead where
  head : FrameHead
  tag : Nat
  addr : Addressing
  deriving DecidableEq, Repr

/-- Fields of CART_OPEN (R182); `kind` is the code as carried. -/
structure CartFields where
  cart : Nat
  kind : Nat
  len : Nat
  inCue : Nat
  outCue : Nat
  trim : Int
  check : Crc
  deriving DecidableEq, Repr

/-- Fields of ENTRY_ADD (R182); `kind`, `mode` and `position` are codes as carried, a clear presence mark is `none`. -/
structure EntryFields where
  tag : Nat
  kind : Nat
  /-- cart id (ITEM) or break tag (BREAK) -/
  ref : Nat
  len : Nat
  mode : Nat
  time : Option Time
  fade : Option Nat
  trim : Option Int
  position : Nat
  reference : Nat
  deriving DecidableEq, Repr

/-- Fields of SPOTS_SET (R182); a spot is a cart id and a class code. -/
structure SpotFields where
  tag : Nat
  opener : Option Nat
  closer : Option Nat
  spots : List (Nat × Nat)
  deriving DecidableEq, Repr

/-- What the error-correcting code reports of a read at its completion (R99): words delivered corrected, and the page of an
uncorrectable word. -/
structure Ecc where
  corrected : Nat
  uncorrectable : Option Nat
  deriving DecidableEq, Repr

/-- The two fitted-break places of an outlet (R43). -/
inductive Place where
  | first | second
  deriving DecidableEq, Repr

/-- The two meters of an outlet (R154). -/
inductive MeterId where
  | programme | source
  deriving DecidableEq, Repr

/-- The commands: one constructor for each row of spec/opcode_table.json. -/
inductive Instr where
  | powerOn (dt : Nat) (link : Nat) (config : List Byte)
  | listenTimeEnd (dt : Nat)
  | beaconSend (dt : Nat)
  | beaconReceived (dt : Nat) (head : FrameHead) (body : BeaconBody)
  | peerStale (dt : Nat) (node : Nat)
  | peerRemoved (dt : Nat) (node : Nat)
  /-- `phase` is the part of a sample, in ticks of the measurement counter, past the sample at which the frame arrived -/
  | audioFrame (dt : Nat) (head : FrameHead) (body : AudioBody) (phase : Nat)
  | cueFrame (dt : Nat) (head : FrameHead) (body : CueBody)
  | claimFrame (dt : Nat) (head : FrameHead) (body : ClaimBody)
  | releaseFrame (dt : Nat) (head : FrameHead) (body : ReleaseBody)
  | ownerSilenceExpiry (dt : Nat) (o : OutletId)
  | claimWindowExpiry (dt : Nat) (o : OutletId)
  | yieldTimeout (dt : Nat) (o : OutletId)
  | cartOpen (dt : Nat) (req : RequestHead) (f : CartFields)
  | cartData (dt : Nat) (req : RequestHead) (cart : Nat) (offset : Nat) (payload : List Byte)
  | cartClose (dt : Nat) (req : RequestHead) (cart : Nat)
  | cartDrop (dt : Nat) (req : RequestHead) (cart : Nat)
  | entryAdd (dt : Nat) (req : RequestHead) (f : EntryFields)
  | entryRemove (dt : Nat) (req : RequestHead) (tag : Nat)
  | spotsSet (dt : Nat) (req : RequestHead) (f : SpotFields)
  | spotsClear (dt : Nat) (req : RequestHead) (tag : Nat)
  | fillsSet (dt : Nat) (req : RequestHead) (bed : Option Nat) (fills : List Nat)
  | handBack (dt : Nat) (req : RequestHead)
  | resume (dt : Nat) (req : RequestHead)
  | logRead (dt : Nat) (req : RequestHead) (start : Nat) (count : Nat)
  | captureRead (dt : Nat) (req : RequestHead) (cls : Nat)
  | captureClear (dt : Nat) (req : RequestHead) (cls : Nat)
  | restart (dt : Nat) (req : RequestHead) (config : List Byte)
  | fireLineInput (dt : Nat) (line : Fin 8) (active : Bool)
  | fireLineStable (dt : Nat) (line : Fin 8)
  | armTimeReached (dt : Nat) (o : OutletId)
  | softTimeReached (dt : Nat) (o : OutletId) (tag : Nat)
  | hardTimeReached (dt : Nat) (o : OutletId) (tag : Nat)
  | startTimeReached (dt : Nat) (o : OutletId)
  | breakStart (dt : Nat) (o : OutletId) (place : Place)
  | swapOutStart (dt : Nat) (o : OutletId) (place : Place)
  | swapInStart (dt : Nat) (o : OutletId) (place : Place)
  | itemDueTime (dt : Nat) (o : OutletId) (place : Place)
  /-- `place` is absent for a BREAK entry taken over without a fitted break (R69, R142) -/
  | rejoin (dt : Nat) (o : OutletId) (place : Option Place)
  | rampEnd (dt : Nat) (voice : Fin 12)
  | cartEnd (dt : Nat) (voice : Fin 12)
  | judgePoint (dt : Nat) (voice : Fin 12)
  | primingTransferComplete (dt : Nat) (ecc : Ecc)
  | refillComplete (dt : Nat) (ecc : Ecc)
  | loadWriteComplete (dt : Nat)
  | verifyReadComplete (dt : Nat) (ecc : Ecc)
  | relaySlotJudge (dt : Nat) (o : OutletId)
  | audioFrameSend (dt : Nat) (o : OutletId)
  | meterBlockEnd (dt : Nat) (o : OutletId) (meter : MeterId)
  | echoBlockEnd (dt : Nat) (o : OutletId)
  | echoOpenBlockTimeout (dt : Nat) (o : OutletId)
  /-- `readback` is the CRC-32 of the samples the air tap read back over the entry's driven span -/
  | tapCompletion (dt : Nat) (o : OutletId) (block : Time) (readback : Crc)
  | historyEntryLeave (dt : Nat) (o : OutletId)
  | blockLeavesRing (dt : Nat) (voice : Fin 12)
  | loopToInCue (dt : Nat) (voice : Fin 12)
  | cutAtTheRejoin (dt : Nat) (o : OutletId) (place : Place)
  | bedRampStart (dt : Nat) (o : OutletId) (place : Place)
  | unknownRequest (dt : Nat) (req : RequestHead) (kind : Nat)
  deriving DecidableEq, Repr

end Sys2Proof
end

