-- ==== Sys2Proof/Decode.lean ====
section
/-! DEFINITION. The commands that words spell by the bits of spec/opcode_table.json: its rows give no bits, so no word spells one
(notes/assumptions/18.md). The bytes of the frames that carry commands are read in Sys2Proof/Machine/Layout.lean. -/

namespace Sys2Proof

/-- The command a table word spells: none, since no row of the table has bits. -/
def decodeTableWord (_nbits _w : Nat) : Option Instr := none

end Sys2Proof
end

