-- ==== Sys2Proof/Config.lean ====
section
/-! DEFINITION. What the specification leaves open: the free values (notes/assumptions/4.md, 6.md, 7.md). -/

namespace Sys2Proof

/-- A free value: nothing in Lean can evaluate it. The n-th free value a run takes is `Config.freeValue n`, n being the field
`freeCount` of State. -/
opaque Config.freeValue : Nat → Nat

end Sys2Proof
end

