-- ==== Sys2Proof/Machine/State.lean ====
section
/-! DEFINITION. Everything the specification gives the EW-410 to hold, as plain data, and the machine right after reset. Each
type's docstring names the rule that gives it; INVENTORY.md lists the fields. -/

namespace Sys2Proof.Machine

/-! ### Why a step can stop -/

/-- Nothing in the specification stops the block: what it calls faults are captures latched in the state (R171, R172). No command
raises a fault, so the type has no constructor (safe: nothing is hidden behind a stop). -/
inductive Fault where
  deriving DecidableEq, Repr

/-- Why a command could have no meaning. -/
inductive Refusal where
  /-- Raised by an arm of `exec` whose command has no meaning yet; no arm of this model raises it (safe: the run ends). -/
  | notModelled (mnemonic : String)
  deriving DecidableEq, Repr

/-! ### Configuration (R191, R192) -/

/-- The two modes of an outlet (00_scope.md, The playout group). -/
inductive Mode where
  | self | follow
  deriving DecidableEq, Repr

/-- One outlet entry of the settled configuration (R192). -/
structure OutletCfg where
  /-- enabled in the record, so that two voices are set aside (R87) -/
  enabled : Bool
  /-- enabled with a valid configuration: not DARK by it -/
  valid : Bool
  /-- absent where the mode code is neither 1 nor 2 or the outlet is disabled -/
  mode : Option Mode
  /-- 0 where disabled or out of range (R180) -/
  feed : Nat
  followFeed : Nat
  rank : Nat
  fallbackCart : Option Nat
  deriving DecidableEq, Repr

/-- One fire line entry of the settled configuration (R192). -/
structure LineCfg where
  enabled : Bool
  outlet : OutletId
  cart : Nat
  deriving DecidableEq, Repr

/-- The settled configuration record (R192). -/
structure UnitCfg where
  nodeId : Nat
  refFeed : Nat
  stations : List Nat
  outlets : Quad OutletCfg
  lines : List LineCfg
  deriving DecidableEq, Repr

/-! ### Gain (R40) -/

/-- A ramp from `m0` to `m1` over `n` samples beginning at the sample `start` of the sample clock; after it the value stays at `m1`.
A steady value is a ramp over 0 samples. -/
structure Ramp where
  start : Nat
  m0 : Int
  m1 : Int
  n : Nat
  deriving DecidableEq, Repr

/-! ### The cart store (06) -/

/-- Kinds of a cart version (R109). -/
inductive CartKind where
  | song | jingle | spot | fill | bed | fallback
  deriving DecidableEq, Repr

/-- States of a cart version (06, opening table). -/
inductive VersionState where
  | loading | verifying | ready | quarantined | retiring
  deriving DecidableEq, Repr

/-- Roles of a cart version (R108); `discarding` is the version without a role of R116. -/
inductive Role where
  | current | incoming | superseded | discarding
  deriving DecidableEq, Repr

/-- A run of consecutive page indexes, `lo` to `lo + n - 1`. -/
structure PageRun where
  lo : Nat
  n : Nat
  deriving DecidableEq, Repr

/-- The CART_CLOSE that ended a load: its request tag and sender (R109). -/
structure CloseTag where
  tag : Nat
  node : Nat
  deriving DecidableEq, Repr

/-- A cart version (R109). -/
structure Version where
  cart : Nat
  serial : Nat
  kind : CartKind
  len : Nat
  inCue : Nat
  outCue : Nat
  /-- half-decibel steps, -48 to 12 -/
  trim : Int
  check : Crc
  state : VersionState
  role : Role
  useCount : Nat
  chain : List PageRun
  received : Nat
  written : Nat
  closeTag : Option CloseTag
  deriving DecidableEq, Repr

/-- One payload of the load receive queue (R115). -/
structure Payload where
  cart : Nat
  serial : Nat
  offset : Nat
  bytes : List Byte
  deriving DecidableEq, Repr

/-- The verify sweep's work on the version at the head of the verify queue (R119): bytes read so far and the running register. -/
structure Sweep where
  cart : Nat
  serial : Nat
  next : Nat
  crc : Crc
  deriving DecidableEq, Repr

/-- The cart store (R106 to R119). -/
structure Store where
  free : List PageRun
  versions : List Version
  serialCounter : Nat
  mem : List Host.Cell
  loadQueue : List Payload
  verifyQueue : List (Nat × Nat)
  sweep : Option Sweep
  deriving DecidableEq, Repr

/-! ### Voices and the fetch engine (05) -/

/-- States of a voice other than FREE (R88). -/
inductive VoiceState where
  | priming | primed | playing | ramping
  deriving DecidableEq, Repr

/-- What holds or asks for a voice (R88, R89). A fitted break's slot is its place and its index in the plan, the tail's index being
the number of items; a fallback is named by the number of its period. -/
inductive Holder where
  | entry (tag : Nat)
  | slot (place : Place) (k : Nat)
  | line (n : Nat)
  | fallback (period : Nat)
  deriving DecidableEq, Repr

/-- A block in a voice's ring (R94): its place in play order, its flag (R99) and its samples. -/
structure RingBlock where
  ord : Nat
  flagged : Bool
  data : List SampleFrame
  deriving DecidableEq, Repr

/-- The stream-check context (R88, R104): VALID with its running register and byte count, or VOID. -/
inductive StreamCtx where
  | valid (crc : Crc) (bytes : Nat)
  | void
  deriving DecidableEq, Repr

/-- Stream-check results (R104). -/
inductive StreamCheck where
  | pass | fail | notChecked
  deriving DecidableEq, Repr

/-- What a voice that is not FREE holds (R88, R93, R100 to R102). -/
structure VoiceUse where
  state : VoiceState
  outlet : OutletId
  holder : Holder
  cart : Nat
  serial : Nat
  /-- length and in-cue of the version, which never change (R109) -/
  len : Nat
  inCue : Nat
  looping : Bool
  /-- cart sample at which play begins (R93) -/
  startPos : Nat
  needed : Time
  ring : List RingBlock
  delivered : Nat
  /-- next block to fetch, in play order -/
  nextOrd : Nat
  /-- blocks, in play order, whose last sample has been played and which have left the ring -/
  leftOrd : Nat
  /-- blocks, in play order, already judged (R100) -/
  judged : Nat
  /-- whether the block judged last was good -/
  lastGood : Bool
  /-- a run of blocks concealed for underrun is in progress (R102) -/
  underrun : Bool
  /-- samples sounded since it was started, concealed samples included; gives the play position -/
  sounded : Nat
  /-- passes from the cart's end to its in-cue made so far (R95) -/
  passes : Nat
  mult : Ramp
  /-- concealment ramps in the order they were set; of those begun the one set last is in force (notes/assumptions/55.md) -/
  factor : List Ramp
  stream : StreamCtx
  /-- settled stream-check result of a looping voice -/
  streamDone : Option StreamCheck
  concealed : Nat
  bad : Bool
  deriving DecidableEq, Repr

/-- A voice of the pool (R87, R88); `use` is absent while it is FREE. -/
structure Voice where
  reserved : Option OutletId
  use : Option VoiceUse
  deriving DecidableEq, Repr

/-- A waiting voice request (R89, R90). -/
structure VoiceRequest where
  outlet : OutletId
  holder : Holder
  needed : Time
  deriving DecidableEq, Repr

/-- The kinds of a transfer of the fetch engine (R97), with what each moves. -/
inductive TransferKind where
  | refill (voice : Nat) (ord : Nat)
  | priming (voice : Nat) (ord : Nat)
  | load (p : Payload)
  | verify (cart serial offset size : Nat)
  deriving DecidableEq, Repr

/-- The transfer in flight; `stale` once its voice, load or verification has gone and its result is to be discarded (R96, R98). -/
structure Transfer where
  kind : TransferKind
  stale : Bool
  deriving DecidableEq, Repr

/-! ### Running orders (01) and the timeline context (02) -/

/-- What an entry plays (R2): a cart, or a break with its tag and length. -/
inductive EntryKind where
  | item (cart : Nat)
  | brk (tag : Nat) (len : Nat)
  deriving DecidableEq, Repr

/-- Start modes (R2), a timed mode with its time T. -/
inductive StartMode where
  | sequence
  | soft (t : Time)
  | hard (t : Time)
  deriving DecidableEq, Repr

/-- The start of an ARMED entry (R9, R22, R29): a computed start time, the mark that it starts when primed, or not yet known because
the lead's actual start is not. -/
inductive ArmedStart where
  | time (t : Time)
  | whenPrimed
  | afterLead
  deriving DecidableEq, Repr

/-- Entry states (R2, R3). -/
inductive EntryState where
  | queued | armed | onAir
  deriving DecidableEq, Repr

/-- The timeline context of an ON_AIR entry (R22). -/
structure EntryAir where
  /-- actual start; absent for a lead that does not sound yet (R29, R142) -/
  start : Option Time
  /-- start offset -/
  offset : Int
  /-- an item whose voice sounds here, or a break that plays here -/
  sounding : Bool
  /-- it has sounded here, though it may no longer do so -/
  sounded : Bool
  /-- sample clock count at a BREAK entry's actual start: its played length counts samples from there, whatever group time does (R166) -/
  since : Int
  /-- samples a BREAK entry had played here when its outlet stopped sending (R166) -/
  played : Nat
  /-- cut by an anchor or by the move to FALLBACK (R14, R17) -/
  cut : Bool
  /-- begun at an offset by a takeover (R25, R142, R143) -/
  takenOver : Bool
  /-- rejoin of a BREAK entry begun at a takeover without a fitted break (R69, R142) -/
  silentUntil : Option Time
  /-- underfill of an entry whose fitted break, with a SILENCE tail, has ended as a shadow (R68) -/
  underfill : Option Nat
  deriving DecidableEq, Repr

/-- An entry of a running order (R2) with its working values. -/
structure Entry where
  tag : Nat
  kind : EntryKind
  mode : StartMode
  fade : Bool
  /-- gain trim in half-decibel steps -/
  trim : Int
  state : EntryState
  /-- start while ARMED -/
  start : ArmedStart
  /-- computed start time it was armed with (R16) -/
  planned : Option Time
  /-- load serial of the version it recorded at arming (R10) -/
  serial : Option Nat
  /-- its version was found unusable at its voice's grant: it leaves at this sample (R10; notes/assumptions/6.md) -/
  lost : Bool
  air : EntryAir
  deriving DecidableEq, Repr

/-- Spot classes (R19). -/
inductive SpotClass where
  | must | should | may
  deriving DecidableEq, Repr

/-- A spot list (R19). -/
structure SpotList where
  tag : Nat
  opener : Option Nat
  closer : Option Nat
  spots : List (Nat × SpotClass)
  deriving DecidableEq, Repr

/-! ### Fitted breaks (03) -/

/-- Roles of a break item (R43). -/
inductive ItemRole where
  | opener | spot | closer | fill
  deriving DecidableEq, Repr

/-- Progress of a break item (R43). -/
inductive Progress where
  | waiting | priming | sounding | ended | substituted
  deriving DecidableEq, Repr

/-- Air marks (R43). -/
inductive AirMark where
  | here | handedOver | takenOver | elsewhere | cut
  deriving DecidableEq, Repr

/-- The span a bed filled: its actual start in group time, and its voice's report once it has ended (R68). -/
structure BedSpan where
  actual : Time
  played : Nat
  concealed : Nat
  stream : StreamCheck
  mark : AirMark
  deriving DecidableEq, Repr

/-- One slot of a fitted break (R43). -/
structure BreakItem where
  role : ItemRole
  cart : Nat
  serial : Nat
  /-- spot position, from 1; 0 for an item that is no spot -/
  pos : Nat
  cls : Option SpotClass
  playLen : Nat
  offset : Nat
  join : Nat
  progress : Progress
  /-- actual start in group time -/
  actual : Option Time
  /-- samples of the item passed over by a takeover part-way (R69), from which its slip counts -/
  skipped : Nat
  played : Nat
  concealed : Nat
  stream : StreamCheck
  mark : AirMark
  /-- the bed that filled the slot when it was substituted, if it sounded -/
  bed : Option BedSpan
  deriving DecidableEq, Repr

/-- Tail kinds (R43, R59). -/
inductive TailKind where
  | bed | silence | earlyRejoin | none
  deriving DecidableEq, Repr

/-- A spot removed by the fit (R53, R54); `overlength` tells DROPPED_OVERLENGTH from DROPPED_UNAVAILABLE. -/
structure Drop where
  pos : Nat
  cart : Nat
  serial : Nat
  overlength : Bool
  deriving DecidableEq, Repr

/-- States of a fitted break (R43). -/
inductive FitState where
  | armed | running | spent
  deriving DecidableEq, Repr

/-- A fitted break (R43). -/
structure FittedBreak where
  tag : Nat
  len : Nat
  entryTag : Option Nat
  start : Option Time
  state : FitState
  announced : Bool
  /-- start last announced (R47) -/
  cueStart : Time
  items : List BreakItem
  tail : TailKind
  tailLen : Nat
  bedCart : Option (Nat × Nat)
  drops : List Drop
  /-- index of the next slot to begin; the number of items stands for the tail -/
  cursor : Nat
  /-- due time of that slot, in the outlet's position (R62) -/
  due : Option Time
  /-- position at which the tail began (R64) -/
  tailBegan : Option Time
  tailBed : Option BedSpan
  /-- samples of a SILENCE tail aired before its outlet last stopped sending (R68) -/
  tailAired : Nat
  /-- for each step of group time inside the break of a FOLLOW outlet: the position and the relay delay up to it (R76, R86) -/
  delays : List (Time × Time)
  /-- cart samples of the bed passed over at a takeover inside the tail (R69) -/
  tailSkip : Nat
  /-- the slot begun part-way at a takeover, its start sample and the samples left of it (R69) -/
  resume : Option (Nat × Nat × Nat)
  /-- ended early by the move to FALLBACK; the records wait for the last ramp (R67) -/
  ending : Bool
  deriving DecidableEq, Repr

/-- Why a cue was declined with a capture (R50). -/
inductive DeclineReason where
  | late | overflow
  deriving DecidableEq, Repr

/-- The declined cue memory (R43, R50). -/
structure DeclinedCue where
  tag : Nat
  start : Time
  len : Nat
  reason : DeclineReason
  deriving DecidableEq, Repr

/-! ### The relay (04) -/

/-- Relay states (R70). -/
inductive RelayState where
  | unset | relaying | lost
  deriving DecidableEq, Repr

/-- An AUDIO frame in the jitter buffer (R70). -/
structure HeldFrame where
  time : Time
  sender : Nat
  samples : List SampleFrame
  deriving DecidableEq, Repr

/-- The relay of a FOLLOW outlet (R70, R73, R77). -/
structure Relay where
  state : RelayState
  position : Option Time
  buffer : List HeldFrame
  missing : Nat
  /-- concealment ramp (R73) -/
  conceal : Ramp
  /-- relay multiplier (R77) -/
  mult : Ramp
  /-- the slot judged last: its frame time and, when present, its samples -/
  slot : Option (Time × Option (List SampleFrame))
  /-- sender of the last frame presented (R74) -/
  lastSender : Option Nat
  deriving DecidableEq, Repr

/-! ### What an outlet sends (02, 07, 08) -/

/-- The fields an AUDIO frame takes from the outlet's state (R42, R127): `leadBase` is the group time from which the entry offset
counts, `breakBase` the position from which the break offset counts together with the outlet's position at the span's first sample. -/
structure FrameCtx where
  rank : Nat
  fallback : Bool
  yielding : Bool
  leadTag : Nat
  leadBase : Option Time
  breakTag : Nat
  breakOffset : Int
  deriving DecidableEq, Repr

/-- What the relay presents over a span: the samples of the slot it stands in from its position on, with its two ramps. -/
structure RelayView where
  position : Time
  slot : Option (Time × Option (List SampleFrame))
  conceal : Ramp
  mult : Ramp
  deriving DecidableEq, Repr

/-- A span of consecutive samples of an outlet: its first sample's group time and sample clock count, its length, the voices and the
relay that sounded, and the frame fields in force. Its samples are computed from these when they are framed, metered or checked. -/
structure Span where
  time : Time
  clock : Nat
  len : Nat
  /-- the outlet began sending at this span's first sample -/
  first : Bool
  voices : List VoiceUse
  relay : Option RelayView
  ctx : FrameCtx
  deriving DecidableEq, Repr

/-- States of a silence detector (R156). -/
inductive Silence where
  | live | quiet | dead
  deriving DecidableEq, Repr

/-- A meter and its silence detector (R154 to R157). A block is held as the sum of the squares of its 2,048 channel values. -/
structure Meter where
  running : Bool
  /-- samples not yet in a completed block -/
  buf : List Span
  /-- the last four accepted blocks, newest first -/
  accepted : List Nat
  held : Option Nat
  detector : Silence
  count : Nat
  deriving DecidableEq, Repr

/-- Tap results (R147). -/
inductive TapResult where
  | pending | match | mismatch
  deriving DecidableEq, Repr

/-- Final results of an echo block, best to worst (R152). -/
inductive EchoResult where
  | confirmed | unconfirmed | mismatch
  deriving DecidableEq, Repr

/-- An entry of the sent-check history (R147). -/
structure HistEntry where
  block : Time
  check : Crc
  isPartial : Bool
  /-- driven span: first and last sample driven, and the check over it (R150) -/
  firstDriven : Time
  lastDriven : Time
  driven : Crc
  tap : TapResult
  peerMatch : Bool
  peerMismatch : Bool
  result : Option EchoResult
  deriving DecidableEq, Repr

/-- The open echo block of a monitored feed (R148). -/
structure OpenBlock where
  block : Time
  frames : List (Time × List SampleFrame)
  deriving DecidableEq, Repr

/-- What a tally is kept for (R152). -/
inductive AirKey where
  | entry (tag : Nat)
  | item (place : Place) (k : Nat)
  | bed (place : Place) (k : Nat)
  | instant (line : Nat) (fire : Time)
  | fallback (period : Nat)
  deriving DecidableEq, Repr

/-- A tally (R152): the blocks in which the item sounded, each with whether its result is final, and the worst final result. -/
structure Tally where
  blocks : List (Time × Bool)
  worst : EchoResult
  deriving DecidableEq, Repr

/-- A tally whose record is not written yet; `stopped` is the end of its span once it has stopped sounding. -/
structure LiveTally where
  key : AirKey
  since : Time
  stopped : Option Time
  tally : Tally
  deriving DecidableEq, Repr

/-! ### Air ownership (07) -/

/-- Air states (R125). -/
inductive Air where
  | dark | listening | standby | claiming | onAir | yielding | fallback
  deriving DecidableEq, Repr

/-- Yield causes (R135). -/
inductive YieldCause where
  | fault | handBack
  deriving DecidableEq, Repr

/-- The record of a yield (R135). -/
structure Yield where
  successor : Nat
  cause : YieldCause
  /-- entered from FALLBACK, so that the outlet plays on as in FALLBACK (R125) -/
  fromFallback : Bool
  since : Nat
  deriving DecidableEq, Repr

/-- The owner view (R128). -/
structure OwnerView where
  node : Nat
  rank : Nat
  fallback : Bool
  yielding : Bool
  frameTime : Time
  leadTag : Nat
  entryOffset : Int
  breakTag : Nat
  breakOffset : Int
  arrival : Option Time
  deriving DecidableEq, Repr

/-- How a fallback period ended (R161, R162). -/
inductive FallbackEnd where
  | natural | anchor | handedOver
  deriving DecidableEq, Repr

/-- A fallback period (R159, R162). -/
structure FallbackPeriod where
  id : Nat
  since : Time
  cart : Option Nat
  /-- the fallback request was granted -/
  granted : Bool
  /-- load serial of the usable version found at the grant -/
  serial : Option Nat
  /-- the fallback voice began to sound -/
  actual : Option Time
  ended : Option FallbackEnd
  deriving DecidableEq, Repr

/-! ### Fire lines (02) -/

/-- Input states of a fire line (R32). -/
inductive LineState where
  | waitRelease | idle | pressing | held
  deriving DecidableEq, Repr

/-- An instant (R34, R35): waiting for the line's own voice after a re-fire, priming, or sounding from `actual`. -/
structure Instant where
  cart : Nat
  serial : Nat
  fire : Time
  waiting : Bool
  actual : Option Time
  deriving DecidableEq, Repr

/-- A fire line (R22, R32, R35). -/
structure FireLine where
  state : LineState
  active : Bool
  /-- sample clock count at which the present level, or the present count, began -/
  since : Nat
  current : Option Instant
  /-- the instant ramping out under a re-fire, whose voice the current one waits for -/
  old : Option Instant
  deriving DecidableEq, Repr

/-! ### One outlet -/

/-- An outlet with its sequencer, relay, ownership controller, confidence monitor and dead-air watch. -/
structure Outlet where
  air : Air
  yielding : Option Yield
  claimSince : Nat
  silenceSince : Nat
  view : Option OwnerView
  heard : Bool
  passed : List Nat
  handBack : Bool
  entries : List Entry
  seqSlot : Option Nat
  anchorSlot : Option Nat
  /-- tags of the ON_AIR entries, the one begun most recently first: its head is the lead (R3) -/
  airOrder : List Nat
  /-- start handed on by a skipped entry, within one command (R10) -/
  inherit : Option ArmedStart
  spots : List SpotList
  fills : List Nat
  bed : Option Nat
  place1 : Option FittedBreak
  place2 : Option FittedBreak
  declined : Option DeclinedCue
  /-- beacons sent since the pending cues last changed (R46) -/
  cuePhase : Nat
  relay : Relay
  clip : Nat
  periods : List FallbackPeriod
  periodCount : Nat
  /-- samples sent and not yet framed (R127) -/
  unsent : List Span
  /-- the next sample sent is the first since the outlet began sending (R127) -/
  fresh : Bool
  programme : Meter
  source : Meter
  history : List HistEntry
  /-- the echo block in progress (R147) -/
  echoBuf : List Span
  /-- samples go out of the frame that a step of group time cut: the next frame begins the block in progress (R147) -/
  echoSkip : Bool
  openBlock : Option OpenBlock
  echo : Option EchoReport
  mismatchRun : Nat
  tallies : List LiveTally
  deriving DecidableEq, Repr

/-! ### As-run log and fault captures (09) -/

/-- Sources of an as-run record (R163). -/
inductive Source where
  | entry | spot | opener | closer | fill | bed | instant | fallback
  deriving DecidableEq, Repr

/-- The eleven outcomes (09, section 9.2). -/
inductive Outcome where
  | aired | airedCut | airedHandedOver | airedTakenOver | airedElsewhere | skippedTime | skippedUnavailable | withdrawn
  | droppedOverlength | droppedUnavailable | refused
  deriving DecidableEq, Repr

/-- Confirmations (R163). -/
inductive Confirmation where
  | pending | confirmed | mismatch | unconfirmed | none
  deriving DecidableEq, Repr

/-- An as-run record (R163). -/
structure Record where
  seq : Nat
  outlet : OutletId
  feed : Nat
  source : Source
  entryTag : Option Nat
  breakTag : Option Nat
  slot : Option Nat
  cart : Nat
  serial : Nat
  planned : Option Time
  actual : Option Time
  played : Nat
  slip : Int
  outcome : Outcome
  concealed : Nat
  stream : StreamCheck
  confirmation : Confirmation
  underfill : Option Nat
  deriving DecidableEq, Repr

/-- A pending confirmation: the tally of a record in the log (R167), with the outlet whose history it waits on. -/
structure PendingTally where
  seq : Nat
  outlet : OutletId
  tally : Tally
  deriving DecidableEq, Repr

/-- The as-run log (R163 to R168). -/
structure Log where
  records : List Record
  next : Nat
  pending : List PendingTally
  deriving DecidableEq, Repr

/-- Fault classes (R171). -/
inductive FaultClass where
  | store | fetch | request | air | clock
  deriving DecidableEq, Repr

/-- Fault kinds (R172). -/
inductive FaultKind where
  | uncorrectable | verifyMismatch | streamMismatch | underrun | noVoice | foreignSender | malformed | loadSequence
  | doubleAir | deadAir | echoMismatch | lateCue | cueOverflow | sourceLost | takeover | referenceAbnormal | timeStep
  deriving DecidableEq, Repr

/-- A first fault: its kind and details (R171). -/
structure FaultInfo where
  kind : FaultKind
  time : Option Time
  outlet : Option OutletId
  cart : Option (Nat × Nat)
  entryTag : Option Nat
  node : Option Nat
  page : Option Nat
  delivered : Option Nat
  block : Option Time
  deriving DecidableEq, Repr

/-- A capture slot (R171): locked when it holds a first fault. -/
structure Slot where
  first : Option FaultInfo
  lost : Nat
  deriving DecidableEq, Repr

/-- The fault captures (R171). -/
structure Captures where
  store : Slot
  fetch : Slot
  request : Slot
  air : Slot
  clock : Slot
  corrected : Nat
  deriving DecidableEq, Repr

/-! ### Link controller and clock discipline (10, 04) -/

/-- One outlet summary of a peer (R186), codes as carried. -/
structure Summary where
  feed : Nat
  mode : Nat
  air : Nat
  rank : Nat
  deriving DecidableEq, Repr

/-- An entry of the peer table (R186). -/
structure Peer where
  node : Nat
  isUnit : Bool
  arrival : Nat
  stale : Bool
  summaries : List Summary
  deriving DecidableEq, Repr

/-- Clock states (R80). -/
inductive ClockState where
  | free | acquiring | tracking | holdover
  deriving DecidableEq, Repr

/-- The open measurement window (R80). -/
structure Window where
  f0 : Time
  a0 : Nat
  sender : Nat
  last : Time
  deriving DecidableEq, Repr

/-- The clock discipline (R80, R84). -/
structure ClockDiscipline where
  trim : Int
  state : ClockState
  rejected : Nat
  window : Option Window
  groupTime : Option Time
  /-- candidate count, and whether a reference frame gave it -/
  candidate : Option (Time × Bool)
  deriving DecidableEq, Repr

/-- Boot reasons (R180, R185). -/
inductive BootReason where
  | powerOn | restartRequest
  deriving DecidableEq, Repr

/-! ### Frames sent (10, section 10.2) -/

/-- Result codes (R183, R190). -/
inductive ResultCode where
  | ok | full | busy | inAir | notFound | duplicate | wrongMode | notOwner | noLoad | sequence | outOfRange | malformed
  deriving DecidableEq, Repr

/-- The fields of an answer beyond the common part (R183). -/
inductive AnswerFields where
  | none
  | opened (serial : Nat) (role : Role)
  | verified (cart serial : Nat) (ready : Bool)
  | log (oldest : Option Nat) (next : Nat) (records : List Record)
  | slot (cls : FaultClass) (slot : Slot) (corrected : Nat)
  deriving DecidableEq, Repr

/-- An ANSWER frame's body (R183). -/
structure Answer where
  dest : Nat
  tag : Nat
  /-- request kind, copied from the request -/
  kind : Nat
  outlet : Option OutletId
  followUp : Bool
  result : ResultCode
  fields : AnswerFields
  deriving DecidableEq, Repr

/-- The body of a frame the unit sends. -/
inductive FrameBody where
  | audio (b : AudioBody)
  | beacon (b : BeaconBody)
  | cue (b : CueBody)
  | claim (b : ClaimBody)
  | release (b : ReleaseBody)
  | answer (b : Answer)
  deriving DecidableEq, Repr

/-- A frame the unit has sent: the link address it has as source (R177; every frame is multicast, so it names no destination), sender
node id, group time of sending (0 while unset, R178) and body. -/
structure SentFrame where
  link : Nat
  sender : Nat
  sentAt : Time
  body : FrameBody
  deriving DecidableEq, Repr

/-! ### The unit -/

/-- The whole machine. -/
structure State where
  /-- commands waiting, first in first out -/
  pending : List Instr
  powered : Bool
  configMemory : List Byte
  cfg : UnitCfg
  linkAddress : Nat
  isolated : Bool
  boot : BootReason
  /-- samples of the unit's sample clock since power-on -/
  clock : Nat
  /-- sample clock count at which the running listen time began -/
  listenSince : Option Nat
  beaconSince : Nat
  peers : List Peer
  disc : ClockDiscipline
  store : Store
  voices : List Voice
  voiceQueue : List VoiceRequest
  transfer : Option Transfer
  outlets : Quad Outlet
  lines : List FireLine
  log : Log
  captures : Captures
  /-- frames sent, oldest first -/
  sent : List SentFrame
  /-- free values taken so far -/
  freeCount : Nat
  /-- during a forward step of group time, the passed time being handled (R15); absent otherwise -/
  horizon : Option Time
  deriving DecidableEq, Repr

/-! ### After reset -/

/-- A steady value as a ramp over no samples. -/
def Ramp.steady (m : Int) : Ramp := { start := 0, m0 := m, m1 := m, n := 0 }

/-- A meter that has not run (R157): no accepted blocks, detector LIVE. -/
def Meter.reset : Meter :=
  { running := false, buf := [], accepted := [], held := none, detector := .live, count := 0 }

/-- A relay after power-on and RESTART (R70). -/
def Relay.reset : Relay :=
  { state := .unset, position := none, buffer := [], missing := 0, conceal := .steady 16384, mult := .steady 0,
    slot := none, lastSender := none }

/-- An outlet before a configuration has been settled: DARK, with empty collections (R1, R21, R22, R43, R70, R128, R147, R153). -/
def Outlet.reset : Outlet :=
  { air := .dark, yielding := none, claimSince := 0, silenceSince := 0, view := none, heard := false, passed := [],
    handBack := false, entries := [], seqSlot := none, anchorSlot := none, airOrder := [], inherit := none, spots := [],
    fills := [], bed := none, place1 := none, place2 := none, declined := none, cuePhase := 0, relay := .reset, clip := 0,
    periods := [], periodCount := 0, unsent := [], fresh := false, programme := .reset, source := .reset, history := [],
    echoBuf := [], echoSkip := false, openBlock := none, echo := none, mismatchRun := 0, tallies := [] }

/-- The fire line state of every start (R32, R22). -/
def FireLine.reset : FireLine :=
  { state := .waitRelease, active := false, since := 0, current := none, old := none }

/-- An unlocked capture slot (R171). -/
def Slot.reset : Slot := { first := none, lost := 0 }

/-- The captures after power-on (R171). -/
def Captures.reset : Captures :=
  { store := .reset, fetch := .reset, request := .reset, air := .reset, clock := .reset, corrected := 0 }

/-- A disabled outlet entry. -/
def OutletCfg.disabled : OutletCfg :=
  { enabled := false, valid := false, mode := none, feed := 0, followFeed := 0, rank := 0, fallbackCart := none }

/-- The settled configuration of a unit that has read none (notes/assumptions/3.md). -/
def UnitCfg.reset : UnitCfg :=
  { nodeId := 0, refFeed := 0, stations := [], outlets := ⟨.disabled, .disabled, .disabled, .disabled⟩,
    lines := List.replicate 8 { enabled := false, outlet := .a, cart := 0 } }

/-- The store after power-on (R106, R108, R110, R124): every page free, nothing else. -/
def Store.reset : Store :=
  { free := [{ lo := 0, n := 524288 }], versions := [], serialCounter := 0, mem := [], loadQueue := [], verifyQueue := [],
    sweep := none }

/-- The clock discipline after power-on (R80), FREE because no reference feed has been read yet. -/
def ClockDiscipline.reset : ClockDiscipline :=
  { trim := 0, state := .free, rejected := 0, window := none, groupTime := none, candidate := none }

/-- The machine right after reset: every block in the power-on state its chapter gives (R193), no configuration read yet and power
not yet reported on (notes/assumptions/2.md, 3.md), no command waiting. -/
def State.reset : State :=
  { pending := [], powered := false, configMemory := [], cfg := .reset, linkAddress := 0, isolated := false, boot := .powerOn,
    clock := 0, listenSince := none, beaconSince := 0, peers := [], disc := .reset, store := .reset,
    voices := List.replicate 12 { reserved := none, use := none }, voiceQueue := [], transfer := none,
    outlets := ⟨.reset, .reset, .reset, .reset⟩, lines := List.replicate 8 .reset,
    log := { records := [], next := 1, pending := [] }, captures := .reset, sent := [], freeCount := 0,
    horizon := none }

end Sys2Proof.Machine
end

