-- ==== Sys2Proof/Machine/Gain.lean ====
section
/-! DEFINITION. Gain, ramps, scaling and the limits of the mix (R37 to R41). -/

namespace Sys2Proof.Machine

/-- Multipliers for -24.0 dB to +6.0 dB in steps of 0.5 dB (the table of R38). -/
def multiplierTable : List Int :=
  [1033, 1095, 1159, 1228, 1301, 1378, 1460, 1546, 1638, 1735, 1838, 1947, 2062, 2184, 2314, 2451] ++
  [2596, 2750, 2913, 3086, 3269, 3462, 3667, 3885, 4115, 4359, 4617, 4891, 5181, 5488, 5813, 6157] ++
  [6522, 6909, 7318, 7752, 8211, 8698, 9213, 9759, 10337, 10950, 11598, 12286, 13014, 13785, 14602, 15467] ++
  [16384, 17355, 18384, 19473, 20627, 21849, 23144, 24515, 25967, 27506, 29136, 30862, 32691]

/-- Unity multiplier. -/
def unity : Int := 16384

/-- A trim in half-decibel steps clamped to -24.0 dB to +6.0 dB (R37, R114, R5). -/
def clampTrim (g : Int) : Int := max (-48) (min 12 g)

/-- The multiplier m(g) of a combined trim in half-decibel steps, clamped first (R37, R38). -/
def multiplier (g : Int) : Int :=
  multiplierTable.getD (clampTrim g + 48).toNat unity

/-- `p / q` rounded to the nearest integer, halves away from zero (R39, R82). -/
def roundDiv (p : Int) (q : Nat) : Int :=
  let m := (2 * p.natAbs + q) / (2 * q)
  if p < 0 then -(m : Int) else (m : Int)

/-- One channel value scaled by a multiplier over 16,384 (R39). -/
def scale (x m : Int) : Int := roundDiv (x * m) 16384

/-- A channel of the mix held within 24 bits (R41). -/
def limit24 (x : Int) : Int := max (-8388608) (min 8388607 x)

end Sys2Proof.Machine

namespace Sys2Proof

/-- A sample frame scaled channel by channel (R39). -/
def SampleFrame.scale (f : SampleFrame) (m : Int) : SampleFrame :=
  { l := Machine.scale f.l m, r := Machine.scale f.r m }

/-- Silence. -/
def SampleFrame.zero : SampleFrame := { l := 0, r := 0 }

/-- The exact sum of two sample frames (R41). -/
def SampleFrame.add (f g : SampleFrame) : SampleFrame := { l := f.l + g.l, r := f.r + g.r }

/-- Channels of a mix sample that are replaced by a limit, 0 to 2 (R41). -/
def SampleFrame.clips (f : SampleFrame) : Nat :=
  (if Machine.limit24 f.l = f.l then 0 else 1) + (if Machine.limit24 f.r = f.r then 0 else 1)

/-- A mix sample held within 24 bits (R41). -/
def SampleFrame.limited (f : SampleFrame) : SampleFrame :=
  { l := Machine.limit24 f.l, r := Machine.limit24 f.r }

end Sys2Proof

namespace Sys2Proof.Machine

/-- The multiplier of a ramp at a sample of the sample clock (R40): `m0 + (m1 - m0) * k / n` truncated toward zero, `m1` from the
ramp's end on. -/
def Ramp.value (r : Ramp) (clock : Nat) : Int :=
  if clock < r.start then r.m0
  else if r.n ≤ clock - r.start then r.m1
  else r.m0 + ((r.m1 - r.m0) * ((clock - r.start : Nat) : Int)).tdiv (r.n : Int)

/-- First sample after the ramp. -/
def Ramp.stop (r : Ramp) : Nat := r.start + r.n

/-- A ramp to silence. -/
def Ramp.toSilence (r : Ramp) : Bool := r.m1 = 0 && 0 < r.n

/-- A ramp from the value in force at `clock` to `m1` over `n` samples, which replaces the ramp `r` (R40). -/
def Ramp.retarget (r : Ramp) (clock : Nat) (m1 : Int) (n : Nat) : Ramp :=
  { start := clock, m0 := r.value clock, m1 := m1, n := n }

/-- The value in force of a list of ramps in the order they were set: of those that have begun, the one set last (R101;
notes/assumptions/55.md). -/
def rampsValue (l : List Ramp) (clock : Nat) : Int :=
  match (l.filter fun r => r.start ≤ clock).getLast? with
  | some r => r.value clock
  | none => unity

end Sys2Proof.Machine
end

