-- ==== Sys2Proof/Machine/Bits.lean ====
section
/-! DEFINITION. Byte order, sample frames as bytes, and the CRC-32 (R107, R178, R184). -/

namespace Sys2Proof.Machine

/-- The `k` bytes of `n`, least significant first (R178). -/
def leBytes (n : Nat) : Nat → List Byte
  | 0 => []
  | k + 1 => BitVec.ofNat 8 n :: leBytes (n / 256) k

/-- The number whose bytes, least significant first, are given. -/
def leNat : List Byte → Nat
  | [] => 0
  | b :: t => b.toNat + 256 * leNat t

/-- The `k` bytes of a two's complement integer, least significant first. -/
def leIntBytes (x : Int) (k : Nat) : List Byte :=
  leBytes (x % (2 ^ (8 * k) : Nat)).toNat k

/-- The two's complement integer of 3 bytes. -/
def int24 (a b c : Byte) : Int :=
  let n := leNat [a, b, c]
  if n < 8388608 then (n : Int) else (n : Int) - 16777216

/-- A sample frame as its 6 bytes, left then right, each channel least significant byte first (R107). -/
def frameBytes (f : SampleFrame) : List Byte :=
  leIntBytes f.l 3 ++ leIntBytes f.r 3

/-- The sample frames of a list of bytes, 6 at a time; an incomplete frame at the end is dropped. -/
def framesOfBytes : List Byte → List SampleFrame
  | a :: b :: c :: d :: e :: f :: t => { l := int24 a b c, r := int24 d e f } :: framesOfBytes t
  | _ => []

/-- The bytes of a list of sample frames in time order. -/
def samplesBytes (l : List SampleFrame) : List Byte :=
  l.flatMap frameBytes

/-- One bit into the CRC register (R184). -/
def crcBit (r : Crc) (b : Bool) : Crc :=
  let shifted := r >>> 1
  if (r.getLsbD 0).xor b then shifted ^^^ 0xEDB88320#32 else shifted

/-- One byte into the CRC register, its bits least significant first (R184). -/
def crcByte (r : Crc) (b : Byte) : Crc :=
  [0, 1, 2, 3, 4, 5, 6, 7].foldl (fun r i => crcBit r (b.getLsbD i)) r

/-- The register before any byte (R184). -/
def crcInit : Crc := 0xFFFFFFFF#32

/-- Bytes into the register. -/
def crcUpdate (r : Crc) (bytes : List Byte) : Crc := bytes.foldl crcByte r

/-- The check value of a register: its complement (R184). -/
def crcFinal (r : Crc) : Crc := ~~~r

/-- The check value of a sequence of bytes (R184). -/
def crc32 (bytes : List Byte) : Crc := crcFinal (crcUpdate crcInit bytes)

end Sys2Proof.Machine
end

