-- ==== Sys2Proof/Machine/Memory.lean ====
section
/-! DEFINITION. The store's DRAM as a canonical list of cells, and runs of pages (R106, R107; notes/assumptions/5.md). -/

namespace Sys2Proof.Machine

/-- What a byte of the DRAM that nothing has written reads as (notes/assumptions/5.md). -/
def unwrittenByte : Byte := 0

/-- One byte of memory. -/
def memRead : List Host.Cell → Nat → Byte
  | [], _ => unwrittenByte
  | (a', b) :: t, a => if a = a' then b else memRead t a

/-- A cell in front of a list, left out when it holds what an unlisted address reads as. -/
def memCons (a : Nat) (b : Byte) (t : List Host.Cell) : List Host.Cell :=
  if b = unwrittenByte then t else (a, b) :: t

/-- Write one byte, keeping the canonical form. -/
def memWrite : List Host.Cell → Nat → Byte → List Host.Cell
  | [], a, b => memCons a b []
  | (a', b') :: t, a, b =>
    if a < a' then memCons a b ((a', b') :: t)
    else if a = a' then memCons a b t
    else (a', b') :: memWrite t a b

/-- Every address of a canonical list lies at or above `lo`, addresses rise, and no cell holds what an unlisted address reads as. -/
def memWfFrom : Nat → List Host.Cell → Bool
  | _, [] => true
  | lo, (a, b) :: t => decide (lo ≤ a) && decide (b ≠ unwrittenByte) && memWfFrom (a + 1) t

/-- The canonical form of memory. -/
def memWf (m : List Host.Cell) : Bool := memWfFrom 0 m

/-- Pages in a list of runs. -/
def runsCount (l : List PageRun) : Nat := (l.map PageRun.n).sum

/-- The page at a place of a chain, counting from 0 (R107). -/
def pageAt : List PageRun → Nat → Nat
  | [], _ => 0
  | r :: t, i => if i < r.n then r.lo + i else pageAt t (i - r.n)

/-- The `k` lowest pages of a rising list of runs, and the pages that remain (R106). -/
def takePages : List PageRun → Nat → List PageRun × List PageRun
  | l, 0 => ([], l)
  | [], _ + 1 => ([], [])
  | r :: t, k + 1 =>
    if r.n ≤ k + 1 then
      let (got, left) := takePages t (k + 1 - r.n)
      (r :: got, left)
    else ([{ lo := r.lo, n := k + 1 }], { lo := r.lo + (k + 1), n := r.n - (k + 1) } :: t)

/-- Put a run in front of a rising list, joining it to the first run when they touch. -/
def consRun (r : PageRun) : List PageRun → List PageRun
  | [] => [r]
  | q :: t => if r.lo + r.n = q.lo then { lo := r.lo, n := r.n + q.n } :: t else r :: q :: t

/-- Return a run of pages to a rising list of runs (R106). -/
def giveRun (r : PageRun) : List PageRun → List PageRun
  | [] => [r]
  | q :: t => if r.lo < q.lo then consRun r (q :: t) else consRun q (giveRun r t)

/-- Return a chain to the free page list (R106). -/
def givePages (chain free : List PageRun) : List PageRun :=
  chain.foldr giveRun free

/-- A page lies in a list of runs. -/
def runsHave (l : List PageRun) (p : Nat) : Bool :=
  l.any fun r => decide (r.lo ≤ p) && decide (p < r.lo + r.n)

/-- Bytes in a page (R106). -/
def pageBytes : Nat := 65536

/-- Pages a version of length `n` needs (R107). -/
def pagesFor (n : Nat) : Nat := (6 * n + (pageBytes - 1)) / pageBytes

/-- Address in the DRAM of a byte of a version (R107). -/
def byteAddr (chain : List PageRun) (b : Nat) : Nat :=
  pageBytes * pageAt chain (b / pageBytes) + b % pageBytes

/-- Write bytes of a version from byte `off` on (R98). -/
def writeChain (mem : List Host.Cell) (chain : List PageRun) : Nat → List Byte → List Host.Cell
  | _, [] => mem
  | off, b :: t => writeChain (memWrite mem (byteAddr chain off) b) chain (off + 1) t

/-- Read `n` bytes of a version from byte `off` on (R97, R98). -/
def readChain (mem : List Host.Cell) (chain : List PageRun) (off : Nat) : Nat → List Byte
  | 0 => []
  | n + 1 => memRead mem (byteAddr chain off) :: readChain mem chain (off + 1) n

end Sys2Proof.Machine
end

