-- ==== Sys2Proof/Machine/Ops.lean ====
section
/-! DEFINITION. Access to the parts of the state, frames sent, fault captures, the as-run log and free values. -/

namespace Sys2Proof

/-- The thing of one outlet. -/
def Quad.get {α : Type} (q : Quad α) : OutletId → α
  | .a => q.a
  | .b => q.b
  | .c => q.c
  | .d => q.d

/-- The four things with one of them replaced. -/
def Quad.set {α : Type} (q : Quad α) (o : OutletId) (x : α) : Quad α :=
  match o with
  | .a => { q with a := x }
  | .b => { q with b := x }
  | .c => { q with c := x }
  | .d => { q with d := x }

/-- One function on each of the four. -/
def Quad.mapId {α β : Type} (q : Quad α) (f : OutletId → α → β) : Quad β :=
  ⟨f .a q.a, f .b q.b, f .c q.c, f .d q.d⟩

/-- The outlets in letter order. -/
def OutletId.all : List OutletId := [.a, .b, .c, .d]

/-- The letter as frames carry it, 0 to 3 (R179). -/
def OutletId.code : OutletId → Nat
  | .a => 0
  | .b => 1
  | .c => 2
  | .d => 3

/-- The outlet of a letter code. -/
def OutletId.ofCode : Nat → Option OutletId
  | 0 => some .a
  | 1 => some .b
  | 2 => some .c
  | 3 => some .d
  | _ => none

end Sys2Proof

namespace Sys2Proof.Machine

/-! ### Parts of the state -/

/-- One outlet. -/
def State.out (s : State) (o : OutletId) : Outlet := s.outlets.get o

/-- Replace one outlet. -/
def State.setOut (s : State) (o : OutletId) (x : Outlet) : State := { s with outlets := s.outlets.set o x }

/-- Change one outlet. -/
def State.modOut (s : State) (o : OutletId) (f : Outlet → Outlet) : State := s.setOut o (f (s.out o))

/-- The settled configuration of an outlet. -/
def State.ocfg (s : State) (o : OutletId) : OutletCfg := s.cfg.outlets.get o

/-- The outlet is in SELF mode by a valid configuration. -/
def State.isSelf (s : State) (o : OutletId) : Bool := (s.ocfg o).valid && (s.ocfg o).mode == some .self

/-- The outlet is in FOLLOW mode by a valid configuration. -/
def State.isFollow (s : State) (o : OutletId) : Bool := (s.ocfg o).valid && (s.ocfg o).mode == some .follow

/-- The unit's group time, 0 while it is unset. -/
def State.now (s : State) : Time := s.disc.groupTime.getD 0

/-- The time up to which times have been reached: the group time, or, while a forward step is handled, the passed time in hand (R15). -/
def State.reached (s : State) : Time := s.horizon.getD s.now

/-- What a voice holds, `none` while it is FREE. -/
def State.voice (s : State) (i : Nat) : Option VoiceUse := (s.voices[i]?).bind Voice.use

/-- Replace what a voice holds. -/
def State.setVoice (s : State) (i : Nat) (u : Option VoiceUse) : State :=
  { s with voices := s.voices.modify i fun v => { v with use := u } }

/-- Change what a voice that is not FREE holds. -/
def State.modVoice (s : State) (i : Nat) (f : VoiceUse → VoiceUse) : State :=
  { s with voices := s.voices.modify i fun v => { v with use := v.use.map f } }

/-- The voice of an outlet's holder. -/
def State.voiceOf (s : State) (o : OutletId) (h : Holder) : Option Nat :=
  let i := s.voices.findIdx fun v => v.use.any fun u => u.outlet == o && u.holder == h
  if i < s.voices.length then some i else none

/-- The numbers of an outlet's voices that are not FREE and meet a condition. -/
def State.voicesWhere (s : State) (o : OutletId) (p : VoiceUse → Bool) : List Nat :=
  (List.range s.voices.length).filter fun i => (s.voice i).any fun u => u.outlet == o && p u

/-- A fire line. -/
def State.line (s : State) (n : Nat) : FireLine := s.lines.getD n FireLine.reset

/-- Change a fire line. -/
def State.modLine (s : State) (n : Nat) (f : FireLine → FireLine) : State :=
  { s with lines := s.lines.modify n f }

/-- A sounding voice: PLAYING or RAMPING (R88). -/
def VoiceUse.sounding (u : VoiceUse) : Bool := u.state == .playing || u.state == .ramping

/-- A fitted-break place. -/
def Outlet.place (x : Outlet) : Place → Option FittedBreak
  | .first => x.place1
  | .second => x.place2

/-- Replace what a fitted-break place holds. -/
def Outlet.setPlace (x : Outlet) (p : Place) (b : Option FittedBreak) : Outlet :=
  match p with
  | .first => { x with place1 := b }
  | .second => { x with place2 := b }

/-- The two places. -/
def Place.all : List Place := [.first, .second]

/-- Change the fitted break a place holds. -/
def State.modFit (s : State) (o : OutletId) (p : Place) (f : FittedBreak → FittedBreak) : State :=
  s.modOut o fun x => x.setPlace p ((x.place p).map f)

/-- The fitted break of a place. -/
def State.fit (s : State) (o : OutletId) (p : Place) : Option FittedBreak := (s.out o).place p

/-- The places whose fitted break meets a condition. -/
def Outlet.placesWhere (x : Outlet) (f : FittedBreak → Bool) : List Place :=
  Place.all.filter fun p => (x.place p).any f

/-- A free place, the first one first. -/
def Outlet.freePlace (x : Outlet) : Option Place :=
  if x.place1.isNone then some .first else if x.place2.isNone then some .second else none

/-- A fitted break is RUNNING or SPENT (R44, R72). -/
def FittedBreak.begun (b : FittedBreak) : Bool := b.state == .running || b.state == .spent

/-- Some fitted break of the outlet is RUNNING or SPENT (R71, R72). -/
def Outlet.inBreak (x : Outlet) : Bool := x.place1.any FittedBreak.begun || x.place2.any FittedBreak.begun

/-! ### Air states (R125) -/

/-- Sending air states (R125). -/
def Air.sends : Air → Bool
  | .onAir | .yielding | .fallback => true
  | _ => false

/-- The air state's code in a beacon (R180). -/
def Air.code : Air → Nat
  | .dark => 0
  | .listening => 1
  | .standby => 2
  | .claiming => 3
  | .onAir => 4
  | .yielding => 5
  | .fallback => 6

/-- The outlet plays as in FALLBACK: in FALLBACK, or YIELDING from it (R125). -/
def Outlet.inFallback (x : Outlet) : Bool :=
  x.air == .fallback || (x.air == .yielding && x.yielding.any Yield.fromFallback)

/-- The outlet is sending and plays its timeline: ON_AIR, or YIELDING from ON_AIR (R125). -/
def Outlet.playsTimeline (x : Outlet) : Bool := x.air.sends && !x.inFallback

/-- The lead entry's tag (R3). -/
def Outlet.leadTag (x : Outlet) : Option Nat := x.airOrder.head?

/-- An entry by its tag. -/
def Outlet.entry (x : Outlet) (tag : Nat) : Option Entry := x.entries.find? fun e => e.tag == tag

/-- The lead entry (R3). -/
def Outlet.lead (x : Outlet) : Option Entry := x.leadTag.bind x.entry

/-- Change the entry of a tag. -/
def Outlet.modEntry (x : Outlet) (tag : Nat) (f : Entry → Entry) : Outlet :=
  { x with entries := x.entries.map fun e => if e.tag == tag then f e else e }

/-- Change the entry of a tag on an outlet. -/
def State.modEntry (s : State) (o : OutletId) (tag : Nat) (f : Entry → Entry) : State :=
  s.modOut o fun x => x.modEntry tag f

/-- A BREAK entry (R2). -/
def Entry.isBreak (e : Entry) : Bool :=
  match e.kind with
  | .brk _ _ => true
  | .item _ => false

/-- The timeline context of an entry that is not ON_AIR. -/
def EntryAir.empty : EntryAir :=
  { start := none, offset := 0, sounding := false, sounded := false, since := 0, played := 0, cut := false, takenOver := false, silentUntil := none,
    underfill := none }

/-- The current fallback period. -/
def Outlet.openPeriod (x : Outlet) : Option FallbackPeriod := x.periods.find? fun p => p.ended.isNone

/-- Change a fallback period. -/
def Outlet.modPeriod (x : Outlet) (id : Nat) (f : FallbackPeriod → FallbackPeriod) : Outlet :=
  { x with periods := x.periods.map fun p => if p.id == id then f p else p }

/-! ### Frames sent (R177, R178) -/

/-- Put a frame on the network, with the unit's link address as its source (R177), stamped with its node id and group time, 0 while that
is unset (R178); an ISOLATED unit sends nothing (R145, R195). -/
def State.send (s : State) (b : FrameBody) : State :=
  if s.isolated then s
  else { s with sent := s.sent ++ [{ link := s.linkAddress, sender := s.cfg.nodeId, sentAt := s.now, body := b }] }

/-! ### Free values and free choices (notes/assumptions/4.md, 6.md) -/

/-- Take a free value. -/
def State.free (s : State) : Nat × State :=
  (Config.freeValue s.freeCount, { s with freeCount := s.freeCount + 1 })

/-- Choose one of `n` things where the specification lets either be first; no free value is taken where there is no choice. -/
def State.pick (s : State) (n : Nat) : Nat × State :=
  if n ≤ 1 then (0, s) else (Config.freeValue s.freeCount % n, { s with freeCount := s.freeCount + 1 })

/-- A list in a freely chosen order, by repeated choice of the next (R164). -/
def State.freeOrder {α : Type} : Nat → State → List α → List α × State
  | 0, s, _ => ([], s)
  | fuel + 1, s, l =>
    let (i, s) := s.pick l.length
    match l[i]? with
    | none => ([], s)
    | some x =>
      let (rest, s) := State.freeOrder fuel s (l.eraseIdx i)
      (x :: rest, s)

/-! ### Fault captures (R171 to R173) -/

/-- The class of a kind of fault (R172). -/
def FaultKind.cls : FaultKind → FaultClass
  | .uncorrectable | .verifyMismatch | .streamMismatch => .store
  | .underrun | .noVoice => .fetch
  | .foreignSender | .malformed | .loadSequence => .request
  | .doubleAir | .deadAir | .echoMismatch | .lateCue | .cueOverflow | .sourceLost | .takeover => .air
  | .referenceAbnormal | .timeStep => .clock

/-- The slot of a class. -/
def Captures.slot (c : Captures) : FaultClass → Slot
  | .store => c.store
  | .fetch => c.fetch
  | .request => c.request
  | .air => c.air
  | .clock => c.clock

/-- Replace the slot of a class. -/
def Captures.setSlot (c : Captures) (k : FaultClass) (x : Slot) : Captures :=
  match k with
  | .store => { c with store := x }
  | .fetch => { c with fetch := x }
  | .request => { c with request := x }
  | .air => { c with air := x }
  | .clock => { c with clock := x }

/-- A latch on a slot (R172): the first fault locks it, a later one adds to the lost count, which stops at 65,535. -/
def Slot.latch (x : Slot) (f : FaultInfo) : Slot :=
  match x.first with
  | none => { x with first := some f }
  | some _ => { x with lost := min 65535 (x.lost + 1) }

/-- A fault of a kind with no details. -/
def FaultInfo.bare (k : FaultKind) : FaultInfo :=
  { kind := k, time := none, outlet := none, cart := none, entryTag := none, node := none, page := none, delivered := none,
    block := none }

/-- Latch a fault in its class's slot with the group time of the latch (R172). -/
def State.latch (s : State) (f : FaultInfo) : State :=
  let k := f.kind.cls
  { s with captures := s.captures.setSlot k ((s.captures.slot k).latch { f with time := s.disc.groupTime }) }

/-- Words delivered corrected (R173): the corrected count, which stops at 4,294,967,295. -/
def State.corrected (s : State) (n : Nat) : State :=
  { s with captures := { s.captures with corrected := min 4294967295 (s.captures.corrected + n) } }

/-! ### Tallies (R152, R167, R168) -/

/-- The echo block that holds a group time (R147). -/
def echoBlockOf (t : Time) : Time := t / 4800 * 4800

/-- The worse of two results (R152). -/
def EchoResult.worse : EchoResult → EchoResult → EchoResult
  | .mismatch, _ => .mismatch
  | _, .mismatch => .mismatch
  | .unconfirmed, _ => .unconfirmed
  | _, .unconfirmed => .unconfirmed
  | .confirmed, .confirmed => .confirmed

/-- An empty tally. -/
def Tally.empty : Tally := { blocks := [], worst := .confirmed }

/-- A block joins a tally, once (R152). -/
def Tally.join (t : Tally) (b : Time) : Tally :=
  if t.blocks.any fun x => x.1 == b then t else { t with blocks := t.blocks ++ [(b, false)] }

/-- Whether a block of a tally, if it holds the block, has its final result. -/
def Tally.mark (t : Tally) (b : Time) (fin : Bool) : Tally :=
  { t with blocks := t.blocks.map fun x => if x.1 == b then (b, fin) else x }

/-- A tally takes a result of a block it holds (R152, R168), each result of a block that has had two entries (R147); `fin` tells that no
other entry of the block is still to be judged. -/
def Tally.take (t : Tally) (b : Time) (r : EchoResult) (fin : Bool) : Tally :=
  if t.blocks.any fun x => x.1 == b then { t.mark b fin with worst := t.worst.worse r } else t

/-- Every block of a tally has a final result (R152). -/
def Tally.done (t : Tally) : Bool := t.blocks.all fun x => x.2

/-- The confirmation of a resolved tally (R152). -/
def Tally.verdict (t : Tally) : Confirmation :=
  match t.worst with
  | .confirmed => .confirmed
  | .unconfirmed => .unconfirmed
  | .mismatch => .mismatch

/-- The echo blocks of a span of `n` blocks from `b` on. -/
def blocksFrom (b : Time) : Nat → List Time
  | 0 => []
  | n + 1 => b :: blocksFrom (b + 4800) n

/-- The echo blocks an item sounded in, from its first sample to the sample before `stop`. -/
def spanBlocks (since stop : Time) : List Time :=
  if stop ≤ since then []
  else blocksFrom (echoBlockOf since) (((echoBlockOf (stop - 1) - echoBlockOf since) / 4800).toNat + 1)

/-- An echo block is in progress or still to come: an entry for it is still to be made (R147). -/
def Outlet.inProgress (x : Outlet) (b : Time) : Bool := x.echoBuf.head?.any fun h => echoBlockOf h.time ≤ b

/-- A block of an item's span when its record is written, or as the item takes up a new span (R152): one of the block in progress or still
open in the history waits, one final in the history gives its result, and one that the outlet holds no entry for counts as UNCONFIRMED
unless its result has been taken. -/
def Outlet.settleBlock (x : Outlet) (t : Tally) (b : Time) : Tally :=
  if x.inProgress b then (t.join b).mark b false
  else
    match x.history.find? fun e => e.block == b with
    | some e =>
      match e.result with
      | some r => (t.join b).take b r true
      | none => (t.join b).mark b false
    | none => if t.blocks.any fun y => y.1 == b then t else (t.join b).take b .unconfirmed true

/-- A tally takes up a block in which its item has sounded by the group time `now` (R152). -/
def LiveTally.touch (t : LiveTally) (now : Time) (b : Time) : LiveTally :=
  let stop := t.stopped.getD now
  if t.since < stop ∧ echoBlockOf t.since ≤ b ∧ b < stop then { t with tally := t.tally.join b } else t

/-- A live tally across a backward step of group time, its outlet's last block ended (R147, R152): every block sounded in so far is
settled, and its span begins afresh at the group time stepped to. -/
def Outlet.rewindTally (x : Outlet) (now t : Time) (l : LiveTally) : LiveTally :=
  { l with
    since := t
    stopped := l.stopped.map fun _ => t
    tally := (spanBlocks l.since (l.stopped.getD now)).foldl x.settleBlock l.tally }

/-- The blocks of a tally that are final are behind a backward step: their worst result stays (R152). -/
def Tally.forget (t : Tally) : Tally := { t with blocks := t.blocks.filter fun x => !x.2 }

/-- A live tally whose item sounds again from `now` on, in a later spell on the air: the blocks of its span so far are settled, and its
new span begins (R152). -/
def Outlet.resumeTally (x : Outlet) (now : Time) (l : LiveTally) : LiveTally :=
  { l with
    since := now
    stopped := none
    tally := (spanBlocks l.since (l.stopped.getD now)).foldl x.settleBlock l.tally }

/-- An item begins to sound (R152): its tally begins, or, if it has sounded here before, goes on. -/
def State.tallyStart (s : State) (o : OutletId) (k : AirKey) : State :=
  s.modOut o fun x =>
    { x with
      tallies :=
        if x.tallies.any fun t => t.key == k then x.tallies.map fun t => if t.key == k then x.resumeTally s.now t else t
        else x.tallies ++ [{ key := k, since := s.now, stopped := none, tally := .empty }] }

/-- An item stops sounding; its tally waits for its record. -/
def State.tallyStop (s : State) (o : OutletId) (k : AirKey) : State :=
  s.modOut o fun x =>
    { x with tallies := x.tallies.map fun t =>
        if t.key == k && t.stopped.isNone then { t with stopped := some s.now } else t }

/-- The tally of an item at the sample its record is written, with every block of its span. -/
def State.tallyOf (s : State) (o : OutletId) (k : AirKey) : Option Tally :=
  let x := s.out o
  (x.tallies.find? fun t => t.key == k).map fun t =>
    (spanBlocks t.since (t.stopped.getD s.now)).foldl x.settleBlock t.tally

/-- The tally of an item passes to its record. -/
def State.tallyDrop (s : State) (o : OutletId) (k : AirKey) : State :=
  s.modOut o fun x => { x with tallies := x.tallies.filter fun t => t.key != k }

/-- The result of an entry of an echo block becomes final: every tally of an item that has sounded in the block takes it, and a pending
confirmation whose blocks are then all final resolves (R152, R168). The block waits on while it is in progress again, or has another entry
made as this one leaves (`again`; R147). -/
def State.finalResult (s : State) (o : OutletId) (b : Time) (r : EchoResult) (again : Bool) : State :=
  let fin := !again && !(s.out o).inProgress b
  let s := s.modOut o fun x =>
    { x with tallies := x.tallies.map fun t =>
        let t := t.touch s.now b
        { t with tally := t.tally.take b r fin } }
  let taken := s.log.pending.map fun p => if p.outlet == o then { p with tally := p.tally.take b r fin } else p
  let settled := taken.filter fun p => p.tally.done
  { s with log :=
      { s.log with
        records := s.log.records.map fun rec =>
          match settled.find? fun p => p.seq == rec.seq with
          | some p => { rec with confirmation := p.tally.verdict }
          | none => rec
        pending := taken.filter fun p => !p.tally.done } }

/-! ### The as-run log (R163 to R167) -/

/-- Records the log holds (R165). -/
def logCapacity : Nat := 8192

/-- The log takes a record with the next sequence number; when it is full the record with the lowest number goes, with its tally
(R164, R165, R168). -/
def Log.take (l : Log) (r : Record) (o : OutletId) (t : Option Tally) : Log :=
  let r := { r with seq := l.next }
  let full := l.records.length = logCapacity
  let dropped := if full then l.records.head?.map Record.seq else none
  { records := (if full then l.records.drop 1 else l.records) ++ [r]
    next := l.next + 1
    pending := (l.pending.filter fun p => some p.seq != dropped) ++
      match t with
      | some t => [{ seq := l.next, outlet := o, tally := t }]
      | none => [] }

/-! ### The numbers of the records a command writes (R164, R16) -/

/-- Where a record of `l`, the `i`th, stands (R164): its outlet's group, the groups in the order of their first records, and in it the place
of its entry in the list order of the running order (R16), `lists` being the tags in that order; a record of no entry there stays with the
one of its group before it (notes/assumptions/58.md). -/
def recordPlace (lists : OutletId → List Nat) (l : List Record) (i : Nat) (r : Record) : Nat × Nat :=
  (l.findIdx fun q => q.outlet == r.outlet,
    (((l.take (i + 1)).filter fun q => q.outlet == r.outlet).reverse.findSome? fun q =>
      q.entryTag.bind fun t => (lists q.outlet).findIdx? fun n => n == t).getD 0)

/-- A record takes its place before those that do not stand before it. -/
def insertPlaced (x : (Nat × Nat) × Record) : List ((Nat × Nat) × Record) → List ((Nat × Nat) × Record)
  | [] => [x]
  | y :: t => if y.1.1 < x.1.1 || (y.1.1 == x.1.1 && y.1.2 < x.1.2) then y :: insertPlaced x t else x :: y :: t

/-- Records each in its place. -/
def placeRecords (lists : OutletId → List Nat) (l : List Record) : List Record :=
  ((l.zipIdx.map fun x => (recordPlace lists l x.2 x.1, x.1)).foldr insertPlaced []).map Prod.snd

/-- The records taken since the next sequence was `n` stand in their places, with the numbers they have taken together, and their tallies
with them. -/
def Log.placed (l : Log) (n : Nat) (lists : OutletId → List Nat) : Log :=
  let k := l.records.length - (l.next - n)
  let new := l.records.drop k
  let numbered := (placeRecords lists new).zip (new.map Record.seq)
  { l with
    records := l.records.take k ++ numbered.map fun x => { x.1 with seq := x.2 }
    pending := l.pending.map fun p =>
      { p with seq := ((numbered.find? fun x => x.1.seq == p.seq).map Prod.snd).getD p.seq } }

/-- An outlet writes a record; `key` names the tally of an item that sounded here, whose confirmation is PENDING or already final,
and a record without one is written with confirmation NONE (R167). -/
def State.record (s : State) (o : OutletId) (r : Record) (key : Option AirKey) : State :=
  let r := { r with outlet := o, feed := (s.ocfg o).feed, concealed := min 65535 r.concealed }
  match key with
  | none => { s with log := s.log.take { r with confirmation := .none } o none }
  | some k =>
    match s.tallyOf o k with
    | none => { s with log := s.log.take { r with confirmation := .none } o none }
    | some t =>
      let s := s.tallyDrop o k
      if t.done then { s with log := s.log.take { r with confirmation := t.verdict } o none }
      else { s with log := s.log.take { r with confirmation := .pending } o (some t) }

/-- A record with nothing in it but its source and outcome; `State.record` and `Log.take` fill the outlet, the feed and the sequence
(R166 gives the values of the fields no chapter sets). -/
def Record.blank (src : Source) (out : Outcome) : Record :=
  { seq := 0, outlet := .a, feed := 0, source := src, entryTag := none, breakTag := none, slot := none, cart := 0, serial := 0,
    planned := none, actual := none, played := 0, slip := 0, outcome := out, concealed := 0, stream := .notChecked,
    confirmation := .none, underfill := none }

end Sys2Proof.Machine
end

