-- ==== Sys2Proof/Machine/StoreOps.lean ====
section
/-! DEFINITION. The cart store: directory, use counts, loading, verification, retirement (06_the_cart_store.md). -/

namespace Sys2Proof.Machine

/-! ### The directory (R108) -/

/-- A version named by cart id and load serial. -/
def Version.is (v : Version) (cart serial : Nat) : Bool := v.cart == cart && v.serial == serial

/-- A version by cart id and load serial (R110). -/
def Store.find (st : Store) (cart serial : Nat) : Option Version := st.versions.find? fun v => v.is cart serial

/-- A cart's version of a role (R108). -/
def Store.ofRole (st : Store) (cart : Nat) (r : Role) : Option Version :=
  st.versions.find? fun v => v.cart == cart && v.role == r

/-- A cart's current version: "the cart" to the rest of the unit (R108). -/
def Store.current (st : Store) (cart : Nat) : Option Version := st.ofRole cart .current

/-- A cart's current version when it is usable: READY (R108). -/
def Store.usable (st : Store) (cart : Nat) : Option Version :=
  (st.current cart).filter fun v => v.state == .ready

/-- The recorded version is still its cart's current version and READY (R10, R62, R92). -/
def Store.stillUsable (st : Store) (cart serial : Nat) : Bool := (st.usable cart).any fun v => v.serial == serial

/-- Versions of a cart id. -/
def Store.versionsOf (st : Store) (cart : Nat) : List Version := st.versions.filter fun v => v.cart == cart

/-- Change one version. -/
def Store.modVersion (st : Store) (cart serial : Nat) (f : Version → Version) : Store :=
  { st with versions := st.versions.map fun v => if v.is cart serial then f v else v }

/-- Free a version: its pages return to the free page list and its record leaves the directory (R106, R122). One that voices hold becomes
RETIRING and superseded instead (R111). -/
def Store.freeVersion (st : Store) (cart serial : Nat) : Store :=
  match st.find cart serial with
  | none => st
  | some v =>
    if v.useCount = 0 then
      { st with versions := st.versions.filter fun w => !w.is cart serial, free := givePages v.chain st.free }
    else st.modVersion cart serial fun w => { w with state := .retiring, role := .superseded }

/-! ### Use counts (R111, R122) -/

/-- A voice enters PRIMING on a version. -/
def Store.useUp (st : Store) (cart serial : Nat) : Store :=
  st.modVersion cart serial fun v => { v with useCount := v.useCount + 1 }

/-- A voice lets a version go; a RETIRING version whose count reaches zero is freed (R122). -/
def Store.useDown (st : Store) (cart serial : Nat) : Store :=
  let st := st.modVersion cart serial fun v => { v with useCount := v.useCount - 1 }
  match st.find cart serial with
  | some v => if v.state == .retiring && v.useCount == 0 then st.freeVersion cart serial else st
  | none => st

/-- Quarantine in service: a version that is current and READY becomes QUARANTINED and stays current (R121). -/
def Store.quarantine (st : Store) (cart serial : Nat) : Store :=
  st.modVersion cart serial fun v =>
    if v.role == .current && v.state == .ready then { v with state := .quarantined } else v

/-! ### Transfers of the store -/

/-- The transfer is a load write or verify read of the version. -/
def TransferKind.ofVersion (k : TransferKind) (cart serial : Nat) : Bool :=
  match k with
  | .load p => p.cart == cart && p.serial == serial
  | .verify c n _ _ => c == cart && n == serial
  | _ => false

/-- A load write or verify read for the version is under way (R109). -/
def State.inFlight (s : State) (cart serial : Nat) : Bool := s.transfer.any fun t => t.kind.ofVersion cart serial

/-- Discard a load or verification (R116): the version loses its role, its queued payloads and its place in the verify queue go, and
it is freed at once or at the completion of a transfer in flight. -/
def State.discard (s : State) (cart serial : Nat) : State :=
  let st := s.store.modVersion cart serial fun v => { v with role := .discarding, state := .quarantined }
  let st :=
    { st with
      loadQueue := st.loadQueue.filter fun p => !(p.cart == cart && p.serial == serial)
      verifyQueue := st.verifyQueue.filter fun q => q != (cart, serial)
      sweep := st.sweep.filter fun w => !(w.cart == cart && w.serial == serial) }
  if s.inFlight cart serial then
    { s with store := st, transfer := s.transfer.map fun t => { t with stale := true } }
  else { s with store := st.freeVersion cart serial }

/-! ### Opening a load (R110, R112 to R114) -/

/-- The next load serial after `n`: 65,535 is followed by 1 (R110). -/
def nextSerial (n : Nat) : Nat := if n ≥ 65535 then 1 else n + 1

/-- The load serial a new version of a cart takes: the counter advanced once, and once more if a version of the cart holds it (R110). -/
def Store.newSerial (st : Store) (cart : Nat) : Nat :=
  let n := nextSerial st.serialCounter
  if (st.versionsOf cart).any fun v => v.serial == n then nextSerial n else n

/-- The current version a CART_OPEN would replace: QUARANTINED with use count 0 (R113). -/
def Store.replaced (st : Store) (cart : Nat) : Option Version :=
  (st.current cart).filter fun v => v.state == .quarantined && v.useCount == 0

/-- CART_OPEN is answered BUSY (R112). -/
def Store.openBusy (st : Store) (cart : Nat) : Bool :=
  (st.ofRole cart .incoming).isSome || 2 ≤ (st.versionsOf cart).length
    || (st.current cart).any fun v => v.state == .loading || v.state == .verifying

/-- Versions the directory can hold (R108). -/
def directoryCapacity : Nat := 4096

/-- CART_OPEN is answered FULL (R112); a version the request would replace counts as already freed. -/
def Store.openFull (st : Store) (cart len : Nat) : Bool :=
  let old := st.replaced cart
  runsCount st.free + (old.map fun v => runsCount v.chain).getD 0 < pagesFor len
    || directoryCapacity ≤ st.versions.length - (if old.isSome then 1 else 0)

/-- Kind codes of CART_OPEN (R182). -/
def CartKind.ofCode : Nat → Option CartKind
  | 1 => some .song
  | 2 => some .jingle
  | 3 => some .spot
  | 4 => some .fill
  | 5 => some .bed
  | 6 => some .fallback
  | _ => none

/-- The in-cue as taken (R114). -/
def cueIn (n inCue : Nat) : Nat := if n ≤ inCue then 0 else inCue

/-- The out-cue as taken (R114): limited to the length, and to the length again when it falls before the in-cue taken. -/
def cueOut (n inCue outCue : Nat) : Nat :=
  let o := min outCue n
  if o < cueIn n inCue then n else o

/-- The new version of a CART_OPEN answered OK (R109, R113, R114). -/
def newVersion (f : CartFields) (kind : CartKind) (serial : Nat) (role : Role) (chain : List PageRun) : Version :=
  { cart := f.cart, serial := serial, kind := kind, len := f.len, inCue := cueIn f.len f.inCue,
    outCue := cueOut f.len f.inCue f.outCue, trim := clampTrim f.trim, check := f.check, state := .loading, role := role,
    useCount := 0, chain := chain, received := 0, written := 0, closeTag := none }

/-- Create the version of a CART_OPEN answered OK (R113): a replaced QUARANTINED version is freed first, then the lowest pages are
reserved. The serial is chosen before that version is freed, so it differs from that version's too (R110, notes/assumptions/62.md).
Gives the load serial, the role and the store. -/
def Store.openVersion (st : Store) (f : CartFields) (kind : CartKind) : Nat × Role × Store :=
  let serial := st.newSerial f.cart
  let st :=
    match st.replaced f.cart with
    | some v => st.freeVersion v.cart v.serial
    | none => st
  let role : Role := if (st.current f.cart).isSome then .incoming else .current
  let (chain, rest) := takePages st.free (pagesFor f.len)
  (serial, role,
    { st with
      free := rest
      serialCounter := serial
      versions := st.versions ++ [newVersion f kind serial role chain] })

/-! ### Loading (R115 to R117) -/

/-- The cart's LOADING version with a role (R115, R117). -/
def Store.loading (st : Store) (cart : Nat) : Option Version :=
  st.versions.find? fun v => v.cart == cart && v.state == .loading && (v.role == .current || v.role == .incoming)

/-- Payloads the load receive queue holds (06, section 6.4). -/
def loadQueueCapacity : Nat := 64

/-- A load fails (R116): LOAD_SEQUENCE is latched and the version discarded. -/
def State.failLoad (s : State) (v : Version) (sender : Nat) : State :=
  (s.discard v.cart v.serial).latch
    { FaultInfo.bare .loadSequence with cart := some (v.cart, v.serial), node := some sender }

/-- An accepted payload joins the load receive queue (R115). -/
def Store.accept (st : Store) (v : Version) (offset : Nat) (bytes : List Byte) : Store :=
  let st := st.modVersion v.cart v.serial fun w => { w with received := w.received + bytes.length }
  { st with loadQueue := st.loadQueue ++ [{ cart := v.cart, serial := v.serial, offset := offset, bytes := bytes }] }

/-- An accepted CART_CLOSE (R117): VERIFYING, with its close tag, at the tail of the verify queue. -/
def Store.close (st : Store) (v : Version) (tag : CloseTag) : Store :=
  let st := st.modVersion v.cart v.serial fun w => { w with state := .verifying, closeTag := some tag }
  { st with verifyQueue := st.verifyQueue ++ [(v.cart, v.serial)] }

/-! ### Verification (R118 to R120) -/

/-- A version's bytes (R107). -/
def Version.bytes (v : Version) : Nat := 6 * v.len

/-- A passed or failed verification acts on the entry by the version's role (R120). -/
def State.settleVerification (s : State) (v : Version) (pass : Bool) : State :=
  if pass then
    match v.role with
    | .incoming =>
      let st :=
        match s.store.current v.cart with
        | some old => s.store.freeVersion old.cart old.serial
        | none => s.store
      { s with store := st.modVersion v.cart v.serial fun w => { w with state := .ready, role := .current, closeTag := none } }
    | _ => { s with store := s.store.modVersion v.cart v.serial fun w => { w with state := .ready, closeTag := none } }
  else
    match v.role with
    | .incoming => s.discard v.cart v.serial
    | _ => { s with store := s.store.modVersion v.cart v.serial fun w => { w with state := .quarantined, closeTag := none } }

/-- The verification answer (R119): to the close tag's node and tag, with the version's resulting state. -/
def State.verificationAnswer (s : State) (v : Version) (pass : Bool) : State :=
  match v.closeTag with
  | none => s
  | some c =>
    s.send (.answer
      { dest := c.node, tag := c.tag, kind := 3, outlet := none, followUp := true, result := .ok,
        fields := .verified v.cart v.serial pass })

/-- End the verification of the version (R119): it leaves the verify queue, takes its state by R120, a failure with `latch` set
latches VERIFY_MISMATCH, and the verification answer goes out. -/
def State.endVerification (s : State) (v : Version) (pass latch : Bool) (page : Option Nat) : State :=
  let st :=
    { s.store with
      verifyQueue := s.store.verifyQueue.filter fun q => q != (v.cart, v.serial)
      sweep := s.store.sweep.filter fun w => !(w.cart == v.cart && w.serial == v.serial) }
  let s := { s with store := st }
  let s :=
    if !pass && latch then
      s.latch { FaultInfo.bare .verifyMismatch with cart := some (v.cart, v.serial), page := page }
    else s
  (s.settleVerification v pass).verificationAnswer v pass

/-- The verify read the sweep asks for (R119): the next span, of at most 6,144 bytes, of the version at the head of the verify queue,
once its bytes written equal 6n. -/
def Store.nextVerify (st : Store) : Option TransferKind :=
  match st.verifyQueue.head? with
  | none => none
  | some (cart, serial) =>
    match st.find cart serial with
    | none => none
    | some v =>
      if v.written = v.bytes then
        let off := match st.sweep with
          | some w => if w.cart = cart ∧ w.serial = serial then w.next else 0
          | none => 0
        some (.verify cart serial off (min 6144 (v.bytes - off)))
      else none

/-! ### Dropping (R123) -/

/-- CART_DROP's effect on one version of the cart (R123). -/
def State.dropVersion (s : State) (v : Version) : State :=
  match v.role, v.state with
  | .superseded, _ => s
  | .discarding, _ => s
  | _, .loading => s.discard v.cart v.serial
  | _, .verifying => s.discard v.cart v.serial
  | _, _ => { s with store := s.store.freeVersion v.cart v.serial }

/-! ### RESTART (R124) -/

/-- A VERIFYING version whose bytes written fall short ends its verification as a failure, with no capture (R124). -/
def State.failShort (s : State) (v : Version) : State :=
  if v.state == .verifying && v.written < v.bytes then s.endVerification v false false none else s

/-- The store at a RESTART, after the voice pool has freed every voice (R124): VERIFYING versions that fall short end in directory order
(notes/assumptions/66.md). -/
def State.restartStore (s : State) : State :=
  let s : State := s.store.versions.foldl (fun s v =>
    if v.state == .retiring then { s with store := s.store.freeVersion v.cart v.serial } else s) s
  let s : State := s.store.versions.foldl (fun s v =>
    if v.state == .loading then s.discard v.cart v.serial else s) s
  let st := { s.store with loadQueue := [], sweep := none }
  let s : State := { s with store := st, transfer := s.transfer.map fun t => { t with stale := true } }
  s.store.versions.foldl State.failShort s

end Sys2Proof.Machine
end

