-- ==== Sys2Proof/Machine/Audio.lean ====
section
/-! DEFINITION. Play order of a voice, the samples an outlet makes, and the passing of time (R93, R95, R73, R41, R42, R80;
notes/assumptions/1.md). -/

namespace Sys2Proof.Machine

/-! ### Play order (R93) -/

/-- Samples of a block (R93). -/
def blockLen : Nat := 1024

/-- Samples from the start position to the cart's end. -/
def VoiceUse.firstLen (u : VoiceUse) : Nat := u.len - u.startPos

/-- Samples of one pass from the in-cue to the cart's end. -/
def VoiceUse.loopLen (u : VoiceUse) : Nat := u.len - u.inCue

/-- Blocks from the one holding the start position to the cart's last. -/
def VoiceUse.firstBlocks (u : VoiceUse) : Nat :=
  if u.len ≤ u.startPos then 0 else (u.len - 1) / blockLen - u.startPos / blockLen + 1

/-- Blocks from the one holding the in-cue to the cart's last. -/
def VoiceUse.loopBlocks (u : VoiceUse) : Nat := (u.len - 1) / blockLen - u.inCue / blockLen + 1

/-- The play order has a block at this place: a looping voice's never ends (R93, R94). -/
def VoiceUse.hasBlock (u : VoiceUse) (k : Nat) : Bool := u.looping || k < u.firstBlocks

/-- Index in the cart of the block at a place of the play order. -/
def VoiceUse.blockIndex (u : VoiceUse) (k : Nat) : Nat :=
  if k < u.firstBlocks then u.startPos / blockLen + k
  else u.inCue / blockLen + (k - u.firstBlocks) % u.loopBlocks

/-- Samples the voice sounds before the first sample of the block at a place of the play order. -/
def VoiceUse.blockStart (u : VoiceUse) (k : Nat) : Nat :=
  if k < u.firstBlocks then (if k = 0 then 0 else (u.startPos / blockLen + k) * blockLen - u.startPos)
  else
    let j := k - u.firstBlocks
    u.firstLen + j / u.loopBlocks * u.loopLen +
      (if j % u.loopBlocks = 0 then 0 else (u.inCue / blockLen + j % u.loopBlocks) * blockLen - u.inCue)

/-- Samples sounded at the end of the pass through the cart in progress (R95). -/
def VoiceUse.passEnd (u : VoiceUse) : Nat :=
  if u.looping then u.firstLen + u.passes * u.loopLen else u.firstLen

/-- Cart sample that is sounded after `p` samples; the play position of R88 is this at `sounded`. -/
def VoiceUse.cartSample (u : VoiceUse) (p : Nat) : Nat :=
  if p < u.firstLen then u.startPos + p
  else if u.looping then u.inCue + (p - u.firstLen) % u.loopLen
  else u.len

/-- The play position: the cart sample to be played next (R88). -/
def VoiceUse.position (u : VoiceUse) : Nat := u.cartSample u.sounded

/-- The block of the ring that holds the sample sounded after `p` samples. -/
def VoiceUse.ringBlock (u : VoiceUse) (p : Nat) : Option RingBlock :=
  u.ring.find? fun b => decide (u.blockStart b.ord ≤ p) && decide (p < u.blockStart (b.ord + 1))

/-- The stored sample sounded after `p` samples; silence where the ring holds no block for it. -/
def VoiceUse.raw (u : VoiceUse) (p : Nat) : SampleFrame :=
  match u.ringBlock p with
  | some b => b.data.getD (u.cartSample p - u.blockIndex b.ord * blockLen) .zero
  | none => .zero

/-- What the voice adds to the mix `k` samples on: its sample scaled by the concealment factor and then by the multiplier (R95, R39);
nothing past the end of its pass. -/
def VoiceUse.contribution (u : VoiceUse) (clock k : Nat) : SampleFrame :=
  if u.sounded + k < u.passEnd then
    ((u.raw (u.sounded + k)).scale (rampsValue u.factor (clock + k))).scale (u.mult.value (clock + k))
  else .zero

/-! ### The relay's sample (R73, R77) -/

/-- The source sample `k` samples on: the present slot's sample scaled by the concealment ramp, 0 for a missing slot (R73). -/
def RelayView.source (v : RelayView) (clock k : Nat) : SampleFrame :=
  match v.slot with
  | some (f, some samples) =>
    let t := v.position + k
    if f ≤ t ∧ t < f + 48 then
      (samples.getD (t - f).toNat .zero).scale (v.conceal.value (clock + k))
    else .zero
  | _ => .zero

/-- The relay's contribution to the mix: the source sample scaled by the relay multiplier (R77). -/
def RelayView.contribution (v : RelayView) (clock k : Nat) : SampleFrame :=
  (v.source clock k).scale (v.mult.value (clock + k))

/-! ### Spans -/

/-- The exact sum of the mix `k` samples into a span (R41). -/
def Span.mix (p : Span) (k : Nat) : SampleFrame :=
  (p.voices.map fun u => u.contribution p.clock k).foldl SampleFrame.add
    (match p.relay with
     | some v => v.contribution p.clock k
     | none => .zero)

/-- The samples of the first `n` of a span, before the limit. -/
def Span.samples (p : Span) (n : Nat) : List SampleFrame := (List.range n).map p.mix

/-- A span without its first `k` samples. -/
def Span.drop (p : Span) (k : Nat) : Span :=
  { p with
    time := p.time + k
    clock := p.clock + k
    len := p.len - k
    first := p.first && k == 0
    voices := p.voices.map fun u => { u with sounded := u.sounded + k }
    relay := p.relay.map fun v => { v with position := v.position + k }
    ctx := { p.ctx with breakOffset := p.ctx.breakOffset + k } }

/-- Samples in a list of spans. -/
def spansLen (l : List Span) : Nat := (l.map Span.len).sum

/-- Up to `n` consecutive samples from the front of a list of spans, before the limit, and the spans that remain. A span at which
sending began afresh is not run into: `stop` tells that the samples already taken belong to an earlier spell. -/
def takeSamples : Bool → Nat → List Span → List SampleFrame × List Span
  | _, _, [] => ([], [])
  | stop, n, p :: t =>
    if n = 0 || (stop && p.first) then ([], p :: t)
    else if p.len ≤ n then
      let (got, rest) := takeSamples true (n - p.len) t
      (p.samples p.len ++ got, rest)
    else (p.samples n, p.drop n :: t)

/-- Samples at the front of a list of spans up to the next span at which sending began afresh. -/
def spellLen : Bool → List Span → Nat
  | _, [] => 0
  | stop, p :: t => if stop && p.first then 0 else p.len + spellLen true t

/-- Clipped channels among the samples of a list of spans (R41). -/
def spansClips (l : List Span) : Nat := (l.map fun p => ((p.samples p.len).map SampleFrame.clips).sum).sum

/-- The clip count as it stands, samples not yet framed included (R41). -/
def Outlet.clipCount (x : Outlet) : Nat := min 4294967295 (x.clip + spansClips x.unsent)

/-! ### Where an outlet stands (R44, R76) -/

/-- The followed time of a FOLLOW outlet (R76): the relay's position, or the group time while the relay is UNSET. -/
def State.followed (s : State) (o : OutletId) : Option Time :=
  match (s.out o).relay.position with
  | some p => some p
  | none => s.disc.groupTime

/-- The outlet's position, on which break offsets and due times count: group time on a SELF outlet, followed time on a FOLLOW outlet
(R44). -/
def State.position (s : State) (o : OutletId) : Option Time :=
  if s.isFollow o then s.followed o else s.disc.groupTime

/-- The position up to which an outlet's times have been reached (R15, R86): a step moves it on a SELF outlet alone. -/
def State.reachedPos (s : State) (o : OutletId) : Option Time :=
  if s.isFollow o then s.followed o
  else
    match s.horizon with
    | some t => some t
    | none => s.disc.groupTime

/-- The relay delay (R76): group time less followed time; an unset group time counts as 0 (notes/assumptions/52.md). -/
def State.relayDelay (s : State) (o : OutletId) : Time :=
  match (s.out o).relay.position with
  | some p => s.now - p
  | none => 0

/-- The group time of a position of the outlet (R76). -/
def State.toGroup (s : State) (o : OutletId) (p : Time) : Time :=
  if s.isFollow o then p + s.relayDelay o else p

/-- The fitted break that is RUNNING or SPENT, whose tag and offset the outlet's AUDIO frames carry (R44); of two the first place's
(notes/assumptions/49.md). -/
def Outlet.airBreak (x : Outlet) : Option FittedBreak :=
  match x.place1.filter FittedBreak.begun with
  | some b => some b
  | none => x.place2.filter FittedBreak.begun

/-- The fields of an AUDIO frame as the outlet stands (R22, R42, R44, R127, R179); the entry offset is 0 while the lead has no actual start
(R29; notes/assumptions/48.md). -/
def State.frameCtx (s : State) (o : OutletId) : FrameCtx :=
  let x := s.out o
  let lead := if s.isFollow o then none else x.lead
  let brk := x.airBreak
  { rank := (s.ocfg o).rank
    fallback := x.inFallback
    yielding := x.air == .yielding
    leadTag := (lead.map Entry.tag).getD 0
    leadBase := lead.bind fun e => e.air.start.map fun t => t - e.air.offset
    breakTag := (brk.map FittedBreak.tag).getD 0
    breakOffset :=
      match brk.bind FittedBreak.start, s.position o with
      | some t, some p => p - t
      | _, _ => 0 }

/-- The relay as a span sees it. -/
def State.relayView (s : State) (o : OutletId) : Option RelayView :=
  if s.isFollow o then
    let r := (s.out o).relay
    some { position := r.position.getD 0, slot := r.slot, conceal := r.conceal, mult := r.mult }
  else none

/-- The next `n` samples of an outlet's mix (R41, R42). -/
def State.mixSpan (s : State) (o : OutletId) (n : Nat) : Span :=
  { time := s.now, clock := s.clock, len := n, first := (s.out o).fresh
    voices := s.voices.filterMap fun v => v.use.filter fun u => u.outlet == o && u.sounding
    relay := s.relayView o
    ctx := s.frameCtx o }

/-- The next `n` source samples of a FOLLOW outlet's relay, as the dead-air watch meters them (R73, R157). -/
def State.sourceSpan (s : State) (o : OutletId) (n : Nat) : Span :=
  { s.mixSpan o n with
    first := false
    voices := []
    relay := (s.relayView o).map fun v => { v with mult := .steady unity } }

/-! ### Time passing (R80, R95, R42) -/

/-- A voice after `n` samples: a sounding one has sounded them, up to the end of its pass, where it waits for the command that ends
it or takes it back to its in-cue. -/
def VoiceUse.elapse (u : VoiceUse) (n : Nat) : VoiceUse :=
  if u.sounding then { u with sounded := max u.sounded (min (u.sounded + n) u.passEnd) } else u

/-- A meter after a span, while it runs (R157). -/
def Meter.feed (m : Meter) (p : Span) : Meter := if m.running then { m with buf := m.buf ++ [p] } else m

/-- A span joins the samples of the echo block in progress (R147); after a step of group time only from the next frame on. -/
def Outlet.feedEcho (x : Outlet) (p : Span) : Outlet :=
  let k := ((-p.time) % 48).toNat
  { x with
    echoBuf :=
      if x.echoSkip then (if p.len ≤ k then x.echoBuf else x.echoBuf ++ [p.drop k])
      else x.echoBuf ++ [p]
    echoSkip := x.echoSkip && decide (p.len ≤ k) }

/-- An outlet after `n` samples: what it sends joins the samples to be framed, metered and checked, and its relay's position moves on
(R42, R73, R147, R157). -/
def State.elapseOutlet (s : State) (n : Nat) (o : OutletId) (x : Outlet) : Outlet :=
  let x :=
    if x.air.sends then
      let p := s.mixSpan o n
      { x.feedEcho p with
        unsent := x.unsent ++ [p]
        fresh := false
        programme := x.programme.feed p }
    else x
  { x with
    source := x.source.feed (s.sourceSpan o n)
    relay := { x.relay with position := x.relay.position.map fun p => p + n } }

/-- `n` samples of the unit's sample clock pass. -/
def State.elapse (s : State) (n : Nat) : State :=
  if n = 0 then s
  else
    { s with
      clock := s.clock + n
      disc :=
        { s.disc with
          groupTime := s.disc.groupTime.map fun t => t + n
          candidate := s.disc.candidate.map fun c => (c.1 + n, c.2) }
      voices := s.voices.map fun v => { v with use := v.use.map fun u => u.elapse n }
      outlets := s.outlets.mapId fun o x => s.elapseOutlet n o x }

end Sys2Proof.Machine
end

