-- ==== Sys2Proof/Machine/VoiceOps.lean ====
section
/-! DEFINITION. The voice pool: reservation, requests and grants, priming, judging, ends and reports (05, sections 5.1 to 5.6), with
what the owner's check at a grant does to the holder (R10, R63, R159). -/

namespace Sys2Proof.Machine

/-! ### The pool (R87) -/

/-- Two voices set aside for each enabled outlet in letter order, the rest shared, all FREE (R87). -/
def poolFor (cfg : UnitCfg) : List Voice :=
  let reserved := (OutletId.all.filter fun o => (cfg.outlets.get o).enabled).flatMap fun o => [some o, some o]
  (reserved ++ List.replicate (12 - reserved.length) none).map fun r => { reserved := r, use := none }

/-! ### Reports (R95, R104) -/

/-- What a voice hands its owner at its end (R95). -/
structure VoiceReport where
  sounded : Nat
  concealed : Nat
  stream : StreamCheck
  atEnd : Bool
  deriving DecidableEq, Repr

/-- The report of an item no voice sounded. -/
def VoiceReport.none : VoiceReport := { sounded := 0, concealed := 0, stream := .notChecked, atEnd := false }

/-- The voice has sounded the last sample of its pass through the cart. -/
def VoiceUse.atPassEnd (u : VoiceUse) : Bool := u.sounding && u.passEnd ≤ u.sounded

/-- A voice's report (R95, R104): a settled stream check, else NOT_CHECKED. -/
def VoiceUse.report (u : VoiceUse) : VoiceReport :=
  { sounded := u.sounded, concealed := u.concealed, stream := u.streamDone.getD .notChecked,
    atEnd := !u.looping && u.passEnd ≤ u.sounded }

/-! ### Blocks that leave the ring, and the stream check (R94, R104) -/

/-- The block being played has played its last sample. -/
def VoiceUse.blockDone (u : VoiceUse) : Bool :=
  u.hasBlock u.leftOrd && u.blockStart (u.leftOrd + 1) ≤ u.sounded

/-- A block that has played its last sample leaves the ring, and a VALID stream check takes its bytes (R94, R104). -/
def VoiceUse.leaveBlock (u : VoiceUse) : VoiceUse :=
  if u.blockDone then
    let stream :=
      match u.stream, u.ring.find? fun b => b.ord == u.leftOrd with
      | .valid c n, some b =>
        if u.leftOrd < u.firstBlocks then .valid (crcUpdate c (samplesBytes b.data)) (n + 6 * b.data.length) else .valid c n
      | _, _ => .void
    { u with leftOrd := u.leftOrd + 1, ring := u.ring.filter fun b => b.ord != u.leftOrd, stream := stream }
  else u

/-- Every block that has played its last sample leaves the ring. -/
def VoiceUse.leaveBlocks : Nat → VoiceUse → VoiceUse
  | 0, u => u
  | k + 1, u => if u.blockDone then VoiceUse.leaveBlocks k u.leaveBlock else u

/-- The stream check settles as the cart's last sample is played for the first time (R104): PASS, or FAIL with STREAM_MISMATCH and a
quarantine, or NOT_CHECKED when it is VOID. -/
def State.settleStream (s : State) (i : Nat) : State :=
  match s.voice i with
  | none => s
  | some u =>
    if u.streamDone.isSome then s
    else
      let u := VoiceUse.leaveBlocks u.firstBlocks u
      match u.stream, s.store.find u.cart u.serial with
      | .valid c _, some v =>
        if crcFinal c = v.check then s.setVoice i (some { u with streamDone := some .pass })
        else
          let s := s.setVoice i (some { u with streamDone := some .fail })
          let s := s.latch
            { FaultInfo.bare .streamMismatch with outlet := some u.outlet, cart := some (u.cart, u.serial) }
          { s with store := s.store.quarantine u.cart u.serial }
      | _, _ => s.setVoice i (some { u with streamDone := some .notChecked })

/-! ### Leaving the running order (R16) -/

/-- The as-run record of an entry that leaves (R16, R166); the actual start is there if the entry sounded on this outlet
(notes/assumptions/45.md). -/
def entryRecord (e : Entry) (out : Outcome) (rep : VoiceReport) (played : Nat) (under : Option Nat) : Record :=
  let actual := if e.air.sounded then e.air.start else none
  { Record.blank .entry out with
    entryTag := some e.tag
    breakTag := match e.kind with
      | .brk t _ => some t
      | .item _ => none
    cart := match e.kind, e.serial with
      | .item c, some _ => c
      | _, _ => 0
    serial := match e.kind, e.serial with
      | .item _, some n => n
      | _, _ => 0
    planned := e.planned
    actual := actual
    played := played
    slip := match actual, e.planned with
      | some a, some p => a - p
      | _, _ => 0
    concealed := rep.concealed
    stream := rep.stream
    underfill := under }

/-- Take an entry out of the running order, its slots and the order of the ON_AIR entries, without a record. -/
def Outlet.dropEntry (x : Outlet) (tag : Nat) : Outlet :=
  { x with
    entries := x.entries.filter fun e => e.tag != tag
    seqSlot := x.seqSlot.filter fun t => t != tag
    anchorSlot := x.anchorSlot.filter fun t => t != tag
    airOrder := x.airOrder.filter fun t => t != tag }

/-- An entry leaves with an outcome and its record is written (R16): PENDING if it sounded here. -/
def State.leaveEntry (s : State) (o : OutletId) (tag : Nat) (out : Outcome) (rep : VoiceReport) (played : Nat)
    (under : Option Nat) : State :=
  match (s.out o).entry tag with
  | none => s
  | some e =>
    let s := s.record o (entryRecord e out rep played under) (if e.air.sounded then some (.entry tag) else none)
    s.modOut o fun x => x.dropEntry tag

/-- An entry that has not sounded leaves. -/
def State.leaveSilent (s : State) (o : OutletId) (tag : Nat) (out : Outcome) : State :=
  s.leaveEntry o tag out .none 0 none

/-- An entry found unusable leaves SKIPPED_UNAVAILABLE and hands its start on (R10): to the entry already in the sequence slot that
waits for its start, or to the one that fills the slot next. -/
def State.skipEntry (s : State) (o : OutletId) (tag : Nat) : State :=
  let x := s.out o
  match x.entry tag with
  | none => s
  | some e =>
    let s := s.leaveSilent o tag .skippedUnavailable
    let handed : ArmedStart := match e.state, e.planned with
      | .onAir, some t => .time t
      | _, _ => e.start
    if x.seqSlot = some tag then s.modOut o fun x => { x with inherit := some handed }
    else if e.state = .onAir then
      match x.seqSlot with
      | some t =>
        s.modEntry o t fun e => if e.start = .afterLead then { e with start := handed, planned := match handed with
          | .time t => some t
          | _ => none } else e
      | none => s.modOut o fun x => { x with inherit := some handed }
    else s

/-! ### Priming (R93) -/

/-- A cart sample `in-cue + o`; where that lies before sample 0 the specification gives none, so it is a free value
(notes/assumptions/7.md). -/
def State.startSample (s : State) (inCue : Nat) (o : Int) : Nat × State :=
  if 0 ≤ (inCue : Int) + o then (((inCue : Int) + o).toNat, s) else s.free

/-- A voice as it enters PRIMING (R93). -/
def freshUse (o : OutletId) (h : Holder) (v : Version) (startPos : Nat) (looping : Bool) (needed : Time) : VoiceUse :=
  let u : VoiceUse :=
    { state := .priming, outlet := o, holder := h, cart := v.cart, serial := v.serial, len := v.len, inCue := v.inCue,
      looping := looping, startPos := startPos, needed := needed, ring := [], delivered := 0, nextOrd := 0, leftOrd := 0,
      judged := 0, lastGood := true, underrun := false, sounded := 0, passes := 0, mult := .steady 0,
      factor := [.steady unity], stream := if startPos = 0 then .valid crcInit 0 else .void, streamDone := none,
      concealed := 0, bad := false }
  if u.hasBlock 0 then u else { u with state := .primed }

/-- Blocks of the prime set (R93). -/
def VoiceUse.primeSet (u : VoiceUse) : Nat := if u.looping then 4 else min 4 u.firstBlocks

/-- A voice enters PRIMING on a version, whose use count rises; that of a version it leaves for it falls (R93, R111). -/
def State.prime (s : State) (i : Nat) (o : OutletId) (h : Holder) (v : Version) (startPos : Nat) (looping : Bool)
    (needed : Time) : State :=
  let st := s.store.useUp v.cart v.serial
  let st := match s.voice i with
    | some u => st.useDown u.cart u.serial
    | none => st
  ({ s with store := st } : State).setVoice i (some (freshUse o h v startPos looping needed))

/-! ### The owner's check at a grant (R89, R10, R62, R63, R92, R159) -/

/-- Change one item of a fitted break. -/
def FittedBreak.modItem (b : FittedBreak) (k : Nat) (f : BreakItem → BreakItem) : FittedBreak :=
  { b with items := b.items.modify k f }

/-- The bed recorded in the fit, when its version is still current and READY (R63). -/
def State.fitBed (s : State) (b : FittedBreak) : Option Version :=
  b.bedCart.bind fun c => (s.store.usable c.1).filter fun v => v.serial == c.2

/-- A slot's voice is granted: a usable item or tail bed primes; an unusable item is substituted by the bed or by silence (R62, R63);
the tail of an unusable bed becomes SILENCE or EARLY_REJOIN (R62), a SILENCE tail taken over beginning at the takeover
(notes/assumptions/29.md). -/
def State.grantSlot (s : State) (i : Nat) (r : VoiceRequest) (p : Place) (k : Nat) : State :=
  let o := r.outlet
  match s.fit o p with
  | none => s
  | some b =>
    match b.items[k]? with
    | some it =>
      match (s.store.usable it.cart).filter fun v => v.serial == it.serial with
      | some v =>
        let start := match b.resume with
          | some (k', pos, _) => if k' = k then pos else v.inCue
          | none => v.inCue
        (s.prime i o r.holder v start false r.needed).modFit o p fun b =>
          b.modItem k fun it => { it with progress := .priming }
      | none =>
        let s := s.modFit o p fun b => b.modItem k fun it =>
          { it with progress := .substituted, actual := none, played := 0, concealed := 0, stream := .notChecked }
        match s.fitBed b with
        | some v => s.prime i o r.holder v v.inCue true r.needed
        | none => s
    | none =>
      match s.fitBed b with
      | some v => s.prime i o r.holder v (v.inCue + b.tailSkip) true r.needed
      | none =>
        s.modFit o p fun b =>
          if s.isFollow o then { b with tail := .earlyRejoin, tailBegan := none }
          else
            { b with
              tail := .silence
              tailBegan := if b.resume.any fun r => r.1 == k then b.tailBegan.bind fun _ => b.due else b.tailBegan }

/-- The fallback voice is granted (R92, R159): a usable fallback cart primes as a looping voice, otherwise the period is silent. -/
def State.grantFallback (s : State) (i : Nat) (r : VoiceRequest) (id : Nat) : State :=
  let o := r.outlet
  match (s.ocfg o).fallbackCart.bind s.store.usable with
  | some v =>
    (s.prime i o r.holder v v.inCue true r.needed).modOut o fun x =>
      x.modPeriod id fun q => { q with granted := true, serial := some v.serial }
  | none => s.modOut o fun x => x.modPeriod id fun q => { q with granted := true }

/-- An entry whose version is found unusable at its voice's grant is to leave at this sample (R10): it does so after the records its
cause writes (R164; notes/assumptions/6.md). -/
def State.loseEntry (s : State) (o : OutletId) (tag : Nat) : State := s.modEntry o tag fun e => { e with lost := true }

/-- A grant of a FREE voice with the owner's check at the same sample (R89). A voice whose check fails stays FREE. -/
def State.grant (s : State) (i : Nat) (r : VoiceRequest) : State :=
  match r.holder with
  | .entry tag =>
    match (s.out r.outlet).entry tag with
    | none => s
    | some e =>
      match e.kind, e.serial with
      | .item cart, some n =>
        match (s.store.usable cart).filter fun v => v.serial == n with
        | some v =>
          let (pos, s) := s.startSample v.inCue e.air.offset
          s.prime i r.outlet r.holder v pos false r.needed
        | none => s.loseEntry r.outlet tag
      | _, _ => s
  | .slot p k => s.grantSlot i r p k
  | .fallback id => s.grantFallback i r id
  | .line _ => s

/-! ### The voice request queue (R89 to R92) -/

/-- A request of a fallback period. -/
def VoiceRequest.isFallback (r : VoiceRequest) : Bool :=
  match r.holder with
  | .fallback _ => true
  | _ => false

/-- A waiting request stands before a new one: earlier needed start, or the same and a letter not later (R90). -/
def VoiceRequest.before (q r : VoiceRequest) : Bool :=
  q.needed < r.needed || (q.needed == r.needed && q.outlet.code ≤ r.outlet.code)

/-- Place a request in the queue in order of needed start, then outlet letter, then placing (R90). -/
def enqueue (q : List VoiceRequest) (r : VoiceRequest) : List VoiceRequest :=
  q.takeWhile (fun x => x.before r) ++ r :: q.dropWhile fun x => x.before r

/-- The lowest-numbered FREE voice reserved as given. -/
def State.freeVoice (s : State) (r : Option OutletId) : Option Nat :=
  let i := s.voices.findIdx fun v => v.use.isNone && v.reserved == r
  if i < s.voices.length then some i else none

/-- The FREE voice that serves an outlet at once (R89, R92): its lowest reserved voice, otherwise the lowest shared one. -/
def State.voiceFor (s : State) (o : OutletId) : Option Nat :=
  match s.freeVoice (some o) with
  | some i => some i
  | none => s.freeVoice none

/-- Place a voice request (R89): granted at once if a FREE voice serves it, a fallback request by reserved voices alone (R92),
otherwise it waits. -/
def State.request (s : State) (r : VoiceRequest) : State :=
  match if r.isFallback then s.freeVoice (some r.outlet) else s.voiceFor r.outlet with
  | some i => s.grant i r
  | none => { s with voiceQueue := enqueue s.voiceQueue r }

/-- The waiting request a FREE voice is offered to (R91): a reserved voice to its own outlet, fallback first; a shared one to the head
of the queue, passing over fallback requests. -/
def State.claimant (s : State) (i : Nat) : Option VoiceRequest :=
  match s.voices[i]? with
  | none => none
  | some v =>
    if v.use.isSome then none
    else
      match v.reserved with
      | some o =>
        let mine := s.voiceQueue.filter fun r => r.outlet == o
        match mine.find? VoiceRequest.isFallback with
        | some r => some r
        | none => mine.head?
      | none => s.voiceQueue.find? fun r => !r.isFallback

/-- Offer FREE voices to waiting requests until none is claimed (R91); where several are free at once either may be offered first. -/
def State.offer : Nat → State → State
  | 0, s => s
  | fuel + 1, s =>
    let open_ := (List.range s.voices.length).filter fun i => (s.claimant i).isSome
    let (n, s) := s.pick open_.length
    match open_[n]? with
    | none => s
    | some i =>
      match s.claimant i with
      | none => s
      | some r => State.offer fuel (({ s with voiceQueue := s.voiceQueue.erase r } : State).grant i r)

/-- Offers for as long as requests wait: each offer takes one request from the queue. -/
def State.offerAll (s : State) : State := State.offer s.voiceQueue.length s

/-- The voice of a transfer. -/
def TransferKind.voice : TransferKind → Option Nat
  | .refill i _ => some i
  | .priming i _ => some i
  | _ => none

/-- A voice becomes FREE (R91, R96, R103): a set bad-data mark asks for quarantine, the use count falls, and a transfer in flight for
the voice is discarded at its end. The voice is not offered yet. -/
def State.dropVoice (s : State) (i : Nat) : State :=
  match s.voice i with
  | none => s
  | some u =>
    let st := if u.bad then s.store.quarantine u.cart u.serial else s.store
    let tr := s.transfer.map fun (t : Transfer) => if t.kind.voice == some i then { t with stale := true } else t
    ({ s with store := st.useDown u.cart u.serial, transfer := tr } : State).setVoice i none

/-- Voices become FREE and are offered (R91). -/
def State.freeVoices (s : State) (l : List Nat) : State := (l.foldl State.dropVoice s).offerAll

/-- A holder gives up its waiting request, or the voice it holds, which becomes FREE and is offered (R90, R96). -/
def State.giveUp (s : State) (o : OutletId) (h : Holder) : State :=
  let s := { s with voiceQueue := s.voiceQueue.filter fun r => !(r.outlet == o && r.holder == h) }
  match s.voiceOf o h with
  | some i => s.freeVoices [i]
  | none => s

/-- Give up what every holder of a kind holds or awaits: the requests leave the queue and the voices become FREE (R90, R96). -/
def State.giveUpWhere (s : State) (o : OutletId) (h : Holder → Bool) : State :=
  let s : State := { s with voiceQueue := s.voiceQueue.filter fun r => !(r.outlet == o && h r.holder) }
  s.freeVoices (s.voicesWhere o fun u => h u.holder)

/-- A holder has a voice PRIMED. -/
def State.primedVoice (s : State) (o : OutletId) (h : Holder) : Option Nat :=
  (s.voiceOf o h).filter fun i => (s.voice i).any fun u => u.state == .primed

/-! ### Judging blocks (R100 to R102) -/

/-- The running-order entry a voice plays for, if any (R99, R102). -/
def VoiceUse.entryTag (u : VoiceUse) : Option Nat :=
  match u.holder with
  | .entry t => some t
  | _ => none

/-- The voice will reach the first sample of its next block to judge before a ramp to silence ends it (R100). -/
def VoiceUse.reaches (u : VoiceUse) (k clock : Nat) : Bool :=
  u.hasBlock k && (u.state != .ramping || u.blockStart k - u.sounded < u.mult.stop - clock)

/-- The next block to judge is at or past its judge point, 480 samples before its first sample (R100). -/
def VoiceUse.judgeDue (u : VoiceUse) (clock : Nat) : Bool :=
  u.sounding && u.reaches u.judged clock && u.blockStart u.judged ≤ u.sounded + 480

/-- A block judged good (R100, R101): after a concealed one the factor ramps from 0 to 16,384 over 480 samples from its first sample. -/
def VoiceUse.judgeGood (u : VoiceUse) (clock : Nat) : VoiceUse :=
  let at_ := clock + (u.blockStart u.judged - u.sounded)
  { u with
    judged := u.judged + 1
    lastGood := true
    underrun := false
    factor := if u.lastGood then u.factor
      else u.factor ++ [{ start := at_, m0 := rampsValue u.factor at_, m1 := unity, n := 480 }] }

/-- A block concealed (R101): it counts, the stream check is VOID, fetching moves past it, and the factor goes to 0 by its first
sample. One concealed for bad data stays in the ring, where R99 places it, to its last sample (notes/assumptions/54.md); a ramp that
starts before one already set gives way to it once that has begun (notes/assumptions/55.md). -/
def VoiceUse.conceal (u : VoiceUse) (clock : Nat) (underrun : Bool) : VoiceUse :=
  let n := u.blockStart u.judged - u.sounded
  { u with
    judged := u.judged + 1
    lastGood := false
    underrun := underrun
    concealed := u.concealed + 1
    stream := .void
    nextOrd := max u.nextOrd (u.judged + 1)
    factor :=
      if u.judged = 0 then [.steady 0]
      else if u.lastGood then u.factor ++ [{ start := clock, m0 := rampsValue u.factor clock, m1 := 0, n := n }]
      else u.factor }

/-- Judge the voice's next block (R100): good, concealed for bad data, or concealed for underrun, whose first of a run latches
UNDERRUN (R102). -/
def State.judge (s : State) (i : Nat) : State :=
  match s.voice i with
  | none => s
  | some u =>
    match u.ring.find? fun b => b.ord == u.judged with
    | some b =>
      s.setVoice i (some (if b.flagged then u.conceal s.clock false else u.judgeGood s.clock))
    | none =>
      let s := s.setVoice i (some (u.conceal s.clock true))
      if u.underrun then s
      else s.latch
        { FaultInfo.bare .underrun with
          outlet := some u.outlet
          cart := some (u.cart, u.serial)
          entryTag := u.entryTag
          delivered := some u.delivered }

/-- Judge, at a voice's first PLAYING sample, the first block of play and every block that begins less than 480 samples on (R100). -/
def State.judgeFirst : Nat → State → Nat → State
  | 0, s, _ => s
  | fuel + 1, s, i =>
    match s.voice i with
    | some u =>
      if u.reaches u.judged s.clock && (u.judged == 0 || u.blockStart u.judged < 480) then
        State.judgeFirst fuel (s.judge i) i
      else s
    | none => s

/-- A PRIMED voice becomes PLAYING at the sample its owner starts it (R95), with what its owner sets on it at that sample; its first
blocks are judged with that in force, as a ramp to silence may end it before it reaches them (R100). -/
def State.startVoiceWith (s : State) (i : Nat) (set : VoiceUse → VoiceUse) : State :=
  State.judgeFirst 481 (s.modVoice i fun u => set { u with state := .playing }) i

/-- A PRIMED voice becomes PLAYING with a multiplier and its ramp (R95, R25). -/
def State.startVoice (s : State) (i : Nat) (mult : Ramp) : State := s.startVoiceWith i fun u => { u with mult := mult }

/-! ### Ramps and multipliers of voices (R37, R40) -/

/-- The multiplier of a voice of a version with an entry's gain trim added (R37). -/
def State.voiceMult (s : State) (u : VoiceUse) (entryTrim : Int) : Int :=
  multiplier (entryTrim + ((s.store.find u.cart u.serial).map Version.trim).getD 0)

/-- A ramp to silence over `n` samples from now; a voice already in one keeps whichever reaches 0 sooner (R40, R29). -/
def VoiceUse.rampOut (u : VoiceUse) (clock n : Nat) : VoiceUse :=
  if u.state == .ramping && u.mult.stop ≤ clock + n then u
  else if u.sounding then { u with state := .ramping, mult := u.mult.retarget clock 0 n }
  else u

/-- A ramp to silence over `n` samples that ends `left` samples from now, as if it had begun at its own place (R64, R65): the value
in force follows that ramp. -/
def VoiceUse.rampOutEnding (u : VoiceUse) (clock n left : Nat) : VoiceUse :=
  let r : Ramp :=
    if n ≤ clock + left then { start := clock + left - n, m0 := u.mult.value clock, m1 := 0, n := n }
    else { start := clock, m0 := u.mult.value clock, m1 := 0, n := left }
  if u.state == .ramping && u.mult.stop ≤ clock + left then u
  else if u.sounding then { u with state := .ramping, mult := r }
  else u

/-- A break voice enters at multiplier `m` (R62 to R64); one taken up part-way ramps in over 480 samples (R69). Where `out` tells that a
ramp to silence over `n` samples, ending `left` samples on, has begun before it (R64, R65), the voice follows that ramp at its own place,
with the ramp-in as its factor (notes/assumptions/60.md). -/
def VoiceUse.enter (u : VoiceUse) (clock : Nat) (m : Int) (part : Bool) (out : Option (Nat × Nat)) : VoiceUse :=
  let rampIn (m1 : Int) : Ramp := { start := clock, m0 := 0, m1 := m1, n := 480 }
  match out with
  | none => { u with mult := if part then rampIn m else .steady m }
  | some (n, left) =>
    ({ u with mult := .steady m, factor := if part then [rampIn unity] else u.factor } : VoiceUse).rampOutEnding clock n left

/-- A voice that has just played its cart's last sample for the first time settles its stream check before it reports (R104). -/
def State.settlePass (s : State) (i : Nat) : State :=
  if (s.voice i).any VoiceUse.atPassEnd then s.settleStream i else s

/-- Stop a voice: its stream check as it stands, its report, and the voice FREE but not yet offered (R96, R104). -/
def State.stopVoice (s : State) (i : Nat) : VoiceReport × State :=
  let s := s.settlePass i
  match s.voice i with
  | none => (.none, s)
  | some u => (u.report, s.dropVoice i)

end Sys2Proof.Machine
end

