-- ==== Sys2Proof/Machine/FetchOps.lean ====
section
/-! DEFINITION. The fetch engine: choice of a transfer and what each completion does (05, section 5.4; R115, R119). -/

namespace Sys2Proof.Machine

/-- A PLAYING or RAMPING voice wants a refill (R94); a block concealed for bad data counts as buffered (notes/assumptions/54.md). -/
def VoiceUse.wantsRefill (u : VoiceUse) (clock : Nat) : Bool :=
  u.sounding && u.ring.length < 6 && u.reaches u.nextOrd clock

/-- A PRIMING voice has a block of its prime set not yet fetched (R97). -/
def VoiceUse.wantsPriming (u : VoiceUse) : Bool := u.state == .priming && u.delivered < u.primeSet

/-- The number of the voice with the least key among those that give one; the lower number wins a tie (R97). -/
def leastVoice (key : VoiceUse → Option Int) : Nat → List Voice → Option (Int × Nat)
  | _, [] => none
  | i, v :: t =>
    let rest := leastVoice key (i + 1) t
    match v.use.bind key, rest with
    | none, r => r
    | some k, none => some (k, i)
    | some k, some (k', j) => if k ≤ k' then some (k, i) else some (k', j)

/-- The refill the engine would begin: the voice with the fewest buffered blocks (R97). -/
def State.nextRefill (s : State) : Option TransferKind :=
  (leastVoice (fun u => if u.wantsRefill s.clock then some (u.ring.length : Int) else none) 0 s.voices).bind fun c =>
    (s.voice c.2).map fun u => .refill c.2 u.nextOrd

/-- The priming transfer the engine would begin: the voice with the earliest needed start (R97). -/
def State.nextPriming (s : State) : Option TransferKind :=
  (leastVoice (fun u => if u.wantsPriming then some u.needed else none) 0 s.voices).bind fun c =>
    (s.voice c.2).map fun u => .priming c.2 u.nextOrd

/-- The transfer of highest precedence that has a candidate (R97). -/
def State.nextTransfer (s : State) : Option TransferKind :=
  match s.nextRefill with
  | some t => some t
  | none =>
    match s.nextPriming with
    | some t => some t
    | none =>
      match s.store.loadQueue.head? with
      | some p => some (.load p)
      | none => s.store.nextVerify

/-- The transfer begins: a payload leaves the head of the load receive queue, and the sweep takes up its version (R97, R98, R119). -/
def State.beginTransfer (s : State) (k : TransferKind) : State :=
  let st := match k with
    | .load _ => { s.store with loadQueue := s.store.loadQueue.drop 1 }
    | .verify c n off _ =>
      if off = 0 then { s.store with sweep := some { cart := c, serial := n, next := 0, crc := crcInit } } else s.store
    | _ => s.store
  { s with store := st, transfer := some { kind := k, stale := false } }

/-- An idle engine begins the transfer of highest precedence that has a candidate (R97). -/
def State.pump (s : State) : State :=
  if s.transfer.isSome then s
  else
    match s.nextTransfer with
    | some k => s.beginTransfer k
    | none => s

/-- The samples of a block of a version as the store reads them (R93, R107). -/
def Store.readBlock (st : Store) (v : Version) (idx : Nat) : List SampleFrame :=
  framesOfBytes (readChain st.mem v.chain (6 * blockLen * idx) (6 * min blockLen (v.len - blockLen * idx)))

/-- A version awaiting its discard is freed at the completion of its transfer (R116). -/
def State.freeDiscarded (s : State) (cart serial : Nat) : State :=
  match s.store.find cart serial with
  | some v => if v.role == .discarding then { s with store := s.store.freeVersion cart serial } else s
  | none => s

/-- A block read for a voice completes (R93, R94, R99): the block joins the ring unless it has been skipped, a flag sets the bad-data
mark and latches UNCORRECTABLE, and a voice whose prime set is complete becomes PRIMED. -/
def State.deliver (s : State) (i ord : Nat) (ecc : Ecc) : State :=
  match s.voice i with
  | none => s
  | some u =>
    let flagged := ecc.uncorrectable.isSome
    let data := match s.store.find u.cart u.serial with
      | some v => s.store.readBlock v (u.blockIndex ord)
      | none => []
    let u' :=
      if u.nextOrd = ord then
        { u with
          ring := u.ring ++ [{ ord := ord, flagged := flagged, data := data }]
          nextOrd := u.nextOrd + 1
          delivered := u.delivered + 1 }
      else u
    let u' := { u' with bad := u'.bad || flagged }
    let u' := if u'.state == .priming && u'.primeSet ≤ u'.delivered then { u' with state := .primed } else u'
    let s := s.setVoice i (some u')
    if flagged then
      s.latch
        { FaultInfo.bare .uncorrectable with
          outlet := some u.outlet
          cart := some (u.cart, u.serial)
          entryTag := u.entryTag
          page := ecc.uncorrectable }
    else s

/-- A refill or priming read completes (R97, R99): corrected words count, and a stale transfer's data is discarded (R96). -/
def State.completeRead (s : State) (t : Transfer) (i ord : Nat) (ecc : Ecc) : State :=
  let s := ({ s with transfer := none } : State).corrected ecc.corrected
  if t.stale then s else s.deliver i ord ecc

/-- A load write completes (R98, R115): its bytes are in the version's pages and its bytes written rise; a stale one frees a version
that awaits its discard. -/
def State.completeLoad (s : State) (t : Transfer) (p : Payload) : State :=
  let s : State := { s with transfer := none }
  if t.stale then s.freeDiscarded p.cart p.serial
  else
    match s.store.find p.cart p.serial with
    | none => s
    | some v =>
      let st := s.store.modVersion p.cart p.serial fun w => { w with written := w.written + p.bytes.length }
      { s with store := { st with mem := writeChain st.mem v.chain p.offset p.bytes } }

/-- A verify read completes (R119): an uncorrectable word fails the verification, otherwise its bytes join the running check, which is
compared with the version's check value after the last byte. -/
def State.completeVerify (s : State) (t : Transfer) (cart serial off size : Nat) (ecc : Ecc) : State :=
  let s := ({ s with transfer := none } : State).corrected ecc.corrected
  if t.stale then s.freeDiscarded cart serial
  else
    match s.store.find cart serial with
    | none => s
    | some v =>
      match ecc.uncorrectable with
      | some page => s.endVerification v false true (some page)
      | none =>
        let crc0 := match s.store.sweep with
          | some w => w.crc
          | none => crcInit
        let crc := crcUpdate crc0 (readChain s.store.mem v.chain off size)
        if v.bytes ≤ off + size then s.endVerification v (crcFinal crc == v.check) true none
        else
          { s with store := { s.store with sweep := some { cart := cart, serial := serial, next := off + size, crc := crc } } }

end Sys2Proof.Machine
end

