-- ==== Sys2Proof/Machine/BreakFit.lean ====
section
/-! DEFINITION. The fit of a break in its eight stages (R52 to R60). -/

namespace Sys2Proof.Machine

/-- Longest join gap of a spread (R56, R58). -/
def joinLimit : Nat := 12000

/-- A version's play length (R52). -/
def Version.playLen (v : Version) : Nat := v.len - v.inCue

/-- An item of a plan before its offset and join are set (R43, R52). -/
def planItem (role : ItemRole) (v : Version) (pos : Nat) (cls : Option SpotClass) : BreakItem :=
  { role := role, cart := v.cart, serial := v.serial, pos := pos, cls := cls, playLen := v.playLen, offset := 0, join := 0,
    progress := .waiting, actual := none, skipped := 0, played := 0, concealed := 0, stream := .notChecked, mark := .here,
    bed := none }

/-- The opener or closer of a list, when its cart is usable (R53). -/
def Store.edgeItem (st : Store) (role : ItemRole) (cart : Option Nat) : List BreakItem :=
  match cart.bind st.usable with
  | some v => [planItem role v 0 none]
  | none => []

/-- Stage 1 for the spots, positions counted from `pos` on (R53): eligible items, and the spots dropped as unavailable. -/
def Store.eligible (st : Store) : Nat → List (Nat × SpotClass) → List BreakItem × List Drop
  | _, [] => ([], [])
  | pos, (cart, cls) :: t =>
    let (items, drops) := st.eligible (pos + 1) t
    match st.usable cart with
    | some v => (planItem .spot v pos (some cls) :: items, drops)
    | none =>
      (items, { pos := pos, cart := cart, serial := ((st.current cart).map Version.serial).getD 0, overlength := false } :: drops)

/-- Sum of the play lengths (R54). -/
def playSum (l : List BreakItem) : Nat := (l.map BreakItem.playLen).sum

/-- Sum of the play lengths and joins. -/
def planSum (l : List BreakItem) : Nat := (l.map fun i => i.playLen + i.join).sum

/-- Index of the last spot of a class, the last position first (R54). -/
def lastOfClass (l : List BreakItem) (c : SpotClass) : Option Nat :=
  ((List.range l.length).filter fun i => (l[i]?).any fun it => it.role == .spot && it.cls == some c).getLast?

/-- Index of the opener or closer. -/
def indexOfRole (l : List BreakItem) (r : ItemRole) : Option Nat :=
  (List.range l.length).find? fun i => (l[i]?).any fun it => it.role == r

/-- The item stage 3 removes next (R54): MAY spots, the closer, SHOULD spots, the opener, MUST spots. -/
def nextRemoval (l : List BreakItem) : Option Nat :=
  (lastOfClass l .may).or ((indexOfRole l .closer).or ((lastOfClass l .should).or
    ((indexOfRole l .opener).or (lastOfClass l .must))))

/-- Stage 3 (R54): items are removed until the sum of play lengths is at most L; removed spots are dropped as overlength. -/
def removeOverlength (len : Nat) : Nat → List BreakItem → List Drop → List BreakItem × List Drop
  | 0, l, d => (l, d)
  | fuel + 1, l, d =>
    if playSum l ≤ len then (l, d)
    else
      match nextRemoval l with
      | none => (l, d)
      | some i =>
        let d := match l[i]? with
          | some it =>
            if it.role == .spot then { pos := it.pos, cart := it.cart, serial := it.serial, overlength := true } :: d else d
          | none => d
        removeOverlength len fuel (l.eraseIdx i) d

/-- Drops in order of spot position (R68). -/
def insertDrop (x : Drop) : List Drop → List Drop
  | [] => [x]
  | y :: t => if x.pos ≤ y.pos then x :: y :: t else y :: insertDrop x t

/-- Drops sorted by spot position. -/
def sortDrops (l : List Drop) : List Drop := l.foldr insertDrop []

/-- The fill stage 6 chooses (R57): the longest usable one not longer than the gap, the earlier in the pool of equal ones. -/
def Store.bestFill (st : Store) (gap : Nat) : List Nat → Option Version
  | [] => none
  | c :: t =>
    let rest := st.bestFill gap t
    match (st.usable c).filter fun v => decide (v.playLen ≤ gap), rest with
    | none, r => r
    | some v, none => some v
    | some v, some w => if w.playLen ≤ v.playLen then some v else some w

/-- Stage 6 (R57): fills in the order chosen, and the gap that is left. -/
def Store.chooseFills (st : Store) : Nat → Nat → List Nat → List BreakItem × Nat
  | 0, gap, _ => ([], gap)
  | fuel + 1, gap, pool =>
    match st.bestFill gap pool with
    | none => ([], gap)
    | some v =>
      let (rest, left) := st.chooseFills fuel (gap - v.playLen) (pool.filter fun c => c != v.cart)
      (planItem .fill v 0 none :: rest, left)

/-- A gap the joins can take (R56, R57): none, or some join with at most 12,000 samples each. -/
def spreads (n gap : Nat) : Bool := gap == 0 || (1 ≤ n - 1 && gap ≤ (n - 1) * joinLimit)

/-- Stage 7 (R58): the first `r` joins get `q + 1` samples, the others `q`; the last item has none. -/
def spreadJoins (q : Nat) : Nat → List BreakItem → List BreakItem
  | _, [] => []
  | _, [it] => [{ it with join := 0 }]
  | r, it :: t => { it with join := q + (if 0 < r then 1 else 0) } :: spreadJoins q (r - 1) t

/-- Offsets from the play lengths and joins before each item (R58, R59). -/
def setOffsets : Nat → List BreakItem → List BreakItem
  | _, [] => []
  | off, it :: t => { it with offset := off } :: setOffsets (off + it.playLen + it.join) t

/-- Put the fills after the last spot and before the closer (R57). -/
def insertFills (l fills : List BreakItem) : List BreakItem :=
  (l.filter fun it => it.role != .closer) ++ fills ++ l.filter fun it => it.role == .closer

/-- The fill pool's bed when its current version is READY and of kind BED (R20, R59). -/
def Store.readyBed (st : Store) (bed : Option Nat) : Option Version :=
  (bed.bind st.usable).filter fun v => v.kind == .bed

/-- The plan of a list with its gap (R56 to R59). -/
def planOf (st : Store) (follow : Bool) (len : Nat) (fills : List Nat) (bed : Option Nat) (l : List BreakItem) :
    List BreakItem × TailKind × Nat :=
  let gap := len - playSum l
  let spread := fun (l : List BreakItem) (g : Nat) =>
    let j := l.length - 1
    (setOffsets 0 (spreadJoins (g / j) (g % j) l), TailKind.none, 0)
  if spreads l.length gap then spread l gap
  else
    let (chosen, left) := st.chooseFills fills.length gap fills
    let l := insertFills l chosen
    if spreads l.length left then spread l left
    else
      (setOffsets 0 l,
        if (st.readyBed bed).isSome then .bed else if follow then .earlyRejoin else .silence,
        left)

/-- The fit (R52 to R60): none where a FOLLOW outlet's list has no spot left (R55). `start` is the cue's on a FOLLOW outlet. -/
def fitBreak (st : Store) (follow : Bool) (tag len : Nat) (entryTag : Option Nat) (start : Option Time) (list : Option SpotList)
    (fills : List Nat) (bed : Option Nat) : Option FittedBreak :=
  let sl := list.getD { tag := tag, opener := none, closer := none, spots := [] }
  let (spots, missing) := st.eligible 1 sl.spots
  let all := st.edgeItem .opener sl.opener ++ spots ++ st.edgeItem .closer sl.closer
  let (kept, drops) := removeOverlength len all.length all missing
  if follow && !(kept.any fun it => it.role == .spot) then none
  else
    let (items, tail, tailLen) := planOf st follow len fills bed kept
    some
      { tag := tag, len := len, entryTag := entryTag, start := start, state := .armed, announced := false, cueStart := 0,
        items := items, tail := tail, tailLen := tailLen
        bedCart := if playSum kept < len then (st.readyBed bed).map fun v => (v.cart, v.serial) else none
        drops := sortDrops drops, cursor := 0, due := none, tailBegan := none, tailBed := none, tailAired := 0,
        delays := [], tailSkip := 0, resume := none, ending := false }

/-- L clamped to its range (R5, R49). -/
def clampLen (n : Nat) : Nat := max 48000 (min 43200000 n)

end Sys2Proof.Machine
end

