-- ==== Sys2Proof/Machine/BreakPlay.lean ====
section
/-! DEFINITION. Announcing, starting, playing and ending a fitted break, and its records (R44 to R47, R51, R60 to R68). -/

namespace Sys2Proof.Machine

/-! ### Announcing (R45 to R47) -/

/-- The break's rejoin, in the outlet's position (R44). -/
def FittedBreak.rejoinAt (b : FittedBreak) : Option Time := b.start.map fun t => t + b.len

/-- Send a CUE frame for a fitted break (R45, R47). -/
def State.sendCue (s : State) (o : OutletId) (b : FittedBreak) (start : Time) (cancel : Nat) : State :=
  s.send (.cue { feed := (s.ocfg o).feed, tag := b.tag, start := start, len := b.len, cancel := cancel })

/-- Announce an ARMED break of a sending SELF outlet whose start is known and still to come (R45). -/
def State.announce (s : State) (o : OutletId) (p : Place) (start : Time) : State :=
  match s.fit o p with
  | none => s
  | some b =>
    if (s.out o).air.sends && b.state == .armed && !b.announced && decide (s.now < start) then
      let s := s.sendCue o b start 0
      let s := s.modFit o p fun b => { b with announced := true, cueStart := start }
      s.modOut o fun x => { x with cuePhase := 0 }
    else s

/-- Cancel an announced break (R47): the frame carries the start last announced. -/
def State.cancelCue (s : State) (o : OutletId) (p : Place) : State :=
  match s.fit o p with
  | none => s
  | some b =>
    if b.announced then
      (s.sendCue o b b.cueStart 1).modFit o p fun b => { b with announced := false }
    else s

/-! ### Releasing a fitted break (R51) -/

/-- A holder is a slot of a place. -/
def Holder.ofPlace (p : Place) : Holder → Bool
  | .slot q _ => q == p
  | _ => false

/-- A tally is kept for a slot of a place. -/
def AirKey.ofPlace (p : Place) : AirKey → Bool
  | .item q _ | .bed q _ => q == p
  | _ => false

/-- A place is free, with no tally of its slots left (R51, R65). -/
def Outlet.vacate (x : Outlet) (p : Place) : Outlet :=
  { x.setPlace p none with tallies := x.tallies.filter fun t => !t.key.ofPlace p }

/-- Release a fitted break: its requests and voices go, its place is free, nothing is recorded (R51). -/
def State.releaseFit (s : State) (o : OutletId) (p : Place) : State :=
  (s.modOut o fun x => x.vacate p).giveUpWhere o (Holder.ofPlace p)

/-! ### Voices of the slots (R60, R62) -/

/-- A slot needs a voice: an item that waits, or a BED tail (R60, R62). -/
def FittedBreak.needsVoice (b : FittedBreak) (k : Nat) : Bool :=
  match b.items[k]? with
  | some it => it.progress == .waiting
  | none => k == b.items.length && b.tail == .bed

/-- Request a voice for a slot, needed at a group time (R60, R62). -/
def State.requestSlot (s : State) (o : OutletId) (p : Place) (k : Nat) (needed : Time) : State :=
  match s.fit o p with
  | none => s
  | some b =>
    if b.needsVoice k && (s.voiceOf o (.slot p k)).isNone then
      s.request { outlet := o, holder := .slot p k, needed := needed }
    else s

/-- Samples from the outlet's position to the break's rejoin. -/
def FittedBreak.leftAt (b : FittedBreak) (pos : Time) : Nat :=
  match b.rejoinAt with
  | some r => (r - pos).toNat
  | none => 0

/-- A break voice that starts within 480 samples of the rejoin, `left` samples before it, and would sound past it follows the cut's ramp
(R65). -/
def VoiceUse.lateCut (u : VoiceUse) (left : Nat) : Option (Nat × Nat) :=
  if left < 480 && left < u.passEnd - u.sounded then some (480, left) else none

/-- Start an item whose voice is PRIMED at the outlet's position (R62, R69): it sounds at its own multiplier, one begun part-way ramps
in over 480 samples; the next slot's due time follows, and its voice is requested. -/
def State.beginItem (s : State) (o : OutletId) (p : Place) (k i : Nat) (pos : Time) : State :=
  match s.fit o p, s.voice i with
  | some b, some u =>
    match b.items[k]? with
    | some it =>
      let m := s.voiceMult u 0
      let part := b.resume.filter fun r => r.1 == k
      let left := (part.map fun r => r.2.2).getD it.playLen
      let s := s.startVoiceWith i fun u => u.enter s.clock m part.isSome (u.lateCut (b.leftAt pos))
      let due := pos + left + it.join
      let s := s.modFit o p fun b =>
        { b.modItem k fun it =>
            { it with
              progress := .sounding
              actual := some s.now
              skipped := it.playLen - left
              mark := if part.isSome then .takenOver else .here } with
          cursor := k + 1
          due := some due
          resume := none }
      (s.tallyStart o (.item p k)).requestSlot o p (k + 1) (s.toGroup o due)
    | none => s
  | _, _ => s

/-- A bed begins to sound in a slot or a tail (R63, R64), `left` samples before its end, of which the last `n` are its ramp to silence. -/
def State.beginBed (s : State) (o : OutletId) (p : Place) (k i : Nat) (taken : Bool) (n left : Nat) : State :=
  match s.voice i with
  | none => s
  | some u =>
    let m := s.voiceMult u 0
    let s := s.startVoiceWith i fun u => u.enter s.clock m taken (if left ≤ n then some (n, left) else none)
    let span : BedSpan :=
      { actual := s.now, played := 0, concealed := 0, stream := .notChecked, mark := if taken then .takenOver else .here }
    let s := s.modFit o p fun b =>
      if k < b.items.length then b.modItem k fun it => { it with bed := some span } else { b with tailBed := some span }
    s.tallyStart o (.bed p k)

/-- A substituted slot begins at its due time: it lasts for its item's play length, and the next slot's voice is requested (R63). -/
def State.beginSubstituted (s : State) (o : OutletId) (p : Place) (k : Nat) (due : Time) : State :=
  match s.fit o p with
  | none => s
  | some b =>
    match b.items[k]? with
    | none => s
    | some it =>
      let part := b.resume.filter fun r => r.1 == k
      let next := due + ((part.map fun r => r.2.2).getD it.playLen) + it.join
      let s := s.modFit o p fun b => { b with cursor := k + 1, due := some next, resume := none }
      s.requestSlot o p (k + 1) (s.toGroup o next)

/-- End of the substituted slot begun last, in the outlet's position (R63). -/
def FittedBreak.slotEnd (b : FittedBreak) : Option Time :=
  match b.cursor, b.due with
  | k + 1, some d => (b.items[k]?).map fun it => d - it.join
  | _, _ => none

/-- The tail of an EARLY_REJOIN break has begun: the break content is over (R64). -/
def FittedBreak.handedBack (b : FittedBreak) : Bool := b.tail == .earlyRejoin && b.tailBegan.isSome

/-- The tail begins (R64): an EARLY_REJOIN tail ramps the relay in from there. -/
def State.beginTail (s : State) (o : OutletId) (p : Place) (pos : Time) : State :=
  let s := s.modFit o p fun b => { b with tailBegan := some pos }
  match s.fit o p with
  | some b =>
    if b.tail == .earlyRejoin then
      s.modOut o fun x =>
        { x with relay := { x.relay with mult := x.relay.mult.retarget s.clock unity 480 } }
    else s
  | none => s

/-- Samples of the ramp at a BED tail's end (R64): `min(t, 24,000)`, t being the tail's length as it began. -/
def FittedBreak.bedRamp (b : FittedBreak) : Nat :=
  match b.tailBegan, b.rejoinAt with
  | some t, some r => min (r - t).toNat 24000
  | _, _ => 0

/-- A substituted slot ends with its bed's voice still silent (R63): the slot's index. -/
def State.unheardBed (s : State) (o : OutletId) (p : Place) (at_ : Time) : Option Nat :=
  match s.fit o p with
  | none => none
  | some b =>
    match b.cursor, b.slotEnd with
    | k + 1, some e =>
      if (b.items[k]?).any (fun it => it.progress == .substituted) && decide (e ≤ at_)
          && (s.voiceOf o (.slot p k)).any fun i => !((s.voice i).any VoiceUse.sounding) then some k
      else none
    | _, _ => none

/-- The next thing a RUNNING break of a sending outlet is ready to do, if any: begin the slot or tail that is due, or a bed whose
voice has become PRIMED within its span, or free the voice of a bed whose slot has ended without it (R61 to R64). -/
def State.stepFit (s : State) (o : OutletId) (p : Place) : Option State :=
  match s.fit o p, s.position o with
  | some b, some pos =>
    let at_ := (s.reachedPos o).getD pos
    if b.state == .running && !b.ending && (s.out o).playsTimeline && b.rejoinAt.any fun r => decide (at_ < r) then
      let n := b.items.length
      let lateBed : Option State :=
        match b.cursor with
        | k + 1 =>
          match b.items[k]?, b.slotEnd, s.primedVoice o (.slot p k) with
          | some it, some e, some i =>
            if it.progress == .substituted && decide (at_ < e) then
              some (s.beginBed o p k i false 480 (min e (b.rejoinAt.getD e) - pos).toNat)
            else none
          | _, _, _ => none
        | 0 => none
      match lateBed, s.unheardBed o p at_ with
      | some s, _ => some s
      | none, some k => some (s.giveUp o (.slot p k))
      | none, none =>
        match b.due with
        | none => none
        | some due =>
          if at_ < due then none
          else
            match b.items[b.cursor]? with
            | some it =>
              if it.progress == .substituted then some (s.beginSubstituted o p b.cursor due)
              else (s.primedVoice o (.slot p b.cursor)).map fun i => s.beginItem o p b.cursor i pos
            | none =>
              if b.tail == .none then none
              else if b.tailBegan.isNone then some (s.beginTail o p due)
              else if b.tail == .bed then
                (s.primedVoice o (.slot p n)).map fun i =>
                  s.beginBed o p n i (b.resume.any fun r => r.1 == n) b.bedRamp (b.leftAt pos)
              else none
    else none
  | _, _ => none

/-- Every step a break is ready for, one after the other: at most one for each slot, its bed and the tail. -/
def State.runFit : Nat → State → OutletId → Place → State
  | 0, s, _, _ => s
  | fuel + 1, s, o, p =>
    match s.stepFit o p with
    | none => s
    | some s => State.runFit fuel s o p

/-- Steps enough for the 26 items, their beds, the tail and its bed. -/
def fitSteps : Nat := 64

/-- The first slot of a fitted break is ready for its start (R24, R61): its voice is PRIMED, or it has no voice to prime. -/
def State.firstSlotReady (s : State) (o : OutletId) (p : Place) : Bool :=
  match s.fit o p with
  | none => true
  | some b =>
    match b.items[0]? with
    | some it =>
      if it.progress == .substituted then (s.voiceOf o (.slot p 0)).isNone || (s.primedVoice o (.slot p 0)).isSome
      else (s.primedVoice o (.slot p 0)).isSome
    | none => b.tail != .bed || (s.primedVoice o (.slot p 0)).isSome

/-- The first slot of a fitted break has no voice to prime (R61). -/
def State.firstSlotVoiceless (s : State) (o : OutletId) (p : Place) : Bool :=
  match s.fit o p with
  | none => true
  | some b =>
    match b.items[0]? with
    | some it => it.progress == .substituted && (s.voiceOf o (.slot p 0)).isNone
    | none => b.tail != .bed

/-- A break becomes RUNNING as a sending break with its start (R44, R61), and begins its first slot if that is ready. -/
def State.startFit (s : State) (o : OutletId) (p : Place) (start : Time) : State :=
  let s := s.modFit o p fun b =>
    { b with state := .running, start := some start, announced := false, cursor := 0, due := some start }
  State.runFit fitSteps s o p

/-- A break becomes RUNNING as a shadow: the voice held for its first slot is released and nothing sounds (R66). -/
def State.shadowFit (s : State) (o : OutletId) (p : Place) (start : Time) : State :=
  (s.modFit o p fun b =>
    { b with state := .running, start := some start, announced := false, due := none,
             items := b.items.map fun it =>
               if it.progress == .priming then { it with progress := .waiting } else it }).giveUpWhere o (Holder.ofPlace p)

/-! ### Ends of voices (R62, R63, R65, R67) -/

/-- Fill the bed span with its voice's report. -/
def BedSpan.close (x : BedSpan) (rep : VoiceReport) (mark : Option AirMark) : BedSpan :=
  { x with played := rep.sounded, concealed := rep.concealed, stream := rep.stream, mark := mark.getD x.mark }

/-- The voice of a slot has ended: the item is ENDED, or the bed's span is closed, with the report; `mark` is the air mark its end
gives it (R62, R65, R67). -/
def State.endSlot (s : State) (o : OutletId) (p : Place) (k : Nat) (rep : VoiceReport) (mark : Option AirMark) : State :=
  let s := s.modFit o p fun b =>
    match b.items[k]? with
    | some it =>
      b.modItem k fun _ =>
        if it.progress == .sounding then
          { it with
            progress := .ended
            played := rep.sounded
            concealed := rep.concealed
            stream := rep.stream
            mark := mark.getD it.mark }
        else { it with bed := it.bed.map fun x => x.close rep mark }
    | none => { b with tailBed := b.tailBed.map fun x => x.close rep mark }
  (s.tallyStop o (.item p k)).tallyStop o (.bed p k)

/-- The bed of slot `k` would sound past the rejoin (R63, R65). -/
def FittedBreak.bedCut (b : FittedBreak) (k : Nat) : Bool :=
  match b.slotEnd, b.rejoinAt with
  | some e, some r => k + 1 == b.cursor && decide (r < e)
  | _, _ => false

/-- The air mark the end of a slot's voice gives (R64, R65, R67): CUT for an item ended before its cart's end, for a bed the rejoin cuts
and in a break ended early. -/
def FittedBreak.endMark (b : FittedBreak) (k : Nat) (rep : VoiceReport) : Option AirMark :=
  match b.items[k]? with
  | some it =>
    if it.progress == .sounding then (if rep.atEnd then none else some .cut)
    else if b.ending || b.bedCut k then some .cut else none
  | none => if b.ending then some .cut else none

/-- The slot of a place a voice plays. -/
def VoiceUse.slotOf (u : VoiceUse) (p : Place) : Option Nat :=
  match u.holder with
  | .slot q k => if q = p then some k else none
  | _ => none

/-- Sounding voices of a place. -/
def State.slotVoices (s : State) (o : OutletId) (p : Place) : List Nat :=
  s.voicesWhere o fun u => u.sounding && (u.slotOf p).isSome

/-- Stop a sounding voice of a place and close its slot with a mark, not yet offering the voice. -/
def State.stopSlot (s : State) (o : OutletId) (p : Place) (mark : VoiceReport → Nat → Option AirMark) (i : Nat) : State :=
  match s.voice i with
  | none => s
  | some u =>
    match u.slotOf p with
    | none => s
    | some k =>
      let (rep, s) := s.stopVoice i
      s.endSlot o p k rep (mark rep k)

/-! ### Records (R68) -/

/-- Source of a break item's record (R68). -/
def ItemRole.source : ItemRole → Source
  | .opener => .opener
  | .spot => .spot
  | .closer => .closer
  | .fill => .fill

/-- Outcome of a break item (the table of R68). -/
def BreakItem.outcome (it : BreakItem) : Outcome :=
  if it.progress == .substituted then .droppedUnavailable
  else
    match it.mark with
    | .cut => .airedCut
    | .handedOver => .airedHandedOver
    | .takenOver => .airedTakenOver
    | .elsewhere => .airedElsewhere
    | .here => if it.progress == .ended || it.progress == .sounding then .aired else .withdrawn

/-- Outcome of a bed's span. -/
def BedSpan.outcome (x : BedSpan) : Outcome :=
  match x.mark with
  | .cut => .airedCut
  | .handedOver => .airedHandedOver
  | .takenOver => .airedTakenOver
  | .elsewhere => .airedElsewhere
  | .here => .aired

/-- The record of a dropped spot (R68). -/
def dropRecord (b : FittedBreak) (d : Drop) : Record :=
  { Record.blank .spot (if d.overlength then .droppedOverlength else .droppedUnavailable) with
    entryTag := b.entryTag, breakTag := some b.tag, cart := d.cart, serial := d.serial }

/-- The group time of a position inside the break (R76): the position plus the relay delay at that sample, `delay` being the present
one; 0 on a SELF outlet. -/
def FittedBreak.groupTime (b : FittedBreak) (delay p : Time) : Time :=
  p + ((b.delays.find? fun d => decide (p < d.1)).map Prod.snd).getD delay

/-- The group time of a break offset. -/
def FittedBreak.plannedAt (b : FittedBreak) (delay : Time) (off : Nat) : Time := b.groupTime delay (b.start.getD 0 + off)

/-- The record of an item, `k` being its index and `delay` the present relay delay (R68): its slip is its actual start less its planned
start in group time (R76), or, of an item begun part-way at a takeover, less that of the sample taken over (R69). -/
def itemRecord (b : FittedBreak) (delay : Time) (k : Nat) (it : BreakItem) : Record :=
  { Record.blank it.role.source it.outcome with
    entryTag := b.entryTag, breakTag := some b.tag, slot := some (k + 1), cart := it.cart, serial := it.serial
    planned := some (b.plannedAt delay it.offset), actual := it.actual, played := it.played
    slip := match it.actual with
      | some a => a - b.plannedAt delay (it.offset + it.skipped)
      | none => 0
    concealed := it.concealed, stream := it.stream }

/-- The record of a bed's span in slot `k` (R68), planned where its slot or tail is (notes/assumptions/50.md). -/
def bedRecord (b : FittedBreak) (planned : Time) (k : Nat) (x : BedSpan) : Record :=
  { Record.blank .bed x.outcome with
    entryTag := b.entryTag, breakTag := some b.tag, slot := some (k + 1)
    cart := (b.bedCart.map Prod.fst).getD 0, serial := (b.bedCart.map Prod.snd).getD 0
    planned := some planned, actual := some x.actual, played := x.played, slip := x.actual - planned
    concealed := x.concealed, stream := x.stream }

/-- The records of a break in their order (R68): drops, each item with its bed, the tail's bed. -/
def breakRecords (b : FittedBreak) (p : Place) (delay : Time) : List (Record × Option AirKey) :=
  b.drops.map (fun d => (dropRecord b d, none)) ++
  (b.items.zipIdx.flatMap fun (it, k) =>
    (itemRecord b delay k it, if it.actual.isSome then some (.item p k) else none) ::
    match it.bed with
    | some x => [(bedRecord b (b.plannedAt delay it.offset) k x, some (AirKey.bed p k))]
    | none => []) ++
  match b.tailBed with
  | some x => [(bedRecord b (b.plannedAt delay (b.len - b.tailLen)) b.items.length x, some (AirKey.bed p b.items.length))]
  | none => []

/-- The records a RESTART writes of a RUNNING break (R67): only slots that sounded here. -/
def restartRecords (b : FittedBreak) (p : Place) (delay : Time) : List (Record × Option AirKey) :=
  (breakRecords b p delay).filter fun r => r.2.isSome

/-- Write a list of records in order. -/
def State.recordAll (s : State) (o : OutletId) (l : List (Record × Option AirKey)) : State :=
  l.foldl (fun s r => s.record o r.1 r.2) s

/-- What is added to a position of the outlet for its group time (R76): the relay delay, on a SELF outlet nothing. -/
def State.posDelay (s : State) (o : OutletId) : Time := if s.isFollow o then s.relayDelay o else 0

/-- Write a break's records and delete its spot list (R68, R19). -/
def State.writeBreak (s : State) (o : OutletId) (p : Place) : State :=
  match s.fit o p with
  | none => s
  | some b =>
    (s.recordAll o (breakRecords b p (s.posDelay o))).modOut o fun x =>
      { x with spots := x.spots.filter fun l => l.tag != b.tag }

/-- Write a break's records, delete its spot list and free its place (R65, R66, R68). -/
def State.closeFit (s : State) (o : OutletId) (p : Place) : State :=
  (s.writeBreak o p).modOut o fun x => x.vacate p

/-- A shadow break whose outlet stands at a position (R66): the slots not sounded here follow the plan by their planned offsets alone,
and those it has reached are marked ELSEWHERE. -/
def FittedBreak.followPlan (b : FittedBreak) (pos : Time) : FittedBreak :=
  match b.start with
  | none => b
  | some t =>
    { b with items := b.items.map fun it =>
        if it.actual.isSome || it.progress == .substituted || decide (pos < t + it.offset) then it
        else { it with mark := .elsewhere, progress := if t + it.offset + it.playLen ≤ pos then .ended else .sounding } }

/-- Where the plan begins an EARLY_REJOIN tail that has not begun (R64, R79), in the outlet's position. -/
def FittedBreak.tailPlan (b : FittedBreak) : Option Time :=
  if b.tail == .earlyRejoin && b.tailBegan.isNone then b.start.map fun t => t + b.len - b.tailLen else none

/-- What a RUNNING shadow break does at its planned offsets (R66): its slots move on, or its EARLY_REJOIN tail begins, at which the relay
ramps in though nothing is sent (R77, R79). -/
def State.stepShadow (s : State) (o : OutletId) (p : Place) : Option State :=
  match s.fit o p, s.reachedPos o with
  | some b, some pos =>
    if b.state == .running && !(s.out o).air.sends then
      if b.followPlan pos != b then some (s.modFit o p fun b => b.followPlan pos)
      else (b.tailPlan.filter fun t => decide (t ≤ pos) && decide (pos < t + b.tailLen)).map fun t => s.beginTail o p t
    else none
  | _, _ => none

/-- Mark ELSEWHERE every slot a shadow break did not sound here (R66). -/
def FittedBreak.markShadow (b : FittedBreak) : FittedBreak :=
  { b with items := b.items.map fun it =>
      if it.actual.isSome || it.progress == .substituted then it else { it with mark := .elsewhere } }

/-- Mark every slot and bed of a break ELSEWHERE (R143). -/
def FittedBreak.markAll (b : FittedBreak) : FittedBreak :=
  { b with
    items := b.items.map fun it =>
      { it with mark := .elsewhere, bed := it.bed.map fun x => { x with mark := .elsewhere } }
    tailBed := b.tailBed.map fun x => { x with mark := .elsewhere } }

/-- Samples a SILENCE tail has been on the outlet's air when the outlet stands at a position, at most up to the rejoin (R68). -/
def FittedBreak.tailOnAir (b : FittedBreak) (pos : Time) : Nat :=
  b.tailAired + (b.tailBegan.map fun t => (min pos (b.rejoinAt.getD pos) - t).toNat).getD 0

/-- Underfill of a break with a SILENCE tail (R68): samples from the tail's beginning to the break's end on the outlet's air. -/
def FittedBreak.underfill (b : FittedBreak) (pos : Time) : Option Nat :=
  if b.tail == .silence then some (b.tailOnAir pos) else none

/-- Close a fitted break that is not on the outlet's air, with a mark for its slots (R66, R143): the records are written, the place is
freed, and its BREAK entry, which leaves later, keeps the underfill (R68). -/
def State.closeShadow (s : State) (o : OutletId) (p : Place) (mark : FittedBreak → FittedBreak) : State :=
  match s.fit o p with
  | none => s
  | some b =>
    let s := ((s.modFit o p mark).closeFit o p).giveUpWhere o (Holder.ofPlace p)
    match b.entryTag, b.tail with
    | some tag, .silence => s.modEntry o tag fun e => { e with air := { e.air with underfill := some b.tailAired } }
    | _, _ => s

/-- End a shadow break: every slot not sounded here ELSEWHERE, the records written, the place freed (R66). -/
def State.endShadow (s : State) (o : OutletId) (p : Place) : State := s.closeShadow o p FittedBreak.markShadow

/-- The break voices stop at the rejoin (R65) with the marks their ends give; voices of slots not begun are released. -/
def State.stopAtRejoin (s : State) (o : OutletId) (p : Place) : State :=
  let s := (s.slotVoices o p).foldl
    (fun s i => s.stopSlot o p (fun rep k => (s.fit o p).bind fun b => b.endMark k rep) i) s
  s.giveUpWhere o (Holder.ofPlace p)

/-- The slots of a place whose voices sound. -/
def State.slotsHeard (s : State) (o : OutletId) (p : Place) : List Nat :=
  (s.slotVoices o p).filterMap fun i => (s.voice i).bind fun u => u.slotOf p

/-- A break as the move to FALLBACK ends it early (R67): what the voices of the given slots sound, an item or a bed, is CUT, and
everything else keeps its mark. -/
def FittedBreak.endedEarly (b : FittedBreak) (heard : List Nat) : FittedBreak :=
  { b with
    ending := true
    items := b.items.zipIdx.map fun (it, k) =>
      if !heard.contains k then it
      else if it.progress == .sounding then { it with mark := .cut }
      else { it with bed := it.bed.map fun x => { x with mark := .cut } }
    tailBed := b.tailBed.map fun x => if heard.contains b.items.length then { x with mark := .cut } else x }

/-- The move to FALLBACK ends a RUNNING break early (R67): sounding break voices ramp out over 480 samples and are marked CUT, the other
voices and requests of the break are given up. -/
def State.endEarly (s : State) (o : OutletId) (p : Place) : State :=
  let heard := s.slotsHeard o p
  let s := (s.slotVoices o p).foldl (fun s i => s.modVoice i fun u => u.rampOut s.clock 480) s
  let s := s.modFit o p fun b => b.endedEarly heard
  s.giveUpWhere o fun h => h.ofPlace p && !((s.voiceOf o h).any fun i => (s.voice i).any VoiceUse.sounding)

/-- Leaving the air for STANDBY turns a RUNNING break into a shadow (R66, R67), `pos` being the outlet's position: a slot not begun is
left to the plan, a SILENCE tail keeps what it was on the air (R68), and an EARLY_REJOIN tail that has begun has handed the feed back to
the relay already (R79). -/
def State.suspendFit (s : State) (o : OutletId) (p : Place) (pos : Time) : State :=
  let s := (s.slotVoices o p).foldl (fun s i => s.stopSlot o p (fun _ _ => some .handedOver) i) s
  (s.modFit o p fun b =>
    { b with
      due := none
      tailAired := if b.tail == .silence then b.tailOnAir pos else b.tailAired
      tailBegan := if b.tail == .earlyRejoin then b.tailBegan else none
      items := b.items.map fun it => if it.progress == .priming then { it with progress := .waiting } else it }).giveUpWhere o (Holder.ofPlace p)

end Sys2Proof.Machine
end

