-- ==== Sys2Proof/Machine/AirOps.lean ====
section
/-! DEFINITION. Twins and successors, yielding, hand-back, meters at a change of air state, and fallback periods (R126, R129, R135,
R137 to R140, R157, R159 to R162). -/

namespace Sys2Proof.Machine

/-! ### Candidate order and twins (R126, R129) -/

/-- One candidate is better than another: its pair (rank, node id) is lower (R126). -/
def betterCandidate (rank node rank' node' : Nat) : Bool := rank < rank' || (rank == rank' && node < node')

/-- Mode codes of an outlet block (R180). -/
def modeCode : Option Mode → Nat
  | some .self => 1
  | some .follow => 2
  | none => 0

/-- The outlet summary by which a peer is a STANDBY twin of the outlet (R129): a unit that is not STALE and shows the outlet's feed in
the outlet's mode in STANDBY. -/
def State.twinSummary (s : State) (o : OutletId) (p : Peer) : Option Summary :=
  let c := s.ocfg o
  if p.isUnit && !p.stale then
    p.summaries.find? fun m => m.feed == c.feed && m.mode == modeCode c.mode && m.air == Air.standby.code
  else none

/-- The STANDBY twins of an outlet as (rank, node id) (R129). -/
def State.twins (s : State) (o : OutletId) : List (Nat × Nat) :=
  s.peers.filterMap fun p => (s.twinSummary o p).map fun m => (m.rank, p.node)

/-- The better of two candidates. -/
def bestOf : List (Nat × Nat) → Option (Nat × Nat)
  | [] => none
  | c :: t =>
    match bestOf t with
    | none => some c
    | some d => if betterCandidate d.1 d.2 c.1 c.2 then some d else some c

/-- The best successor (R129): the first STANDBY twin in candidate order that is not passed over. -/
def State.bestSuccessor (s : State) (o : OutletId) : Option Nat :=
  (bestOf ((s.twins o).filter fun c => !(s.out o).passed.contains c.2)).map Prod.snd

/-- The best STANDBY twin better than the outlet itself and not passed over (R139, R140). -/
def State.betterTwin (s : State) (o : OutletId) : Option Nat :=
  (bestOf ((s.twins o).filter fun c =>
    !(s.out o).passed.contains c.2 && betterCandidate c.1 c.2 (s.ocfg o).rank s.cfg.nodeId)).map Prod.snd

/-! ### Yielding (R135, R140) -/

/-- Enter YIELDING (R135): one RELEASE frame naming the successor, the record of the yield, and the yield timeout started. -/
def State.enterYielding (s : State) (o : OutletId) (succ : Nat) (cause : YieldCause) : State :=
  let s := s.send (.release { feed := (s.ocfg o).feed, successor := succ })
  s.modOut o fun x =>
    { x with
      yielding := some { successor := succ, cause := cause, fromFallback := x.air == .fallback, since := s.clock }
      air := .yielding
      handBack := false }

/-- A pending hand-back of an ON_AIR outlet at its boundary (R140): yield to the best better twin, or let it lapse. -/
def State.handBackBoundary (s : State) (o : OutletId) : State :=
  let x := s.out o
  if x.handBack && x.air == .onAir then
    match s.betterTwin o with
    | some n => s.enterYielding o n .handBack
    | none => s.modOut o fun x => { x with handBack := false }
  else s

/-- An outlet in FALLBACK that is not yielding releases to a best successor (R138). -/
def State.judgeRelease (s : State) (o : OutletId) : State :=
  if (s.out o).air == .fallback then
    match s.bestSuccessor o with
    | some n => s.enterYielding o n .fault
    | none => s
  else s

/-- Every outlet in FALLBACK judges whether to release (R138), in letter order (notes/assumptions/56.md). -/
def State.judgeReleases (s : State) : State := OutletId.all.foldl State.judgeRelease s

/-! ### Meters (R154, R157) -/

/-- A meter started afresh: no accepted blocks, no held block, an empty block in progress, the detector LIVE with count 0. -/
def Meter.started : Meter :=
  { running := true, buf := [], accepted := [], held := none, detector := .live, count := 0 }

/-- A meter that stops (R157): the block in progress and the held block are discarded, the level and the detector are kept. -/
def Meter.stop (m : Meter) : Meter := { m with running := false, buf := [], held := none }

/-- The programme meter is started afresh on entering ON_AIR or FALLBACK (R157). -/
def State.restartMeter (s : State) (o : OutletId) : State := s.modOut o fun x => { x with programme := .started }

/-- The outlet's monitored feed changes as it begins or stops sending: the open block and the latest echo go (R148). -/
def State.clearEcho (s : State) (o : OutletId) : State := s.modOut o fun x => { x with openBlock := none, echo := none }

/-! ### Fallback periods (R159 to R162) -/

/-- The outcome of a fallback period (the table of R162). -/
def FallbackPeriod.outcome (p : FallbackPeriod) (how : FallbackEnd) : Outcome :=
  if p.actual.isSome then
    match how with
    | .natural => .aired
    | .anchor => .airedCut
    | .handedOver => .airedHandedOver
  else if p.cart.isNone || (p.granted && p.serial.isNone) then .skippedUnavailable
  else .withdrawn

/-- The as-run record of a fallback period (R162): the load serial is that of the version played, 0 where none sounded. -/
def fallbackRecord (p : FallbackPeriod) (how : FallbackEnd) (rep : VoiceReport) : Record :=
  { Record.blank .fallback (p.outcome how) with
    cart := p.cart.getD 0, serial := if p.actual.isSome then p.serial.getD 0 else 0, planned := some p.since, actual := p.actual, played := rep.sounded
    slip := match p.actual with
      | some a => a - p.since
      | none => 0
    concealed := rep.concealed, stream := rep.stream }

/-- Write a fallback period's record; the period is then over (R162). -/
def State.recordPeriod (s : State) (o : OutletId) (p : FallbackPeriod) (rep : VoiceReport) : State :=
  let how := p.ended.getD .natural
  let s := s.record o (fallbackRecord p how rep) (if p.actual.isSome then some (.fallback p.id) else none)
  s.modOut o fun x => { x with periods := x.periods.filter fun q => q.id != p.id }

/-- End the outlet's fallback period (R160, R161): a sounding voice ramps to 0 over `n` samples, one still priming is released, a waiting
request is withdrawn; without a sounding voice the record is written at once. -/
def State.endPeriod (s : State) (o : OutletId) (how : FallbackEnd) (n : Nat) : State :=
  match (s.out o).openPeriod with
  | none => s
  | some p =>
    let s := s.modOut o fun x => x.modPeriod p.id fun q => { q with ended := some how }
    match (s.voiceOf o (.fallback p.id)).filter fun i => (s.voice i).any VoiceUse.sounding with
    | some i => s.modVoice i fun u => u.rampOut s.clock n
    | none => (s.recordPeriod o { p with ended := some how } .none).giveUp o (.fallback p.id)

/-- FALLBACK, or the FALLBACK an outlet is yielding from, ends and its programme takes the air again (R160, R161): ON_AIR, or YIELDING
from ON_AIR (R125; notes/assumptions/32.md). On entering ON_AIR the programme meter is started afresh (R157) and the passed-over set emptied (R129). -/
def State.leaveFallback (s : State) (o : OutletId) (how : FallbackEnd) (n : Nat) : State :=
  let s := s.endPeriod o how n
  let yields := (s.out o).air == .yielding
  if yields then s.modOut o fun x => { x with yielding := x.yielding.map fun y => { y with fromFallback := false } }
  else (s.modOut o fun x => { x with air := .onAir, yielding := none, passed := [] }).restartMeter o

/-- The relay multiplier of a FOLLOW outlet ramps over 480 samples from a value (R77); a SELF outlet has no relay. -/
def State.rampRelay (s : State) (o : OutletId) (m0 : Int) (m1 : Int) : State :=
  s.modOut o fun x => { x with relay := { x.relay with mult := { start := s.clock, m0 := m0, m1 := m1, n := 480 } } }

/-- The relay multiplier of an outlet as it stands. -/
def State.relayMult (s : State) (o : OutletId) : Int := (s.out o).relay.mult.value s.clock

end Sys2Proof.Machine
end

