-- ==== Sys2Proof/Machine/RunningOrder.lean ====
section
/-! DEFINITION. The running order: disarming, arming, start times, starts, anchors, SOFT times, insertion and shadow advance
(R6 to R18, R23 to R30, R66). -/

namespace Sys2Proof.Machine

/-! ### Disarming (R8) -/

/-- The place of the fitted break that serves a BREAK entry (R43). -/
def Outlet.fitOf (x : Outlet) (tag : Nat) : Option Place := (x.placesWhere fun b => b.entryTag == some tag).head?

/-- Undo what arming prepared (R8): voice and request go, a fitted break is released with a cancel if it was announced (R47), the slot
is given up and the entry is ARMED no more. -/
def State.unprepare (s : State) (o : OutletId) (tag : Nat) : State :=
  let s :=
    match (s.out o).fitOf tag with
    | some p => (s.cancelCue o p).releaseFit o p
    | none => s
  let s := s.modOut o fun x =>
    { x.modEntry tag (fun e => if e.state = .armed then { e with state := .queued } else e) with
      seqSlot := x.seqSlot.filter fun t => t != tag, anchorSlot := x.anchorSlot.filter fun t => t != tag }
  s.giveUp o (.entry tag)

/-- An entry back in QUEUED holds nothing (R3). -/
def Entry.requeue (e : Entry) : Entry :=
  { e with state := .queued, start := .whenPrimed, planned := none, serial := none, lost := false, air := .empty }

/-- Disarm an entry (R8): it returns to QUEUED. -/
def State.disarm (s : State) (o : OutletId) (tag : Nat) : State := (s.unprepare o tag).modEntry o tag Entry.requeue

/-- An entry that has not begun leaves with an outcome, disarmed first if it is ARMED (R7, R13, R14, R18). -/
def State.leaveUnbegun (s : State) (o : OutletId) (tag : Nat) (out : Outcome) : State :=
  match (s.out o).entry tag with
  | some e => (if e.state == .armed then s.unprepare o tag else s).leaveSilent o tag out
  | none => s

/-! ### Start times (R23, R9) -/

/-- The version of a lead ITEM: the one it recorded, and for a shadow that recorded none its cart's current version
(notes/assumptions/13.md). -/
def State.leadVersion (s : State) (e : Entry) (cart : Nat) : Option Version :=
  match e.serial with
  | some n => s.store.find cart n
  | none => s.store.current cart

/-- The start of an entry's break, the group time from which its offsets count (R44, R66). -/
def Outlet.breakStart (x : Outlet) (e : Entry) : Option Time :=
  match ((x.fitOf e.tag).bind x.place).bind FittedBreak.start with
  | some t => some t
  | none => e.air.start.map fun t => t - e.air.offset

/-- The start behind a lead (the table of R23), `kind` being the kind of the version the entry records, `none` for a BREAK or for a
cart without a version; no start where R23 needs that kind and there is none. -/
def State.startAfter (s : State) (o : OutletId) (lead : Entry) (isBreak : Bool) (kind : Option CartKind) : Option ArmedStart :=
  match lead.kind with
  | .brk _ len =>
    match (s.out o).breakStart lead with
    | some t => some (.time (t + len))
    | none => some .afterLead
  | .item cart =>
    match lead.air.start, s.leadVersion lead cart with
    | some t, some v =>
      let butt : Time := t + ((v.len : Int) - v.inCue) - lead.air.offset
      let segue : Time := t + ((v.outCue : Int) - v.inCue) - lead.air.offset
      if isBreak || v.kind == .spot then some (.time butt)
      else kind.map fun k => .time (if k == .spot then butt else segue)
    | _, _ => some .afterLead

/-- The start of an entry with no lead (R9): T of a SOFT or HARD entry; a SEQUENCE entry starts when primed. -/
def StartMode.noLead : StartMode → ArmedStart
  | .sequence => .whenPrimed
  | .soft t => .time t
  | .hard t => .time t

/-- The start an entry takes as it fills the sequence slot (R9, R10, R23). An ON_AIR entry that is cut and still ramps is a lead (R3), but not
for the entry that a RESUME's own command arms (notes/assumptions/35.md). -/
def State.fillStart (s : State) (o : OutletId) (e : Entry) (kind : Option CartKind) : Option ArmedStart :=
  let x := s.out o
  match e.mode with
  | .hard t => some (.time t)
  | m =>
    match x.inherit with
    | some (.time t) => some (.time t)
    | some .afterLead => some .afterLead
    | some .whenPrimed => some m.noLead
    | none =>
      match x.lead with
      | none => some m.noLead
      | some lead => s.startAfter o lead e.isBreak kind

/-- The computed start time of an armed start, if it is one (R16). -/
def ArmedStart.planned : ArmedStart → Option Time
  | .time t => some t
  | _ => none

/-- The group time by which the voice of an armed start is needed (R10, R60): the current group time where no start is known. -/
def ArmedStart.needed (a : ArmedStart) (now : Time) : Time := a.planned.getD now

/-! ### Arming (R10 to R12) -/

/-- The slot an entry arms in. -/
inductive ArmSlot where
  | sequence | anchor
  deriving DecidableEq, Repr

/-- Put an entry in a slot as ARMED. -/
def State.setArmed (s : State) (o : OutletId) (tag : Nat) (slot : ArmSlot) (start : ArmedStart) (serial : Option Nat) : State :=
  s.modOut o fun x =>
    let x := x.modEntry tag fun e =>
      { e with state := .armed, start := start, planned := start.planned, serial := serial, lost := false, air := .empty }
    match slot with
    | .sequence => { x with seqSlot := some tag, inherit := none }
    | .anchor => { x with anchorSlot := some tag }

/-- Fit the break of a BREAK entry into a place (R11, R52). -/
def State.fitEntry (s : State) (o : OutletId) (p : Place) (tag brk len : Nat) : State :=
  let x := s.out o
  s.modOut o fun x' =>
    x'.setPlace p
      (fitBreak s.store false brk len (some tag) none (x.spots.find? fun l => l.tag == brk) x.fills x.bed)

/-- Announce an armed break whose start is computed and still to come (R45). -/
def State.announceArmed (s : State) (o : OutletId) (tag : Nat) : State :=
  let x := s.out o
  match x.entry tag, x.fitOf tag with
  | some e, some p =>
    match e.state, e.start with
    | .armed, .time t => s.announce o p t
    | _, _ => s
  | _, _ => s

/-- Arm an entry in a slot (R10, R11). An ITEM with an unusable cart leaves SKIPPED_UNAVAILABLE; from the sequence slot it hands the
computed start it had to the entry that fills the slot next. -/
def State.arm (s : State) (o : OutletId) (e : Entry) (slot : ArmSlot) : State :=
  match e.kind with
  | .item cart =>
    let kind := (s.store.current cart).map Version.kind
    let start := match slot with
      | .sequence => s.fillStart o e kind
      | .anchor => some e.mode.noLead
    match s.store.usable cart with
    | some v =>
      let start := start.getD .whenPrimed
      (s.setArmed o e.tag slot start (some v.serial)).request
        { outlet := o, holder := .entry e.tag, needed := start.needed s.now }
    | none =>
      let handed :=
        match slot, start, (s.out o).inherit with
        | .sequence, some (.time t), _ => some (.time t)
        | .sequence, _, h => h
        | .anchor, _, h => h
      (s.leaveSilent o e.tag .skippedUnavailable).modOut o fun x => { x with inherit := handed }
  | .brk brk len =>
    match (s.out o).freePlace with
    | none => s
    | some p =>
      let start := match slot with
        | .sequence => (s.fillStart o e none).getD .whenPrimed
        | .anchor => e.mode.noLead
      let s := (s.setArmed o e.tag slot start none).fitEntry o p e.tag brk len
      (s.announceArmed o e.tag).requestSlot o p 0 (start.needed s.now)

/-! ### The slots fill (R9, R12) -/

/-- Entries of the list after a tag. -/
def entriesAfter (l : List Entry) (tag : Nat) : List Entry := (l.dropWhile fun e => e.tag != tag).drop 1

/-- Entries of the list before a tag. -/
def entriesBefore (l : List Entry) (tag : Nat) : List Entry := l.takeWhile fun e => e.tag != tag

/-- The entry the empty sequence slot would take (R9). -/
def Outlet.nextEntry (x : Outlet) : Option Entry :=
  let l := match x.leadTag with
    | some t => entriesAfter x.entries t
    | none => x.entries
  (l.find? fun e => e.state != .onAir).filter fun e => e.state == .queued || x.anchorSlot == some e.tag

/-- Air states in which the sequence slot fills (the table of R9). -/
def Outlet.fillsSequence (x : Outlet) : Bool :=
  match x.air with
  | .onAir | .standby | .claiming => true
  | .yielding => !x.inFallback
  | _ => false

/-- Air states in which the anchor slot fills (R12). -/
def Outlet.fillsAnchor (x : Outlet) : Bool :=
  match x.air with
  | .onAir | .yielding | .standby | .claiming | .fallback => true
  | _ => false

/-- The empty sequence slot takes an entry, if there is one for it (R9, R11). -/
def State.fillSequence (s : State) (o : OutletId) : Option State :=
  let x := s.out o
  if x.seqSlot.isSome || !x.fillsSequence then none
  else
    match x.nextEntry with
    | none => none
    | some e =>
      if e.state == .armed then
        some (s.modOut o fun x => { x with seqSlot := some e.tag, anchorSlot := none, inherit := none })
      else if e.isBreak && x.freePlace.isNone then none
      else some (s.arm o e .sequence)

/-- A QUEUED HARD entry whose arm time has come and which can have a place if it is a BREAK (R12). -/
def Outlet.isCandidate (x : Outlet) (now : Time) (e : Entry) : Bool :=
  match e.state, e.mode with
  | .queued, .hard t => decide (t - 96000 ≤ now) && (!e.isBreak || x.freePlace.isSome)
  | _, _ => false

/-- The empty anchor slot takes the first candidate in list order (R12). The sequence slot has filled before, so no candidate is the
entry it would take. -/
def State.fillAnchor (s : State) (o : OutletId) : Option State :=
  let x := s.out o
  if x.anchorSlot.isSome || !x.fillsAnchor then none
  else (x.entries.find? fun e => x.isCandidate s.reached e).map fun e => s.arm o e .anchor

/-! ### Entries start (R24 to R27) -/

/-- The successor that waits for its lead's start takes it once that is known, and a BREAK among them is announced then (R29, R142, R45;
notes/assumptions/68.md). -/
def State.resolveSuccessor (s : State) (o : OutletId) : State :=
  let x := s.out o
  match x.seqSlot.bind x.entry, x.lead with
  | some e, some lead =>
    if e.start == .afterLead then
      let kind := match e.kind with
        | .item cart => (e.serial.bind fun n => s.store.find cart n).map Version.kind
        | .brk _ _ => none
      match s.startAfter o lead e.isBreak kind with
      | some a => (s.modEntry o e.tag fun e => { e with start := a, planned := a.planned }).announceArmed o e.tag
      | none => s
    else s
  | _, _ => s

/-- The lead leaves with nothing left to play (R11, R25, R65, R142): the entry that the empty sequence slot takes next has its start
computed behind this lead (R23), and arms once the lead's record is written (R16). -/
def State.handStart (s : State) (o : OutletId) : State :=
  let x := s.out o
  match x.lead, x.nextEntry with
  | some lead, some e =>
    if x.seqSlot.isSome || !x.fillsSequence || e.state == .armed || (e.isBreak && x.freePlace.isNone) then s
    else
      let kind := match e.kind with
        | .item cart => (s.store.current cart).map Version.kind
        | .brk _ _ => none
      s.modOut o fun x => { x with inherit := x.inherit.or (s.startAfter o lead e.isBreak kind) }
  | _, _ => s

/-- An entry begun at or beyond its end (R25): it is ON_AIR for no samples, it leaves AIRED_TAKEN_OVER with played length 0, and its
successor arms with the start it has behind it. -/
def State.leaveSpent (s : State) (o : OutletId) (tag : Nat) : State :=
  let s := s.handStart o
  (s.leaveEntry o tag .airedTakenOver .none 0 none).giveUp o (.entry tag)

/-- The voice of an ON_AIR ITEM entry, PRIMED, sounds from now (R25), or at or beyond its end leaves at once (notes/assumptions/10.md). -/
def State.soundItem (s : State) (o : OutletId) (e : Entry) (i : Nat) : State :=
  match s.voice i with
  | none => s
  | some u =>
    let started := s.modEntry o e.tag fun e =>
      { e with air := { e.air with start := some s.now, sounding := true, sounded := true } }
    if 0 < e.air.offset && u.len ≤ u.startPos then ((started.resolveSuccessor o).leaveSpent o e.tag)
    else
      let m := s.voiceMult u e.trim
      let ramp : Ramp := if 0 < e.air.offset then { start := s.clock, m0 := 0, m1 := m, n := 480 } else .steady m
      ((started.startVoice i ramp).tallyStart o (.entry e.tag)).resolveSuccessor o

/-- The break of an ON_AIR BREAK entry begins (R44, R45, R61): a break not announced before is announced at its actual start. -/
def State.soundBreak (s : State) (o : OutletId) (e : Entry) : State :=
  let s := s.modEntry o e.tag fun e =>
    { e with air := { e.air with start := some s.now, since := s.clock, sounding := true, sounded := true } }
  let s := s.tallyStart o (.entry e.tag)
  let s :=
    match (s.out o).fitOf e.tag with
    | none => s
    | some p =>
      let s := match s.fit o p with
        | some b => if b.announced then s else s.sendCue o b s.now 0
        | none => s
      s.startFit o p s.now
  s.resolveSuccessor o

/-- An entry is ready to sound (R24, R61): its voice is PRIMED, or its break's first slot is. -/
def State.entryReady (s : State) (o : OutletId) (e : Entry) : Bool :=
  match e.kind with
  | .item _ => (s.primedVoice o (.entry e.tag)).isSome
  | .brk _ _ => ((s.out o).fitOf e.tag).all fun p => s.firstSlotReady o p

/-- An ON_AIR entry begins to sound. -/
def State.soundEntry (s : State) (o : OutletId) (e : Entry) : State :=
  match e.kind with
  | .item _ =>
    match s.primedVoice o (.entry e.tag) with
    | some i => s.soundItem o e i
    | none => s
  | .brk _ _ => s.soundBreak o e

/-- The former lead fades across the overlap if its flag is on (R27); a SPOT's flag never acts, and that of another butt-joined lead acts
where a step of group time starts its successor early (notes/assumptions/59.md). -/
def State.fadeLead (s : State) (o : OutletId) (lead : Entry) : State :=
  match lead.kind, s.voiceOf o (.entry lead.tag) with
  | .item _, some i =>
    if lead.fade then
      s.modVoice i fun u =>
        let isSpot := (s.store.find u.cart u.serial).any fun v => v.kind == .spot
        if u.sounding && decide (u.sounded < u.passEnd) && !isSpot then u.rampOut s.clock (u.passEnd - u.sounded) else u
    else s
  | _, _ => s

/-- An entry leaves its slot and becomes ON_AIR and the lead (R3, R25), if it has not lost its version meanwhile
(notes/assumptions/36.md). -/
def State.makeLead (s : State) (o : OutletId) (tag : Nat) : State :=
  if ((s.out o).entry tag).any fun e => !e.lost then
    s.modOut o fun x =>
      { x.modEntry tag fun e => { e with state := .onAir, air := .empty } with
        seqSlot := x.seqSlot.filter fun t => t != tag
        anchorSlot := x.anchorSlot.filter fun t => t != tag
        inherit := none
        airOrder := tag :: x.airOrder.filter fun t => t != tag }
  else s

/-- The armed entry of the sequence slot starts (R25, R27), which is a boundary for a pending hand-back (R140). -/
def State.startEntry (s : State) (o : OutletId) (e : Entry) : State :=
  let former := (s.out o).lead
  let s := s.makeLead o e.tag
  let s := match former with
    | some l => s.fadeLead o l
    | none => s
  match (s.out o).entry e.tag with
  | some e => (s.soundEntry o e).handBackBoundary o
  | none => s

/-- Some BREAK entry is ON_AIR (R14, R30, R33). -/
def Outlet.breakOnAir (x : Outlet) : Bool := x.entries.any fun e => e.isBreak && e.state == .onAir

/-- The HARD entry of a slot whose time has come (R14). -/
def Outlet.anchorDue (x : Outlet) (now : Time) : Option Entry :=
  let due := fun (e : Entry) =>
    match e.mode, e.state with
    | .hard t, .armed => decide (t ≤ now) && !e.lost
    | _, _ => false
  match (x.anchorSlot.bind x.entry).filter due with
  | some e => some e
  | none => (x.seqSlot.bind x.entry).filter due

/-- The entry of the sequence slot starts now (R24): its start has come, it is ready, no anchor takes effect at this sample (R14), and
the break before it, if any, has ended. -/
def State.sequenceDue (s : State) (o : OutletId) : Option Entry :=
  let x := s.out o
  if x.playsTimeline then
    match x.seqSlot.bind x.entry with
    | none => none
    | some e =>
      let come := match e.start with
        | .time t => decide (t ≤ s.reached)
        | .whenPrimed => true
        | .afterLead => false
      let timed := match e.mode with
        | .hard _ => true
        | _ => false
      let held := match x.lead with
        | some l => l.isBreak && !l.air.cut && ((x.breakStart l).any fun t =>
            match l.kind with
            | .brk _ len => decide (t + len ≤ s.reached)
            | .item _ => false)
        | none => false
      if come && !timed && !held && (x.anchorDue s.reached).isNone && s.entryReady o e then some e else none
  else none

/-! ### Ends of entries (R16, R26) -/

/-- A BREAK entry that leaves after sounding here writes its record (R16, R166). -/
def State.endBreakEntry (s : State) (o : OutletId) (tag : Nat) (out : Outcome) (played : Nat) (under : Option Nat) : State :=
  (s.tallyStop o (.entry tag)).leaveEntry o tag out .none played under

/-- An ITEM entry's voice has ended (R16, R26): at its cart's end AIRED or AIRED_TAKEN_OVER, otherwise AIRED_CUT. -/
def State.endItemEntry (s : State) (o : OutletId) (tag : Nat) (rep : VoiceReport) : State :=
  match (s.out o).entry tag with
  | none => s
  | some e =>
    let out := if rep.atEnd then (if 0 < e.air.offset then .airedTakenOver else .aired) else .airedCut
    (s.tallyStop o (.entry tag)).leaveEntry o tag out rep rep.sounded none

/-- Samples from a BREAK entry's actual start to now (R166): the sample clock counts them, so a step of group time inside the break is
not among them. -/
def State.breakPlayed (s : State) (e : Entry) : Nat := ((s.clock : Int) - e.air.since).toNat

/-! ### HARD anchors (R14, R29, R30) -/

/-- Every sounding voice of an outlet ramps to silence over `n` samples (R29, R31). -/
def State.rampAll (s : State) (o : OutletId) (n : Nat) : State :=
  (s.voicesWhere o VoiceUse.sounding).foldl (fun s i => s.modVoice i fun u => u.rampOut s.clock n) s

/-- An ON_AIR entry is cut: one that sounds stays ON_AIR to the end of its ramp, a BREAK that runs in silence has no ramp and leaves
AIRED_CUT, one that never sounded leaves WITHDRAWN (R14, R17; notes/assumptions/14.md). -/
def State.cutEntry (s : State) (o : OutletId) (e : Entry) : State :=
  if e.air.silentUntil.isSome then s.endBreakEntry o e.tag .airedCut (s.breakPlayed e) e.air.underfill
  else if e.air.sounding then s.modEntry o e.tag fun e => { e with air := { e.air with cut := true } }
  else (s.unprepare o e.tag).leaveSilent o e.tag .withdrawn

/-- The ON_AIR entries of an outlet are cut. -/
def State.cutOnAir (s : State) (o : OutletId) : State :=
  (s.out o).entries.foldl (fun s e => if e.state == .onAir then s.cutEntry o e else s) s

/-- What an anchor does to another entry of its running order (R14): one that is ON_AIR is cut, one before the anchor that has not started
leaves SKIPPED_TIME. -/
def State.passAnchor (s : State) (o : OutletId) (before : List Entry) (e : Entry) : State :=
  if e.state == .onAir then s.cutEntry o e
  else if before.contains e then s.leaveUnbegun o e.tag .skippedTime
  else s

/-- A HARD entry starts as an anchor (R14, R29): a FALLBACK ends, every sounding voice ramps to 0 over 24,000 samples, in list order (R16)
the ON_AIR entries are cut and every entry before it that has not started leaves SKIPPED_TIME, and the anchor is the lead, sounding at
once if it is ready. Its time is a boundary of a pending hand-back (R140), also where its version is found unusable meanwhile
(notes/assumptions/36.md). -/
def State.anchorStart (s : State) (o : OutletId) (e : Entry) : State :=
  let l := (s.out o).entries
  let s := if (s.out o).inFallback then s.leaveFallback o .anchor 24000 else s
  let s := l.foldl (fun s d => s.passAnchor o (entriesBefore l e.tag) d) (s.rampAll o 24000)
  let s := s.makeLead o e.tag
  let s := match (s.out o).entry e.tag with
    | some e => if s.entryReady o e then s.soundEntry o e else s
    | none => s
  s.handBackBoundary o

/-- An anchor that is due and not deferred to a break's rejoin starts (R14, R30); where the move to FALLBACK ends the break before that,
it starts once the BREAK entry has left (notes/assumptions/44.md). -/
def State.stepAnchor (s : State) (o : OutletId) : Option State :=
  let x := s.out o
  if x.air.sends && !x.breakOnAir then (x.anchorDue s.reached).map fun e => s.anchorStart o e else none

/-- A lead that does not sound yet (R29, R142) sounds once it is ready. -/
def State.stepLateLead (s : State) (o : OutletId) : Option State :=
  let x := s.out o
  if x.playsTimeline then
    (x.entries.find? fun e => e.state == .onAir && !e.air.sounded && e.air.silentUntil.isNone && s.entryReady o e).map
      fun e => s.soundEntry o e
  else none

/-! ### SOFT times (R13) -/

/-- The SOFT entry becomes next (R13): the entries between the lead, or an entry that starts at T itself, and the SOFT entry leave
SKIPPED_TIME. -/
def State.softTime (s : State) (o : OutletId) (tag : Nat) (t : Time) : State :=
  let x := s.out o
  let from_ :=
    match x.seqSlot.bind x.entry with
    | some e => if e.start == .time t && e.tag != tag then some e.tag else x.leadTag
    | none => x.leadTag
  let l := match from_ with
    | some a => entriesAfter x.entries a
    | none => x.entries
  ((entriesBefore l tag).filter fun d => d.state != .onAir).foldl (fun s d => s.leaveUnbegun o d.tag .skippedTime) s

/-! ### Insertion (R6) -/

/-- Put an entry immediately after the one of a tag. -/
def insertAfter (l : List Entry) (ref : Nat) (e : Entry) : List Entry :=
  (l.takeWhile fun d => d.tag != ref) ++
    match l.dropWhile fun d => d.tag != ref with
    | d :: t => d :: e :: t
    | [] => [e]

/-- Put an entry immediately before the first QUEUED one, or at the end (R6). -/
def insertFirstQueued (l : List Entry) (e : Entry) : List Entry :=
  (l.takeWhile fun d => d.state != .queued) ++ e :: l.dropWhile fun d => d.state != .queued

/-- The entry directly after the lead disarms what the sequence slot holds (R6). -/
def State.displace (s : State) (o : OutletId) (tag : Nat) : State :=
  let x := s.out o
  match x.leadTag, x.seqSlot with
  | some l, some q =>
    if (entriesAfter x.entries l).head?.map Entry.tag == some tag && q != tag then s.disarm o q else s
  | _, _ => s

/-! ### Shadow advance (R18, R66) -/

/-- What a frame says of where its sender stands (R18, R66). -/
structure FramePlace where
  time : Time
  leadTag : Nat
  entryOffset : Int
  breakTag : Nat
  breakOffset : Int
  deriving DecidableEq, Repr

/-- Start of a break that runs as a shadow, from a frame (R66). -/
def FramePlace.shadowStart (f : FramePlace) (brk : Nat) : Time :=
  if f.breakTag = brk then f.time - f.breakOffset else f.time - f.entryOffset

/-- An entry passed by shadow advance leaves AIRED_ELSEWHERE; a shadow break writes its records before it (R18, R66, R16). -/
def State.passEntry (s : State) (o : OutletId) (tag : Nat) : State :=
  match (s.out o).entry tag with
  | none => s
  | some e =>
    if e.state == .onAir then
      let s := match (s.out o).fitOf tag with
        | some p => s.endShadow o p
        | none => s
      let under := ((s.out o).entry tag).bind fun e => e.air.underfill
      (s.giveUp o (.entry tag)).endBreakEntry o tag .airedElsewhere e.air.played under
    else s.leaveUnbegun o tag .airedElsewhere

/-- An ON_AIR shadow returns to QUEUED and holds nothing (R18, R3). -/
def State.requeueShadow (s : State) (o : OutletId) (tag : Nat) : State := (s.disarm o tag).modOut o fun x =>
  { x with airOrder := x.airOrder.filter fun t => t != tag, tallies := x.tallies.filter fun t => t.key != .entry tag }

/-- The named entry becomes the shadow lead (R18): an ITEM gives up its voice, a BREAK keeps its fitted break, or is fitted if a place is
free, and runs as a shadow. -/
def State.shadowLead (s : State) (o : OutletId) (e : Entry) (f : FramePlace) : State :=
  let s := match e.kind with
    | .item _ => s.giveUp o (.entry e.tag)
    | .brk brk len =>
      match (s.out o).fitOf e.tag with
      | some p => s.shadowFit o p (f.shadowStart brk)
      | none =>
        match (s.out o).freePlace with
        | some p => (s.fitEntry o p e.tag brk len).shadowFit o p (f.shadowStart brk)
        | none => s
  (s.makeLead o e.tag).modEntry o e.tag fun e =>
    { e with air := { EntryAir.empty with start := some (f.time - f.entryOffset) } }

/-- Shadow advance to the entry a frame names (R18), which gives up its own voice and request first; the slots fill afterwards. -/
def State.shadowAdvance (s : State) (o : OutletId) (f : FramePlace) : State :=
  let x := s.out o
  if f.leadTag = 0 then s
  else
    match x.entry f.leadTag with
    | none => s
    | some e =>
      if x.leadTag = some e.tag then s
      else
        let s := if e.isBreak || e.state == .onAir then s else s.giveUp o (.entry e.tag)
        let s := (entriesBefore x.entries e.tag).foldl (fun s d => s.passEntry o d.tag) s
        let s := if e.state == .onAir then s else s.shadowLead o e f
        let others := (s.out o).entries.filter fun d => d.state == .onAir && d.tag != e.tag
        let s := others.foldl (fun s d => s.requeueShadow o d.tag) s
        let s := s.modOut o fun x => { x with airOrder := [e.tag] }
        match (s.out o).seqSlot with
        | some q =>
          if (entriesAfter (s.out o).entries e.tag).head?.map Entry.tag == some q then s else s.disarm o q
        | none => s

end Sys2Proof.Machine
end

