-- ==== Sys2Proof/Machine/Instants.lean ====
section
/-! DEFINITION. Fire-line instants (R32 to R36, R92). -/

namespace Sys2Proof.Machine

/-- The settled entry of a fire line. -/
def State.lineCfg (s : State) (n : Nat) : LineCfg := s.cfg.lines.getD n { enabled := false, outlet := .a, cart := 0 }

/-- The fire lines in number order. -/
def lineNumbers : List Nat := [0, 1, 2, 3, 4, 5, 6, 7]

/-- The lines mapped to an outlet. -/
def State.linesOf (s : State) (o : OutletId) : List Nat :=
  lineNumbers.filter fun n => (s.lineCfg n).enabled && (s.lineCfg n).outlet == o

/-! ### Records (R33, R34) -/

/-- The record of an instant (R34). -/
def instantRecord (i : Instant) (out : Outcome) (rep : VoiceReport) : Record :=
  { Record.blank .instant out with
    cart := i.cart, serial := i.serial, planned := some i.fire, actual := i.actual, played := rep.sounded
    slip := match i.actual with
      | some a => a - i.fire
      | none => 0
    concealed := rep.concealed, stream := rep.stream }

/-- Write an instant's record, with its tally if it sounded. -/
def State.recordInstant (s : State) (o : OutletId) (n : Nat) (i : Instant) (out : Outcome) (rep : VoiceReport) : State :=
  (s.tallyStop o (.instant n i.fire)).record o (instantRecord i out rep)
    (if i.actual.isSome then some (.instant n i.fire) else none)

/-- Outcome of an instant that sounded (R34). -/
def VoiceReport.instantOutcome (rep : VoiceReport) : Outcome := if rep.atEnd then .aired else .airedCut

/-! ### A fire (R33, R35, R92) -/

/-- The conditions of R33 apart from the voice; the version an accepted instant plays. -/
def State.fireVersion (s : State) (o : OutletId) (cart : Nat) : Option Version :=
  let x := s.out o
  if s.isSelf o && x.air == .onAir && !x.breakOnAir then s.store.usable cart else none

/-- A refused fire writes its record at once (R33), its fire time 0 while group time is unset (notes/assumptions/47.md). -/
def State.refuseFire (s : State) (o : OutletId) (cart : Nat) : State :=
  s.record o
    { Record.blank .instant .refused with
      cart := cart, serial := ((s.store.current cart).map Version.serial).getD 0, planned := some s.now } none

/-- The line's voice leaves its version and primes a new instant's without becoming FREE (R92). -/
def State.reprime (s : State) (i n : Nat) (o : OutletId) (v : Version) (needed : Time) : State :=
  match s.voice i with
  | none => s
  | some _ =>
    let tr := s.transfer.map fun (t : Transfer) => if t.kind.voice == some i then { t with stale := true } else t
    ({ s with transfer := tr } : State).prime i o (.line n) v v.inCue false needed

/-- A fire on a line without a live instant (R33): it takes a voice at once or is refused with NO_VOICE. -/
def State.freshFire (s : State) (n : Nat) (o : OutletId) (v : Version) : State :=
  match s.voiceFor o with
  | some i =>
    (s.prime i o (.line n) v v.inCue false s.now).modLine n fun l =>
      { l with current := some { cart := v.cart, serial := v.serial, fire := s.now, waiting := false, actual := none } }
  | none =>
    (s.refuseFire o v.cart).latch { FaultInfo.bare .noVoice with outlet := some o, cart := some (v.cart, 0) }

/-- A re-fire that is accepted (R35): a sounding instant ramps out, one not yet sounding is recorded WITHDRAWN, and the line's voice
primes the new one at once or after the ramp. -/
def State.refire (s : State) (n : Nat) (o : OutletId) (v : Version) (old : Instant) : State :=
  let fresh : Instant := { cart := v.cart, serial := v.serial, fire := s.now, waiting := false, actual := none }
  if old.actual.isSome then
    let s := match s.voiceOf o (.line n) with
      | some i => s.modVoice i fun u => u.rampOut s.clock 480
      | none => s
    s.modLine n fun l => { l with old := some old, current := some { fresh with waiting := true } }
  else
    let s := s.recordInstant o n old .withdrawn .none
    if old.waiting then s.modLine n fun l => { l with current := some { fresh with waiting := true } }
    else
      let s := match s.voiceOf o (.line n) with
        | some i => s.reprime i n o v s.now
        | none => s
      s.modLine n fun l => { l with current := some fresh }

/-- A fire is made on a line (R33, R35); a line mapped to a DARK outlet makes none (R32). -/
def State.fire (s : State) (n : Nat) : State :=
  let c := s.lineCfg n
  if c.enabled && (s.out c.outlet).air != .dark then
    match s.fireVersion c.outlet c.cart with
    | none => s.refuseFire c.outlet c.cart
    | some v =>
      match (s.line n).current with
      | some old => s.refire n c.outlet v old
      | none => s.freshFire n c.outlet v
  else s

/-! ### Instants start and end (R34, R35, R31) -/

/-- An instant that has not sounded is withdrawn (R34). -/
def State.withdrawInstant (s : State) (n : Nat) (o : OutletId) (i : Instant) : State :=
  let s := (s.recordInstant o n i .withdrawn .none).modLine n fun l => { l with current := none }
  if i.waiting then s else s.giveUp o (.line n)

/-- An instant sounds from the sample its voice becomes PRIMED (R34). -/
def State.soundInstant (s : State) (n : Nat) (o : OutletId) (i : Nat) (inst : Instant) : State :=
  match s.voice i with
  | none => s
  | some u =>
    let s := (s.startVoice i (.steady (s.voiceMult u 0))).modLine n fun l =>
      { l with current := some { inst with actual := some s.now } }
    s.tallyStart o (.instant n inst.fire)

/-- What a line's waiting or priming instant is ready for: to be withdrawn as its outlet has left ON_AIR, or to sound (R34). -/
def State.stepLine (s : State) (n : Nat) : Option State :=
  let o := (s.lineCfg n).outlet
  match (s.line n).current with
  | none => none
  | some i =>
    if i.actual.isSome then none
    else if (s.out o).air != .onAir then some (s.withdrawInstant n o i)
    else if i.waiting then none
    else (s.primedVoice o (.line n)).map fun v => s.soundInstant n o v i

/-- The voice of a line has ended (R34, R35): the instant that sounded is recorded, and an instant waiting for the voice primes on it,
or is withdrawn if its version can no longer be played (R92). -/
def State.endLine (s : State) (n i : Nat) (rep : VoiceReport) : State :=
  let l := s.line n
  let o := (s.lineCfg n).outlet
  match l.old, l.current with
  | some old, some c =>
    let s := (s.recordInstant o n old rep.instantOutcome rep).modLine n fun l => { l with old := none }
    match (s.store.usable c.cart).filter fun v => v.serial == c.serial with
    | some v => (s.reprime i n o v c.fire).modLine n fun l => { l with current := some { c with waiting := false } }
    | none => ((s.recordInstant o n c .withdrawn .none).modLine n fun l => { l with current := none }).freeVoices [i]
  | some old, none =>
    ((s.recordInstant o n old rep.instantOutcome rep).modLine n fun l => { l with old := none }).freeVoices [i]
  | none, some c =>
    ((s.recordInstant o n c rep.instantOutcome rep).modLine n fun l => { l with current := none }).freeVoices [i]
  | none, none => s.freeVoices [i]

/-- The instant of a line ends with its outlet's sending (R31, R34, R36): a sounding one AIRED_CUT, one not sounding WITHDRAWN. The
voice is FREE but not yet offered. -/
def State.stopLine (s : State) (n : Nat) : State :=
  let l := s.line n
  let o := (s.lineCfg n).outlet
  let (rep, s) : VoiceReport × State := match s.voiceOf o (.line n) with
    | some i => s.stopVoice i
    | none => (.none, s)
  let s := match l.old with
    | some old => s.recordInstant o n old .airedCut rep
    | none => s
  let s := match l.current with
    | some c => s.recordInstant o n c (if c.actual.isSome then .airedCut else .withdrawn) (if c.actual.isSome then rep else .none)
    | none => s
  s.modLine n fun l => { l with old := none, current := none }

/-- Every instant of an outlet ends. -/
def State.stopInstants (s : State) (o : OutletId) : State := (s.linesOf o).foldl State.stopLine s

end Sys2Proof.Machine
end

