-- ==== Sys2Proof/Machine/Settle.lean ====
section
/-! DEFINITION. What comes about by itself at the end of a command: slots fill, what is ready starts, the fetch engine takes up work
(R9, R12, R24, R29, R34, R61 to R64, R97, R159). -/

namespace Sys2Proof.Machine

/-- The fallback voice sounds from the sample it becomes PRIMED (R159). -/
def State.stepFallback (s : State) (o : OutletId) : Option State :=
  let x := s.out o
  if x.inFallback then
    match x.openPeriod with
    | none => none
    | some p =>
      (s.primedVoice o (.fallback p.id)).bind fun i =>
        (s.voice i).map fun u =>
          ((s.startVoice i (.steady (s.voiceMult u 0))).modOut o fun x =>
            x.modPeriod p.id fun q => { q with actual := some s.now }).tallyStart o (.fallback p.id)
  else none

/-- The armed entry of the sequence slot starts, if it is due. -/
def State.stepSequence (s : State) (o : OutletId) : Option State := (s.sequenceDue o).map fun e => s.startEntry o e

/-- The first of two steps that can be taken. -/
def orStep (a : Option State) (b : Unit → Option State) : Option State :=
  match a with
  | some s => some s
  | none => b ()

/-- An entry whose version was found unusable at its voice's grant leaves, and hands its start on (R10). -/
def State.stepLost (s : State) (o : OutletId) : Option State :=
  ((s.out o).entries.find? fun e => e.lost).map fun e => s.skipEntry o e.tag

/-- The next thing an outlet does by itself. -/
def State.stepOutlet (s : State) (o : OutletId) : Option State :=
  orStep (s.stepLost o) fun _ =>
  orStep (s.stepAnchor o) fun _ =>
  orStep (s.stepLateLead o) fun _ =>
  orStep (s.stepSequence o) fun _ =>
  orStep (s.fillSequence o) fun _ =>
  orStep (s.fillAnchor o) fun _ =>
  orStep (s.stepFallback o) fun _ =>
  orStep (s.stepFit o .first) fun _ =>
  orStep (s.stepFit o .second) fun _ =>
  orStep (s.stepShadow o .first) fun _ => s.stepShadow o .second

/-- The first step any of a list can take. -/
def firstStep {α : Type} (f : α → Option State) : List α → Option State
  | [] => none
  | a :: t => orStep (f a) fun _ => firstStep f t

/-- The next thing the unit does by itself: each outlet in turn, then the fire lines. -/
def State.stepUnit (s : State) : Option State :=
  orStep (firstStep s.stepOutlet OutletId.all) fun _ => firstStep s.stepLine lineNumbers

/-- Everything that comes about by itself, one thing after the other. -/
def State.settleLoop : Nat → State → State
  | 0, s => s
  | fuel + 1, s =>
    match s.stepUnit with
    | none => s
    | some s => State.settleLoop fuel s

/-- Steps enough for every entry, slot, bed, line and fallback of a unit. -/
def settleSteps : Nat := 4096

/-- Everything that comes about by itself; a start handed on (R10) is not kept past it. -/
def State.settle (s : State) : State :=
  let s := State.settleLoop settleSteps s
  { s with outlets := s.outlets.mapId fun _ x => { x with inherit := none } }

/-- The records written since `a` take their numbers (R164): each outlet's together, its entries' in the list order of `a` (R16). -/
def State.numbered (s a : State) : State :=
  if s.log.next = a.log.next then s
  else { s with log := s.log.placed a.log.next fun o => (a.out o).entries.map Entry.tag }

/-- The end of a command that found the unit as `a`: what is ready comes about, an idle fetch engine takes up a transfer (R97), and the
command's records take their numbers. -/
def State.finish (s a : State) : State := s.settle.pump.numbered a

end Sys2Proof.Machine
end

