-- ==== Sys2Proof/Machine/RelayOps.lean ====
section
/-! DEFINITION. The relay of a FOLLOW outlet: frames, slots, resync, and the swaps (R70 to R79). -/

namespace Sys2Proof.Machine

/-! ### Relay multiplier (R77) -/

/-- The relay multiplier ramps from the value in force to `m1` over 480 samples (R40, R77). -/
def State.relayTo (s : State) (o : OutletId) (m1 : Int) : State := s.rampRelay o (s.relayMult o) m1

/-- At a followed time the content of a break in progress still holds the relay at 0 (R77 to R79): from its start until its hand-over at
`r - 240`, or until an EARLY_REJOIN tail begins. -/
def Outlet.contentHolds (x : Outlet) (pos : Time) : Bool :=
  Place.all.any fun p => (x.place p).any fun b =>
    b.state == .running && !b.ending && !b.handedBack && b.rejoinAt.any fun r => decide (pos < r - 240)

/-- Release a FOLLOW outlet's ARMED fitted break (R51); a swap-out that had begun for it, `pos` being the followed time, is taken back
(R78), unless the other break's content still holds the relay at 0. -/
def State.releaseFollow (s : State) (o : OutletId) (p : Place) (pos : Time) : State :=
  let x := s.out o
  let begun := (x.place p).any fun b => b.start.any fun t => decide (t - 240 ≤ pos)
  let s := s.releaseFit o p
  if begun && x.relay.mult.m1 == 0 && !x.inFallback && !x.contentHolds pos then s.relayTo o unity else s

/-! ### Placing frames (R71) -/

/-- The relay is collecting (R71): UNSET, or LOST with no RUNNING or SPENT fitted break. -/
def Outlet.collecting (x : Outlet) : Bool :=
  match x.relay.state with
  | .unset => true
  | .lost => !x.inBreak
  | .relaying => false

/-- A frame joins the jitter buffer in order of frame time. -/
def insertFrame (h : HeldFrame) : List HeldFrame → List HeldFrame
  | [] => [h]
  | g :: t => if h.time < g.time then h :: g :: t else g :: insertFrame h t

/-- The slots of the buffer: a frame lies up to 720 after the first (R71). -/
def bufferReach : Time := 720

/-- Drop the earliest frames that lie more than 720 before a frame time (R71). -/
def dropFar (f : Time) : List HeldFrame → List HeldFrame
  | [] => []
  | g :: t => if bufferReach < f - g.time then dropFar f t else g :: t

/-- A frame taken while collecting (R71). -/
def collectFrame (buf : List HeldFrame) (h : HeldFrame) : List HeldFrame :=
  if buf.any fun g => g.time == h.time then buf
  else
    match buf.getLast?, buf.head? with
    | some last, some first =>
      if last.time < h.time then dropFar h.time (insertFrame h buf)
      else if h.time < first.time then (if last.time - h.time ≤ bufferReach then insertFrame h buf else buf)
      else insertFrame h buf
    | _, _ => [h]

/-- A frame taken while anchored on a position (the table of R71); a frame of the slot judged last is late (R73). -/
def anchorFrame (pos : Time) (judged : Option Time) (buf : List HeldFrame) (h : HeldFrame) : List HeldFrame :=
  if h.time < pos || judged == some h.time then buf
  else if buf.any fun g => g.time == h.time then buf
  else if pos / 48 * 48 + bufferReach < h.time then buf
  else insertFrame h buf

/-- Place a frame of the follow feed (R71). Frames whose last sample has been presented have left the buffer (R73). Frames held as a
break's start anchors a relay that collected stay held, also beyond the 16 slots (notes/assumptions/51.md). -/
def State.placeFrame (s : State) (o : OutletId) (h : HeldFrame) : State :=
  s.modOut o fun x =>
    let r := x.relay
    let buf :=
      if x.collecting then collectFrame r.buffer h
      else
        match r.position with
        | some p => anchorFrame p (r.slot.map Prod.fst) (r.buffer.filter fun g => decide (p < g.time + 48)) h
        | none => r.buffer
    { x with relay := { r with buffer := buf } }

/-! ### Resync (R72, R75) -/

/-- The ramp of the source out of a gap (R73). -/
def concealRamp (clock : Nat) : Ramp := { start := clock, m0 := 0, m1 := unity, n := 480 }

/-- The ARMED breaks whose start a move of the followed time passes over (R75). -/
def Outlet.passedBreaks (x : Outlet) (old : Option Time) (t : Time) : List Place :=
  x.placesWhere fun b =>
    b.state == .armed && (b.start.any fun u => (old.any fun p => decide (p < u)) && decide (u ≤ t))

/-- The relay multiplier at a resync (R77; notes/assumptions/23.md): unity; in FALLBACK it is held, and a swap-out begun for a break that
the resync releases is left for the release to take back (R78). -/
def Outlet.resyncMult (x : Outlet) (old : Option Time) (passed : List Place) : Ramp :=
  let begun := passed.any fun p => (x.place p).any fun b => b.start.any fun u => old.any fun q => decide (u - 240 ≤ q)
  if x.inFallback || (begun && x.relay.mult.m1 == 0) then x.relay.mult else .steady unity

/-- A collecting relay with four frames held and no break in progress starts presenting at the earliest held frame (R72, R77); an ARMED
break whose start the followed time moves over is released (R75). -/
def State.tryResync (s : State) (o : OutletId) : State :=
  let x := s.out o
  match x.relay.buffer.head? with
  | none => s
  | some h =>
    if x.collecting && !x.inBreak && 4 ≤ x.relay.buffer.length then
      let old := s.followed o
      let passed := x.passedBreaks old h.time
      let s := s.modOut o fun x =>
        { x with relay :=
            { x.relay with
              state := .relaying, position := some h.time, missing := 0, conceal := concealRamp s.clock, slot := none
              mult := x.resyncMult old passed } }
      passed.foldl (fun s p => s.releaseFollow o p (old.getD 0)) s
    else s

/-! ### Judging slots (R73, R74) -/

/-- The slot is present: its frame is held, and the relay is not LOST and collecting (R73, R74). -/
def Outlet.slotFrame (x : Outlet) (f : Time) : Option HeldFrame :=
  if x.collecting then none else x.relay.buffer.find? fun g => g.time == f

/-- The relay judges a slot present (R73): after a gap the source ramps in, and a LOST relay is RELAYING again (R74). -/
def Relay.present (r : Relay) (h : HeldFrame) (clock : Nat) : Relay :=
  { r with
    state := .relaying
    missing := 0
    lastSender := some h.sender
    slot := some (h.time, some h.samples)
    conceal := if r.missing = 0 then r.conceal else concealRamp clock }

/-- The relay judges a slot missing (R73). -/
def Relay.miss (r : Relay) (f : Time) : Relay := { r with missing := min 100 (r.missing + 1), slot := some (f, none) }

/-- The 100th consecutive missing slot makes a RELAYING relay LOST (R74). -/
def State.loseSource (s : State) (o : OutletId) : State :=
  let x := s.out o
  if x.relay.state == .relaying && x.relay.missing == 100 then
    let s := s.modOut o fun x =>
      { x with relay := { x.relay with state := .lost, buffer := if x.inBreak then x.relay.buffer else [] } }
    s.latch { FaultInfo.bare .sourceLost with outlet := some o, node := x.relay.lastSender }
  else s

/-- The relay judges the slot it stands in, once (R73). -/
def State.judgeSlot (s : State) (o : OutletId) : State :=
  let x := s.out o
  match x.relay.position with
  | none => s
  | some p =>
    let f := p / 48 * 48
    if (x.relay.slot.map Prod.fst) = some f then s
    else
      match x.slotFrame f with
      | some h => s.modOut o fun x => { x with relay := x.relay.present h s.clock }
      | none => (s.modOut o fun x => { x with relay := x.relay.miss f }).loseSource o

/-! ### Swaps (R77 to R79) -/

/-- At `s - 240` the relay hands over to the break that is ARMED with that start (R78). -/
def State.swapOut (s : State) (o : OutletId) (p : Place) : State :=
  match s.fit o p, s.followed o with
  | some b, some pos =>
    match b.start with
    | some t =>
      if b.state == .armed && decide (t - 240 ≤ pos) && decide (pos < t) && (s.out o).relay.mult.m1 != 0 then s.relayTo o 0
      else s
    | none => s
  | _, _ => s

/-- At `r - 240` a RUNNING break hands back to the relay if the relay multiplier is 0 (R79); a break whose EARLY_REJOIN tail has begun has
handed back already, and FALLBACK holds the multiplier at 0 (R77). -/
def State.swapIn (s : State) (o : OutletId) (p : Place) : State :=
  match s.fit o p, s.followed o with
  | some b, some pos =>
    match b.rejoinAt with
    | some r =>
      if b.state == .running && !b.handedBack && decide (r - 240 ≤ pos) && decide (pos < r) && s.relayMult o == 0
          && (s.out o).relay.mult.m1 == 0 && !(s.out o).inFallback then s.relayTo o unity
      else s
    | none => s
  | _, _ => s

/-- After the last break in progress has ended a LOST relay collects afresh (R74), and a collecting relay may resync (R72). -/
def State.relayAfterBreak (s : State) (o : OutletId) : State :=
  let x := s.out o
  if s.isFollow o && !x.inBreak then
    (s.modOut o fun x => { x with relay := { x.relay with buffer := if x.relay.state == .lost then [] else x.relay.buffer } }).tryResync o
  else s

/-- The content of a RUNNING break of a FOLLOW outlet has the air (R77): from its start to its rejoin or to an EARLY_REJOIN tail. -/
def Outlet.contentOnAir (x : Outlet) : Bool :=
  Place.all.any fun p => (x.place p).any fun b => b.state == .running && !b.handedBack

end Sys2Proof.Machine
end

