-- ==== Sys2Proof/Machine/BreakEnd.lean ====
section
/-! DEFINITION. Cue intake, the start of a FOLLOW break, cuts and the rejoin, and the end of a voice (R48 to R51, R61, R63 to R67,
R79, R95). -/

namespace Sys2Proof.Machine

/-! ### Cue intake (R48 to R50) -/

/-- A cue as a CUE frame or a beacon carries it (R48). -/
structure Cue where
  tag : Nat
  start : Time
  len : Nat
  cancel : Bool
  sender : Nat
  deriving DecidableEq, Repr

/-- A cue is declined with a capture, unless the memory holds the same decline (R50). -/
def State.declineCue (s : State) (o : OutletId) (c : Cue) (reason : DeclineReason) : State :=
  let d : DeclinedCue := { tag := c.tag, start := c.start, len := clampLen c.len, reason := reason }
  if (s.out o).declined = some d then s
  else
    let kind : FaultKind := match reason with
      | .late => .lateCue
      | .overflow => .cueOverflow
    (s.modOut o fun x => { x with declined := some d }).latch
      { FaultInfo.bare kind with outlet := some o, node := some c.sender }

/-- A cue for a tag the outlet does not hold (R50). -/
def State.judgeCue (s : State) (o : OutletId) (c : Cue) (pos : Time) : State :=
  let x := s.out o
  if c.cancel then s
  else if c.start - pos < 24000 then s.declineCue o c .late
  else
    match x.spots.find? fun l => l.tag == c.tag with
    | none => s
    | some list =>
      match x.freePlace with
      | none => s.declineCue o c .overflow
      | some p =>
        match fitBreak s.store true c.tag (clampLen c.len) none (some c.start) (some list) x.fills x.bed with
        | none => s
        | some b => (s.modOut o fun x => x.setPlace p (some b)).requestSlot o p 0 (s.toGroup o c.start)

/-- The break has begun (R49): RUNNING or SPENT, or ARMED with the followed time at its start. -/
def FittedBreak.hasBegun (b : FittedBreak) (pos : Time) : Bool := b.begun || b.start.any fun t => decide (t ≤ pos)

/-- A FOLLOW outlet takes a cue (R48, R49): one for a tag it holds may refit or release the break, any other is judged afresh. An outlet
without a followed time ignores it (R76). -/
def State.takeCue (s : State) (o : OutletId) (c : Cue) : State :=
  match s.followed o with
  | none => s
  | some pos =>
    match ((s.out o).placesWhere fun b => b.tag == c.tag).head? with
    | none => s.judgeCue o c pos
    | some p =>
      match s.fit o p with
      | none => s
      | some b =>
        if b.hasBegun pos then s
        else if c.cancel then s.releaseFollow o p pos
        else if b.start = some c.start ∧ b.len = clampLen c.len then s
        else (s.releaseFollow o p pos).judgeCue o c pos

/-- Every FOLLOW outlet of a feed that is not DARK takes the cue (R48). -/
def State.takeCueFeed (s : State) (feed : Nat) (c : Cue) : State :=
  OutletId.all.foldl (fun s o =>
    if s.isFollow o && (s.ocfg o).followFeed == feed && (s.out o).air != .dark then s.takeCue o c else s) s

/-! ### Ends of breaks (R65 to R67) -/

/-- The BREAK entry of a place leaves with an outcome and its underfill (R16, R66, R68). -/
def State.leaveBreakEntry (s : State) (o : OutletId) (tag : Option Nat) (out : Entry → Outcome) (under : Option Nat) : State :=
  match tag.bind (s.out o).entry with
  | some e =>
    if e.state == .onAir then
      s.endBreakEntry o e.tag (out e) (if e.air.sounding then s.breakPlayed e else e.air.played) under
    else s
  | none => s

/-- After a rejoin whose swap has not begun the relay comes in at the rejoin (R79; notes/assumptions/25.md), unless FALLBACK holds it at 0
(R77), another break's content does, or a swap-out has begun for a break about to start (R78). -/
def Outlet.relayWaits (x : Outlet) (pos : Time) : Bool :=
  x.relay.mult.m1 != unity && !x.inFallback && !x.contentHolds pos
    && (x.placesWhere fun b => b.state == .armed && b.start.any fun t => decide (t - 240 ≤ pos)).isEmpty

/-- A break the rejoin ends on a sending outlet (R65, R68). On a SELF outlet the entry the empty sequence slot takes next, which may be a
BREAK that has waited for the place (R11), has its start computed behind the BREAK entry before that leaves. -/
def State.endAtRejoin (s : State) (o : OutletId) (p : Place) (b : FittedBreak) (pos : Time) : State :=
  let under := b.underfill pos
  let s := (s.stopAtRejoin o p).closeFit o p
  let s := if s.isFollow o then s else s.handStart o
  let s := s.leaveBreakEntry o b.entryTag (fun e => if e.air.takenOver then .airedTakenOver else .aired) under
  if s.isFollow o && (s.out o).relayWaits pos then s.relayTo o unity else s

/-- A break that the move to FALLBACK ended early has no voice sounding any more (R67): its records are written; on a SELF outlet the
BREAK entry leaves AIRED_CUT, on a FOLLOW outlet the break becomes SPENT and keeps its place to the rejoin. -/
def State.finishEnding (s : State) (o : OutletId) (p : Place) : State :=
  match s.fit o p with
  | none => s
  | some b =>
    if b.ending && (s.slotVoices o p).isEmpty then
      if s.isFollow o then
        (s.writeBreak o p).modFit o p fun b =>
          { b with state := .spent, ending := false, items := [], drops := [], tail := .none, tailBed := none, due := none }
      else
        let under := (s.position o).bind b.underfill
        (s.closeFit o p).leaveBreakEntry o b.entryTag (fun _ => .airedCut) under
    else s

/-- The rejoin of a SPENT break (R67, R161): its place is freed, and a FALLBACK ends with the relay resuming from 0 (R77;
notes/assumptions/69.md). -/
def State.endSpent (s : State) (o : OutletId) (p : Place) : State :=
  let s := s.releaseFit o p
  if (s.out o).inFallback then (s.leaveFallback o .natural 480).rampRelay o 0 unity else s

/-- The rejoin of the fitted break of a place has come (R65 to R67). -/
def State.rejoinFit (s : State) (o : OutletId) (p : Place) (b : FittedBreak) (pos : Time) : State :=
  match b.state with
  | .armed => s
  | .spent => s.endSpent o p
  | .running =>
    if b.ending then
      let s := ((s.stopAtRejoin o p).finishEnding o p)
      if s.isFollow o then s.endSpent o p else s
    else if (s.out o).air.sends then s.endAtRejoin o p b pos
    else s.endShadow o p

/-- The rejoin of a BREAK entry taken over without a fitted break (R69, R142); no break records are written there, so a spot list for its
tag stays (notes/assumptions/46.md). -/
def State.rejoinSilent (s : State) (o : OutletId) : State :=
  match (s.out o).entries.find? fun e => e.state == .onAir && e.air.silentUntil.any fun t => decide (t ≤ s.reached) with
  | some e => s.endBreakEntry o e.tag .airedTakenOver (s.breakPlayed e) e.air.underfill
  | none => s

/-- A FOLLOW outlet's pending hand-back meets its boundary at a rejoin (R140). -/
def State.followBoundary (s : State) (o : OutletId) : State := if s.isFollow o then s.handBackBoundary o else s

/-- REJOIN's effect, if the rejoin has come. -/
def State.rejoin (s : State) (o : OutletId) (place : Option Place) : State :=
  match place with
  | none => s.rejoinSilent o
  | some p =>
    match s.fit o p, s.position o with
    | some b, some pos =>
      if b.begun && b.rejoinAt.any fun r => decide (r ≤ (s.reachedPos o).getD pos) then
        ((s.rejoinFit o p b pos).relayAfterBreak o).followBoundary o
      else s
    | _, _ => s

/-! ### The start of a FOLLOW break (R61, R66, R67, R78) -/

/-- The followed time reaches the start of an ARMED break (R61): on a sending outlet it plays, in FALLBACK its content ends at once and it
is SPENT, on any other outlet it runs as a shadow. -/
def State.startFollow (s : State) (o : OutletId) (p : Place) (b : FittedBreak) (start : Time) : State :=
  let x := s.out o
  if x.inFallback then
    let s := s.modFit o p fun b => { b with state := .running, start := some start }
    (s.endEarly o p).finishEnding o p
  else if x.air.sends then
    let s := s.startFit o p (b.start.getD start)
    if x.relay.mult.m1 != 0 then s.relayTo o 0 else s
  else s.shadowFit o p (b.start.getD start)

/-- BREAK_START's effect: the fitted break of a FOLLOW outlet becomes RUNNING once its start has come. -/
def State.breakStart (s : State) (o : OutletId) (p : Place) : State :=
  match s.fit o p, s.followed o with
  | some b, some pos =>
    match b.start with
    | some t => if s.isFollow o && b.state == .armed && decide (t ≤ pos) then s.startFollow o p b t else s
    | none => s
  | _, _ => s

/-! ### Cuts and bed ramps (R63 to R65, R79) -/

/-- Within 480 samples of the rejoin every break voice that would still sound at it ramps to 0 (R65, R79). A bed that ends with its slot
or with the tail has a ramp of its own. -/
def State.cutAtRejoin (s : State) (o : OutletId) (p : Place) : State :=
  match s.fit o p, s.position o with
  | some b, some pos =>
    if b.state == .running && b.rejoinAt.any fun r => decide (r - 480 ≤ pos) && decide (pos < r) then
      let left := b.leftAt pos
      (s.slotVoices o p).foldl (fun s i =>
        s.modVoice i fun u =>
          let cut := match u.slotOf p with
            | some k => if u.looping then decide (k < b.items.length) && b.bedCut k else decide (left < u.passEnd - u.sounded)
            | none => false
          if cut then u.rampOutEnding s.clock 480 left else u) s
    else s
  | _, _ => s

/-- Where a bed's ramp ends and how long it is (R63, R64): the slot's end and 480 samples, or the rejoin and the tail's ramp. -/
def FittedBreak.bedEnd (b : FittedBreak) (k : Nat) : Option (Time × Nat) :=
  if k < b.items.length then (if k + 1 = b.cursor then b.slotEnd.map fun e => (e, 480) else none)
  else b.rejoinAt.map fun r => (r, b.bedRamp)

/-- A bed whose ramp's first sample has come ramps to 0 at the end of its slot or tail (R63, R64). -/
def State.bedRampStart (s : State) (o : OutletId) (p : Place) : State :=
  match s.fit o p, s.position o with
  | some b, some pos =>
    (s.slotVoices o p).foldl (fun s i =>
      s.modVoice i fun u =>
        match (u.slotOf p).bind b.bedEnd with
        | some (e, n) =>
          if u.looping && decide (e - n ≤ pos) && decide (pos < e) then u.rampOutEnding s.clock n (e - pos).toNat else u
        | none => u) s
  | _, _ => s

/-! ### The end of a voice (R95, R91) -/

/-- A voice ends: its stream check as it stands, its report to its owner, and the voice FREE and offered (R95, R91, R103, R104). -/
def State.endVoice (s : State) (i : Nat) : State :=
  let s := s.settlePass i
  match s.voice i with
  | none => s
  | some u =>
    let o := u.outlet
    match u.holder with
    | .entry tag => (s.endItemEntry o tag u.report).freeVoices [i]
    | .line n => s.endLine n i u.report
    | .fallback id =>
      match (s.out o).periods.find? fun q => q.id == id with
      | some q => (s.recordPeriod o q u.report).freeVoices [i]
      | none => s.freeVoices [i]
    | .slot p k =>
      let mark := (s.fit o p).bind fun b => b.endMark k u.report
      ((s.endSlot o p k u.report mark).freeVoices [i]).finishEnding o p

end Sys2Proof.Machine
end

