-- ==== Sys2Proof/Machine/Confidence.lean ====
section
/-! DEFINITION. The confidence monitor: echo blocks, the sent-check history, the air tap, results and the echo-mismatch run
(R147 to R153), and the demand for a fault release (R137). -/

namespace Sys2Proof.Machine

/-- Samples in an echo block (R147). -/
def echoBlockLen : Nat := 4800

/-! ### Fault release (R137) -/

/-- A demand for a fault release (R137): whether a successor was found is told to the block that made it. -/
def State.demandRelease (s : State) (o : OutletId) : Bool × State :=
  match (s.out o).air with
  | .onAir =>
    match s.bestSuccessor o with
    | some n => (true, s.enterYielding o n .fault)
    | none => (false, s)
  | .fallback => (true, s.judgeRelease o)
  | _ => (true, s)

/-! ### Results (R151 to R153) -/

/-- An open entry's result as it leaves (R151). -/
def HistEntry.leavingResult (e : HistEntry) : EchoResult :=
  match e.result with
  | some r => r
  | none => if e.tap == .mismatch || e.peerMismatch then .mismatch else .unconfirmed

/-- The echo-mismatch run reaches 3 (R153). -/
def State.runFull (s : State) (o : OutletId) (b : Time) : State :=
  let s := s.modOut o fun x => { x with mismatchRun := 0 }
  let s := s.latch { FaultInfo.bare .echoMismatch with outlet := some o, block := some b }
  (s.demandRelease o).2

/-- An entry's final result enters the echo-mismatch run as it leaves, while the outlet is sending (R153). -/
def State.feedRun (s : State) (o : OutletId) (b : Time) (r : EchoResult) : State :=
  let x := s.out o
  if x.air.sends then
    if r == .mismatch then
      if x.mismatchRun + 1 = 3 then s.runFull o b else s.modOut o fun x => { x with mismatchRun := x.mismatchRun + 1 }
    else s.modOut o fun x => { x with mismatchRun := 0 }
  else s

/-- An entry leaves the history (R147, R151, R153), `again` if another one of its block is made. -/
def State.leaveHistory (s : State) (o : OutletId) (again : Bool) (e : HistEntry) : State :=
  let r := e.leavingResult
  let s := if e.result.isNone then s.finalResult o e.block r again else s
  let s := s.modOut o fun x => { x with history := x.history.filter fun h => h.block != e.block }
  s.feedRun o e.block r

/-- The entries of the history that meet a condition leave, in block order (R147). -/
def State.leaveHistoryWhere (s : State) (o : OutletId) (p : HistEntry → Bool) : State :=
  ((s.out o).history.filter p).foldl (fun s e => s.leaveHistory o false e) s

/-- The last group time before an entry leaves (R147). -/
def historyStay : Time := 81600

/-- Every history empties, in block order (R147). -/
def State.emptyHistories (s : State) : State := OutletId.all.foldl (fun s o => s.leaveHistoryWhere o fun _ => true) s

/-- An entry's result becomes CONFIRMED (R151). -/
def State.confirm (s : State) (o : OutletId) (b : Time) : State :=
  (s.modOut o fun x =>
    { x with history := x.history.map fun h => if h.block == b then { h with result := some .confirmed } else h }).finalResult o b
      .confirmed false

/-! ### The block in progress (R147) -/

/-- Zero samples. -/
def silence (n : Nat) : List SampleFrame := List.replicate n .zero

/-- The history entry of a block: `lead` zeros of the first frame, the samples driven from `first` on, and the zeros that end the last
frame (R147, R127). -/
def histEntry (first : Time) (afresh : Bool) (driven : List SampleFrame) : HistEntry :=
  let block := echoBlockOf first
  let n := driven.length
  let lead := if afresh then silence (first % 48).toNat else []
  let tail := silence ((-(first + n)) % 48).toNat
  { block := block
    check := crc32 (samplesBytes (lead ++ driven ++ tail))
    isPartial := first != block || n != echoBlockLen
    firstDriven := first
    lastDriven := first + n - 1
    driven := crc32 (samplesBytes driven)
    tap := .pending, peerMatch := false, peerMismatch := false, result := none }

/-- An entry joins the history in block order. -/
def insertHist (e : HistEntry) : List HistEntry → List HistEntry
  | [] => [e]
  | h :: t => if e.block < h.block then e :: h :: t else h :: insertHist e t

/-- An entry is made; an older one of the same block leaves at once (R147). A 17th entry is held too (notes/assumptions/73.md). -/
def State.addHistory (s : State) (o : OutletId) (e : HistEntry) : State :=
  (((s.out o).history.filter fun h => h.block == e.block).foldl (fun s h => s.leaveHistory o true h) s).modOut o fun x =>
    { x with history := insertHist e x.history }

/-- End the block in progress (R147): its entry holds the samples sent of it, up to the block's end. -/
def State.closeEchoBlock (s : State) (o : OutletId) : State :=
  let x := s.out o
  match x.echoBuf.head? with
  | none => s
  | some h =>
    let room := (echoBlockOf h.time + echoBlockLen - h.time).toNat
    let (samples, rest) := takeSamples false room x.echoBuf
    let s := s.modOut o fun x => { x with echoBuf := rest }
    if samples.isEmpty then s
    else s.addHistory o (histEntry h.time h.first (samples.map SampleFrame.limited))

/-- End block after block while samples are left. -/
def State.closeEchoBlocks : Nat → State → OutletId → State
  | 0, s, _ => s
  | fuel + 1, s, o => if (s.out o).echoBuf.isEmpty then s else State.closeEchoBlocks fuel (s.closeEchoBlock o) o

/-- The block in progress ends with what is left of the samples sent (R147). -/
def State.stopEchoBlock (s : State) (o : OutletId) : State :=
  (State.closeEchoBlocks (spansLen (s.out o).echoBuf + 1) s o).modOut o fun x => { x with echoBuf := [] }

/-! ### Echoes (R148, R149) -/

/-- The feed an outlet monitors (R148). -/
def State.monitored (s : State) (o : OutletId) : Option Nat :=
  let x := s.out o
  let c := s.ocfg o
  if x.air == .dark then none
  else if x.air.sends then (if s.isFollow o then some c.followFeed else none)
  else some c.feed

/-- A frame joins the frames of an open block in order of frame time. -/
def insertEchoFrame (f : Time × List SampleFrame) : List (Time × List SampleFrame) → List (Time × List SampleFrame)
  | [] => [f]
  | g :: t => if f.1 < g.1 then f :: g :: t else g :: insertEchoFrame f t

/-- The echo of a block that closes (R148): its check if all 100 frames are held, otherwise MISSING. -/
def OpenBlock.report (b : OpenBlock) (feed : Nat) : EchoReport :=
  { feed := feed, block := b.block
    check := if b.frames.length = 100 then some (crc32 (samplesBytes (b.frames.flatMap Prod.snd))) else none }

/-- The open block closes (R148). -/
def State.closeOpenBlock (s : State) (o : OutletId) : State :=
  match (s.out o).openBlock, s.monitored o with
  | some b, some feed => s.modOut o fun x => { x with openBlock := none, echo := some (b.report feed) }
  | _, _ => s

/-- An AUDIO frame of the monitored feed is taken (R148). -/
def State.collectEcho (s : State) (o : OutletId) (time : Time) (samples : List SampleFrame) : State :=
  let block := echoBlockOf time
  let open_ := fun (s : State) => s.modOut o fun x => { x with openBlock := some { block := block, frames := [(time, samples)] } }
  match (s.out o).openBlock with
  | none => open_ s
  | some b =>
    if block < b.block then s
    else if b.block < block then open_ (s.closeOpenBlock o)
    else if b.frames.any fun f => f.1 == time then s
    else s.modOut o fun x => { x with openBlock := some { b with frames := insertEchoFrame (time, samples) b.frames } }

/-- The open block's closing time has come (R148). -/
def State.timeoutOpenBlock (s : State) (o : OutletId) : State :=
  match (s.out o).openBlock, s.disc.groupTime with
  | some b, some now => if b.block + 9600 ≤ now then s.closeOpenBlock o else s
  | _, _ => s

/-- A peer's echo of the outlet's own feed is judged (the table of R149). -/
def State.judgeEcho (s : State) (o : OutletId) (e : EchoReport) : State :=
  match (s.out o).history.find? fun h => h.block == e.block with
  | none => s
  | some h =>
    if h.isPartial || h.result.isSome then s
    else
      match e.check with
      | none => s
      | some c =>
        if c = h.check then
          (s.modOut o fun x =>
            { x with history := x.history.map fun h => if h.block == e.block then { h with peerMatch := true } else h }).confirm o e.block
        else
          s.modOut o fun x =>
            { x with history := x.history.map fun h => if h.block == e.block then { h with peerMismatch := true } else h }

/-- The tap completes an entry (R150, R151): the readback over the driven span against the samples driven. -/
def State.completeTap (s : State) (o : OutletId) (block : Time) (readback : Crc) : State :=
  match (s.out o).history.find? fun h => h.block == block with
  | none => s
  | some h =>
    if h.tap != .pending then s
    else
      let r : TapResult := if readback = h.driven then .match else .mismatch
      let s := s.modOut o fun x =>
        { x with history := x.history.map fun h => if h.block == block then { h with tap := r } else h }
      if readback = h.driven && h.result.isNone then s.confirm o block else s

end Sys2Proof.Machine
end

