-- ==== Sys2Proof/Machine/Ownership.lean ====
section
/-! DEFINITION. Leaving the air, FALLBACK, claims, warm takeover and isolation (R17, R31, R67, R69, R131 to R146, R159). -/

namespace Sys2Proof.Machine

/-! ### Leaving the air (R17, R31, R47, R67) -/

/-- Cancel the announced breaks of the ARMED entries (R47). -/
def State.cancelCues (s : State) (o : OutletId) : State :=
  Place.all.foldl (fun s p => if (s.fit o p).any fun b => b.state == .armed then s.cancelCue o p else s) s

/-- An ON_AIR entry as its outlet stops sending (R17): a sounding ITEM leaves with an outcome, one that never sounded leaves WITHDRAWN,
a BREAK stays as the shadow lead. -/
def State.landEntry (s : State) (o : OutletId) (e : Entry) (out : Outcome) : State :=
  if e.state != .onAir then s
  else if e.isBreak then
    (s.modEntry o e.tag fun e =>
      { e with air :=
          { e.air with sounding := false, silentUntil := none, played := if e.air.sounding then s.breakPlayed e else e.air.played } }).tallyStop
      o (.entry e.tag)
  else if e.air.sounding then
    match s.voiceOf o (.entry e.tag) with
    | some i =>
      let (rep, s) := s.stopVoice i
      (s.tallyStop o (.entry e.tag)).leaveEntry o e.tag out rep rep.sounded none
    | none => s.leaveSilent o e.tag out
  else (s.unprepare o e.tag).leaveSilent o e.tag .withdrawn

/-- The fallback periods of an outlet stop at once (R161, R162). -/
def State.stopPeriods (s : State) (o : OutletId) : State :=
  (s.out o).periods.foldl (fun s q =>
    let (rep, s) : VoiceReport × State := match s.voiceOf o (.fallback q.id) with
      | some i => if (s.voice i).any VoiceUse.sounding then s.stopVoice i else (.none, s)
      | none => (.none, s)
    let s := if q.actual.isSome then s.tallyStop o (.fallback q.id) else s
    (s.recordPeriod o { q with ended := some (q.ended.getD .handedOver) } rep).giveUp o (.fallback q.id)) s

/-- The fitted breaks of an outlet that stops sending (R67): one ended early by FALLBACK stops and writes its records, a RUNNING one
goes on as a shadow. -/
def State.landFit (s : State) (o : OutletId) (p : Place) : State :=
  match s.fit o p with
  | none => s
  | some b =>
    if b.ending then ((s.stopAtRejoin o p).finishEnding o p)
    else if b.state == .running then s.suspendFit o p ((s.position o).getD 0)
    else s

/-- What an outlet clears as it stops sending (R140, R147, R148, R153, R157). -/
def Outlet.offAir (x : Outlet) (clock : Nat) : Outlet :=
  { x with
    air := .standby
    yielding := none
    handBack := false
    passed := if x.air == .fallback then [] else x.passed
    mismatchRun := 0
    echoSkip := false
    programme := x.programme.stop
    openBlock := none
    echo := none
    silenceSince := clock }

/-- The fitted break of an entry lands, and then the entry itself. -/
def State.landWithFit (s : State) (o : OutletId) (out : Outcome) (e : Entry) : State :=
  let s := match (s.out o).fitOf e.tag with
    | some p => s.landFit o p
    | none => s
  s.landEntry o e out

/-- The timeline of an outlet that stops sending (R17, R31, R47, R67): cues cancelled, the entries with their breaks ended in list order
(R16), the breaks of a FOLLOW outlet, instants and fallback. -/
def State.landTimeline (s : State) (o : OutletId) : State :=
  let s := s.cancelCues o
  let out : Outcome := if (s.out o).inFallback then .airedCut else .airedHandedOver
  let s := (s.out o).entries.foldl (fun s e => s.landWithFit o out e) s
  let s := if s.isFollow o then Place.all.foldl (fun s p => s.landFit o p) s else s
  (s.stopInstants o).stopPeriods o

/-- The outlet stops sending for STANDBY (R17, R31, R134, R136). -/
def State.leaveAir (s : State) (o : OutletId) : State :=
  (((s.landTimeline o).modOut o fun x => x.offAir s.clock).stopEchoBlock o).offerAll

/-! ### FALLBACK (R159, R17, R67, R77) -/

/-- A fallback period begins and its voice is asked for (R159, R92). -/
def State.beginPeriod (s : State) (o : OutletId) : State :=
  let id := (s.out o).periodCount
  let p : FallbackPeriod :=
    { id := id, since := s.now, cart := (s.ocfg o).fallbackCart, granted := false, serial := none, actual := none, ended := none }
  let s := s.modOut o fun x => { x with periods := x.periods ++ [p], periodCount := id + 1 }
  s.request { outlet := o, holder := .fallback id, needed := s.now }

/-- The timeline and the relay as an outlet moves to FALLBACK (R17, R67, R77): the sequence slot is disarmed, breaks in progress end
early, the timeline ramps out over 480 samples and its entries are cut, and the relay ramps to 0. -/
def State.fallTimeline (s : State) (o : OutletId) : State :=
  let s := match (s.out o).seqSlot with
    | some t => s.disarm o t
    | none => s
  let s := Place.all.foldl (fun s p =>
    if (s.fit o p).any fun b => b.state == .running && !b.ending then s.endEarly o p else s) s
  let s := (s.rampAll o 480).cutOnAir o
  let s := Place.all.foldl (fun s p => s.finishEnding o p) s
  if s.isFollow o then s.relayTo o 0 else s

/-- Enter FALLBACK from ON_AIR, or from YIELDING from ON_AIR (R159): the timeline falls silent, the programme meter starts afresh and a
period begins (after the sequence slot is disarmed, notes/assumptions/61.md); then the release rule is judged (R138). -/
def State.enterFallback (s : State) (o : OutletId) : State :=
  let s := (s.fallTimeline o).modOut o fun x => { x with air := .fallback, yielding := none, handBack := false }
  ((s.restartMeter o).beginPeriod o).judgeRelease o

/-! ### Claims (R131, R132) -/

/-- Begin a claim (R132). -/
def State.beginClaim (s : State) (o : OutletId) : State :=
  let s := s.send (.claim { feed := (s.ocfg o).feed, rank := (s.ocfg o).rank })
  s.modOut o fun x => { x with air := .claiming, claimSince := s.clock }

/-- Back to STANDBY from CLAIMING, the silence timer running from now (R132). -/
def State.stopClaim (s : State) (o : OutletId) : State :=
  s.modOut o fun x => { x with air := .standby, silenceSince := s.clock }

/-! ### Joining a break (R69) -/

/-- The items of a break taken up at slot `k` (R69; notes/assumptions/15.md): every one planned before it is over, marked ELSEWHERE, unless
it sounded here or was substituted, and every one from it on, also one that was substituted, waits to be checked at its grant. -/
def FittedBreak.takenFrom (b : FittedBreak) (k : Nat) : FittedBreak :=
  { b with items := b.items.zipIdx.map fun (it, j) =>
      if k ≤ j then { it with progress := .waiting }
      else if it.actual.isNone && it.progress != .substituted then { it with mark := .elsewhere, progress := .ended } else it }

/-- Index of the first item that ends after an offset (R69). -/
def FittedBreak.slotAt (b : FittedBreak) (b0 : Time) : Nat :=
  b.items.findIdx fun it => decide (b0 < it.offset + it.playLen)

/-- A sending break as R69 takes it up, before its slot: RUNNING, nothing announced, nothing primed. -/
def FittedBreak.takenUp (b : FittedBreak) (start : Time) : FittedBreak :=
  { b with
    state := .running, start := some start, announced := false, due := none, resume := none, tailBegan := none, tailSkip := 0
    items := b.items.map fun it => if it.actual.isNone then { it with mark := .here } else it }

/-- The slot of a break taken up at offset `b0` (R69): part of an item, the item after a join gap, or the tail. Before the break's start
(`b0` below 0) the first item is due at the start (notes/assumptions/64.md). -/
def FittedBreak.placeAt (b : FittedBreak) (b0 pos : Time) (bedLen : Nat) : FittedBreak :=
  let k := b.slotAt b0
  let b := b.takenFrom k
  match b.items[k]?, b.start with
  | some it, some start =>
    if (it.offset : Int) ≤ b0 then
      let gone := (b0 - it.offset).toNat
      { b with cursor := k, due := some pos, resume := some (k, gone, it.playLen - gone) }
    else { b with cursor := k, due := some (start + it.offset) }
  | _, some start =>
    let tailStart : Time := start + b.len - b.tailLen
    { b with
      cursor := b.items.length
      due := some pos
      tailBegan := if b.tail == .bed then some tailStart else some pos
      tailSkip := if bedLen = 0 then 0 else (b0 - (b.len - b.tailLen)).toNat % bedLen
      resume := some (b.items.length, 0, 0) }
  | _, none => b

/-- A place's break is taken up at offset `b0` (R69): voices held for its slots are released first, then the voice of the slot at the
offset is asked for; an offset at or beyond L ends it at once (R65). -/
def State.joinBreak (s : State) (o : OutletId) (p : Place) (start b0 : Time) : State :=
  match s.fit o p with
  | none => s
  | some b =>
    let pos := start + b0
    let bed := b.bedCart.bind fun c => s.store.find c.1 c.2
    let s := s.modFit o p fun b => b.takenUp start
    let s := s.giveUpWhere o (Holder.ofPlace p)
    let s := s.modFit o p fun b =>
      let b := b.placeAt b0 pos ((bed.map Version.playLen).getD 0)
      { b with resume := b.resume.map fun r =>
          (r.1, r.2.1 + (((b.items[r.1]?).bind fun it => s.store.find it.cart it.serial).map Version.inCue).getD 0, r.2.2) }
    match s.fit o p with
    | none => s
    | some b =>
      if b.len ≤ b0 then (s.endAtRejoin o p { b with tailBegan := none } pos).relayAfterBreak o
      else s.requestSlot o p b.cursor (s.toGroup o (b.due.getD pos))

/-! ### Warm takeover (R141 to R144) -/

/-- The place a view gives (R128). -/
def OwnerView.place (v : OwnerView) : FramePlace :=
  { time := v.frameTime, leadTag := v.leadTag, entryOffset := v.entryOffset, breakTag := v.breakTag, breakOffset := v.breakOffset }

/-- A takeover that names no entry (R142): every ON_AIR shadow leaves AIRED_ELSEWHERE, and the armed entry starts as with no lead. -/
def State.takeUnnamed (s : State) (o : OutletId) : State :=
  let shadows := (s.out o).entries.filter fun e => e.state == .onAir
  let s := shadows.foldl (fun s e => s.passEntry o e.tag) s
  match (s.out o).seqSlot with
  | some t => s.modEntry o t fun e => { e with start := e.mode.noLead, planned := e.mode.noLead.planned }
  | none => s

/-- The successor armed behind the entry taken over waits for that entry's start (R142). -/
def State.waitForLead (s : State) (o : OutletId) : State :=
  match (s.out o).seqSlot with
  | some t => s.modEntry o t fun e =>
      match e.mode with
      | .hard _ => e
      | _ => { e with start := .afterLead, planned := none }
  | none => s

/-- The lead ITEM is begun at a start offset (R142): its cart's current version is recorded afresh and a voice asked for; where the cart has
none the ITEM is skipped at once (notes/assumptions/72.md). -/
def State.takeItem (s : State) (o : OutletId) (tag cart : Nat) (offset : Int) : State :=
  let s := (s.modEntry o tag fun e =>
    { e with planned := some s.now, serial := none, air := { EntryAir.empty with offset := offset, takenOver := true } }).waitForLead o
  match s.store.current cart with
  | none => s.skipEntry o tag
  | some v =>
    (s.modEntry o tag fun e => { e with serial := some v.serial }).request { outlet := o, holder := .entry tag, needed := s.now }

/-- The lead BREAK sounds from its own start on, taken over (R142, R143): its actual start is the sample at which it would have begun, so
its played length counts from there (R166; notes/assumptions/29.md). -/
def State.takeBreakEntry (s : State) (o : OutletId) (tag : Nat) (start : Time) (silentUntil : Option Time) : State :=
  let s := s.modEntry o tag fun e =>
    { e with air :=
        { EntryAir.empty with
          start := some start, since := s.clock - (s.now - start), sounding := true, sounded := true, takenOver := true, silentUntil := silentUntil
          underfill := e.air.underfill } }
  ((s.tallyStart o (.entry tag)).waitForLead o).resolveSuccessor o

/-- A BREAK entry without a fit of the break on the air (R69, R142, R143): silence to its rejoin, a fit of another tag closed first with
every slot marked ELSEWHERE; one whose rejoin has passed leaves at once. -/
def State.takeSilentBreak (s : State) (o : OutletId) (tag len : Nat) (start : Time) : State :=
  let s := match (s.out o).fitOf tag with
    | some p => s.closeShadow o p FittedBreak.markAll
    | none => s
  let s := s.takeBreakEntry o tag start (some (start + len))
  if start + len ≤ s.now then (s.handStart o).rejoinSilent o else s

/-- The place of the fitted break of a break tag that a SELF outlet joins (R69, R143): the named entry's own, otherwise the first place's
(notes/assumptions/65.md). -/
def Outlet.fitToJoin (x : Outlet) (tag brk : Nat) : Option Place :=
  let l := x.placesWhere fun b => b.tag == brk
  ((l.filter fun p => (x.place p).any fun b => b.entryTag == some tag) ++ l).head?

/-- A SELF outlet positions its timeline (R141 to R143). -/
def State.takeSelf (s : State) (o : OutletId) (v : OwnerView) : State :=
  let d := s.now - v.frameTime
  match if v.leadTag = 0 then none else (s.out o).entry v.leadTag with
  | none => s.takeUnnamed o
  | some e =>
    let s := s.shadowAdvance o v.place
    match e.kind with
    | .item cart => s.takeItem o e.tag cart (v.entryOffset + d)
    | .brk _ len =>
      if v.breakTag = 0 then s.takeSilentBreak o e.tag len (s.now - (v.entryOffset + d))
      else
        let start := s.now - (v.breakOffset + d)
        match (s.out o).fitToJoin e.tag v.breakTag with
        | some p =>
          let s := s.modFit o p fun b => { b with start := some start }
          (s.takeBreakEntry o e.tag start none).joinBreak o p start (v.breakOffset + d)
        | none => s.takeSilentBreak o e.tag len start

/-- A FOLLOW outlet positions itself (R141, R143, R144): a RUNNING shadow fit of another tag is closed, and one of the view's tag is
joined at the offset the outlet's own clock gives. The last break in progress that is closed empties a LOST relay's buffer, as at a rejoin
(R74; notes/assumptions/70.md). One of that tag that is SPENT, or ARMED with its start still to come, stays as it is
(notes/assumptions/63.md). -/
def State.takeFollow (s : State) (o : OutletId) (brk : Nat) : State :=
  let closed := (s.out o).placesWhere fun b => b.state == .running && (brk == 0 || b.tag != brk)
  let s := closed.foldl (fun s p => s.closeShadow o p FittedBreak.markAll) s
  let s := if closed.isEmpty then s else s.relayAfterBreak o
  match ((s.out o).placesWhere fun b => b.state != .spent && brk != 0 && b.tag == brk).head? with
  | none => s
  | some p =>
    match (s.fit o p).bind FittedBreak.start, s.followed o with
    | some start, some pos => if start ≤ pos then s.joinBreak o p start (pos - start) else s
    | _, _ => s

/-- The relay multiplier as the outlet begins sending (R77). -/
def State.relayAtTakeover (s : State) (o : OutletId) : State :=
  if s.isFollow o then
    if (s.out o).contentOnAir then s.modOut o fun x => { x with relay := { x.relay with mult := .steady 0 } }
    else s.rampRelay o 0 unity
  else s

/-- The outlet begins sending (R141, R127, R148, R157). -/
def State.goOnAir (s : State) (o : OutletId) : State :=
  ((s.modOut o fun x => { x with air := .onAir, yielding := none, fresh := true, echoSkip := false }).restartMeter o).clearEcho o

/-- An outlet that has begun sending positions its timeline from the owner view (R142 to R144), announces its armed breaks (R45) and sets
its relay multiplier (R77). -/
def State.takeTimeline (s : State) (o : OutletId) : State :=
  let view := (s.out o).view
  let s :=
    if s.isFollow o then s.takeFollow o ((view.map OwnerView.breakTag).getD 0)
    else
      match view with
      | some v => s.takeSelf o v
      | none => s.takeUnnamed o
  let s := [(s.out o).seqSlot, (s.out o).anchorSlot].foldl (fun s t =>
    match t with
    | some t => s.announceArmed o t
    | none => s) s
  s.relayAtTakeover o

/-- The outlet goes ON_AIR by warm takeover (R141). -/
def State.takeover (s : State) (o : OutletId) : State := (s.goOnAir o).takeTimeline o

/-! ### Groups of records of several outlets (R164) -/

/-- Do something on every outlet: those that write records by it first, their groups in a free order (R164), then the others. -/
def State.inFreeOrder (s : State) (f : State → OutletId → State) : State :=
  let writers := OutletId.all.filter fun o => (f s o).log.next != s.log.next
  let (order, s) := State.freeOrder 4 s writers
  let s := order.foldl f s
  (OutletId.all.filter fun o => !writers.contains o).foldl f s

/-! ### Isolation (R145, R17, R67, R70, R147, R157) -/

/-- A RUNNING break ends at isolation (R67): what sounds is HANDED_OVER, what has not begun WITHDRAWN, what a shadow's plan has passed
ELSEWHERE (R66), and the records are written; one still ramping out from the move to FALLBACK ends as that move gives, its items CUT and its
entry AIRED_CUT (notes/assumptions/57.md). Other fitted breaks are released without records. -/
def State.isolateFit (s : State) (o : OutletId) (p : Place) : State :=
  match s.fit o p with
  | none => s
  | some b =>
    if b.ending then (((s.stopAtRejoin o p).finishEnding o p).releaseFit o p)
    else if b.state == .running then
      let s := (s.slotVoices o p).foldl (fun s i => s.stopSlot o p (fun _ _ => some .handedOver) i) s
      let s := if (s.out o).air.sends then s else s.modFit o p fun b => b.followPlan ((s.position o).getD 0)
      (s.closeFit o p).giveUpWhere o (Holder.ofPlace p)
    else s.releaseFit o p

/-- An entry's part of isolation, after that of its fitted break (R17, R67). -/
def State.isolateEntry (s : State) (o : OutletId) (e : Entry) : State :=
  let s := match (s.out o).fitOf e.tag with
    | some p => s.isolateFit o p
    | none => s
  if e.state == .armed then s.disarm o e.tag else if (s.out o).air.sends then s.landEntry o e .airedHandedOver else s

/-- An outlet's part of isolation: the entries with their breaks in list order (R16), the breaks of a FOLLOW outlet, instants and
fallback. -/
def State.isolateOutlet (s : State) (o : OutletId) : State :=
  let s := (s.out o).entries.foldl (fun s e => s.isolateEntry o e) s
  let s := Place.all.foldl (fun s p => s.isolateFit o p) s
  ((s.stopInstants o).stopPeriods o).giveUpWhere o fun _ => true

/-- The ownership, relay, meter and echo state an isolated outlet clears (R145, R70, R147, R148, R157); the clip count keeps what has
clipped among the samples sent (R41). -/
def Outlet.isolated (x : Outlet) : Outlet :=
  { x with
    air := .dark, yielding := none, claimSince := 0, silenceSince := 0, view := none, heard := false, passed := []
    handBack := false, clip := x.clipCount, unsent := [], fresh := false, echoSkip := false, openBlock := none, echo := none
    mismatchRun := 0
    relay := { x.relay with state := .unset, position := none, buffer := [], missing := 0, slot := none }
    programme := x.programme.stop, source := x.source.stop }

/-- The unit becomes ISOLATED (R145): it sends nothing from here on. -/
def State.isolate (s : State) : State :=
  if s.isolated then s
  else
    let s : State := { s with isolated := true }
    let s := s.inFreeOrder State.isolateOutlet
    let s : State := { s with outlets := s.outlets.mapId fun _ x => x.isolated }
    (OutletId.all.foldl State.stopEchoBlock s).emptyHistories

end Sys2Proof.Machine
end

