-- ==== Sys2Proof/Machine/Meters.lean ====
section
/-! DEFINITION. Meter blocks, acceptance, the silence detector, and dead air (R154 to R158, R161). A block is held as the sum of the
squares of its 2,048 channel values; its level is 10 log10(sum / 2^56) dBFS, and each comparison of levels is made exactly on integers. -/

namespace Sys2Proof.Machine

/-- Sample frames in a meter block (R154). -/
def meterBlockLen : Nat := 1024

/-- The square of a channel value. -/
def square (x : Int) : Nat := x.natAbs * x.natAbs

/-- The sum of the squares of a block's channel values (R154). -/
def blockPower (l : List SampleFrame) : Nat := (l.map fun f => square f.l + square f.r).sum

/-- A block's power on a scale on which -120.0 dBFS is 2^56, a lower level taken as that (R154). -/
def scaledPower (p : Nat) : Nat := max (p * 10 ^ 12) (2 ^ 56)

/-- Two levels lie within 40.0 dB of one another (R155). -/
def within40 (p q : Nat) : Bool :=
  scaledPower p ≤ 10000 * scaledPower q && scaledPower q ≤ 10000 * scaledPower p

/-- Two levels lie within 6.0 dB of one another (R155): a power ratio of at most 10^0.6. -/
def within6 (p q : Nat) : Bool :=
  scaledPower p ^ 5 ≤ 1000 * scaledPower q ^ 5 && scaledPower q ^ 5 ≤ 1000 * scaledPower p ^ 5

/-- A level below -50.0 dBFS (R156). -/
def below50 (p : Nat) : Bool := p * 10 ^ 5 < 2 ^ 56

/-- A level above -44.0 dBFS (R156). -/
def above44 (p : Nat) : Bool := 2 ^ 280 < p ^ 5 * 10 ^ 22

/-- The mean power of `k` blocks whose powers add up to `sum` is at least the level half a tenth below `t` tenths of a dB (R154). -/
def levelReaches (sum k : Nat) (t : Int) : Bool :=
  let top := sum ^ 200
  let base := (k * 2 ^ 56) ^ 200
  let e := 2 * t - 1
  if 0 ≤ e then base * 10 ^ e.toNat ≤ top else base ≤ top * 10 ^ (-e).toNat

/-- The greatest level in tenths of a dB, from `t` up to `t + 2^bits - 1`, that is reached. -/
def searchLevel (sum k : Nat) : Nat → Int → Int
  | 0, t => t
  | bits + 1, t =>
    let u := t + (2 ^ bits : Nat)
    if levelReaches sum k u then searchLevel sum k bits u else searchLevel sum k bits t

/-- The meter level in tenths of a dB (R154): of the mean of the last four accepted blocks, -1,200 if lower or without one. -/
def Meter.level (m : Meter) : Int :=
  let l := m.accepted.take 4
  if l.isEmpty || l.sum * 10 ^ 12 ≤ l.length * 2 ^ 56 then -1200 else searchLevel l.sum l.length 11 (-1200)

/-- The silence detector judges an accepted block (the table of R156); a transition into DEAD or LIVE is reported. -/
def Meter.detect (m : Meter) (p : Nat) : Meter × Option Silence :=
  match m.detector with
  | .live => if below50 p then ({ m with detector := .quiet, count := 1 }, none) else (m, none)
  | .quiet =>
    if below50 p then
      if m.count + 1 = 235 then ({ m with detector := .dead, count := 0 }, some .dead)
      else ({ m with count := m.count + 1 }, none)
    else ({ m with detector := .live, count := 0 }, some .live)
  | .dead =>
    if above44 p then
      if m.count + 1 = 47 then ({ m with detector := .live, count := 0 }, some .live)
      else ({ m with count := m.count + 1 }, none)
    else ({ m with count := 0 }, none)

/-- A block is accepted: it joins the last four and goes to the detector (R154, R155). -/
def Meter.accept (m : Meter) (p : Nat) : Meter × List Silence :=
  let (m, e) := { m with accepted := (p :: m.accepted).take 4, held := none }.detect p
  (m, e.toList)

/-- A block judged with none held (R155). -/
def Meter.judgeFresh (m : Meter) (p : Nat) : Meter × List Silence :=
  match m.accepted.head? with
  | none => m.accept p
  | some last => if within40 p last then m.accept p else ({ m with held := some p }, [])

/-- A completed block is judged (the table of R155). -/
def Meter.judge (m : Meter) (p : Nat) : Meter × List Silence :=
  match m.held with
  | none => m.judgeFresh p
  | some h =>
    if within6 p h then
      let (m, e) := { m with held := none }.accept h
      let (m, e') := m.accept p
      (m, e ++ e')
    else { m with held := none }.judgeFresh p

/-- A meter of an outlet. -/
def Outlet.meter (x : Outlet) : MeterId → Meter
  | .programme => x.programme
  | .source => x.source

/-- Replace a meter of an outlet. -/
def Outlet.setMeter (x : Outlet) (w : MeterId) (m : Meter) : Outlet :=
  match w with
  | .programme => { x with programme := m }
  | .source => { x with source := m }

/-- The programme meter's detector has entered DEAD (R158). -/
def State.deadAir (s : State) (o : OutletId) : State :=
  let s := s.latch { FaultInfo.bare .deadAir with outlet := some o }
  let x := s.out o
  match x.air with
  | .onAir =>
    if s.isFollow o && !x.contentOnAir then s.enterFallback o
    else
      match s.demandRelease o with
      | (true, s) => s
      | (false, s) => s.enterFallback o
  | .fallback => s.judgeRelease o
  | _ => s

/-- The source detector has entered LIVE (R161): a FOLLOW outlet's FALLBACK ends unless a SPENT break holds its place, and the relay ramps in
from 0 (R77; notes/assumptions/69.md). -/
def State.sourceLive (s : State) (o : OutletId) : State :=
  let x := s.out o
  if s.isFollow o && x.inFallback && (x.placesWhere fun b => b.state == .spent).isEmpty then
    (s.leaveFallback o .natural 480).rampRelay o 0 unity
  else s

/-- What a transition of a meter's detector brings about (R158, R161). -/
def State.silenceEvent (s : State) (o : OutletId) (w : MeterId) (e : Silence) : State :=
  match w, e with
  | .programme, .dead => s.deadAir o
  | .source, .live => s.sourceLive o
  | _, _ => s

/-- A meter block completes (R154): the first 1,024 samples of the block in progress are judged, and the transitions act in order. -/
def State.meterBlock (s : State) (o : OutletId) (w : MeterId) : State :=
  let m := (s.out o).meter w
  if m.running && meterBlockLen ≤ spansLen m.buf then
    let (samples, rest) := takeSamples false meterBlockLen m.buf
    let (m, events) := { m with buf := rest }.judge (blockPower (samples.map SampleFrame.limited))
    events.foldl (fun s e => s.silenceEvent o w e) (s.modOut o fun x => x.setMeter w m)
  else s

end Sys2Proof.Machine
end

