-- ==== Sys2Proof/Machine/ClockOps.lean ====
section
/-! DEFINITION. The clock discipline and steps of group time (R80 to R86, R15, R147, R148). -/

namespace Sys2Proof.Machine

/-- Ticks of the measurement counter in a sample (04, section 4.5). -/
def ticksPerSample : Nat := 2048

/-- The measured count a complete window has when the clocks agree (R82). -/
def expectedCount : Nat := 100663296

/-- The measurement counter at a frame's arrival: `phase` ticks into the present sample. -/
def State.counter (s : State) (phase : Nat) : Nat := ticksPerSample * s.clock + phase

/-! ### Windows (R81 to R83) -/

/-- A window's frequency error in sixteenths of a ppm (R82). -/
def windowError (measured : Nat) : Int := roundDiv (((measured : Int) - expectedCount) * 16000000) expectedCount

/-- The trim's change of an accepted window (R82). -/
def trimStep (eps : Int) : Int := max (-16) (min 16 (-(roundDiv eps 2)))

/-- A window is accepted (R82). -/
def ClockDiscipline.acceptWindow (c : ClockDiscipline) (eps : Int) : ClockDiscipline :=
  { c with
    trim := max (-1600) (min 1600 (c.trim + trimStep eps))
    rejected := 0
    state := match c.state with
      | .acquiring | .holdover => .tracking
      | k => k }

/-- A window is rejected (R83): the fourth in a row puts ACQUIRING or TRACKING into HOLDOVER and latches REFERENCE_ABNORMAL. -/
def State.rejectWindow (s : State) (sender : Nat) : State :=
  let n := min 4 (s.disc.rejected + 1)
  let falls := s.disc.rejected = 3 ∧ (s.disc.state = .acquiring ∨ s.disc.state = .tracking)
  let s : State := { s with disc := { s.disc with rejected := n, state := if falls then .holdover else s.disc.state } }
  if falls then s.latch { FaultInfo.bare .referenceAbnormal with node := some sender } else s

/-- A complete window is evaluated (R82). -/
def State.evaluateWindow (s : State) (w : Window) (count : Nat) : State :=
  let eps := windowError (count - w.a0)
  if 3200 < eps.natAbs then s.rejectWindow w.sender else { s with disc := s.disc.acceptWindow eps }

/-- A window opens with a frame (R81). -/
def State.openWindow (s : State) (frame : Time) (count sender : Nat) : State :=
  { s with disc := { s.disc with window := some { f0 := frame, a0 := count, sender := sender, last := frame } } }

/-- A reference frame is taken into the windows (the table of R81). -/
def State.takeWindow (s : State) (frame : Time) (count sender : Nat) : State :=
  match s.disc.window with
  | none => s.openWindow frame count sender
  | some w =>
    if w.sender ≠ sender then s.openWindow frame count sender
    else if frame = w.last then s
    else if frame = w.last + 48 then
      if frame = w.f0 + 49152 then (s.evaluateWindow w count).openWindow frame count sender
      else { s with disc := { s.disc with window := some { w with last := frame } } }
    else s.openWindow frame count sender

/-! ### The candidate group time (R84) -/

/-- An AUDIO frame of the listen time gives the candidate (R84), also after a RESTART taken before group time was ever set
(notes/assumptions/53.md). -/
def State.takeCandidate (s : State) (feed : Nat) (sentAt : Time) : State :=
  let isRef := s.cfg.refFeed != 0 && feed == s.cfg.refFeed
  if s.disc.groupTime.isSome || s.listenSince.isNone then s
  else
    match s.disc.candidate with
    | none => { s with disc := { s.disc with candidate := some (sentAt, isRef) } }
    | some (_, byRef) => if isRef && !byRef then { s with disc := { s.disc with candidate := some (sentAt, true) } } else s

/-! ### Steps of group time (R85, R86) -/

/-- The group time after a step (R85): the value nearest `h` a whole number of frames from `g`, the later of two equally near. -/
def steppedTime (g h : Time) : Time := g + 48 * ((h - g + 24) / 48)

/-- A time with what is to be done when it is reached. -/
inductive DueEvent where
  | settle
  | soft (o : OutletId) (tag : Nat) (t : Time)
  | bedRamp (o : OutletId) (p : Place)
  | cut (o : OutletId) (p : Place)
  | rejoin (o : OutletId) (place : Option Place)
  deriving DecidableEq, Repr

/-- Times an entry waits for (R15): SOFT and HARD times, the arm time of a HARD entry, a computed start and a silent break's rejoin. -/
def Entry.dueTimes (o : OutletId) (e : Entry) : List (Time × DueEvent) :=
  (match e.mode with
    | .sequence => []
    | .soft t => [(t, .soft o e.tag t)]
    | .hard t => [(t - 96000, .settle), (t, .settle)]) ++
  (match e.start with
    | .time t => [(t, .settle)]
    | _ => []) ++
  match e.air.silentUntil with
  | some t => [(t, .rejoin o none)]
  | none => []

/-- Times a SELF outlet's break in progress waits for (R86): due times, the beds' ramps, the cut and the rejoin. -/
def FittedBreak.dueTimes (o : OutletId) (p : Place) (b : FittedBreak) : List (Time × DueEvent) :=
  match b.state, b.rejoinAt with
  | .running, some r =>
    (match b.due with
      | some t => [(t, .settle)]
      | none => []) ++
    ((b.bedEnd (b.cursor - 1)).toList ++ (b.bedEnd b.items.length).toList).map (fun (e : Time × Nat) => (e.1 - (e.2 : Int), DueEvent.bedRamp o p)) ++
    b.slotEnd.toList.map (fun t => (t, DueEvent.settle)) ++
    [(r - 480, .cut o p), (r, .rejoin o (some p))]
  | _, _ => []

/-- Every time the unit's SELF outlets wait for. -/
def State.dueTimes (s : State) : List (Time × DueEvent) :=
  OutletId.all.flatMap fun o =>
    if s.isSelf o then
      (s.out o).entries.flatMap (Entry.dueTimes o) ++
        Place.all.flatMap fun p => ((s.fit o p).map (FittedBreak.dueTimes o p)).getD []
    else []

/-- The earliest of a list of times, of equal ones the first. -/
def earliestDue : List (Time × DueEvent) → Option (Time × DueEvent)
  | [] => none
  | x :: t =>
    match earliestDue t with
    | some y => if y.1 < x.1 then some y else some x
    | none => some x

/-- The next time to handle once those in `done`, the last of them at `from_`, have been (R15): the earliest that is waited for as things
then stand, and no later than the time stepped to. -/
def State.nextDue (s : State) (from_ : Time) (done : List (Time × DueEvent)) : Option (Time × DueEvent) :=
  earliestDue (s.dueTimes.filter fun x => decide (from_ ≤ x.1) && decide (x.1 ≤ s.now) && !done.contains x)

/-- A SOFT time is reached (R13). -/
def State.reachSoft (s : State) (o : OutletId) (tag : Nat) (t : Time) : State :=
  if (s.out o).playsTimeline && ((s.out o).entry tag).any fun e => e.state == .queued && e.mode == .soft t then s.softTime o tag t
  else s

/-- A passed time is handled as if it had just been reached (R15). -/
def State.handleDue (s : State) (x : Time × DueEvent) : State :=
  let s : State := { s with horizon := some x.1 }
  let s := match x.2 with
    | .settle => s
    | .soft o tag t => s.settle.reachSoft o tag t
    | .bedRamp o p => s.bedRampStart o p
    | .cut o p => s.cutAtRejoin o p
    | .rejoin o p => s.rejoin o p
  s.settle

/-- Passed times are handled one after the other, each as the ones before it have left things (R15). -/
def State.handleLoop : Nat → State → Time → List (Time × DueEvent) → State
  | 0, s, _, _ => s
  | fuel + 1, s, from_, done =>
    match s.nextDue from_ done with
    | none => s
    | some x => State.handleLoop fuel (s.handleDue x) x.1 (x :: done.filter fun y => y.1 == x.1)

/-- Steps enough for every time the 256 entries and two fitted breaks of each outlet wait for. -/
def dueSteps : Nat := 65536

/-- Everything a forward step passes over is handled, earliest first (R15, R86). -/
def State.handlePassed (s : State) (g : Time) : State :=
  let s := State.handleLoop dueSteps s (g + 1) []
  ({ s with horizon := none } : State).settle

/-- A FOLLOW outlet's RUNNING breaks keep the relay delay that a step of group time changes, for the times before it (R76, R86). -/
def State.keepDelays (s : State) (o : OutletId) : State :=
  match (s.out o).relay.position with
  | some p =>
    if s.isFollow o then
      Place.all.foldl (fun s q => s.modFit o q fun b =>
        if b.state == .running then { b with delays := b.delays ++ [(p, s.relayDelay o)] } else b) s
    else s
  | none => s

/-- The echo block in progress of a sending outlet after a step that cuts an AUDIO frame begins with the next frame (R147). -/
def Outlet.skipCutFrame (x : Outlet) (t : Time) : Outlet :=
  if x.air.sends && !x.fresh && t % 48 != 0 then { x with echoSkip := true } else x

/-- The tallies of an outlet across a step from `g` to `t` (R152): a forward one leaves their spans as they are. -/
def Outlet.rewindTallies (x : Outlet) (g t : Time) : Outlet :=
  if g < t then x else { x with tallies := x.tallies.map (x.rewindTally g t) }

/-- What the tallies of an outlet keep after a backward step (R152). -/
def Outlet.forgetTallies (x : Outlet) : Outlet :=
  { x with tallies := x.tallies.map fun l => { l with tally := l.tally.forget } }

/-- Group time is stepped (R85): the block in progress of a sending outlet ends and is partial (R147), the window is void, TIME_STEP is
latched, open echo blocks close and history entries leave, and passed times are handled; a backward step begins the spans of the live
tallies afresh (R152). -/
def State.stepTime (s : State) (t : Time) (sender : Nat) : State :=
  let g := s.now
  let s : State := OutletId.all.foldl State.stopEchoBlock (OutletId.all.foldl State.keepDelays s)
  let s : State := { s with outlets := s.outlets.mapId fun _ x => (x.rewindTallies g t).skipCutFrame t }
  let s : State := { s with disc := { s.disc with groupTime := some t, window := none } }
  let s := s.latch { FaultInfo.bare .timeStep with node := some sender }
  let s : State := OutletId.all.foldl State.timeoutOpenBlock s
  if g < t then
    let s : State := OutletId.all.foldl (fun s o => s.leaveHistoryWhere o fun e => decide (e.block + historyStay ≤ t)) s
    s.handlePassed g
  else
    let s : State := OutletId.all.foldl (fun s o => s.leaveHistoryWhere o fun _ => true) s
    { s with outlets := s.outlets.mapId fun _ x => x.forgetTallies }

/-- A reference frame is compared for time (R85). -/
def State.compareTime (s : State) (sentAt : Time) (sender : Nat) : State :=
  match s.disc.groupTime with
  | none => s
  | some g => if 480 < (sentAt - g).natAbs then s.stepTime (steppedTime g sentAt) sender else s

/-- The clock discipline takes an AUDIO frame (R81, R85): nothing unless it is of the reference feed. -/
def State.takeReference (s : State) (feed : Nat) (frame sentAt : Time) (sender phase : Nat) : State :=
  if s.cfg.refFeed != 0 && feed == s.cfg.refFeed then
    (s.takeWindow frame (s.counter phase) sender).compareTime sentAt sender
  else s

end Sys2Proof.Machine
end

