-- ==== Sys2Proof/Machine/Flags.lean ====
section
/-! DEFINITION. Codes, marks and masks that frames carry (R176, R179, R180, R182, R183). -/

namespace Sys2Proof.Machine

/-- A byte or mask from its bits, bit 0 first. -/
def bitsCode : List Bool → Nat
  | [] => 0
  | b :: t => (if b then 1 else 0) + 2 * bitsCode t

/-- The fault classes in order (R180, R182). -/
def FaultClass.all : List FaultClass := [.store, .fetch, .request, .air, .clock]

/-- A slot is locked (R171). -/
def Slot.locked (x : Slot) : Bool := x.first.isSome

/-- The locked capture mask (R176, R180). -/
def Captures.mask (c : Captures) : Nat := bitsCode (FaultClass.all.map fun k => (c.slot k).locked)

/-- A class of its code (R182). -/
def FaultClass.ofCode : Nat → Option FaultClass
  | 1 => some .store
  | 2 => some .fetch
  | 3 => some .request
  | 4 => some .air
  | 5 => some .clock
  | _ => none

/-- The code of a class (R182, R183). -/
def FaultClass.code : FaultClass → Nat
  | .store => 1
  | .fetch => 2
  | .request => 3
  | .air => 4
  | .clock => 5

/-- The code of a kind of fault (R183). -/
def FaultKind.code : FaultKind → Nat
  | .uncorrectable => 1
  | .verifyMismatch => 2
  | .streamMismatch => 3
  | .underrun => 4
  | .noVoice => 5
  | .foreignSender => 6
  | .malformed => 7
  | .loadSequence => 8
  | .doubleAir => 9
  | .deadAir => 10
  | .echoMismatch => 11
  | .lateCue => 12
  | .cueOverflow => 13
  | .sourceLost => 14
  | .takeover => 15
  | .referenceAbnormal => 16
  | .timeStep => 17

/-- The presence marks of a captured fault (R183). -/
def FaultInfo.presence (f : FaultInfo) : Nat :=
  bitsCode [f.time.isSome, f.outlet.isSome, f.cart.isSome, f.entryTag.isSome, f.node.isSome, f.page.isSome, f.delivered.isSome,
    f.block.isSome]

/-- The presence marks of an as-run record (R183). -/
def Record.presence (r : Record) : Nat :=
  bitsCode [r.entryTag.isSome, r.breakTag.isSome, r.slot.isSome, r.planned.isSome, r.actual.isSome, r.underfill.isSome]

/-- The code of a source (R183). -/
def Source.code : Source → Nat
  | .entry => 1
  | .spot => 2
  | .opener => 3
  | .closer => 4
  | .fill => 5
  | .bed => 6
  | .instant => 7
  | .fallback => 8

/-- The code of an outcome (R183). -/
def Outcome.code : Outcome → Nat
  | .aired => 1
  | .airedCut => 2
  | .airedHandedOver => 3
  | .airedTakenOver => 4
  | .airedElsewhere => 5
  | .skippedTime => 6
  | .skippedUnavailable => 7
  | .withdrawn => 8
  | .droppedOverlength => 9
  | .droppedUnavailable => 10
  | .refused => 11

/-- The code of a stream check (R183). -/
def StreamCheck.code : StreamCheck → Nat
  | .pass => 1
  | .fail => 2
  | .notChecked => 3

/-- The code of a confirmation (R183). -/
def Confirmation.code : Confirmation → Nat
  | .pending => 1
  | .confirmed => 2
  | .mismatch => 3
  | .unconfirmed => 4
  | .none => 5

/-- The code of a result (R183). -/
def ResultCode.code : ResultCode → Nat
  | .ok => 1
  | .full => 2
  | .busy => 3
  | .inAir => 4
  | .notFound => 5
  | .duplicate => 6
  | .wrongMode => 7
  | .notOwner => 8
  | .noLoad => 9
  | .sequence => 10
  | .outOfRange => 11
  | .malformed => 12

/-- The code of a clock state (R180). -/
def ClockState.code : ClockState → Nat
  | .free => 0
  | .acquiring => 1
  | .tracking => 2
  | .holdover => 3

/-- The code of a boot reason (R180). -/
def BootReason.code : BootReason → Nat
  | .powerOn => 1
  | .restartRequest => 2

/-- The code of a silence state (R180). -/
def Silence.code : Silence → Nat
  | .live => 0
  | .quiet => 1
  | .dead => 2

end Sys2Proof.Machine
end

