-- ==== Sys2Proof/Machine/Operands.lean ====
section
/-! DEFINITION. What is judged of a command's operands before its block acts: frame headers and bodies (R177 to R181), the order of
judgement of requests and their answers (R188 to R190), and the fields each kind's rule names as malformed. -/

namespace Sys2Proof.Machine

/-! ### Frames (R177 to R181) -/

/-- The protocol mark (R178). -/
def protocolMark : Nat := 0xE410

/-- A frame's header is sound and its body long enough (R178), and it does not come from the unit's own link address (R177). -/
def State.soundHead (s : State) (h : FrameHead) (need : Nat) : Bool :=
  h.link != s.linkAddress && h.mark == protocolMark && 1 ≤ h.sender && h.sender ≤ 63 && need ≤ h.bodyLen

/-- A frame other than a BEACON is taken (R177, R178): sound, and not of the unit's own node id. -/
def State.takesFrame (s : State) (h : FrameHead) (need : Nat) : Bool := s.soundHead h need && h.sender != s.cfg.nodeId

/-- A feed number is in range (R179, R181). -/
def feedOk (f : Nat) : Bool := 1 ≤ f && f ≤ 64

/-- Body lengths (R179 to R182). -/
def audioBodyLen : Nat := 314

/-- Body length a beacon of a role requires (R178, R180): a unit's has its fixed part and four outlet blocks; of any other the unit
reads the fixed part alone (notes/assumptions/27.md). -/
def beaconBodyLen (role : Nat) : Nat := if role = 1 then 186 else 14

/-- What the unit reads of a beacon (R178, R180): of a unit's at most the four outlet blocks its required length holds, of any other
none. -/
def heardBody (b : BeaconBody) : BeaconBody := { b with blocks := if b.role = 1 then b.blocks.take 4 else [] }

/-- A CUE body that is not discarded (R181). -/
def cueOk (b : CueBody) : Bool := feedOk b.feed && b.tag != 0 && b.cancel ≤ 1

/-- A CLAIM body that is not discarded (R181). -/
def claimOk (b : ClaimBody) : Bool := feedOk b.feed && b.rank ≤ 7

/-- A RELEASE body that is not discarded (R181). -/
def releaseOk (b : ReleaseBody) : Bool := feedOk b.feed && b.successor ≤ 63

/-- The outlet that carries a feed and is not DARK; no two outlets of a unit carry one feed (R192). -/
def State.outletOf (s : State) (feed : Nat) : Option OutletId :=
  OutletId.all.find? fun o => (s.ocfg o).valid && (s.ocfg o).feed == feed && (s.out o).air != .dark

/-! ### Answers (R190) -/

/-- Send an answer (R183, R190). -/
def State.answer (s : State) (req : RequestHead) (kind : Nat) (o : Option OutletId) (r : ResultCode) (f : AnswerFields) : State :=
  s.send (.answer
    { dest := req.head.sender, tag := req.tag, kind := kind, outlet := o, followUp := false, result := r, fields := f })

/-- Answer MALFORMED and latch the REQUEST capture MALFORMED (R188, R172). -/
def State.malformed (s : State) (req : RequestHead) (kind : Nat) (o : Option OutletId) : State :=
  (s.answer req kind o .malformed .none).latch { FaultInfo.bare .malformed with node := some req.head.sender }

/-! ### The order of judgement (R188, R189) -/

/-- Where a request leads (R188): dropped, a foreign sender, an addressing that cannot be read, not for this unit, or taken by the unit
or by one of its outlets. -/
inductive Gate where
  | drop
  | foreign
  | unreadable
  | ignore
  | unit
  | outlet (o : OutletId)
  deriving DecidableEq, Repr

/-- A REQUEST frame that is judged at all (R178, R188, R195). -/
def State.judgesRequest (s : State) (req : RequestHead) : Bool := !s.isolated && s.takesFrame req.head 12

/-- Steps 1 to 3 for a kind addressed by unit mask (R188, R189). -/
def State.unitGate (s : State) (req : RequestHead) : Gate :=
  if !s.judgesRequest req then .drop
  else if !s.cfg.stations.contains req.head.sender then .foreign
  else
    match req.addr with
    | .unitMask m => if m.testBit s.cfg.nodeId then .unit else .ignore
    | _ => .unreadable

/-- Steps 1 to 3 for a kind addressed by feed (R188, R189). -/
def State.feedGate (s : State) (req : RequestHead) : Gate :=
  if !s.judgesRequest req then .drop
  else if !s.cfg.stations.contains req.head.sender then .foreign
  else
    match req.addr with
    | .feed f =>
      if feedOk f then
        match s.outletOf f with
        | some o => .outlet o
        | none => .ignore
      else .unreadable
    | _ => .unreadable

/-- What a request that does not reach step 4 brings about (R188). -/
def State.turnAway (s : State) (req : RequestHead) (kind : Nat) (g : Gate) : State :=
  match g with
  | .foreign => s.latch { FaultInfo.bare .foreignSender with node := some req.head.sender }
  | .unreadable => s.malformed req kind none
  | _ => s

/-- The body holds the kind's fields (R188, step 4). -/
def holdsFields (req : RequestHead) (need : Nat) : Bool := 12 + need ≤ req.head.bodyLen

/-- A request by unit mask (R188): `need` is the length of its fields, `bad` that a field is malformed, `act` the owner's judgement. -/
def State.unitRequest (s : State) (req : RequestHead) (kind need : Nat) (bad : Bool) (act : State → State) : State :=
  match s.unitGate req with
  | .unit => if !holdsFields req need || bad then s.malformed req kind none else act s
  | g => s.turnAway req kind g

/-- A request by feed (R188). -/
def State.feedRequest (s : State) (req : RequestHead) (kind need : Nat) (bad : OutletId → Bool) (act : OutletId → State → State) :
    State :=
  match s.feedGate req with
  | .outlet o => if !holdsFields req need || bad o then s.malformed req kind (some o) else act o s
  | g => s.turnAway req kind g

/-! ### Malformed fields -/

/-- A cart id that can name a cart (R4, R112, R115, R19, R20). -/
def cartOk (c : Nat) : Bool := 1 ≤ c && c ≤ 999999

/-- Longest cart (R112). -/
def maxCartLen : Nat := 172800000

/-- Malformed fields of CART_OPEN (R112). -/
def cartOpenBad (f : CartFields) : Bool :=
  !cartOk f.cart || (CartKind.ofCode f.kind).isNone || f.len == 0 || decide (maxCartLen < f.len)

/-- Malformed fields of CART_DATA (R115). -/
def cartDataBad (cart : Nat) (payload : List Byte) : Bool := !cartOk cart || payload.isEmpty || decide (1152 < payload.length)

/-- The kind of an entry from its code, with what it names (R4, R5, R182). -/
def entryKindOf (f : EntryFields) : Option EntryKind :=
  match f.kind with
  | 1 => if cartOk f.ref then some (.item f.ref) else none
  | 2 => if f.ref = 0 then none else some (.brk f.ref (clampLen f.len))
  | _ => none

/-- The start mode of an entry from its code and time (R4, R182). -/
def startModeOf (f : EntryFields) : Option StartMode :=
  match f.mode, f.time with
  | 1, _ => some .sequence
  | 2, some t => some (.soft t)
  | 3, some t => some (.hard t)
  | _, _ => none

/-- Where an entry goes (R6). -/
inductive Position where
  | atEnd
  | firstQueued
  | after (ref : Nat)
  deriving DecidableEq, Repr

/-- The position from its code (R4, R182). -/
def positionOf (f : EntryFields) : Option Position :=
  match f.position with
  | 1 => some .atEnd
  | 2 => some .firstQueued
  | 3 => if f.reference = 0 then none else some (.after f.reference)
  | _ => none

/-- Malformed fields of ENTRY_ADD (R4). -/
def entryAddBad (f : EntryFields) : Bool :=
  f.tag == 0 || (entryKindOf f).isNone || (startModeOf f).isNone || (positionOf f).isNone

/-- A spot class from its code (R182). -/
def SpotClass.ofCode : Nat → Option SpotClass
  | 1 => some .must
  | 2 => some .should
  | 3 => some .may
  | _ => none

/-- An optional cart id is malformed. -/
def optCartBad (c : Option Nat) : Bool := c.any fun n => !cartOk n

/-- Malformed fields of SPOTS_SET (R19). -/
def spotsBad (f : SpotFields) : Bool :=
  f.tag == 0 || optCartBad f.opener || optCartBad f.closer || f.spots.any fun p => !cartOk p.1 || (SpotClass.ofCode p.2).isNone

/-- The spot list SPOTS_SET carries (R19). -/
def spotListOf (f : SpotFields) : SpotList :=
  { tag := f.tag, opener := f.opener, closer := f.closer
    spots := f.spots.map fun p => (p.1, (SpotClass.ofCode p.2).getD .must) }

/-- Malformed fields of FILLS_SET (R20). -/
def fillsBad (bed : Option Nat) (fills : List Nat) : Bool := optCartBad bed || fills.any fun c => !cartOk c

/-- A fill cart id is given twice (R20). -/
def repeats : List Nat → Bool
  | [] => false
  | c :: t => t.contains c || repeats t

end Sys2Proof.Machine
end

