-- ==== Sys2Proof/Machine/Link.lean ====
section
/-! DEFINITION. The link controller: configuration record, beacons, peer table, AUDIO frames sent, start and restart (R46, R127, R180,
R185 to R187, R191 to R194). -/

namespace Sys2Proof.Machine

/-! ### The configuration record (R191, R192) -/

/-- A field of `k` bytes at an offset. -/
def fieldAt (l : List Byte) (off k : Nat) : Nat := leNat ((l.drop off).take k)

/-- A number lies in a range. -/
def inRange (lo hi n : Nat) : Bool := lo ≤ n && n ≤ hi

/-- The record mark and check hold (R192). -/
def recordValid (l : List Byte) : Bool :=
  l.length == 96 && fieldAt l 0 2 == 0xE411 && BitVec.ofNat 32 (fieldAt l 92 4) == crc32 (l.take 92)

/-- The accepted traffic station of a place (R192). -/
def settleStation (nodeId n : Nat) : List Nat := if inRange 1 63 n && n != nodeId then [n] else []

/-- The mode of a code (R192). -/
def Mode.ofCode : Nat → Option Mode
  | 1 => some .self
  | 2 => some .follow
  | _ => none

/-- An outlet entry settled by itself (R192), at an offset of the record. -/
def settleOutlet (l : List Byte) (off : Nat) : OutletCfg :=
  let enabled := fieldAt l off 1 != 0
  let mode := if enabled then Mode.ofCode (fieldAt l (off + 1) 1) else none
  let feed := fieldAt l (off + 2) 1
  let follow := fieldAt l (off + 3) 1
  let rank := fieldAt l (off + 4) 1
  let cart := fieldAt l (off + 5) 4
  let followOk := match mode with
    | some .follow => inRange 1 64 follow && follow != feed
    | _ => true
  { enabled := enabled
    valid := enabled && mode.isSome && inRange 1 64 feed && followOk
    mode := mode
    feed := if enabled && inRange 1 64 feed then feed else 0
    followFeed := if mode == some .follow then follow else 0
    rank := min 7 rank
    fallbackCart := if inRange 1 999999 cart then some cart else none }

/-- A valid outlet repeats the feed of an earlier one (R192). -/
def OutletCfg.without (c : OutletCfg) (earlier : List OutletCfg) : OutletCfg :=
  if earlier.any fun d => d.valid && d.feed == c.feed then { c with valid := false } else c

/-- A fire line entry settled (R192). -/
def settleLine (l : List Byte) (off : Nat) : LineCfg :=
  let letter := OutletId.ofCode (fieldAt l (off + 1) 1)
  let cart := fieldAt l (off + 2) 4
  { enabled := fieldAt l off 1 != 0 && letter.isSome && inRange 1 999999 cart
    outlet := letter.getD .a
    cart := cart }

/-- The configuration record settled (R192); an invalid record leaves everything disabled (notes/assumptions/3.md). -/
def settleConfig (l : List Byte) : UnitCfg :=
  if recordValid l then
    let node := fieldAt l 2 1
    let ref := fieldAt l 3 1
    let a := settleOutlet l 8
    let b := settleOutlet l 17
    let c := settleOutlet l 26
    let d := settleOutlet l 35
    { nodeId := node
      refFeed := if inRange 0 64 ref then ref else 0
      stations := settleStation node (fieldAt l 4 1) ++ settleStation node (fieldAt l 5 1)
      outlets := ⟨a, b.without [a], c.without [a, b], d.without [a, b, c]⟩
      lines := lineNumbers.map fun n => settleLine l (44 + 6 * n) }
  else UnitCfg.reset

/-- The unit is ISOLATED by its configuration (R192, R145). -/
def configIsolates (l : List Byte) : Bool := !recordValid l || !inRange 1 63 (settleConfig l).nodeId

/-! ### Beacons (R46, R157, R180, R185) -/

/-- The breaks whose cues are pending (R46), the one with the earlier start first. -/
def Outlet.pendingBreaks (x : Outlet) : List FittedBreak :=
  let of := fun (b : Option FittedBreak) => (b.filter fun b => b.state == .armed && b.announced).toList
  match of x.place1, of x.place2 with
  | [b], [c] => if c.cueStart < b.cueStart then [c, b] else [b, c]
  | l, m => l ++ m

/-- The pending cue of the next beacon (R46): of two, each in turn. -/
def Outlet.pendingCue (x : Outlet) : Option PendingCue :=
  if x.air.sends then
    let l := x.pendingBreaks
    (l[x.cuePhase % (max 1 l.length)]?).map fun b => { tag := b.tag, start := b.cueStart, len := b.len }
  else none

/-- The meter a beacon reports (R157). -/
def State.beaconMeter (s : State) (o : OutletId) : Meter :=
  let x := s.out o
  if !x.air.sends && s.isFollow o then x.source else x.programme

/-- The outlet block of a beacon (R180). -/
def State.outletBlock (s : State) (o : OutletId) : OutletBlock :=
  let c := s.ocfg o
  let x := s.out o
  let lead := if s.isFollow o then 0 else x.leadTag.getD 0
  if x.air == .dark then
    { letter := o.code, feed := c.feed, mode := modeCode c.mode, air := x.air.code, rank := c.rank, leadTag := lead
      meter := -1200, silence := 0, clip := 0, cue := none, echo := none }
  else
    { letter := o.code, feed := c.feed, mode := modeCode c.mode, air := x.air.code, rank := c.rank, leadTag := lead
      meter := (s.beaconMeter o).level, silence := (s.beaconMeter o).detector.code, clip := x.clipCount
      cue := if s.isSelf o then x.pendingCue else none, echo := x.echo }

/-- The beacon as the unit stands (R180). -/
def State.beacon (s : State) : BeaconBody :=
  { role := 1, boot := s.boot.code, timeSet := s.disc.groupTime.isSome, groupTime := s.now, clockState := s.disc.state.code
    trim := s.disc.trim, mask := s.captures.mask, blocks := OutletId.all.map s.outletBlock }

/-- Beacon period, in samples of the sample clock (R185). -/
def beaconPeriod : Nat := 4800

/-- Send a beacon (R185); two pending cues alternate (R46). -/
def State.sendBeacon (s : State) : State :=
  let s := s.send (.beacon s.beacon)
  { s with beaconSince := s.clock, outlets := s.outlets.mapId fun _ x => { x with cuePhase := x.cuePhase + 1 } }

/-! ### The peer table (R186, R187) -/

/-- Entries the peer table can hold (R186). -/
def peerCapacity : Nat := 48

/-- The outlet summaries of a beacon (R186). -/
def summariesOf (b : BeaconBody) : List Summary :=
  if b.role = 1 then b.blocks.map fun k => { feed := k.feed, mode := k.mode, air := k.air, rank := k.rank } else []

/-- The STALE entry with the oldest latest beacon. -/
def oldestStale : List Peer → Option Peer
  | [] => none
  | p :: t =>
    match oldestStale t with
    | some q => if p.stale && decide (p.arrival ≤ q.arrival) then some p else some q
    | none => if p.stale then some p else none

/-- The peer table takes a beacon (the table of R186). -/
def enterPeer (l : List Peer) (p : Peer) : List Peer :=
  if l.any fun q => q.node == p.node then l.map fun q => if q.node == p.node then p else q
  else if l.length < peerCapacity then l ++ [p]
  else
    match oldestStale l with
    | some q => (l.filter fun r => r.node != q.node) ++ [p]
    | none => l

/-- A node leaves every passed-over set (R129, R187). -/
def State.forgetNode (s : State) (n : Nat) : State :=
  { s with outlets := s.outlets.mapId fun _ x => { x with passed := x.passed.filter fun m => m != n } }

/-- A beacon enters the peer table (R186); the node of an entry that makes room for it leaves every passed-over set (R129). -/
def State.enterBeacon (s : State) (node : Nat) (b : BeaconBody) : State :=
  let peers := enterPeer s.peers <|
    { node := node, isUnit := b.role == 1, arrival := s.clock, stale := false, summaries := summariesOf b }
  let gone := s.peers.filter fun q => !(peers.any fun p => p.node == q.node)
  gone.foldl (fun s q => s.forgetNode q.node) { s with peers := peers }

/-! ### AUDIO frames sent (R42, R127, R179) -/

/-- Samples of the frame at the front of what is to be framed: zeros before the first, how many samples of the spell there are, and
whether the spell has ended. -/
def Outlet.frontFrame (x : Outlet) : Option (Span × Nat × Nat × Bool) :=
  match x.unsent.head? with
  | none => none
  | some h =>
    let lead := if h.first then (h.time % 48).toNat else 0
    let have_ := spellLen false x.unsent
    some (h, lead, have_, have_ < spansLen x.unsent || !x.air.sends)

/-- The AUDIO frame a span's context gives (R127, R179), `lead` samples before the span's first: its flags too are those of the frame's
first sample (notes/assumptions/67.md). -/
def State.audioBody (s : State) (o : OutletId) (h : Span) (lead : Nat) (samples : List SampleFrame) : AudioBody :=
  let t := h.time - lead
  { feed := (s.ocfg o).feed, letter := o.code, rank := h.ctx.rank, fallback := h.ctx.fallback, yielding := h.ctx.yielding
    frameTime := t, leadTag := h.ctx.leadTag
    entryOffset := match h.ctx.leadBase with
      | some b => max 0 (t - b)
      | none => 0
    breakTag := h.ctx.breakTag
    breakOffset := if h.ctx.breakTag = 0 then 0 else max 0 (h.ctx.breakOffset - lead)
    samples := samples }

/-- Send the AUDIO frame of the slot at the front (R127): whole, or at the end of a spell with zeros after the last sample. `ended` tells
that the outlet stops here. -/
def State.sendAudio (s : State) (o : OutletId) (ended : Bool) : State :=
  match (s.out o).frontFrame with
  | none => s
  | some (h, lead, have_, stopped) =>
    if 48 - lead ≤ have_ || stopped || ended then
      let (raw, rest) := takeSamples false (48 - lead) (s.out o).unsent
      let samples := silence lead ++ raw.map SampleFrame.limited ++ silence (48 - lead - raw.length)
      let s := s.modOut o fun x =>
        { x with unsent := rest, clip := min 4294967295 (x.clip + (raw.map SampleFrame.clips).sum) }
      s.send (.audio (s.audioBody o h lead samples))
    else s

/-- Send everything an outlet has still to frame, as it stops at a RESTART (R127). -/
def State.flushAudio : Nat → State → OutletId → State
  | 0, s, _ => s
  | fuel + 1, s, o => if (s.out o).unsent.isEmpty then s else State.flushAudio fuel (s.sendAudio o true) o

/-! ### Start (R193, R194) -/

/-- An outlet at a start (R125, R157): LISTENING if its configuration is valid, otherwise DARK. -/
def startOutlet (c : OutletCfg) (isolated : Bool) : Outlet :=
  if c.valid && !isolated then
    { Outlet.reset with air := .listening, source := if c.mode == some .follow then .started else .reset }
  else Outlet.reset

/-- A start with a configuration record (R192, R193, R194): voices set aside, outlets LISTENING or DARK, the first beacon, and the listen
time begun. -/
def State.start (s : State) (config : List Byte) : State :=
  let cfg := settleConfig config
  let iso := s.isolated || configIsolates config
  let s : State :=
    { s with
      configMemory := config, cfg := cfg, isolated := iso, voices := poolFor cfg, voiceQueue := [], peers := []
      listenSince := some s.clock
      outlets := cfg.outlets.mapId fun _ c => startOutlet c iso
      lines := s.lines.map fun l => { FireLine.reset with active := l.active, since := s.clock } }
  s.sendBeacon

/-- Power is applied (R193): every block in its power-on state. -/
def State.powerUp (s : State) (link : Nat) (config : List Byte) : State :=
  let r : State :=
    { State.reset with pending := s.pending, sent := s.sent, freeCount := s.freeCount, powered := true, linkAddress := link
                       disc := { ClockDiscipline.reset with
                         state := if (settleConfig config).refFeed = 0 then .free else .acquiring } }
  r.start config

/-! ### RESTART (R194, R146, R21, R36, R67, R105) -/

/-- A sending outlet releases its feed (R146). -/
def State.releaseAtRestart (s : State) (o : OutletId) : State :=
  let x := s.out o
  if x.air.sends then
    let n := match x.yielding with
      | some y => y.successor
      | none => (s.bestSuccessor o).getD 0
    s.send (.release { feed := (s.ocfg o).feed, successor := n })
  else s

/-- A RUNNING break's records at a RESTART (R67). -/
def State.restartFit (s : State) (o : OutletId) (p : Place) : State :=
  match s.fit o p with
  | none => s
  | some b =>
    if b.state == .running then
      let s := (s.slotVoices o p).foldl (fun s i => s.stopSlot o p (fun _ _ => some .handedOver) i) s
      match s.fit o p with
      | some b => s.recordAll o (restartRecords b p (s.posDelay o))
      | none => s
    else s

/-- A sounding ITEM entry leaves AIRED_HANDED_OVER at a RESTART (R21); every other entry is discarded. -/
def State.restartEntry (s : State) (o : OutletId) (e : Entry) : State :=
  if e.state == .onAir && !e.isBreak && e.air.sounding then s.landEntry o e .airedHandedOver else s

/-- The records an outlet writes at a RESTART (R194, step 2). -/
def State.restartOutlet (s : State) (o : OutletId) : State :=
  let s := Place.all.foldl (fun s p => s.restartFit o p) s
  let s := if (s.out o).air.sends then (s.out o).entries.foldl (fun s e => s.restartEntry o e) s else s
  ((s.stopInstants o).stopPeriods o)

/-- RESTART (R194). -/
def State.restart (s : State) (config : List Byte) : State :=
  let s := OutletId.all.foldl State.releaseAtRestart s
  let s := OutletId.all.foldl (fun s o => State.flushAudio (spansLen (s.out o).unsent + 1) s o) s
  let s := ({ s with voiceQueue := [] } : State).inFreeOrder State.restartOutlet
  let s := (List.range s.voices.length).foldl State.dropVoice s
  let s := s.restartStore
  let s : State := { s with outlets := s.outlets.mapId fun _ x => { x with air := .dark } }
  let s := (OutletId.all.foldl State.stopEchoBlock s).emptyHistories
  let ref := (settleConfig config).refFeed
  let s : State :=
    { s with
      captures := .reset
      boot := .restartRequest
      disc := { s.disc with
        state := if ref = 0 then .free else .tracking, rejected := 0, window := none, candidate := none } }
  s.start config

end Sys2Proof.Machine
end

