-- ==== Sys2Proof/Machine/Power.lean ====
section
/-! DEFINITION. Time passing before a command, and the meanings of POWER_ON and LISTEN_TIME_END (R193, R84, R130). -/

namespace Sys2Proof.Machine

/-- A command of a unit that is powered: `dt` samples pass, then it acts (notes/assumptions/1.md). Without power nothing happens
(notes/assumptions/2.md). -/
def State.run (s : State) (dt : Nat) (act : State → State) : Host.Outcome State Fault Refusal :=
  .next (if s.powered then act (s.elapse dt) else s)

/-- POWER_ON (R193). -/
def execPowerOn (_dt : Nat) (link : Nat) (config : List Byte) (s : State) : Host.Outcome State Fault Refusal :=
  .next (s.powerUp link config)

/-- Samples of the listen time (R84). -/
def listenTime : Nat := 48000

/-- A timed entry whose time has passed as group time is first set becomes SEQUENCE (R5, R84). -/
def Entry.expire (e : Entry) (now : Time) : Entry :=
  match e.state, e.mode with
  | .queued, .soft t => if t ≤ now then { e with mode := .sequence } else e
  | .queued, .hard t => if t ≤ now then { e with mode := .sequence } else e
  | _, _ => e

/-- Group time is set if it is unset (R84). -/
def State.setGroupTime (s : State) : State :=
  match s.disc.groupTime with
  | some _ => s
  | none =>
    let t := (s.disc.candidate.map Prod.fst).getD 0
    { s with
      disc := { s.disc with groupTime := some t, candidate := none }
      outlets := s.outlets.mapId fun _ x => { x with entries := x.entries.map fun e => e.expire t } }

/-- An outlet leaves LISTENING (R130). -/
def State.leaveListening (s : State) (o : OutletId) : State :=
  let x := s.out o
  if x.air == .listening then
    let s := s.modOut o fun x => { x with air := .standby, silenceSince := s.clock }
    if x.heard then s else s.beginClaim o
  else s

/-- The listen time ends, if it has run its length (R84, R130); the outlets' CLAIM frames go in letter order (notes/assumptions/56.md). -/
def State.endListening (s : State) : State :=
  match s.listenSince with
  | some t =>
    if t + listenTime ≤ s.clock then
      let s := ({ s with listenSince := none } : State).setGroupTime
      OutletId.all.foldl State.leaveListening s
    else s
  | none => s

/-- LISTEN_TIME_END (R84). -/
def execListenTimeEnd (dt : Nat) (s : State) : Host.Outcome State Fault Refusal :=
  s.run dt fun s => s.endListening.finish s

end Sys2Proof.Machine
end

