-- ==== Sys2Proof/Machine/Network.lean ====
section
/-! DEFINITION. Frames taken and sent, the peer table's timers and the ownership timers (R46, R128 to R136, R145, R177 to R187). -/

namespace Sys2Proof.Machine

/-! ### Beacons and peers -/

/-- A beacon is due (R185). -/
def State.beaconDue (s : State) : Bool := s.beaconSince + beaconPeriod ≤ s.clock

/-- BEACON_SEND (R185). -/
def execBeaconSend (dt : Nat) (s : State) : Host.Outcome State Fault Refusal :=
  s.run dt fun s => if s.beaconDue && !s.isolated then s.sendBeacon else s

/-- The pending cue of an outlet block goes to cue intake (R48, R186). -/
def State.takeBlockCue (s : State) (sender : Nat) (b : OutletBlock) : State :=
  match b.cue with
  | some c =>
    if c.tag = 0 then s
    else s.takeCueFeed b.feed { tag := c.tag, start := c.start, len := c.len, cancel := false, sender := sender }
  | none => s

/-- The echo of an outlet block goes to the monitors of its feed (R149, R186). -/
def State.takeBlockEcho (s : State) (b : OutletBlock) : State :=
  match b.echo with
  | some e =>
    OutletId.all.foldl (fun s o =>
      if (s.ocfg o).valid && (s.ocfg o).feed == e.feed && (s.out o).air != .dark then s.judgeEcho o e else s) s
  | none => s

/-- A beacon of another node is taken (R186, R138): the peer table, the release rule, then the cues and echoes of a unit's blocks. -/
def State.takeBeacon (s : State) (node : Nat) (b : BeaconBody) : State :=
  let s := (s.enterBeacon node b).judgeReleases
  if b.role = 1 then
    b.blocks.foldl State.takeBlockEcho (b.blocks.foldl (fun s k => s.takeBlockCue node k) s)
  else s

/-- BEACON_RECEIVED (R186); one bearing the unit's own node id isolates the unit (R145). -/
def execBeaconReceived (dt : Nat) (head : FrameHead) (body : BeaconBody) (s : State) : Host.Outcome State Fault Refusal :=
  s.run dt fun s =>
    if s.soundHead head (beaconBodyLen body.role) then
      (if head.sender = s.cfg.nodeId then s.isolate else s.takeBeacon head.sender (heardBody body)).finish s
    else s

/-- Peer aging times (R187). -/
def staleTime : Nat := 14400

/-- Samples without a beacon after which an entry is removed (R187). -/
def removeTime : Nat := 96000

/-- PEER_STALE (R187). -/
def execPeerStale (dt : Nat) (node : Nat) (s : State) : Host.Outcome State Fault Refusal :=
  s.run dt fun s =>
    if s.peers.any fun p => p.node == node && !p.stale && decide (p.arrival + staleTime ≤ s.clock) then
      ({ s with peers := s.peers.map fun p => if p.node == node then { p with stale := true } else p } : State).judgeReleases.finish s
    else s

/-- PEER_REMOVED (R187): the node leaves every passed-over set too (R129). -/
def execPeerRemoved (dt : Nat) (node : Nat) (s : State) : Host.Outcome State Fault Refusal :=
  s.run dt fun s =>
    if s.peers.any fun p => p.node == node && decide (p.arrival + removeTime ≤ s.clock) then
      (({ s with peers := s.peers.filter fun p => p.node != node } : State).forgetNode node).judgeReleases.finish s
    else s

/-! ### AUDIO frames (R128, R131, R132, R134, R136) -/

/-- The owner view of a frame (R128). -/
def State.viewOf (s : State) (head : FrameHead) (b : AudioBody) : OwnerView :=
  { node := head.sender, rank := b.rank, fallback := b.fallback, yielding := b.yielding, frameTime := b.frameTime
    leadTag := b.leadTag, entryOffset := b.entryOffset, breakTag := b.breakTag, breakOffset := b.breakOffset
    arrival := s.disc.groupTime }

/-- The sender is better than the outlet in candidate order (R126). -/
def State.betterSender (s : State) (o : OutletId) (rank node : Nat) : Bool :=
  betterCandidate rank node (s.ocfg o).rank s.cfg.nodeId

/-- A sending outlet gives way to a better sender (R134). -/
def State.stepDown (s : State) (o : OutletId) (node : Nat) : State :=
  (s.leaveAir o).latch { FaultInfo.bare .doubleAir with outlet := some o, node := some node }

/-- A sending outlet judges a frame of its feed (the table of R134). -/
def State.judgeDouble (s : State) (o : OutletId) (head : FrameHead) (b : AudioBody) : State :=
  let x := s.out o
  let better := s.betterSender o b.rank head.sender && !b.yielding
  match x.air with
  | .onAir | .fallback => if better then s.stepDown o head.sender else s
  | .yielding =>
    if x.yielding.any fun y => y.successor == head.sender then s.leaveAir o
    else if better then s.stepDown o head.sender
    else s
  | _ => s

/-- The place a frame gives (R18). -/
def placeOf (b : AudioBody) : FramePlace :=
  { time := b.frameTime, leadTag := b.leadTag, entryOffset := b.entryOffset, breakTag := b.breakTag, breakOffset := b.breakOffset }

/-- An outlet takes a frame of its own feed (R128, R130 to R134, R18). -/
def State.takeOwnFeed (s : State) (o : OutletId) (head : FrameHead) (b : AudioBody) : State :=
  let view := s.viewOf head b
  let before := (s.out o).air
  let s := match before with
    | .standby => s.modOut o fun x => { x with silenceSince := s.clock }
    | .claiming => s.stopClaim o
    | _ => s.judgeDouble o head b
  let s := s.modOut o fun x => { x with view := some view, heard := true }
  match before with
  | .listening | .standby | .claiming => s.shadowAdvance o (placeOf b)
  | _ => s

/-- What an AUDIO frame brings about on one outlet: the owner view and ownership, the relay, the echoes (R128, R70, R148). -/
def State.takeAudioOn (s : State) (o : OutletId) (head : FrameHead) (b : AudioBody) : State :=
  let c := s.ocfg o
  if !c.valid || (s.out o).air == .dark then s
  else
    let s := if c.feed = b.feed then s.takeOwnFeed o head b else s
    let s :=
      if s.isFollow o && c.followFeed == b.feed then
        (s.placeFrame o { time := b.frameTime, sender := head.sender, samples := b.samples }).tryResync o
      else s
    if s.monitored o = some b.feed then s.collectEcho o b.frameTime b.samples else s

/-- AUDIO_FRAME (R128): the candidate group time, the outlets in letter order, then the clock discipline and a step of group time. A
frame whose time is no multiple of 48 is discarded by every block (R179). -/
def execAudioFrame (dt : Nat) (head : FrameHead) (body : AudioBody) (phase : Nat) (s : State) : Host.Outcome State Fault Refusal :=
  s.run dt fun s =>
    if s.takesFrame head audioBodyLen && feedOk body.feed && body.frameTime % 48 == 0 then
      let taken : State := OutletId.all.foldl (fun s o => s.takeAudioOn o head body) (s.takeCandidate body.feed head.sentAt)
      (taken.takeReference body.feed body.frameTime head.sentAt head.sender phase).finish s
    else s

/-- AUDIO_FRAME_SEND (R127). -/
def execAudioFrameSend (dt : Nat) (o : OutletId) (s : State) : Host.Outcome State Fault Refusal :=
  s.run dt fun s => s.sendAudio o false

/-! ### CUE, CLAIM and RELEASE frames (R48, R131 to R133) -/

/-- CUE_FRAME (R48). -/
def execCueFrame (dt : Nat) (head : FrameHead) (body : CueBody) (s : State) : Host.Outcome State Fault Refusal :=
  s.run dt fun s =>
    if s.takesFrame head 16 && cueOk body then
      (s.takeCueFeed body.feed
        { tag := body.tag, start := body.start, len := body.len, cancel := body.cancel == 1, sender := head.sender }).finish s
    else s

/-- CLAIM_FRAME (R132, R133): a CLAIMING outlet gives way to a better candidate. -/
def execClaimFrame (dt : Nat) (head : FrameHead) (body : ClaimBody) (s : State) : Host.Outcome State Fault Refusal :=
  s.run dt fun s =>
    if s.takesFrame head 2 && claimOk body then
      match s.outletOf body.feed with
      | some o => if (s.out o).air == .claiming && s.betterSender o body.rank head.sender then s.stopClaim o else s
      | none => s
    else s

/-- A RELEASE frame's effect on the outlet of its feed (R131, R132). -/
def State.takeRelease (s : State) (o : OutletId) (successor : Nat) : State :=
  match (s.out o).air with
  | .standby =>
    if successor = s.cfg.nodeId then s.takeover o
    else if successor = 0 then s.beginClaim o
    else s
  | .claiming => if successor = s.cfg.nodeId then s.takeover o else s
  | _ => s

/-- RELEASE_FRAME (R131 to R133). -/
def execReleaseFrame (dt : Nat) (head : FrameHead) (body : ReleaseBody) (s : State) : Host.Outcome State Fault Refusal :=
  s.run dt fun s =>
    if s.takesFrame head 2 && releaseOk body then
      match s.outletOf body.feed with
      | some o => (s.takeRelease o body.successor).finish s
      | none => s
    else s

/-! ### Ownership timers (R131, R132, R136) -/

/-- Owner silence time (R131). -/
def silenceTime : Nat := 14400

/-- OWNER_SILENCE_EXPIRY (R131). -/
def execOwnerSilenceExpiry (dt : Nat) (o : OutletId) (s : State) : Host.Outcome State Fault Refusal :=
  s.run dt fun s =>
    if (s.out o).air == .standby && decide ((s.out o).silenceSince + silenceTime ≤ s.clock) then s.beginClaim o else s

/-- Claim window (R132). -/
def claimTime : Nat := 2400

/-- CLAIM_WINDOW_EXPIRY (R132). -/
def execClaimWindowExpiry (dt : Nat) (o : OutletId) (s : State) : Host.Outcome State Fault Refusal :=
  s.run dt fun s =>
    if (s.out o).air == .claiming && decide ((s.out o).claimSince + claimTime ≤ s.clock) then (s.takeover o).finish s else s

/-- Yield timeout (R135). -/
def yieldTime : Nat := 9600

/-- The outlet is back in FALLBACK after a yield from it timed out (R136). -/
def State.backToFallback (s : State) (o : OutletId) : State :=
  ((s.modOut o fun x => { x with air := .fallback, yielding := none }).restartMeter o).judgeRelease o

/-- A yield times out (R136). One from a FALLBACK that has ended meanwhile counts as from ON_AIR (notes/assumptions/32.md). -/
def State.endYield (s : State) (o : OutletId) (y : Yield) : State :=
  match y.cause with
  | .fault =>
    let s := s.modOut o fun x =>
      { x with passed := if x.passed.contains y.successor then x.passed else x.passed ++ [y.successor] }
    if y.fromFallback then s.backToFallback o else s.enterFallback o
  | .handBack =>
    let s := s.latch { FaultInfo.bare .takeover with outlet := some o, node := some y.successor }
    if y.fromFallback then s.backToFallback o
    else (s.modOut o fun x => { x with air := .onAir, yielding := none }).restartMeter o

/-- YIELD_TIMEOUT (R136). -/
def execYieldTimeout (dt : Nat) (o : OutletId) (s : State) : Host.Outcome State Fault Refusal :=
  s.run dt fun s =>
    match (s.out o).yielding with
    | some y => if (s.out o).air == .yielding && decide (y.since + yieldTime ≤ s.clock) then (s.endYield o y).finish s else s
    | none => s

end Sys2Proof.Machine
end

