-- ==== Sys2Proof/Machine/StoreRequests.lean ====
section
/-! DEFINITION. The meanings of the cart requests: CART_OPEN, CART_DATA, CART_CLOSE and CART_DROP (R112 to R117, R123). -/

namespace Sys2Proof.Machine

/-- The store judges a CART_OPEN whose fields are sound (R112, R113). -/
def State.openCart (s : State) (req : RequestHead) (f : CartFields) (kind : CartKind) : State :=
  if s.store.openBusy f.cart then s.answer req 1 none .busy .none
  else if s.store.openFull f.cart f.len then s.answer req 1 none .full .none
  else
    let (serial, role, st) := s.store.openVersion f kind
    ({ s with store := st } : State).answer req 1 none .ok (.opened serial role)

/-- CART_OPEN (R112). -/
def execCartOpen (dt : Nat) (req : RequestHead) (f : CartFields) (s : State) : Host.Outcome State Fault Refusal :=
  s.run dt fun s =>
    s.unitRequest req 1 22 (cartOpenBad f) fun s =>
      match CartKind.ofCode f.kind with
      | some k => s.openCart req f k
      | none => s

/-- The store judges a CART_DATA whose fields are sound (R115). -/
def State.loadData (s : State) (req : RequestHead) (cart offset : Nat) (payload : List Byte) : State :=
  match s.store.loading cart with
  | none => s.answer req 2 none .noLoad .none
  | some v =>
    if offset ≠ v.received ∨ v.bytes < offset + payload.length then
      ((s.failLoad v req.head.sender).answer req 2 none .sequence .none).pump
    else if loadQueueCapacity ≤ s.store.loadQueue.length then s.answer req 2 none .busy .none
    else (({ s with store := s.store.accept v offset payload } : State).answer req 2 none .ok .none).pump

/-- CART_DATA (R115). -/
def execCartData (dt : Nat) (req : RequestHead) (cart offset : Nat) (payload : List Byte) (s : State) :
    Host.Outcome State Fault Refusal :=
  s.run dt fun s =>
    s.unitRequest req 2 (10 + payload.length) (cartDataBad cart payload) fun s => s.loadData req cart offset payload

/-- The store judges a CART_CLOSE whose cart id is sound (R117). -/
def State.closeLoad (s : State) (req : RequestHead) (cart : Nat) : State :=
  match s.store.loading cart with
  | none => s.answer req 3 none .noLoad .none
  | some v =>
    if v.received ≠ v.bytes then ((s.failLoad v req.head.sender).answer req 3 none .sequence .none).pump
    else
      (({ s with store := s.store.close v { tag := req.tag, node := req.head.sender } } : State).answer req 3 none .ok .none).pump

/-- CART_CLOSE (R117). -/
def execCartClose (dt : Nat) (req : RequestHead) (cart : Nat) (s : State) : Host.Outcome State Fault Refusal :=
  s.run dt fun s => s.unitRequest req 3 4 (!cartOk cart) fun s => s.closeLoad req cart

/-- The store judges a CART_DROP whose cart id is sound (R123). -/
def State.dropCart (s : State) (req : RequestHead) (cart : Nat) : State :=
  if (s.store.current cart).isNone && (s.store.ofRole cart .incoming).isNone then s.answer req 4 none .notFound .none
  else
    let s : State := (s.store.versionsOf cart).foldl State.dropVersion s
    (s.answer req 4 none .ok .none).pump

/-- CART_DROP (R123). -/
def execCartDrop (dt : Nat) (req : RequestHead) (cart : Nat) (s : State) : Host.Outcome State Fault Refusal :=
  s.run dt fun s => s.unitRequest req 4 4 (!cartOk cart) fun s => s.dropCart req cart

end Sys2Proof.Machine
end

