-- ==== Sys2Proof/Machine/OutletRequests.lean ====
section
/-! DEFINITION. The meanings of the requests addressed by feed: ENTRY_ADD to RESUME (R4 to R8, R19, R20, R139, R140, R160). -/

namespace Sys2Proof.Machine

/-! ### ENTRY_ADD (R4 to R6) -/

/-- Entries a running order can hold (R1). -/
def entryCapacity : Nat := 256

/-- A timed entry whose time is not later than group time is taken as SEQUENCE; while group time is unset it is kept as given (R5). -/
def State.takeMode (s : State) (m : StartMode) : StartMode :=
  match s.disc.groupTime, m with
  | some now, .soft t => if t ≤ now then .sequence else m
  | some now, .hard t => if t ≤ now then .sequence else m
  | _, _ => m

/-- The entry ENTRY_ADD creates (R2, R5). -/
def State.newEntry (s : State) (f : EntryFields) (kind : EntryKind) (mode : StartMode) : Entry :=
  { tag := f.tag, kind := kind, mode := s.takeMode mode, fade := f.fade.any fun n => n != 0, trim := clampTrim (f.trim.getD 0)
    state := .queued, start := .whenPrimed, planned := none, serial := none, lost := false, air := .empty }

/-- The list with the new entry in its place (R6). -/
def insertAt (l : List Entry) (pos : Position) (e : Entry) : List Entry :=
  match pos with
  | .atEnd => l ++ [e]
  | .firstQueued => insertFirstQueued l e
  | .after ref => insertAfter l ref e

/-- What stands against an ENTRY_ADD whose fields are sound, in the order of R4. -/
def Outlet.addObstacle (x : Outlet) (tag : Nat) (pos : Position) : Option ResultCode :=
  let refFree := match pos with
    | .after ref => some (x.entry ref, ref)
    | _ => none
  if (x.entry tag).isSome then some .duplicate
  else
    match refFree with
    | some (none, _) => some .notFound
    | some (some e, ref) =>
      if e.state == .onAir && x.leadTag != some ref then some .inAir
      else if entryCapacity ≤ x.entries.length then some .full
      else none
    | none => if entryCapacity ≤ x.entries.length then some .full else none

/-- The outlet judges an ENTRY_ADD (R4): inserted QUEUED, an entry put directly after the lead displaces the one armed (R6), and the
slots fill (R9, R12). -/
def State.addEntry (s : State) (req : RequestHead) (f : EntryFields) (o : OutletId) : State :=
  if s.isFollow o then s.answer req 5 (some o) .wrongMode .none
  else
    match entryKindOf f, startModeOf f, positionOf f with
    | some kind, some mode, some pos =>
      match (s.out o).addObstacle f.tag pos with
      | some r => s.answer req 5 (some o) r .none
      | none =>
        let s := s.modOut o fun x => { x with entries := insertAt x.entries pos (s.newEntry f kind mode) }
        ((s.answer req 5 (some o) .ok .none).displace o f.tag).finish s
    | _, _, _ => s

/-- ENTRY_ADD (R4). -/
def execEntryAdd (dt : Nat) (req : RequestHead) (f : EntryFields) (s : State) : Host.Outcome State Fault Refusal :=
  s.run dt fun s =>
    s.feedRequest req 5 28 (fun o => !s.isFollow o && entryAddBad f) fun o s => s.addEntry req f o

/-! ### ENTRY_REMOVE (R7) -/

/-- The outlet judges an ENTRY_REMOVE (R7). -/
def State.removeEntry (s : State) (req : RequestHead) (tag : Nat) (o : OutletId) : State :=
  if s.isFollow o then s.answer req 6 (some o) .wrongMode .none
  else
    match (s.out o).entry tag with
    | none => s.answer req 6 (some o) .notFound .none
    | some e =>
      if e.state == .onAir then s.answer req 6 (some o) .inAir .none
      else ((s.answer req 6 (some o) .ok .none).leaveUnbegun o tag .withdrawn).finish s

/-- ENTRY_REMOVE (R7). -/
def execEntryRemove (dt : Nat) (req : RequestHead) (tag : Nat) (s : State) : Host.Outcome State Fault Refusal :=
  s.run dt fun s =>
    s.feedRequest req 6 4 (fun o => !s.isFollow o && tag == 0) fun o s => s.removeEntry req tag o

/-! ### Spot lists (R19) -/

/-- The outlet holds a fitted break for a tag (R19). -/
def Outlet.fitted (x : Outlet) (tag : Nat) : Bool := !(x.placesWhere fun b => b.tag == tag).isEmpty

/-- The outlet holds a spot list for a tag. -/
def Outlet.hasList (x : Outlet) (tag : Nat) : Bool := x.spots.any fun l => l.tag == tag

/-- What stands against a SPOTS_SET whose fields are sound (R19). -/
def Outlet.spotsObstacle (x : Outlet) (f : SpotFields) : Option ResultCode :=
  if 16 < f.spots.length then some .outOfRange
  else if x.fitted f.tag then some .inAir
  else if !x.hasList f.tag && 32 ≤ x.spots.length then some .full
  else none

/-- The spot lists with one replaced or added (R19). -/
def putList (l : List SpotList) (n : SpotList) : List SpotList :=
  if l.any fun m => m.tag == n.tag then l.map fun m => if m.tag == n.tag then n else m else l ++ [n]

/-- The outlet judges a SPOTS_SET (R19). -/
def State.setSpots (s : State) (req : RequestHead) (f : SpotFields) (o : OutletId) : State :=
  match (s.out o).spotsObstacle f with
  | some r => s.answer req 7 (some o) r .none
  | none => (s.modOut o fun x => { x with spots := putList x.spots (spotListOf f) }).answer req 7 (some o) .ok .none

/-- SPOTS_SET (R19). -/
def execSpotsSet (dt : Nat) (req : RequestHead) (f : SpotFields) (s : State) : Host.Outcome State Fault Refusal :=
  s.run dt fun s =>
    s.feedRequest req 7 (14 + 5 * f.spots.length) (fun _ => spotsBad f) fun o s => s.setSpots req f o

/-- The outlet judges a SPOTS_CLEAR (R19). -/
def State.clearSpots (s : State) (req : RequestHead) (tag : Nat) (o : OutletId) : State :=
  if !(s.out o).hasList tag then s.answer req 8 (some o) .notFound .none
  else if (s.out o).fitted tag then s.answer req 8 (some o) .inAir .none
  else (s.modOut o fun x => { x with spots := x.spots.filter fun l => l.tag != tag }).answer req 8 (some o) .ok .none

/-- SPOTS_CLEAR (R19). -/
def execSpotsClear (dt : Nat) (req : RequestHead) (tag : Nat) (s : State) : Host.Outcome State Fault Refusal :=
  s.run dt fun s => s.feedRequest req 8 4 (fun _ => tag == 0) fun o s => s.clearSpots req tag o

/-! ### The fill pool (R20) -/

/-- A bed whose cart has a version that is not of kind BED (R20). -/
def Store.wrongBed (st : Store) (bed : Option Nat) : Bool :=
  bed.any fun c => st.versions.any fun v => v.cart == c && v.kind != .bed

/-- What stands against a FILLS_SET whose cart ids are sound (R20). -/
def Store.fillsObstacle (st : Store) (bed : Option Nat) (fills : List Nat) : Option ResultCode :=
  if 8 < fills.length then some .outOfRange
  else if repeats fills then some .duplicate
  else if st.wrongBed bed then some .outOfRange
  else none

/-- The outlet judges a FILLS_SET (R20). -/
def State.setFills (s : State) (req : RequestHead) (bed : Option Nat) (fills : List Nat) (o : OutletId) : State :=
  match s.store.fillsObstacle bed fills with
  | some r => s.answer req 9 (some o) r .none
  | none => (s.modOut o fun x => { x with fills := fills, bed := bed }).answer req 9 (some o) .ok .none

/-- FILLS_SET (R20). -/
def execFillsSet (dt : Nat) (req : RequestHead) (bed : Option Nat) (fills : List Nat) (s : State) :
    Host.Outcome State Fault Refusal :=
  s.run dt fun s =>
    s.feedRequest req 9 (6 + 4 * fills.length) (fun _ => fillsBad bed fills) fun o s => s.setFills req bed fills o

/-! ### HAND_BACK (R139, R140) -/

/-- A FOLLOW outlet's hand-back waits for a rejoin (R140). -/
def Outlet.waitsForRejoin (x : Outlet) : Bool := x.contentOnAir || !(x.placesWhere fun b => b.state == .spent).isEmpty

/-- A hand-back becomes pending (R140); a FOLLOW outlet outside break content is at its boundary at once. -/
def State.pendHandBack (s : State) (o : OutletId) : State :=
  let s := s.modOut o fun x => { x with handBack := true }
  if s.isFollow o && !(s.out o).waitsForRejoin then s.handBackBoundary o else s

/-- The outlet judges a HAND_BACK (the table of R139): the answer goes before the RELEASE frame of a yield that begins at once
(notes/assumptions/71.md). -/
def State.judgeHandBack (s : State) (req : RequestHead) (o : OutletId) : State :=
  let x := s.out o
  match x.air with
  | .dark | .listening | .standby | .claiming => s.answer req 10 (some o) .notOwner .none
  | .yielding => s.answer req 10 (some o) .busy .none
  | .onAir =>
    match s.betterTwin o with
    | none => s.answer req 10 (some o) .notFound .none
    | some _ =>
      let s := s.answer req 10 (some o) .ok .none
      if x.handBack then s else s.pendHandBack o
  | .fallback =>
    match s.betterTwin o with
    | none => s.answer req 10 (some o) .notFound .none
    | some n => (s.answer req 10 (some o) .ok .none).enterYielding o n .handBack

/-- HAND_BACK (R139). -/
def execHandBack (dt : Nat) (req : RequestHead) (s : State) : Host.Outcome State Fault Refusal :=
  s.run dt fun s => s.feedRequest req 10 0 (fun _ => false) fun o s => (s.judgeHandBack req o).finish s

/-! ### RESUME (R160) -/

/-- FALLBACK ends by RESUME (R160, R17, R77): on a SELF outlet the entry that RESUME's own command arms starts as with no lead, also while a
cut entry still ramps out, whereas one armed later in that ramp is timed behind the cut entry (notes/assumptions/35.md); a FOLLOW outlet's
relay ramps in from 0, also where its ramp out still runs (notes/assumptions/69.md). -/
def State.resumeAir (s : State) (o : OutletId) : State :=
  let s := s.leaveFallback o .natural 480
  if s.isFollow o then s.rampRelay o 0 unity
  else s.modOut o fun x => { x with inherit := if x.lead.isSome then some .whenPrimed else none }

/-- The outlet judges a RESUME (R160). -/
def State.judgeResume (s : State) (req : RequestHead) (o : OutletId) : State :=
  if (s.out o).air == .fallback then ((s.answer req 11 (some o) .ok .none).resumeAir o).finish s
  else s.answer req 11 (some o) .notFound .none

/-- RESUME (R160). -/
def execResume (dt : Nat) (req : RequestHead) (s : State) : Host.Outcome State Fault Refusal :=
  s.run dt fun s => s.feedRequest req 11 0 (fun _ => false) fun o s => s.judgeResume req o

end Sys2Proof.Machine
end

