-- ==== Sys2Proof/Machine/UnitRequests.lean ====
section
/-! DEFINITION. The meanings of LOG_READ, CAPTURE_READ, CAPTURE_CLEAR, RESTART and of requests that cannot be read (R169, R174, R175,
R188, R194). -/

namespace Sys2Proof.Machine

/-- Most records of an answer to LOG_READ (R169). -/
def logReadMax : Nat := 16

/-- The records of a LOG_READ (R169). -/
def Log.range (l : Log) (start count : Nat) : List Record :=
  l.records.filter fun r => decide (start ≤ r.seq) && decide (r.seq < start + min logReadMax count)

/-- The log answers a LOG_READ (R169). -/
def State.readLog (s : State) (req : RequestHead) (start count : Nat) : State :=
  s.answer req 12 none .ok (.log (s.log.records.head?.map Record.seq) s.log.next (s.log.range start count))

/-- LOG_READ (R169). -/
def execLogRead (dt : Nat) (req : RequestHead) (start count : Nat) (s : State) : Host.Outcome State Fault Refusal :=
  s.run dt fun s => s.unitRequest req 12 5 false fun s => s.readLog req start count

/-- The fields of an answer that gives a slot (R174): the corrected count with STORE alone. -/
def Captures.answer (c : Captures) (k : FaultClass) : AnswerFields :=
  .slot k (c.slot k) (if k = .store then c.corrected else 0)

/-- A slot is read (R174). -/
def State.readSlot (s : State) (req : RequestHead) (cls : Nat) : State :=
  match FaultClass.ofCode cls with
  | some k => s.answer req 13 none .ok (s.captures.answer k)
  | none => s

/-- CAPTURE_READ (R174). -/
def execCaptureRead (dt : Nat) (req : RequestHead) (cls : Nat) (s : State) : Host.Outcome State Fault Refusal :=
  s.run dt fun s => s.unitRequest req 13 1 (FaultClass.ofCode cls).isNone fun s => s.readSlot req cls

/-- The captures with one slot emptied, and with STORE the corrected count (R175). -/
def Captures.clear (c : Captures) (k : FaultClass) : Captures :=
  { c.setSlot k Slot.reset with corrected := if k = .store then 0 else c.corrected }

/-- A slot is read and cleared (R175). -/
def State.clearSlot (s : State) (req : RequestHead) (cls : Nat) : State :=
  match FaultClass.ofCode cls with
  | some k =>
    let s := s.answer req 14 none .ok (s.captures.answer k)
    { s with captures := s.captures.clear k }
  | none => s

/-- CAPTURE_CLEAR (R175). -/
def execCaptureClear (dt : Nat) (req : RequestHead) (cls : Nat) (s : State) : Host.Outcome State Fault Refusal :=
  s.run dt fun s => s.unitRequest req 14 1 (FaultClass.ofCode cls).isNone fun s => s.clearSlot req cls

/-- RESTART (R194); `config` is what the configuration memory holds as the unit reads it. -/
def execRestart (dt : Nat) (req : RequestHead) (config : List Byte) (s : State) : Host.Outcome State Fault Refusal :=
  s.run dt fun s =>
    s.unitRequest req 15 0 false fun s => ((s.answer req 15 none .ok .none).restart config).finish s

/-- UNKNOWN_REQUEST (R188, steps 1 and 2): a kind outside 1 to 15, or an addressing mode that is unknown. A request of a listed kind and
mode is none of this command's (notes/assumptions/16.md). -/
def execUnknownRequest (dt : Nat) (req : RequestHead) (kind : Nat) (s : State) : Host.Outcome State Fault Refusal :=
  s.run dt fun s =>
    let unread := match req.addr with
      | .unknown _ => true
      | _ => kind == 0 || decide (15 < kind)
    if !s.judgesRequest req then s
    else if !s.cfg.stations.contains req.head.sender then
      s.latch { FaultInfo.bare .foreignSender with node := some req.head.sender }
    else if unread then s.malformed req kind none
    else s

end Sys2Proof.Machine
end

