-- ==== Sys2Proof/Machine/FireLines.lean ====
section
/-! DEFINITION. The meanings of FIRE_LINE_INPUT and FIRE_LINE_STABLE (R32). -/

namespace Sys2Proof.Machine

/-- Samples of an uninterrupted level that count: 20 ms (R32). -/
def stableTime : Nat := 960

/-- The input of an enabled line changes its level (R32): PRESSING starts its active count, WAIT_RELEASE its inactive count. -/
def FireLine.input (l : FireLine) (active : Bool) (clock : Nat) : FireLine :=
  let l := { l with active := active }
  match l.state, active with
  | .idle, true => { l with state := .pressing, since := clock }
  | .pressing, false => { l with state := .idle }
  | .held, false => { l with state := .waitRelease, since := clock }
  | .waitRelease, _ => { l with since := clock }
  | _, _ => l

/-- FIRE_LINE_INPUT (R32); a disabled line keeps its level alone, and a level that stays as it is changes nothing. -/
def execFireLineInput (dt : Nat) (n : Fin 8) (active : Bool) (s : State) : Host.Outcome State Fault Refusal :=
  s.run dt fun s =>
    if (s.line n.val).active = active then s
    else if (s.lineCfg n.val).enabled then s.modLine n.val fun l => l.input active s.clock
    else s.modLine n.val fun l => { l with active := active }

/-- The level of a line has been held for 20 ms. -/
def FireLine.stable (l : FireLine) (clock : Nat) : Bool := l.since + stableTime ≤ clock

/-- A line's level has been held (R32): a release makes the line IDLE, a press makes a fire. -/
def State.settleLine (s : State) (n : Nat) : State :=
  let l := s.line n
  match l.state, l.active with
  | .waitRelease, false => s.modLine n fun l => { l with state := .idle }
  | .pressing, true => ((s.modLine n fun l => { l with state := .held }).fire n).finish s
  | _, _ => s

/-- FIRE_LINE_STABLE (R32). -/
def execFireLineStable (dt : Nat) (n : Fin 8) (s : State) : Host.Outcome State Fault Refusal :=
  s.run dt fun s => if (s.lineCfg n.val).enabled && (s.line n.val).stable s.clock then s.settleLine n.val else s

end Sys2Proof.Machine
end

