-- ==== Sys2Proof/Machine/Timeline.lean ====
section
/-! DEFINITION. The meanings of the times of a running order: ARM_TIME_REACHED, SOFT_TIME_REACHED, HARD_TIME_REACHED and
START_TIME_REACHED (R12 to R15, R24). The effect each one names comes first, on its own outlet; then `State.finish` settles the unit
(notes/assumptions/19.md). -/

namespace Sys2Proof.Machine

/-- A QUEUED HARD entry's arm time has come (R12). -/
def Outlet.armDue (x : Outlet) (now : Time) : Bool := x.entries.any fun e => x.isCandidate now e

/-- A candidate takes the empty anchor slot (R12), after the sequence slot has filled (R9). -/
def State.armAnchor (s : State) (o : OutletId) : State :=
  if (s.fillSequence o).isSome then s else (s.fillAnchor o).getD s

/-- ARM_TIME_REACHED (R12): a candidate arms in the anchor slot if that is empty. -/
def execArmTimeReached (dt : Nat) (o : OutletId) (s : State) : Host.Outcome State Fault Refusal :=
  s.run dt fun s => if (s.out o).armDue s.reached then (s.armAnchor o).finish s else s

/-- The time of a SOFT entry. -/
def StartMode.softTime : StartMode → Option Time
  | .soft t => some t
  | _ => none

/-- The time of a HARD entry. -/
def StartMode.hardTime : StartMode → Option Time
  | .hard t => some t
  | _ => none

/-- A SOFT entry's time, once it has come (R13). -/
def State.softDue (s : State) (o : OutletId) (tag : Nat) : Option Time :=
  (((s.out o).entry tag).bind fun e => e.mode.softTime).filter fun t => decide (t ≤ s.reached)

/-- SOFT_TIME_REACHED (R13): the entries between the lead, or an entry that starts at this sample, and the SOFT entry are skipped, and it
takes the sequence slot. -/
def execSoftTimeReached (dt : Nat) (o : OutletId) (tag : Nat) (s : State) : Host.Outcome State Fault Refusal :=
  s.run dt fun s =>
    match s.softDue o tag with
    | some t => (s.settle.reachSoft o tag t).finish s
    | none => s

/-- A HARD entry's time has come (R14). -/
def State.hardDue (s : State) (o : OutletId) (tag : Nat) : Bool :=
  ((s.out o).entry tag).any fun e => e.mode.hardTime.any fun t => decide (t ≤ s.reached)

/-- HARD_TIME_REACHED (R14, R29, R30): the ARMED entry starts as an anchor, unless a BREAK that is ON_AIR defers it to its rejoin. -/
def execHardTimeReached (dt : Nat) (o : OutletId) (tag : Nat) (s : State) : Host.Outcome State Fault Refusal :=
  s.run dt fun s => if s.hardDue o tag then ((s.stepAnchor o).getD s).finish s else s

/-- The computed start of the entry in the sequence slot has come (R24). -/
def State.startDue (s : State) (o : OutletId) : Bool :=
  ((s.out o).seqSlot.bind (s.out o).entry).any fun e => e.start.planned.any fun t => decide (t ≤ s.reached)

/-- START_TIME_REACHED (R24, R25): the entry starts if it is ready. -/
def execStartTimeReached (dt : Nat) (o : OutletId) (s : State) : Host.Outcome State Fault Refusal :=
  s.run dt fun s => if s.startDue o then ((s.stepSequence o).getD s).finish s else s

end Sys2Proof.Machine
end

