-- ==== Sys2Proof/Machine/Breaks.lean ====
section
/-! DEFINITION. The meanings of the times of a fitted break: BREAK_START, SWAP_OUT_START, SWAP_IN_START, ITEM_DUE_TIME, REJOIN,
CUT_AT_THE_REJOIN and BED_RAMP_START (R61 to R67, R78, R79). -/

namespace Sys2Proof.Machine

/-- BREAK_START (R61): a FOLLOW outlet's ARMED break whose start the followed time has reached. -/
def execBreakStart (dt : Nat) (o : OutletId) (p : Place) (s : State) : Host.Outcome State Fault Refusal :=
  s.run dt fun s => (s.breakStart o p).finish s

/-- SWAP_OUT_START (R78). -/
def execSwapOutStart (dt : Nat) (o : OutletId) (p : Place) (s : State) : Host.Outcome State Fault Refusal :=
  s.run dt fun s => s.swapOut o p

/-- SWAP_IN_START (R79). -/
def execSwapInStart (dt : Nat) (o : OutletId) (p : Place) (s : State) : Host.Outcome State Fault Refusal :=
  s.run dt fun s => s.swapIn o p

/-- The due time of a RUNNING break's next slot has come (R62 to R64), or the end of a substituted slot whose bed has stayed silent
(R63), or a planned offset of a shadow break (R66, R79). -/
def State.itemDue (s : State) (o : OutletId) (p : Place) : Bool :=
  (s.fit o p).any fun b =>
    b.state == .running && (s.reachedPos o).any fun now =>
      b.due.any (fun t => decide (t ≤ now)) || (s.unheardBed o p now).isSome || (s.stepShadow o p).isSome

/-- ITEM_DUE_TIME (R62, R63, R64): the slot begins if its voice is PRIMED or it has none to prime; a shadow break follows its plan
(R66, R79). -/
def execItemDueTime (dt : Nat) (o : OutletId) (p : Place) (s : State) : Host.Outcome State Fault Refusal :=
  s.run dt fun s =>
    if s.itemDue o p then ((orStep (s.stepFit o p) fun _ => s.stepShadow o p).getD s).finish s else s

/-- REJOIN (R65 to R69). -/
def execRejoin (dt : Nat) (o : OutletId) (p : Option Place) (s : State) : Host.Outcome State Fault Refusal :=
  s.run dt fun s => (s.rejoin o p).finish s

/-- CUT_AT_THE_REJOIN (R65, R79). -/
def execCutAtTheRejoin (dt : Nat) (o : OutletId) (p : Place) (s : State) : Host.Outcome State Fault Refusal :=
  s.run dt fun s => s.cutAtRejoin o p

/-- BED_RAMP_START (R63, R64). -/
def execBedRampStart (dt : Nat) (o : OutletId) (p : Place) (s : State) : Host.Outcome State Fault Refusal :=
  s.run dt fun s => s.bedRampStart o p

end Sys2Proof.Machine
end

