-- ==== Sys2Proof/Machine/Voices.lean ====
section
/-! DEFINITION. The meanings of the voices' events and of the fetch engine's completions: RAMP_END, CART_END, JUDGE_POINT,
BLOCK_LEAVES_RING, LOOP_TO_IN_CUE, PRIMING_TRANSFER_COMPLETE, REFILL_COMPLETE, LOAD_WRITE_COMPLETE and VERIFY_READ_COMPLETE (R40, R91,
R93 to R104, R119). -/

namespace Sys2Proof.Machine

/-! ### Voices -/

/-- A ramp to silence has run its length (R40); one that reaches 0 at the cart's end ends there. -/
def VoiceUse.rampDone (u : VoiceUse) (clock : Nat) : Bool :=
  u.state == .ramping && (decide (u.mult.stop ≤ clock) || (u.atPassEnd && !u.looping))

/-- RAMP_END (R40, R95). -/
def execRampEnd (dt : Nat) (i : Fin 12) (s : State) : Host.Outcome State Fault Refusal :=
  s.run dt fun s => if (s.voice i.val).any fun u => u.rampDone s.clock then (s.endVoice i.val).finish s else s

/-- CART_END (R95): a non-looping voice has sounded its cart's last sample. -/
def execCartEnd (dt : Nat) (i : Fin 12) (s : State) : Host.Outcome State Fault Refusal :=
  s.run dt fun s => if (s.voice i.val).any fun u => u.atPassEnd && !u.looping then (s.endVoice i.val).finish s else s

/-- JUDGE_POINT (R100): a concealed block that is passed over may give the fetch engine another to fetch (R101). -/
def execJudgePoint (dt : Nat) (i : Fin 12) (s : State) : Host.Outcome State Fault Refusal :=
  s.run dt fun s => if (s.voice i.val).any fun u => u.judgeDue s.clock then (s.judge i.val).pump else s

/-- BLOCK_LEAVES_RING (R94, R104). -/
def execBlockLeavesRing (dt : Nat) (i : Fin 12) (s : State) : Host.Outcome State Fault Refusal :=
  s.run dt fun s =>
    if (s.voice i.val).any fun u => u.sounding && u.blockDone then (s.modVoice i.val VoiceUse.leaveBlock).pump else s

/-- A looping voice goes back to its in-cue, its stream check settled at the first such pass (R95, R104). -/
def State.loopVoice (s : State) (i : Nat) : State :=
  (s.settleStream i).modVoice i fun u => { u with passes := u.passes + 1 }

/-- LOOP_TO_IN_CUE (R95). -/
def execLoopToInCue (dt : Nat) (i : Fin 12) (s : State) : Host.Outcome State Fault Refusal :=
  s.run dt fun s =>
    if (s.voice i.val).any fun u => u.looping && u.atPassEnd then (s.loopVoice i.val).pump else s

/-! ### The fetch engine -/

/-- PRIMING_TRANSFER_COMPLETE (R93, R97). -/
def execPrimingTransferComplete (dt : Nat) (ecc : Ecc) (s : State) : Host.Outcome State Fault Refusal :=
  s.run dt fun s =>
    match s.transfer with
    | some t =>
      match t.kind with
      | .priming i ord => (s.completeRead t i ord ecc).finish s
      | _ => s
    | none => s

/-- REFILL_COMPLETE (R94, R97, R99). -/
def execRefillComplete (dt : Nat) (ecc : Ecc) (s : State) : Host.Outcome State Fault Refusal :=
  s.run dt fun s =>
    match s.transfer with
    | some t =>
      match t.kind with
      | .refill i ord => (s.completeRead t i ord ecc).pump
      | _ => s
    | none => s

/-- LOAD_WRITE_COMPLETE (R98, R115). -/
def execLoadWriteComplete (dt : Nat) (s : State) : Host.Outcome State Fault Refusal :=
  s.run dt fun s =>
    match s.transfer with
    | some t =>
      match t.kind with
      | .load p => (s.completeLoad t p).pump
      | _ => s
    | none => s

/-- VERIFY_READ_COMPLETE (R98, R119). -/
def execVerifyReadComplete (dt : Nat) (ecc : Ecc) (s : State) : Host.Outcome State Fault Refusal :=
  s.run dt fun s =>
    match s.transfer with
    | some t =>
      match t.kind with
      | .verify c n off size => (s.completeVerify t c n off size ecc).pump
      | _ => s
    | none => s

end Sys2Proof.Machine
end

