-- ==== Sys2Proof/Machine/Monitors.lean ====
section
/-! DEFINITION. The meanings of the relay's, the meters' and the confidence monitor's events: RELAY_SLOT_JUDGE, METER_BLOCK_END,
ECHO_BLOCK_END, ECHO_OPEN_BLOCK_TIMEOUT, TAP_COMPLETION and HISTORY_ENTRY_LEAVE (R73, R147, R148, R150, R151, R154). -/

namespace Sys2Proof.Machine

/-- RELAY_SLOT_JUDGE (R73, R74). -/
def execRelaySlotJudge (dt : Nat) (o : OutletId) (s : State) : Host.Outcome State Fault Refusal :=
  s.run dt fun s => s.judgeSlot o

/-- METER_BLOCK_END (R154). -/
def execMeterBlockEnd (dt : Nat) (o : OutletId) (w : MeterId) (s : State) : Host.Outcome State Fault Refusal :=
  s.run dt fun s => (s.meterBlock o w).finish s

/-- The outlet has sent up to the end of the echo block in progress (R147). -/
def Outlet.echoBlockDone (x : Outlet) : Bool :=
  x.echoBuf.head?.any fun h => (echoBlockOf h.time + echoBlockLen - h.time).toNat ≤ spansLen x.echoBuf

/-- ECHO_BLOCK_END (R147). -/
def execEchoBlockEnd (dt : Nat) (o : OutletId) (s : State) : Host.Outcome State Fault Refusal :=
  s.run dt fun s => if (s.out o).echoBlockDone then (s.closeEchoBlock o).finish s else s

/-- ECHO_OPEN_BLOCK_TIMEOUT (R148). -/
def execEchoOpenBlockTimeout (dt : Nat) (o : OutletId) (s : State) : Host.Outcome State Fault Refusal :=
  s.run dt fun s => s.timeoutOpenBlock o

/-- TAP_COMPLETION (R150, R151). -/
def execTapCompletion (dt : Nat) (o : OutletId) (block : Time) (readback : Crc) (s : State) : Host.Outcome State Fault Refusal :=
  s.run dt fun s => s.completeTap o block readback

/-- An entry of the history reaches its last group time (R147). -/
def State.historyDue (s : State) (e : HistEntry) : Bool := s.disc.groupTime.any fun now => decide (e.block + historyStay ≤ now)

/-- HISTORY_ENTRY_LEAVE (R147, R151, R153). -/
def execHistoryEntryLeave (dt : Nat) (o : OutletId) (s : State) : Host.Outcome State Fault Refusal :=
  s.run dt fun s => (s.leaveHistoryWhere o s.historyDue).finish s

end Sys2Proof.Machine
end

