-- ==== Sys2Proof/Machine/Dispatch.lean ====
section
/-! DEFINITION. The meaning of every command: one arm for each constructor of `Instr`. -/

namespace Sys2Proof.Machine

/-- The effect of a command on everything but the queue. -/
def exec (i : Instr) (s : State) : Host.Outcome State Fault Refusal :=
  match i with
  | .powerOn dt link config => Sys2Proof.Machine.execPowerOn dt link config s
  | .listenTimeEnd dt => Sys2Proof.Machine.execListenTimeEnd dt s
  | .beaconSend dt => Sys2Proof.Machine.execBeaconSend dt s
  | .beaconReceived dt head body => Sys2Proof.Machine.execBeaconReceived dt head body s
  | .peerStale dt node => Sys2Proof.Machine.execPeerStale dt node s
  | .peerRemoved dt node => Sys2Proof.Machine.execPeerRemoved dt node s
  | .audioFrame dt head body phase => Sys2Proof.Machine.execAudioFrame dt head body phase s
  | .cueFrame dt head body => Sys2Proof.Machine.execCueFrame dt head body s
  | .claimFrame dt head body => Sys2Proof.Machine.execClaimFrame dt head body s
  | .releaseFrame dt head body => Sys2Proof.Machine.execReleaseFrame dt head body s
  | .ownerSilenceExpiry dt o => Sys2Proof.Machine.execOwnerSilenceExpiry dt o s
  | .claimWindowExpiry dt o => Sys2Proof.Machine.execClaimWindowExpiry dt o s
  | .yieldTimeout dt o => Sys2Proof.Machine.execYieldTimeout dt o s
  | .cartOpen dt req f => Sys2Proof.Machine.execCartOpen dt req f s
  | .cartData dt req cart offset payload => Sys2Proof.Machine.execCartData dt req cart offset payload s
  | .cartClose dt req cart => Sys2Proof.Machine.execCartClose dt req cart s
  | .cartDrop dt req cart => Sys2Proof.Machine.execCartDrop dt req cart s
  | .entryAdd dt req f => Sys2Proof.Machine.execEntryAdd dt req f s
  | .entryRemove dt req tag => Sys2Proof.Machine.execEntryRemove dt req tag s
  | .spotsSet dt req f => Sys2Proof.Machine.execSpotsSet dt req f s
  | .spotsClear dt req tag => Sys2Proof.Machine.execSpotsClear dt req tag s
  | .fillsSet dt req bed fills => Sys2Proof.Machine.execFillsSet dt req bed fills s
  | .handBack dt req => Sys2Proof.Machine.execHandBack dt req s
  | .resume dt req => Sys2Proof.Machine.execResume dt req s
  | .logRead dt req start count => Sys2Proof.Machine.execLogRead dt req start count s
  | .captureRead dt req cls => Sys2Proof.Machine.execCaptureRead dt req cls s
  | .captureClear dt req cls => Sys2Proof.Machine.execCaptureClear dt req cls s
  | .restart dt req config => Sys2Proof.Machine.execRestart dt req config s
  | .fireLineInput dt line active => Sys2Proof.Machine.execFireLineInput dt line active s
  | .fireLineStable dt line => Sys2Proof.Machine.execFireLineStable dt line s
  | .armTimeReached dt o => Sys2Proof.Machine.execArmTimeReached dt o s
  | .softTimeReached dt o tag => Sys2Proof.Machine.execSoftTimeReached dt o tag s
  | .hardTimeReached dt o tag => Sys2Proof.Machine.execHardTimeReached dt o tag s
  | .startTimeReached dt o => Sys2Proof.Machine.execStartTimeReached dt o s
  | .breakStart dt o place => Sys2Proof.Machine.execBreakStart dt o place s
  | .swapOutStart dt o place => Sys2Proof.Machine.execSwapOutStart dt o place s
  | .swapInStart dt o place => Sys2Proof.Machine.execSwapInStart dt o place s
  | .itemDueTime dt o place => Sys2Proof.Machine.execItemDueTime dt o place s
  | .rejoin dt o place => Sys2Proof.Machine.execRejoin dt o place s
  | .rampEnd dt voice => Sys2Proof.Machine.execRampEnd dt voice s
  | .cartEnd dt voice => Sys2Proof.Machine.execCartEnd dt voice s
  | .judgePoint dt voice => Sys2Proof.Machine.execJudgePoint dt voice s
  | .primingTransferComplete dt ecc => Sys2Proof.Machine.execPrimingTransferComplete dt ecc s
  | .refillComplete dt ecc => Sys2Proof.Machine.execRefillComplete dt ecc s
  | .loadWriteComplete dt => Sys2Proof.Machine.execLoadWriteComplete dt s
  | .verifyReadComplete dt ecc => Sys2Proof.Machine.execVerifyReadComplete dt ecc s
  | .relaySlotJudge dt o => Sys2Proof.Machine.execRelaySlotJudge dt o s
  | .audioFrameSend dt o => Sys2Proof.Machine.execAudioFrameSend dt o s
  | .meterBlockEnd dt o meter => Sys2Proof.Machine.execMeterBlockEnd dt o meter s
  | .echoBlockEnd dt o => Sys2Proof.Machine.execEchoBlockEnd dt o s
  | .echoOpenBlockTimeout dt o => Sys2Proof.Machine.execEchoOpenBlockTimeout dt o s
  | .tapCompletion dt o block readback => Sys2Proof.Machine.execTapCompletion dt o block readback s
  | .historyEntryLeave dt o => Sys2Proof.Machine.execHistoryEntryLeave dt o s
  | .blockLeavesRing dt voice => Sys2Proof.Machine.execBlockLeavesRing dt voice s
  | .loopToInCue dt voice => Sys2Proof.Machine.execLoopToInCue dt voice s
  | .cutAtTheRejoin dt o place => Sys2Proof.Machine.execCutAtTheRejoin dt o place s
  | .bedRampStart dt o place => Sys2Proof.Machine.execBedRampStart dt o place s
  | .unknownRequest dt req kind => Sys2Proof.Machine.execUnknownRequest dt req kind s

end Sys2Proof.Machine
end

