-- ==== Sys2Proof/Machine/Layout.lean ====
section
/-! DEFINITION. The byte layouts of the protocol (R178 to R183): the bytes of a frame the unit sends, the bytes of a frame that carries a
command, and the command that the bytes of an arriving frame carry (notes/assumptions/17.md). -/

namespace Sys2Proof.Machine

/-! ### Frames as bytes -/

/-- A group time in its 6 bytes (R178). -/
def timeBytes (t : Time) : List Byte := leIntBytes t 6

/-- A frame with its header (R178). -/
def withHeader (mark kind sender : Nat) (sentAt : Time) (body : List Byte) : List Byte :=
  leBytes mark 2 ++ leBytes kind 1 ++ leBytes sender 1 ++ timeBytes sentAt ++ leBytes body.length 2 ++ body

/-- A mark of one byte. -/
def markByte (b : Bool) : List Byte := leBytes (if b then 1 else 0) 1

/-- Body of an AUDIO frame (R179). -/
def audioBytes (b : AudioBody) : List Byte :=
  leBytes b.feed 1 ++ leBytes b.letter 1 ++ leBytes b.rank 1 ++ leBytes (bitsCode [b.fallback, b.yielding]) 1 ++
    timeBytes b.frameTime ++ leBytes b.leadTag 4 ++ leIntBytes b.entryOffset 4 ++ leBytes b.breakTag 4 ++
    leIntBytes b.breakOffset 4 ++ samplesBytes b.samples

/-- An outlet block of a beacon (R180): an absent cue or echo is sent as 0. -/
def blockBytes (b : OutletBlock) : List Byte :=
  let cue := b.cue.getD { tag := 0, start := 0, len := 0 }
  let echo := b.echo.getD { feed := 0, block := 0, check := some 0#32 }
  leBytes b.letter 1 ++ leBytes b.feed 1 ++ leBytes b.mode 1 ++ leBytes b.air 1 ++ leBytes b.rank 1 ++ leBytes b.leadTag 4 ++
    leIntBytes b.meter 2 ++ leBytes b.silence 1 ++ leBytes b.clip 4 ++ leBytes (bitsCode [b.cue.isSome, b.echo.isSome]) 1 ++
    leBytes cue.tag 4 ++ timeBytes cue.start ++ leBytes cue.len 4 ++
    leBytes echo.feed 1 ++ timeBytes echo.block ++ markByte echo.check.isNone ++ leBytes (echo.check.getD 0#32).toNat 4

/-- Body of a BEACON (R180). -/
def beaconBytes (b : BeaconBody) : List Byte :=
  leBytes b.role 1 ++ leBytes b.boot 1 ++ markByte b.timeSet ++ timeBytes b.groupTime ++ leBytes b.clockState 1 ++
    leIntBytes b.trim 2 ++ leBytes b.mask 1 ++ leBytes b.blocks.length 1 ++ b.blocks.flatMap blockBytes

/-- Body of a CUE frame (R181). -/
def cueBytes (b : CueBody) : List Byte :=
  leBytes b.feed 1 ++ leBytes b.tag 4 ++ timeBytes b.start ++ leBytes b.len 4 ++ leBytes b.cancel 1

/-- Body of a CLAIM frame (R181). -/
def claimBytes (b : ClaimBody) : List Byte := leBytes b.feed 1 ++ leBytes b.rank 1

/-- Body of a RELEASE frame (R181). -/
def releaseBytes (b : ReleaseBody) : List Byte := leBytes b.feed 1 ++ leBytes b.successor 1

/-- An as-run record in its 52 bytes (R183); an absent field is sent as 0. -/
def recordBytes (r : Record) : List Byte :=
  leBytes r.seq 4 ++ leBytes r.outlet.code 1 ++ leBytes r.feed 1 ++ leBytes r.source.code 1 ++ leBytes r.presence 1 ++
    leBytes (r.entryTag.getD 0) 4 ++ leBytes (r.breakTag.getD 0) 4 ++ leBytes (r.slot.getD 0) 1 ++ leBytes r.cart 4 ++
    leBytes r.serial 2 ++ timeBytes (r.planned.getD 0) ++ timeBytes (r.actual.getD 0) ++ leBytes r.played 4 ++
    leIntBytes r.slip 4 ++ leBytes r.outcome.code 1 ++ leBytes r.concealed 2 ++ leBytes r.stream.code 1 ++
    leBytes r.confirmation.code 1 ++ leBytes (r.underfill.getD 0) 4

/-- A capture slot in its 42 bytes (R183): an unlocked slot has kind 0 and no field. -/
def slotBytes (k : FaultClass) (x : Slot) (corrected : Nat) : List Byte :=
  let f := x.first.getD (FaultInfo.bare .uncorrectable)
  leBytes k.code 1 ++ markByte x.locked ++ leBytes ((x.first.map fun f => f.kind.code).getD 0) 1 ++ leBytes f.presence 1 ++
    timeBytes (f.time.getD 0) ++ leBytes ((f.outlet.map OutletId.code).getD 0) 1 ++ leBytes ((f.cart.map Prod.fst).getD 0) 4 ++
    leBytes ((f.cart.map Prod.snd).getD 0) 2 ++ leBytes (f.entryTag.getD 0) 4 ++ leBytes (f.node.getD 0) 1 ++
    leBytes (f.page.getD 0) 4 ++ leBytes (f.delivered.getD 0) 4 ++ timeBytes (f.block.getD 0) ++ leBytes x.lost 2 ++
    leBytes corrected 4

/-- The fields of an answer (R183). -/
def answerFieldBytes : AnswerFields → List Byte
  | .none => []
  | .opened serial role => leBytes serial 2 ++ leBytes (if role = .incoming then 2 else 1) 1
  | .verified cart serial ready => leBytes cart 4 ++ leBytes serial 2 ++ leBytes (if ready then 1 else 2) 1
  | .log oldest next records =>
    markByte oldest.isSome ++ leBytes (oldest.getD 0) 4 ++ leBytes next 4 ++ leBytes records.length 1 ++
      records.flatMap recordBytes
  | .slot k x corrected => slotBytes k x corrected

/-- Body of an ANSWER (R183), its kind at byte 3 (notes/assumptions/74.md). -/
def answerBytes (a : Answer) : List Byte :=
  leBytes a.dest 1 ++ leBytes a.tag 2 ++ leBytes a.kind 1 ++ leBytes ((a.outlet.map OutletId.code).getD 255) 1 ++
    markByte a.followUp ++ leBytes a.result.code 1 ++ answerFieldBytes a.fields

/-- Kind code and body of a frame the unit sends (R178). -/
def bodyBytes : FrameBody → Nat × List Byte
  | .audio b => (1, audioBytes b)
  | .beacon b => (2, beaconBytes b)
  | .cue b => (3, cueBytes b)
  | .claim b => (4, claimBytes b)
  | .release b => (5, releaseBytes b)
  | .answer b => (7, answerBytes b)

/-- The bytes of a frame the unit sends (R178). -/
def sentBytes (f : SentFrame) : List Byte :=
  withHeader 0xE410 (bodyBytes f.body).1 f.sender f.sentAt (bodyBytes f.body).2

/-! ### Commands as bytes (R178 to R182) -/

/-- The addressing mode and the 8 bytes of a request's addressing (R182). -/
def addrBytes : Addressing → List Byte
  | .unitMask m => leBytes 1 1 ++ leBytes m 8
  | .feed f => leBytes 2 1 ++ leBytes f 8
  | .unknown c => leBytes c 1 ++ leBytes 0 8

/-- The common part of a request's body and the fields of its kind (R182). -/
def requestBytes (req : RequestHead) (kind : Nat) (fields : List Byte) : List Byte :=
  withHeader req.head.mark 6 req.head.sender req.head.sentAt
    (leBytes req.tag 2 ++ leBytes kind 1 ++ addrBytes req.addr ++ fields)

/-- Fields of CART_OPEN (R182). -/
def cartOpenBytes (f : CartFields) : List Byte :=
  leBytes f.cart 4 ++ leBytes f.kind 1 ++ leBytes f.len 4 ++ leBytes f.inCue 4 ++ leBytes f.outCue 4 ++ leIntBytes f.trim 1 ++
    leBytes f.check.toNat 4

/-- Fields of ENTRY_ADD (R182). -/
def entryAddBytes (f : EntryFields) : List Byte :=
  leBytes f.tag 4 ++ leBytes f.kind 1 ++ leBytes f.ref 4 ++ leBytes f.len 4 ++ leBytes f.mode 1 ++
    leBytes (bitsCode [f.time.isSome, f.fade.isSome, f.trim.isSome]) 1 ++ timeBytes (f.time.getD 0) ++ leBytes (f.fade.getD 0) 1 ++
    leIntBytes (f.trim.getD 0) 1 ++ leBytes f.position 1 ++ leBytes f.reference 4

/-- Fields of SPOTS_SET (R182). -/
def spotsSetBytes (f : SpotFields) : List Byte :=
  leBytes f.tag 4 ++ leBytes (bitsCode [f.opener.isSome, f.closer.isSome]) 1 ++ leBytes (f.opener.getD 0) 4 ++
    leBytes (f.closer.getD 0) 4 ++ leBytes f.spots.length 1 ++ f.spots.flatMap fun p => leBytes p.1 4 ++ leBytes p.2 1

/-- Fields of FILLS_SET (R182). -/
def fillsSetBytes (bed : Option Nat) (fills : List Nat) : List Byte :=
  markByte bed.isSome ++ leBytes (bed.getD 0) 4 ++ leBytes fills.length 1 ++ fills.flatMap fun c => leBytes c 4

/-- The bytes of the frame that carries a command; none for a command no frame carries. -/
def commandBytes : Instr → Option (List Byte)
  | .audioFrame _ h b _ => some (withHeader h.mark 1 h.sender h.sentAt (audioBytes b))
  | .beaconReceived _ h b => some (withHeader h.mark 2 h.sender h.sentAt (beaconBytes b))
  | .cueFrame _ h b => some (withHeader h.mark 3 h.sender h.sentAt (cueBytes b))
  | .claimFrame _ h b => some (withHeader h.mark 4 h.sender h.sentAt (claimBytes b))
  | .releaseFrame _ h b => some (withHeader h.mark 5 h.sender h.sentAt (releaseBytes b))
  | .cartOpen _ r f => some (requestBytes r 1 (cartOpenBytes f))
  | .cartData _ r cart offset payload =>
    some (requestBytes r 2 (leBytes cart 4 ++ leBytes offset 4 ++ leBytes payload.length 2 ++ payload))
  | .cartClose _ r cart => some (requestBytes r 3 (leBytes cart 4))
  | .cartDrop _ r cart => some (requestBytes r 4 (leBytes cart 4))
  | .entryAdd _ r f => some (requestBytes r 5 (entryAddBytes f))
  | .entryRemove _ r tag => some (requestBytes r 6 (leBytes tag 4))
  | .spotsSet _ r f => some (requestBytes r 7 (spotsSetBytes f))
  | .spotsClear _ r tag => some (requestBytes r 8 (leBytes tag 4))
  | .fillsSet _ r bed fills => some (requestBytes r 9 (fillsSetBytes bed fills))
  | .handBack _ r => some (requestBytes r 10 [])
  | .resume _ r => some (requestBytes r 11 [])
  | .logRead _ r start count => some (requestBytes r 12 (leBytes start 4 ++ leBytes count 1))
  | .captureRead _ r cls => some (requestBytes r 13 (leBytes cls 1))
  | .captureClear _ r cls => some (requestBytes r 14 (leBytes cls 1))
  | .restart _ r _ => some (requestBytes r 15 [])
  | .unknownRequest _ r kind => some (requestBytes r kind [])
  | _ => none

/-! ### Bytes as commands (R178 to R182) -/

/-- A number of `k` bytes from the front, least significant byte first (R178); bytes past the end read as 0. -/
def readNat : Nat → List Byte → Nat × List Byte
  | 0, l => (0, l)
  | _ + 1, [] => (0, [])
  | k + 1, b :: t => (b.toNat + 256 * (readNat k t).1, (readNat k t).2)

/-- A two's complement number of `k` bytes from the front. -/
def readInt (k : Nat) (l : List Byte) : Int × List Byte :=
  let (n, r) := readNat k l
  (if 2 * n < 2 ^ (8 * k) then (n : Int) else (n : Int) - (2 ^ (8 * k) : Nat), r)

/-- A group time from the front. -/
def readTime (l : List Byte) : Time × List Byte := let (n, r) := readNat 6 l; ((n : Int), r)

/-- A list of `n` things from the front. -/
def readMany {α : Type} (f : List Byte → α × List Byte) : Nat → List Byte → List α × List Byte
  | 0, l => ([], l)
  | n + 1, l =>
    let (x, r) := f l
    let (t, r) := readMany f n r
    (x :: t, r)

/-- One byte from the front. -/
def readByte (l : List Byte) : Byte × List Byte := let (n, r) := readNat 1 l; (BitVec.ofNat 8 n, r)

/-- A sample frame from the front (R107, R179). -/
def readSample (l : List Byte) : SampleFrame × List Byte :=
  let (x, l) := readInt 3 l
  let (y, l) := readInt 3 l
  ({ l := x, r := y }, l)

/-- Body of an AUDIO frame (R179). -/
def readAudio (l : List Byte) : AudioBody :=
  let (feed, l) := readNat 1 l
  let (letter, l) := readNat 1 l
  let (rank, l) := readNat 1 l
  let (flags, l) := readNat 1 l
  let (time, l) := readTime l
  let (lead, l) := readNat 4 l
  let (entry, l) := readNat 4 l
  let (brk, l) := readNat 4 l
  let (off, l) := readNat 4 l
  let (samples, _) := readMany readSample 48 l
  { feed := feed, letter := letter, rank := rank, fallback := flags.testBit 0, yielding := flags.testBit 1, frameTime := time
    leadTag := lead, entryOffset := (entry : Int), breakTag := brk, breakOffset := (off : Int), samples := samples }

/-- An outlet block (R180). -/
def readBlock (l : List Byte) : OutletBlock × List Byte :=
  let (letter, l) := readNat 1 l
  let (feed, l) := readNat 1 l
  let (mode, l) := readNat 1 l
  let (air, l) := readNat 1 l
  let (rank, l) := readNat 1 l
  let (lead, l) := readNat 4 l
  let (meter, l) := readInt 2 l
  let (silence, l) := readNat 1 l
  let (clip, l) := readNat 4 l
  let (marks, l) := readNat 1 l
  let (tag, l) := readNat 4 l
  let (start, l) := readTime l
  let (len, l) := readNat 4 l
  let (efeed, l) := readNat 1 l
  let (eblock, l) := readTime l
  let (missing, l) := readNat 1 l
  let (check, l) := readNat 4 l
  ({ letter := letter, feed := feed, mode := mode, air := air, rank := rank, leadTag := lead, meter := meter, silence := silence
     clip := clip
     cue := if marks.testBit 0 then some { tag := tag, start := start, len := len } else none
     echo :=
      if marks.testBit 1 then
        some { feed := efeed, block := eblock, check := if missing = 0 then some (BitVec.ofNat 32 check) else none }
      else none }, l)

/-- Body of a BEACON (R180). -/
def readBeacon (l : List Byte) : BeaconBody :=
  let (role, l) := readNat 1 l
  let (boot, l) := readNat 1 l
  let (flags, l) := readNat 1 l
  let (time, l) := readTime l
  let (clock, l) := readNat 1 l
  let (trim, l) := readInt 2 l
  let (mask, l) := readNat 1 l
  let (count, l) := readNat 1 l
  let (blocks, _) := readMany readBlock count l
  { role := role, boot := boot, timeSet := flags.testBit 0, groupTime := time, clockState := clock, trim := trim, mask := mask
    blocks := blocks }

/-- Body of a CUE frame (R181). -/
def readCue (l : List Byte) : CueBody :=
  let (feed, l) := readNat 1 l
  let (tag, l) := readNat 4 l
  let (start, l) := readTime l
  let (len, l) := readNat 4 l
  let (cancel, _) := readNat 1 l
  { feed := feed, tag := tag, start := start, len := len, cancel := cancel }

/-- Body of a CLAIM frame (R181). -/
def readClaim (l : List Byte) : ClaimBody :=
  let (feed, l) := readNat 1 l
  let (rank, _) := readNat 1 l
  { feed := feed, rank := rank }

/-- Body of a RELEASE frame (R181). -/
def readRelease (l : List Byte) : ReleaseBody :=
  let (feed, l) := readNat 1 l
  let (successor, _) := readNat 1 l
  { feed := feed, successor := successor }

/-- The addressing of a request from its mode and 8 bytes (R182): a feed is its first byte alone. -/
def addressingOf (mode n : Nat) : Addressing :=
  match mode with
  | 1 => .unitMask n
  | 2 => .feed (n % 256)
  | c => .unknown c

/-- Fields of CART_OPEN (R182). -/
def readCartOpen (l : List Byte) : CartFields :=
  let (cart, l) := readNat 4 l
  let (kind, l) := readNat 1 l
  let (len, l) := readNat 4 l
  let (inCue, l) := readNat 4 l
  let (outCue, l) := readNat 4 l
  let (trim, l) := readInt 1 l
  let (check, _) := readNat 4 l
  { cart := cart, kind := kind, len := len, inCue := inCue, outCue := outCue, trim := trim, check := BitVec.ofNat 32 check }

/-- Fields of CART_DATA (R182). -/
def readCartData (l : List Byte) : Nat × Nat × List Byte :=
  let (cart, l) := readNat 4 l
  let (offset, l) := readNat 4 l
  let (size, l) := readNat 2 l
  (cart, offset, (readMany readByte size l).1)

/-- Fields of ENTRY_ADD (R182). -/
def readEntryAdd (l : List Byte) : EntryFields :=
  let (tag, l) := readNat 4 l
  let (kind, l) := readNat 1 l
  let (ref, l) := readNat 4 l
  let (len, l) := readNat 4 l
  let (mode, l) := readNat 1 l
  let (marks, l) := readNat 1 l
  let (time, l) := readTime l
  let (fade, l) := readNat 1 l
  let (trim, l) := readInt 1 l
  let (position, l) := readNat 1 l
  let (reference, _) := readNat 4 l
  { tag := tag, kind := kind, ref := ref, len := len, mode := mode
    time := if marks.testBit 0 then some time else none
    fade := if marks.testBit 1 then some fade else none
    trim := if marks.testBit 2 then some trim else none
    position := position, reference := reference }

/-- A spot (R182). -/
def readSpot (l : List Byte) : (Nat × Nat) × List Byte :=
  let (cart, l) := readNat 4 l
  let (cls, l) := readNat 1 l
  ((cart, cls), l)

/-- Fields of SPOTS_SET (R182). -/
def readSpotsSet (l : List Byte) : SpotFields :=
  let (tag, l) := readNat 4 l
  let (marks, l) := readNat 1 l
  let (opener, l) := readNat 4 l
  let (closer, l) := readNat 4 l
  let (count, l) := readNat 1 l
  { tag := tag, opener := if marks.testBit 0 then some opener else none, closer := if marks.testBit 1 then some closer else none
    spots := (readMany readSpot count l).1 }

/-- Fields of FILLS_SET (R182). -/
def readFillsSet (l : List Byte) : Option Nat × List Nat :=
  let (marks, l) := readNat 1 l
  let (bed, l) := readNat 4 l
  let (count, l) := readNat 1 l
  (if marks.testBit 0 then some bed else none, (readMany (readNat 4) count l).1)

/-- Fields of LOG_READ (R182). -/
def readLogRead (l : List Byte) : Nat × Nat :=
  let (start, l) := readNat 4 l
  (start, (readNat 1 l).1)

/-- What arrives with a frame and is not in its bytes: the samples since the last command, the source link address, the part of a sample
past the sample of arrival (R81), and what the configuration memory holds (R194). -/
structure Arrival where
  dt : Nat
  link : Nat
  phase : Nat
  config : List Byte
  deriving DecidableEq, Repr

/-- The command of a request of a known addressing mode, from its kind and the fields of its kind (R182, R188). -/
def requestOf (a : Arrival) (req : RequestHead) (kind : Nat) (l : List Byte) : Instr :=
  match kind with
  | 1 => .cartOpen a.dt req (readCartOpen l)
  | 2 => .cartData a.dt req (readCartData l).1 (readCartData l).2.1 (readCartData l).2.2
  | 3 => .cartClose a.dt req (readNat 4 l).1
  | 4 => .cartDrop a.dt req (readNat 4 l).1
  | 5 => .entryAdd a.dt req (readEntryAdd l)
  | 6 => .entryRemove a.dt req (readNat 4 l).1
  | 7 => .spotsSet a.dt req (readSpotsSet l)
  | 8 => .spotsClear a.dt req (readNat 4 l).1
  | 9 => .fillsSet a.dt req (readFillsSet l).1 (readFillsSet l).2
  | 10 => .handBack a.dt req
  | 11 => .resume a.dt req
  | 12 => .logRead a.dt req (readLogRead l).1 (readLogRead l).2
  | 13 => .captureRead a.dt req (readNat 1 l).1
  | 14 => .captureClear a.dt req (readNat 1 l).1
  | 15 => .restart a.dt req a.config
  | k => .unknownRequest a.dt req k

/-- The command of a REQUEST body (R182, R188): an unknown kind or addressing mode is UNKNOWN_REQUEST. -/
def readRequest (a : Arrival) (head : FrameHead) (l : List Byte) : Instr :=
  let (tag, l) := readNat 2 l
  let (kind, l) := readNat 1 l
  let (mode, l) := readNat 1 l
  let (n, l) := readNat 8 l
  let req : RequestHead := { head := head, tag := tag, addr := addressingOf mode n }
  if mode = 1 ∨ mode = 2 then requestOf a req kind l else .unknownRequest a.dt req kind

/-- The command the bytes of an arriving frame carry (R178): none for a frame too short for its header, for a kind that is none of the
seven, and for an ANSWER, on which a unit does not act (R190). -/
def readFrame (a : Arrival) (bytes : List Byte) : Option Instr :=
  if bytes.length < 12 then none
  else
    let (mark, l) := readNat 2 bytes
    let (kind, l) := readNat 1 l
    let (sender, l) := readNat 1 l
    let (time, l) := readTime l
    let (len, l) := readNat 2 l
    let body := l.take len
    let head : FrameHead := { link := a.link, mark := mark, sender := sender, sentAt := time, bodyLen := body.length }
    match kind with
    | 1 => some (.audioFrame a.dt head (readAudio body) a.phase)
    | 2 => some (.beaconReceived a.dt head (readBeacon body))
    | 3 => some (.cueFrame a.dt head (readCue body))
    | 4 => some (.claimFrame a.dt head (readClaim body))
    | 5 => some (.releaseFrame a.dt head (readRelease body))
    | 6 => some (readRequest a head body)
    | _ => none

end Sys2Proof.Machine
end

