-- ==== Sys2Proof/Machine/Step.lean ====
section
/-! DEFINITION. One step of the block: the command at the front of the queue, or one sample of the sample clock while none waits
(notes/assumptions/1.md). -/

namespace Sys2Proof.Machine

/-- Take the command at the front of the queue and run it on the state with the queue's rest; with no command waiting one sample of the
unit's sample clock passes, if the unit is powered. -/
def step (s : State) : Host.Outcome State Fault Refusal :=
  match s.pending with
  | [] => .next (if s.powered then s.elapse 1 else s)
  | c :: rest => exec c { s with pending := rest }

/-- The state with the command a table word spells put at the front of its queue (notes/assumptions/18.md). -/
def State.withFetchWord (s : State) (nbits w : Nat) : State :=
  match decodeTableWord nbits w with
  | some c => { s with pending := c :: s.pending }
  | none => s

/-- The state with the command that arriving bytes carry put at the end of its queue (notes/assumptions/18.md). -/
def State.withFrame (s : State) (a : Arrival) (bytes : List Byte) : State :=
  match readFrame a bytes with
  | some c => { s with pending := s.pending ++ [c] }
  | none => s

end Sys2Proof.Machine
end

