-- ==== Sys2Proof/Safety.lean ====
section
/-! DEFINITION. The terms statements are made in: what it is for a unit to be in bounds, what a command adds to the as-run log and to
the frames sent, and when nothing is ready to come about. -/

namespace Sys2Proof.Machine

/-- A record apart from its confirmation, which alone may still change after it is written (R168). -/
def Record.core (r : Record) : Record := { r with confirmation := .none }

/-- A record apart from its sequence number (R164) and its confirmation (R168). -/
def Record.unnumbered (r : Record) : Record := { r with seq := 0, confirmation := .none }

/-- A record as an outlet writes it, apart from its sequence number and its confirmation: with the outlet, its feed and a count of concealed
blocks up to 65,535 (R163, R166). -/
def State.asWritten (s : State) (o : OutletId) (r : Record) : Record :=
  { r with seq := 0, outlet := o, feed := (s.ocfg o).feed, concealed := min 65535 r.concealed, confirmation := .none }

/-- The log `b` is the log `a` after the records `l` were written in order (R164, R165): they take the next sequence numbers, the log
keeps the latest of all its records, and no record changes but for its confirmation. -/
def Log.Wrote (a b : Log) (l : List Record) : Prop :=
  b.next = a.next + l.length ∧ (∀ k r, l[k]? = some r → r.seq = a.next + k) ∧
    b.records.map Record.core <:+ (a.records ++ l).map Record.core ∧
      (a.records.length ≤ logCapacity → b.records.length = min logCapacity (a.records.length + l.length))

/-- The log is one run (R164, R165): it holds the latest of all the records taken since power-on, up to 8,192, and their sequence numbers
rise by one up to the next sequence less one. -/
def Log.Run (l : Log) : Prop :=
  1 ≤ l.next ∧ l.records.length = min logCapacity (l.next - 1) ∧ ∀ k r, l.records[k]? = some r → r.seq + l.records.length = l.next + k

/-- The store's bounds: memory in its canonical form, at most 4,096 versions, at most two of one cart (R108), and at most 64 queued
payloads (06, section 6.4). -/
def Store.Bounded (st : Store) : Prop :=
  (memWf st.mem = true ∧ st.versions.length ≤ directoryCapacity ∧ st.loadQueue.length ≤ loadQueueCapacity) ∧
    ∀ c, (st.versionsOf c).length ≤ 2

/-- How many voices hold a version (R111). -/
def holdersOf (l : List Voice) (cart serial : Nat) : Nat :=
  l.countP fun v => v.use.any fun u => u.cart == cart && u.serial == serial

/-- The fields of a version that never change (R109). -/
def Version.fixed (v : Version) : Nat × Nat × CartKind × Nat × Nat × Nat × Int × Crc × List PageRun :=
  (v.cart, v.serial, v.kind, v.len, v.inCue, v.outCue, v.trim, v.check, v.chain)

/-- What names a version (R109). -/
def Version.key (v : Version) : Nat × Nat := (v.cart, v.serial)

/-- The use counts are right for a number of holders (R111): each version's is the number that hold it, and a version held is in the
directory. -/
def Store.CountedBy (st : Store) (f : Nat → Nat → Nat) : Prop :=
  (∀ v ∈ st.versions, v.useCount = f v.cart v.serial) ∧ ∀ c n, f c n ≠ 0 → (c, n) ∈ st.versions.map Version.key

/-- A page lies in a run. -/
def PageRun.has (p : Nat) (r : PageRun) : Bool := decide (r.lo ≤ p) && decide (p < r.lo + r.n)

/-- How often a page stands in the free page list and in the page chains together (R106). -/
def Store.holders (st : Store) (p : Nat) : Nat :=
  st.free.countP (PageRun.has p) + (st.versions.map fun v => v.chain.countP (PageRun.has p)).sum

/-- The pages are shared out (R106, R107): no two versions have one name, every version has the pages its length needs, and each of the
524,288 pages stands exactly once, in the free page list or in one chain, and no other page anywhere. -/
def Store.Paged (st : Store) : Prop :=
  (st.versions.map Version.key).Nodup ∧ (∀ v ∈ st.versions, runsCount v.chain = pagesFor v.len) ∧
    ∀ p, st.holders p = if p < 524288 then 1 else 0

/-- An ARMED entry occupies one of the two arm slots, and the anchor slot's is HARD (R1, R3). -/
def Outlet.Slotted (x : Outlet) : Prop :=
  ∀ e ∈ x.entries, e.state = .armed → x.seqSlot = some e.tag ∨ x.anchorSlot = some e.tag ∧ ∃ t, e.mode = .hard t

/-- An outlet's bounds: at most 256 entries, no two of one tag, and those ARMED in the two slots (R1), at most 32 spot lists and no two
for one break tag (R19). -/
def Outlet.Bounded (x : Outlet) : Prop :=
  (x.entries.length ≤ entryCapacity ∧ (x.entries.map Entry.tag).Nodup ∧ x.Slotted) ∧
    (x.spots.length ≤ 32 ∧ (x.spots.map SpotList.tag).Nodup)

/-- The captures' bounds: lost counts up to 65,535 (R172) and a corrected count up to 4,294,967,295 (R173). -/
def Captures.Bounded (c : Captures) : Prop := (∀ k, (c.slot k).lost ≤ 65535) ∧ c.corrected ≤ 4294967295

/-- The clock discipline's bounds: a trim between -1,600 and 1,600 (R80) and a rejected count up to 4 (R83). -/
def ClockDiscipline.Bounded (d : ClockDiscipline) : Prop := (-1600 ≤ d.trim ∧ d.trim ≤ 1600) ∧ d.rejected ≤ 4

/-- The peer table's bounds (R186): at most 48 entries, no node id twice. -/
def PeersBounded (l : List Peer) : Prop := l.length ≤ peerCapacity ∧ (l.map Peer.node).Nodup

/-- A unit in bounds: twelve voices (R87), eight fire lines (R32), at most 8,192 records in the log (R165), use counts that are the
voices' (R111), and its parts in bounds. -/
def State.Bounded (s : State) : Prop :=
  (s.voices.length = 12 ∧ s.lines.length = 8 ∧ s.log.records.length ≤ logCapacity ∧ PeersBounded s.peers) ∧
    ((s.store.Bounded ∧ s.store.CountedBy (holdersOf s.voices)) ∧ (∀ o, (s.out o).Bounded) ∧ s.captures.Bounded ∧ s.disc.Bounded)

/-- Samples passed since the command before (notes/assumptions/1.md). -/
def dtOf : Instr → Nat
  | .powerOn dt _ _ => dt
  | .listenTimeEnd dt => dt
  | .beaconSend dt => dt
  | .beaconReceived dt _ _ => dt
  | .peerStale dt _ => dt
  | .peerRemoved dt _ => dt
  | .audioFrame dt _ _ _ => dt
  | .cueFrame dt _ _ => dt
  | .claimFrame dt _ _ => dt
  | .releaseFrame dt _ _ => dt
  | .ownerSilenceExpiry dt _ => dt
  | .claimWindowExpiry dt _ => dt
  | .yieldTimeout dt _ => dt
  | .cartOpen dt _ _ => dt
  | .cartData dt _ _ _ _ => dt
  | .cartClose dt _ _ => dt
  | .cartDrop dt _ _ => dt
  | .entryAdd dt _ _ => dt
  | .entryRemove dt _ _ => dt
  | .spotsSet dt _ _ => dt
  | .spotsClear dt _ _ => dt
  | .fillsSet dt _ _ _ => dt
  | .handBack dt _ => dt
  | .resume dt _ => dt
  | .logRead dt _ _ _ => dt
  | .captureRead dt _ _ => dt
  | .captureClear dt _ _ => dt
  | .restart dt _ _ => dt
  | .fireLineInput dt _ _ => dt
  | .fireLineStable dt _ => dt
  | .armTimeReached dt _ => dt
  | .softTimeReached dt _ _ => dt
  | .hardTimeReached dt _ _ => dt
  | .startTimeReached dt _ => dt
  | .breakStart dt _ _ => dt
  | .swapOutStart dt _ _ => dt
  | .swapInStart dt _ _ => dt
  | .itemDueTime dt _ _ => dt
  | .rejoin dt _ _ => dt
  | .rampEnd dt _ => dt
  | .cartEnd dt _ => dt
  | .judgePoint dt _ => dt
  | .primingTransferComplete dt _ => dt
  | .refillComplete dt _ => dt
  | .loadWriteComplete dt => dt
  | .verifyReadComplete dt _ => dt
  | .relaySlotJudge dt _ => dt
  | .audioFrameSend dt _ => dt
  | .meterBlockEnd dt _ _ => dt
  | .echoBlockEnd dt _ => dt
  | .echoOpenBlockTimeout dt _ => dt
  | .tapCompletion dt _ _ _ => dt
  | .historyEntryLeave dt _ => dt
  | .blockLeavesRing dt _ => dt
  | .loopToInCue dt _ => dt
  | .cutAtTheRejoin dt _ _ => dt
  | .bedRampStart dt _ _ => dt
  | .unknownRequest dt _ _ => dt

/-- Nothing is ready to come about by itself: no slot fills, no entry, break, instant or fallback starts, no shadow break's slot moves on,
no entry a grant has lost is left (R9, R10, R12, R24, R34, R61, R66, R159). -/
def State.Rests (s : State) : Prop := s.stepUnit = none

/-- The end of a command changes nothing: nothing is ready to come about, no start is handed on, and the fetch engine is busy or has no
transfer to begin (R97). -/
def State.Quiet (s : State) : Prop :=
  s.Rests ∧ (∀ o, (s.out o).inherit = none) ∧ (s.transfer.isSome = true ∨ s.nextTransfer = none)

/-- The frame a unit sends with a body (R178). -/
def State.frame (s : State) (b : FrameBody) : SentFrame := { sender := s.cfg.nodeId, link := s.linkAddress, sentAt := s.now, body := b }

/-- The unit after one frame with a body has gone out. -/
def State.sends (s : State) (b : FrameBody) : State := { s with sent := s.sent ++ [s.frame b] }

/-- The unit after one answer has gone out (R183, R190): it names the request's sender, tag and kind and the outlet judged. -/
def State.answers (s : State) (req : RequestHead) (kind : Nat) (o : Option OutletId) (r : ResultCode) (f : AnswerFields) : State :=
  s.sends (.answer
    { dest := req.head.sender, tag := req.tag, kind := kind, outlet := o, followUp := false, result := r, fields := f })

/-- A request by unit mask reaches its owner's judgement (R188): steps 1 to 3 lead to the unit, and the body holds its `n` bytes of
fields. -/
def State.TakesUnit (s : State) (req : RequestHead) (n : Nat) : Prop :=
  s.powered = true ∧ s.unitGate req = .unit ∧ 12 + n ≤ req.head.bodyLen

/-- A request by feed reaches an outlet's judgement (R188). -/
def State.TakesFeed (s : State) (req : RequestHead) (n : Nat) (o : OutletId) : Prop :=
  s.powered = true ∧ s.feedGate req = .outlet o ∧ 12 + n ≤ req.head.bodyLen

/-- The header and common part of a request (R182). -/
def requestHead : Instr → Option RequestHead
  | .cartOpen _ r _ => some r
  | .cartData _ r _ _ _ => some r
  | .cartClose _ r _ => some r
  | .cartDrop _ r _ => some r
  | .entryAdd _ r _ => some r
  | .entryRemove _ r _ => some r
  | .spotsSet _ r _ => some r
  | .spotsClear _ r _ => some r
  | .fillsSet _ r _ _ => some r
  | .handBack _ r => some r
  | .resume _ r => some r
  | .logRead _ r _ _ => some r
  | .captureRead _ r _ => some r
  | .captureClear _ r _ => some r
  | .restart _ r _ => some r
  | .unknownRequest _ r _ => some r
  | _ => none

/-- The kind code of a request (R182). -/
def requestKind : Instr → Nat
  | .cartOpen _ _ _ => 1
  | .cartData _ _ _ _ _ => 2
  | .cartClose _ _ _ => 3
  | .cartDrop _ _ _ => 4
  | .entryAdd _ _ _ => 5
  | .entryRemove _ _ _ => 6
  | .spotsSet _ _ _ => 7
  | .spotsClear _ _ _ => 8
  | .fillsSet _ _ _ _ => 9
  | .handBack _ _ => 10
  | .resume _ _ => 11
  | .logRead _ _ _ _ => 12
  | .captureRead _ _ _ => 13
  | .captureClear _ _ _ => 14
  | .restart _ _ _ => 15
  | .unknownRequest _ _ kind => kind
  | _ => 0

/-- The bytes a request's body holds of the fields of its kind, after the 12 of its common part (R182, R188). -/
def fieldBytes : Instr → Nat
  | .cartOpen _ _ _ => 22
  | .cartData _ _ _ _ payload => 10 + payload.length
  | .cartClose _ _ _ => 4
  | .cartDrop _ _ _ => 4
  | .entryAdd _ _ _ => 28
  | .entryRemove _ _ _ => 4
  | .spotsSet _ _ f => 14 + 5 * f.spots.length
  | .spotsClear _ _ _ => 4
  | .fillsSet _ _ _ fills => 6 + 4 * fills.length
  | .logRead _ _ _ _ => 5
  | .captureRead _ _ _ => 1
  | .captureClear _ _ _ => 1
  | _ => 0

/-- A request by feed (R189); every other listed one is by unit mask. -/
def byFeed : Instr → Bool
  | .entryAdd _ _ _ | .entryRemove _ _ _ | .spotsSet _ _ _ | .spotsClear _ _ _ | .fillsSet _ _ _ _ | .handBack _ _ | .resume _ _ => true
  | _ => false

/-- The form of a request's addressing can be read (R188, step 2): a listed kind with its own mode, and a feed from 1 to 64. -/
def addressingReads (c : Instr) (req : RequestHead) : Prop :=
  (1 ≤ requestKind c ∧ requestKind c ≤ 15) ∧
    match req.addr with
    | .unitMask _ => byFeed c = false
    | .feed f => byFeed c = true ∧ 1 ≤ f ∧ f ≤ 64
    | .unknown _ => False

/-- A request is addressed to the unit (R189): its bit of the mask is set, or an outlet that is not DARK carries the feed. -/
def State.Addressed (s : State) (req : RequestHead) : Prop :=
  match req.addr with
  | .unitMask m => m.testBit s.cfg.nodeId = true
  | .feed f => ∃ o, (s.ocfg o).valid = true ∧ (s.ocfg o).feed = f ∧ (s.out o).air ≠ .dark
  | .unknown _ => False

/-- A frame with a sound header is taken (R177, R178): not from the unit's own link address or node id, with the mark, a sender from 1 to
63 and a body of at least `n` bytes. -/
def State.Hears (s : State) (h : FrameHead) (n : Nat) : Prop :=
  h.link ≠ s.linkAddress ∧ h.mark = 0xE410 ∧ 1 ≤ h.sender ∧ h.sender ≤ 63 ∧ n ≤ h.bodyLen ∧ h.sender ≠ s.cfg.nodeId

/-- `q` is `p / n` rounded to the nearest integer, halves away from zero (R39, R82). -/
def Rounds (q p : Int) (n : Nat) : Prop :=
  2 * (q * n - p).natAbs < n ∨ 2 * (q * n - p).natAbs = n ∧ p.natAbs < (q * n).natAbs

/-- The outlet that alone carries a feed and is not DARK (R192, R131). -/
def State.Carries (s : State) (o : OutletId) (f : Nat) : Prop :=
  (s.ocfg o).valid = true ∧ (s.ocfg o).feed = f ∧ 1 ≤ f ∧ f ≤ 64 ∧ (s.out o).air ≠ .dark ∧
    ∀ p, (s.ocfg p).valid = true → (s.ocfg p).feed = f → p = o

/-- A sender of a rank is better than the outlet in candidate order (R126). -/
def State.Better (s : State) (o : OutletId) (rank node : Nat) : Prop :=
  rank < (s.ocfg o).rank ∨ rank = (s.ocfg o).rank ∧ node < s.cfg.nodeId

/-- What arrives with a command's frame beside its bytes. -/
def arrivalOf : Instr → Arrival
  | .beaconReceived dt h _ => { dt := dt, link := h.link, phase := 0, config := [] }
  | .audioFrame dt h _ phase => { dt := dt, link := h.link, phase := phase, config := [] }
  | .cueFrame dt h _ => { dt := dt, link := h.link, phase := 0, config := [] }
  | .claimFrame dt h _ => { dt := dt, link := h.link, phase := 0, config := [] }
  | .releaseFrame dt h _ => { dt := dt, link := h.link, phase := 0, config := [] }
  | .restart dt r config => { dt := dt, link := r.head.link, phase := 0, config := config }
  | c => { dt := dtOf c, link := ((requestHead c).map fun r => r.head.link).getD 0, phase := 0, config := [] }

/-- The commands that add to what the unit holds, or start it: every other one is made of plain updates (Sys2Proof/Laws/Moves.lean). -/
def adds : Instr → Bool
  | .powerOn _ _ _ | .restart _ _ _ | .cartOpen _ _ _ | .cartData _ _ _ _ _ | .entryAdd _ _ _ | .spotsSet _ _ _
  | .captureClear _ _ _ => true
  | _ => false

/-- The plain commands: those that leave the clock discipline, the timers, the peer table, isolation, the owner views, the fill pools, the
fire lines' inputs and the store's memory as they are, and at which no outlet begins or stops sending. -/
def plain : Instr → Bool
  | .powerOn _ _ _
  | .listenTimeEnd _
  | .beaconSend _
  | .beaconReceived _ _ _
  | .peerStale _ _
  | .peerRemoved _ _
  | .audioFrame _ _ _ _
  | .claimFrame _ _ _
  | .releaseFrame _ _ _
  | .ownerSilenceExpiry _ _
  | .claimWindowExpiry _ _
  | .cartOpen _ _ _
  | .cartData _ _ _ _ _
  | .entryAdd _ _ _
  | .spotsSet _ _ _
  | .fillsSet _ _ _ _
  | .captureClear _ _ _
  | .restart _ _ _
  | .fireLineInput _ _ _
  | .fireLineStable _ _
  | .loadWriteComplete _ => false
  | _ => true

end Sys2Proof.Machine
end

