-- ==== Sys2Proof/WellFormed.lean ====
section
/-! DEFINITION. Well-formed commands: every operand lies in the range its field of the layouts (R178 to R182) or its rule can carry, and a
frame's body is exactly as long as its layout. Nothing in a meaning depends on it: a command that is not well-formed is judged by the
rules all the same. -/

namespace Sys2Proof

/-- A number fits `k` bytes. -/
def fits (k n : Nat) : Bool := n < 256 ^ k

/-- An integer fits `k` bytes in two's complement. -/
def fitsInt (k : Nat) (x : Int) : Bool := decide (-(256 ^ k : Nat) ≤ 2 * x) && decide (2 * x < (256 ^ k : Nat))

/-- A group time fits its 48 bits (00_scope.md, Group time). -/
def fitsTime (t : Time) : Bool := decide (0 ≤ t) && decide (t < 281474976710656)

/-- A node id (R177). -/
def nodeIdOk (n : Nat) : Bool := 1 ≤ n && n ≤ 63

/-- A header with a body of a length (R178). -/
def headWf (h : FrameHead) (len : Nat) : Bool :=
  fits 6 h.link && fits 2 h.mark && fits 1 h.sender && fitsTime h.sentAt && h.bodyLen == len && fits 2 len

/-- A sample frame of 24-bit channels (R107). -/
def sampleWf (f : SampleFrame) : Bool := fitsInt 3 f.l && fitsInt 3 f.r

/-- An offset of an AUDIO frame fits its 4 bytes (R179). -/
def offsetWf (x : Int) : Bool := decide (0 ≤ x) && decide (x < 4294967296)

/-- An AUDIO body (R179). -/
def audioWf (b : AudioBody) : Bool :=
  fits 1 b.feed && fits 1 b.letter && fits 1 b.rank && fitsTime b.frameTime && fits 4 b.leadTag && offsetWf b.entryOffset &&
    fits 4 b.breakTag && offsetWf b.breakOffset && b.samples.length == 48 && b.samples.all sampleWf

/-- A pending cue (R180). -/
def pendingCueWf (c : PendingCue) : Bool := fits 4 c.tag && fitsTime c.start && fits 4 c.len

/-- An echo (R180). -/
def echoWf (e : EchoReport) : Bool := fits 1 e.feed && fitsTime e.block

/-- An outlet block (R180). -/
def blockWf (b : OutletBlock) : Bool :=
  fits 1 b.letter && fits 1 b.feed && fits 1 b.mode && fits 1 b.air && fits 1 b.rank && fits 4 b.leadTag && fitsInt 2 b.meter &&
    fits 1 b.silence && fits 4 b.clip && b.cue.all pendingCueWf && b.echo.all echoWf

/-- A BEACON body (R180). -/
def beaconWf (b : BeaconBody) : Bool :=
  fits 1 b.role && fits 1 b.boot && fitsTime b.groupTime && fits 1 b.clockState && fitsInt 2 b.trim && fits 1 b.mask &&
    fits 1 b.blocks.length && b.blocks.all blockWf

/-- A CUE body (R181). -/
def cueWf (b : CueBody) : Bool := fits 1 b.feed && fits 4 b.tag && fitsTime b.start && fits 4 b.len && fits 1 b.cancel

/-- A CLAIM body (R181). -/
def claimWf (b : ClaimBody) : Bool := fits 1 b.feed && fits 1 b.rank

/-- A RELEASE body (R181). -/
def releaseWf (b : ReleaseBody) : Bool := fits 1 b.feed && fits 1 b.successor

/-- An addressing of a known mode (R182). -/
def addrKnown : Addressing → Bool
  | .unitMask m => fits 8 m
  | .feed f => fits 1 f
  | .unknown _ => false

/-- An addressing of an unknown mode (R182). -/
def addrUnknown : Addressing → Bool
  | .unknown c => fits 1 c && c != 1 && c != 2
  | _ => false

/-- A request whose fields take `len` bytes (R182). -/
def requestWf (r : RequestHead) (len : Nat) : Bool := headWf r.head (12 + len) && fits 2 r.tag && addrKnown r.addr

/-- Fields of CART_OPEN (R182). -/
def cartFieldsWf (f : CartFields) : Bool :=
  fits 4 f.cart && fits 1 f.kind && fits 4 f.len && fits 4 f.inCue && fits 4 f.outCue && fitsInt 1 f.trim

/-- Fields of ENTRY_ADD (R182). -/
def entryFieldsWf (f : EntryFields) : Bool :=
  fits 4 f.tag && fits 1 f.kind && fits 4 f.ref && fits 4 f.len && fits 1 f.mode && f.time.all fitsTime && f.fade.all (fits 1) &&
    f.trim.all (fitsInt 1) && fits 1 f.position && fits 4 f.reference

/-- Fields of SPOTS_SET (R182). -/
def spotFieldsWf (f : SpotFields) : Bool :=
  fits 4 f.tag && f.opener.all (fits 4) && f.closer.all (fits 4) && fits 1 f.spots.length &&
    f.spots.all fun p => fits 4 p.1 && fits 1 p.2

/-- A report of the error-correcting code: a read covers at most 768 words of 8 bytes, and pages are numbered 0 to 524,287 (R97, R99,
R106). -/
def eccWf (e : Ecc) : Bool := e.corrected ≤ 768 && e.uncorrectable.all fun p => p < 524288

/-- A configuration record is 96 bytes (R191). -/
def configWf (l : List Byte) : Bool := l.length == 96

/-- A tag (R2, R19). -/
def tagWf (n : Nat) : Bool := n != 0 && fits 4 n

/-- A well-formed command. -/
def Instr.wf : Instr → Bool
  | .powerOn _ link config => fits 6 link && configWf config
  | .listenTimeEnd _ => true
  | .beaconSend _ => true
  | .beaconReceived _ h b => headWf h (14 + 43 * b.blocks.length) && beaconWf b
  | .peerStale _ n => nodeIdOk n
  | .peerRemoved _ n => nodeIdOk n
  | .audioFrame _ h b phase => headWf h 314 && audioWf b && phase < 2048
  | .cueFrame _ h b => headWf h 16 && cueWf b
  | .claimFrame _ h b => headWf h 2 && claimWf b
  | .releaseFrame _ h b => headWf h 2 && releaseWf b
  | .ownerSilenceExpiry _ _ => true
  | .claimWindowExpiry _ _ => true
  | .yieldTimeout _ _ => true
  | .cartOpen _ r f => requestWf r 22 && cartFieldsWf f
  | .cartData _ r cart off payload => requestWf r (10 + payload.length) && fits 4 cart && fits 4 off
  | .cartClose _ r cart => requestWf r 4 && fits 4 cart
  | .cartDrop _ r cart => requestWf r 4 && fits 4 cart
  | .entryAdd _ r f => requestWf r 28 && entryFieldsWf f
  | .entryRemove _ r tag => requestWf r 4 && fits 4 tag
  | .spotsSet _ r f => requestWf r (14 + 5 * f.spots.length) && spotFieldsWf f
  | .spotsClear _ r tag => requestWf r 4 && fits 4 tag
  | .fillsSet _ r bed fills =>
    requestWf r (6 + 4 * fills.length) && bed.all (fits 4) && fits 1 fills.length && fills.all (fits 4)
  | .handBack _ r => requestWf r 0
  | .resume _ r => requestWf r 0
  | .logRead _ r start count => requestWf r 5 && fits 4 start && fits 1 count
  | .captureRead _ r cls => requestWf r 1 && fits 1 cls
  | .captureClear _ r cls => requestWf r 1 && fits 1 cls
  | .restart _ r config => requestWf r 0 && configWf config
  | .fireLineInput _ _ _ => true
  | .fireLineStable _ _ => true
  | .armTimeReached _ _ => true
  | .softTimeReached _ _ tag => tagWf tag
  | .hardTimeReached _ _ tag => tagWf tag
  | .startTimeReached _ _ => true
  | .breakStart _ _ _ => true
  | .swapOutStart _ _ _ => true
  | .swapInStart _ _ _ => true
  | .itemDueTime _ _ _ => true
  | .rejoin _ _ _ => true
  | .rampEnd _ _ => true
  | .cartEnd _ _ => true
  | .judgePoint _ _ => true
  | .primingTransferComplete _ e => eccWf e
  | .refillComplete _ e => eccWf e
  | .loadWriteComplete _ => true
  | .verifyReadComplete _ e => eccWf e
  | .relaySlotJudge _ _ => true
  | .audioFrameSend _ _ => true
  | .meterBlockEnd _ _ _ => true
  | .echoBlockEnd _ _ => true
  | .echoOpenBlockTimeout _ _ => true
  | .tapCompletion _ _ block _ => fitsTime block && block % 4800 == 0
  | .historyEntryLeave _ _ => true
  | .blockLeavesRing _ _ => true
  | .loopToInCue _ _ => true
  | .cutAtTheRejoin _ _ _ => true
  | .bedRampStart _ _ _ => true
  | .unknownRequest _ r kind =>
    headWf r.head 12 && fits 2 r.tag && fits 1 kind && (addrUnknown r.addr || (addrKnown r.addr && (kind == 0 || 15 < kind)))

end Sys2Proof
end

