-- ==== Sys2Proof/Certificates/Slice0/Obligations.lean ====
section
/-! DEFINITION. The statements for the provers. Where a command's statement gives its next state as `u.finish a`, `u` is the whole state its
own effect leaves, every field it does not name unchanged, and `a` the state it found; `finish` is what then comes about by itself, and the
numbers the command's records take (`QuietCommandsEndAsTheyAre` and `WhatComesAboutLeaves`). -/

open Sys2Proof Sys2Proof.Machine
/-! ### The machine -/

/-- A step runs the command at the front of the queue on the state with the queue's rest. -/
def Obligations.StepRunsFrontCommand : Prop :=
  ∀ (c : Instr) (rest : List Instr) (s : State), s.pending = c :: rest → step s = exec c { s with pending := rest }

/-- The model's choice (log entries 1, 2): with no command waiting one sample passes, if the unit is powered, and a unit whose power is off
does nothing at any command but POWER_ON. -/
def Obligations.IdleAndUnpoweredSteps : Prop :=
  (∀ s : State, s.pending = [] → step s = .next (if s.powered then s.elapse 1 else s)) ∧
    ∀ (c : Instr) (s : State), s.powered = false → (∀ dt link config, c ≠ .powerOn dt link config) → exec c s = .next s

/-- What passing samples change (R42, R73, R76, R80, R95, R127, R147, R157): the sample clock and group time count them, a sounding voice has
sounded them up to the end of its pass, a sending outlet's samples join those to be framed and checked, and those its programme meter
takes, the source meter takes what the relay has, the relay's position moves on. After a step of group time the echo check takes a sending
outlet's samples up again with the first frame that begins after it. -/
def Obligations.TimePasses : Prop :=
  ∀ (s : State) (n : Nat),
    (∃ (voices : List Voice) (outlets : Quad Outlet),
      s.elapse n =
          { s with
            clock := s.clock + n
            disc :=
              { s.disc with
                groupTime := s.disc.groupTime.map fun t => t + (n : Int)
                candidate := s.disc.candidate.map fun c => (c.1 + (n : Int), c.2) }
            voices := voices
            outlets := outlets } ∧
        (∀ i u, s.voice i = some u →
          (s.elapse n).voice i =
            some { u with sounded := if u.sounding then max u.sounded (min (u.sounded + n) u.passEnd) else u.sounded }) ∧
        (∀ i, s.voice i = none → (s.elapse n).voice i = none)) ∧
    ∀ o, 0 < n →
      (((s.elapse n).out o).unsent = (s.out o).unsent ++ (if (s.out o).air.sends then [s.mixSpan o n] else [])) ∧
        ((s.out o).air.sends = false → ((s.elapse n).out o).echoBuf = (s.out o).echoBuf ∧
          ((s.elapse n).out o).programme = (s.out o).programme) ∧
        ((s.out o).air.sends = true →
          (let cut := ((-(s.mixSpan o n).time) % 48).toNat;
            ((s.out o).echoSkip = false → ((s.elapse n).out o).echoBuf = (s.out o).echoBuf ++ [s.mixSpan o n]) ∧
            ((s.out o).echoSkip = true → n ≤ cut → ((s.elapse n).out o).echoBuf = (s.out o).echoBuf) ∧
            ((s.out o).echoSkip = true → cut < n →
              ((s.elapse n).out o).echoBuf = (s.out o).echoBuf ++ [(s.mixSpan o n).drop cut] ∧ ((s.mixSpan o n).drop cut).time % 48 = 0)) ∧
          ((s.elapse n).out o).programme =
            if (s.out o).programme.running then
              { (s.out o).programme with buf := (s.out o).programme.buf ++ [s.mixSpan o n] }
            else (s.out o).programme) ∧
          ((s.elapse n).out o).source =
              (if (s.out o).source.running then { (s.out o).source with buf := (s.out o).source.buf ++ [s.sourceSpan o n] }
               else (s.out o).source) ∧
          ((s.elapse n).out o).relay = { (s.out o).relay with position := (s.out o).relay.position.map fun p => p + (n : Int) } ∧
            ((s.elapse n).out o).air = (s.out o).air ∧ ((s.elapse n).out o).entries = (s.out o).entries

/-- A command whose effect leaves nothing ready to come about ends with that effect, its records put in order; one that has written no
record ends as it is. -/
def Obligations.QuietCommandsEndAsTheyAre : Prop :=
  ∀ s a : State, s.Quiet → s.finish a = s.numbered a ∧ (s.log.next = a.log.next → s.finish a = s)

/-- What comes about by itself at the end of a command never touches the configuration, the clocks, the peer table, isolation, the owner
views, the fill pools, the beds, the fire lines' inputs or the memory, starts or ends no outlet's sending, takes back no frame sent, and
only adds to the log: the records a command that found the unit as `a` has written stay, apart from their numbers. Of the records of one
command no outlet's stand between those of another (R164), and an outlet's, entry by entry, in the list order in which the command found
the entries (R16); that the groups stand in the order of their first records is log entry 58. -/
def Obligations.WhatComesAboutLeaves : Prop :=
  ∀ s a : State,
    let f := s.finish a
    (f.cfg = s.cfg ∧ f.clock = s.clock ∧ f.disc = s.disc ∧ f.peers = s.peers ∧ f.isolated = s.isolated ∧ f.store.mem = s.store.mem ∧
      f.pending = s.pending ∧ f.listenSince = s.listenSince ∧ f.beaconSince = s.beaconSince) ∧
    (∀ o, (f.out o).view = (s.out o).view ∧ (f.out o).fills = (s.out o).fills ∧ (f.out o).bed = (s.out o).bed ∧
      (f.out o).air.sends = (s.out o).air.sends) ∧
    (∀ (k : Nat) (l : FireLine), s.lines[k]? = some l →
      ∃ m : FireLine, f.lines[k]? = some m ∧ m.state = l.state ∧ m.active = l.active ∧ m.since = l.since) ∧
    s.sent <+: f.sent ∧
    ∀ l, a.log.Wrote s.log l →
      ∃ m, a.log.Wrote f.log m ∧ (∀ r ∈ l, ∃ q ∈ m, q.unnumbered = r.unnumbered) ∧
        (a.log.records.length ≤ 8192 → m.length ≤ 8192 →
          ∀ (i j : Nat) (x z : Record), i < j → m[i]? = some x → m[j]? = some z → x.outlet = z.outlet →
            (∀ (k : Nat) (y : Record), i < k → k < j → m[k]? = some y → y.outlet = x.outlet) ∧
            ∀ (n p : Nat) (d e : Entry), (a.out x.outlet).entries[n]? = some d → (a.out x.outlet).entries[p]? = some e →
              ((a.out x.outlet).entries.map Entry.tag).Nodup → x.entryTag = some d.tag → z.entryTag = some e.tag → n ≤ p)

/-- The machine right after reset (R1, R19, R43, R87, R106, R108, R124, R128, R164, R171, R186, R193): nothing sent or held, every outlet
DARK before its configuration is read, all pages free, every invariant of the statements below met. Link address, configuration and power are
the model's choice (log entries 2, 3). -/
def Obligations.ResetHoldsNothing : Prop :=
  (State.reset.pending = [] ∧ State.reset.sent = [] ∧ State.reset.peers = [] ∧ State.reset.log.records = [] ∧ State.reset.log.next = 1 ∧
    (∀ k, State.reset.captures.slot k = { first := none, lost := 0 }) ∧ State.reset.store.versions = [] ∧
      State.reset.store.serialCounter = 0 ∧ State.reset.disc.groupTime = none ∧ State.reset.disc.trim = 0 ∧
        (∀ i, State.reset.voice i = none) ∧ ∀ o, (State.reset.out o).air = .dark ∧ (State.reset.out o).entries = [] ∧
          (State.reset.out o).spots = [] ∧ (State.reset.out o).view = none) ∧
    State.reset.Bounded ∧ State.reset.store.Paged ∧ State.reset.log.Run

/-- Every step keeps the unit in bounds (R1, R19, R32, R80, R83, R87, R108, R111, R165, R172, R173, R186): among them, the entries ARMED are
those of the two slots, the anchor slot's HARD; no cart has a third version; and each use count is the number of voices that hold the
version, which stays in the directory while one does. -/
def Obligations.EveryStepKeepsBounds : Prop :=
  ∀ s t : State, s.Bounded → step s = .next t → t.Bounded

/-- Every step keeps the pages shared out (R106): each of the 524,288 pages stands exactly once, in the free page list or in the chain of
one version, and every version has the pages its length needs (R107). -/
def Obligations.EveryStepKeepsPagesSharedOut : Prop :=
  ∀ s t : State, s.store.Paged → step s = .next t → t.store.Paged

/-- Every step keeps the log one unbroken run of the latest records (R165). -/
def Obligations.EveryStepKeepsLogOneRun : Prop :=
  ∀ s t : State, s.log.Run → step s = .next t → t.log.Run

/-- The log keeps a next sequence count (R164): 1 after power-on; every other command's records take its numbers one by one, and the log
then holds the latest of all its records, up to 8,192. -/
def Obligations.LogNumbersRecordsInSequence : Prop :=
  (∀ (s t : State) dt link config, exec (.powerOn dt link config) s = .next t → t.log.next = 1 ∧ t.log.records = []) ∧
    ∀ (c : Instr) (s t : State), (∀ dt link config, c ≠ .powerOn dt link config) → exec c s = .next t → ∃ l, s.log.Wrote t.log l

/-- A unit that is ISOLATED sends nothing and stays so until power-on, and every request is dropped with no effect (R145, R195). -/
def Obligations.IsolatedUnitIsSilent : Prop :=
  ∀ (c : Instr) (s t : State), s.isolated = true → (∀ dt link config, c ≠ .powerOn dt link config) → exec c s = .next t →
    t.isolated = true ∧ t.sent = s.sent ∧ ((requestHead c).isSome = true → s.powered = true → t = s.elapse (dtOf c))

/-- No command but POWER_ON and RESTART changes the configuration, the boot reason or which voices are set aside (R87, R192), and every
command but POWER_ON leaves the link address, the power and the queue, and lets the sample clock count the samples passed. -/
def Obligations.ConfigurationChangesOnlyAtAStart : Prop :=
  ∀ (c : Instr) (s t : State), exec c s = .next t →
    t.pending = s.pending ∧
      ((∀ dt link config, c ≠ .powerOn dt link config) →
        t.linkAddress = s.linkAddress ∧ t.powered = s.powered ∧ t.clock = (if s.powered then s.clock + dtOf c else s.clock) ∧
          ((∀ dt req config, c ≠ .restart dt req config) →
            t.cfg = s.cfg ∧ t.configMemory = s.configMemory ∧ t.boot = s.boot ∧
              t.voices.map Voice.reserved = s.voices.map Voice.reserved))

/-- No frame sent is taken back, and a version, once made, keeps its cart, serial, kind, length, cues, trim, check value and pages (R109):
after any command but POWER_ON and CART_OPEN every version is one of those held before. -/
def Obligations.VersionsKeepWhatTheyWereOpenedWith : Prop :=
  ∀ (c : Instr) (s t : State), exec c s = .next t → (∀ dt link config, c ≠ .powerOn dt link config) →
    s.sent <+: t.sent ∧ ((∀ dt req f, c ≠ .cartOpen dt req f) →
      (t.store.versions.map Version.fixed).Sublist (s.store.versions.map Version.fixed) ∧
        t.store.serialCounter = s.store.serialCounter)

/-- A locked slot keeps its first fault until a power-on, a RESTART or a CAPTURE_CLEAR (R171, R172). -/
def Obligations.FirstFaultsStay : Prop :=
  ∀ (c : Instr) (s t : State) (k : FaultClass) (f : FaultInfo), exec c s = .next t →
    (∀ dt link config, c ≠ .powerOn dt link config) → (∀ dt req config, c ≠ .restart dt req config) →
      (∀ dt req cls, c ≠ .captureClear dt req cls) → (s.captures.slot k).first = some f → (t.captures.slot k).first = some f

/-- An entry leaves its running order with its as-run record (R16): after any command but POWER_ON and RESTART, an entry that an outlet held
and holds no more has, among the records the command wrote, one of source ENTRY with its tag and its outlet, and where nothing was written
every outlet holds the entries it held, in their order, with ENTRY_ADD those among its entries. -/
def Obligations.EntriesLeaveWithRecords : Prop :=
  ∀ (c : Instr) (s t : State) (o : OutletId), exec c s = .next t →
    (∀ dt link config, c ≠ .powerOn dt link config) → (∀ dt req config, c ≠ .restart dt req config) →
      (∃ l, s.log.Wrote t.log l ∧ ∀ e ∈ (s.out o).entries, (∀ d ∈ (t.out o).entries, d.tag ≠ e.tag) →
        ∃ r ∈ l, r.source = .entry ∧ r.entryTag = some e.tag ∧ r.outlet = o) ∧
      (s.log.next < t.log.next ∨ ((s.out o).entries.map Entry.tag).Sublist ((t.out o).entries.map Entry.tag) ∧
        ((∀ dt req f, c ≠ .entryAdd dt req f) → (t.out o).entries.map Entry.tag = (s.out o).entries.map Entry.tag))

/-- Whether an outlet sends changes only at a RELEASE frame or the end of its claim window (R131, R132), at an AUDIO frame (R134, R136), at
a beacon that isolates its unit (R145), at a RESTART (R146) and at power-on. -/
def Obligations.SendingChangesOnlyAtTheseCommands : Prop :=
  ∀ (c : Instr) (s t : State) (o : OutletId), exec c s = .next t → (s.out o).air.sends ≠ (t.out o).air.sends →
    (∃ dt head body, c = .releaseFrame dt head body) ∨ (∃ dt p, c = .claimWindowExpiry dt p) ∨
      (∃ dt head body phase, c = .audioFrame dt head body phase) ∨ ((∃ dt head body, c = .beaconReceived dt head body) ∧ t.isolated = true) ∨
        (∃ dt req config, c = .restart dt req config) ∨ ∃ dt link config, c = .powerOn dt link config

/-! ### Frames and requests -/

/-- The check values the specification gives (R184): of no bytes, and of the characters "123456789". -/
def Obligations.CheckValuesOfTheSpecification : Prop :=
  crc32 [] = 0#32 ∧ crc32 [0x31, 0x32, 0x33, 0x34, 0x35, 0x36, 0x37, 0x38, 0x39] = 0xCBF43926#32

/-- Bytes and commands agree (R178 to R182): the bytes of a well-formed command that a frame carries are read back as that command, with
every field at every value its place can hold. The order of the fields' bytes where the text leaves it open is log entry 17. -/
def Obligations.FramesAreReadBack : Prop :=
  ∀ (c : Instr) (bytes : List Byte), c.wf = true → commandBytes c = some bytes → readFrame (arrivalOf c) bytes = some c

/-- A frame with an unsound header, from the unit's own link address or node id, too short, or with a feed, rank, tag, mark, successor or
frame time its rule discards, changes nothing (R177 to R181). That a beacon of any role but UNIT is long enough with its fixed part is log
entry 27. -/
def Obligations.DiscardedFramesChangeNothing : Prop :=
  ∀ (s : State) (dt : Nat) (h : FrameHead), s.powered = true →
    (∀ (b : AudioBody) (phase : Nat), (¬ s.Hears h 314 ∨ b.feed = 0 ∨ 64 < b.feed ∨ b.frameTime % 48 ≠ 0) →
      exec (.audioFrame dt h b phase) s = .next (s.elapse dt)) ∧
    (∀ b : CueBody, (¬ s.Hears h 16 ∨ b.feed = 0 ∨ 64 < b.feed ∨ b.tag = 0 ∨ 1 < b.cancel) →
      exec (.cueFrame dt h b) s = .next (s.elapse dt)) ∧
    (∀ b : ClaimBody, (¬ s.Hears h 2 ∨ b.feed = 0 ∨ 64 < b.feed ∨ 7 < b.rank) →
      exec (.claimFrame dt h b) s = .next (s.elapse dt)) ∧
    (∀ b : ReleaseBody, (¬ s.Hears h 2 ∨ b.feed = 0 ∨ 64 < b.feed ∨ 63 < b.successor) →
      exec (.releaseFrame dt h b) s = .next (s.elapse dt)) ∧
    ∀ b : BeaconBody, (h.link = s.linkAddress ∨ h.mark ≠ 0xE410 ∨ h.sender = 0 ∨ 63 < h.sender ∨ h.bodyLen < 14 ∨
        b.role = 1 ∧ h.bodyLen < 186) →
      exec (.beaconReceived dt h b) s = .next (s.elapse dt)

/-- The order of judgement of a request (R188, R189, R190, R195): dropped while isolated or unsound; from a foreign sender dropped with
FOREIGN_SENDER; MALFORMED with no outlet where its addressing cannot be read; ignored where it is not addressed to the unit; MALFORMED
where the body is too short for the fields of its kind. -/
def Obligations.RequestsAreJudgedInOrder : Prop :=
  ∀ (c : Instr) (req : RequestHead) (s : State), requestHead c = some req → s.powered = true →
    let a := s.elapse (dtOf c)
    let bad : FaultInfo := { FaultInfo.bare .malformed with node := some req.head.sender }
    ((s.isolated = true ∨ ¬ s.Hears req.head 12) → exec c s = .next a) ∧
    (s.isolated = false → s.Hears req.head 12 →
      (req.head.sender ∉ s.cfg.stations →
        exec c s = .next (a.latch { FaultInfo.bare .foreignSender with node := some req.head.sender })) ∧
      (req.head.sender ∈ s.cfg.stations →
        (¬ addressingReads c req → (∀ dt r k, c = .unknownRequest dt r k → k = 0 ∨ 15 < k ∨ ∃ code, r.addr = .unknown code) →
          exec c s = .next ((a.answers req (requestKind c) none .malformed .none).latch bad)) ∧
        (addressingReads c req → ¬ s.Addressed req → exec c s = .next a) ∧
        (addressingReads c req → s.Addressed req → req.head.bodyLen < 12 + fieldBytes c →
          (∀ dt r k, c ≠ .unknownRequest dt r k) →
          ∃ o, (∀ f, req.addr = .feed f → ∃ p, o = some p ∧ (s.ocfg p).feed = f) ∧ ((∃ m, req.addr = .unitMask m) → o = none) ∧
            exec c s = .next ((a.answers req (requestKind c) o .malformed .none).latch bad))))

/-- What it takes for a request by unit mask, and for one by feed, to reach its owner (R188, steps 1 to 3, R189), and that it then does. -/
def Obligations.RequestsReachTheirOwner : Prop :=
  ∀ (s : State) (req : RequestHead),
    (s.unitGate req = .unit ↔
      s.isolated = false ∧ s.Hears req.head 12 ∧ req.head.sender ∈ s.cfg.stations ∧
        ∃ m, req.addr = .unitMask m ∧ m.testBit s.cfg.nodeId = true) ∧
    (∀ o, s.feedGate req = .outlet o → s.isolated = false ∧ s.Hears req.head 12 ∧ req.head.sender ∈ s.cfg.stations ∧
      (s.ocfg o).valid = true ∧ (s.out o).air ≠ .dark ∧ 1 ≤ (s.ocfg o).feed ∧ (s.ocfg o).feed ≤ 64 ∧ req.addr = .feed (s.ocfg o).feed) ∧
    ∀ o f, s.isolated = false → s.Hears req.head 12 → req.head.sender ∈ s.cfg.stations → req.addr = .feed f → s.Carries o f →
      s.feedGate req = .outlet o

/-- UNKNOWN_REQUEST (R188, R190): a request of a kind outside 1 to 15 or of an unknown addressing mode, from an accepted station, is
answered MALFORMED with no outlet, and MALFORMED is latched. -/
def Obligations.UnknownRequestsAreAnsweredMalformed : Prop :=
  ∀ (s : State) (dt : Nat) (req : RequestHead) (kind : Nat), s.powered = true → s.isolated = false → s.Hears req.head 12 →
    req.head.sender ∈ s.cfg.stations → (kind = 0 ∨ 15 < kind ∨ ∃ code, req.addr = .unknown code) →
      exec (.unknownRequest dt req kind) s =
        .next (((s.elapse dt).answers req kind none .malformed .none).latch
          { FaultInfo.bare .malformed with node := some req.head.sender })

/-- LOG_READ (R169): answered OK with the oldest held number, the next sequence and the records of the range, at most 16, that are held. -/
def Obligations.LogReadAnswersTheRange : Prop :=
  ∀ (s : State) (dt : Nat) (req : RequestHead) (start count : Nat), s.TakesUnit req 5 →
    exec (.logRead dt req start count) s =
      .next ((s.elapse dt).answers req 12 none .ok
        (.log (s.log.records.head?.map Record.seq) s.log.next
          (s.log.records.filter fun r => decide (start ≤ r.seq ∧ r.seq < start + min 16 count))))

/-- CAPTURE_READ names one class (R174): answered MALFORMED, with MALFORMED latched, for a class other than the five; otherwise OK with the
slot as it stands, with STORE the corrected count, and nothing is changed. -/
def Obligations.CaptureReadAnswersTheSlot : Prop :=
  ∀ (s : State) (dt : Nat) (req : RequestHead) (cls : Nat), s.TakesUnit req 1 →
    ((∀ k, FaultClass.code k ≠ cls) →
      exec (.captureRead dt req cls) s =
        .next (((s.elapse dt).answers req 13 none .malformed .none).latch
          { FaultInfo.bare .malformed with node := some req.head.sender })) ∧
    ∀ k, FaultClass.code k = cls →
      exec (.captureRead dt req cls) s =
        .next ((s.elapse dt).answers req 13 none .ok (.slot k (s.captures.slot k) (if k = .store then s.captures.corrected else 0)))

/-- CAPTURE_CLEAR names one class (R175): answered as CAPTURE_READ is; then the slot is unlocked, with no first fault and no lost count,
for STORE the corrected count is 0, and the next fault of the class becomes its first fault. -/
def Obligations.CaptureClearEmptiesTheSlot : Prop :=
  ∀ (s : State) (dt : Nat) (req : RequestHead) (cls : Nat), s.TakesUnit req 1 →
    ((∀ k, FaultClass.code k ≠ cls) →
      exec (.captureClear dt req cls) s =
        .next (((s.elapse dt).answers req 14 none .malformed .none).latch
          { FaultInfo.bare .malformed with node := some req.head.sender })) ∧
    ∀ k, FaultClass.code k = cls →
      ∃ c : Captures,
        exec (.captureClear dt req cls) s =
          .next
            { (s.elapse dt).answers req 14 none .ok (.slot k (s.captures.slot k) (if k = .store then s.captures.corrected else 0)) with
              captures := c } ∧
        (∀ j, c.slot j = if j = k then { first := none, lost := 0 } else s.captures.slot j) ∧
        c.corrected = (if k = .store then 0 else s.captures.corrected) ∧
        ∀ (t : State) (f : FaultInfo), t.captures = c → f.kind.cls = k →
          (t.latch f).captures.slot k = { first := some { f with time := t.disc.groupTime }, lost := 0 }

/-- A latch acts on the slot of its kind's class alone (R172): an unlocked slot takes the fault with the group time of the latch, a locked
one keeps its first fault and counts one more lost, up to 65,535. -/
def Obligations.LatchesLockTheSlot : Prop :=
  ∀ (s : State) (f : FaultInfo),
    (∀ k, k ≠ f.kind.cls → (s.latch f).captures.slot k = s.captures.slot k) ∧
    (s.latch f).captures.corrected = s.captures.corrected ∧
    ((s.captures.slot f.kind.cls).first = none →
      (s.latch f).captures.slot f.kind.cls =
        { first := some { f with time := s.disc.groupTime }, lost := (s.captures.slot f.kind.cls).lost }) ∧
    ∀ g, (s.captures.slot f.kind.cls).first = some g →
      (s.latch f).captures.slot f.kind.cls = { first := some g, lost := min 65535 ((s.captures.slot f.kind.cls).lost + 1) }

/-! ### Starts, beacons and peers -/

/-- The configuration record and its settlement (R191, R192): `byte i` is its byte at offset `i`, `four i` the number of the four bytes
from there. That an invalid record leaves every outlet and line disabled is the model's choice (log entry 3). -/
def Obligations.ConfigurationIsSettled : Prop :=
  ∀ l : List Byte,
    let c := settleConfig l
    let byte (i : Nat) : Nat := (l.getD i 0).toNat
    let four (i : Nat) : Nat := byte i + 256 * byte (i + 1) + 65536 * byte (i + 2) + 16777216 * byte (i + 3)
    (recordValid l = true ↔ l.length = 96 ∧ byte 0 = 0x11 ∧ byte 1 = 0xE4 ∧ four 92 = (crc32 (l.take 92)).toNat) ∧
    (configIsolates l = true ↔ recordValid l = false ∨ c.nodeId = 0 ∨ 63 < c.nodeId) ∧
    (recordValid l = false → c.stations = [] ∧ (∀ o, (c.outlets.get o).valid = false ∧ (c.outlets.get o).enabled = false) ∧
      ∀ n ∈ c.lines, n.enabled = false) ∧
    (recordValid l = true →
      c.nodeId = byte 2 ∧ c.refFeed = (if byte 3 ≤ 64 then byte 3 else 0) ∧
      (∀ n, n ∈ c.stations ↔ (n = byte 4 ∨ n = byte 5) ∧ 1 ≤ n ∧ n ≤ 63 ∧ n ≠ byte 2) ∧
      (∀ o : OutletId,
        let k := 8 + 9 * o.code
        let x := c.outlets.get o
        x.enabled = decide (byte k ≠ 0) ∧ x.rank = min 7 (byte (k + 4)) ∧
        x.fallbackCart = (if 1 ≤ four (k + 5) ∧ four (k + 5) ≤ 999999 then some (four (k + 5)) else none) ∧
        (x.valid = true ↔
          byte k ≠ 0 ∧ 1 ≤ byte (k + 2) ∧ byte (k + 2) ≤ 64 ∧
            (byte (k + 1) = 1 ∨ byte (k + 1) = 2 ∧ 1 ≤ byte (k + 3) ∧ byte (k + 3) ≤ 64 ∧ byte (k + 3) ≠ byte (k + 2)) ∧
              ∀ p : OutletId, p.code < o.code → (c.outlets.get p).valid = true → (c.outlets.get p).feed ≠ byte (k + 2)) ∧
        (x.valid = true → x.feed = byte (k + 2) ∧ x.mode = some (if byte (k + 1) = 1 then .self else .follow) ∧
          (byte (k + 1) = 2 → x.followFeed = byte (k + 3)))) ∧
      ∀ n, n < 8 →
        let k := 44 + 6 * n
        ∃ x, c.lines[n]? = some x ∧
          (x.enabled = true ↔ byte k ≠ 0 ∧ byte (k + 1) ≤ 3 ∧ 1 ≤ four (k + 2) ∧ four (k + 2) ≤ 999999) ∧
          (x.enabled = true → x.outlet.code = byte (k + 1) ∧ x.cart = four (k + 2)))

/-- POWER_ON (R193): every block in its power-on state under the record just settled, outlets LISTENING or DARK, the voices set aside and
free (R87), and the first beacon sent unless the record isolates the unit. Link address, record and power come with the command, and the
queue, the frames already sent and the free values are the model's own (log entries 2, 4). That a line's level is inactive, and what an
invalid record settles, is log entry 3, and that the memory reads 0 log entry 5. -/
def Obligations.PowerOnStartsTheUnit : Prop :=
  ∀ (s : State) (dt link : Nat) (config : List Byte), ∃ t, exec (.powerOn dt link config) s = .next t ∧
    t.pending = s.pending ∧ t.freeCount = s.freeCount ∧ t.powered = true ∧ t.linkAddress = link ∧ t.configMemory = config ∧
    t.cfg = settleConfig config ∧ t.isolated = configIsolates config ∧ t.boot = .powerOn ∧ t.clock = 0 ∧ t.listenSince = some 0 ∧
    t.beaconSince = 0 ∧ t.peers = [] ∧ t.log = State.reset.log ∧ t.captures = State.reset.captures ∧ t.store = State.reset.store ∧
    t.disc = { State.reset.disc with state := if t.cfg.refFeed = 0 then .free else .acquiring } ∧
    t.transfer = none ∧ t.voiceQueue = [] ∧ t.horizon = none ∧ t.voices.length = 12 ∧ (∀ i, t.voice i = none) ∧
    (∀ o, (t.voices.map Voice.reserved).count (some o) = if (t.ocfg o).enabled then 2 else 0) ∧
    (∀ o,
      t.out o =
        { (State.reset.out o) with
          air := if (t.ocfg o).valid = true ∧ t.isolated = false then .listening else .dark
          source := if (t.ocfg o).valid = true ∧ t.isolated = false ∧ (t.ocfg o).mode = some .follow then .started else .reset
          cuePhase := 1 }) ∧
    t.lines = State.reset.lines ∧ t.sent = s.sent ++ (if t.isolated then [] else [t.frame (.beacon t.beacon)])

/-- RESTART (R194): answered OK, then for each sending outlet a RELEASE naming the successor of its yield, or else its best successor or 0
(R146), before anything else is sent; records are only added (R164); the unit is then as at a start, but for its group time and trim (R80),
and sends its first beacon last (R185). The store keeps its serial counter and its READY and QUARANTINED versions, unless one a voice holds
turns QUARANTINED as that ends with bad data or a failed stream check (R103, R104, R121); RETIRING and LOADING versions and the load receive
queue go, and a VERIFYING version stays in the verify queue, or with bytes missing ends QUARANTINED (R124). That the RELEASE frames follow the
answer at once, in letter order, is the model's reading (log entry 33), and that versions that fall short end in directory order log entry
66. -/
def Obligations.RestartStartsAfresh : Prop :=
  ∀ (s : State) (dt : Nat) (req : RequestHead) (config : List Byte), s.TakesUnit req 0 →
    let a := s.elapse dt
    let successor (o : OutletId) : Nat :=
      match (s.out o).yielding with
      | some y => y.successor
      | none => (s.bestSuccessor o).getD 0
    let releases := (OutletId.all.filter fun o => (s.out o).air.sends).map fun o =>
      a.frame (.release { feed := (s.ocfg o).feed, successor := successor o })
    ∃ t, exec (.restart dt req config) s = .next t ∧
      (∃ rest, t.sent = (a.answers req 15 none .ok .none).sent ++ releases ++ rest) ∧
      t.cfg = settleConfig config ∧ t.configMemory = config ∧ t.isolated = configIsolates config ∧ t.boot = .restartRequest ∧
      t.peers = [] ∧ t.captures = State.reset.captures ∧ t.clock = s.clock + dt ∧ t.listenSince = some t.clock ∧
      t.beaconSince = t.clock ∧
      t.disc =
        { a.disc with state := if t.cfg.refFeed = 0 then .free else .tracking, rejected := 0, window := none, candidate := none } ∧
      (∃ l, s.log.Wrote t.log l) ∧ t.store.serialCounter = s.store.serialCounter ∧
      (∀ i, t.voice i = none) ∧ (∀ o, (t.voices.map Voice.reserved).count (some o) = if (t.ocfg o).enabled then 2 else 0) ∧
      (∀ o,
        (t.out o).air = (if (t.ocfg o).valid = true ∧ t.isolated = false then .listening else .dark) ∧ (t.out o).entries = [] ∧
          (t.out o).spots = [] ∧ (t.out o).fills = [] ∧ (t.out o).bed = none ∧ (t.out o).place1 = none ∧ (t.out o).place2 = none ∧
          (t.out o).relay = (State.reset.out o).relay ∧ (t.out o).view = none ∧ (t.out o).passed = [] ∧ (t.out o).history = []) ∧
      (t.isolated = false → t.sent.getLast? = some (t.frame (.beacon t.beacon))) ∧
      (s.Bounded → s.store.Paged →
        t.store.loadQueue = [] ∧ t.store.verifyQueue.Sublist s.store.verifyQueue ∧
        (∀ w ∈ t.store.versions, w.useCount = 0 ∧ w.state ≠ .retiring ∧ w.state ≠ .loading ∧ (w.state = .verifying → w.bytes ≤ w.written)) ∧
        ∀ v ∈ s.store.versions,
          (v.role = .current → v.state = .ready ∨ v.state = .quarantined →
            ∃ w ∈ t.store.versions, w.fixed = v.fixed ∧ w.role = .current ∧ (w.state = v.state ∨ w.state = .quarantined ∧ v.useCount ≠ 0)) ∧
          (v.state = .retiring ∨ v.state = .loading → ∀ w ∈ t.store.versions, w.key = v.key → w.role = .discarding) ∧
          (v.state = .verifying → v.written < v.bytes →
            (v.role = .current → ∃ w ∈ t.store.versions, w.fixed = v.fixed ∧ w.role = .current ∧ w.state = .quarantined) ∧
            (v.role = .incoming → ∀ w ∈ t.store.versions, w.key = v.key → w.role = .discarding)) ∧
          (v.state = .verifying → v.bytes ≤ v.written →
            (∃ w ∈ t.store.versions, w.fixed = v.fixed ∧ w.role = v.role ∧ w.state = .verifying ∧ w.closeTag = v.closeTag) ∧
            (v.key ∈ s.store.verifyQueue → v.key ∈ t.store.verifyQueue)))

/-- LISTEN_TIME_END (R84, R130), 48,000 samples after the start: an unset group time becomes the candidate, or 0, and timed entries it has
passed become SEQUENCE (R5); each LISTENING outlet goes to STANDBY, and one that has heard no owner claims at once (R132). The candidate is
the time of sending of the first AUDIO frame of the listen time, which the first reference frame replaces once (R84), also after a RESTART
taken before group time was ever set (log entry 53). That the CLAIM frames of one sample go out in letter order is log entry 56. -/
def Obligations.ListenTimeEnds : Prop :=
  (∀ (s : State) (dt : Nat) (h : FrameHead) (b : AudioBody) (phase : Nat), s.powered = true → s.Hears h 314 → b.frameTime % 48 = 0 →
    1 ≤ b.feed → b.feed ≤ 64 →
    ∃ t, exec (.audioFrame dt h b phase) s = .next t ∧
      (s.disc.groupTime.isSome = true ∨ s.listenSince = none → t.disc.candidate = (s.elapse dt).disc.candidate) ∧
      (s.disc.groupTime = none → s.listenSince.isSome = true → t.disc.groupTime = none ∧
        ((s.elapse dt).disc.candidate = none → t.disc.candidate = some (h.sentAt, decide (s.cfg.refFeed = b.feed))) ∧
        ∀ c byRef, (s.elapse dt).disc.candidate = some (c, byRef) →
          t.disc.candidate = if s.cfg.refFeed = b.feed ∧ byRef = false then some (h.sentAt, true) else some (c, byRef))) ∧
  ∀ (s : State) (dt since : Nat), s.powered = true → s.listenSince = some since → since + 48000 ≤ s.clock + dt →
    let a := s.elapse dt
    let now : Time := a.disc.groupTime.getD ((a.disc.candidate.map Prod.fst).getD 0)
    let passed (e : Entry) : Entry :=
      if s.disc.groupTime = none ∧ e.state = .queued ∧
          (e.mode.softTime.any (fun t => decide (t ≤ now)) ∨ e.mode.hardTime.any (fun t => decide (t ≤ now))) then
        { e with mode := .sequence }
      else e
    let claims (o : OutletId) : Bool := (s.out o).air == .listening && !(s.out o).heard
    ∃ u : State,
      exec (.listenTimeEnd dt) s = .next (u.finish a) ∧
        u =
          { a with
            listenSince := none
            disc := { a.disc with groupTime := some now, candidate := if s.disc.groupTime = none then none else a.disc.candidate }
            sent := a.sent ++
              if s.isolated then []
              else (OutletId.all.filter claims).map fun o =>
                { sender := s.cfg.nodeId, link := s.linkAddress, sentAt := now, body := .claim { feed := (s.ocfg o).feed, rank := (s.ocfg o).rank } }
            outlets := u.outlets } ∧
        ∀ o, ∃ entries, entries = (s.out o).entries.map passed ∧
          u.out o =
            if (s.out o).air = .listening then
              { a.out o with
                entries := entries
                air := if (s.out o).heard then .standby else .claiming
                silenceSince := a.clock
                claimSince := if (s.out o).heard then (s.out o).claimSince else a.clock }
            else { a.out o with entries := entries }

/-- BEACON_SEND (R185, R180), 4,800 samples after the last beacon of a unit that is not ISOLATED: one beacon with the unit's clock, its
locked slots (R176), and an outlet block for each letter, with the programme meter, or the source meter of a FOLLOW outlet that does not send
(R157), and the clip count (R41). Two pending cues take turns (R46; which of two comes first is log entry 34). -/
def Obligations.BeaconsAreSent : Prop :=
  ∀ (s : State) (dt : Nat), s.powered = true → s.isolated = false → s.beaconSince + 4800 ≤ s.clock + dt →
    let a := s.elapse dt
    ∃ b : BeaconBody,
      exec (.beaconSend dt) s =
        .next { a.sends (.beacon b) with
                beaconSince := a.clock
                outlets := s.outlets.mapId fun o _ => { a.out o with cuePhase := (a.out o).cuePhase + 1 } } ∧
      b.role = 1 ∧ b.boot = (if s.boot = .powerOn then 1 else 2) ∧ b.timeSet = s.disc.groupTime.isSome ∧ b.groupTime = a.now ∧
      b.trim = s.disc.trim ∧
      b.clockState =
        (match s.disc.state with
          | .free => 0
          | .acquiring => 1
          | .tracking => 2
          | .holdover => 3) ∧
      (∀ k : FaultClass, b.mask.testBit (k.code - 1) = (s.captures.slot k).locked) ∧ b.mask < 32 ∧
      b.blocks.map OutletBlock.letter = [0, 1, 2, 3] ∧
      ∀ o : OutletId, ∃ k, b.blocks[o.code]? = some k ∧
        k.feed = (s.ocfg o).feed ∧ k.rank = (s.ocfg o).rank ∧ k.air = (s.out o).air.code ∧
        k.mode =
          (match (s.ocfg o).mode with
            | some .self => 1
            | some .follow => 2
            | none => 0) ∧
        k.leadTag = (if s.isFollow o then 0 else (s.out o).leadTag.getD 0) ∧
        ((s.out o).air = .dark → k.meter = -1200 ∧ k.silence = 0 ∧ k.clip = 0 ∧ k.cue = none ∧ k.echo = none) ∧
        ((s.out o).air ≠ .dark →
          (let m := if (s.out o).air.sends = false ∧ s.isFollow o = true then (a.out o).source else (a.out o).programme;
            k.meter = m.level ∧ k.silence = m.detector.code) ∧
          k.clip = min 4294967295 ((s.out o).clip + spansClips (a.out o).unsent) ∧ k.echo = (s.out o).echo ∧
            k.cue = (if s.isSelf o then (s.out o).pendingCue else none))

/-- BEACON_RECEIVED (R186): the sender's entry takes the beacon; without one it is added, in a full table in place of the STALE entry with
the oldest beacon, and with none STALE not at all. A node whose entry goes leaves every passed-over set (R129, R187). Of a unit's beacon the
four outlet blocks its required length holds are read, of any other none (R178, R180). After that, and the release rule (R138), each block's
pending cue is taken as a CUE frame of its feed would be (R48), and then each block's echo is judged by the outlet that carries its feed
(R149, `EchoesAreKept`). That fewer blocks are read as they are, and any role but UNIT as a traffic station's, is the model's reading (log
entries 43, 27). -/
def Obligations.BeaconsEnterThePeerTable : Prop :=
  (∀ (v : State) (h : FrameHead) (k : OutletBlock), v.powered = true →
    (k.cue = none → v.takeBlockCue h.sender k = v) ∧
    (∀ c : PendingCue, k.cue = some c →
      (c.tag = 0 → v.takeBlockCue h.sender k = v) ∧
      (c.tag ≠ 0 → v.Hears h 16 → 1 ≤ k.feed → k.feed ≤ 64 →
        exec (.cueFrame 0 h { feed := k.feed, tag := c.tag, start := c.start, len := c.len, cancel := 0 }) v =
          .next ((v.takeBlockCue h.sender k).finish v))) ∧
    (k.echo = none → v.takeBlockEcho k = v) ∧
    ∀ e : EchoReport, k.echo = some e →
      (∀ o, v.Carries o e.feed → v.takeBlockEcho k = v.judgeEcho o e) ∧
      ((∀ o, (v.ocfg o).valid = true → (v.ocfg o).feed = e.feed → (v.out o).air = .dark) → v.takeBlockEcho k = v)) ∧
  ∀ (s : State) (dt : Nat) (h : FrameHead) (b : BeaconBody), s.powered = true → s.Hears h (if b.role = 1 then 186 else 14) →
    let read : List OutletBlock := if b.role = 1 then b.blocks.take 4 else []
    let p : Peer :=
      { node := h.sender, isUnit := b.role == 1, arrival := s.clock + dt, stale := false
        summaries := read.map fun k => { feed := k.feed, mode := k.mode, air := k.air, rank := k.rank } }
    ∃ t, exec (.beaconReceived dt h b) s = .next t ∧
      ((∃ q ∈ s.peers, q.node = h.sender) → t.peers = s.peers.map fun q => if q.node = h.sender then p else q) ∧
      ((∀ q ∈ s.peers, q.node ≠ h.sender) →
        (s.peers.length < 48 → t.peers = s.peers ++ [p]) ∧
        (48 ≤ s.peers.length → (∀ q ∈ s.peers, q.stale = false) → t.peers = s.peers) ∧
        (48 ≤ s.peers.length → (∃ q ∈ s.peers, q.stale = true) →
          ∃ q ∈ s.peers, q.stale = true ∧ (∀ r ∈ s.peers, r.stale = true → q.arrival ≤ r.arrival) ∧
            t.peers = (s.peers.filter fun r => r.node != q.node) ++ [p])) ∧
      t.clock = s.clock + dt ∧ t.isolated = s.isolated ∧
      let v := (s.elapse dt).enterBeacon h.sender { b with blocks := read }
      v.peers = t.peers ∧ (∀ q ∈ s.peers, (∀ r ∈ t.peers, r.node ≠ q.node) → ∀ o, q.node ∉ (v.out o).passed) ∧
        t =
          (read.foldl (fun u k => u.takeBlockEcho k) (read.foldl (fun u k => u.takeBlockCue h.sender k) v.judgeReleases)).finish
            (s.elapse dt)

/-- A beacon with the unit's own node id from another link address isolates the unit (R145): it sends nothing from then on, every outlet is
DARK with its owner view and owner heard mark cleared, and the clock discipline, the peer table and the memory are left as they were. -/
def Obligations.OwnNodeIdIsolatesTheUnit : Prop :=
  ∀ (s : State) (dt : Nat) (h : FrameHead) (b : BeaconBody), s.powered = true → s.isolated = false → h.link ≠ s.linkAddress →
    h.mark = 0xE410 → 1 ≤ h.sender → h.sender ≤ 63 → (if b.role = 1 then 186 else 14) ≤ h.bodyLen → h.sender = s.cfg.nodeId →
    ∃ t, exec (.beaconReceived dt h b) s = .next t ∧ t.isolated = true ∧ t.sent = s.sent ∧ t.peers = s.peers ∧
      t.disc = (s.elapse dt).disc ∧ t.store.mem = s.store.mem ∧ (∃ l, s.log.Wrote t.log l) ∧
      ∀ o, (t.out o).air = .dark ∧ (t.out o).view = none ∧ (t.out o).heard = false

/-- PEER_STALE and PEER_REMOVED (R187): 14,400 samples after its beacon a peer becomes STALE, 96,000 samples after it the peer goes, and
with it its node id from every passed-over set (R129). An outlet in FALLBACK may then release (R138, `FallbackReleasesToATwin`). -/
def Obligations.PeersAge : Prop :=
  ∀ (s : State) (dt node : Nat), s.powered = true →
    let a := s.elapse dt
    ((∃ p ∈ s.peers, p.node = node ∧ p.stale = false ∧ p.arrival + 14400 ≤ s.clock + dt) →
      exec (.peerStale dt node) s =
        .next (({ a with peers := s.peers.map fun p => if p.node = node then { p with stale := true } else p } : State).judgeReleases.finish a)) ∧
    ((∃ p ∈ s.peers, p.node = node ∧ p.arrival + 96000 ≤ s.clock + dt) →
      exec (.peerRemoved dt node) s =
        .next
          (({ a with
             peers := s.peers.filter fun p => p.node != node
             outlets := s.outlets.mapId fun o _ => { a.out o with passed := (s.out o).passed.filter fun m => m != node } } :
              State).judgeReleases.finish a)) ∧
    ((∀ p ∈ s.peers, p.node = node → s.clock + dt < p.arrival + 14400) → exec (.peerStale dt node) s = .next a) ∧
    ((∀ p ∈ s.peers, p.node = node → s.clock + dt < p.arrival + 96000) → exec (.peerRemoved dt node) s = .next a)

/-! ### Gain, owner views and the clock -/

/-- The multiplier of a combined trim is 16,384 times 10 to the power g/20, rounded away from unity (R38, here in half-decibel steps, clamped as
R37 gives), and each channel is scaled by it to the nearest integer, halves away from zero (R39). Along a ramp the multiplier is m0 plus
(m1 - m0) times k over N truncated toward zero, and m1 from the ramp's end on; a ramp begun on a ramp starts from the value in force, and of
two ramps to silence the one that ends sooner stays (R40). Each channel of the mix is the exact sum of what the sounding voices and the relay
add, each sample scaled by its concealment factor and its multiplier (R41, R73, R77, R95, R101). -/
def Obligations.MultipliersScaleEachChannel : Prop :=
  multiplier 0 = 16384 ∧ (∀ g : Int, multiplier g = multiplier (max (-48) (min 12 g))) ∧
    (∀ k : Nat, 1 ≤ k → k ≤ 12 →
      (multiplier k - 1) ^ 40 < 16384 ^ 40 * 10 ^ k ∧ (16384 : Int) ^ 40 * 10 ^ k ≤ multiplier k ^ 40) ∧
    (∀ k : Nat, 1 ≤ k → k ≤ 48 →
      multiplier (-k) ^ 40 * 10 ^ k ≤ 16384 ^ 40 ∧ (16384 : Int) ^ 40 < (multiplier (-k) + 1) ^ 40 * 10 ^ k) ∧
    (∀ (f : SampleFrame) (m : Int), Rounds (f.scale m).l (f.l * m) 16384 ∧ Rounds (f.scale m).r (f.r * m) 16384) ∧
    (∀ (r : Ramp) (k : Nat),
      (r.n ≤ k → r.value (r.start + k) = r.m1) ∧
      (k < r.n →
        let moved := r.value (r.start + k) - r.m0
        let span := (r.m1 - r.m0) * (k : Int)
        moved.natAbs * r.n ≤ span.natAbs ∧ span.natAbs < (moved.natAbs + 1) * r.n ∧ 0 ≤ moved * span) ∧
      ∀ (m1 : Int) (n : Nat), r.retarget k m1 n = { start := k, m0 := r.value k, m1 := m1, n := n }) ∧
    (∀ (w : VoiceUse) (clock n : Nat), w.sounding = true →
      (w.state = .ramping → w.mult.stop ≤ clock + n → w.rampOut clock n = w) ∧
      (w.state = .playing ∨ clock + n < w.mult.stop →
        w.rampOut clock n = { w with state := .ramping, mult := { start := clock, m0 := w.mult.value clock, m1 := 0, n := n } })) ∧
    (∀ (w : VoiceUse) (clock k : Nat),
      (w.sounded + k < w.passEnd →
        w.contribution clock k =
          ((w.raw (w.sounded + k)).scale (rampsValue w.factor (clock + k))).scale (w.mult.value (clock + k))) ∧
      (w.passEnd ≤ w.sounded + k → w.contribution clock k = { l := 0, r := 0 })) ∧
    ∀ (s : State) (o : OutletId) (n k : Nat), k < n →
      let voices := (s.voices.filterMap Voice.use).filter fun w => w.outlet == o && w.sounding
      let relay : SampleFrame :=
        match s.isFollow o, (s.out o).relay.slot with
        | true, some (f, some samples) =>
          let p : Time := (s.out o).relay.position.getD 0 + k
          if f ≤ p ∧ p < f + 48 then
            ((samples.getD (p - f).toNat { l := 0, r := 0 }).scale ((s.out o).relay.conceal.value (s.clock + k))).scale
              ((s.out o).relay.mult.value (s.clock + k))
          else { l := 0, r := 0 }
        | _, _ => { l := 0, r := 0 }
      ∃ f : SampleFrame, ((s.mixSpan o n).samples n)[k]? = some f ∧
        f.l = relay.l + (voices.map fun w => (w.contribution s.clock k).l).sum ∧
        f.r = relay.r + (voices.map fun w => (w.contribution s.clock k).r).sum

/-- AUDIO_FRAME on the outlet of its feed (R128, R131, R132, R134, R136): its owner view is the frame, a CLAIMING outlet goes back to STANDBY,
and a sending one gives way to its named successor, or with DOUBLE_AIR to a better sender not YIELDING; otherwise it keeps the air. A STANDBY
outlet's silence timer starts again. Shadow advance (R18): on a SELF outlet that does not send, the entry the frame names becomes the one
ON_AIR entry and the lead, those before it leave AIRED_ELSEWHERE with their records in list order (R16), and a later one that was ON_AIR is
QUEUED again. -/
def Obligations.FramesGiveTheOwnerView : Prop :=
  ∀ (s : State) (dt : Nat) (h : FrameHead) (b : AudioBody) (phase : Nat) (o : OutletId),
    s.powered = true → s.Hears h 314 → b.frameTime % 48 = 0 → s.Carries o b.feed →
    let a := s.elapse dt
    let x := s.out o
    let view : OwnerView :=
      { node := h.sender, rank := b.rank, fallback := b.fallback, yielding := b.yielding, frameTime := b.frameTime,
        leadTag := b.leadTag, entryOffset := b.entryOffset, breakTag := b.breakTag, breakOffset := b.breakOffset,
        arrival := a.disc.groupTime }
    let named : Prop := x.air = .yielding ∧ x.yielding.map Yield.successor = some h.sender
    let beaten : Prop := s.Better o b.rank h.sender ∧ b.yielding = false
    (∃ t, exec (.audioFrame dt h b phase) s = .next t ∧ (t.out o).view = some view ∧ (t.out o).heard = true ∧
      (x.air = .listening → (t.out o).air = .listening) ∧ (x.air = .standby → (t.out o).air = .standby) ∧
      (x.air = .claiming → (t.out o).air = .standby) ∧
      (x.air.sends = true → named ∨ beaten → (t.out o).air = .standby) ∧
      (x.air.sends = true → ¬ named → beaten → (t.captures.slot .air).first.isSome = true) ∧
      (x.air.sends = true → ¬ named → ¬ beaten → (t.out o).air.sends = true)) ∧
    (x.air = .standby → s.disc.groupTime.isSome = true → s.cfg.refFeed ≠ b.feed → (∀ p, s.isFollow p = true → (s.ocfg p).followFeed ≠ b.feed) →
      (b.leadTag = 0 ∨ (∀ e ∈ x.entries, e.tag ≠ b.leadTag) ∨ x.leadTag = some b.leadTag) →
      exec (.audioFrame dt h b phase) s =
        .next (((a.setOut o { a.out o with silenceSince := a.clock, view := some view, heard := true }).collectEcho o b.frameTime b.samples).finish a)) ∧
    ∀ (pre post : List Entry) (e : Entry), (x.air = .listening ∨ x.air = .standby ∨ x.air = .claiming) → s.isSelf o = true →
      (s.cfg.refFeed ≠ b.feed ∧ ∀ p, s.isFollow p = true → (s.ocfg p).followFeed ≠ b.feed) →
      x.entries = pre ++ e :: post → (x.entries.map Entry.tag).Nodup → e.tag = b.leadTag → b.leadTag ≠ 0 → x.leadTag ≠ some e.tag →
      e.lost = false → (e.state = .onAir → x.seqSlot ≠ some e.tag) →
      ∃ (u : State) (rs : List Record), exec (.audioFrame dt h b phase) s = .next (u.finish a) ∧ (u.out o).leadTag = some e.tag ∧
        (u.out o).entries.map Entry.tag = (e :: post).map Entry.tag ∧
        (∃ e', (u.out o).entry e.tag = some e' ∧ e'.state = .onAir ∧
          (e.state ≠ .onAir → e'.air = { EntryAir.empty with start := some (b.frameTime - b.entryOffset) })) ∧
        (∀ d ∈ (u.out o).entries, d.tag ≠ e.tag → d.state ≠ .onAir) ∧ s.log.Wrote u.log rs ∧
        (rs.filter fun r => r.source == .entry).map (fun r => (r.outlet, r.entryTag, r.outcome)) =
          pre.map fun d => (o, some d.tag, Outcome.airedElsewhere)

/-- AUDIO_FRAME of the reference feed (R81, R82, R83, R85): the windows, the trim, the rejected count and the clock state, and the step of
group time where the frame's time of sending lies more than 480 samples from it. A forward step then handles the times it has passed, from the
stepped state on, the earliest of those still waited for each time first and as if it had just been reached (R15, R86): the SOFT, arm, HARD
and start times of a SELF outlet's entries, the due times of its RUNNING breaks' items, their cuts and rejoins, and the rejoin of a BREAK
entry taken over without its break. That each time is handled as the ones before it have left things, and what sounds from the stepped time
on, is log entry 22. -/
def Obligations.ReferenceFramesSteerTheClock : Prop :=
  ∀ (s : State) (dt : Nat) (h : FrameHead) (b : AudioBody) (phase : Nat),
    s.powered = true → s.Hears h 314 → b.frameTime % 48 = 0 → 1 ≤ b.feed → b.feed ≤ 64 → s.cfg.refFeed = b.feed →
    let a := s.elapse dt
    let d := s.disc
    let count := 2048 * (s.clock + dt) + phase
    let far : Prop := ∃ g, a.disc.groupTime = some g ∧ 480 < (h.sentAt - g).natAbs
    let opened : Option Window := some { f0 := b.frameTime, a0 := count, sender := h.sender, last := b.frameTime }
    let complete (w : Window) : Prop := w.sender = h.sender ∧ b.frameTime = w.last + 48 ∧ b.frameTime = w.f0 + 49152
    ∃ t, exec (.audioFrame dt h b phase) s = .next t ∧
      (∀ g, a.disc.groupTime = some g → 480 < (h.sentAt - g).natAbs →
        ∃ g', t.disc.groupTime = some g' ∧ (g' - g) % 48 = 0 ∧ -24 ≤ h.sentAt - g' ∧ h.sentAt - g' < 24 ∧ t.disc.window = none ∧
          (t.captures.slot .clock).first.isSome = true) ∧
      (∀ g, a.disc.groupTime = some g → g + 480 < h.sentAt →
        (∃ w : State, t = (w.handlePassed g).finish a ∧ w.disc.groupTime = t.disc.groupTime) ∧
        ((∀ p, (s.ocfg p).valid = true → (s.ocfg p).feed ≠ b.feed ∧ (s.isFollow p = true → (s.ocfg p).followFeed ≠ b.feed)) →
          (∀ p, ∀ e ∈ (s.out p).history, e.tap ≠ .mismatch ∧ e.peerMismatch = false ∧ e.result ≠ some .mismatch) → s.horizon = none →
          ∃ w : State, t = (w.handlePassed g).finish a ∧ w.disc.groupTime = t.disc.groupTime ∧ w.horizon = none ∧ w.clock = a.clock ∧
            w.cfg = a.cfg ∧ w.voices = a.voices ∧ w.voiceQueue = a.voiceQueue ∧ w.store = a.store ∧ w.lines = a.lines ∧ w.sent = a.sent ∧
            w.log.next = a.log.next ∧ w.log.records.map Record.core = a.log.records.map Record.core ∧
            ∀ p,
              ((w.out p).entries = (a.out p).entries ∧ (w.out p).seqSlot = (a.out p).seqSlot ∧ (w.out p).anchorSlot = (a.out p).anchorSlot ∧
                (w.out p).airOrder = (a.out p).airOrder ∧ (w.out p).air = (a.out p).air ∧ (w.out p).periods = (a.out p).periods ∧
                (w.out p).relay = (a.out p).relay) ∧
              (s.isSelf p = true → (w.out p).place1 = (a.out p).place1 ∧ (w.out p).place2 = (a.out p).place2))) ∧
      (∀ (v : State) (g : Time) (n : Nat) (done : List (Time × DueEvent)),
        v.handlePassed g = ({ State.handleLoop 65536 v (g + 1) [] with horizon := none } : State).settle ∧
        (v.nextDue g done = none → State.handleLoop n v g done = v) ∧
        ∀ y, v.nextDue g done = some y →
          State.handleLoop (n + 1) v g done = State.handleLoop n (v.handleDue y) y.1 (y :: done.filter fun z => z.1 == y.1)) ∧
      (∀ (v : State) (u : Time) (o : OutletId),
        let r : State := { v with horizon := some u }
        v.handleDue (u, .settle) = r.settle ∧ (∀ n m, v.handleDue (u, .soft o n m) = (r.settle.reachSoft o n m).settle) ∧
        (∀ p, v.handleDue (u, .bedRamp o p) = (r.bedRampStart o p).settle ∧ v.handleDue (u, .cut o p) = (r.cutAtRejoin o p).settle) ∧
        ∀ q, v.handleDue (u, .rejoin o q) = (r.rejoin o q).settle) ∧
      (∀ (v : State) (n : Nat) (o : OutletId), v.powered = true →
        let r := v.elapse n
        (∀ q, exec (.rejoin n o q) v = .next ((r.rejoin o q).finish r)) ∧
        (∀ p, exec (.cutAtTheRejoin n o p) v = .next (r.cutAtRejoin o p) ∧ exec (.bedRampStart n o p) v = .next (r.bedRampStart o p)) ∧
        ∀ e u, (r.out o).entry e.tag = some e → e.mode = .soft u → u ≤ r.reached →
          exec (.softTimeReached n o e.tag) v = .next ((r.settle.reachSoft o e.tag u).finish r)) ∧
      (∀ (v : State) (g : Time) (done : List (Time × DueEvent)),
        (∀ y, v.nextDue g done = some y → y ∈ v.dueTimes ∧ g ≤ y.1 ∧ y.1 ≤ v.now ∧ y ∉ done ∧
          ∀ z ∈ v.dueTimes, g ≤ z.1 → z.1 ≤ v.now → z ∉ done → y.1 ≤ z.1) ∧
        (v.nextDue g done = none → ∀ z ∈ v.dueTimes, g ≤ z.1 → z.1 ≤ v.now → z ∈ done)) ∧
      (∀ (v : State) (o : OutletId), v.isSelf o = true →
        (∀ e ∈ (v.out o).entries,
          (∀ u, e.mode = .soft u → (u, .soft o e.tag u) ∈ v.dueTimes) ∧
          (∀ u, e.mode = .hard u → (u - 96000, .settle) ∈ v.dueTimes ∧ (u, .settle) ∈ v.dueTimes) ∧
          (∀ u, e.start = .time u → (u, .settle) ∈ v.dueTimes) ∧ ∀ u, e.air.silentUntil = some u → (u, .rejoin o none) ∈ v.dueTimes) ∧
        ∀ p f u, (v.out o).place p = some f → f.state = .running → f.start = some u →
          (∀ d, f.due = some d → (d, .settle) ∈ v.dueTimes) ∧
          (u + f.len - 480, .cut o p) ∈ v.dueTimes ∧ (u + f.len, .rejoin o (some p)) ∈ v.dueTimes) ∧
      (¬ far → t.disc.groupTime = a.disc.groupTime ∧
        (d.window = none → t.disc.window = opened) ∧
        ∀ w, d.window = some w →
          (w.sender ≠ h.sender → t.disc.window = opened) ∧
          (w.sender = h.sender → b.frameTime = w.last → t.disc.window = some w) ∧
          (w.sender = h.sender → b.frameTime = w.last + 48 →
            t.disc.window = if b.frameTime = w.f0 + 49152 then opened else some { w with last := b.frameTime }) ∧
          (b.frameTime ≠ w.last → b.frameTime ≠ w.last + 48 → t.disc.window = opened)) ∧
      ((∀ w, d.window = some w → ¬ complete w) → t.disc.trim = d.trim ∧ t.disc.rejected = d.rejected ∧ t.disc.state = d.state) ∧
      ∀ w, d.window = some w → complete w →
        ∃ eps half : Int,
          Rounds eps ((((count - w.a0 : Nat) : Int) - 100663296) * 16000000) 100663296 ∧ Rounds half eps 2 ∧
          (eps.natAbs ≤ 3200 →
            t.disc.trim = max (-1600) (min 1600 (d.trim + max (-16) (min 16 (-half)))) ∧ t.disc.rejected = 0 ∧
            t.disc.state = (if d.state = .acquiring ∨ d.state = .holdover then .tracking else d.state)) ∧
          (3200 < eps.natAbs →
            t.disc.trim = d.trim ∧ t.disc.rejected = min 4 (d.rejected + 1) ∧
            (d.rejected = 3 ∧ (d.state = .acquiring ∨ d.state = .tracking) →
              t.disc.state = .holdover ∧ (t.captures.slot .clock).first.isSome = true) ∧
            (¬ (d.rejected = 3 ∧ (d.state = .acquiring ∨ d.state = .tracking)) → t.disc.state = d.state))

/-! ### Air ownership -/

/-- OWNER_SILENCE_EXPIRY and a RELEASE frame without a successor begin a claim on a STANDBY outlet (R131, R132); a CLAIM frame of a better
candidate takes a CLAIMING outlet back to STANDBY, any other leaves it (R132, R133). -/
def Obligations.ClaimsAreMadeAndGivenUp : Prop :=
  ∀ (s : State) (dt : Nat) (o : OutletId), s.powered = true → s.isolated = false →
    let a := s.elapse dt
    let claiming : State :=
      (a.sends (.claim { feed := (s.ocfg o).feed, rank := (s.ocfg o).rank })).setOut o
        { a.out o with air := .claiming, claimSince := a.clock }
    let expired : Prop := (s.out o).air = .standby ∧ (s.out o).silenceSince + 14400 ≤ s.clock + dt
    (expired → exec (.ownerSilenceExpiry dt o) s = .next claiming) ∧ (¬ expired → exec (.ownerSilenceExpiry dt o) s = .next a) ∧
    (∀ (h : FrameHead) (b : ReleaseBody), s.Hears h 2 → s.Carries o b.feed → b.successor = 0 → s.cfg.nodeId ≠ 0 →
      ((s.out o).air = .standby → exec (.releaseFrame dt h b) s = .next (claiming.finish a)) ∧
      ((s.out o).air ≠ .standby → exec (.releaseFrame dt h b) s = .next (a.finish a))) ∧
    ∀ (h : FrameHead) (b : ClaimBody), s.Hears h 2 → s.Carries o b.feed → b.rank ≤ 7 →
      ((s.out o).air = .claiming → s.Better o b.rank h.sender →
        exec (.claimFrame dt h b) s = .next (a.setOut o { a.out o with air := .standby, silenceSince := a.clock })) ∧
      (¬ ((s.out o).air = .claiming ∧ s.Better o b.rank h.sender) → exec (.claimFrame dt h b) s = .next a)

/-- Warm takeover (R141) at CLAIM_WINDOW_EXPIRY and at a RELEASE frame naming the unit (R131, R132): the outlet is ON_AIR, its meter started
afresh (R157), its echo cleared (R148). With nothing on the air it begins with no lead; a FOLLOW outlet outside a break ramps its relay in
(R77); a SELF outlet whose view names an ITEM takes it up at the view's offset and the time passed since (R142), also where the view has a break
tag beside it (log entry 30). A named BREAK entry has begun that long before (R142, R143), which is its actual start, its underfill so far kept
(log entry 29): silent to its rejoin without a fit of the view's tag, otherwise its own fit, also where the other place holds one of that tag
(log entry 65), goes on where that offset lies in its plan (R69): part-way into an item, at the next item after a join gap (or, of a view ahead
of group time, at the first, log entry 64) or in the tail, which begins at the takeover unless it is a BED tail (of a SILENCE tail: log entry
29), every slot before ELSEWHERE unless it sounded here (log entry 15). A FOLLOW outlet's fit of that tag goes on where its own followed time
lies; a RUNNING one of another tag is closed (R143). -/
def Obligations.WarmTakeover : Prop :=
  ∀ (s : State) (dt : Nat) (o : OutletId) (c : Instr), s.powered = true → s.horizon = none →
    let a := s.elapse dt
    let x := s.out o
    (c = .claimWindowExpiry dt o ∧ x.air = .claiming ∧ x.claimSince + 2400 ≤ s.clock + dt) ∨
      (∃ (h : FrameHead) (b : ReleaseBody), c = .releaseFrame dt h b ∧ s.Hears h 2 ∧ s.Carries o b.feed ∧ b.successor ≤ 63 ∧
        b.successor = s.cfg.nodeId ∧ (x.air = .standby ∨ x.air = .claiming)) →
    let onAir : Outlet :=
      { a.out o with
        air := .onAir, yielding := none, fresh := true, echoSkip := false, programme := .started, openBlock := none, echo := none }
    let joined (b f : FittedBreak) (start b0 : Time) : Prop :=
      let ends (it : BreakItem) : Time := it.offset + it.playLen
      let before (n : Nat) : Prop :=
        ∀ j it, j < n → b.items[j]? = some it → it.actual = none → it.progress ≠ .substituted →
          ∃ jt, f.items[j]? = some jt ∧ jt.mark = .elsewhere ∧ jt.actual = none
      f.tag = b.tag ∧ f.len = b.len ∧ f.entryTag = b.entryTag ∧ f.state = .running ∧ f.start = some start ∧ f.announced = false ∧
      f.items.length = b.items.length ∧
      (∀ k it, b.items[k]? = some it → (∀ j jt, j < k → b.items[j]? = some jt → ends jt ≤ b0) → b0 < ends it →
        f.cursor = k ∧ f.tailBegan = none ∧ before k ∧
        (∀ j jt, k < j → b.items[j]? = some jt → ∃ z, f.items[j]? = some z ∧ z.progress = .waiting ∧ z.actual = jt.actual) ∧
        (b0 < it.offset → f.due = some (start + it.offset) ∧ f.resume = none) ∧
        (it.offset ≤ b0 → f.due = some (start + b0) ∧
          ∀ v, s.store.usable it.cart = some v → v.serial = it.serial →
            f.resume = some (k, (b0 - it.offset).toNat + v.inCue, (ends it - b0).toNat))) ∧
      ((∀ it ∈ b.items, ends it ≤ b0) →
        f.cursor = b.items.length ∧ f.due = some (start + b0) ∧ before b.items.length ∧
        (b.tail ≠ .bed → f.tail = b.tail ∧ f.tailBegan = some (start + b0)) ∧
        ∀ n m v, b.tail = .bed → b.bedCart = some (n, m) → s.store.usable n = some v → v.serial = m → v.inCue < v.len →
          (∀ i z, s.voice i = some z → z.bad = false) → f.tail = .bed ∧ f.tailBegan = some (start + b.len - b.tailLen) ∧
            f.tailSkip = (b0 - (b.len - b.tailLen)).toNat % (v.len - v.inCue))
    (s.isSelf o = true → x.view = none → x.seqSlot = none → x.anchorSlot = none → (∀ e ∈ x.entries, e.state ≠ .onAir) →
      exec c s = .next ((a.setOut o onAir).finish a)) ∧
    (s.isFollow o = true → x.place1 = none → x.place2 = none → x.relay.state = .relaying →
      exec c s =
        .next
          ((a.setOut o
            { onAir with relay := { (a.out o).relay with mult := { start := a.clock, m0 := 0, m1 := 16384, n := 480 } } }).finish a)) ∧
    (∀ (v : OwnerView) (e : Entry) (cart : Nat) (w : Version), s.isSelf o = true → x.view = some v → v.leadTag ≠ 0 →
      x.entry v.leadTag = some e → e.kind = .item cart → s.store.usable cart = some w → s.store.Paged →
      0 ≤ (w.inCue : Int) + (v.entryOffset + (a.now - v.frameTime)) →
      (x.leadTag = some e.tag → e.state = .onAir) → e.lost = false →
      (e.state = .onAir → x.seqSlot ≠ some e.tag ∧ ∀ r ∈ s.voiceQueue, r.outlet = o → r.holder ≠ .entry e.tag) →
      (∀ i z, s.voice i = some z → z.bad = false) →
      ∃ u : State, exec c s = .next (u.finish a) ∧ (u.out o).air.sends = true ∧ (u.out o).leadTag = some e.tag ∧
        ∃ e', (u.out o).entry e.tag = some e' ∧ e'.state = .onAir ∧ e'.serial = some w.serial ∧
          e'.air = { EntryAir.empty with offset := v.entryOffset + (a.now - v.frameTime), takenOver := true }) ∧
    (∀ (v : OwnerView) (e : Entry) (brk len : Nat), s.isSelf o = true → x.view = some v → v.leadTag ≠ 0 → x.entry v.leadTag = some e →
      e.kind = .brk brk len → x.leadTag = some e.tag → e.state = .onAir → (x.entries.map Entry.tag).Nodup → x.seqSlot ≠ some e.tag →
      x.anchorSlot ≠ some e.tag →
      let since (n : Int) : Time := a.now - (n + (a.now - v.frameTime))
      let begun (start : Time) (silent : Option Time) : EntryAir :=
        { EntryAir.empty with
          start := some start, since := a.clock - (a.now - start), sounding := true, sounded := true, takenOver := true, silentUntil := silent
          underfill := e.air.underfill }
      ((∀ q f, x.place q = some f → f.entryTag ≠ some e.tag) → (v.breakTag = 0 ∨ ∀ q f, x.place q = some f → f.tag ≠ v.breakTag) →
        let start := since (if v.breakTag = 0 then v.entryOffset else v.breakOffset)
        (a.now < start + len →
          ∃ (u : State) (e' : Entry), exec c s = .next (u.finish a) ∧ (u.out o).air.sends = true ∧ (u.out o).leadTag = some e.tag ∧
            (u.out o).entry e.tag = some e' ∧ e'.state = .onAir ∧ e'.air = begun start (some (start + len)) ∧ u.log = s.log) ∧
        (start + len ≤ a.now → (∀ d ∈ x.entries, d.tag ≠ e.tag → d.air.silentUntil = none) →
          ∃ (u : State) (r : Record), exec c s = .next (u.finish a) ∧ s.log.Wrote u.log [r] ∧ r.source = .entry ∧ r.entryTag = some e.tag ∧
            r.outcome = .airedTakenOver ∧ (u.out o).entries.map Entry.tag = (x.entries.map Entry.tag).filter fun t => t != e.tag)) ∧
      ∀ (p : Place) (b : FittedBreak), v.breakTag ≠ 0 → x.place p = some b → b.tag = v.breakTag → b.entryTag = some e.tag →
        (∀ q f, x.place q = some f → f.entryTag = some e.tag → q = p) → b.ending = false → s.store.Paged →
        let start := since v.breakOffset
        (a.now < start + b.len →
          ∃ (u : State) (e' : Entry) (f : FittedBreak), exec c s = .next (u.finish a) ∧ (u.out o).air.sends = true ∧
            (u.out o).leadTag = some e.tag ∧ (u.out o).entry e.tag = some e' ∧ e'.state = .onAir ∧ e'.air = begun start none ∧
            (u.out o).place p = some f ∧ joined b f start (a.now - start)) ∧
        (start + b.len ≤ a.now →
          ∃ u : State, exec c s = .next (u.finish a) ∧ (u.out o).place p = none ∧ ∀ d ∈ (u.out o).entries, d.tag ≠ e.tag)) ∧
    s.isFollow o = true →
    (∀ (p : Place) (b : FittedBreak), x.place p = some b → b.state = .running → b.ending = false →
      (∀ v, x.view = some v → v.breakTag ≠ b.tag) → ∃ u : State, exec c s = .next (u.finish a) ∧ (u.out o).place p = none) ∧
    ∀ (v : OwnerView) (p : Place) (b : FittedBreak) (t pos : Time), x.view = some v → v.breakTag ≠ 0 → x.place p = some b →
      b.tag = v.breakTag → b.state ≠ .spent → b.ending = false →
      (∀ q f, q ≠ p → x.place q = some f → f.state ≠ .running ∧ f.tag ≠ v.breakTag) → b.start = some t → a.followed o = some pos → t ≤ pos →
      pos < t + b.len → s.store.Paged →
      ∃ (u : State) (f : FittedBreak), exec c s = .next (u.finish a) ∧ (u.out o).air.sends = true ∧ (u.out o).place p = some f ∧
        joined b f t (pos - t) ∧
        (b.tail ≠ .earlyRejoin ∨ (∃ it ∈ b.items, pos - t < it.offset + it.playLen) →
          (u.out o).relay.mult = { start := 0, m0 := 0, m1 := 0, n := 0 }) ∧
        (b.tail = .earlyRejoin → (∀ it ∈ b.items, it.offset + it.playLen ≤ pos - t) →
          (u.out o).relay.mult = { start := a.clock, m0 := 0, m1 := 16384, n := 480 })

/-- The best successor is the first STANDBY twin in candidate order that is not passed over, and the best better twin the first of those
better than the outlet itself (R126, R129); an outlet in FALLBACK releases to its best successor with one RELEASE frame (R135, R138). That
the RELEASE frames of one sample go out in letter order is log entry 56. -/
def Obligations.FallbackReleasesToATwin : Prop :=
  ∀ (s : State) (o : OutletId),
    let mode : Nat := match (s.ocfg o).mode with
      | some .self => 1
      | some .follow => 2
      | none => 0
    (∀ q : Nat × Nat, q ∈ s.twins o → ∃ p ∈ s.peers, p.node = q.2 ∧ p.isUnit = true ∧ p.stale = false ∧
      ∃ m ∈ p.summaries, m.feed = (s.ocfg o).feed ∧ m.mode = mode ∧ m.air = 2 ∧ m.rank = q.1) ∧
    (∀ p ∈ s.peers, p.isUnit = true → p.stale = false →
      (∃ m ∈ p.summaries, m.feed = (s.ocfg o).feed ∧ m.mode = mode ∧ m.air = 2) → ∃ r, (r, p.node) ∈ s.twins o) ∧
    (∀ n, s.bestSuccessor o = some n ↔
      ∃ r, (r, n) ∈ s.twins o ∧ n ∉ (s.out o).passed ∧
        ∀ q ∈ s.twins o, q.2 ∉ (s.out o).passed → r < q.1 ∨ r = q.1 ∧ n ≤ q.2) ∧
    (∀ n, s.betterTwin o = some n ↔
      ∃ r, (r, n) ∈ s.twins o ∧ n ∉ (s.out o).passed ∧ s.Better o r n ∧
        ∀ q ∈ s.twins o, q.2 ∉ (s.out o).passed → s.Better o q.1 q.2 → r < q.1 ∨ r = q.1 ∧ n ≤ q.2) ∧
    (s.isolated = false →
      (∀ n, (s.out o).air = .fallback → s.bestSuccessor o = some n →
        s.judgeRelease o =
          (s.sends (.release { feed := (s.ocfg o).feed, successor := n })).setOut o
            { s.out o with
              yielding := some { successor := n, cause := .fault, fromFallback := true, since := s.clock }
              air := .yielding
              handBack := false }) ∧
      ((s.out o).air ≠ .fallback ∨ s.bestSuccessor o = none → s.judgeRelease o = s)) ∧
    s.judgeReleases = (((s.judgeRelease .a).judgeRelease .b).judgeRelease .c).judgeRelease .d

/-- YIELD_TIMEOUT (R136), 9,600 samples after the yield began: a hand-back latches TAKEOVER and the outlet is as before the yield; a fault
release passes its successor over, and the outlet is in FALLBACK, entered anew from a yield of ON_AIR. In FALLBACK it may release at once
(R138). That a yield from FALLBACK starts the meter afresh is the model's reading of R157 (log entry 12), and that one whose FALLBACK has ended
meanwhile times out as one of ON_AIR log entry 32. -/
def Obligations.YieldsTimeOut : Prop :=
  ∀ (s : State) (dt : Nat) (o : OutletId), s.powered = true →
    let a := s.elapse dt
    let x := s.out o
    (∀ y, x.yielding = some y → x.air = .yielding → y.since + 9600 ≤ s.clock + dt →
      let caught : State := a.latch { FaultInfo.bare .takeover with outlet := some o, node := some y.successor }
      let passed : List Nat := if y.successor ∈ x.passed then x.passed else x.passed ++ [y.successor]
      (y.cause = .handBack → y.fromFallback = false →
        exec (.yieldTimeout dt o) s =
          .next ((caught.setOut o { a.out o with air := .onAir, yielding := none, programme := .started }).finish a)) ∧
      (y.cause = .handBack → y.fromFallback = true →
        exec (.yieldTimeout dt o) s =
          .next (((caught.setOut o { a.out o with air := .fallback, yielding := none, programme := .started }).judgeRelease o).finish a)) ∧
      (y.cause = .fault → y.fromFallback = true →
        exec (.yieldTimeout dt o) s =
          .next
            (((a.setOut o { a.out o with passed := passed, air := .fallback, yielding := none, programme := .started }).judgeRelease
              o).finish a)) ∧
      (y.cause = .fault → y.fromFallback = false →
        ∃ u : State, exec (.yieldTimeout dt o) s = .next (u.finish a) ∧ (u.out o).inFallback = true ∧ (u.out o).passed = passed ∧
          ∃ p ∈ (u.out o).periods, p.since = a.now ∧ p.ended = none)) ∧
    ((x.air ≠ .yielding ∨ ∀ y, x.yielding = some y → s.clock + dt < y.since + 9600) → exec (.yieldTimeout dt o) s = .next a)

/-- HAND_BACK (the table of R139, R140): its answer, and for the last rows the hand-back that becomes pending or the yield to the best better
twin. A FOLLOW outlet outside break content is at its boundary at once. That the answer goes before the RELEASE frame is log entry 71. -/
def Obligations.HandBacksAreAnswered : Prop :=
  ∀ (s : State) (dt : Nat) (req : RequestHead) (o : OutletId), s.TakesFeed req 0 o →
    let a := s.elapse dt
    let x := s.out o
    let answered (r : ResultCode) : State := a.answers req 10 (some o) r .none
    let yields (n : Nat) (fb : Bool) : State :=
      ((answered .ok).sends (.release { feed := (s.ocfg o).feed, successor := n })).setOut o
        { a.out o with
          yielding := some { successor := n, cause := .handBack, fromFallback := fb, since := a.clock }
          air := .yielding
          handBack := false }
    let result := exec (.handBack dt req) s
    (x.air = .listening ∨ x.air = .standby ∨ x.air = .claiming → result = .next ((answered .notOwner).finish a)) ∧
    (x.air = .yielding → result = .next ((answered .busy).finish a)) ∧
    (x.air = .onAir ∨ x.air = .fallback → s.betterTwin o = none → result = .next ((answered .notFound).finish a)) ∧
    ∀ n, s.betterTwin o = some n →
      (x.air = .onAir → x.handBack = true → result = .next ((answered .ok).finish a)) ∧
      (x.air = .onAir → x.handBack = false → (s.isFollow o = false ∨ x.waitsForRejoin = true) →
        result = .next (((answered .ok).setOut o { a.out o with handBack := true }).finish a)) ∧
      (x.air = .onAir → x.handBack = false → s.isFollow o = true → x.waitsForRejoin = false → result = .next ((yields n false).finish a)) ∧
      (x.air = .fallback → result = .next ((yields n true).finish a))

/-- RESUME (R160): NOT_FOUND outside FALLBACK; in FALLBACK answered OK, the outlet is ON_AIR with its meter started afresh (R157) and nobody
passed over (R129), its fallback voice ramps out over 480 samples, or the period is over, and a FOLLOW outlet's relay ramps in (R77; from 0 also
while its ramp out still runs, log entry 69). -/
def Obligations.ResumeEndsFallback : Prop :=
  ∀ (s : State) (dt : Nat) (req : RequestHead) (o : OutletId), s.TakesFeed req 0 o →
    let a := s.elapse dt
    ((s.out o).air ≠ .fallback → exec (.resume dt req) s = .next (a.answers req 11 (some o) .notFound .none)) ∧
    ((s.out o).air = .fallback →
      ∃ u : State, exec (.resume dt req) s = .next (u.finish a) ∧ u.sent = (a.answers req 11 (some o) .ok .none).sent ∧
        (u.out o).air = .onAir ∧ (u.out o).yielding = none ∧ (u.out o).passed = [] ∧ (u.out o).programme = .started ∧
        (s.isFollow o = true → (u.out o).relay.mult = { start := a.clock, m0 := 0, m1 := 16384, n := 480 }) ∧
        ∀ p, (s.out o).openPeriod = some p →
          (∀ i w, a.voiceOf o (.fallback p.id) = some i → a.voice i = some w → w.sounding = true →
            ∃ w', u.voice i = some w' ∧ w'.state = .ramping ∧ w'.mult.stop ≤ a.clock + 480) ∧
          (a.voiceOf o (.fallback p.id) = none → ∀ q ∈ (u.out o).periods, q.id ≠ p.id))

/-- AUDIO_FRAME_SEND (R127, R179, R41): a slot's 48 samples, those before the first of an outlet that begins and those after the last of one
that has stopped 0, go out in one AUDIO frame with the fields of its first sample, each channel held within 24 bits and each limit counted;
fewer samples of an outlet still sending wait. That the offsets of a first slot are at least 0 is log entry 27, that the clip count rises at the
frame log entry 38, that the entry offset is 0 while the lead has no actual start log entry 48, and that the FALLBACK and YIELDING flags too are
those of the first sample log entry 67. The samples to be framed are held as spans; `takeSamples` takes them from the front in order. -/
def Obligations.AudioFramesAreSent : Prop :=
  (∀ f : SampleFrame, (-8388608 ≤ f.limited.l ∧ f.limited.l ≤ 8388607) ∧ (-8388608 ≤ f.limited.r ∧ f.limited.r ≤ 8388607)) ∧
  (∀ (n : Nat) (l : List Span), (∀ q ∈ l.drop 1, q.first = false) →
    (takeSamples false n l).1 = (l.flatMap fun p => p.samples p.len).take n ∧
      ((takeSamples false n l).2.flatMap fun p => p.samples p.len) = (l.flatMap fun p => p.samples p.len).drop n) ∧
  ∀ (s : State) (dt : Nat) (o : OutletId), s.powered = true → s.isolated = false →
    let a := s.elapse dt
    let waiting := (a.out o).unsent
    (waiting = [] → exec (.audioFrameSend dt o) s = .next a) ∧
    ∀ (p : Span) (rest : List Span), waiting = p :: rest →
      let lead : Nat := if p.first then (p.time % 48).toNat else 0
      let raw : List SampleFrame := (takeSamples false (48 - lead) waiting).1
      (48 ≤ lead + spellLen false waiting ∨ spellLen false waiting < spansLen waiting ∨ (s.out o).air.sends = false →
        exec (.audioFrameSend dt o) s =
          .next
            ((a.setOut o
              { a.out o with
                unsent := (takeSamples false (48 - lead) waiting).2
                clip := min 4294967295 ((s.out o).clip + (raw.map SampleFrame.clips).sum) }).sends
              (.audio
                { feed := (s.ocfg o).feed, letter := o.code, rank := p.ctx.rank, fallback := p.ctx.fallback, yielding := p.ctx.yielding,
                  frameTime := p.time - lead, leadTag := p.ctx.leadTag,
                  entryOffset := (p.ctx.leadBase.map fun b => max 0 (p.time - lead - b)).getD 0, breakTag := p.ctx.breakTag,
                  breakOffset := if p.ctx.breakTag = 0 then 0 else max 0 (p.ctx.breakOffset - lead),
                  samples :=
                    List.replicate lead { l := 0, r := 0 } ++ raw.map SampleFrame.limited ++
                      List.replicate (48 - lead - raw.length) { l := 0, r := 0 } }))) ∧
      (lead + spansLen waiting < 48 → (∀ q ∈ rest, q.first = false) → (s.out o).air.sends = true →
        exec (.audioFrameSend dt o) s = .next a)

/-! ### Running orders and fire lines -/

/-- ENTRY_ADD (R4, R5, R6): the order of its answers; a sound one on a SELF outlet puts the entry, QUEUED, in its place, and one put directly
after the lead disarms what the sequence slot holds. -/
def Obligations.EntriesAreAdded : Prop :=
  ∀ (s : State) (dt : Nat) (req : RequestHead) (f : EntryFields) (o : OutletId), s.TakesFeed req 28 o →
    let a := s.elapse dt
    let x := s.out o
    let answered (r : ResultCode) : State := a.answers req 5 (some o) r .none
    let result := exec (.entryAdd dt req f) s
    let bad : Prop :=
      f.tag = 0 ∨ (f.kind ≠ 1 ∧ f.kind ≠ 2) ∨ (f.kind = 1 ∧ (f.ref = 0 ∨ 999999 < f.ref)) ∨ (f.kind = 2 ∧ f.ref = 0) ∨
        (f.mode ≠ 1 ∧ f.mode ≠ 2 ∧ f.mode ≠ 3) ∨ (f.mode ≠ 1 ∧ f.time = none) ∨
          (f.position ≠ 1 ∧ f.position ≠ 2 ∧ f.position ≠ 3) ∨ (f.position = 3 ∧ f.reference = 0)
    let late (t : Time) : Prop := ∃ now, a.disc.groupTime = some now ∧ t ≤ now
    (s.isFollow o = true → result = .next (answered .wrongMode)) ∧
    (s.isFollow o = false → bad →
      result = .next ((answered .malformed).latch { FaultInfo.bare .malformed with node := some req.head.sender })) ∧
    (s.isFollow o = false → ¬ bad →
      ((∃ e ∈ x.entries, e.tag = f.tag) → result = .next (answered .duplicate)) ∧
      ((∀ e ∈ x.entries, e.tag ≠ f.tag) →
        (f.position = 3 → (∀ e ∈ x.entries, e.tag ≠ f.reference) → result = .next (answered .notFound)) ∧
        (∀ e, f.position = 3 → x.entry f.reference = some e → e.state = .onAir → x.leadTag ≠ some f.reference →
          result = .next (answered .inAir)) ∧
        ((f.position = 3 → ∃ e, x.entry f.reference = some e ∧ (e.state = .onAir → x.leadTag = some f.reference)) →
          (256 ≤ x.entries.length → result = .next (answered .full)) ∧
          (x.entries.length < 256 →
            ∃ (e : Entry) (l : List Entry),
              e.tag = f.tag ∧ e.kind = (if f.kind = 1 then .item f.ref else .brk f.ref (max 48000 (min 43200000 f.len))) ∧
              (f.mode = 1 → e.mode = .sequence) ∧
              (∀ t, f.time = some t → f.mode = 2 → (late t → e.mode = .sequence) ∧ (¬ late t → e.mode = .soft t)) ∧
              (∀ t, f.time = some t → f.mode = 3 → (late t → e.mode = .sequence) ∧ (¬ late t → e.mode = .hard t)) ∧
              (e.fade = true ↔ ∃ n, f.fade = some n ∧ n ≠ 0) ∧ e.trim = max (-48) (min 12 (f.trim.getD 0)) ∧ e.state = .queued ∧
              (f.position = 1 → l = x.entries ++ [e]) ∧
              (f.position = 2 → ∃ pre post, x.entries = pre ++ post ∧ l = pre ++ e :: post ∧ (∀ d ∈ pre, d.state ≠ .queued) ∧
                ∀ d, post.head? = some d → d.state = .queued) ∧
              (f.position = 3 → ∃ pre d post, x.entries = pre ++ d :: post ∧ l = pre ++ d :: e :: post ∧ d.tag = f.reference ∧
                ∀ c ∈ pre, c.tag ≠ f.reference) ∧
              let b : State := a.setOut o { a.out o with entries := l }
              let u : State := b.answers req 5 (some o) .ok .none
              ((x.leadTag = none ∨ x.seqSlot = none) → result = .next (u.finish b)) ∧
              ∀ t q, x.leadTag = some t → x.seqSlot = some q → q ≠ f.tag →
                (((entriesAfter l t).head?.map Entry.tag = some f.tag) → result = .next ((u.disarm o q).finish b)) ∧
                (((entriesAfter l t).head?.map Entry.tag ≠ some f.tag) → result = .next (u.finish b))))))

/-- ENTRY_REMOVE (R7): the order of its answers; an entry that has not begun leaves WITHDRAWN with its record. -/
def Obligations.EntriesAreRemoved : Prop :=
  ∀ (s : State) (dt : Nat) (req : RequestHead) (tag : Nat) (o : OutletId), s.TakesFeed req 4 o →
    let a := s.elapse dt
    let x := s.out o
    let answered (r : ResultCode) : State := a.answers req 6 (some o) r .none
    let result := exec (.entryRemove dt req tag) s
    (s.isFollow o = true → result = .next (answered .wrongMode)) ∧
    (s.isFollow o = false → tag = 0 →
      result = .next ((answered .malformed).latch { FaultInfo.bare .malformed with node := some req.head.sender })) ∧
    (s.isFollow o = false → tag ≠ 0 →
      (x.entry tag = none → result = .next (answered .notFound)) ∧
      ∀ e, x.entry tag = some e →
        (e.state = .onAir → result = .next (answered .inAir)) ∧
        ((e.state = .queued ∨ e.state = .armed ∧ s.voiceQueue = []) →
          ∃ (u : State) (r : Record), result = .next (u.finish a) ∧ (answered .ok).sent <+: u.sent ∧ s.log.Wrote u.log [r] ∧
            r.source = .entry ∧ r.outcome = .withdrawn ∧ r.entryTag = some tag ∧ r.played = 0 ∧ r.outlet = o ∧
              (u.out o).entries = x.entries.filter fun d => d.tag != tag))

/-- SPOTS_SET, SPOTS_CLEAR (R19) and FILLS_SET (R20): their answers in order, and the spot list, or the fill pool and the bed, they set. -/
def Obligations.ListsAreSet : Prop :=
  ∀ (s : State) (dt : Nat) (req : RequestHead) (o : OutletId),
    let a := s.elapse dt
    let x := s.out o
    let answered (k : Nat) (r : ResultCode) : State := a.answers req k (some o) r .none
    let malformed (k : Nat) : State := (answered k .malformed).latch { FaultInfo.bare .malformed with node := some req.head.sender }
    let cartBad (c : Nat) : Prop := c = 0 ∨ 999999 < c
    let fitted (tag : Nat) : Prop := ∃ p b, x.place p = some b ∧ b.tag = tag
    let held (tag : Nat) : Prop := ∃ l ∈ x.spots, l.tag = tag
    let code : SpotClass → Nat := fun c => match c with
      | .must => 1
      | .should => 2
      | .may => 3
    (∀ f : SpotFields, s.TakesFeed req (14 + 5 * f.spots.length) o →
      let bad : Prop := f.tag = 0 ∨ (∃ c, f.opener = some c ∧ cartBad c) ∨ (∃ c, f.closer = some c ∧ cartBad c) ∨
        ∃ p ∈ f.spots, cartBad p.1 ∨ p.2 = 0 ∨ 3 < p.2
      let result := exec (.spotsSet dt req f) s
      (bad → result = .next (malformed 7)) ∧
      (¬ bad →
        (16 < f.spots.length → result = .next (answered 7 .outOfRange)) ∧
        (f.spots.length ≤ 16 → fitted f.tag → result = .next (answered 7 .inAir)) ∧
        (f.spots.length ≤ 16 → ¬ fitted f.tag → ¬ held f.tag → 32 ≤ x.spots.length → result = .next (answered 7 .full)) ∧
        (f.spots.length ≤ 16 → ¬ fitted f.tag → (held f.tag ∨ x.spots.length < 32) →
          ∃ n : SpotList, n.tag = f.tag ∧ n.opener = f.opener ∧ n.closer = f.closer ∧
            n.spots.map (fun p => (p.1, code p.2)) = f.spots ∧
            ∃ l, (held f.tag → l = x.spots.map fun m => if m.tag = f.tag then n else m) ∧ (¬ held f.tag → l = x.spots ++ [n]) ∧
              result = .next ((a.setOut o { a.out o with spots := l }).answers req 7 (some o) .ok .none)))) ∧
    (∀ tag, s.TakesFeed req 4 o →
      let result := exec (.spotsClear dt req tag) s
      (tag = 0 → result = .next (malformed 8)) ∧
      (tag ≠ 0 → ¬ held tag → result = .next (answered 8 .notFound)) ∧
      (tag ≠ 0 → held tag → fitted tag → result = .next (answered 8 .inAir)) ∧
      (tag ≠ 0 → held tag → ¬ fitted tag →
        result =
          .next ((a.setOut o { a.out o with spots := x.spots.filter fun l => l.tag != tag }).answers req 8 (some o) .ok .none))) ∧
    ∀ (bed : Option Nat) (fills : List Nat), s.TakesFeed req (6 + 4 * fills.length) o →
      let bad : Prop := (∃ c, bed = some c ∧ cartBad c) ∨ ∃ c ∈ fills, cartBad c
      let noBed : Prop := ∃ v ∈ s.store.versions, bed = some v.cart ∧ v.kind ≠ .bed
      let result := exec (.fillsSet dt req bed fills) s
      (bad → result = .next (malformed 9)) ∧
      (¬ bad →
        (8 < fills.length → result = .next (answered 9 .outOfRange)) ∧
        (fills.length ≤ 8 → ¬ fills.Nodup → result = .next (answered 9 .duplicate)) ∧
        (fills.length ≤ 8 → fills.Nodup → noBed → result = .next (answered 9 .outOfRange)) ∧
        (fills.length ≤ 8 → fills.Nodup → ¬ noBed →
          result = .next ((a.setOut o { a.out o with fills := fills, bed := bed }).answers req 9 (some o) .ok .none)))

/-- START_TIME_REACHED (R24, R25) and HARD_TIME_REACHED (R14): an ARMED ITEM alone in its running order, its voice PRIMED, begins to sound at
its own multiplier and is the lead. ARM_TIME_REACHED (R12, R10, R90): the first QUEUED HARD entry whose arm time has come takes the empty anchor
slot with its cart's version, and its request waits in the order of needed start. SOFT_TIME_REACHED (R13): where nothing else is ready, the
entries between the lead and the SOFT entry leave SKIPPED_TIME. In a longer running order an anchor becomes the lead, what sounds ramps out over
24,000 samples, the ON_AIR entries are cut, and those before it that have not started leave SKIPPED_TIME in list order (R14, R29; not of an
anchor that still waits for a voice, log entry 36); an ITEM starts over its former lead, which plays on, or with its fade flag fades to the end
of its cart, but never a SPOT (R27; that the flag of another butt-joined lead acts where the lead still sounds is log entry 59); a BREAK entry
whose first voice is PRIMED starts, its break RUNNING from there with its first item sounding, and announced now if it was not before (R45,
R61). Each of these commands does this first; then what is ready comes about (log entry 19). -/
def Obligations.TimesOfEntriesAreReached : Prop :=
  ∀ (s : State) (dt : Nat) (o : OutletId), s.powered = true → s.horizon = none →
    let a := s.elapse dt
    let x := s.out o
    (∀ (e : Entry) (cart i : Nat) (w : VoiceUse) (c : Instr), x.air = .onAir → x.handBack = false → x.entries = [e] → x.airOrder = [] →
      e.state = .armed → e.lost = false → e.kind = .item cart → s.voiceOf o (.entry e.tag) = some i → s.voice i = some w → w.state = .primed →
      (c = .startTimeReached dt o ∧ x.seqSlot = some e.tag ∧ x.anchorSlot = none ∧ (∀ t, e.mode ≠ .hard t) ∧
          (∃ t, e.start = .time t ∧ t ≤ a.now)) ∨
        (c = .hardTimeReached dt o e.tag ∧ (∃ t, e.mode = .hard t ∧ t ≤ a.now) ∧
          (x.seqSlot = none ∧ x.anchorSlot = some e.tag ∨ x.seqSlot = some e.tag ∧ x.anchorSlot = none) ∧
          ∀ j z, s.voice j = some z → z.outlet = o → z.sounding = false) →
      (∀ k ∈ x.tallies, k.key ≠ .entry e.tag) →
      let b : State := a.startVoice i (.steady (multiplier (e.trim + ((s.store.find w.cart w.serial).map Version.trim).getD 0)))
      let u : State :=
        b.setOut o
          { a.out o with
            entries :=
              [{ e with
                 state := .onAir
                 air := { EntryAir.empty with start := some a.now, sounding := true, sounded := true } }]
            seqSlot := none
            anchorSlot := none
            inherit := none
            airOrder := [e.tag]
            tallies := x.tallies ++ [{ key := .entry e.tag, since := a.now, stopped := none, tally := .empty }] }
      exec c s = .next (u.finish a)) ∧
    (∀ (e : Entry) (cart : Nat) (v : Version) (t : Time) (q : Nat), x.air = .standby → x.seqSlot = some q → x.anchorSlot = none →
      x.entries.find? (fun d => decide (d.state = .queued) && d.mode.hardTime.any (fun t => decide (t - 96000 ≤ a.now))) = some e →
      e.mode = .hard t → e.kind = .item cart → (∀ d ∈ x.entries, d.isBreak = false) → s.store.usable cart = some v →
      (∀ z ∈ s.voices, z.use = none → z.reserved ≠ some o ∧ z.reserved ≠ none) →
      let r : VoiceRequest := { outlet := o, holder := .entry e.tag, needed := t }
      let first (z : VoiceRequest) : Bool := decide (z.needed < t) || (z.needed == t && decide (z.outlet.code ≤ o.code))
      let u : State :=
        ({ a with voiceQueue := s.voiceQueue.takeWhile first ++ r :: s.voiceQueue.dropWhile first } : State).setOut o
          { a.out o with
            entries := x.entries.map fun d =>
              if d.tag = e.tag then
                { d with state := .armed, start := .time t, planned := some t, serial := some v.serial, lost := false, air := .empty }
              else d
            anchorSlot := some e.tag }
      exec (.armTimeReached dt o) s = .next (u.finish a)) ∧
    (∀ (pre mid post : List Entry) (l e : Entry) (t : Time), x.air = .onAir → x.entries = pre ++ l :: mid ++ e :: post →
      (x.entries.map Entry.tag).Nodup → x.leadTag = some l.tag → (∀ d ∈ mid, d.state ≠ .onAir) → e.state = .queued → e.mode = .soft t →
      t ≤ a.now → (∀ q d, x.seqSlot = some q → x.entry q = some d → d.start ≠ .time t) → s.voiceQueue = [] → a.Rests →
      (∀ p, (s.out p).inherit = none) →
      ∃ (u : State) (rs : List Record), exec (.softTimeReached dt o e.tag) s = .next (u.finish a) ∧
        (u.out o).entries = pre ++ l :: e :: post ∧ s.log.Wrote u.log rs ∧
        rs.map (fun r => (r.outlet, r.source, r.entryTag, r.outcome)) = mid.map fun d => (o, Source.entry, some d.tag, Outcome.skippedTime)) ∧
    (∀ (pre post : List Entry) (e : Entry) (t : Time), x.air = .onAir → x.handBack = false → x.entries = pre ++ e :: post →
      (x.entries.map Entry.tag).Nodup → e.mode = .hard t → t ≤ a.now → e.state = .armed → e.lost = false → x.anchorSlot = some e.tag →
      x.seqSlot ≠ some e.tag → (∀ d ∈ x.entries, d.state = .onAir → d.isBreak = false ∧ d.air.sounding = true ∧ d.air.silentUntil = none) →
      (∀ r ∈ s.voiceQueue, r.outlet = o → r.holder ≠ .entry e.tag) →
      ∃ (u : State) (rs : List Record), exec (.hardTimeReached dt o e.tag) s = .next (u.finish a) ∧ (u.out o).leadTag = some e.tag ∧
        (u.out o).anchorSlot = none ∧ (u.out o).entries.map Entry.tag = ((pre.filter fun d => d.state == .onAir) ++ e :: post).map Entry.tag ∧
        (∀ d ∈ x.entries, d.state = .onAir → ∃ d', (u.out o).entry d.tag = some d' ∧ d'.state = .onAir ∧ d'.air.cut = true) ∧
        s.log.Wrote u.log rs ∧
        rs.map (fun r => (r.outlet, r.source, r.entryTag, r.outcome)) =
          (pre.filter fun d => d.state != .onAir).map (fun d => (o, Source.entry, some d.tag, Outcome.skippedTime)) ∧
        ∀ i w, a.voice i = some w → w.outlet = o → w.sounding = true → (∀ p k, w.holder ≠ .slot p k) →
          (∀ d ∈ pre, d.state ≠ .onAir → w.holder ≠ .entry d.tag) →
          ∃ z, u.voice i = some z ∧ z.state = .ramping ∧ z.mult.stop ≤ a.clock + 24000 ∧ (w.state = .playing → z.mult.m1 = 0)) ∧
    (∀ (l e : Entry) (cl ce i j : Nat) (w z : VoiceUse) (t : Time), x.air = .onAir → x.handBack = false → (x.entries.map Entry.tag).Nodup →
      x.leadTag = some l.tag → x.entry l.tag = some l → l.kind = .item cl → x.seqSlot = some e.tag → x.anchorSlot = none →
      x.entry e.tag = some e → l.tag ≠ e.tag → e.kind = .item ce → e.state = .armed → e.lost = false → (∀ t, e.mode ≠ .hard t) →
      e.start = .time t → t ≤ a.now →
      a.voiceOf o (.entry e.tag) = some j → a.voice j = some z → z.state = .primed → a.voiceOf o (.entry l.tag) = some i →
      a.voice i = some w → w.sounding = true → w.sounded < w.passEnd →
      let spot : Prop := ∃ v, s.store.find w.cart w.serial = some v ∧ v.kind = .spot
      ∃ u : State, exec (.startTimeReached dt o) s = .next (u.finish a) ∧ (u.out o).leadTag = some e.tag ∧ (u.out o).seqSlot = none ∧
        (u.out o).entry l.tag = some l ∧
        (∃ e', (u.out o).entry e.tag = some e' ∧ e'.state = .onAir ∧
          e'.air = { EntryAir.empty with start := some a.now, sounding := true, sounded := true }) ∧
        (∃ z', u.voice j = some z' ∧ z'.sounding = true) ∧ (l.fade = false ∨ spot → u.voice i = some w) ∧
        (l.fade = true → ¬ spot → ∃ w', u.voice i = some w' ∧ w'.state = .ramping ∧ w'.mult.stop ≤ a.clock + (w.passEnd - w.sounded))) ∧
    ∀ (e : Entry) (brk len i : Nat) (p : Place) (b : FittedBreak) (it : BreakItem) (w : VoiceUse) (t : Time), x.air = .onAir →
      x.handBack = false → s.isSelf o = true → s.disc.groupTime.isSome = true → (x.entries.map Entry.tag).Nodup → x.airOrder = [] →
      (∀ d ∈ x.entries, d.state ≠ .onAir) → x.seqSlot = some e.tag → x.anchorSlot = none → x.entry e.tag = some e → e.kind = .brk brk len →
      e.state = .armed → e.lost = false → (∀ t, e.mode ≠ .hard t) → e.start = .time t → t ≤ a.now → x.fitOf e.tag = some p →
      x.place p = some b → b.ending = false → b.resume = none → 480 ≤ b.len → b.items[0]? = some it → it.progress ≠ .substituted →
      0 < it.playLen → a.voiceOf o (.slot p 0) = some i → a.voice i = some w → w.state = .primed →
      ∃ (u : State) (f : FittedBreak) (jt : BreakItem), exec (.startTimeReached dt o) s = .next (u.finish a) ∧ (u.out o).leadTag = some e.tag ∧
        (∃ e', (u.out o).entry e.tag = some e' ∧ e'.state = .onAir ∧
          e'.air = { EntryAir.empty with start := some a.now, since := a.clock, sounding := true, sounded := true }) ∧
        (u.out o).place p = some f ∧ f.state = .running ∧ f.start = some a.now ∧ f.cursor = 1 ∧
        f.due = some (a.now + it.playLen + it.join) ∧ f.items[0]? = some jt ∧ jt.progress = .sounding ∧ jt.actual = some a.now ∧
        (∃ z, u.voice i = some z ∧ z.sounding = true) ∧
        u.sent = s.sent ++
          if b.announced = true ∨ s.isolated = true then []
          else [a.frame (.cue { feed := (s.ocfg o).feed, tag := b.tag, start := a.now, len := b.len, cancel := 0 })]

/-- FIRE_LINE_INPUT and FIRE_LINE_STABLE (R32, R33, R34): a line's states, and a fire, refused with its record, or with NO_VOICE, or
accepted: its version primes at its in-cue on a voice of the line. A re-fire (R35) ramps a sounding instant out over 480 samples and waits for
its voice; an instant not yet sounding is recorded WITHDRAWN and the line's voice primes the new one. A fire's time is the present group time,
which while unset is the 0 of log entry 47, the model's choice. -/
def Obligations.FireLinesMakeInstants : Prop :=
  ∀ (s : State) (dt : Nat) (n : Fin 8) (l : FireLine) (c : LineCfg), s.powered = true → s.lines[n.val]? = some l → s.cfg.lines[n.val]? = some c →
    let a := s.elapse dt
    let o := c.outlet
    let x := s.out o
    let now := s.clock + dt
    (∀ active : Bool,
      let result := exec (.fireLineInput dt n active) s
      let sets (m : FireLine) : Host.Outcome State Fault Refusal := .next { a with lines := s.lines.set n.val { m with active := active } }
      (l.active = active → result = .next a) ∧
      (l.active ≠ active → c.enabled = false → result = sets l) ∧
      (l.active ≠ active → c.enabled = true →
        (l.state = .idle → active = true → result = sets { l with state := .pressing, since := now }) ∧
        (l.state = .pressing → active = false → result = sets { l with state := .idle }) ∧
        (l.state = .held → active = false → result = sets { l with state := .waitRelease, since := now }) ∧
        (l.state = .waitRelease → result = sets { l with since := now }))) ∧
    let result := exec (.fireLineStable dt n) s
    let becomes (k : LineState) : State := { a with lines := s.lines.set n.val { l with state := k } }
    (c.enabled = false ∨ now < l.since + 960 ∨ l.state = .idle ∨ l.state = .held ∨ (l.state = .waitRelease ∧ l.active = true) ∨
        (l.state = .pressing ∧ l.active = false) → result = .next a) ∧
    (c.enabled = true → l.since + 960 ≤ now →
      (l.state = .waitRelease → l.active = false → result = .next (becomes .idle)) ∧
      (l.state = .pressing → l.active = true →
        let may : Prop := s.isSelf o = true ∧ x.air = .onAir ∧ ∀ e ∈ x.entries, e.isBreak = true → e.state ≠ .onAir
        let noVoice : Prop := ∀ z ∈ s.voices, z.use = none → z.reserved ≠ some o ∧ z.reserved ≠ none
        let refused (u : State) : Prop := u.lines = (becomes .held).lines ∧
          ∃ r : Record, s.log.Wrote u.log [r] ∧ r.source = .instant ∧ r.outcome = .refused ∧ r.outlet = o ∧ r.cart = c.cart ∧
            r.planned = some a.now ∧ r.actual = none
        (x.air = .dark → result = .next ((becomes .held).finish a)) ∧
        (x.air ≠ .dark → (¬ may ∨ s.store.usable c.cart = none) → ∃ u : State, result = .next (u.finish a) ∧ refused u) ∧
        (∀ v, may → s.store.usable c.cart = some v → l.current = none → noVoice →
          ∃ u : State, result = .next (u.finish a) ∧ refused u ∧ (u.captures.slot .fetch).first.isSome = true) ∧
        (∀ v, may → s.store.usable c.cart = some v → l.current = none → ¬ noVoice →
          ∃ (u : State) (i : Nat) (w : VoiceUse), result = .next (u.finish a) ∧
            u.lines =
              s.lines.set n.val
                { l with
                  state := .held
                  current := some { cart := v.cart, serial := v.serial, fire := a.now, waiting := false, actual := none } } ∧
            s.voice i = none ∧ u.voice i = some w ∧ w.outlet = o ∧ w.holder = .line n.val ∧ w.cart = v.cart ∧ w.serial = v.serial ∧
              w.startPos = v.inCue ∧ w.sounded = 0 ∧ (w.state = .priming ∨ w.state = .primed)) ∧
        ∀ v f, may → s.store.usable c.cart = some v → l.current = some f →
          let fresh (k : Bool) : Instant := { cart := v.cart, serial := v.serial, fire := a.now, waiting := k, actual := none }
          (f.actual.isSome = true →
            ∃ u : State, result = .next (u.finish a) ∧ u.log = s.log ∧
              u.lines = s.lines.set n.val { l with state := .held, old := some f, current := some (fresh true) } ∧
              ∀ i w, a.voiceOf o (.line n.val) = some i → a.voice i = some w → w.sounding = true →
                ∃ w', u.voice i = some w' ∧ w'.state = .ramping ∧ w'.mult.stop ≤ a.clock + 480) ∧
          (f.actual = none →
            ∃ (u : State) (r : Record), result = .next (u.finish a) ∧ s.log.Wrote u.log [r] ∧ r.source = .instant ∧ r.outcome = .withdrawn ∧
              r.outlet = o ∧ r.cart = f.cart ∧ r.serial = f.serial ∧ r.planned = some f.fire ∧ r.actual = none ∧
              u.lines = s.lines.set n.val { l with state := .held, current := some (fresh f.waiting) } ∧
              (f.waiting = true → u.voices = a.voices) ∧
              ∀ i w, f.waiting = false → a.voiceOf o (.line n.val) = some i → a.voice i = some w →
                ∃ w', u.voice i = some w' ∧ w'.outlet = o ∧ w'.holder = .line n.val ∧ w'.cart = v.cart ∧ w'.serial = v.serial ∧
                  w'.startPos = v.inCue ∧ w'.sounded = 0 ∧ (w'.state = .priming ∨ w'.state = .primed))))

/-! ### Breaks -/

/-- A fit fills its break (R52 to R60). Of the usable opener, spots and closer, MAY spots, the closer, SHOULD spots, the opener and MUST spots
go in this order, of a class the last first, only as long as their play lengths exceed L; the spots that went, and those whose carts are not
usable, are the drops. A FOLLOW outlet abandons a fit without a spot. A gap the joins cannot take lets in fills, each time the longest that is
not longer than the gap, of equals the earlier in the pool, each once, behind the spots and before the closer. The items with their joins and
the tail make up L exactly; the joins share the gap, up to 12,000 samples each, or a tail of the bed, of silence (SELF) or of an early rejoin
(FOLLOW) takes it. -/
def Obligations.FitsFillTheBreak : Prop :=
  ∀ (st : Store) (follow : Bool) (tag len : Nat) (entry : Option Nat) (start : Option Time) (list : Option SpotList) (fills : List Nat)
    (bed : Option Nat),
    let sl : SpotList := list.getD { tag := tag, opener := none, closer := none, spots := [] }
    let fit := fitBreak st follow tag len entry start list fills bed
    let sum (l : List BreakItem) : Nat := (l.map BreakItem.playLen).sum
    let key (i : BreakItem) : ItemRole × Nat × Nat × Nat × Option SpotClass × Nat := (i.role, i.cart, i.serial, i.pos, i.cls, i.playLen)
    let offer (r : ItemRole) (cart : Option Nat) (pos : Nat) (k : Option SpotClass) :
        List (ItemRole × Nat × Nat × Nat × Option SpotClass × Nat) :=
      (cart.bind st.usable).toList.map fun v => (r, v.cart, v.serial, pos, k, v.len - v.inCue)
    let rank (i : BreakItem) : Nat :=
      if i.role = .opener then 4
      else if i.role = .closer then 2 else if i.cls = some .may then 1 else if i.cls = some .should then 3 else 5
    let goesBefore (r k : BreakItem) : Prop := rank r < rank k ∨ rank r = rank k ∧ k.pos < r.pos
    let spreadable (n g : Nat) : Prop := g = 0 ∨ 2 ≤ n ∧ g ≤ (n - 1) * 12000
    ∃ offered kept removed : List BreakItem,
      offered.map key =
        offer .opener sl.opener 0 none ++ (sl.spots.zipIdx.flatMap fun c => offer .spot (some c.1.1) (c.2 + 1) (some c.1.2)) ++
          offer .closer sl.closer 0 none ∧
      kept.Sublist offered ∧ (kept ++ removed).Perm offered ∧ sum kept ≤ len ∧ (∀ r ∈ removed, ∀ k ∈ kept, goesBefore r k) ∧
      (∀ r ∈ removed, (∀ q ∈ removed, q = r ∨ goesBefore q r) → len < sum kept + r.playLen) ∧
      (fit = none ↔ follow = true ∧ ∀ k ∈ kept, k.role ≠ .spot) ∧
      ∀ b, fit = some b →
        let filled := b.items.filter fun i => i.role == .fill
        let room (j : Nat) : Nat := len - sum kept - sum (filled.take j)
        let gap := len - sum b.items
        let joins := b.items.length - 1
        b.tag = tag ∧ b.len = len ∧ b.entryTag = entry ∧ b.start = start ∧ b.state = .armed ∧ b.announced = false ∧
        (b.items.filter fun i => i.role != .fill).map key = kept.map key ∧
        (∀ d, d ∈ b.drops ↔
          (∃ n c k, sl.spots[n]? = some (c, k) ∧ st.usable c = none ∧
            d = { pos := n + 1, cart := c, serial := ((st.current c).map Version.serial).getD 0, overlength := false }) ∨
          ∃ r ∈ removed, r.role = .spot ∧ d = { pos := r.pos, cart := r.cart, serial := r.serial, overlength := true }) ∧
        (b.drops.map Drop.pos).Pairwise (· < ·) ∧
        (spreadable kept.length (len - sum kept) → filled = []) ∧
        (∀ j f, filled[j]? = some f →
          f.cart ∈ fills ∧ f.cart ∉ (filled.take j).map BreakItem.cart ∧ f.playLen ≤ room j ∧
          (∃ v, st.usable f.cart = some v ∧ f.serial = v.serial ∧ f.playLen = v.len - v.inCue) ∧
          ∀ c v, c ∈ fills → c ∉ (filled.take j).map BreakItem.cart → st.usable c = some v → v.len - v.inCue ≤ room j →
            v.len - v.inCue < f.playLen ∨ v.len - v.inCue = f.playLen ∧ fills.idxOf f.cart ≤ fills.idxOf c) ∧
        (¬ spreadable kept.length (len - sum kept) → ∀ c v, c ∈ fills → c ∉ filled.map BreakItem.cart → st.usable c = some v →
          room filled.length < v.len - v.inCue) ∧
        (∀ (i j : Nat) (x y : BreakItem), i < j → b.items[i]? = some x → b.items[j]? = some y →
          (y.role = .fill → x.role ≠ .closer) ∧ (x.role = .fill → y.role = .fill ∨ y.role = .closer)) ∧
        (b.items.map fun i => i.playLen + i.join).sum + b.tailLen = len ∧
        (∀ k it, b.items[k]? = some it →
          it.offset = ((b.items.take k).map fun i => i.playLen + i.join).sum ∧ it.progress = .waiting ∧ it.join ≤ 12000 ∧
          it.join = if spreadable b.items.length gap ∧ k < joins then gap / joins + (if k < gap % joins then 1 else 0) else 0) ∧
        (spreadable b.items.length gap → b.tail = .none ∧ b.tailLen = 0) ∧
        (¬ spreadable b.items.length gap →
          b.tailLen = gap ∧
          (∀ v, bed.bind st.usable = some v → v.kind = .bed → b.tail = .bed) ∧
          ((∀ v, bed.bind st.usable = some v → v.kind ≠ .bed) → b.tail = if follow = true then .earlyRejoin else .silence)) ∧
        b.bedCart =
          if sum kept < len then ((bed.bind st.usable).filter fun v => v.kind == .bed).map fun v => (v.cart, v.serial) else none

/-- CUE_FRAME on the one FOLLOW outlet of its feed (R48, R49, R50): a cue for a tag it holds may release the break, and does nothing once the
break has begun or where it says nothing new; one that moves the break or changes its length releases it and is judged afresh, as a refit; a
new one is ignored, declined with a capture once, or fitted, its first voice asked for. -/
def Obligations.CuesAreTaken : Prop :=
  ∀ (s : State) (dt : Nat) (h : FrameHead) (b : CueBody) (o : OutletId) (pos : Time), s.powered = true → s.Hears h 16 → 1 ≤ b.feed →
    b.feed ≤ 64 → b.tag ≠ 0 → b.cancel ≤ 1 → s.isFollow o = true → (s.ocfg o).followFeed = b.feed → (s.out o).air ≠ .dark →
    (∀ p, p ≠ o → ¬ (s.isFollow p = true ∧ (s.ocfg p).followFeed = b.feed ∧ (s.out p).air ≠ .dark)) →
    (s.elapse dt).followed o = some pos →
    let a := s.elapse dt
    let x := s.out o
    let len := max 48000 (min 43200000 b.len)
    let result := exec (.cueFrame dt h b) s
    let declined (why : DeclineReason) (kind : FaultKind) : Prop :=
      let d : DeclinedCue := { tag := b.tag, start := b.start, len := len, reason := why }
      (x.declined = some d → result = .next (a.finish a)) ∧
      (x.declined ≠ some d →
        result =
          .next (((a.setOut o { a.out o with declined := some d }).latch
            { FaultInfo.bare kind with outlet := some o, node := some h.sender }).finish a))
    (∀ p f, x.place p = some f → f.tag = b.tag → (∀ q g, x.place q = some g → g.tag = b.tag → q = p) →
      ((f.state ≠ .armed ∨ ∃ t, f.start = some t ∧ t ≤ pos) → result = .next (a.finish a)) ∧
      (f.state = .armed → (∀ t, f.start = some t → pos < t) →
        (b.cancel = 1 → result = .next ((a.releaseFollow o p pos).finish a)) ∧
        (b.cancel = 0 → f.start = some b.start → f.len = len → result = .next (a.finish a)) ∧
        (b.cancel = 0 → ¬ (f.start = some b.start ∧ f.len = len) →
          let v := a.releaseFollow o p pos
          (v.out o).place p = none ∧
          (b.start - pos < 24000 →
            ∃ u : State, result = .next (u.finish a) ∧ (u.out o).place p = none ∧
              (u.out o).declined = some { tag := b.tag, start := b.start, len := len, reason := .late } ∧
              (x.declined ≠ some { tag := b.tag, start := b.start, len := len, reason := .late } →
                (u.captures.slot FaultKind.lateCue.cls).first.isSome = true)) ∧
          (24000 ≤ b.start - pos → (∀ l ∈ x.spots, l.tag ≠ b.tag) → result = .next (v.finish a)) ∧
          ∀ l, 24000 ≤ b.start - pos → x.spots.find? (fun l => l.tag == b.tag) = some l →
            ∀ q, (q = .first ∧ (p = .first ∨ x.place1 = none) ∨ q = .second ∧ p = .second ∧ x.place1.isSome = true) →
              (fitBreak v.store true b.tag len none (some b.start) (some l) x.fills x.bed = none → result = .next (v.finish a)) ∧
              ∀ g, fitBreak v.store true b.tag len none (some b.start) (some l) x.fills x.bed = some g →
                result = .next (((v.setOut o ((v.out o).setPlace q (some g))).requestSlot o q 0 (a.toGroup o b.start)).finish a)))) ∧
    ((∀ p f, x.place p = some f → f.tag ≠ b.tag) →
      (b.cancel = 1 → result = .next (a.finish a)) ∧
      (b.cancel = 0 → b.start - pos < 24000 → declined .late .lateCue) ∧
      (b.cancel = 0 → 24000 ≤ b.start - pos →
        ((∀ l ∈ x.spots, l.tag ≠ b.tag) → result = .next (a.finish a)) ∧
        ∀ l, x.spots.find? (fun l => l.tag == b.tag) = some l →
          (x.place1.isSome = true → x.place2.isSome = true → declined .overflow .cueOverflow) ∧
          ∀ p, (p = .first ∧ x.place1 = none ∨ p = .second ∧ x.place1.isSome = true ∧ x.place2 = none) →
            (fitBreak s.store true b.tag len none (some b.start) (some l) x.fills x.bed = none → result = .next (a.finish a)) ∧
            ∀ f, fitBreak s.store true b.tag len none (some b.start) (some l) x.fills x.bed = some f →
              result =
                .next (((a.setOut o ((a.out o).setPlace p (some f))).requestSlot o p 0 (a.toGroup o b.start)).finish a)))

/-- SWAP_OUT_START, SWAP_IN_START and BREAK_START (R61, R66, R67, R77, R78, R79): within 240 samples of the break's start the relay ramps out,
within 240 of its rejoin it ramps in, unless FALLBACK holds it or an EARLY_REJOIN tail has handed back before, over 480 samples; at its start
the break runs, as a shadow on an outlet that does not send, and in FALLBACK it ends at once. Its first item sounds from the start if its voice
is PRIMED. ITEM_DUE_TIME: a shadow's EARLY_REJOIN tail begins at its planned offset, its slots over, and the relay ramps in though nothing is
sent. That the relay ramps out from a start whose swap has not begun is the model's reading (log entry 25). -/
def Obligations.FollowBreaksStart : Prop :=
  ∀ (s : State) (dt : Nat) (o : OutletId) (p : Place) (b : FittedBreak) (t pos : Time), s.powered = true → s.isFollow o = true →
    (s.out o).place p = some b → b.start = some t → (s.elapse dt).followed o = some pos →
    let a := s.elapse dt
    let x := s.out o
    let m := (a.out o).relay.mult
    let ramps (v : Int) : Relay := { (a.out o).relay with mult := { start := a.clock, m0 := m.value a.clock, m1 := v, n := 480 } }
    let out : Prop := b.state = .armed ∧ t - 240 ≤ pos ∧ pos < t ∧ m.m1 ≠ 0
    let back : Prop := b.state = .running ∧ t + b.len - 240 ≤ pos ∧ pos < t + b.len ∧ m.value a.clock = 0 ∧ m.m1 = 0 ∧
      x.inFallback = false ∧ ¬ (b.tail = .earlyRejoin ∧ b.tailBegan.isSome = true)
    let none' : Prop := s.voiceQueue = [] ∧ ∀ i w, s.voice i = some w → w.outlet = o → ∀ k, w.holder ≠ .slot p k
    let result := exec (.breakStart dt o p) s
    (out → exec (.swapOutStart dt o p) s = .next (a.setOut o { a.out o with relay := ramps 0 })) ∧
    (¬ out → exec (.swapOutStart dt o p) s = .next a) ∧
    (back → exec (.swapInStart dt o p) s = .next (a.setOut o { a.out o with relay := ramps 16384 })) ∧
    (¬ back → exec (.swapInStart dt o p) s = .next a) ∧
    (b.state ≠ .armed ∨ pos < t → result = .next (a.finish a)) ∧
    (∀ (it : BreakItem) (i : Nat) (w : VoiceUse), b.state = .armed → t ≤ pos → x.air = .onAir → b.ending = false → b.resume = none →
      b.items[0]? = some it → it.progress ≠ .substituted → 0 < it.playLen → 480 ≤ t + b.len - pos → a.voiceOf o (.slot p 0) = some i →
      a.voice i = some w → w.state = .primed → s.horizon = none →
      (∀ k ∈ x.tallies, k.key ≠ .item p 0) →
      let c : State := a.startVoice i (.steady (multiplier (((s.store.find w.cart w.serial).map Version.trim).getD 0)))
      let next : Time := pos + it.playLen + it.join
      let v : State :=
        (c.setOut o
          { (a.out o).setPlace p
              (some
                { b with
                  state := .running
                  announced := false
                  items := b.items.set 0 { it with progress := .sounding, actual := some a.now, skipped := 0, mark := .here }
                  cursor := 1
                  due := some next }) with
            tallies := x.tallies ++ [{ key := .item p 0, since := a.now, stopped := none, tally := .empty }] }).requestSlot
          o p 1 (a.toGroup o next)
      result = .next ((if m.m1 = 0 then v else v.setOut o { v.out o with relay := ramps 0 }).finish a)) ∧
    (b.state = .armed → t ≤ pos → none' →
      (x.air.sends = false →
        result =
          .next
            ((a.setOut o
              ((a.out o).setPlace p
                (some
                  { b with
                    state := .running
                    announced := false
                    due := none
                    items := b.items.map fun it => if it.progress = .priming then { it with progress := .waiting } else it }))).finish a)) ∧
      (x.air = .onAir → b.ending = false → (∃ it, b.items[0]? = some it ∧ it.progress ≠ .substituted) →
        result =
          .next
            ((a.setOut o
              { (a.out o).setPlace p (some { b with state := .running, announced := false, cursor := 0, due := some t }) with
                relay := if m.m1 = 0 then (a.out o).relay else ramps 0 }).finish a)) ∧
      (x.air = .fallback →
        ∃ (u : State) (f : FittedBreak) (rs : List Record), result = .next (u.finish a) ∧ (u.out o).place p = some f ∧ f.state = .spent ∧
          f.tag = b.tag ∧ f.start = some t ∧ f.items = [] ∧ s.log.Wrote u.log rs ∧ (∀ r ∈ rs, r.breakTag = some b.tag) ∧
          (u.out o).spots = x.spots.filter fun l => l.tag != b.tag)) ∧
    (b.state = .running → x.air.sends = false → b.tail = .earlyRejoin → b.tailBegan = none → s.horizon = none →
      t + b.len - b.tailLen ≤ pos → pos < t + b.len →
      (∀ it ∈ b.items, it.actual = none → it.progress ≠ .substituted →
        it.mark = .elsewhere ∧ it.progress = .ended ∧ t + it.offset + it.playLen ≤ pos) →
      exec (.itemDueTime dt o p) s =
        .next
          ((a.setOut o
            { (a.out o).setPlace p (some { b with tailBegan := some (t + b.len - b.tailLen) }) with relay := ramps 16384 }).finish a))

/-- ITEM_DUE_TIME, REJOIN, CUT_AT_THE_REJOIN and BED_RAMP_START (R62 to R66, R68, R69, R76, R79): an item whose voice is PRIMED sounds at its
own multiplier, and the next slot is due at its end; at the rejoin the break's voices stop, its records are written in their order, drops,
items with their beds, the tail's bed, an item's slip being its actual start less its planned one, both of group time, and then the record of
a SELF outlet's entry, which leaves, and its list and place go; voices that would sound past the rejoin, and beds, ramp out to end in time. A
relay whose swap has not begun comes in from the rejoin (log entry 25). A BREAK entry taken over without its break leaves at its rejoin with
its record alone. -/
def Obligations.BreaksPlayToTheRejoin : Prop :=
  ∀ (s : State) (dt : Nat) (o : OutletId), s.powered = true → s.horizon = none →
    let a := s.elapse dt
    let x := s.out o
    (∀ (p : Place) (b : FittedBreak) (t pos : Time), x.place p = some b → b.state = .running → b.start = some t →
      a.position o = some pos →
      let r := t + b.len
      let left := (r - pos).toNat
      (∀ (k i : Nat) (it : BreakItem) (w : VoiceUse) (due : Time), x.air = .onAir → (∀ e ∈ x.entries, e.state = .onAir ∧ e.air.sounded = true) →
        x.seqSlot = none → x.anchorSlot = none → b.ending = false → b.due = some due → due ≤ pos → b.cursor = k → b.items[k]? = some it →
        it.progress ≠ .substituted → (∀ j jt, k = j + 1 → b.items[j]? = some jt → jt.progress ≠ .substituted) → b.resume = none →
        480 ≤ r - pos → s.voiceOf o (.slot p k) = some i → s.voice i = some w → w.state = .primed →
        (∀ q : OutletId, q.code < o.code → a.stepOutlet q = none) → (p = .second → a.stepFit o .first = none) →
        (∀ z ∈ x.tallies, z.key ≠ .item p k) →
        let c : State := a.startVoice i (.steady (multiplier (((s.store.find w.cart w.serial).map Version.trim).getD 0)))
        let next : Time := pos + it.playLen + it.join
        let u : State :=
          (c.setOut o
            { (a.out o).setPlace p
                (some
                  { b with
                    items := b.items.set k { it with progress := .sounding, actual := some a.now, skipped := 0, mark := .here }
                    cursor := k + 1
                    due := some next }) with
              tallies := x.tallies ++ [{ key := .item p k, since := a.now, stopped := none, tally := .empty }] }).requestSlot
            o p (k + 1) (a.toGroup o next)
        u.Rests → (∀ q, (u.out q).inherit = none) → exec (.itemDueTime dt o p) s = .next u.pump) ∧
      (pos < r → exec (.rejoin dt o (some p)) s = .next (a.finish a)) ∧
      (r ≤ pos → b.ending = false →
        ∃ (u : State) (f : FittedBreak) (rs : List Record), exec (.rejoin dt o (some p)) s = .next (u.finish a) ∧ (u.out o).place p = none ∧
          ((u.out o).spots = x.spots.filter fun l => l.tag != b.tag) ∧ s.log.Wrote u.log rs ∧
          f = (if x.air.sends = true then ((a.stopAtRejoin o p).fit o p).getD b else b.markShadow) ∧
          ((∀ i w, a.voice i = some w → w.outlet = o → ∀ k, w.holder ≠ .slot p k) → x.air.sends = true → f = b) ∧
          (let left? := (b.entryTag.bind x.entry).filter fun e => x.air.sends && e.state == .onAir;
            rs.map Record.unnumbered =
                (breakRecords f p (a.posDelay o)).map (fun q => a.asWritten o q.1) ++
                  left?.toList.map (fun e =>
                    a.asWritten o
                      (entryRecord e (if e.air.takenOver = true then .airedTakenOver else .aired) .none
                        (if e.air.sounding = true then a.breakPlayed e else e.air.played) (b.underfill pos))) ∧
              ∀ e, left? = some e → ∀ d ∈ (u.out o).entries, d.tag ≠ e.tag) ∧
          (∀ k it t', f.items[k]? = some it → it.actual = some t' → it.skipped = 0 →
            ∃ q ∈ rs, q.slot = some (k + 1) ∧ q.source ≠ .bed ∧ q.cart = it.cart ∧ q.serial = it.serial ∧ q.actual = some t' ∧
              ∃ pl, q.planned = some pl ∧ q.slip = t' - pl) ∧
          (x.air.sends = true → s.isFollow o = true → x.inFallback = false → (∀ q, q ≠ p → x.place q = none) →
            (u.out o).relay.mult.m1 = 16384)) ∧
      (∃ u : State, exec (.cutAtTheRejoin dt o p) s = .next u ∧ u = { a with voices := u.voices } ∧
        ∀ i w, a.voice i = some w →
          (w.outlet = o → w.sounding = true → (∃ k, w.holder = .slot p k) → w.looping = false → r - 480 ≤ pos → pos < r →
            left < w.passEnd - w.sounded → ∃ z, u.voice i = some z ∧ z.state = .ramping ∧ z.mult.stop ≤ a.clock + left) ∧
          ((w.outlet ≠ o ∨ w.sounding = false ∨ (∀ k, w.holder ≠ .slot p k) ∨ pos < r - 480 ∨ r ≤ pos ∨
              w.looping = false ∧ w.passEnd - w.sounded ≤ left ∨ w.looping = true ∧ w.holder = .slot p b.items.length) →
            u.voice i = some w)) ∧
      ∃ u : State, exec (.bedRampStart dt o p) s = .next u ∧ u = { a with voices := u.voices } ∧
        ∀ i w, a.voice i = some w →
          (w.outlet ≠ o ∨ w.sounding = false ∨ (∀ k, w.holder ≠ .slot p k) ∨ w.looping = false → u.voice i = some w) ∧
          ∀ (k : Nat) (e : Time) (n : Nat),
            (k = b.items.length ∧ e = r ∧ (∃ tb, b.tailBegan = some tb ∧ n = min (r - tb).toNat 24000) ∨
              n = 480 ∧ k + 1 = b.cursor ∧ ∃ d it, b.due = some d ∧ b.items[k]? = some it ∧ e = d - it.join) →
            w.outlet = o → w.sounding = true → w.holder = .slot p k → w.looping = true →
            (e - n ≤ pos → pos < e → ∃ z, u.voice i = some z ∧ z.state = .ramping ∧ z.mult.stop ≤ a.clock + (e - pos).toNat) ∧
            (pos < e - n → u.voice i = some w)) ∧
    ∀ e : Entry, x.entries.find? (fun e => decide (e.state = .onAir) && e.air.silentUntil.any fun t => decide (t ≤ a.now)) = some e →
      (x.entries.map Entry.tag).Nodup →
      ∃ (u : State) (r : Record), exec (.rejoin dt o none) s = .next (u.finish a) ∧ s.log.Wrote u.log [r] ∧ r.outcome = .airedTakenOver ∧
        r.entryTag = some e.tag ∧ (u.out o).entries = x.entries.filter fun d => d.tag != e.tag

/-! ### Voices and the store -/

/-- JUDGE_POINT, BLOCK_LEAVES_RING and LOOP_TO_IN_CUE (R94, R95, R100 to R102, R104): a block is good, or concealed for bad data or underrun,
the first of a run latching UNDERRUN (that a block concealed for bad data stays in the ring, and that overlapping concealment ramps act in the
order they were set, is the model's choice: log entries 54 and 55); a block that has played leaves the ring and joins a VALID stream check; a
looping voice begins its next pass, its stream check settled by the first. -/
def Obligations.BlocksAreJudgedAndLeave : Prop :=
  ∀ (s : State) (dt : Nat) (i : Fin 12) (w : VoiceUse), s.powered = true → (s.elapse dt).voice i = some w →
    let a := s.elapse dt
    let ahead := w.blockStart w.judged - w.sounded
    let judged := exec (.judgePoint dt i) s
    let left := exec (.blockLeavesRing dt i) s
    let looped := exec (.loopToInCue dt i) s
    let concealed (underrun : Bool) : State :=
      a.setVoice i
        (some
          { w with
            judged := w.judged + 1
            lastGood := false
            underrun := underrun
            concealed := w.concealed + 1
            stream := .void
            nextOrd := max w.nextOrd (w.judged + 1)
            factor :=
              if w.judged = 0 then [{ start := 0, m0 := 0, m1 := 0, n := 0 }]
              else if w.lastGood then
                w.factor ++ [{ start := a.clock, m0 := rampsValue w.factor a.clock, m1 := 0, n := ahead }]
              else w.factor })
    (w.judgeDue a.clock = false → judged = .next a) ∧
    (w.judgeDue a.clock = true →
      (∀ b, w.ring.find? (fun b => b.ord == w.judged) = some b →
        (b.flagged = false →
          judged =
            .next
              (a.setVoice i
                (some
                  { w with
                    judged := w.judged + 1
                    lastGood := true
                    underrun := false
                    factor :=
                      if w.lastGood then w.factor
                      else
                        w.factor ++
                          [{ start := a.clock + ahead, m0 := rampsValue w.factor (a.clock + ahead), m1 := 16384, n := 480 }] })).pump) ∧
        (b.flagged = true → judged = .next (concealed false).pump)) ∧
      ((∀ b ∈ w.ring, b.ord ≠ w.judged) →
        (w.underrun = true → judged = .next (concealed true).pump) ∧
        (w.underrun = false →
          judged =
            .next
              ((concealed true).latch
                { FaultInfo.bare .underrun with
                  outlet := some w.outlet
                  cart := some (w.cart, w.serial)
                  entryTag := w.entryTag
                  delivered := some w.delivered }).pump))) ∧
    (¬ (w.sounding = true ∧ w.blockDone = true) → left = .next a) ∧
    (w.sounding = true → w.blockDone = true →
      let gone (c : StreamCtx) : State :=
        a.setVoice i (some { w with leftOrd := w.leftOrd + 1, ring := w.ring.filter fun b => b.ord != w.leftOrd, stream := c })
      (w.stream = .void ∨ (∀ b ∈ w.ring, b.ord ≠ w.leftOrd) → left = .next (gone .void).pump) ∧
      ∀ b c n, w.stream = .valid c n → w.ring.find? (fun b => b.ord == w.leftOrd) = some b →
        (w.leftOrd < w.firstBlocks → left = .next (gone (.valid (crcUpdate c (samplesBytes b.data)) (n + 6 * b.data.length))).pump) ∧
        (w.firstBlocks ≤ w.leftOrd → left = .next (gone (.valid c n)).pump)) ∧
    (¬ (w.looping = true ∧ w.atPassEnd = true) → looped = .next a) ∧
    (w.looping = true → w.atPassEnd = true →
      let passed (c : Option StreamCheck) : State := a.setVoice i (some { w with passes := w.passes + 1, streamDone := c })
      (w.streamDone.isSome = true → looped = .next (passed w.streamDone).pump) ∧
      (w.streamDone = none → w.blockDone = false →
        (w.stream = .void → looped = .next (passed (some .notChecked)).pump) ∧
        ∀ c n v, w.stream = .valid c n → s.store.find w.cart w.serial = some v →
          (crcFinal c = v.check → looped = .next (passed (some .pass)).pump) ∧
          (crcFinal c ≠ v.check →
            looped =
              .next
                ({ (passed (some .fail)).latch
                    { FaultInfo.bare .streamMismatch with outlet := some w.outlet, cart := some (w.cart, w.serial) } with
                  store := s.store.quarantine w.cart w.serial } : State).pump)))

/-- RAMP_END and CART_END (R16, R26, R34, R40, R62, R95, R162): the voice is FREE and its owner has its report: an entry leaves AIRED,
AIRED_TAKEN_OVER or, ended before its cart, AIRED_CUT; an instant is recorded; a break item is ENDED, CUT if before its cart's end; a fallback
period is recorded. A voice that ends as it plays its cart's last sample for the first time, looping or not, settles its stream check (R104).
Here no request waits. -/
def Obligations.VoicesEnd : Prop :=
  ∀ (s : State) (dt : Nat) (i : Fin 12) (w : VoiceUse) (c : Instr), s.powered = true → (s.elapse dt).voice i = some w →
    let a := s.elapse dt
    let o := w.outlet
    let x := s.out o
    let whole : Prop := w.looping = false ∧ w.sounding = true ∧ w.passEnd ≤ w.sounded
    let ramped : Prop := w.state = .ramping ∧ (w.mult.stop ≤ a.clock ∨ whole)
    let stream (z : StreamCheck) : Prop := (∀ y, w.streamDone = some y → z = y) ∧ (w.streamDone = none → w.atPassEnd = false → z = .notChecked) ∧
      (w.streamDone = none → w.atPassEnd = true → w.stream = .void → z = .notChecked) ∧
      ∀ y n v, w.streamDone = none → w.atPassEnd = true → w.blockDone = false → w.stream = .valid y n →
        s.store.find w.cart w.serial = some v → z = if crcFinal y = v.check then .pass else .fail
    (¬ ramped → exec (.rampEnd dt i) s = .next a) ∧ (¬ whole → exec (.cartEnd dt i) s = .next a) ∧
    (c = .rampEnd dt i ∧ ramped ∨ c = .cartEnd dt i ∧ whole → s.voiceQueue = [] →
      (∀ tag e, w.holder = .entry tag → x.entry tag = some e →
        ∃ (u : State) (r : Record), exec c s = .next (u.finish a) ∧ u.voice i = none ∧ s.log.Wrote u.log [r] ∧ r.outlet = o ∧
          r.source = .entry ∧ r.entryTag = some tag ∧ r.played = w.sounded ∧ r.concealed = min 65535 w.concealed ∧ stream r.stream ∧
          (whole → e.air.offset ≤ 0 → r.outcome = .aired) ∧ (whole → 0 < e.air.offset → r.outcome = .airedTakenOver) ∧
          (¬ (w.looping = false ∧ w.passEnd ≤ w.sounded) → r.outcome = .airedCut) ∧
          (u.out o).entries = x.entries.filter fun d => d.tag != tag) ∧
      (∀ (n : Nat) (l : FireLine) (f : Instant), w.holder = .line n → s.lines[n]? = some l → l.old = none → l.current = some f →
        ∃ (u : State) (r : Record), exec c s = .next (u.finish a) ∧ u.voice i = none ∧ u.lines = s.lines.set n { l with current := none } ∧
          s.log.Wrote u.log [r] ∧ r.source = .instant ∧ r.cart = f.cart ∧ r.serial = f.serial ∧ r.planned = some f.fire ∧
          r.actual = f.actual ∧ r.played = w.sounded ∧ stream r.stream ∧ (whole → r.outcome = .aired) ∧
          (¬ (w.looping = false ∧ w.passEnd ≤ w.sounded) → r.outcome = .airedCut)) ∧
      (∀ (p : Place) (k : Nat) (b : FittedBreak) (it : BreakItem), w.holder = .slot p k → x.place p = some b → b.ending = false →
        b.items[k]? = some it → it.progress = .sounding →
        ∃ (u : State) (z : StreamCheck), exec c s = .next (u.finish a) ∧ u.voice i = none ∧ u.log = s.log ∧ stream z ∧
          (u.out o).place p =
            some
              { b with
                items :=
                  b.items.set k
                    { it with
                      progress := .ended
                      played := w.sounded
                      concealed := w.concealed
                      stream := z
                      mark := if w.looping = false ∧ w.passEnd ≤ w.sounded then it.mark else .cut } }) ∧
      ∀ (id : Nat) (q : FallbackPeriod), w.holder = .fallback id → x.periods.find? (fun q => q.id == id) = some q →
        ∃ (u : State) (r : Record), exec c s = .next (u.finish a) ∧ u.voice i = none ∧ s.log.Wrote u.log [r] ∧ r.source = .fallback ∧
          r.outlet = o ∧ r.cart = q.cart.getD 0 ∧ r.planned = some q.since ∧ r.actual = q.actual ∧ r.played = w.sounded ∧
          (u.out o).periods = x.periods.filter fun z => z.id != id)

/-- The fetch engine's completions (R93, R97, R98, R99, R103, R115, R119, R120): corrected words count; a read block joins its voice's ring,
PRIMED with its prime set complete, an uncorrectable word latches UNCORRECTABLE; a load's bytes stand in the version's pages and nowhere else;
a verification reads on, and after the last byte makes a current version READY or QUARANTINED, with its answer; an incoming one becomes
current in place of the former, which is freed or, while voices hold it, RETIRING, or is discarded; one awaiting discard is freed, both only
while no voice holds it (R111). -/
def Obligations.TransfersComplete : Prop :=
  ∀ (s : State) (dt : Nat) (ecc : Ecc) (t : Transfer), s.powered = true → s.isolated = false → s.transfer = some t →
    let a := s.elapse dt
    let read : State :=
      { a with transfer := none, captures := { s.captures with corrected := min 4294967295 (s.captures.corrected + ecc.corrected) } }
    (∀ (c : Instr) (i ord : Nat) (fin : State → State),
      (c = .primingTransferComplete dt ecc ∧ t.kind = .priming i ord ∧ fin = fun u => u.finish a) ∨
        (c = .refillComplete dt ecc ∧ t.kind = .refill i ord ∧ fin = State.pump) →
      (t.stale = true → exec c s = .next (fin read)) ∧
      ∀ w v, t.stale = false → a.voice i = some w → w.nextOrd = ord → s.store.find w.cart w.serial = some v →
        let idx := w.blockIndex ord
        let data := framesOfBytes (readChain s.store.mem v.chain (6144 * idx) (6 * min 1024 (v.len - 1024 * idx)))
        let u : State :=
          read.setVoice i
            (some
              { w with
                ring := w.ring ++ [{ ord := ord, flagged := ecc.uncorrectable.isSome, data := data }]
                nextOrd := ord + 1
                delivered := w.delivered + 1
                bad := w.bad || ecc.uncorrectable.isSome
                state := if w.state = .priming ∧ w.primeSet ≤ w.delivered + 1 then .primed else w.state })
        (ecc.uncorrectable = none → exec c s = .next (fin u)) ∧
        ∀ page, ecc.uncorrectable = some page →
          exec c s =
            .next
              (fin
                (u.latch
                  { FaultInfo.bare .uncorrectable with
                    outlet := some w.outlet
                    cart := some (w.cart, w.serial)
                    entryTag := w.entryTag
                    page := some page }))) ∧
    (∀ (p : Payload) (v : Version), t.kind = .load p → t.stale = false → s.store.find p.cart p.serial = some v → memWf s.store.mem = true →
      ∃ mem : List Host.Cell,
        exec (.loadWriteComplete dt) s =
          .next
            ({ a with
               transfer := none
               store :=
                 { s.store with
                   mem := mem
                   versions := s.store.versions.map fun w =>
                     if w.cart = p.cart ∧ w.serial = p.serial then { w with written := w.written + p.bytes.length } else w } } :
                State).pump ∧
        ((∀ j k, j < p.bytes.length → k < p.bytes.length → byteAddr v.chain (p.offset + j) = byteAddr v.chain (p.offset + k) → j = k) →
          ∀ k b, p.bytes[k]? = some b → memRead mem (byteAddr v.chain (p.offset + k)) = b) ∧
        ∀ addr, (∀ k, k < p.bytes.length → byteAddr v.chain (p.offset + k) ≠ addr) → memRead mem addr = memRead s.store.mem addr) ∧
    (∀ (cart serial off size : Nat) (v : Version), t.kind = .verify cart serial off size → t.stale = false →
      s.store.find cart serial = some v →
      let result := exec (.verifyReadComplete dt ecc) s
      let crc := crcUpdate ((s.store.sweep.map Sweep.crc).getD 0xFFFFFFFF#32) (readChain s.store.mem v.chain off size)
      let ends (u : State) (k : VersionState) : State :=
        let b : State :=
          { u with
            store :=
              { s.store with
                verifyQueue := s.store.verifyQueue.filter fun q => q != (v.cart, v.serial)
                sweep := s.store.sweep.filter fun w => !(w.cart == v.cart && w.serial == v.serial)
                versions := s.store.versions.map fun w =>
                  if w.cart = v.cart ∧ w.serial = v.serial then { w with state := k, closeTag := none } else w } }
        match v.closeTag with
        | none => b
        | some z =>
          b.sends
            (.answer
              { dest := z.node, tag := z.tag, kind := 3, outlet := none, followUp := true, result := .ok,
                fields := .verified v.cart v.serial (k == .ready) })
      let failure (page : Option Nat) : FaultInfo :=
        { FaultInfo.bare .verifyMismatch with cart := some (v.cart, v.serial), page := page }
      (ecc.uncorrectable = none → off + size < 6 * v.len →
        result =
          .next
            ({ read with
               store := { s.store with sweep := some { cart := cart, serial := serial, next := off + size, crc := crc } } } : State).pump) ∧
      (v.role = .current →
        (ecc.uncorrectable = none → 6 * v.len ≤ off + size → crcFinal crc = v.check → result = .next (ends read .ready).pump) ∧
        (ecc.uncorrectable = none → 6 * v.len ≤ off + size → crcFinal crc ≠ v.check →
          result = .next (ends (read.latch (failure none)) .quarantined).pump) ∧
        ∀ page, ecc.uncorrectable = some page → result = .next (ends (read.latch (failure (some page))) .quarantined).pump) ∧
      let gone (u : State) : Prop := ∀ w ∈ u.store.versions, ¬ (w.cart = v.cart ∧ w.serial = v.serial)
      let answers (k : Bool) : List SentFrame :=
        match v.closeTag with
        | none => s.sent
        | some z =>
          s.sent ++
            [a.frame
              (.answer
                { dest := z.node, tag := z.tag, kind := 3, outlet := none, followUp := true, result := .ok,
                  fields := .verified v.cart v.serial k })]
      (v.role = .incoming → s.store.Paged →
        (ecc.uncorrectable = none → 6 * v.len ≤ off + size → crcFinal crc = v.check →
          (∀ old, s.store.current v.cart = some old → old.serial ≠ v.serial) →
          ∃ (u : State) (w : Version), result = .next u.pump ∧ u.sent = answers true ∧ w ∈ u.store.versions ∧
            w = { v with state := .ready, role := .current, closeTag := none } ∧
            ∀ old, s.store.current v.cart = some old →
              (old.useCount = 0 → ∀ w ∈ u.store.versions, ¬ (w.cart = old.cart ∧ w.serial = old.serial)) ∧
              (old.useCount ≠ 0 → { old with state := .retiring, role := .superseded } ∈ u.store.versions)) ∧
        (ecc.uncorrectable.isSome = true ∨ 6 * v.len ≤ off + size ∧ crcFinal crc ≠ v.check →
          ∃ u : State, result = .next u.pump ∧ u.sent = answers false ∧ (v.useCount = 0 → gone u) ∧
            (u.captures.slot FaultKind.verifyMismatch.cls).first.isSome = true))) ∧
    ∀ (cart serial off size : Nat) (v : Version), t.kind = .verify cart serial off size → t.stale = true →
      s.store.find cart serial = some v →
      (v.role = .discarding →
        ∃ u : State, exec (.verifyReadComplete dt ecc) s = .next u.pump ∧ u.sent = s.sent ∧
          (v.useCount = 0 → ∀ w ∈ u.store.versions, ¬ (w.cart = v.cart ∧ w.serial = v.serial))) ∧
      (v.role ≠ .discarding → exec (.verifyReadComplete dt ecc) s = .next read.pump)

/-- CART_OPEN, CART_DATA, CART_CLOSE and CART_DROP (R107, R110 to R117, R123): their answers in order; a new version with the lowest free pages,
a payload queued, a load closed for its verification, and the versions of a dropped cart gone or, while voices hold them, RETIRING. That the new
load serial also steps past that of the QUARANTINED version this CART_OPEN frees is log entry 62. -/
def Obligations.CartRequestsAreAnswered : Prop :=
  ∀ (s : State) (dt : Nat) (req : RequestHead),
    let a := s.elapse dt
    let answered (k : Nat) (r : ResultCode) : State := a.answers req k none r .none
    let malformed (k : Nat) : State := (answered k .malformed).latch { FaultInfo.bare .malformed with node := some req.head.sender }
    let cartBad (c : Nat) : Prop := c = 0 ∨ 999999 < c
    let next (n : Nat) : Nat := if 65535 ≤ n then 1 else n + 1
    let failed (v : Version) (k : Nat) (result : Host.Outcome State Fault Refusal) : Prop :=
      ∃ u : State, result = .next u.pump ∧ u.sent = (answered k .sequence).sent ∧ (u.captures.slot .request).first.isSome = true ∧
        ((∀ w ∈ s.store.versions, w.cart = v.cart → w.serial = v.serial → w.useCount = 0) →
          ∀ w ∈ u.store.versions, w.cart = v.cart → w.serial = v.serial → w.role = .discarding)
    (∀ f : CartFields, s.TakesUnit req 22 →
      let result := exec (.cartOpen dt req f) s
      let bad : Prop := cartBad f.cart ∨ f.kind = 0 ∨ 6 < f.kind ∨ f.len = 0 ∨ 172800000 < f.len
      let busy : Prop :=
        (∃ v ∈ s.store.versions, v.cart = f.cart ∧ v.role = .incoming) ∨ 2 ≤ (s.store.versions.filter fun v => v.cart == f.cart).length ∨
          ∃ v, s.store.current f.cart = some v ∧ (v.state = .loading ∨ v.state = .verifying)
      let need := (6 * f.len + 65535) / 65536
      (bad → result = .next (malformed 1)) ∧
      (¬ bad → busy → result = .next (answered 1 .busy)) ∧
      (¬ bad → ¬ busy →
        ∀ st : Store,
          (st = s.store ∧ (∀ v, s.store.current f.cart = some v → v.state ≠ .quarantined ∨ v.useCount ≠ 0) ∨
            ∃ v, s.store.current f.cart = some v ∧ v.state = .quarantined ∧ v.useCount = 0 ∧ s.store.Paged ∧
              st = s.store.freeVersion v.cart v.serial) →
          ((runsCount st.free < need ∨ 4096 ≤ st.versions.length) → result = .next (answered 1 .full)) ∧
          (need ≤ runsCount st.free → st.versions.length < 4096 →
            ∃ (v : Version) (rest : List PageRun),
              result =
                .next
                  (({ a with store := { st with free := rest, serialCounter := v.serial, versions := st.versions ++ [v] } } : State).answers
                    req 1 none .ok (.opened v.serial v.role)) ∧
              takePages st.free need = (v.chain, rest) ∧ runsCount v.chain = need ∧ CartKind.ofCode f.kind = some v.kind ∧ v.cart = f.cart ∧
              v.len = f.len ∧ v.inCue = (if f.inCue < f.len then f.inCue else 0) ∧
              v.outCue = (if min f.outCue f.len < v.inCue then f.len else min f.outCue f.len) ∧ v.trim = max (-48) (min 12 f.trim) ∧
              v.check = f.check ∧ v.state = .loading ∧ v.useCount = 0 ∧ v.received = 0 ∧ v.written = 0 ∧
              v.role = (if (st.current f.cart).isSome then .incoming else .current) ∧
              let n := next s.store.serialCounter
              ((∃ z ∈ s.store.versions, z.cart = f.cart ∧ z.serial = n) → v.serial = next n) ∧
              ((∀ z ∈ s.store.versions, z.cart = f.cart → z.serial ≠ n) → v.serial = n)))) ∧
    (∀ (cart offset : Nat) (payload : List Byte), s.TakesUnit req (10 + payload.length) →
      let result := exec (.cartData dt req cart offset payload) s
      let bad : Prop := cartBad cart ∨ payload = [] ∨ 1152 < payload.length
      (bad → result = .next (malformed 2)) ∧ (¬ bad → s.store.loading cart = none → result = .next (answered 2 .noLoad)) ∧
      ∀ v, ¬ bad → s.store.loading cart = some v →
        ((offset ≠ v.received ∨ 6 * v.len < offset + payload.length) → failed v 2 result) ∧
        (offset = v.received → offset + payload.length ≤ 6 * v.len →
          (64 ≤ s.store.loadQueue.length → result = .next (answered 2 .busy)) ∧
          (s.store.loadQueue.length < 64 →
            result =
              .next
                (({ a with
                    store :=
                      { s.store with
                        loadQueue := s.store.loadQueue ++ [{ cart := v.cart, serial := v.serial, offset := offset, bytes := payload }]
                        versions := s.store.versions.map fun w =>
                          if w.cart = v.cart ∧ w.serial = v.serial then { w with received := w.received + payload.length } else w } } :
                    State).answers req 2 none .ok .none).pump))) ∧
    (∀ cart : Nat, s.TakesUnit req 4 →
      let result := exec (.cartClose dt req cart) s
      (cartBad cart → result = .next (malformed 3)) ∧ (¬ cartBad cart → s.store.loading cart = none → result = .next (answered 3 .noLoad)) ∧
      ∀ v, ¬ cartBad cart → s.store.loading cart = some v →
        (v.received ≠ 6 * v.len → failed v 3 result) ∧
        (v.received = 6 * v.len →
          result =
            .next
              (({ a with
                  store :=
                    { s.store with
                      verifyQueue := s.store.verifyQueue ++ [(v.cart, v.serial)]
                      versions := s.store.versions.map fun w =>
                        if w.cart = v.cart ∧ w.serial = v.serial then
                          { w with state := .verifying, closeTag := some { tag := req.tag, node := req.head.sender } }
                        else w } } :
                  State).answers req 3 none .ok .none).pump)) ∧
    ∀ cart : Nat, s.TakesUnit req 4 →
      let result := exec (.cartDrop dt req cart) s
      let named (v : Version) : Prop := v.cart = cart ∧ (v.role = .current ∨ v.role = .incoming)
      (cartBad cart → result = .next (malformed 4)) ∧
      (¬ cartBad cart → (∀ v ∈ s.store.versions, ¬ named v) → result = .next (answered 4 .notFound)) ∧
      (¬ cartBad cart → (∃ v ∈ s.store.versions, named v) → s.store.Paged →
        ∃ u : State, result = .next u.pump ∧ u.sent = (answered 4 .ok).sent ∧ (∀ v ∈ u.store.versions, ¬ named v) ∧
          ∀ v ∈ s.store.versions, named v → v.state = .ready ∨ v.state = .quarantined →
            (v.useCount = 0 → ∀ w ∈ u.store.versions, w.cart = v.cart → w.serial ≠ v.serial) ∧
            (v.useCount ≠ 0 → { v with state := .retiring, role := .superseded } ∈ u.store.versions))

/-! ### The relay, the meters and the confidence monitor -/

/-- AUDIO_FRAME of the feed one FOLLOW outlet follows, where that is neither the reference feed nor one of the unit's own, and RELAY_SLOT_JUDGE
(R71 to R75). An anchored relay discards a late frame, one of the slot judged last among them, a duplicate and one beyond its 16 slots, and
holds any other; a collecting one keeps the frames of 16 slots, and with four of them and no break in progress presents from the earliest on,
ramping in, an ARMED break whose start it passes released without records. The slot the relay stands in is judged once: a present one is
presented, ramping in after a gap, a missing one counts, and the 100th in a row of a RELAYING relay makes it LOST with SOURCE_LOST. The
multiplier at a resync is log entry 23, and that a resync from UNSET moves on from the group time, and so releases an ARMED break whose start it
passes, log entry 24. -/
def Obligations.RelayFramesArePlacedAndJudged : Prop :=
  ∀ (s : State) (dt : Nat) (o : OutletId), s.powered = true →
    let a := s.elapse dt
    let x := a.out o
    let r := x.relay
    let collecting : Prop := r.state = .unset ∨ r.state = .lost ∧ x.inBreak = false
    (∀ (h : FrameHead) (b : AudioBody) (phase : Nat), s.Hears h 314 → b.frameTime % 48 = 0 → 1 ≤ b.feed → b.feed ≤ 64 →
      s.isFollow o = true → (s.ocfg o).followFeed = b.feed → x.air ≠ .dark → s.disc.groupTime.isSome = true → s.cfg.refFeed ≠ b.feed →
      (∀ p, (s.ocfg p).feed ≠ b.feed) → (∀ p, p ≠ o → s.isFollow p = true → (s.ocfg p).followFeed ≠ b.feed) →
      let f := b.frameTime
      let g : HeldFrame := { time := f, sender := h.sender, samples := b.samples }
      let result := exec (.audioFrame dt h b phase) s
      let taken (v : Relay) : State :=
        let u := a.setOut o { x with relay := v }
        (if x.air.sends = true then u.collectEcho o f b.samples else u).finish a
      let dup (l : List HeldFrame) : Prop := ∃ q ∈ l, q.time = f
      let inserted (l m : List HeldFrame) : Prop :=
        ∃ pre post, l = pre ++ post ∧ m = pre ++ g :: post ∧ (∀ q ∈ pre, q.time < f) ∧ ∀ q, post.head? = some q → f < q.time
      (∀ pos, ¬ collecting → r.position = some pos →
        let held := r.buffer.filter fun q => decide (pos < q.time + 48)
        let discarded : Prop := f < pos ∨ (∃ y, r.slot = some (f, y)) ∨ dup held ∨ pos / 48 * 48 + 720 < f
        (discarded → result = .next (taken { r with buffer := held })) ∧
        (¬ discarded → ∃ m, inserted held m ∧ result = .next (taken { r with buffer := m }))) ∧
      (collecting → (r.buffer.map HeldFrame.time).Pairwise (· < ·) →
        ∃ m : List HeldFrame,
          (dup r.buffer → m = r.buffer) ∧
          ((∀ q ∈ r.buffer, q.time < f) → m = (r.buffer ++ [g]).dropWhile fun q => decide (720 < f - q.time)) ∧
          (∀ first last, r.buffer.head? = some first → r.buffer.getLast? = some last → f < first.time →
            m = if last.time - f ≤ 720 then g :: r.buffer else r.buffer) ∧
          (¬ dup r.buffer → (∃ q ∈ r.buffer, q.time < f) → (∃ q ∈ r.buffer, f < q.time) → inserted r.buffer m) ∧
          (m.length < 4 ∨ x.inBreak = true → result = .next (taken { r with buffer := m })) ∧
          ∀ e, 4 ≤ m.length → x.inBreak = false → m.head? = some e →
            let passed (q : FittedBreak) : Prop :=
              q.state = .armed ∧ ∃ t old, q.start = some t ∧ a.followed o = some old ∧ old < t ∧ t ≤ e.time
            ((∀ p q, x.place p = some q → ¬ passed q) →
              result =
                .next
                  (taken
                    { r with
                      state := .relaying, position := some e.time, buffer := m, missing := 0, slot := none
                      conceal := { start := a.clock, m0 := 0, m1 := 16384, n := 480 }
                      mult := if x.inFallback = true then r.mult else { start := 0, m0 := 16384, m1 := 16384, n := 0 } })) ∧
            ∀ p q, x.place p = some q → passed q →
              ∃ u : State, result = .next (u.finish a) ∧ (u.out o).place p = none ∧ u.log = s.log ∧ (u.out o).spots = x.spots ∧
                (u.out o).relay.state = .relaying ∧ (u.out o).relay.position = some e.time ∧ (u.out o).relay.buffer = m)) ∧
    let result := exec (.relaySlotJudge dt o) s
    (r.position = none → result = .next a) ∧
    ∀ pos, r.position = some pos →
      let f := pos / 48 * 48
      ((∃ y, r.slot = some (f, y)) → result = .next a) ∧
      ((∀ y, r.slot ≠ some (f, y)) →
        (∀ g, ¬ collecting → r.buffer.find? (fun g => g.time == f) = some g →
          result =
            .next
              (a.setOut o
                { x with
                  relay :=
                    { r with
                      state := .relaying
                      missing := 0
                      lastSender := some g.sender
                      slot := some (f, some g.samples)
                      conceal := if r.missing = 0 then r.conceal else { start := a.clock, m0 := 0, m1 := 16384, n := 480 } } })) ∧
        ((collecting ∨ ∀ g ∈ r.buffer, g.time ≠ f) →
          (r.state ≠ .relaying ∨ r.missing < 99 →
            result = .next (a.setOut o { x with relay := { r with missing := min 100 (r.missing + 1), slot := some (f, none) } })) ∧
          (r.state = .relaying → 99 ≤ r.missing →
            result =
              .next
                ((a.setOut o
                  { x with
                    relay :=
                      { r with
                        missing := 100
                        slot := some (f, none)
                        state := .lost
                        buffer := if x.inBreak then r.buffer else [] } }).latch
                  { FaultInfo.bare .sourceLost with outlet := some o, node := r.lastSender }))))

/-- METER_BLOCK_END (R154 to R156, R158, R161): of 1,024 samples the sum of the squares is the block's level; a block within 40 dB of the one
accepted last is accepted and goes to the silence detector, another is held; a held one is accepted with its like of the next block within 6 dB.
Entering DEAD latches DEAD_AIR; an ON_AIR outlet with a best successor yields to it, one without enters FALLBACK, and a FOLLOW outlet on its
relay enters FALLBACK first (R137, R138, R158, R159). The source's LIVE ends a FOLLOW outlet's FALLBACK, the relay ramping in from 0 (R77; also
while its ramp out still runs, log entry 69). -/
def Obligations.MeterBlocksAreJudged : Prop :=
  ∀ (s : State) (dt : Nat) (o : OutletId) (w : MeterId), s.powered = true →
    let a := s.elapse dt
    let x := a.out o
    let m := x.meter w
    let result := exec (.meterBlockEnd dt o w) s
    let power := (((takeSamples false 1024 m.buf).1.map SampleFrame.limited).map fun f =>
      f.l.natAbs * f.l.natAbs + f.r.natAbs * f.r.natAbs).sum
    let taken : Meter := { m with buf := (takeSamples false 1024 m.buf).2 }
    let becomes (n : Meter) : State := a.setOut o (x.setMeter w n)
    let level (p : Nat) : Nat := max (p * 10 ^ 12) (2 ^ 56)
    let near (p q : Nat) : Prop := level p ≤ 10 ^ 4 * level q ∧ level q ≤ 10 ^ 4 * level p
    let close (p q : Nat) : Prop := level p ^ 5 ≤ 10 ^ 3 * level q ^ 5 ∧ level q ^ 5 ≤ 10 ^ 3 * level p ^ 5
    let low : Prop := power * 10 ^ 5 < 2 ^ 56
    let high : Prop := 2 ^ 280 < power ^ 5 * 10 ^ 22
    let accepted (d : Silence) (n : Nat) : Meter :=
      { taken with accepted := (power :: m.accepted).take 4, held := none, detector := d, count := n }
    let fits : Prop := ∀ q, m.accepted.head? = some q → near power q
    let fresh : Prop := ∀ q, m.held = some q → ¬ close power q
    let direct : Prop :=
      s.isFollow o = true ∧ ∀ p b, x.place p = some b → b.state ≠ .running ∨ b.tail = .earlyRejoin ∧ b.tailBegan.isSome = true
    ((m.running = false ∨ spansLen m.buf < 1024) → result = .next (a.finish a)) ∧
    (m.running = true → 1024 ≤ spansLen m.buf →
      (fresh → ¬ fits → result = .next ((becomes { taken with held := some power }).finish a)) ∧
      (fresh → fits →
        (m.detector = .live → ¬ low → result = .next ((becomes (accepted .live m.count)).finish a)) ∧
        (m.detector = .live → low → result = .next ((becomes (accepted .quiet 1)).finish a)) ∧
        (m.detector = .quiet → low → m.count + 1 ≠ 235 → result = .next ((becomes (accepted .quiet (m.count + 1))).finish a)) ∧
        (m.detector = .quiet → low → m.count + 1 = 235 →
          (w = .source → result = .next ((becomes (accepted .dead 0)).finish a)) ∧
          (w = .programme → ∃ u : State, result = .next (u.finish a) ∧ (u.captures.slot .air).first.isSome = true ∧
            (x.air = .onAir →
              (∀ n, s.bestSuccessor o = some n → (u.out o).air = .yielding ∧ ∃ fb : Bool, (fb = true ↔ direct) ∧
                (u.out o).yielding = some { successor := n, cause := .fault, fromFallback := fb, since := a.clock }) ∧
              (s.bestSuccessor o = none → (u.out o).air = .fallback ∧ (u.out o).yielding = none) ∧
              (direct ∨ s.bestSuccessor o = none → ∃ q ∈ (u.out o).periods, q.since = a.now ∧ q.ended = none)))) ∧
        (m.detector = .dead → high → m.count + 1 ≠ 47 → result = .next ((becomes (accepted .dead (m.count + 1))).finish a)) ∧
        (m.detector = .dead → ¬ high → result = .next ((becomes (accepted .dead 0)).finish a)) ∧
        (m.detector = .quiet ∧ ¬ low ∨ m.detector = .dead ∧ high ∧ m.count + 1 = 47 →
          (w = .programme ∨ s.isFollow o = false ∨ x.inFallback = false ∨ (∃ p b, x.place p = some b ∧ b.state = .spent) →
            result = .next ((becomes (accepted .live 0)).finish a)) ∧
          (w = .source → s.isFollow o = true → x.air = .fallback → (∀ p b, x.place p = some b → b.state ≠ .spent) →
            ∃ u : State, result = .next (u.finish a) ∧ (u.out o).air = .onAir ∧ (u.out o).source = accepted .live 0 ∧
              (u.out o).programme = .started ∧ (u.out o).relay.mult = { start := a.clock, m0 := 0, m1 := 16384, n := 480 }))) ∧
      (∀ q, m.held = some q → close power q → m.detector = .live → 2 ^ 56 ≤ q * 10 ^ 5 → ¬ low →
        result = .next ((becomes { taken with accepted := (power :: q :: m.accepted).take 4, held := none }).finish a)))

/-- ECHO_BLOCK_END, HISTORY_ENTRY_LEAVE, ECHO_OPEN_BLOCK_TIMEOUT and TAP_COMPLETION, and what an AUDIO frame and a peer's echo bring about (R147
to R151, R153): a frame of the monitored feed joins the open block, or closes it and opens its own; a peer's echo confirms or contradicts a
whole open entry of its block, and no other. The history takes the check over the samples sent of a block (also as a 17th entry, log entry 73),
and an entry leaves 81,600 samples after its block began, a third MISMATCH in a row latching ECHO_MISMATCH; an open block closes 9,600 samples
after its beginning with its check or MISSING; the tap confirms or contradicts an entry. -/
def Obligations.EchoesAreKept : Prop :=
  ∀ (s : State) (dt : Nat) (o : OutletId), s.powered = true →
    let a := s.elapse dt
    let x := a.out o
    (∀ (p : Span) (rest : List Span), x.echoBuf = p :: rest →
      let block := p.time / 4800 * 4800
      let room := (block + 4800 - p.time).toNat
      let driven := ((takeSamples false room x.echoBuf).1).map SampleFrame.limited
      (spansLen x.echoBuf < room → exec (.echoBlockEnd dt o) s = .next a) ∧
      (room ≤ spansLen x.echoBuf → driven ≠ [] → (∀ h ∈ x.history, h.block ≠ block) →
        ∃ (e : HistEntry) (pre post : List HistEntry),
          exec (.echoBlockEnd dt o) s =
            .next ((a.setOut o { x with echoBuf := (takeSamples false room x.echoBuf).2, history := pre ++ e :: post }).finish a) ∧
          x.history = pre ++ post ∧ (∀ h ∈ pre, h.block < block) ∧ (∀ h, post.head? = some h → block < h.block) ∧
          e.block = block ∧ e.firstDriven = p.time ∧ e.lastDriven = p.time + driven.length - 1 ∧
          e.driven = crc32 (samplesBytes driven) ∧ (e.isPartial = false ↔ p.time = block ∧ driven.length = 4800) ∧
          (driven.length = room →
            e.check = crc32 (samplesBytes
              (List.replicate (if p.first then (p.time % 48).toNat else 0) ({ l := 0, r := 0 } : SampleFrame) ++ driven))) ∧
          e.tap = .pending ∧ e.peerMatch = false ∧ e.peerMismatch = false ∧ e.result = none)) ∧
    (s.disc.groupTime = none → exec (.historyEntryLeave dt o) s = .next (a.finish a)) ∧
    (∀ now, a.disc.groupTime = some now →
      let due (h : HistEntry) : Bool := decide (h.block + 81600 ≤ now)
      ∃ u : State, exec (.historyEntryLeave dt o) s = .next (u.finish a) ∧ (u.out o).history = (x.history.filter fun h => !due h) ∧
        ∀ e, x.history.filter due = [e] → x.air.sends = true →
          (e.result = none → (e.tap = .mismatch ∨ e.peerMismatch = true) →
            (x.mismatchRun = 2 → (u.out o).mismatchRun = 0 ∧ (u.captures.slot .air).first.isSome = true) ∧
            (x.mismatchRun ≠ 2 → (u.out o).mismatchRun = x.mismatchRun + 1)) ∧
          ((e.result = none ∧ e.tap ≠ .mismatch ∧ e.peerMismatch = false ∨ e.result = some .confirmed) → (u.out o).mismatchRun = 0)) ∧
    (∀ (b : OpenBlock) (now : Time) (feed : Nat), x.openBlock = some b → a.disc.groupTime = some now → a.monitored o = some feed →
      (now < b.block + 9600 → exec (.echoOpenBlockTimeout dt o) s = .next a) ∧
      (b.block + 9600 ≤ now →
        exec (.echoOpenBlockTimeout dt o) s =
          .next
            (a.setOut o
              { x with
                openBlock := none
                echo :=
                  some
                    { feed := feed, block := b.block,
                      check := if b.frames.length = 100 then some (crc32 (samplesBytes (b.frames.flatMap Prod.snd))) else none } }))) ∧
    (x.openBlock = none → exec (.echoOpenBlockTimeout dt o) s = .next a) ∧
    (∀ (time : Time) (samples : List SampleFrame),
      let block := time / 4800 * 4800
      let holds (b : Option OpenBlock) (e : Option EchoReport) : State := s.setOut o { s.out o with openBlock := b, echo := e }
      let old := (s.out o).echo
      let result := s.collectEcho o time samples
      ((s.out o).openBlock = none → result = holds (some { block := block, frames := [(time, samples)] }) old) ∧
      ∀ b, (s.out o).openBlock = some b →
        (block < b.block ∨ block = b.block ∧ (∃ f ∈ b.frames, f.1 = time) → result = s) ∧
        (block = b.block → (∀ f ∈ b.frames, f.1 ≠ time) →
          ∃ pre post, b.frames = pre ++ post ∧ (∀ f ∈ pre, f.1 < time) ∧ (∀ f, post.head? = some f → time < f.1) ∧
            result = holds (some { b with frames := pre ++ (time, samples) :: post }) old) ∧
        ∀ feed, b.block < block → s.monitored o = some feed →
          result =
            holds (some { block := block, frames := [(time, samples)] })
              (some
                { feed := feed, block := b.block,
                  check := if b.frames.length = 100 then some (crc32 (samplesBytes (b.frames.flatMap Prod.snd))) else none })) ∧
    (∀ e : EchoReport,
      let l := (s.out o).history
      let result := s.judgeEcho o e
      let marks (k : HistEntry → HistEntry) : List HistEntry := l.map fun h => if h.block = e.block then k h else h
      ((∀ h ∈ l, h.block ≠ e.block) → result = s) ∧
      ∀ h, l.find? (fun h => h.block == e.block) = some h →
        (h.isPartial = true ∨ h.result.isSome = true ∨ e.check = none → result = s) ∧
        ∀ c, h.isPartial = false → h.result = none → e.check = some c →
          (c ≠ h.check → result = s.setOut o { s.out o with history := marks fun h => { h with peerMismatch := true } }) ∧
          (c = h.check →
            (result.out o).history = marks (fun h => { h with peerMatch := true, result := some .confirmed }) ∧
              result.log.next = s.log.next ∧ result.log.records.map Record.core = s.log.records.map Record.core)) ∧
    ∀ (block : Time) (check : Crc),
      let result := exec (.tapCompletion dt o block check) s
      let marks (r : TapResult) (y : HistEntry → Option EchoResult) : List HistEntry :=
        x.history.map fun h => if h.block = block then { h with tap := r, result := y h } else h
      ((∀ h ∈ x.history, h.block ≠ block) → result = .next a) ∧
      ∀ h, x.history.find? (fun h => h.block == block) = some h →
        (h.tap ≠ .pending → result = .next a) ∧
        (h.tap = .pending → check ≠ h.driven → result = .next (a.setOut o { x with history := marks .mismatch HistEntry.result })) ∧
        (h.tap = .pending → check = h.driven → h.result.isSome = true →
          result = .next (a.setOut o { x with history := marks .match HistEntry.result })) ∧
        (h.tap = .pending → check = h.driven → h.result = none →
          ∃ u : State, result = .next u ∧ (u.out o).history = marks .match (fun _ => some .confirmed) ∧ u.log.next = s.log.next ∧
            u.log.records.map Record.core = s.log.records.map Record.core)
end

