-- ==== Sys2Proof/Laws/Memory.lean ====
section
/-! SUPPORT. Memory keeps its canonical form, and a read after a write gives what was written. -/

namespace Sys2Proof.Machine

theorem memWfFrom_mono {lo hi : Nat} {m : List Host.Cell} (h : memWfFrom hi m = true) (hl : lo ≤ hi) : memWfFrom lo m = true := by
  cases m with
  | nil => rfl
  | cons c t =>
    simp only [memWfFrom, Bool.and_eq_true, decide_eq_true_eq] at h ⊢
    exact ⟨⟨le_trans hl h.1.1, h.1.2⟩, h.2⟩

theorem memCons_wf {lo a : Nat} {b : Byte} {t : List Host.Cell} (hl : lo ≤ a) (ht : memWfFrom (a + 1) t = true) :
    memWfFrom lo (memCons a b t) = true := by
  unfold memCons
  split
  · exact memWfFrom_mono ht (by omega)
  · rename_i hb
    simp [memWfFrom, hl, hb, ht]

theorem memWrite_wfFrom {lo a : Nat} {b : Byte} {m : List Host.Cell} (h : memWfFrom lo m = true) (hl : lo ≤ a) :
    memWfFrom lo (memWrite m a b) = true := by
  induction m generalizing lo with
  | nil => exact memCons_wf hl rfl
  | cons c t ih =>
    obtain ⟨a', b'⟩ := c
    have h' := h
    simp only [memWfFrom, Bool.and_eq_true, decide_eq_true_eq] at h
    unfold memWrite
    split
    · refine memCons_wf hl ?_
      simp only [memWfFrom, Bool.and_eq_true, decide_eq_true_eq]
      exact ⟨⟨by omega, h.1.2⟩, h.2⟩
    · split
      · rename_i e
        subst e
        exact memCons_wf hl h.2
      · simp only [memWfFrom, Bool.and_eq_true, decide_eq_true_eq]
        exact ⟨h.1, ih h.2 (by omega)⟩

/-- A write keeps the canonical form. -/
theorem memWrite_wf {m : List Host.Cell} (a : Nat) (b : Byte) (h : memWf m = true) : memWf (memWrite m a b) = true :=
  memWrite_wfFrom h (Nat.zero_le _)

/-- A write of a run of bytes keeps the canonical form. -/
theorem writeChain_wf {m : List Host.Cell} (chain : List PageRun) (off : Nat) (bytes : List Byte) (h : memWf m = true) :
    memWf (writeChain m chain off bytes) = true := by
  induction bytes generalizing m off with
  | nil => exact h
  | cons b t ih => exact ih _ (memWrite_wf _ _ h)

theorem memRead_below {lo a : Nat} {m : List Host.Cell} (h : memWfFrom lo m = true) (hl : a < lo) : memRead m a = unwrittenByte := by
  induction m generalizing lo with
  | nil => rfl
  | cons c t ih =>
    obtain ⟨a', b'⟩ := c
    simp only [memWfFrom, Bool.and_eq_true, decide_eq_true_eq] at h
    unfold memRead
    rw [if_neg (by omega)]
    exact ih h.2 (by omega)

theorem memRead_memCons {a x : Nat} {b : Byte} {t : List Host.Cell} (ht : memWfFrom (a + 1) t = true) :
    memRead (memCons a b t) x = if x = a then b else memRead t x := by
  unfold memCons
  split
  · rename_i e
    split
    · rename_i e'
      subst e'
      rw [memRead_below ht (by omega), e]
    · rfl
  · rfl

theorem memRead_memWriteFrom {lo a : Nat} {b : Byte} {m : List Host.Cell} (h : memWfFrom lo m = true) (x : Nat) :
    memRead (memWrite m a b) x = if x = a then b else memRead m x := by
  induction m generalizing lo with
  | nil => exact memRead_memCons rfl
  | cons c t ih =>
    obtain ⟨a', b'⟩ := c
    have h' := h
    simp only [memWfFrom, Bool.and_eq_true, decide_eq_true_eq] at h
    unfold memWrite
    split
    · refine memRead_memCons ?_
      simp only [memWfFrom, Bool.and_eq_true, decide_eq_true_eq]
      exact ⟨⟨by omega, h.1.2⟩, h.2⟩
    · split
      · rename_i e
        subst e
        rw [memRead_memCons h.2, memRead]
        split <;> simp_all
      · rename_i e
        unfold memRead
        rw [ih h.2]
        split
        · rename_i e'
          rw [if_neg (by omega)]
        · rfl

/-- A read after a write gives the value written there, and everywhere else what it gave before. -/
theorem memRead_memWrite {m : List Host.Cell} (h : memWf m = true) (a x : Nat) (b : Byte) :
    memRead (memWrite m a b) x = if x = a then b else memRead m x := memRead_memWriteFrom h x

end Sys2Proof.Machine
end

