-- ==== Sys2Proof/Laws/Moves.lean ====
section
/-! SUPPORT. What an operation leaves as it is: the relation `State.Moves`, generated by the plain updates, which every operation of the
unit is made of. Each operation has one lemma, in the form that is applied from the last operation back to the first. -/

namespace Sys2Proof.Machine

/-! ### Stores -/

/-- A store that has lost versions and payloads, or changed what may change in them, and nothing of its memory and serials; the pages of
a version that goes return to the free page list. -/
structure Store.Held (a s : Store) : Prop where
  mem : s.mem = a.mem
  serialCounter : s.serialCounter = a.serialCounter
  versions : (s.versions.map Version.fixed).Sublist (a.versions.map Version.fixed)
  loads : s.loadQueue.Sublist a.loadQueue
  pages : (a.versions.map Version.key).Nodup → ∀ p, s.holders p = a.holders p

/-- A store held whose use counts are right for the holders they were right for (R111). -/
structure Store.Kept (a s : Store) : Prop extends Store.Held a s where
  uses : ∀ f, a.CountedBy f → s.CountedBy f

theorem Store.Held.refl (a : Store) : a.Held a := ⟨rfl, rfl, List.Sublist.refl _, List.Sublist.refl _, fun _ _ => rfl⟩

theorem Store.Kept.refl (a : Store) : a.Kept a := ⟨.refl a, fun _ h => h⟩

/-- The name and the chain of a version are among what never changes. -/
def Version.keyOf (x : Nat × Nat × CartKind × Nat × Nat × Nat × Int × Crc × List PageRun) : Nat × Nat := (x.1, x.2.1)

theorem Store.keys_eq (st : Store) : st.versions.map Version.key = (st.versions.map Version.fixed).map Version.keyOf := by
  rw [List.map_map]
  rfl

theorem Store.keys_of_sublist {a s : Store} (h : (s.versions.map Version.fixed).Sublist (a.versions.map Version.fixed))
    (ha : (a.versions.map Version.key).Nodup) : (s.versions.map Version.key).Nodup := by
  rw [Store.keys_eq] at ha ⊢
  exact (h.map _).nodup ha

theorem Store.Held.trans {a b c : Store} (h : a.Held b) (h' : b.Held c) : a.Held c :=
  ⟨h'.mem.trans h.mem, h'.serialCounter.trans h.serialCounter, h'.versions.trans h.versions, h'.loads.trans h.loads,
    fun ha p => (h'.pages (Store.keys_of_sublist h.versions ha) p).trans (h.pages ha p)⟩

theorem Store.Kept.trans {a b c : Store} (h : a.Kept b) (h' : b.Kept c) : a.Kept c :=
  ⟨h.toHeld.trans h'.toHeld, fun f hf => h'.uses f (h.uses f hf)⟩

theorem Store.modVersion_fixed (s : Store) (c n : Nat) (f : Version → Version) (hf : ∀ v, (f v).fixed = v.fixed) :
    (s.modVersion c n f).versions.map Version.fixed = s.versions.map Version.fixed := by
  simp only [Store.modVersion, List.map_map]
  refine List.map_congr_left fun v _ => ?_
  simp only [Function.comp]
  split
  · exact hf v
  · rfl

theorem Store.holders_congr {a s : Store} (hf : s.free = a.free)
    (hv : s.versions.map Version.fixed = a.versions.map Version.fixed) (p : Nat) : s.holders p = a.holders p := by
  have e : ∀ l : List Version, (l.map fun v => v.chain.countP (PageRun.has p)) =
      (l.map Version.fixed).map fun x => x.2.2.2.2.2.2.2.2.countP (PageRun.has p) := fun l => by rw [List.map_map]; rfl
  rw [Store.holders, Store.holders, hf, e, e, hv]

theorem Store.Held.modVersion {a s : Store} (h : a.Held s) (c n : Nat) (f : Version → Version)
    (hf : ∀ v, (f v).fixed = v.fixed) : a.Held (s.modVersion c n f) := by
  have e := s.modVersion_fixed c n f hf
  refine h.trans ⟨rfl, rfl, ?_, List.Sublist.refl _, fun _ p => Store.holders_congr (a := s) (s := s.modVersion c n f) rfl e p⟩
  rw [e]

/-- Use counts after a change of the versions of one name, right for a number of holders that differs in that name alone. -/
theorem Store.CountedBy.modVersion {s : Store} {f f' : Nat → Nat → Nat} (h : s.CountedBy f) {c n : Nat} {g : Version → Version}
    (hg : ∀ v, (g v).fixed = v.fixed) (he : ∀ v, v.useCount = f c n → (g v).useCount = f' c n)
    (ho : ∀ c' n', (c', n') ≠ (c, n) → f' c' n' = f c' n') (hp : f' c n ≠ 0 → (c, n) ∈ s.versions.map Version.key) :
    (s.modVersion c n g).CountedBy f' := by
  refine ⟨fun v hv => ?_, fun c' n' h0 => ?_⟩
  · obtain ⟨w, hw, rfl⟩ := List.mem_map.1 hv
    have h1 := h.1 w hw
    split
    · rename_i hi
      simp only [Version.is, Bool.and_eq_true, beq_iff_eq] at hi
      obtain ⟨rfl, rfl⟩ := hi
      have hk := hg w
      simp only [Version.fixed, Prod.mk.injEq] at hk
      rw [hk.1, hk.2.1]
      exact he w h1
    · rename_i hi
      rw [h1, ho]
      intro e
      simp only [Prod.mk.injEq] at e
      exact hi (by simp [Version.is, e.1, e.2])
  · rw [Store.keys_eq, s.modVersion_fixed c n g hg, ← Store.keys_eq]
    by_cases e : (c', n') = (c, n)
    · simp only [Prod.mk.injEq] at e
      obtain ⟨rfl, rfl⟩ := e
      exact hp h0
    · rw [ho c' n' e] at h0
      exact h.2 c' n' h0

/-- What the versions keep when no voice takes or leaves one (R109, R111). -/
def Version.held (v : Version) := (v.fixed, v.useCount)

theorem Store.Kept.modVersion {a s : Store} (h : a.Kept s) (c n : Nat) (f : Version → Version)
    (hf : ∀ v, (f v).held = v.held) : a.Kept (s.modVersion c n f) := by
  have h1 : ∀ v, (f v).fixed = v.fixed := fun v => (Prod.mk.injEq _ _ _ _ ▸ hf v : _ ∧ _).1
  have h2 : ∀ v, (f v).useCount = v.useCount := fun v => (Prod.mk.injEq _ _ _ _ ▸ hf v : _ ∧ _).2
  exact h.trans ⟨(Store.Held.refl s).modVersion c n f h1,
    fun g hg => hg.modVersion h1 (fun v e => (h2 v).trans e) (fun _ _ _ => rfl) (hg.2 c n)⟩

theorem consRun_count (r : PageRun) (l : List PageRun) (p : Nat) :
    (consRun r l).countP (PageRun.has p) = (r :: l).countP (PageRun.has p) := by
  cases l with
  | nil => rfl
  | cons q t =>
    rw [show consRun r (q :: t) = if r.lo + r.n = q.lo then { lo := r.lo, n := r.n + q.n } :: t else r :: q :: t from rfl]
    split
    · rename_i e
      simp only [List.countP_cons, PageRun.has, Bool.and_eq_true, decide_eq_true_eq]
      split <;> split <;> split <;> omega
    · rfl

theorem giveRun_count (r : PageRun) (l : List PageRun) (p : Nat) :
    (giveRun r l).countP (PageRun.has p) = (r :: l).countP (PageRun.has p) := by
  induction l with
  | nil => rfl
  | cons q t ih =>
    unfold giveRun
    split
    · exact consRun_count r (q :: t) p
    · rw [consRun_count]
      simp only [List.countP_cons] at ih ⊢
      omega

theorem givePages_count (c l : List PageRun) (p : Nat) :
    (givePages c l).countP (PageRun.has p) = c.countP (PageRun.has p) + l.countP (PageRun.has p) := by
  unfold givePages
  induction c with
  | nil => simp
  | cons r t ih =>
    rw [List.foldr_cons, giveRun_count, List.countP_cons, List.countP_cons, ih]
    omega

theorem sum_filter_key {l : List Version} {v : Version} (hn : (l.map Version.key).Nodup) (hm : v ∈ l) (g : Version → Nat) :
    ((l.filter fun w => !w.is v.cart v.serial).map g).sum + g v = (l.map g).sum := by
  induction l with
  | nil => cases hm
  | cons w t ih =>
    simp only [List.map_cons, List.nodup_cons, List.mem_map, not_exists, not_and] at hn
    rcases List.mem_cons.1 hm with rfl | hm'
    · have ht : t.filter (fun w => !w.is v.cart v.serial) = t := by
        refine List.filter_eq_self.2 fun w hw => ?_
        have := hn.1 w hw
        simp only [Version.key, Prod.mk.injEq] at this
        simp only [Version.is, Bool.not_eq_true', Bool.and_eq_false_iff, beq_eq_false_iff_ne]
        by_cases e : w.cart = v.cart
        · exact .inr fun e' => this ⟨e, e'⟩
        · exact .inl e
      have hv : v.is v.cart v.serial = true := by simp [Version.is]
      rw [List.filter_cons_of_neg (by simp [hv]), ht, List.map_cons, List.sum_cons, Nat.add_comm]
    · have hw : w.is v.cart v.serial = false := by
        have := hn.1 v hm'
        simp only [Version.key, Prod.mk.injEq] at this
        simp only [Version.is, Bool.and_eq_false_iff, beq_eq_false_iff_ne]
        by_cases e : w.cart = v.cart
        · exact .inr fun e' => this ⟨e.symm, e'.symm⟩
        · exact .inl e
      simp only [hw, Bool.not_false, List.filter_cons_of_pos, List.map_cons, List.sum_cons]
      have := ih hn.2 hm'
      omega

theorem Store.find_is {st : Store} {c n : Nat} {v : Version} (e : st.find c n = some v) :
    v ∈ st.versions ∧ v.cart = c ∧ v.serial = n := by
  unfold Store.find at e
  have h1 := List.find?_some e
  simp only [Version.is, Bool.and_eq_true, beq_iff_eq] at h1
  exact ⟨List.mem_of_find?_eq_some e, h1⟩

theorem Store.Kept.freeVersion {a s : Store} (h : a.Kept s) (c n : Nat) : a.Kept (s.freeVersion c n) := by
  unfold Store.freeVersion
  split
  · exact h
  · rename_i v e
    obtain ⟨hm, rfl, rfl⟩ := Store.find_is e
    split
    · rename_i h0
      refine h.trans ⟨⟨rfl, rfl, List.filter_sublist.map _, List.Sublist.refl _, fun hn p => ?_⟩, fun f hf => ⟨fun w hw => ?_, fun c n h1 => ?_⟩⟩
      · simp only [Store.holders, givePages_count]
        have := sum_filter_key hn hm fun v => v.chain.countP (PageRun.has p)
        omega
      · exact hf.1 w (List.mem_filter.1 hw).1
      · obtain ⟨w, hw, e⟩ := List.mem_map.1 (hf.2 c n h1)
        simp only [Version.key, Prod.mk.injEq] at e
        obtain ⟨rfl, rfl⟩ := e
        refine List.mem_map_of_mem (f := Version.key) (List.mem_filter.2 ⟨hw, ?_⟩)
        simp only [Version.is, Bool.not_eq_true', Bool.and_eq_false_iff, beq_eq_false_iff_ne]
        by_cases e : w.cart = v.cart
        · refine .inr fun e' => h1 ?_
          rw [e, e', ← hf.1 v hm, h0]
        · exact .inl e
    · exact h.modVersion _ _ _ fun _ => rfl

theorem Store.Held.useUp {a s : Store} (h : a.Held s) (c n : Nat) : a.Held (s.useUp c n) :=
  h.modVersion c n _ fun _ => rfl

theorem Store.Held.useDown {a s : Store} (h : a.Held s) (c n : Nat) : a.Held (s.useDown c n) := by
  have h' : a.Held (s.modVersion c n fun v => { v with useCount := v.useCount - 1 }) := h.modVersion c n _ fun _ => rfl
  unfold Store.useDown
  dsimp only
  split
  · split
    · exact h'.trans ((Store.Kept.refl _).freeVersion c n).toHeld
    · exact h'
  · exact h'

/-- A voice takes a version of the directory (R111). -/
theorem Store.CountedBy.useUp {s : Store} {f : Nat → Nat → Nat} (h : s.CountedBy f) {c n : Nat}
    (hm : (c, n) ∈ s.versions.map Version.key) :
    (s.useUp c n).CountedBy fun c' n' => f c' n' + if (c', n') = (c, n) then 1 else 0 := by
  refine h.modVersion (fun _ => rfl) (fun v e => ?_) (fun c' n' e => by simp [e]) fun _ => hm
  simp [e]

/-- A voice leaves a version (R111, R122). -/
theorem Store.CountedBy.useDown {s : Store} {f : Nat → Nat → Nat} (h : s.CountedBy f) (c n : Nat) :
    (s.useDown c n).CountedBy fun c' n' => f c' n' - if (c', n') = (c, n) then 1 else 0 := by
  have h' : (s.modVersion c n fun v => { v with useCount := v.useCount - 1 }).CountedBy
      fun c' n' => f c' n' - if (c', n') = (c, n) then 1 else 0 := by
    refine h.modVersion (fun _ => rfl) (fun v e => ?_) (fun c' n' e => by simp [e]) fun e => h.2 c n ?_
    · simp [e]
    · simp only [if_true] at e
      omega
  unfold Store.useDown
  dsimp only
  split
  · split
    · exact ((Store.Kept.refl _).freeVersion c n).uses _ h'
    · exact h'
  · exact h'

theorem Store.Kept.quarantine {a s : Store} (h : a.Kept s) (c n : Nat) : a.Kept (s.quarantine c n) := by
  refine h.modVersion c n _ fun v => ?_
  split <;> rfl

/-- Queues and sweep may change as long as no payload joins. -/
theorem Store.Kept.queues {a s : Store} (h : a.Kept s) (l : List Payload) (q : List (Nat × Nat)) (w : Option Sweep)
    (hl : l.Sublist s.loadQueue) : a.Kept { s with loadQueue := l, verifyQueue := q, sweep := w } :=
  h.trans ⟨⟨rfl, rfl, List.Sublist.refl _, hl, fun _ _ => rfl⟩, fun _ hf => hf⟩

/-! ### Voices -/

/-- The version a voice holds. -/
def VoiceUse.key (u : VoiceUse) : Nat × Nat := (u.cart, u.serial)

/-- What a voice is set aside for and the version it holds. -/
def Voice.shape (v : Voice) : Option OutletId × Option (Nat × Nat) := (v.reserved, v.use.map VoiceUse.key)

theorem holdersOf_shape (l : List Voice) (c n : Nat) :
    holdersOf l c n = (l.map Voice.shape).countP fun x => x.2.any fun q => q.1 == c && q.2 == n := by
  rw [List.countP_map]
  refine List.countP_congr fun v _ => ?_
  simp only [Function.comp, Voice.shape]
  cases v.use <;> rfl

theorem holdersOf_congr {l m : List Voice} (h : l.map Voice.shape = m.map Voice.shape) : holdersOf l = holdersOf m := by
  funext c n
  rw [holdersOf_shape, holdersOf_shape, h]

theorem reserved_of_shape {l m : List Voice} (h : l.map Voice.shape = m.map Voice.shape) :
    l.map Voice.reserved = m.map Voice.reserved := by
  have := congrArg (List.map Prod.fst) h
  simpa [List.map_map, Function.comp_def, Voice.shape] using this

/-- One voice leaves what it holds for another hold (R111). -/
theorem holdersOf_modify (l : List Voice) (i : Nat) (u : Option VoiceUse) {v : Voice} (hv : l[i]? = some v) (c n : Nat) :
    (holdersOf (l.modify i fun v => { v with use := u }) c n) + (if v.use.any (fun u => u.cart == c && u.serial == n) then 1 else 0) =
      holdersOf l c n + if u.any (fun u => u.cart == c && u.serial == n) then 1 else 0 := by
  induction l generalizing i with
  | nil => simp at hv
  | cons w t ih =>
    cases i with
    | zero =>
      simp only [List.getElem?_cons_zero, Option.some.injEq] at hv
      subst hv
      simp only [holdersOf, List.modify_zero_cons, List.countP_cons]
      omega
    | succ i =>
      have := ih i (by simpa using hv)
      simp only [holdersOf, List.modify_succ_cons, List.countP_cons] at this ⊢
      omega

/-! ### Outlets and lines -/

/-- The air state of an outlet that does not send. -/
def Air.off (x : Air) : Option Air := if x.sends then none else some x

/-- What the strong moves leave of an outlet: the owner view (R128), the fill pool and the bed (R20), whether it sends, and its air state
while it does not (R125). -/
def Outlet.fixed (x : Outlet) : Option OwnerView × Bool × List Nat × Option Nat × Option Air :=
  (x.view, x.heard, x.fills, x.bed, x.air.off)

/-- What the arm slots look at of an entry: its tag, and its mode while it is ARMED. -/
def Entry.place (e : Entry) : Nat × Option StartMode := (e.tag, if e.state = .armed then some e.mode else none)

/-- An outlet that holds the same entries, those ARMED in the slots still, and has gained no spot list. -/
structure Outlet.Shrinks (x y : Outlet) : Prop where
  tags : y.entries.map Entry.tag = x.entries.map Entry.tag
  spots : y.spots.Sublist x.spots
  slots : (x.entries.map Entry.tag).Nodup → x.Slotted → y.Slotted

/-- What `Outlet.Shrinks` looks at. -/
def Outlet.lists (x : Outlet) : List (Nat × Option StartMode) × List SpotList × Option Nat × Option Nat :=
  (x.entries.map Entry.place, x.spots, x.seqSlot, x.anchorSlot)

theorem Outlet.tags_eq (x : Outlet) : x.entries.map Entry.tag = (x.entries.map Entry.place).map Prod.fst := by
  rw [List.map_map]
  rfl

theorem Outlet.slotted_iff (x : Outlet) :
    x.Slotted ↔ ∀ p ∈ x.entries.map Entry.place, ∀ m, p.2 = some m →
      x.seqSlot = some p.1 ∨ x.anchorSlot = some p.1 ∧ ∃ t, m = .hard t := by
  refine ⟨fun h p hp m hm => ?_, fun h e he ha => ?_⟩
  · obtain ⟨e, he, rfl⟩ := List.mem_map.1 hp
    simp only [Entry.place] at hm
    split at hm
    · rename_i ha
      cases hm
      exact h e he ha
    · cases hm
  · exact h e.place (List.mem_map_of_mem he) e.mode (by simp [Entry.place, ha])

theorem Outlet.Shrinks.of_eq {x y : Outlet} (h : y.lists = x.lists) : x.Shrinks y := by
  simp only [Outlet.lists, Prod.mk.injEq] at h
  obtain ⟨h1, h2, h3, h4⟩ := h
  refine ⟨?_, h2 ▸ List.Sublist.refl _, fun _ hs => ?_⟩
  · rw [Outlet.tags_eq, Outlet.tags_eq, h1]
  · rw [Outlet.slotted_iff] at hs ⊢
    rwa [h1, h3, h4]

/-- The input side of a fire line (R32). -/
def FireLine.inputs (l : FireLine) : LineState × Bool × Nat := (l.state, l.active, l.since)

/-! ### Moves -/

/-- `s` comes from `a` by plain updates; an entry leaves only with its record. With `k` set, the clock discipline, the
timers, the peer table, isolation, the owner views, the fill pools, the fire lines' inputs and the memory are left as they are, no outlet
begins or stops sending, and one that does not send keeps its air state. -/
inductive State.Moves (k : Bool) (a : State) : State → Prop
  | refl : Moves k a a
  | setOut {s : State} (h : Moves k a s) (o : OutletId) (x : Outlet) (hf : x.fixed = (s.out o).fixed)
      (hx : (s.out o).Shrinks x) : Moves k a (s.setOut o x)
  | setOutWeak {s : State} (hk : k = false) (h : Moves k a s) (o : OutletId) (x : Outlet) (hx : (s.out o).Shrinks x) :
      Moves k a (s.setOut o x)
  | leave {s : State} (h : Moves k a s) (o : OutletId) (tag : Nat) (r : Record) (t : Option Tally)
      (hr : r.source = .entry ∧ r.entryTag = some tag ∧ r.outlet = o) :
      Moves k a (({ s with log := s.log.take r o t } : State).modOut o fun x => x.dropEntry tag)
  | voices {s : State} (h : Moves k a s) (l : List Voice) (hl : l.map Voice.shape = s.voices.map Voice.shape) :
      Moves k a { s with voices := l }
  | hold {s : State} (h : Moves k a s) (l : List Voice) (st : Store) (hl : l.map Voice.reserved = s.voices.map Voice.reserved)
      (hs : s.store.Held st) (hu : s.store.CountedBy (holdersOf s.voices) → st.CountedBy (holdersOf l)) :
      Moves k a { s with voices := l, store := st }
  | lines {s : State} (h : Moves k a s) (l : List FireLine) (hl : l.map FireLine.inputs = s.lines.map FireLine.inputs) :
      Moves k a { s with lines := l }
  | linesWeak {s : State} (hk : k = false) (h : Moves k a s) (l : List FireLine) (hl : l.length = s.lines.length) :
      Moves k a { s with lines := l }
  | store {s : State} (h : Moves k a s) (st : Store) (hs : s.store.Kept st) : Moves k a { s with store := st }
  | write {s : State} (hk : k = false) (h : Moves k a s) (chain : List PageRun) (off : Nat) (bytes : List Byte) :
      Moves k a { s with store := { s.store with mem := writeChain s.store.mem chain off bytes } }
  | queue {s : State} (h : Moves k a s) (q : List VoiceRequest) : Moves k a { s with voiceQueue := q }
  | transfer {s : State} (h : Moves k a s) (t : Option Transfer) : Moves k a { s with transfer := t }
  | freeCount {s : State} (h : Moves k a s) (n : Nat) : Moves k a { s with freeCount := n }
  | logTake {s : State} (h : Moves k a s) (r : Record) (o : OutletId) (t : Option Tally) :
      Moves k a { s with log := s.log.take r o t }
  | logSettle {s : State} (h : Moves k a s) (l : Log) (hn : l.next = s.log.next)
      (hr : l.records.map Record.core = s.log.records.map Record.core) : Moves k a { s with log := l }
  | placed {s : State} (h : Moves k a s) (n : Nat) (f : OutletId → List Nat) (hn : a.log.next ≤ n) :
      Moves k a { s with log := s.log.placed n f }
  | send {s : State} (h : Moves k a s) (b : FrameBody) : Moves k a (s.send b)
  | latch {s : State} (h : Moves k a s) (f : FaultInfo) : Moves k a (s.latch f)
  | corrected {s : State} (h : Moves k a s) (n : Nat) : Moves k a (s.corrected n)
  | clock {s : State} (hk : k = false) (h : Moves k a s) (d : ClockDiscipline)
      (ht : -1600 ≤ s.disc.trim → s.disc.trim ≤ 1600 → -1600 ≤ d.trim ∧ d.trim ≤ 1600)
      (hr : s.disc.rejected ≤ 4 → d.rejected ≤ 4) : Moves k a { s with disc := d }
  | horizon {s : State} (hk : k = false) (h : Moves k a s) (t : Option Time) : Moves k a { s with horizon := t }
  | timers {s : State} (hk : k = false) (h : Moves k a s) (l : Option Nat) (b : Nat) :
      Moves k a { s with listenSince := l, beaconSince := b }
  | peers {s : State} (hk : k = false) (h : Moves k a s) (l : List Peer) (hl : PeersBounded s.peers → PeersBounded l) :
      Moves k a { s with peers := l }
  | isolate {s : State} (hk : k = false) (h : Moves k a s) : Moves k a { s with isolated := true }

/-- The weak form follows from the strong one. -/
theorem State.Moves.weak {k : Bool} {a s : State} (h : State.Moves k a s) : State.Moves false a s := by
  induction h with
  | refl => exact .refl
  | setOut _ o x hf hx ih => exact ih.setOut o x hf hx
  | setOutWeak _ _ o x hx ih => exact ih.setOutWeak rfl o x hx
  | leave _ o tag r t hr ih => exact ih.leave o tag r t hr
  | voices _ l hl ih => exact ih.voices l hl
  | hold _ l st hl hs hu ih => exact ih.hold l st hl hs hu
  | lines _ l hl ih => exact ih.lines l hl
  | linesWeak _ _ l hl ih => exact ih.linesWeak rfl l hl
  | store _ st hs ih => exact ih.store st hs
  | write _ _ c o b ih => exact ih.write rfl c o b
  | queue _ q ih => exact ih.queue q
  | transfer _ t ih => exact ih.transfer t
  | freeCount _ n ih => exact ih.freeCount n
  | logTake _ r o t ih => exact ih.logTake r o t
  | logSettle _ l hn hr ih => exact ih.logSettle l hn hr
  | placed _ n f hn ih => exact ih.placed n f hn
  | send _ b ih => exact ih.send b
  | latch _ f ih => exact ih.latch f
  | corrected _ n ih => exact ih.corrected n
  | clock _ _ d ht hr ih => exact ih.clock rfl d ht hr
  | horizon _ _ t ih => exact ih.horizon rfl t
  | timers _ _ l b ih => exact ih.timers rfl l b
  | peers _ _ l hl ih => exact ih.peers rfl l hl
  | isolate _ _ ih => exact ih.isolate rfl

theorem Quad.get_set {α : Type} (q : Quad α) (o p : OutletId) (x : α) : (q.set o x).get p = if p = o then x else q.get p := by
  cases o <;> cases p <;> rfl

theorem State.out_setOut (s : State) (o p : OutletId) (x : Outlet) : (s.setOut o x).out p = if p = o then x else s.out p := by
  simp only [State.out, State.setOut]
  exact Quad.get_set _ _ _ _

theorem State.Moves.modOut {k : Bool} {a s : State} (h : State.Moves k a s) (o : OutletId) (f : Outlet → Outlet)
    (hf : ∀ x, (f x).fixed = x.fixed) (hl : ∀ x, (f x).lists = x.lists) : State.Moves k a (s.modOut o f) :=
  h.setOut o _ (hf _) (.of_eq (hl _))

theorem State.Moves.modOutWeak {a s : State} (h : State.Moves false a s) (o : OutletId) (f : Outlet → Outlet)
    (hl : ∀ x, (f x).lists = x.lists) : State.Moves false a (s.modOut o f) :=
  h.setOutWeak rfl o _ (.of_eq (hl _))

theorem State.mapId_eq (s : State) (f : OutletId → Outlet → Outlet) :
    ({ s with outlets := s.outlets.mapId f } : State) =
      (((s.setOut .a (f .a (s.out .a))).setOut .b (f .b (s.out .b))).setOut .c (f .c (s.out .c))).setOut .d (f .d (s.out .d)) := rfl

theorem State.Moves.mapOutlets {k : Bool} {a s : State} (h : State.Moves k a s) (f : OutletId → Outlet → Outlet)
    (hf : ∀ o x, (f o x).fixed = x.fixed) (hl : ∀ o x, (f o x).lists = x.lists) :
    State.Moves k a { s with outlets := s.outlets.mapId f } := by
  rw [State.mapId_eq]
  exact (((h.setOut .a _ (hf _ _) (.of_eq (hl _ _))).setOut .b _ (hf _ _) (.of_eq (hl _ _))).setOut .c _ (hf _ _)
    (.of_eq (hl _ _))).setOut .d _ (hf _ _) (.of_eq (hl _ _))

theorem State.Moves.mapOutletsWeak {a s : State} (h : State.Moves false a s) (f : OutletId → Outlet → Outlet)
    (hl : ∀ o x, (f o x).lists = x.lists) : State.Moves false a { s with outlets := s.outlets.mapId f } := by
  rw [State.mapId_eq]
  exact (((h.setOutWeak rfl .a _ (.of_eq (hl _ _))).setOutWeak rfl .b _ (.of_eq (hl _ _))).setOutWeak rfl .c _
    (.of_eq (hl _ _))).setOutWeak rfl .d _ (.of_eq (hl _ _))

theorem Outlet.setPlace_fixed (x : Outlet) (p : Place) (b : Option FittedBreak) : (x.setPlace p b).fixed = x.fixed := by
  cases p <;> rfl

theorem Outlet.setPlace_lists (x : Outlet) (p : Place) (b : Option FittedBreak) : (x.setPlace p b).lists = x.lists := by
  cases p <;> rfl

theorem Outlet.modEntry_tags (x : Outlet) (tag : Nat) (f : Entry → Entry) (hf : ∀ e, (f e).tag = e.tag) :
    (x.modEntry tag f).entries.map Entry.tag = x.entries.map Entry.tag := by
  simp only [Outlet.modEntry, List.map_map]
  refine List.map_congr_left fun e _ => ?_
  simp only [Function.comp]
  split
  · exact hf e
  · rfl

theorem Outlet.modEntry_lists (x : Outlet) (tag : Nat) (f : Entry → Entry) (hf : ∀ e, (f e).place = e.place) :
    (x.modEntry tag f).lists = x.lists := by
  simp only [Outlet.lists, Prod.mk.injEq]
  refine ⟨?_, rfl, rfl, rfl⟩
  simp only [Outlet.modEntry, List.map_map]
  refine List.map_congr_left fun e _ => ?_
  simp only [Function.comp]
  split
  · exact hf e
  · rfl

/-- The entries of a tag are ARMED no more, and its slots may be given up. -/
theorem Outlet.Shrinks.unarm (x : Outlet) (tag : Nat) (f : Entry → Entry) (hf : ∀ e, (f e).tag = e.tag)
    (ha : ∀ e, (f e).state ≠ .armed) {y : Outlet} (hy : y.entries = (x.modEntry tag f).entries) (hs : y.spots = x.spots)
    (h1 : y.seqSlot = x.seqSlot ∨ y.seqSlot = x.seqSlot.filter fun t => t != tag)
    (h2 : y.anchorSlot = x.anchorSlot ∨ y.anchorSlot = x.anchorSlot.filter fun t => t != tag) : x.Shrinks y := by
  refine ⟨hy ▸ Outlet.modEntry_tags x tag f hf, hs ▸ List.Sublist.refl _, fun _ h e he ea => ?_⟩
  rw [hy] at he
  obtain ⟨d, hd, rfl⟩ := List.mem_map.1 he
  have hm : ∀ {o : Option Nat} {o' : Option Nat}, (o' = o ∨ o' = o.filter fun t => t != tag) → d.tag ≠ tag → o = some d.tag →
      o' = some d.tag := by
    rintro o o' (rfl | rfl) hn rfl
    · rfl
    · simp [hn]
  split at ea
  · exact absurd ea (ha d)
  · rename_i hn
    simp only [beq_iff_eq] at hn
    simp only [if_neg (show ¬ (d.tag == tag) = true by simpa using hn)]
    exact (h d hd ea).imp (hm h1 hn) fun e => ⟨hm h2 hn e.1, e.2⟩

theorem State.Moves.modFit {k : Bool} {a s : State} (h : State.Moves k a s) (o : OutletId) (p : Place)
    (f : FittedBreak → FittedBreak) : State.Moves k a (s.modFit o p f) :=
  h.modOut o _ (fun _ => Outlet.setPlace_fixed _ _ _) fun _ => Outlet.setPlace_lists _ _ _

theorem State.Moves.modEntry {k : Bool} {a s : State} (h : State.Moves k a s) (o : OutletId) (tag : Nat) (f : Entry → Entry)
    (hf : ∀ e, (f e).place = e.place) : State.Moves k a (s.modEntry o tag f) :=
  h.modOut o _ (fun _ => rfl) fun x => Outlet.modEntry_lists x tag f hf

theorem map_modify {α β : Type} (g : α → β) (l : List α) (i : Nat) (f : α → α) (hf : ∀ v, l[i]? = some v → g (f v) = g v) :
    (l.modify i f).map g = l.map g := by
  induction l generalizing i with
  | nil => cases i <;> rfl
  | cons v t ih =>
    cases i with
    | zero => simp [hf v (by simp)]
    | succ i => simpa using ih i fun w hw => hf w (by simpa using hw)

theorem State.voice_some {s : State} {i : Nat} {u : VoiceUse} (e : s.voice i = some u) : ∃ v, s.voices[i]? = some v ∧ v.use = some u := by
  unfold State.voice at e
  cases h : s.voices[i]? with
  | none => rw [h] at e; cases e
  | some v => rw [h] at e; exact ⟨v, rfl, e⟩

/-- A voice keeps its version. -/
theorem State.Moves.setVoice {k : Bool} {a s : State} (h : State.Moves k a s) {i : Nat} {u u' : VoiceUse} (e : s.voice i = some u)
    (hu : u'.key = u.key) : State.Moves k a (s.setVoice i (some u')) := by
  obtain ⟨v, hv, hu'⟩ := State.voice_some e
  refine h.voices _ (map_modify _ _ _ _ fun w hw => ?_)
  rw [hv] at hw
  cases hw
  simp only [Voice.shape, hu', Option.map_some]
  rw [hu]

theorem State.Moves.modVoice {k : Bool} {a s : State} (h : State.Moves k a s) (i : Nat) (f : VoiceUse → VoiceUse)
    (hf : ∀ u, (f u).key = u.key) : State.Moves k a (s.modVoice i f) := by
  refine h.voices _ (map_modify _ _ _ _ fun w _ => ?_)
  simp only [Voice.shape, Option.map_map]
  congr 1
  cases w.use with
  | none => rfl
  | some u => exact congrArg some (hf u)

/-- A voice takes another version, or none (R111): the store is the one with the use counts that follow. -/
theorem State.Moves.holdVoice {k : Bool} {a s : State} (h : State.Moves k a s) (i : Nat) (u : Option VoiceUse) (st : Store)
    (hs : s.store.Held st)
    (hu : s.store.CountedBy (holdersOf s.voices) → st.CountedBy (holdersOf (s.voices.modify i fun v => { v with use := u }))) :
    State.Moves k a (({ s with store := st } : State).setVoice i u) :=
  h.hold _ _ (map_modify _ _ _ _ fun _ _ => rfl) hs hu

theorem inputs_modify (l : List FireLine) (i : Nat) (f : FireLine → FireLine) (hf : ∀ v, (f v).inputs = v.inputs) :
    (l.modify i f).map FireLine.inputs = l.map FireLine.inputs := by
  induction l generalizing i with
  | nil => cases i <;> rfl
  | cons v t ih =>
    cases i with
    | zero => simp [hf]
    | succ i => simp [ih]

theorem State.Moves.modLine {k : Bool} {a s : State} (h : State.Moves k a s) (n : Nat) (f : FireLine → FireLine)
    (hf : ∀ l, (f l).inputs = l.inputs) : State.Moves k a (s.modLine n f) := h.lines _ (inputs_modify _ _ _ hf)

theorem State.Moves.modLineWeak {a s : State} (h : State.Moves false a s) (n : Nat) (f : FireLine → FireLine) :
    State.Moves false a (s.modLine n f) := h.linesWeak rfl _ (by simp)

theorem State.Moves.storeTransfer {k : Bool} {a s : State} (h : State.Moves k a s) {st : Store} (hs : s.store.Kept st)
    (t : Option Transfer) : State.Moves k a { s with store := st, transfer := t } := (h.store st hs).transfer t

theorem State.Moves.store' {k : Bool} {a s : State} (h : State.Moves k a s) {st : Store} (hs : s.store.Kept st) :
    State.Moves k a { s with store := st } := h.store st hs

theorem State.Moves.modOutAt {k : Bool} {a s : State} (h : State.Moves k a s) (o : OutletId) (f : Outlet → Outlet)
    (hf : (f (s.out o)).fixed = (s.out o).fixed) (hl : ∀ x, (f x).lists = x.lists) : State.Moves k a (s.modOut o f) :=
  h.setOut o _ hf (.of_eq (hl _))

theorem State.Moves.foldl {k : Bool} {a s : State} {α : Type} (h : State.Moves k a s) (f : State → α → State) (l : List α)
    (hf : ∀ t x, State.Moves k a t → State.Moves k a (f t x)) : State.Moves k a (l.foldl f s) := by
  induction l generalizing s with
  | nil => exact h
  | cons x t ih => exact ih (hf s x h)

theorem State.send_eq (s : State) (b : FrameBody) {α : Type} (f : State → α) (hf : ∀ (t : State) l, f { t with sent := l } = f t) :
    f (s.send b) = f s := by
  unfold State.send
  split
  · rfl
  · exact hf _ _

/-- Sequence numbers only rise (R164). -/
theorem State.Moves.logNext {k : Bool} {a s : State} (h : State.Moves k a s) : a.log.next ≤ s.log.next := by
  induction h with
  | send _ b ih => rw [State.send_eq _ b (fun t => t.log.next) fun _ _ => rfl]; exact ih
  | logTake _ r o t ih | leave _ o _ r t _ ih => exact Nat.le_succ_of_le ih
  | logSettle _ l hn _ ih => exact ih.trans (le_of_eq hn.symm)
  | refl => exact le_refl _
  | _ => assumption

theorem State.Moves.fixed {a s : State} (h : State.Moves true a s) (o : OutletId) : (s.out o).fixed = (a.out o).fixed := by
  induction h with
  | send _ b ih => exact (State.send_eq _ b (fun t => (t.out o).fixed) fun _ _ => rfl).trans ih
  | setOut _ p x hf _ ih =>
    rw [State.out_setOut]
    split
    · rename_i e
      subst e
      exact hf.trans ih
    · exact ih
  | leave _ p tag _ _ _ ih =>
    rw [State.modOut, State.out_setOut]
    split
    · rename_i e
      subst e
      exact ih
    · exact ih
  | setOutWeak hk => cases hk
  | refl => rfl
  | _ => assumption

theorem Air.sends_of_off {x y : Air} (h : x.off = y.off) : x.sends = y.sends := by
  cases x <;> cases y <;> first | rfl | exact absurd h (by decide)

/-- Strong moves neither begin nor stop sending. -/
theorem State.Moves.sends {a s : State} (h : State.Moves true a s) (o : OutletId) : (s.out o).air.sends = (a.out o).air.sends := by
  have := h.fixed o
  simp only [Outlet.fixed, Prod.mk.injEq] at this
  exact Air.sends_of_off this.2.2.2.2

theorem Air.off_sends {x : Air} (h : x.sends = true) : x.off = none := by simp [Air.off, h]

theorem Outlet.inFallback_sends {x : Outlet} (h : x.inFallback = true) : x.air.sends = true := by
  unfold Outlet.inFallback at h
  cases e : x.air <;> simp [e] at h <;> rfl

end Sys2Proof.Machine
end

