-- ==== Sys2Proof/Laws/MovesStore.lean ====
section
/-! SUPPORT. The operations of Ops StoreOps Audio as moves. -/

namespace Sys2Proof.Machine

theorem State.free_moves {w : Bool} {a s t : State} {n : Nat} (h : State.Moves w a s) (e : s.free = (n, t)) :
    State.Moves w a t := by
  cases e
  exact h.freeCount _

theorem State.pick_moves {w : Bool} {a s t : State} {n m : Nat} (h : State.Moves w a s) (e : s.pick n = (m, t)) :
    State.Moves w a t := by
  unfold State.pick at e
  split at e <;> cases e
  · exact h
  · exact h.freeCount _

theorem State.freeOrder_moves {w : Bool} {α : Type} {fuel : Nat} {a s t : State} {l r : List α} (h : State.Moves w a s)
    (e : State.freeOrder fuel s l = (r, t)) : State.Moves w a t := by
  induction fuel generalizing s l r t with
  | zero => cases e; exact h
  | succ n ih =>
    unfold State.freeOrder at e
    split at e
    rename_i i u hp
    have hu := State.pick_moves h hp
    split at e
    · cases e; exact hu
    · split at e
      rename_i hq
      cases e
      exact ih hu hq

theorem State.tallyStart_moves {w : Bool} {a s : State} (h : State.Moves w a s) (o : OutletId) (k : AirKey) :
    State.Moves w a (s.tallyStart o k) := by
  unfold State.tallyStart
  try dsimp only
  repeat' first
    | assumption
    | rfl
    | (intro _)
    | with_reducible apply State.Moves.modOut

theorem State.tallyStop_moves {w : Bool} {a s : State} (h : State.Moves w a s) (o : OutletId) (k : AirKey) :
    State.Moves w a (s.tallyStop o k) := by
  unfold State.tallyStop
  try dsimp only
  repeat' first
    | assumption
    | rfl
    | (intro _)
    | with_reducible apply State.Moves.modOut

theorem State.tallyDrop_moves {w : Bool} {a s : State} (h : State.Moves w a s) (o : OutletId) (k : AirKey) :
    State.Moves w a (s.tallyDrop o k) := by
  unfold State.tallyDrop
  try dsimp only
  repeat' first
    | assumption
    | rfl
    | (intro _)
    | with_reducible apply State.Moves.modOut

theorem State.finalResult_moves {w : Bool} {a s : State} (h : State.Moves w a s) (o : OutletId) (b : Time) (r : EchoResult)
    (again : Bool) : State.Moves w a (s.finalResult o b r again) := by
  unfold State.finalResult
  dsimp only
  refine State.Moves.logSettle (State.Moves.modOut h o _ ?_ ?_) _ rfl ?_
  · exact fun _ => rfl
  · exact fun _ => rfl
  simp only [List.map_map]
  refine List.map_congr_left fun x _ => ?_
  simp only [Function.comp]
  split <;> rfl

theorem State.record_moves {w : Bool} {a s : State} (h : State.Moves w a s) (o : OutletId) (r : Record) (key : Option AirKey) :
    State.Moves w a (s.record o r key) := by
  unfold State.record
  dsimp only
  split
  · exact h.logTake _ _ _
  · split
    · exact h.logTake _ _ _
    · split
      · exact (State.tallyDrop_moves h _ _).logTake _ _ _
      · exact (State.tallyDrop_moves h _ _).logTake _ _ _

theorem State.Moves.trans {k : Bool} {a b c : State} (h : State.Moves k a b) (h' : State.Moves k b c) : State.Moves k a c := by
  induction h' with
  | refl => exact h
  | setOut _ o x hf hx ih => exact ih.setOut o x hf hx
  | setOutWeak hk _ o x hx ih => exact ih.setOutWeak hk o x hx
  | leave _ o tag r t hr ih => exact ih.leave o tag r t hr
  | voices _ l hl ih => exact ih.voices l hl
  | hold _ l st hl hs hu ih => exact ih.hold l st hl hs hu
  | lines _ l hl ih => exact ih.lines l hl
  | linesWeak hk _ l hl ih => exact ih.linesWeak hk l hl
  | store _ st hs ih => exact ih.store st hs
  | write hk _ c o b ih => exact ih.write hk c o b
  | queue _ q ih => exact ih.queue q
  | transfer _ t ih => exact ih.transfer t
  | freeCount _ n ih => exact ih.freeCount n
  | logTake _ r o t ih => exact ih.logTake r o t
  | logSettle _ l hn hr ih => exact ih.logSettle l hn hr
  | placed _ n f hn ih => exact ih.placed n f (h.logNext.trans hn)
  | send _ b ih => exact ih.send b
  | latch _ f ih => exact ih.latch f
  | corrected _ n ih => exact ih.corrected n
  | clock hk _ d ht hr ih => exact ih.clock hk d ht hr
  | horizon hk _ t ih => exact ih.horizon hk t
  | timers hk _ l b ih => exact ih.timers hk l b
  | peers hk _ l hl ih => exact ih.peers hk l hl
  | isolate hk _ ih => exact ih.isolate hk

theorem State.discard_moves {w : Bool} {a s : State} (h : State.Moves w a s) (cart serial : Nat) :
    State.Moves w a (s.discard cart serial) := by
  unfold State.discard
  dsimp only
  have hk := ((Store.Kept.refl s.store).modVersion cart serial
    (fun v => { v with role := .discarding, state := .quarantined }) fun _ => rfl).queues
    ((s.store.modVersion cart serial fun v => { v with role := .discarding, state := .quarantined }).loadQueue.filter
      fun p => !(p.cart == cart && p.serial == serial))
    ((s.store.modVersion cart serial fun v => { v with role := .discarding, state := .quarantined }).verifyQueue.filter
      fun q => q != (cart, serial))
    ((s.store.modVersion cart serial fun v => { v with role := .discarding, state := .quarantined }).sweep.filter
      fun w => !(w.cart == cart && w.serial == serial)) List.filter_sublist
  split
  · exact h.storeTransfer hk _
  · exact h.store' (hk.freeVersion _ _)

theorem State.failLoad_moves {w : Bool} {a s : State} (h : State.Moves w a s) (v : Version) (sender : Nat) :
    State.Moves w a (s.failLoad v sender) := by
  unfold State.failLoad
  try dsimp only
  repeat' first
    | assumption
    | rfl
    | (intro _)
    | with_reducible apply State.discard_moves
    | with_reducible apply State.Moves.latch

theorem State.settleVerification_moves {w : Bool} {a s : State} (h : State.Moves w a s) (v : Version) (pass : Bool) :
    State.Moves w a (s.settleVerification v pass) := by
  unfold State.settleVerification
  try dsimp only
  repeat' first
    | assumption
    | rfl
    | (intro _)
    | with_reducible apply State.discard_moves
    | with_reducible apply Store.Kept.freeVersion
    | with_reducible apply Store.Kept.modVersion
    | exact Store.Kept.refl _
    | split
    | with_reducible apply State.Moves.store'

theorem State.verificationAnswer_moves {w : Bool} {a s : State} (h : State.Moves w a s) (v : Version) (pass : Bool) :
    State.Moves w a (s.verificationAnswer v pass) := by
  unfold State.verificationAnswer
  try dsimp only
  repeat' first
    | assumption
    | rfl
    | (intro _)
    | with_reducible apply State.Moves.send
    | with_reducible apply State.answer_moves
    | split

theorem State.endVerification_moves {w : Bool} {a s : State} (h : State.Moves w a s) (v : Version) (pass latch : Bool)
    (page : Option Nat) : State.Moves w a (s.endVerification v pass latch page) := by
  unfold State.endVerification
  dsimp only
  refine State.verificationAnswer_moves (State.settleVerification_moves ?_ _ _) _ _
  have hk := h.store' ((Store.Kept.refl s.store).queues s.store.loadQueue
    (s.store.verifyQueue.filter fun q => q != (v.cart, v.serial))
    (s.store.sweep.filter fun w => !(w.cart == v.cart && w.serial == v.serial)) (List.Sublist.refl _))
  split
  · exact hk.latch _
  · exact hk

theorem State.dropVersion_moves {w : Bool} {a s : State} (h : State.Moves w a s) (v : Version) :
    State.Moves w a (s.dropVersion v) := by
  unfold State.dropVersion
  try dsimp only
  repeat' first
    | assumption
    | rfl
    | (intro _)
    | with_reducible apply State.discard_moves
    | with_reducible apply Store.Kept.freeVersion
    | exact Store.Kept.refl _
    | split
    | with_reducible apply State.Moves.store'

theorem State.failShort_moves {w : Bool} {a s : State} (h : State.Moves w a s) (v : Version) :
    State.Moves w a (s.failShort v) := by
  unfold State.failShort
  try dsimp only
  repeat' first
    | assumption
    | rfl
    | (intro _)
    | with_reducible apply State.endVerification_moves
    | split


end Sys2Proof.Machine
end

