-- ==== Sys2Proof/Laws/MovesVoice.lean ====
section
/-! SUPPORT. The operations of VoiceOps FetchOps as moves. -/

namespace Sys2Proof.Machine

theorem VoiceUse.leaveBlock_key (u : VoiceUse) : u.leaveBlock.key = u.key := by
  unfold VoiceUse.leaveBlock
  split <;> rfl

theorem VoiceUse.leaveBlocks_key (n : Nat) (u : VoiceUse) : (VoiceUse.leaveBlocks n u).key = u.key := by
  induction n generalizing u with
  | zero => rfl
  | succ n ih =>
    unfold VoiceUse.leaveBlocks
    split
    · exact (ih _).trans u.leaveBlock_key
    · rfl

theorem VoiceUse.rampOut_key (u : VoiceUse) (clock n : Nat) : (u.rampOut clock n).key = u.key := by
  unfold VoiceUse.rampOut
  split
  · rfl
  · split <;> rfl

theorem VoiceUse.rampOutEnding_key (u : VoiceUse) (clock n left : Nat) : (u.rampOutEnding clock n left).key = u.key := by
  unfold VoiceUse.rampOutEnding
  dsimp only
  split
  · rfl
  · split <;> rfl

theorem State.settleStream_moves {w : Bool} {a s : State} (h : State.Moves w a s) (i : Nat) :
    State.Moves w a (s.settleStream i) := by
  unfold State.settleStream
  dsimp only
  split
  · exact h
  · rename_i u e
    have hk := u.leaveBlocks_key u.firstBlocks
    split
    · exact h
    · split
      · split
        · exact h.setVoice e hk
        · exact ((h.setVoice e (u' := { VoiceUse.leaveBlocks u.firstBlocks u with streamDone := some .fail }) hk).latch _).store'
            ((Store.Kept.refl _).quarantine _ _)
      · exact h.setVoice e hk

theorem Outlet.entry_is {x : Outlet} {tag : Nat} {e : Entry} (h : x.entry tag = some e) : e.tag = tag := by
  have := List.find?_some h
  simpa using this

theorem State.recordLeave_moves {w : Bool} {a s : State} (h : State.Moves w a s) (o : OutletId) (r : Record) {tag : Nat}
    (h1 : r.source = .entry) (h2 : r.entryTag = some tag) (key : Option AirKey) :
    State.Moves w a ((s.record o r key).modOut o fun x => x.dropEntry tag) := by
  unfold State.record
  dsimp only
  split
  · exact h.leave _ _ _ _ ⟨h1, h2, rfl⟩
  · split
    · exact h.leave _ _ _ _ ⟨h1, h2, rfl⟩
    · split
      · exact (State.tallyDrop_moves h _ _).leave _ _ _ _ ⟨h1, h2, rfl⟩
      · exact (State.tallyDrop_moves h _ _).leave _ _ _ _ ⟨h1, h2, rfl⟩

theorem State.leaveEntry_moves {w : Bool} {a s : State} (h : State.Moves w a s) (o : OutletId) (tag : Nat) (out : Outcome)
    (rep : VoiceReport) (played : Nat) (under : Option Nat) : State.Moves w a (s.leaveEntry o tag out rep played under) := by
  unfold State.leaveEntry
  dsimp only
  split
  · exact h
  · rename_i e he
    exact State.recordLeave_moves h _ _ rfl (congrArg some (Outlet.entry_is he)) _

theorem State.leaveSilent_moves {w : Bool} {a s : State} (h : State.Moves w a s) (o : OutletId) (tag : Nat) (out : Outcome) :
    State.Moves w a (s.leaveSilent o tag out) := by
  unfold State.leaveSilent
  try dsimp only
  repeat' first
    | assumption
    | rfl
    | (intro _)
    | with_reducible apply State.leaveEntry_moves

theorem State.skipEntry_moves {w : Bool} {a s : State} (h : State.Moves w a s) (o : OutletId) (tag : Nat) :
    State.Moves w a (s.skipEntry o tag) := by
  unfold State.skipEntry
  try dsimp only
  repeat' first
    | assumption
    | rfl
    | (intro _)
    | with_reducible apply State.leaveSilent_moves
    | with_reducible apply State.start_moves
    | with_reducible apply State.Moves.modOut
    | with_reducible apply State.Moves.modEntry
    | split

theorem State.startSample_moves {w : Bool} {a s : State} (h : State.Moves w a s) (inCue : Nat) (o : Int) :
    State.Moves w a (s.startSample inCue o).2 := by
  unfold State.startSample
  split
  · exact h
  · exact h.freeCount _

theorem freshUse_key (o : OutletId) (h : Holder) (v : Version) (startPos : Nat) (looping : Bool) (needed : Time) :
    (freshUse o h v startPos looping needed).key = v.key := by
  unfold freshUse
  extract_lets u
  split <;> rfl

theorem beq_key (c n c' n' : Nat) : (c' == c && n' == n) = decide ((c, n) = (c', n')) := by
  rw [Bool.eq_iff_iff]
  simp only [Bool.and_eq_true, beq_iff_eq, decide_eq_true_eq, Prod.mk.injEq]
  exact ⟨fun h => ⟨h.1.symm, h.2.symm⟩, fun h => ⟨h.1.symm, h.2.symm⟩⟩

/-- A voice of the pool takes a version of the directory, and leaves the one it held (R93, R111). -/
theorem State.prime_moves {w : Bool} {a s : State} (h : State.Moves w a s) (i : Nat) (o : OutletId) (hh : Holder) {v : Version}
    (startPos : Nat) (looping : Bool) (needed : Time) (hi : i < s.voices.length) (hv : v ∈ s.store.versions) :
    State.Moves w a (s.prime i o hh v startPos looping needed) := by
  unfold State.prime
  dsimp only
  have hk : (v.cart, v.serial) ∈ s.store.versions.map Version.key := List.mem_map_of_mem (f := Version.key) hv
  have hx : s.voices[i]? = some s.voices[i] := List.getElem?_eq_getElem hi
  have hf := freshUse_key o hh v startPos looping needed
  have hf1 : (freshUse o hh v startPos looping needed).cart = v.cart := congrArg Prod.fst hf
  have hf2 : (freshUse o hh v startPos looping needed).serial = v.serial := congrArg Prod.snd hf
  have hm := fun c n => holdersOf_modify s.voices i (some (freshUse o hh v startPos looping needed)) hx c n
  simp only [Option.any_some, hf1, hf2, beq_key, decide_eq_true_eq] at hm
  cases e : s.voice i with
  | none =>
    refine h.holdVoice _ _ _ ((Store.Held.refl _).useUp _ _) fun hc => ?_
    refine (congrArg (Store.CountedBy _) ?_).mp (hc.useUp hk)
    funext c n
    have := hm c n
    have hn : (s.voices[i]).use = none := by
      unfold State.voice at e
      rw [hx] at e
      exact e
    simp only [hn, Option.any_none] at this
    simpa using this.symm
  | some u =>
    refine h.holdVoice _ _ _ (((Store.Held.refl _).useUp _ _).useDown _ _) fun hc => ?_
    refine (congrArg (Store.CountedBy _) ?_).mp ((hc.useUp hk).useDown u.cart u.serial)
    funext c n
    have := hm c n
    have hn : (s.voices[i]).use = some u := by
      unfold State.voice at e
      rw [hx] at e
      exact e
    simp only [hn, Option.any_some, decide_eq_true_eq] at this
    omega

theorem Store.usable_mem {st : Store} {c : Nat} {v : Version} (h : st.usable c = some v) : v ∈ st.versions := by
  unfold Store.usable at h
  exact List.mem_of_find?_eq_some (Option.filter_eq_some_iff.mp h).1

theorem State.fitBed_mem {s : State} {b : FittedBreak} {v : Version} (h : s.fitBed b = some v) : v ∈ s.store.versions := by
  unfold State.fitBed at h
  obtain ⟨c, -, e⟩ := Option.bind_eq_some_iff.mp h
  exact Store.usable_mem (Option.filter_eq_some_iff.mp e).1

theorem State.grantSlot_moves {w : Bool} {a s : State} (h : State.Moves w a s) (i : Nat) (r : VoiceRequest) (p : Place) (k : Nat)
    (hi : i < s.voices.length) : State.Moves w a (s.grantSlot i r p k) := by
  unfold State.grantSlot
  dsimp only
  split
  · exact h
  · split
    · split
      · rename_i e
        exact (State.prime_moves h _ _ _ _ _ _ hi (Store.usable_mem (Option.filter_eq_some_iff.mp e).1)).modFit _ _ _
      · split
        · rename_i e
          exact State.prime_moves (h.modFit _ _ _) _ _ _ _ _ _ hi (State.fitBed_mem e)
        · exact h.modFit _ _ _
    · split
      · rename_i e
        exact State.prime_moves h _ _ _ _ _ _ hi (State.fitBed_mem e)
      · exact h.modFit _ _ _

theorem State.grantFallback_moves {w : Bool} {a s : State} (h : State.Moves w a s) (i : Nat) (r : VoiceRequest) (id : Nat)
    (hi : i < s.voices.length) : State.Moves w a (s.grantFallback i r id) := by
  unfold State.grantFallback
  dsimp only
  split
  · rename_i e
    obtain ⟨c, -, e⟩ := Option.bind_eq_some_iff.mp e
    exact (State.prime_moves h _ _ _ _ _ _ hi (Store.usable_mem e)).modOut _ _ (fun _ => rfl) fun _ => rfl
  · exact h.modOut _ _ (fun _ => rfl) fun _ => rfl

theorem State.loseEntry_moves {w : Bool} {a s : State} (h : State.Moves w a s) (o : OutletId) (tag : Nat) :
    State.Moves w a (s.loseEntry o tag) := h.modEntry _ _ _ fun _ => rfl

theorem State.startSample_same (s : State) (inCue : Nat) (o : Int) :
    (s.startSample inCue o).2.voices = s.voices ∧ (s.startSample inCue o).2.store = s.store := by
  unfold State.startSample
  split <;> exact ⟨rfl, rfl⟩

theorem State.grant_moves {w : Bool} {a s : State} (h : State.Moves w a s) (i : Nat) (r : VoiceRequest) (hi : i < s.voices.length) :
    State.Moves w a (s.grant i r) := by
  unfold State.grant
  dsimp only
  split
  · split
    · exact h
    · split
      · split
        · rename_i v e
          obtain ⟨h1, h2⟩ := s.startSample_same v.inCue (Entry.air ‹Entry›).offset
          exact State.prime_moves (State.startSample_moves h _ _) _ _ _ _ _ _ (by rw [h1]; exact hi)
            (by rw [h2]; exact Store.usable_mem (Option.filter_eq_some_iff.mp e).1)
        · exact State.loseEntry_moves h _ _
      · exact h
  · exact State.grantSlot_moves h _ _ _ _ hi
  · exact State.grantFallback_moves h _ _ _ hi
  · exact h

theorem State.freeVoice_lt {s : State} {r : Option OutletId} {i : Nat} (h : s.freeVoice r = some i) : i < s.voices.length := by
  unfold State.freeVoice at h
  dsimp only at h
  split at h
  · cases h
    assumption
  · cases h

theorem State.voiceFor_lt {s : State} {o : OutletId} {i : Nat} (h : s.voiceFor o = some i) : i < s.voices.length := by
  unfold State.voiceFor at h
  split at h
  · rename_i e
    cases h
    exact State.freeVoice_lt e
  · exact State.freeVoice_lt h

theorem State.claimant_lt {s : State} {i : Nat} {r : VoiceRequest} (h : s.claimant i = some r) : i < s.voices.length := by
  unfold State.claimant at h
  split at h
  · cases h
  · rename_i e
    exact (List.getElem?_eq_some_iff.mp e).1

theorem State.request_moves {w : Bool} {a s : State} (h : State.Moves w a s) (r : VoiceRequest) :
    State.Moves w a (s.request r) := by
  unfold State.request
  split
  · rename_i i e
    refine State.grant_moves h _ _ ?_
    split at e
    · exact State.freeVoice_lt e
    · exact State.voiceFor_lt e
  · exact h.queue _

theorem State.offer_moves {w : Bool} {a s : State} {fuel : Nat} (h : State.Moves w a s) : State.Moves w a (State.offer fuel s) := by
  induction fuel generalizing s with
  | zero => exact h
  | succ n ih =>
    unfold State.offer
    dsimp only
    have hp : State.Moves w a (s.pick ((List.range s.voices.length).filter fun i => (s.claimant i).isSome).length).2 :=
      State.pick_moves h rfl
    split
    · exact hp
    · split
      · exact hp
      · rename_i e
        have hi := State.claimant_lt e
        exact ih (State.grant_moves (hp.queue _) _ _ hi)

theorem State.offerAll_moves {w : Bool} {a s : State} (h : State.Moves w a s) : State.Moves w a s.offerAll := State.offer_moves h

/-- A voice leaves its version (R111). -/
theorem State.dropVoice_moves {w : Bool} {a s : State} (h : State.Moves w a s) (i : Nat) :
    State.Moves w a (s.dropVoice i) := by
  unfold State.dropVoice
  dsimp only
  split
  · exact h
  · rename_i u e
    obtain ⟨v, hv, hn⟩ := State.voice_some e
    have hk : s.store.Kept (if u.bad then s.store.quarantine u.cart u.serial else s.store) := by
      split
      · exact (Store.Kept.refl _).quarantine _ _
      · exact .refl _
    refine (h.holdVoice i none _ (hk.toHeld.useDown u.cart u.serial) fun hc => ?_).transfer _
    refine (congrArg (Store.CountedBy _) ?_).mp ((hk.uses _ hc).useDown u.cart u.serial)
    funext c n
    have := holdersOf_modify s.voices i none hv c n
    simp only [hn, Option.any_some, Option.any_none, beq_key, decide_eq_true_eq, Bool.false_eq_true, if_false] at this
    omega

theorem State.freeVoices_moves {w : Bool} {a s : State} (h : State.Moves w a s) (l : List Nat) :
    State.Moves w a (s.freeVoices l) := by
  unfold State.freeVoices
  try dsimp only
  repeat' first
    | assumption
    | rfl
    | (intro _)
    | with_reducible apply State.dropVoice_moves
    | with_reducible apply State.offerAll_moves
    | with_reducible apply State.Moves.foldl

theorem State.giveUp_moves {w : Bool} {a s : State} (h : State.Moves w a s) (o : OutletId) (hh : Holder) :
    State.Moves w a (s.giveUp o hh) := by
  unfold State.giveUp
  try dsimp only
  repeat' first
    | assumption
    | rfl
    | (intro _)
    | with_reducible apply State.freeVoices_moves
    | split
    | with_reducible apply State.Moves.queue

theorem State.giveUpWhere_moves {w : Bool} {a s : State} (h : State.Moves w a s) (o : OutletId) (hh : Holder → Bool) :
    State.Moves w a (s.giveUpWhere o hh) := by
  unfold State.giveUpWhere
  try dsimp only
  repeat' first
    | assumption
    | rfl
    | (intro _)
    | with_reducible apply State.freeVoices_moves
    | split
    | with_reducible apply State.Moves.queue

theorem State.judge_moves {w : Bool} {a s : State} (h : State.Moves w a s) (i : Nat) :
    State.Moves w a (s.judge i) := by
  unfold State.judge
  dsimp only
  split
  · exact h
  · rename_i e
    split
    · refine h.setVoice e ?_
      split <;> rfl
    · have h' := h.setVoice e (u' := VoiceUse.conceal _ s.clock true) rfl
      split
      · exact h'
      · exact h'.latch _

theorem State.judgeFirst_moves {w : Bool} {a s : State} {fuel : Nat} (h : State.Moves w a s) (i : Nat) :
    State.Moves w a (State.judgeFirst fuel s i) := by
  induction fuel generalizing s with
  | zero => exact h
  | succ n ih =>
    unfold State.judgeFirst
    split
    · split
      · exact ih (State.judge_moves h i)
      · exact h
    · exact h

theorem State.startVoiceWith_moves {w : Bool} {a s : State} (h : State.Moves w a s) (i : Nat) (set : VoiceUse → VoiceUse)
    (hs : ∀ u, (set u).key = u.key) : State.Moves w a (s.startVoiceWith i set) :=
  State.judgeFirst_moves (h.modVoice _ _ fun u => hs { u with state := .playing }) _

theorem State.startVoice_moves {w : Bool} {a s : State} (h : State.Moves w a s) (i : Nat) (mult : Ramp) :
    State.Moves w a (s.startVoice i mult) := State.startVoiceWith_moves h _ _ fun _ => rfl

theorem State.settlePass_moves {w : Bool} {a s : State} (h : State.Moves w a s) (i : Nat) : State.Moves w a (s.settlePass i) := by
  unfold State.settlePass
  split
  · exact State.settleStream_moves h i
  · exact h

theorem State.stopVoice_moves {w : Bool} {a s : State} (h : State.Moves w a s) (i : Nat) :
    State.Moves w a (s.stopVoice i).2 := by
  unfold State.stopVoice
  dsimp only
  split
  · exact State.settlePass_moves h i
  · exact State.dropVoice_moves (State.settlePass_moves h i) i

theorem State.beginTransfer_moves {w : Bool} {a s : State} (h : State.Moves w a s) (k : TransferKind) :
    State.Moves w a (s.beginTransfer k) := by
  unfold State.beginTransfer
  dsimp only
  refine h.storeTransfer ?_ _
  split
  · exact (Store.Kept.refl _).queues _ _ _ (List.drop_sublist _ _)
  · split
    · exact (Store.Kept.refl _).queues _ _ _ (List.Sublist.refl _)
    · exact .refl _
  · exact .refl _

theorem State.pump_moves {w : Bool} {a s : State} (h : State.Moves w a s)  :
    State.Moves w a (s.pump) := by
  unfold State.pump
  try dsimp only
  repeat' first
    | assumption
    | rfl
    | (intro _)
    | with_reducible apply State.beginTransfer_moves
    | split

theorem State.freeDiscarded_moves {w : Bool} {a s : State} (h : State.Moves w a s) (cart serial : Nat) :
    State.Moves w a (s.freeDiscarded cart serial) := by
  unfold State.freeDiscarded
  try dsimp only
  repeat' first
    | assumption
    | rfl
    | (intro _)
    | with_reducible apply Store.Kept.freeVersion
    | exact Store.Kept.refl _
    | split
    | with_reducible apply State.Moves.store'

theorem State.deliver_moves {w : Bool} {a s : State} (h : State.Moves w a s) (i ord : Nat) (ecc : Ecc) :
    State.Moves w a (s.deliver i ord ecc) := by
  unfold State.deliver
  split
  · exact h
  · rename_i u e
    extract_lets flagged data u1 u2 u3 t
    have h1 : u1.key = u.key := by
      show (ite _ _ _ : VoiceUse).key = _
      split <;> rfl
    have h3 : u3.key = u.key := by
      show (ite _ _ _ : VoiceUse).key = _
      split <;> exact h1
    have ht : State.Moves w a t := h.setVoice e h3
    split
    · exact ht.latch _
    · exact ht

theorem State.completeRead_moves {w : Bool} {a s : State} (h : State.Moves w a s) (t : Transfer) (i ord : Nat) (ecc : Ecc) :
    State.Moves w a (s.completeRead t i ord ecc) := by
  unfold State.completeRead
  try dsimp only
  repeat' first
    | assumption
    | rfl
    | (intro _)
    | with_reducible apply State.Moves.corrected
    | with_reducible apply State.deliver_moves
    | split
    | with_reducible apply State.Moves.transfer

theorem State.completeLoad_moves {a s : State} (h : State.Moves false a s) (t : Transfer) (p : Payload) :
    State.Moves false a (s.completeLoad t p) := by
  unfold State.completeLoad
  dsimp only
  have h' := h.transfer none
  split
  · exact State.freeDiscarded_moves h' _ _
  · split
    · exact h'
    · refine State.Moves.write rfl (h'.store' ((Store.Kept.refl _).modVersion _ _ _ ?_)) _ _ _
      exact fun _ => rfl

theorem State.completeVerify_moves {w : Bool} {a s : State} (h : State.Moves w a s) (t : Transfer) (cart serial off size : Nat)
    (ecc : Ecc) : State.Moves w a (s.completeVerify t cart serial off size ecc) := by
  unfold State.completeVerify
  dsimp only
  have h' := (h.transfer none).corrected ecc.corrected
  split
  · exact State.freeDiscarded_moves h' _ _
  · split
    · exact h'
    · split
      · exact State.endVerification_moves h' _ _ _ _
      · split
        · exact State.endVerification_moves h' _ _ _ _
        · exact h'.store' ((Store.Kept.refl _).queues _ _ _ (List.Sublist.refl _))


end Sys2Proof.Machine
end

