-- ==== Sys2Proof/Laws/MovesPlay.lean ====
section
/-! SUPPORT. The operations of BreakFit BreakPlay AirOps as moves. -/

namespace Sys2Proof.Machine

theorem State.sendCue_moves {w : Bool} {a s : State} (h : State.Moves w a s) (o : OutletId) (b : FittedBreak) (start : Time) (cancel : Nat) :
    State.Moves w a (s.sendCue o b start cancel) := by
  unfold State.sendCue
  try dsimp only
  repeat' first
    | assumption
    | rfl
    | (intro _)
    | with_reducible apply State.Moves.send

theorem State.announce_moves {w : Bool} {a s : State} (h : State.Moves w a s) (o : OutletId) (p : Place) (start : Time) :
    State.Moves w a (s.announce o p start) := by
  unfold State.announce
  try dsimp only
  repeat' first
    | assumption
    | rfl
    | (intro _)
    | with_reducible apply State.sendCue_moves
    | with_reducible apply State.Moves.modFit
    | with_reducible apply State.Moves.modOut
    | split

theorem State.cancelCue_moves {w : Bool} {a s : State} (h : State.Moves w a s) (o : OutletId) (p : Place) :
    State.Moves w a (s.cancelCue o p) := by
  unfold State.cancelCue
  try dsimp only
  repeat' first
    | assumption
    | rfl
    | (intro _)
    | with_reducible apply State.sendCue_moves
    | with_reducible apply State.Moves.modFit
    | split

theorem State.releaseFit_moves {w : Bool} {a s : State} (h : State.Moves w a s) (o : OutletId) (p : Place) :
    State.Moves w a (s.releaseFit o p) := by
  unfold State.releaseFit
  try dsimp only
  repeat' first
    | assumption
    | rfl
    | (intro _)
    | exact Outlet.setPlace_fixed _ _ _
    | exact Outlet.setPlace_lists _ _ _
    | with_reducible apply State.Moves.modOut
    | with_reducible apply State.giveUpWhere_moves

theorem State.requestSlot_moves {w : Bool} {a s : State} (h : State.Moves w a s) (o : OutletId) (p : Place) (k : Nat) (needed : Time) :
    State.Moves w a (s.requestSlot o p k needed) := by
  unfold State.requestSlot
  try dsimp only
  repeat' first
    | assumption
    | rfl
    | (intro _)
    | with_reducible apply State.request_moves
    | split

theorem VoiceUse.enter_key (u : VoiceUse) (clock : Nat) (m : Int) (part : Bool) (out : Option (Nat × Nat)) :
    (u.enter clock m part out).key = u.key := by
  unfold VoiceUse.enter
  split
  · rfl
  · exact VoiceUse.rampOutEnding_key _ _ _ _

theorem State.beginItem_moves {w : Bool} {a s : State} (h : State.Moves w a s) (o : OutletId) (p : Place) (k i : Nat) (pos : Time) :
    State.Moves w a (s.beginItem o p k i pos) := by
  unfold State.beginItem
  try dsimp only
  repeat' first
    | assumption
    | rfl
    | (intro _)
    | with_reducible apply State.start_moves
    | with_reducible apply State.startVoiceWith_moves
    | exact VoiceUse.enter_key _ _ _ _ _
    | exact VoiceUse.rampOutEnding_key _ _ _ _
    | with_reducible apply State.Moves.modFit
    | with_reducible apply State.tallyStart_moves
    | with_reducible apply State.requestSlot_moves
    | split

theorem State.beginBed_moves {w : Bool} {a s : State} (h : State.Moves w a s) (o : OutletId) (p : Place) (k i : Nat) (taken : Bool) (n left : Nat) :
    State.Moves w a (s.beginBed o p k i taken n left) := by
  unfold State.beginBed
  try dsimp only
  repeat' first
    | assumption
    | rfl
    | (intro _)
    | with_reducible apply State.startVoiceWith_moves
    | exact VoiceUse.enter_key _ _ _ _ _
    | exact VoiceUse.rampOutEnding_key _ _ _ _
    | with_reducible apply State.Moves.modFit
    | with_reducible apply State.tallyStart_moves
    | split

theorem State.beginSubstituted_moves {w : Bool} {a s : State} (h : State.Moves w a s) (o : OutletId) (p : Place) (k : Nat) (due : Time) :
    State.Moves w a (s.beginSubstituted o p k due) := by
  unfold State.beginSubstituted
  try dsimp only
  repeat' first
    | assumption
    | rfl
    | (intro _)
    | with_reducible apply State.Moves.modFit
    | with_reducible apply State.requestSlot_moves
    | split

theorem State.beginTail_moves {w : Bool} {a s : State} (h : State.Moves w a s) (o : OutletId) (p : Place) (pos : Time) :
    State.Moves w a (s.beginTail o p pos) := by
  unfold State.beginTail
  try dsimp only
  repeat' first
    | assumption
    | rfl
    | (intro _)
    | with_reducible apply State.Moves.modFit
    | with_reducible apply State.Moves.modOut
    | split

theorem State.stepFit_moves {w : Bool} {a s t : State} {o : OutletId} {p : Place} (h : State.Moves w a s)
    (e : s.stepFit o p = some t) : State.Moves w a t := by
  unfold State.stepFit at e
  dsimp only at e
  split at e
  · split at e
    · split at e
      · rename_i hl
        cases e
        split at hl
        · split at hl
          · split at hl
            · cases hl
              exact State.beginBed_moves h _ _ _ _ _ _ _
            · cases hl
          · cases hl
        · cases hl
      · cases e
        exact State.giveUp_moves h _ _
      · split at e
        · cases e
        · split at e
          · cases e
          · split at e
            · split at e
              · cases e
                exact State.beginSubstituted_moves h _ _ _ _
              · obtain ⟨i, -, rfl⟩ := Option.map_eq_some_iff.mp e
                exact State.beginItem_moves h _ _ _ _ _
            · split at e
              · cases e
              · split at e
                · cases e
                  exact State.beginTail_moves h _ _ _
                · split at e
                  · obtain ⟨i, -, rfl⟩ := Option.map_eq_some_iff.mp e
                    exact State.beginBed_moves h _ _ _ _ _ _ _
                  · cases e
    · cases e
  · cases e

theorem State.runFit_moves {w : Bool} {a s : State} {fuel : Nat} (h : State.Moves w a s) (o : OutletId) (p : Place) :
    State.Moves w a (State.runFit fuel s o p) := by
  induction fuel generalizing s with
  | zero => exact h
  | succ n ih =>
    unfold State.runFit
    split
    · exact h
    · rename_i e
      exact ih (State.stepFit_moves h e)

theorem State.startFit_moves {w : Bool} {a s : State} (h : State.Moves w a s) (o : OutletId) (p : Place) (start : Time) :
    State.Moves w a (s.startFit o p start) := by
  unfold State.startFit
  try dsimp only
  repeat' first
    | assumption
    | rfl
    | (intro _)
    | with_reducible apply State.Moves.modFit
    | with_reducible apply State.runFit_moves

theorem State.shadowFit_moves {w : Bool} {a s : State} (h : State.Moves w a s) (o : OutletId) (p : Place) (start : Time) :
    State.Moves w a (s.shadowFit o p start) := by
  unfold State.shadowFit
  try dsimp only
  repeat' first
    | assumption
    | rfl
    | (intro _)
    | with_reducible apply State.Moves.modFit
    | with_reducible apply State.giveUpWhere_moves

theorem State.endSlot_moves {w : Bool} {a s : State} (h : State.Moves w a s) (o : OutletId) (p : Place) (k : Nat) (rep : VoiceReport) (mark : Option AirMark) :
    State.Moves w a (s.endSlot o p k rep mark) := by
  unfold State.endSlot
  try dsimp only
  repeat' first
    | assumption
    | rfl
    | (intro _)
    | with_reducible apply State.Moves.modFit
    | with_reducible apply State.tallyStop_moves

theorem State.stopSlot_moves {w : Bool} {a s : State} (h : State.Moves w a s) (o : OutletId) (p : Place) (mark : VoiceReport → Nat → Option AirMark) (i : Nat) :
    State.Moves w a (s.stopSlot o p mark i) := by
  unfold State.stopSlot
  try dsimp only
  repeat' first
    | assumption
    | rfl
    | (intro _)
    | with_reducible apply State.settleStream_moves
    | with_reducible apply State.endSlot_moves
    | with_reducible apply State.stopVoice_moves
    | refine State.stopVoice_moves ?_ (by assumption)
    | split

theorem State.recordAll_moves {w : Bool} {a s : State} (h : State.Moves w a s) (o : OutletId) (l : List (Record × Option AirKey)) :
    State.Moves w a (s.recordAll o l) := by
  unfold State.recordAll
  try dsimp only
  repeat' first
    | assumption
    | rfl
    | (intro _)
    | with_reducible apply State.record_moves
    | with_reducible apply State.Moves.foldl

theorem State.writeBreak_moves {w : Bool} {a s : State} (h : State.Moves w a s) (o : OutletId) (p : Place) :
    State.Moves w a (s.writeBreak o p) := by
  unfold State.writeBreak
  split
  · exact h
  · exact (State.recordAll_moves h _ _).setOut _ _ rfl ⟨rfl, List.filter_sublist, fun _ h => h⟩

theorem State.closeFit_moves {w : Bool} {a s : State} (h : State.Moves w a s) (o : OutletId) (p : Place) :
    State.Moves w a (s.closeFit o p) := by
  unfold State.closeFit
  try dsimp only
  repeat' first
    | assumption
    | rfl
    | (intro _)
    | exact Outlet.setPlace_fixed _ _ _
    | exact Outlet.setPlace_lists _ _ _
    | with_reducible apply State.writeBreak_moves
    | with_reducible apply State.Moves.modOut

theorem State.stepShadow_moves {w : Bool} {a s t : State} {o : OutletId} {p : Place} (h : State.Moves w a s)
    (e : s.stepShadow o p = some t) : State.Moves w a t := by
  unfold State.stepShadow at e
  split at e
  · split at e
    · split at e
      · cases e
        exact h.modFit _ _ _
      · obtain ⟨_, -, rfl⟩ := Option.map_eq_some_iff.mp e
        exact State.beginTail_moves h _ _ _
    · cases e
  · cases e

theorem State.closeShadow_moves {w : Bool} {a s : State} (h : State.Moves w a s) (o : OutletId) (p : Place)
    (mark : FittedBreak → FittedBreak) : State.Moves w a (s.closeShadow o p mark) := by
  unfold State.closeShadow
  try dsimp only
  repeat' first
    | assumption
    | rfl
    | (intro _)
    | with_reducible apply State.Moves.modFit
    | with_reducible apply State.closeFit_moves
    | with_reducible apply State.giveUpWhere_moves
    | with_reducible apply State.Moves.modEntry
    | split

theorem State.endShadow_moves {w : Bool} {a s : State} (h : State.Moves w a s) (o : OutletId) (p : Place) :
    State.Moves w a (s.endShadow o p) := State.closeShadow_moves h o p _

theorem State.stopAtRejoin_moves {w : Bool} {a s : State} (h : State.Moves w a s) (o : OutletId) (p : Place) :
    State.Moves w a (s.stopAtRejoin o p) := by
  unfold State.stopAtRejoin
  try dsimp only
  repeat' first
    | assumption
    | rfl
    | (intro _)
    | with_reducible apply State.stopSlot_moves
    | with_reducible apply State.giveUpWhere_moves
    | with_reducible apply State.Moves.foldl

theorem State.endEarly_moves {w : Bool} {a s : State} (h : State.Moves w a s) (o : OutletId) (p : Place) :
    State.Moves w a (s.endEarly o p) := by
  unfold State.endEarly
  try dsimp only
  repeat' first
    | assumption
    | rfl
    | (intro _)
    | with_reducible apply State.Moves.modVoice
    | exact VoiceUse.rampOut_key _ _ _
    | with_reducible apply State.Moves.modFit
    | with_reducible apply State.giveUpWhere_moves
    | with_reducible apply State.Moves.foldl

theorem State.suspendFit_moves {w : Bool} {a s : State} (h : State.Moves w a s) (o : OutletId) (p : Place) (pos : Time) :
    State.Moves w a (s.suspendFit o p pos) := by
  unfold State.suspendFit
  try dsimp only
  repeat' first
    | assumption
    | rfl
    | (intro _)
    | with_reducible apply State.stopSlot_moves
    | with_reducible apply State.Moves.modFit
    | with_reducible apply State.giveUpWhere_moves
    | with_reducible apply State.Moves.foldl

theorem State.enterYielding_moves {w : Bool} {a s : State} (h : State.Moves w a s) (o : OutletId) (succ : Nat)
    (cause : YieldCause) (hs : (s.out o).air.sends = true) : State.Moves w a (s.enterYielding o succ cause) := by
  unfold State.enterYielding
  dsimp only
  refine State.Moves.modOutAt (State.Moves.send h _) _ _ ?_ ?_
  · rw [State.send_eq s _ (fun t => t.out o) fun _ _ => rfl]
    simp only [Outlet.fixed, Air.off_sends hs]
    rfl
  · exact fun _ => rfl

theorem State.handBackBoundary_moves {w : Bool} {a s : State} (h : State.Moves w a s) (o : OutletId) :
    State.Moves w a (s.handBackBoundary o) := by
  unfold State.handBackBoundary
  dsimp only
  split
  · rename_i hc
    simp only [Bool.and_eq_true, beq_iff_eq] at hc
    split
    · exact State.enterYielding_moves h _ _ _ (by rw [hc.2]; rfl)
    · exact h.modOut _ _ (fun _ => rfl) fun _ => rfl
  · exact h

theorem State.judgeRelease_moves {w : Bool} {a s : State} (h : State.Moves w a s) (o : OutletId) :
    State.Moves w a (s.judgeRelease o) := by
  unfold State.judgeRelease
  split
  · rename_i hc
    simp only [beq_iff_eq] at hc
    split
    · exact State.enterYielding_moves h _ _ _ (by rw [hc]; rfl)
    · exact h
  · exact h

theorem State.judgeReleases_moves {w : Bool} {a s : State} (h : State.Moves w a s)  :
    State.Moves w a (s.judgeReleases) := by
  unfold State.judgeReleases
  try dsimp only
  repeat' first
    | assumption
    | rfl
    | (intro _)
    | with_reducible apply State.judgeRelease_moves
    | with_reducible apply State.Moves.foldl

theorem State.restartMeter_moves {w : Bool} {a s : State} (h : State.Moves w a s) (o : OutletId) :
    State.Moves w a (s.restartMeter o) := by
  unfold State.restartMeter
  try dsimp only
  repeat' first
    | assumption
    | rfl
    | (intro _)
    | with_reducible apply State.Moves.modOut

theorem State.clearEcho_moves {w : Bool} {a s : State} (h : State.Moves w a s) (o : OutletId) :
    State.Moves w a (s.clearEcho o) := by
  unfold State.clearEcho
  try dsimp only
  repeat' first
    | assumption
    | rfl
    | (intro _)
    | with_reducible apply State.Moves.modOut

theorem State.recordPeriod_moves {w : Bool} {a s : State} (h : State.Moves w a s) (o : OutletId) (p : FallbackPeriod) (rep : VoiceReport) :
    State.Moves w a (s.recordPeriod o p rep) := by
  unfold State.recordPeriod
  try dsimp only
  repeat' first
    | assumption
    | rfl
    | (intro _)
    | with_reducible apply State.record_moves
    | with_reducible apply State.Moves.modOut

theorem State.endPeriod_moves {w : Bool} {a s : State} (h : State.Moves w a s) (o : OutletId) (how : FallbackEnd) (n : Nat) :
    State.Moves w a (s.endPeriod o how n) := by
  unfold State.endPeriod
  try dsimp only
  repeat' first
    | assumption
    | rfl
    | (intro _)
    | with_reducible apply State.Moves.modOut
    | with_reducible apply State.Moves.modVoice
    | exact VoiceUse.rampOut_key _ _ _
    | with_reducible apply State.recordPeriod_moves
    | with_reducible apply State.giveUp_moves
    | split

theorem State.leaveFallback_moves {w : Bool} {a s : State} (h : State.Moves w a s) (o : OutletId) (how : FallbackEnd) (n : Nat)
    (hs : (s.out o).air.sends = true) : State.Moves w a (s.leaveFallback o how n) := by
  unfold State.leaveFallback
  dsimp only
  have h1 := State.endPeriod_moves h o how n
  have hs1 : ((s.endPeriod o how n).out o).air.sends = true :=
    ((State.endPeriod_moves (w := true) .refl o how n).sends o).trans hs
  split
  · exact h1.modOut _ _ (fun _ => rfl) fun _ => rfl
  · refine State.restartMeter_moves (State.Moves.modOutAt h1 _ _ ?_ ?_) _
    · simp only [Outlet.fixed, Air.off_sends hs1]
      rfl
    · exact fun _ => rfl

theorem State.rampRelay_moves {w : Bool} {a s : State} (h : State.Moves w a s) (o : OutletId) (m0 : Int) (m1 : Int) :
    State.Moves w a (s.rampRelay o m0 m1) := by
  unfold State.rampRelay
  try dsimp only
  repeat' first
    | assumption
    | rfl
    | (intro _)
    | with_reducible apply State.Moves.modOut


end Sys2Proof.Machine
end

