-- ==== Sys2Proof/Laws/MovesAir.lean ====
section
/-! SUPPORT. The operations of RunningOrder Instants Settle as moves. -/

namespace Sys2Proof.Machine

theorem State.unprepare_moves {w : Bool} {a s : State} (h : State.Moves w a s) (o : OutletId) (tag : Nat) :
    State.Moves w a (s.unprepare o tag) := by
  unfold State.unprepare
  extract_lets t u
  have ht : State.Moves w a t := by
    show State.Moves w a (match (s.out o).fitOf tag with
      | some p => (s.cancelCue o p).releaseFit o p
      | none => s)
    split
    · exact State.releaseFit_moves (State.cancelCue_moves h _ _) _ _
    · exact h
  have hu : State.Moves w a u := by
    refine ht.setOut o _ rfl ?_
    refine Outlet.Shrinks.unarm _ tag (fun e => if e.state = .armed then { e with state := .queued } else e) (fun e => ?_) (fun e => ?_) rfl
      rfl (.inr rfl) (.inr rfl)
    · split <;> rfl
    · split
      · exact EntryState.noConfusion
      · assumption
  exact State.giveUp_moves hu _ _

theorem State.disarm_moves {w : Bool} {a s : State} (h : State.Moves w a s) (o : OutletId) (tag : Nat) :
    State.Moves w a (s.disarm o tag) :=
  (State.unprepare_moves h o tag).setOut _ _ rfl
    (Outlet.Shrinks.unarm _ tag Entry.requeue (fun _ => rfl) (fun _ => EntryState.noConfusion) rfl rfl (.inl rfl) (.inl rfl))

theorem State.leaveUnbegun_moves {w : Bool} {a s : State} (h : State.Moves w a s) (o : OutletId) (tag : Nat) (out : Outcome) :
    State.Moves w a (s.leaveUnbegun o tag out) := by
  unfold State.leaveUnbegun
  try dsimp only
  repeat' first
    | assumption
    | rfl
    | (intro _)
    | with_reducible apply State.unprepare_moves
    | with_reducible apply State.leaveSilent_moves
    | split

/-- A slot is empty and may take an entry: the anchor slot a HARD one (R9, R12). -/
def Outlet.Takes (x : Outlet) (e : Entry) : ArmSlot → Prop
  | .sequence => x.seqSlot = none
  | .anchor => x.anchorSlot = none ∧ e ∈ x.entries ∧ ∃ t, e.mode = .hard t

theorem Outlet.Takes.shrinks {x : Outlet} {e : Entry} {slot : ArmSlot} (h : x.Takes e slot) (f : Entry → Entry)
    (hf : ∀ d, (f d).tag = d.tag) (hm : ∀ d, (f d).mode = d.mode) {y : Outlet} (hy : y.entries = (x.modEntry e.tag f).entries)
    (hs : y.spots = x.spots)
    (hp : match slot with
      | .sequence => y.seqSlot = some e.tag ∧ y.anchorSlot = x.anchorSlot
      | .anchor => y.seqSlot = x.seqSlot ∧ y.anchorSlot = some e.tag) : x.Shrinks y := by
  refine ⟨hy ▸ Outlet.modEntry_tags x e.tag f hf, hs ▸ List.Sublist.refl _, fun hn hx d hd ea => ?_⟩
  rw [hy] at hd
  obtain ⟨c, hc, rfl⟩ := List.mem_map.1 hd
  split at ea
  · rename_i hi
    rw [if_pos hi, hf, hm]
    simp only [beq_iff_eq] at hi
    rw [hi]
    cases slot with
    | sequence => exact .inl hp.1
    | anchor =>
      have hp2 : y.anchorSlot = some e.tag := hp.2
      have hx' : e ∈ x.entries ∧ ∃ t, e.mode = .hard t := h.2
      have : c = e := List.inj_on_of_nodup_map hn hc hx'.1 hi
      exact .inr ⟨hp2, this ▸ hx'.2⟩
  · rename_i hi
    rw [if_neg hi]
    have := hx c hc ea
    cases slot with
    | sequence =>
      have hp2 : y.anchorSlot = x.anchorSlot := hp.2
      rw [hp2]
      refine .inr (this.resolve_left fun e' => ?_)
      rw [show x.seqSlot = none from h] at e'
      cases e'
    | anchor =>
      have hp1 : y.seqSlot = x.seqSlot := hp.1
      refine .inl (hp1.trans (this.resolve_right fun e' => ?_))
      rw [h.1] at e'
      cases e'.1

theorem State.setArmed_moves {w : Bool} {a s : State} (h : State.Moves w a s) (o : OutletId) (e : Entry) {slot : ArmSlot}
    (he : (s.out o).Takes e slot) (start : ArmedStart) (serial : Option Nat) : State.Moves w a (s.setArmed o e.tag slot start serial) := by
  refine h.setOut _ _ ?_ (he.shrinks
    (fun e => { e with state := .armed, start := start, planned := start.planned, serial := serial, lost := false, air := .empty })
    (fun _ => rfl) (fun _ => rfl) ?_ ?_ ?_)
  all_goals cases slot <;> first | rfl | exact ⟨rfl, rfl⟩

theorem State.fitEntry_moves {w : Bool} {a s : State} (h : State.Moves w a s) (o : OutletId) (p : Place) (tag brk len : Nat) :
    State.Moves w a (s.fitEntry o p tag brk len) := by
  unfold State.fitEntry
  try dsimp only
  repeat' first
    | assumption
    | rfl
    | (intro _)
    | exact Outlet.setPlace_fixed _ _ _
    | exact Outlet.setPlace_lists _ _ _
    | with_reducible apply State.Moves.modOut

theorem State.announceArmed_moves {w : Bool} {a s : State} (h : State.Moves w a s) (o : OutletId) (tag : Nat) :
    State.Moves w a (s.announceArmed o tag) := by
  unfold State.announceArmed
  try dsimp only
  repeat' first
    | assumption
    | rfl
    | (intro _)
    | with_reducible apply State.start_moves
    | with_reducible apply State.announce_moves
    | split

theorem State.arm_moves {w : Bool} {a s : State} (h : State.Moves w a s) (o : OutletId) (e : Entry) {slot : ArmSlot}
    (he : (s.out o).Takes e slot) : State.Moves w a (s.arm o e slot) := by
  unfold State.arm
  dsimp only
  split
  · split
    · exact State.request_moves (State.setArmed_moves h o e he _ _) _
    · exact (State.leaveSilent_moves h _ _ _).modOut _ _ (fun _ => rfl) fun _ => rfl
  · split
    · exact h
    · exact State.requestSlot_moves (State.announceArmed_moves (State.fitEntry_moves (State.setArmed_moves h o e he _ _) _ _ _ _ _) _ _) _ _ _ _

theorem Outlet.nextEntry_slot {x : Outlet} {e : Entry} (h : x.nextEntry = some e) (ha : e.state = .armed) : x.anchorSlot = some e.tag := by
  unfold Outlet.nextEntry at h
  have := (Option.filter_eq_some_iff.mp h).2
  simpa [ha] using this

theorem State.fillSequence_moves {w : Bool} {a s t : State} {o : OutletId} (h : State.Moves w a s)
    (e : s.fillSequence o = some t) : State.Moves w a t := by
  unfold State.fillSequence at e
  dsimp only at e
  split at e
  · cases e
  · rename_i hs
    simp only [Bool.or_eq_true, not_or, Bool.not_eq_true, Option.isSome_eq_false_iff, Option.isNone_iff_eq_none] at hs
    split at e
    · cases e
    · rename_i d hd
      split at e
      · rename_i ha
        cases e
        have hq := Outlet.nextEntry_slot hd (by simpa using ha)
        refine h.setOut o _ rfl ⟨rfl, List.Sublist.refl _, fun _ hx e he ea => ?_⟩
        rcases hx e he ea with e' | ⟨e', -⟩
        · rw [hs.1] at e'
          cases e'
        · exact .inl (hq ▸ e')
      · split at e
        · cases e
        · cases e
          exact State.arm_moves h _ _ hs.1

theorem Outlet.isCandidate_hard {x : Outlet} {now : Time} {e : Entry} (h : x.isCandidate now e = true) : ∃ t, e.mode = .hard t := by
  unfold Outlet.isCandidate at h
  split at h
  · exact ⟨_, by assumption⟩
  · cases h

theorem State.fillAnchor_moves {w : Bool} {a s t : State} {o : OutletId} (h : State.Moves w a s)
    (e : s.fillAnchor o = some t) : State.Moves w a t := by
  unfold State.fillAnchor at e
  dsimp only at e
  split at e
  · cases e
  · rename_i hs
    simp only [Bool.or_eq_true, not_or, Bool.not_eq_true, Option.isSome_eq_false_iff, Option.isNone_iff_eq_none] at hs
    obtain ⟨i, hi, rfl⟩ := Option.map_eq_some_iff.mp e
    exact State.arm_moves h _ _ ⟨hs.1, List.mem_of_find?_eq_some hi, Outlet.isCandidate_hard (List.find?_some hi)⟩

theorem State.resolveSuccessor_moves {w : Bool} {a s : State} (h : State.Moves w a s) (o : OutletId) :
    State.Moves w a (s.resolveSuccessor o) := by
  unfold State.resolveSuccessor
  try dsimp only
  repeat' first
    | assumption
    | rfl
    | (intro _)
    | with_reducible apply State.start_moves
    | with_reducible apply State.Moves.modEntry
    | with_reducible apply State.announceArmed_moves
    | split

theorem State.handStart_moves {w : Bool} {a s : State} (h : State.Moves w a s) (o : OutletId) :
    State.Moves w a (s.handStart o) := by
  unfold State.handStart
  try dsimp only
  repeat' first
    | assumption
    | rfl
    | (intro _)
    | with_reducible apply State.Moves.modOut
    | split

theorem State.leaveSpent_moves {w : Bool} {a s : State} (h : State.Moves w a s) (o : OutletId) (tag : Nat) :
    State.Moves w a (s.leaveSpent o tag) := by
  unfold State.leaveSpent
  try dsimp only
  repeat' first
    | assumption
    | rfl
    | (intro _)
    | with_reducible apply State.leaveEntry_moves
    | with_reducible apply State.giveUp_moves
    | with_reducible apply State.handStart_moves

theorem State.soundItem_moves {w : Bool} {a s : State} (h : State.Moves w a s) (o : OutletId) (e : Entry) (i : Nat) :
    State.Moves w a (s.soundItem o e i) := by
  unfold State.soundItem
  try dsimp only
  repeat' first
    | assumption
    | rfl
    | (intro _)
    | with_reducible apply State.Moves.modEntry
    | with_reducible apply State.resolveSuccessor_moves
    | with_reducible apply State.leaveSpent_moves
    | with_reducible apply State.startVoice_moves
    | with_reducible apply State.tallyStart_moves
    | split

theorem State.soundBreak_moves {w : Bool} {a s : State} (h : State.Moves w a s) (o : OutletId) (e : Entry) :
    State.Moves w a (s.soundBreak o e) := by
  unfold State.soundBreak
  try dsimp only
  repeat' first
    | assumption
    | rfl
    | (intro _)
    | with_reducible apply State.Moves.modEntry
    | with_reducible apply State.tallyStart_moves
    | with_reducible apply State.sendCue_moves
    | with_reducible apply State.startFit_moves
    | with_reducible apply State.resolveSuccessor_moves
    | split

theorem State.soundEntry_moves {w : Bool} {a s : State} (h : State.Moves w a s) (o : OutletId) (e : Entry) :
    State.Moves w a (s.soundEntry o e) := by
  unfold State.soundEntry
  try dsimp only
  repeat' first
    | assumption
    | rfl
    | (intro _)
    | with_reducible apply State.soundItem_moves
    | with_reducible apply State.soundBreak_moves
    | split

theorem State.fadeLead_moves {w : Bool} {a s : State} (h : State.Moves w a s) (o : OutletId) (lead : Entry) :
    State.Moves w a (s.fadeLead o lead) := by
  unfold State.fadeLead
  try dsimp only
  repeat' first
    | assumption
    | rfl
    | (intro _)
    | with_reducible apply State.Moves.modVoice
    | exact VoiceUse.rampOut_key _ _ _
    | split

theorem State.makeLead_moves {w : Bool} {a s : State} (h : State.Moves w a s) (o : OutletId) (tag : Nat) :
    State.Moves w a (s.makeLead o tag) := by
  unfold State.makeLead
  split
  · exact h.setOut _ _ rfl (Outlet.Shrinks.unarm _ tag (fun e => { e with state := .onAir, air := .empty }) (fun _ => rfl)
      (fun _ => EntryState.noConfusion) rfl rfl (.inr rfl) (.inr rfl))
  · exact h

theorem State.startEntry_moves {w : Bool} {a s : State} (h : State.Moves w a s) (o : OutletId) (e : Entry) :
    State.Moves w a (s.startEntry o e) := by
  unfold State.startEntry
  try dsimp only
  repeat' first
    | assumption
    | rfl
    | (intro _)
    | with_reducible apply State.makeLead_moves
    | with_reducible apply State.fadeLead_moves
    | with_reducible apply State.soundEntry_moves
    | with_reducible apply State.handBackBoundary_moves
    | split

theorem State.endBreakEntry_moves {w : Bool} {a s : State} (h : State.Moves w a s) (o : OutletId) (tag : Nat) (out : Outcome) (played : Nat) (under : Option Nat) :
    State.Moves w a (s.endBreakEntry o tag out played under) := by
  unfold State.endBreakEntry
  try dsimp only
  repeat' first
    | assumption
    | rfl
    | (intro _)
    | with_reducible apply State.tallyStop_moves
    | with_reducible apply State.leaveEntry_moves

theorem State.endItemEntry_moves {w : Bool} {a s : State} (h : State.Moves w a s) (o : OutletId) (tag : Nat) (rep : VoiceReport) :
    State.Moves w a (s.endItemEntry o tag rep) := by
  unfold State.endItemEntry
  try dsimp only
  repeat' first
    | assumption
    | rfl
    | (intro _)
    | with_reducible apply State.tallyStop_moves
    | with_reducible apply State.leaveEntry_moves
    | split

theorem State.rampAll_moves {w : Bool} {a s : State} (h : State.Moves w a s) (o : OutletId) (n : Nat) :
    State.Moves w a (s.rampAll o n) := by
  unfold State.rampAll
  try dsimp only
  repeat' first
    | assumption
    | rfl
    | (intro _)
    | with_reducible apply State.Moves.modVoice
    | exact VoiceUse.rampOut_key _ _ _
    | with_reducible apply State.Moves.foldl

theorem State.cutEntry_moves {w : Bool} {a s : State} (h : State.Moves w a s) (o : OutletId) (e : Entry) :
    State.Moves w a (s.cutEntry o e) := by
  unfold State.cutEntry
  try dsimp only
  repeat' first
    | assumption
    | rfl
    | (intro _)
    | with_reducible apply State.endBreakEntry_moves
    | with_reducible apply State.Moves.modEntry
    | with_reducible apply State.unprepare_moves
    | with_reducible apply State.leaveSilent_moves
    | split

theorem State.cutOnAir_moves {w : Bool} {a s : State} (h : State.Moves w a s) (o : OutletId) :
    State.Moves w a (s.cutOnAir o) := by
  unfold State.cutOnAir
  repeat' first
    | assumption
    | (intro _)
    | with_reducible apply State.cutEntry_moves
    | with_reducible apply State.Moves.foldl
    | split

theorem State.passAnchor_moves {w : Bool} {a s : State} (h : State.Moves w a s) (o : OutletId) (l : List Entry) (e : Entry) :
    State.Moves w a (s.passAnchor o l e) := by
  unfold State.passAnchor
  repeat' first
    | assumption
    | with_reducible apply State.cutEntry_moves
    | with_reducible apply State.leaveUnbegun_moves
    | split

theorem State.anchorStart_moves {w : Bool} {a s : State} (h : State.Moves w a s) (o : OutletId) (e : Entry) :
    State.Moves w a (s.anchorStart o e) := by
  unfold State.anchorStart
  try dsimp only
  repeat' first
    | assumption
    | rfl
    | (intro _)
    | with_reducible apply State.passAnchor_moves
    | with_reducible refine State.leaveFallback_moves ?_ _ _ _ (Outlet.inFallback_sends (by assumption))
    | with_reducible apply State.rampAll_moves
    | with_reducible apply State.makeLead_moves
    | with_reducible apply State.soundEntry_moves
    | with_reducible apply State.handBackBoundary_moves
    | with_reducible apply State.Moves.foldl
    | split

theorem State.stepAnchor_moves {w : Bool} {a s t : State} {o : OutletId} (h : State.Moves w a s)
    (e : s.stepAnchor o = some t) : State.Moves w a t := by
  unfold State.stepAnchor at e
  dsimp only at e
  split at e
  · obtain ⟨i, -, rfl⟩ := Option.map_eq_some_iff.mp e
    exact State.anchorStart_moves h _ _
  · cases e

theorem State.stepLateLead_moves {w : Bool} {a s t : State} {o : OutletId} (h : State.Moves w a s)
    (e : s.stepLateLead o = some t) : State.Moves w a t := by
  unfold State.stepLateLead at e
  dsimp only at e
  split at e
  · obtain ⟨i, -, rfl⟩ := Option.map_eq_some_iff.mp e
    exact State.soundEntry_moves h _ _
  · cases e

theorem State.softTime_moves {w : Bool} {a s : State} (h : State.Moves w a s) (o : OutletId) (tag : Nat) (t : Time) :
    State.Moves w a (s.softTime o tag t) := by
  unfold State.softTime
  try dsimp only
  repeat' first
    | assumption
    | rfl
    | (intro _)
    | with_reducible apply State.start_moves
    | with_reducible apply State.leaveUnbegun_moves
    | with_reducible apply State.Moves.foldl

theorem State.displace_moves {w : Bool} {a s : State} (h : State.Moves w a s) (o : OutletId) (tag : Nat) :
    State.Moves w a (s.displace o tag) := by
  unfold State.displace
  try dsimp only
  repeat' first
    | assumption
    | rfl
    | (intro _)
    | with_reducible apply State.disarm_moves
    | split

theorem State.passEntry_moves {w : Bool} {a s : State} (h : State.Moves w a s) (o : OutletId) (tag : Nat) :
    State.Moves w a (s.passEntry o tag) := by
  unfold State.passEntry
  try dsimp only
  repeat' first
    | assumption
    | rfl
    | (intro _)
    | with_reducible apply State.endShadow_moves
    | with_reducible apply State.giveUp_moves
    | with_reducible apply State.endBreakEntry_moves
    | with_reducible apply State.leaveUnbegun_moves
    | split

theorem State.requeueShadow_moves {w : Bool} {a s : State} (h : State.Moves w a s) (o : OutletId) (tag : Nat) :
    State.Moves w a (s.requeueShadow o tag) := by
  unfold State.requeueShadow
  try dsimp only
  repeat' first
    | assumption
    | rfl
    | (intro _)
    | with_reducible apply State.disarm_moves
    | with_reducible apply State.Moves.modOut

theorem State.shadowLead_moves {w : Bool} {a s : State} (h : State.Moves w a s) (o : OutletId) (e : Entry) (f : FramePlace) :
    State.Moves w a (s.shadowLead o e f) := by
  unfold State.shadowLead
  try dsimp only
  repeat' first
    | assumption
    | rfl
    | (intro _)
    | with_reducible apply State.giveUp_moves
    | with_reducible apply State.shadowFit_moves
    | with_reducible apply State.fitEntry_moves
    | with_reducible apply State.makeLead_moves
    | with_reducible apply State.Moves.modEntry
    | split

theorem State.shadowAdvance_moves {w : Bool} {a s : State} (h : State.Moves w a s) (o : OutletId) (f : FramePlace) :
    State.Moves w a (s.shadowAdvance o f) := by
  unfold State.shadowAdvance
  try dsimp only
  repeat' first
    | assumption
    | rfl
    | (intro _)
    | with_reducible apply State.giveUp_moves
    | with_reducible apply State.passEntry_moves
    | with_reducible apply State.shadowLead_moves
    | with_reducible apply State.requeueShadow_moves
    | with_reducible apply State.Moves.modOut
    | with_reducible apply State.disarm_moves
    | with_reducible apply State.Moves.foldl
    | split

theorem State.recordInstant_moves {w : Bool} {a s : State} (h : State.Moves w a s) (o : OutletId) (n : Nat) (i : Instant) (out : Outcome) (rep : VoiceReport) :
    State.Moves w a (s.recordInstant o n i out rep) := by
  unfold State.recordInstant
  try dsimp only
  repeat' first
    | assumption
    | rfl
    | (intro _)
    | with_reducible apply State.tallyStop_moves
    | with_reducible apply State.fire_moves
    | with_reducible apply State.record_moves

theorem State.refuseFire_moves {w : Bool} {a s : State} (h : State.Moves w a s) (o : OutletId) (cart : Nat) :
    State.Moves w a (s.refuseFire o cart) := by
  unfold State.refuseFire
  try dsimp only
  repeat' first
    | assumption
    | rfl
    | (intro _)
    | with_reducible apply State.record_moves

theorem State.reprime_moves {w : Bool} {a s : State} (h : State.Moves w a s) (i n : Nat) (o : OutletId) {v : Version} (needed : Time)
    (hv : v ∈ s.store.versions) : State.Moves w a (s.reprime i n o v needed) := by
  unfold State.reprime
  dsimp only
  split
  · exact h
  · rename_i e
    obtain ⟨x, hx, -⟩ := State.voice_some e
    exact State.prime_moves (h.transfer _) _ _ _ _ _ _ (List.getElem?_eq_some_iff.mp hx).1 hv

theorem State.freshFire_moves {w : Bool} {a s : State} (h : State.Moves w a s) (n : Nat) (o : OutletId) {v : Version}
    (hv : v ∈ s.store.versions) : State.Moves w a (s.freshFire n o v) := by
  unfold State.freshFire
  split
  · rename_i e
    exact (State.prime_moves h _ _ _ _ _ _ (State.voiceFor_lt e) hv).modLine _ _ fun _ => rfl
  · exact (State.refuseFire_moves h _ _).latch _

theorem State.record_store (s : State) (o : OutletId) (r : Record) (key : Option AirKey) : (s.record o r key).store = s.store := by
  unfold State.record
  dsimp only
  split
  · rfl
  · split
    · rfl
    · split <;> rfl

theorem State.recordInstant_store (s : State) (o : OutletId) (n : Nat) (i : Instant) (out : Outcome) (rep : VoiceReport) :
    (s.recordInstant o n i out rep).store = s.store := State.record_store _ _ _ _

theorem State.refire_moves {w : Bool} {a s : State} (h : State.Moves w a s) (n : Nat) (o : OutletId) {v : Version} (old : Instant)
    (hv : v ∈ s.store.versions) : State.Moves w a (s.refire n o v old) := by
  unfold State.refire
  dsimp only
  split
  · refine State.Moves.modLine ?_ _ _ fun _ => rfl
    split
    · exact h.modVoice _ _ fun u => u.rampOut_key _ _
    · exact h
  · have h' := State.recordInstant_moves h o n old .withdrawn .none
    split
    · exact h'.modLine _ _ fun _ => rfl
    · refine State.Moves.modLine ?_ _ _ fun _ => rfl
      split
      · exact State.reprime_moves h' _ _ _ _ (by rw [State.recordInstant_store]; exact hv)
      · exact h'

theorem State.fireVersion_mem {s : State} {o : OutletId} {c : Nat} {v : Version} (h : s.fireVersion o c = some v) :
    v ∈ s.store.versions := by
  unfold State.fireVersion at h
  dsimp only at h
  split at h
  · exact Store.usable_mem h
  · cases h

theorem State.fire_moves {w : Bool} {a s : State} (h : State.Moves w a s) (n : Nat) :
    State.Moves w a (s.fire n) := by
  unfold State.fire
  dsimp only
  split
  · split
    · exact State.refuseFire_moves h _ _
    · rename_i e
      split
      · exact State.refire_moves h _ _ _ (State.fireVersion_mem e)
      · exact State.freshFire_moves h _ _ (State.fireVersion_mem e)
  · exact h

theorem State.withdrawInstant_moves {w : Bool} {a s : State} (h : State.Moves w a s) (n : Nat) (o : OutletId) (i : Instant) :
    State.Moves w a (s.withdrawInstant n o i) := by
  unfold State.withdrawInstant
  try dsimp only
  repeat' first
    | assumption
    | rfl
    | (intro _)
    | with_reducible apply State.recordInstant_moves
    | with_reducible apply State.Moves.modLine
    | with_reducible apply State.giveUp_moves
    | split

theorem State.soundInstant_moves {w : Bool} {a s : State} (h : State.Moves w a s) (n : Nat) (o : OutletId) (i : Nat) (inst : Instant) :
    State.Moves w a (s.soundInstant n o i inst) := by
  unfold State.soundInstant
  try dsimp only
  repeat' first
    | assumption
    | rfl
    | (intro _)
    | with_reducible apply State.startVoice_moves
    | with_reducible apply State.Moves.modLine
    | with_reducible apply State.tallyStart_moves
    | with_reducible apply State.fire_moves
    | split

theorem State.stepLine_moves {w : Bool} {a s t : State} {n : Nat} (h : State.Moves w a s)
    (e : s.stepLine n = some t) : State.Moves w a t := by
  unfold State.stepLine at e
  dsimp only at e
  split at e
  · cases e
  · split at e
    · cases e
    · split at e
      · cases e
        exact State.withdrawInstant_moves h _ _ _
      · split at e
        · cases e
        · obtain ⟨i, -, rfl⟩ := Option.map_eq_some_iff.mp e
          exact State.soundInstant_moves h _ _ _ _

theorem State.endLine_moves {w : Bool} {a s : State} (h : State.Moves w a s) (n i : Nat) (rep : VoiceReport) :
    State.Moves w a (s.endLine n i rep) := by
  unfold State.endLine
  dsimp only
  split
  · rename_i old c _ _
    have h' := (State.recordInstant_moves h (s.lineCfg n).outlet n old rep.instantOutcome rep).modLine n
      (fun l => { l with old := none }) fun _ => rfl
    split
    · rename_i e
      exact (State.reprime_moves h' _ _ _ _ (Store.usable_mem (Option.filter_eq_some_iff.mp e).1)).modLine _ _ fun _ => rfl
    · exact State.freeVoices_moves (State.Moves.modLine (State.recordInstant_moves h' _ _ _ _ _) _ _ (by exact fun _ => rfl)) _
  · exact State.freeVoices_moves (State.Moves.modLine (State.recordInstant_moves h _ _ _ _ _) _ _ (by exact fun _ => rfl)) _
  · exact State.freeVoices_moves (State.Moves.modLine (State.recordInstant_moves h _ _ _ _ _) _ _ (by exact fun _ => rfl)) _
  · exact State.freeVoices_moves h _

theorem State.stopLine_moves {w : Bool} {a s : State} (h : State.Moves w a s) (n : Nat) :
    State.Moves w a (s.stopLine n) := by
  unfold State.stopLine
  try dsimp only
  repeat' first
    | assumption
    | rfl
    | (intro _)
    | with_reducible apply State.recordInstant_moves
    | with_reducible apply State.Moves.modLine
    | with_reducible apply State.stopVoice_moves
    | refine State.stopVoice_moves ?_ (by assumption)
    | split

theorem State.stopInstants_moves {w : Bool} {a s : State} (h : State.Moves w a s) (o : OutletId) :
    State.Moves w a (s.stopInstants o) := by
  unfold State.stopInstants
  try dsimp only
  repeat' first
    | assumption
    | rfl
    | (intro _)
    | with_reducible apply State.stopLine_moves
    | with_reducible apply State.Moves.foldl

theorem State.stepFallback_moves {w : Bool} {a s t : State} {o : OutletId} (h : State.Moves w a s)
    (e : s.stepFallback o = some t) : State.Moves w a t := by
  unfold State.stepFallback at e
  dsimp only at e
  split at e
  · split at e
    · cases e
    · obtain ⟨i, -, e⟩ := Option.bind_eq_some_iff.mp e
      obtain ⟨u, -, rfl⟩ := Option.map_eq_some_iff.mp e
      refine State.tallyStart_moves (State.Moves.modOut (State.startVoice_moves h _ _) _ _ ?_ ?_) _ _
      · exact fun _ => rfl
      · exact fun _ => rfl
  · cases e

theorem State.stepSequence_moves {w : Bool} {a s t : State} {o : OutletId} (h : State.Moves w a s)
    (e : s.stepSequence o = some t) : State.Moves w a t := by
  obtain ⟨i, -, rfl⟩ := Option.map_eq_some_iff.mp e
  exact State.startEntry_moves h _ _

theorem orStep_some {a : Option State} {b : Unit → Option State} {t : State} (e : orStep a b = some t) :
    a = some t ∨ b () = some t := by
  cases a with
  | none => exact .inr e
  | some s => exact .inl e

theorem State.stepLost_moves {w : Bool} {a s t : State} {o : OutletId} (h : State.Moves w a s)
    (e : s.stepLost o = some t) : State.Moves w a t := by
  obtain ⟨i, -, rfl⟩ := Option.map_eq_some_iff.mp e
  exact State.skipEntry_moves h _ _

theorem State.stepOutlet_moves {w : Bool} {a s t : State} {o : OutletId} (h : State.Moves w a s)
    (e : s.stepOutlet o = some t) : State.Moves w a t := by
  unfold State.stepOutlet at e
  rcases orStep_some e with e | e
  · exact State.stepLost_moves h e
  rcases orStep_some e with e | e
  · exact State.stepAnchor_moves h e
  rcases orStep_some e with e | e
  · exact State.stepLateLead_moves h e
  rcases orStep_some e with e | e
  · exact State.stepSequence_moves h e
  rcases orStep_some e with e | e
  · exact State.fillSequence_moves h e
  rcases orStep_some e with e | e
  · exact State.fillAnchor_moves h e
  rcases orStep_some e with e | e
  · exact State.stepFallback_moves h e
  rcases orStep_some e with e | e
  · exact State.stepFit_moves h e
  rcases orStep_some e with e | e
  · exact State.stepFit_moves h e
  rcases orStep_some e with e | e
  · exact State.stepShadow_moves h e
  · exact State.stepShadow_moves h e

theorem firstStep_some {α : Type} {f : α → Option State} {l : List α} {t : State} (e : firstStep f l = some t) :
    ∃ x ∈ l, f x = some t := by
  induction l with
  | nil => cases e
  | cons x l ih =>
    rcases orStep_some e with e | e
    · exact ⟨x, List.mem_cons_self, e⟩
    · obtain ⟨y, hy, e⟩ := ih e
      exact ⟨y, List.mem_cons_of_mem _ hy, e⟩

theorem State.stepUnit_moves {w : Bool} {a s t : State} (h : State.Moves w a s) (e : s.stepUnit = some t) :
    State.Moves w a t := by
  rcases orStep_some e with e | e
  · obtain ⟨o, -, e⟩ := firstStep_some e
    exact State.stepOutlet_moves h e
  · obtain ⟨n, -, e⟩ := firstStep_some e
    exact State.stepLine_moves h e

theorem State.settleLoop_moves {w : Bool} {a s : State} {fuel : Nat} (h : State.Moves w a s) :
    State.Moves w a (State.settleLoop fuel s) := by
  induction fuel generalizing s with
  | zero => exact h
  | succ n ih =>
    unfold State.settleLoop
    split
    · exact h
    · rename_i e
      exact ih (State.stepUnit_moves h e)

theorem State.settle_moves {w : Bool} {a s : State} (h : State.Moves w a s) : State.Moves w a s.settle := by
  unfold State.settle
  exact (State.settleLoop_moves h).mapOutlets _ (fun _ _ => rfl) fun _ _ => rfl

theorem State.numbered_moves {w : Bool} {a s b : State} (h : State.Moves w a s) (hb : a.log.next ≤ b.log.next) :
    State.Moves w a (s.numbered b) := by
  unfold State.numbered
  split
  · exact h
  · exact h.placed _ _ hb

theorem State.finish_moves {w : Bool} {a s b : State} (h : State.Moves w a s) (hb : a.log.next ≤ b.log.next) :
    State.Moves w a (s.finish b) := State.numbered_moves (State.pump_moves (State.settle_moves h)) hb


end Sys2Proof.Machine
end

