-- ==== Sys2Proof/Laws/MovesUnit.lean ====
section
/-! SUPPORT. The operations of RelayOps BreakEnd Confidence Ownership Meters ClockOps as moves. -/

namespace Sys2Proof.Machine

theorem State.relayTo_moves {w : Bool} {a s : State} (h : State.Moves w a s) (o : OutletId) (m1 : Int) :
    State.Moves w a (s.relayTo o m1) := by
  unfold State.relayTo
  try dsimp only
  repeat' first
    | assumption
    | rfl
    | (intro _)
    | with_reducible apply State.rampRelay_moves

theorem State.releaseFollow_moves {w : Bool} {a s : State} (h : State.Moves w a s) (o : OutletId) (p : Place) (pos : Time) :
    State.Moves w a (s.releaseFollow o p pos) := by
  unfold State.releaseFollow
  try dsimp only
  repeat' first
    | assumption
    | rfl
    | (intro _)
    | with_reducible apply State.start_moves
    | with_reducible apply State.releaseFit_moves
    | with_reducible apply State.relayTo_moves
    | split

theorem State.placeFrame_moves {w : Bool} {a s : State} (h : State.Moves w a s) (o : OutletId) (hh : HeldFrame) :
    State.Moves w a (s.placeFrame o hh) := by
  unfold State.placeFrame
  try dsimp only
  repeat' first
    | assumption
    | rfl
    | (intro _)
    | with_reducible apply State.Moves.modOut

theorem State.tryResync_moves {w : Bool} {a s : State} (h : State.Moves w a s) (o : OutletId) :
    State.Moves w a (s.tryResync o) := by
  unfold State.tryResync
  try dsimp only
  repeat' first
    | assumption
    | rfl
    | (intro _)
    | with_reducible apply State.Moves.modOut
    | with_reducible apply State.start_moves
    | with_reducible apply State.releaseFollow_moves
    | with_reducible apply State.Moves.foldl
    | split

theorem State.loseSource_moves {w : Bool} {a s : State} (h : State.Moves w a s) (o : OutletId) :
    State.Moves w a (s.loseSource o) := by
  unfold State.loseSource
  try dsimp only
  repeat' first
    | assumption
    | rfl
    | (intro _)
    | with_reducible apply State.Moves.modOut
    | with_reducible apply State.Moves.latch
    | split

theorem State.judgeSlot_moves {w : Bool} {a s : State} (h : State.Moves w a s) (o : OutletId) :
    State.Moves w a (s.judgeSlot o) := by
  unfold State.judgeSlot
  try dsimp only
  repeat' first
    | assumption
    | rfl
    | (intro _)
    | with_reducible apply State.Moves.modOut
    | with_reducible apply State.loseSource_moves
    | split

theorem State.swapOut_moves {w : Bool} {a s : State} (h : State.Moves w a s) (o : OutletId) (p : Place) :
    State.Moves w a (s.swapOut o p) := by
  unfold State.swapOut
  try dsimp only
  repeat' first
    | assumption
    | rfl
    | (intro _)
    | with_reducible apply State.start_moves
    | with_reducible apply State.relayTo_moves
    | split

theorem State.swapIn_moves {w : Bool} {a s : State} (h : State.Moves w a s) (o : OutletId) (p : Place) :
    State.Moves w a (s.swapIn o p) := by
  unfold State.swapIn
  try dsimp only
  repeat' first
    | assumption
    | rfl
    | (intro _)
    | with_reducible apply State.relayTo_moves
    | split

theorem State.relayAfterBreak_moves {w : Bool} {a s : State} (h : State.Moves w a s) (o : OutletId) :
    State.Moves w a (s.relayAfterBreak o) := by
  unfold State.relayAfterBreak
  try dsimp only
  repeat' first
    | assumption
    | rfl
    | (intro _)
    | with_reducible apply State.Moves.modOut
    | with_reducible apply State.tryResync_moves
    | split

theorem State.declineCue_moves {w : Bool} {a s : State} (h : State.Moves w a s) (o : OutletId) (c : Cue) (reason : DeclineReason) :
    State.Moves w a (s.declineCue o c reason) := by
  unfold State.declineCue
  try dsimp only
  repeat' first
    | assumption
    | rfl
    | (intro _)
    | with_reducible apply State.start_moves
    | with_reducible apply State.Moves.modOut
    | with_reducible apply State.Moves.latch
    | split

theorem State.judgeCue_moves {w : Bool} {a s : State} (h : State.Moves w a s) (o : OutletId) (c : Cue) (pos : Time) :
    State.Moves w a (s.judgeCue o c pos) := by
  unfold State.judgeCue
  try dsimp only
  repeat' first
    | assumption
    | rfl
    | (intro _)
    | exact Outlet.setPlace_fixed _ _ _
    | exact Outlet.setPlace_lists _ _ _
    | with_reducible apply State.start_moves
    | with_reducible apply State.declineCue_moves
    | with_reducible apply State.Moves.modOut
    | with_reducible apply State.requestSlot_moves
    | split

theorem State.takeCue_moves {w : Bool} {a s : State} (h : State.Moves w a s) (o : OutletId) (c : Cue) :
    State.Moves w a (s.takeCue o c) := by
  unfold State.takeCue
  try dsimp only
  repeat' first
    | assumption
    | rfl
    | (intro _)
    | with_reducible apply State.judgeCue_moves
    | with_reducible apply State.releaseFollow_moves
    | with_reducible apply State.start_moves
    | split

theorem State.takeCueFeed_moves {w : Bool} {a s : State} (h : State.Moves w a s) (feed : Nat) (c : Cue) :
    State.Moves w a (s.takeCueFeed feed c) := by
  unfold State.takeCueFeed
  try dsimp only
  repeat' first
    | assumption
    | rfl
    | (intro _)
    | with_reducible apply State.takeCue_moves
    | with_reducible apply State.Moves.foldl
    | split

theorem State.leaveBreakEntry_moves {w : Bool} {a s : State} (h : State.Moves w a s) (o : OutletId) (tag : Option Nat) (out : Entry → Outcome) (under : Option Nat) :
    State.Moves w a (s.leaveBreakEntry o tag out under) := by
  unfold State.leaveBreakEntry
  try dsimp only
  repeat' first
    | assumption
    | rfl
    | (intro _)
    | with_reducible apply State.endBreakEntry_moves
    | split

theorem State.endAtRejoin_moves {w : Bool} {a s : State} (h : State.Moves w a s) (o : OutletId) (p : Place) (b : FittedBreak) (pos : Time) :
    State.Moves w a (s.endAtRejoin o p b pos) := by
  unfold State.endAtRejoin
  try dsimp only
  repeat' first
    | assumption
    | rfl
    | (intro _)
    | with_reducible apply State.stopAtRejoin_moves
    | with_reducible apply State.closeFit_moves
    | with_reducible apply State.handStart_moves
    | with_reducible apply State.leaveBreakEntry_moves
    | with_reducible apply State.relayTo_moves
    | split

theorem State.finishEnding_moves {w : Bool} {a s : State} (h : State.Moves w a s) (o : OutletId) (p : Place) :
    State.Moves w a (s.finishEnding o p) := by
  unfold State.finishEnding
  try dsimp only
  repeat' first
    | assumption
    | rfl
    | (intro _)
    | with_reducible apply State.writeBreak_moves
    | with_reducible apply State.Moves.modFit
    | with_reducible apply State.closeFit_moves
    | with_reducible apply State.leaveBreakEntry_moves
    | split

theorem State.endSpent_moves {w : Bool} {a s : State} (h : State.Moves w a s) (o : OutletId) (p : Place) :
    State.Moves w a (s.endSpent o p) := by
  unfold State.endSpent
  try dsimp only
  repeat' first
    | assumption
    | rfl
    | (intro _)
    | with_reducible apply State.releaseFit_moves
    | with_reducible refine State.leaveFallback_moves ?_ _ _ _ (Outlet.inFallback_sends (by assumption))
    | with_reducible apply State.rampRelay_moves
    | split

theorem State.rejoinFit_moves {w : Bool} {a s : State} (h : State.Moves w a s) (o : OutletId) (p : Place) (b : FittedBreak) (pos : Time) :
    State.Moves w a (s.rejoinFit o p b pos) := by
  unfold State.rejoinFit
  try dsimp only
  repeat' first
    | assumption
    | rfl
    | (intro _)
    | with_reducible apply State.endSpent_moves
    | with_reducible apply State.stopAtRejoin_moves
    | with_reducible apply State.finishEnding_moves
    | with_reducible apply State.endAtRejoin_moves
    | with_reducible apply State.endShadow_moves
    | split

theorem State.rejoinSilent_moves {w : Bool} {a s : State} (h : State.Moves w a s) (o : OutletId) :
    State.Moves w a (s.rejoinSilent o) := by
  unfold State.rejoinSilent
  try dsimp only
  repeat' first
    | assumption
    | rfl
    | (intro _)
    | with_reducible apply State.endBreakEntry_moves
    | split

theorem State.followBoundary_moves {w : Bool} {a s : State} (h : State.Moves w a s) (o : OutletId) :
    State.Moves w a (s.followBoundary o) := by
  unfold State.followBoundary
  try dsimp only
  repeat' first
    | assumption
    | rfl
    | (intro _)
    | with_reducible apply State.handBackBoundary_moves
    | split

theorem State.rejoin_moves {w : Bool} {a s : State} (h : State.Moves w a s) (o : OutletId) (place : Option Place) :
    State.Moves w a (s.rejoin o place) := by
  unfold State.rejoin
  try dsimp only
  repeat' first
    | assumption
    | rfl
    | (intro _)
    | with_reducible apply State.rejoinSilent_moves
    | with_reducible apply State.rejoinFit_moves
    | with_reducible apply State.relayAfterBreak_moves
    | with_reducible apply State.followBoundary_moves
    | split

theorem State.startFollow_moves {w : Bool} {a s : State} (h : State.Moves w a s) (o : OutletId) (p : Place) (b : FittedBreak) (start : Time) :
    State.Moves w a (s.startFollow o p b start) := by
  unfold State.startFollow
  try dsimp only
  repeat' first
    | assumption
    | rfl
    | (intro _)
    | with_reducible apply State.Moves.modFit
    | with_reducible apply State.endEarly_moves
    | with_reducible apply State.finishEnding_moves
    | with_reducible apply State.startFit_moves
    | with_reducible apply State.start_moves
    | with_reducible apply State.relayTo_moves
    | with_reducible apply State.shadowFit_moves
    | split

theorem State.breakStart_moves {w : Bool} {a s : State} (h : State.Moves w a s) (o : OutletId) (p : Place) :
    State.Moves w a (s.breakStart o p) := by
  unfold State.breakStart
  try dsimp only
  repeat' first
    | assumption
    | rfl
    | (intro _)
    | with_reducible apply State.start_moves
    | with_reducible apply State.startFollow_moves
    | split

theorem State.cutAtRejoin_moves {w : Bool} {a s : State} (h : State.Moves w a s) (o : OutletId) (p : Place) :
    State.Moves w a (s.cutAtRejoin o p) := by
  unfold State.cutAtRejoin
  try dsimp only
  repeat' first
    | assumption
    | rfl
    | (intro _)
    | with_reducible apply State.Moves.modVoice
    | exact VoiceUse.rampOutEnding_key _ _ _ _
    | with_reducible apply State.Moves.foldl
    | split

theorem State.bedRampStart_moves {w : Bool} {a s : State} (h : State.Moves w a s) (o : OutletId) (p : Place) :
    State.Moves w a (s.bedRampStart o p) := by
  unfold State.bedRampStart
  try dsimp only
  repeat' first
    | assumption
    | rfl
    | (intro _)
    | with_reducible apply State.Moves.modVoice
    | exact VoiceUse.rampOutEnding_key _ _ _ _
    | with_reducible apply State.Moves.foldl
    | split

theorem State.endVoice_moves {w : Bool} {a s : State} (h : State.Moves w a s) (i : Nat) :
    State.Moves w a (s.endVoice i) := by
  unfold State.endVoice
  try dsimp only
  repeat' first
    | assumption
    | rfl
    | (intro _)
    | with_reducible apply State.settlePass_moves
    | with_reducible apply State.endItemEntry_moves
    | with_reducible apply State.freeVoices_moves
    | with_reducible apply State.endLine_moves
    | with_reducible apply State.recordPeriod_moves
    | with_reducible apply State.endSlot_moves
    | with_reducible apply State.finishEnding_moves
    | split

theorem State.demandRelease_moves {w : Bool} {a s : State} (h : State.Moves w a s) (o : OutletId) :
    State.Moves w a (s.demandRelease o).2 := by
  unfold State.demandRelease
  split
  · rename_i e
    split
    · exact State.enterYielding_moves h _ _ _ (by rw [e]; rfl)
    · exact h
  · exact State.judgeRelease_moves h _
  · exact h

theorem State.runFull_moves {w : Bool} {a s : State} (h : State.Moves w a s) (o : OutletId) (b : Time) :
    State.Moves w a (s.runFull o b) := by
  refine State.demandRelease_moves (State.Moves.latch (State.Moves.modOut h _ _ ?_ ?_) _) _
  · exact fun _ => rfl
  · exact fun _ => rfl

theorem State.feedRun_moves {w : Bool} {a s : State} (h : State.Moves w a s) (o : OutletId) (b : Time) (r : EchoResult) :
    State.Moves w a (s.feedRun o b r) := by
  unfold State.feedRun
  try dsimp only
  repeat' first
    | assumption
    | rfl
    | (intro _)
    | with_reducible apply State.runFull_moves
    | with_reducible apply State.Moves.modOut
    | split

theorem State.leaveHistory_moves {w : Bool} {a s : State} (h : State.Moves w a s) (o : OutletId) (again : Bool) (e : HistEntry) :
    State.Moves w a (s.leaveHistory o again e) := by
  unfold State.leaveHistory
  try dsimp only
  repeat' first
    | assumption
    | rfl
    | (intro _)
    | with_reducible apply State.finalResult_moves
    | with_reducible apply State.Moves.modOut
    | with_reducible apply State.feedRun_moves
    | split

theorem State.leaveHistoryWhere_moves {w : Bool} {a s : State} (h : State.Moves w a s) (o : OutletId) (p : HistEntry → Bool) :
    State.Moves w a (s.leaveHistoryWhere o p) := by
  unfold State.leaveHistoryWhere
  try dsimp only
  repeat' first
    | assumption
    | rfl
    | (intro _)
    | with_reducible apply State.leaveHistory_moves
    | with_reducible apply State.Moves.foldl

theorem State.emptyHistories_moves {w : Bool} {a s : State} (h : State.Moves w a s)  :
    State.Moves w a (s.emptyHistories) := by
  unfold State.emptyHistories
  try dsimp only
  repeat' first
    | assumption
    | rfl
    | (intro _)
    | with_reducible apply State.leaveHistoryWhere_moves
    | with_reducible apply State.Moves.foldl

theorem State.confirm_moves {w : Bool} {a s : State} (h : State.Moves w a s) (o : OutletId) (b : Time) :
    State.Moves w a (s.confirm o b) := by
  unfold State.confirm
  try dsimp only
  repeat' first
    | assumption
    | rfl
    | (intro _)
    | with_reducible apply State.Moves.modOut
    | with_reducible apply State.finalResult_moves

theorem State.addHistory_moves {w : Bool} {a s : State} (h : State.Moves w a s) (o : OutletId) (e : HistEntry) :
    State.Moves w a (s.addHistory o e) := by
  unfold State.addHistory
  try dsimp only
  repeat' first
    | assumption
    | rfl
    | (intro _)
    | with_reducible apply State.leaveHistory_moves
    | with_reducible apply State.Moves.foldl
    | with_reducible apply State.Moves.modOut

theorem State.closeEchoBlock_moves {w : Bool} {a s : State} (h : State.Moves w a s) (o : OutletId) :
    State.Moves w a (s.closeEchoBlock o) := by
  unfold State.closeEchoBlock
  try dsimp only
  repeat' first
    | assumption
    | rfl
    | (intro _)
    | with_reducible apply State.Moves.modOut
    | with_reducible apply State.addHistory_moves
    | split

theorem State.closeEchoBlocks_moves {w : Bool} {a s : State} {fuel : Nat} (h : State.Moves w a s) (o : OutletId) :
    State.Moves w a (State.closeEchoBlocks fuel s o) := by
  induction fuel generalizing s with
  | zero => exact h
  | succ n ih =>
    unfold State.closeEchoBlocks
    split
    · exact h
    · exact ih (State.closeEchoBlock_moves h _)

theorem State.stopEchoBlock_moves {w : Bool} {a s : State} (h : State.Moves w a s) (o : OutletId) :
    State.Moves w a (s.stopEchoBlock o) :=
  (State.closeEchoBlocks_moves h o).modOut _ _ (fun _ => rfl) fun _ => rfl

theorem State.closeOpenBlock_moves {w : Bool} {a s : State} (h : State.Moves w a s) (o : OutletId) :
    State.Moves w a (s.closeOpenBlock o) := by
  unfold State.closeOpenBlock
  try dsimp only
  repeat' first
    | assumption
    | rfl
    | (intro _)
    | with_reducible apply State.Moves.modOut
    | split

theorem State.collectEcho_moves {w : Bool} {a s : State} (h : State.Moves w a s) (o : OutletId) (time : Time) (samples : List SampleFrame) :
    State.Moves w a (s.collectEcho o time samples) := by
  unfold State.collectEcho
  try dsimp only
  repeat' first
    | assumption
    | rfl
    | (intro _)
    | with_reducible apply State.Moves.modOut
    | with_reducible apply State.closeOpenBlock_moves
    | split

theorem State.timeoutOpenBlock_moves {w : Bool} {a s : State} (h : State.Moves w a s) (o : OutletId) :
    State.Moves w a (s.timeoutOpenBlock o) := by
  unfold State.timeoutOpenBlock
  try dsimp only
  repeat' first
    | assumption
    | rfl
    | (intro _)
    | with_reducible apply State.closeOpenBlock_moves
    | split

theorem State.judgeEcho_moves {w : Bool} {a s : State} (h : State.Moves w a s) (o : OutletId) (e : EchoReport) :
    State.Moves w a (s.judgeEcho o e) := by
  unfold State.judgeEcho
  try dsimp only
  repeat' first
    | assumption
    | rfl
    | (intro _)
    | with_reducible apply State.Moves.modOut
    | with_reducible apply State.confirm_moves
    | split

theorem State.completeTap_moves {w : Bool} {a s : State} (h : State.Moves w a s) (o : OutletId) (block : Time) (readback : Crc) :
    State.Moves w a (s.completeTap o block readback) := by
  unfold State.completeTap
  try dsimp only
  repeat' first
    | assumption
    | rfl
    | (intro _)
    | with_reducible apply State.Moves.modOut
    | with_reducible apply State.confirm_moves
    | split

theorem State.cancelCues_moves {w : Bool} {a s : State} (h : State.Moves w a s) (o : OutletId) :
    State.Moves w a (s.cancelCues o) := by
  unfold State.cancelCues
  try dsimp only
  repeat' first
    | assumption
    | rfl
    | (intro _)
    | with_reducible apply State.cancelCue_moves
    | with_reducible apply State.Moves.foldl
    | split

theorem State.landEntry_moves {w : Bool} {a s : State} (h : State.Moves w a s) (o : OutletId) (e : Entry) (out : Outcome) :
    State.Moves w a (s.landEntry o e out) := by
  unfold State.landEntry
  try dsimp only
  repeat' first
    | assumption
    | rfl
    | (intro _)
    | with_reducible apply State.Moves.modEntry
    | with_reducible apply State.tallyStop_moves
    | with_reducible apply State.settleStream_moves
    | with_reducible apply State.leaveEntry_moves
    | with_reducible apply State.leaveSilent_moves
    | with_reducible apply State.unprepare_moves
    | with_reducible apply State.stopVoice_moves
    | refine State.stopVoice_moves ?_ (by assumption)
    | split

theorem State.stopPeriods_moves {w : Bool} {a s : State} (h : State.Moves w a s) (o : OutletId) :
    State.Moves w a (s.stopPeriods o) := by
  unfold State.stopPeriods
  try dsimp only
  repeat' first
    | assumption
    | rfl
    | (intro _)
    | with_reducible apply State.tallyStop_moves
    | with_reducible apply State.recordPeriod_moves
    | with_reducible apply State.giveUp_moves
    | with_reducible apply State.stopVoice_moves
    | with_reducible apply State.Moves.foldl
    | refine State.stopVoice_moves ?_ (by assumption)
    | split

theorem State.landFit_moves {w : Bool} {a s : State} (h : State.Moves w a s) (o : OutletId) (p : Place) :
    State.Moves w a (s.landFit o p) := by
  unfold State.landFit
  try dsimp only
  repeat' first
    | assumption
    | rfl
    | (intro _)
    | with_reducible apply State.stopAtRejoin_moves
    | with_reducible apply State.finishEnding_moves
    | with_reducible apply State.suspendFit_moves
    | split

theorem State.landWithFit_moves {w : Bool} {a s : State} (h : State.Moves w a s) (o : OutletId) (out : Outcome) (e : Entry) :
    State.Moves w a (s.landWithFit o out e) := by
  unfold State.landWithFit
  repeat' first
    | assumption
    | with_reducible apply State.landFit_moves
    | with_reducible apply State.landEntry_moves
    | split

theorem State.landTimeline_moves {w : Bool} {a s : State} (h : State.Moves w a s) (o : OutletId) :
    State.Moves w a (s.landTimeline o) := by
  unfold State.landTimeline
  try dsimp only
  repeat' first
    | assumption
    | rfl
    | (intro _)
    | with_reducible apply State.cancelCues_moves
    | with_reducible apply State.landFit_moves
    | with_reducible apply State.landWithFit_moves
    | with_reducible apply State.stopInstants_moves
    | with_reducible apply State.stopPeriods_moves
    | with_reducible apply State.Moves.foldl
    | split

theorem State.leaveAir_moves {a s : State} (h : State.Moves false a s) (o : OutletId) : State.Moves false a (s.leaveAir o) := by
  unfold State.leaveAir
  refine State.offerAll_moves (State.stopEchoBlock_moves (State.Moves.modOutWeak (State.landTimeline_moves h o) o (fun x => x.offAir s.clock) ?_) o)
  exact fun _ => rfl

theorem State.beginPeriod_moves {w : Bool} {a s : State} (h : State.Moves w a s) (o : OutletId) :
    State.Moves w a (s.beginPeriod o) := by
  unfold State.beginPeriod
  try dsimp only
  repeat' first
    | assumption
    | rfl
    | (intro _)
    | with_reducible apply State.Moves.modOut
    | with_reducible apply State.request_moves

theorem State.fallTimeline_moves {w : Bool} {a s : State} (h : State.Moves w a s) (o : OutletId) :
    State.Moves w a (s.fallTimeline o) := by
  unfold State.fallTimeline
  try dsimp only
  repeat' first
    | assumption
    | rfl
    | (intro _)
    | with_reducible apply State.disarm_moves
    | with_reducible apply State.endEarly_moves
    | with_reducible apply State.rampAll_moves
    | with_reducible apply State.cutOnAir_moves
    | with_reducible apply State.finishEnding_moves
    | with_reducible apply State.relayTo_moves
    | with_reducible apply State.Moves.foldl
    | split

theorem State.enterFallback_moves {w : Bool} {a s : State} (h : State.Moves w a s) (o : OutletId)
    (hs : (s.out o).air.sends = true) : State.Moves w a (s.enterFallback o) := by
  have hs1 := ((State.fallTimeline_moves (w := true) .refl o).sends o).trans hs
  unfold State.enterFallback
  refine State.judgeRelease_moves (State.beginPeriod_moves (State.restartMeter_moves (State.Moves.modOutAt
    (State.fallTimeline_moves h o) _ _ ?_ ?_) _) _) _
  · simp only [Outlet.fixed, Air.off_sends hs1]
    rfl
  · exact fun _ => rfl

theorem State.beginClaim_moves {a s : State} (h : State.Moves false a s) (o : OutletId) : State.Moves false a (s.beginClaim o) := by
  unfold State.beginClaim
  try dsimp only
  refine State.Moves.modOutWeak (State.Moves.send h _) _ _ ?_
  exact fun _ => rfl

theorem State.stopClaim_moves {a s : State} (h : State.Moves false a s) (o : OutletId) : State.Moves false a (s.stopClaim o) := by
  unfold State.stopClaim
  try dsimp only
  refine State.Moves.modOutWeak h _ _ ?_
  exact fun _ => rfl

theorem State.joinBreak_moves {w : Bool} {a s : State} (h : State.Moves w a s) (o : OutletId) (p : Place) (start b0 : Time) :
    State.Moves w a (s.joinBreak o p start b0) := by
  unfold State.joinBreak
  try dsimp only
  repeat' first
    | assumption
    | rfl
    | (intro _)
    | with_reducible apply State.Moves.modFit
    | with_reducible apply State.giveUpWhere_moves
    | with_reducible apply State.endAtRejoin_moves
    | with_reducible apply State.relayAfterBreak_moves
    | with_reducible apply State.Moves.modOut
    | with_reducible apply State.requestSlot_moves
    | with_reducible apply State.handStart_moves
    | split

theorem State.takeUnnamed_moves {w : Bool} {a s : State} (h : State.Moves w a s) (o : OutletId) :
    State.Moves w a (s.takeUnnamed o) := by
  unfold State.takeUnnamed
  try dsimp only
  repeat' first
    | assumption
    | rfl
    | (intro _)
    | with_reducible apply State.passEntry_moves
    | with_reducible apply State.Moves.modEntry
    | with_reducible apply State.Moves.foldl
    | split

theorem State.waitForLead_moves {w : Bool} {a s : State} (h : State.Moves w a s) (o : OutletId) :
    State.Moves w a (s.waitForLead o) := by
  unfold State.waitForLead
  try dsimp only
  repeat' first
    | assumption
    | rfl
    | (intro _)
    | with_reducible apply State.Moves.modEntry
    | split

theorem State.takeItem_moves {w : Bool} {a s : State} (h : State.Moves w a s) (o : OutletId) (tag cart : Nat) (offset : Int) :
    State.Moves w a (s.takeItem o tag cart offset) := by
  unfold State.takeItem
  try dsimp only
  repeat' first
    | assumption
    | rfl
    | (intro _)
    | with_reducible apply State.Moves.modEntry
    | with_reducible apply State.waitForLead_moves
    | with_reducible apply State.skipEntry_moves
    | with_reducible apply State.request_moves
    | split

theorem State.takeBreakEntry_moves {w : Bool} {a s : State} (h : State.Moves w a s) (o : OutletId) (tag : Nat) (start : Time) (silentUntil : Option Time) :
    State.Moves w a (s.takeBreakEntry o tag start silentUntil) := by
  unfold State.takeBreakEntry
  try dsimp only
  repeat' first
    | assumption
    | rfl
    | (intro _)
    | with_reducible apply State.Moves.modEntry
    | with_reducible apply State.Moves.modOut
    | with_reducible apply State.tallyStart_moves
    | with_reducible apply State.waitForLead_moves
    | with_reducible apply State.resolveSuccessor_moves

theorem State.takeSilentBreak_moves {w : Bool} {a s : State} (h : State.Moves w a s) (o : OutletId) (tag len : Nat) (start : Time) :
    State.Moves w a (s.takeSilentBreak o tag len start) := by
  unfold State.takeSilentBreak
  try dsimp only
  repeat' first
    | assumption
    | rfl
    | (intro _)
    | with_reducible apply State.closeShadow_moves
    | with_reducible apply State.takeBreakEntry_moves
    | with_reducible apply State.rejoinSilent_moves
    | with_reducible apply State.handStart_moves
    | split

theorem State.takeSelf_moves {w : Bool} {a s : State} (h : State.Moves w a s) (o : OutletId) (v : OwnerView) :
    State.Moves w a (s.takeSelf o v) := by
  unfold State.takeSelf
  try dsimp only
  repeat' first
    | assumption
    | rfl
    | (intro _)
    | with_reducible apply State.takeUnnamed_moves
    | with_reducible apply State.shadowAdvance_moves
    | with_reducible apply State.takeItem_moves
    | with_reducible apply State.takeSilentBreak_moves
    | with_reducible apply State.Moves.modFit
    | with_reducible apply State.takeBreakEntry_moves
    | with_reducible apply State.joinBreak_moves
    | split

theorem State.takeFollow_moves {w : Bool} {a s : State} (h : State.Moves w a s) (o : OutletId) (brk : Nat) :
    State.Moves w a (s.takeFollow o brk) := by
  unfold State.takeFollow
  try dsimp only
  repeat' first
    | assumption
    | rfl
    | (intro _)
    | with_reducible apply State.closeShadow_moves
    | with_reducible apply State.relayAfterBreak_moves
    | with_reducible apply State.start_moves
    | with_reducible apply State.joinBreak_moves
    | with_reducible apply State.Moves.foldl
    | split

theorem State.relayAtTakeover_moves {w : Bool} {a s : State} (h : State.Moves w a s) (o : OutletId) :
    State.Moves w a (s.relayAtTakeover o) := by
  unfold State.relayAtTakeover
  try dsimp only
  repeat' first
    | assumption
    | rfl
    | (intro _)
    | with_reducible apply State.Moves.modOut
    | with_reducible apply State.rampRelay_moves
    | split

theorem State.goOnAir_moves {a s : State} (h : State.Moves false a s) (o : OutletId) : State.Moves false a (s.goOnAir o) := by
  refine State.clearEcho_moves (State.restartMeter_moves (State.Moves.modOutWeak h _ _ ?_) _) _
  exact fun _ => rfl

theorem State.takeTimeline_moves {w : Bool} {a s : State} (h : State.Moves w a s) (o : OutletId) :
    State.Moves w a (s.takeTimeline o) := by
  unfold State.takeTimeline
  try dsimp only
  repeat' first
    | assumption
    | rfl
    | (intro _)
    | with_reducible apply State.takeFollow_moves
    | with_reducible apply State.takeSelf_moves
    | with_reducible apply State.takeUnnamed_moves
    | with_reducible apply State.announceArmed_moves
    | with_reducible apply State.relayAtTakeover_moves
    | with_reducible apply State.Moves.foldl
    | split

theorem State.takeover_moves {a s : State} (h : State.Moves false a s) (o : OutletId) : State.Moves false a (s.takeover o) :=
  State.takeTimeline_moves (State.goOnAir_moves h o) o

theorem State.goOnAir_air (s : State) (o : OutletId) : ((s.goOnAir o).out o).air = .onAir := by cases o <;> rfl

theorem State.takeover_sends (s : State) (o : OutletId) : ((s.takeover o).out o).air.sends = true := by
  rw [State.takeover, (State.takeTimeline_moves (w := true) .refl o).sends o, State.goOnAir_air]
  rfl

theorem State.inFreeOrder_moves {w : Bool} {a s : State} (h : State.Moves w a s) (f : State → OutletId → State)
    (hf : ∀ t o, State.Moves w a t → State.Moves w a (f t o)) : State.Moves w a (s.inFreeOrder f) := by
  unfold State.inFreeOrder
  dsimp only
  exact ((State.freeOrder_moves h rfl).foldl _ _ hf).foldl _ _ hf

theorem State.isolateFit_moves {w : Bool} {a s : State} (h : State.Moves w a s) (o : OutletId) (p : Place) :
    State.Moves w a (s.isolateFit o p) := by
  unfold State.isolateFit
  try dsimp only
  repeat' first
    | assumption
    | rfl
    | (intro _)
    | with_reducible apply State.stopAtRejoin_moves
    | with_reducible apply State.finishEnding_moves
    | with_reducible apply State.releaseFit_moves
    | with_reducible apply State.stopSlot_moves
    | with_reducible apply State.closeFit_moves
    | with_reducible apply State.giveUpWhere_moves
    | with_reducible apply State.Moves.foldl
    | with_reducible apply State.Moves.modFit
    | split

theorem State.isolateEntry_moves {w : Bool} {a s : State} (h : State.Moves w a s) (o : OutletId) (e : Entry) :
    State.Moves w a (s.isolateEntry o e) := by
  unfold State.isolateEntry
  dsimp only
  repeat' first
    | assumption
    | with_reducible apply State.disarm_moves
    | with_reducible apply State.landEntry_moves
    | with_reducible apply State.isolateFit_moves
    | split

theorem State.isolateOutlet_moves {w : Bool} {a s : State} (h : State.Moves w a s) (o : OutletId) :
    State.Moves w a (s.isolateOutlet o) := by
  unfold State.isolateOutlet
  try dsimp only
  repeat' first
    | assumption
    | rfl
    | (intro _)
    | with_reducible apply State.isolateFit_moves
    | with_reducible apply State.isolateEntry_moves
    | with_reducible apply State.stopInstants_moves
    | with_reducible apply State.stopPeriods_moves
    | with_reducible apply State.giveUpWhere_moves
    | with_reducible apply State.Moves.foldl

theorem State.isolate_moves {a s : State} (h : State.Moves false a s) : State.Moves false a s.isolate := by
  unfold State.isolate
  split
  · exact h
  · dsimp only
    have h1 := State.inFreeOrder_moves (h.isolate rfl) State.isolateOutlet fun t o ht => State.isolateOutlet_moves ht o
    have h2 := h1.mapOutletsWeak (fun _ x => x.isolated) fun _ _ => rfl
    have h3 := h2.foldl State.stopEchoBlock OutletId.all fun t o ht => State.stopEchoBlock_moves ht o
    exact State.emptyHistories_moves h3

theorem State.deadAir_moves {w : Bool} {a s : State} (h : State.Moves w a s) (o : OutletId) :
    State.Moves w a (s.deadAir o) := by
  unfold State.deadAir
  dsimp only
  generalize { FaultInfo.bare .deadAir with outlet := some o } = f
  have hl := h.latch f
  have ho : (s.latch f).out o = s.out o := rfl
  split
  · rename_i ea
    have hs : ((s.latch f).out o).air.sends = true := by rw [ea]; rfl
    split
    · exact State.enterFallback_moves hl _ hs
    · have hd := State.demandRelease_moves hl o
      have hd' := ((State.demandRelease_moves (w := true) .refl o).sends o).trans hs
      split
      · rename_i e
        rw [e] at hd
        exact hd
      · rename_i e
        rw [e] at hd hd'
        exact State.enterFallback_moves hd _ hd'
  · exact State.judgeRelease_moves hl _
  · exact hl

theorem State.sourceLive_moves {w : Bool} {a s : State} (h : State.Moves w a s) (o : OutletId) :
    State.Moves w a (s.sourceLive o) := by
  unfold State.sourceLive
  dsimp only
  split
  · rename_i hc
    simp only [Bool.and_eq_true] at hc
    exact State.rampRelay_moves (State.leaveFallback_moves h _ _ _ (Outlet.inFallback_sends hc.1.2)) _ _ _
  · exact h

theorem State.silenceEvent_moves {w : Bool} {a s : State} (h : State.Moves w a s) (o : OutletId) (wm : MeterId) (e : Silence) :
    State.Moves w a (s.silenceEvent o wm e) := by
  unfold State.silenceEvent
  try dsimp only
  repeat' first
    | assumption
    | rfl
    | (intro _)
    | with_reducible apply State.deadAir_moves
    | with_reducible apply State.sourceLive_moves
    | split

theorem Outlet.setMeter_fixed (x : Outlet) (m : MeterId) (n : Meter) : (x.setMeter m n).fixed = x.fixed := by
  cases m <;> rfl

theorem Outlet.setMeter_lists (x : Outlet) (m : MeterId) (n : Meter) : (x.setMeter m n).lists = x.lists := by
  cases m <;> rfl

theorem State.meterBlock_moves {w : Bool} {a s : State} (h : State.Moves w a s) (o : OutletId) (m : MeterId) :
    State.Moves w a (s.meterBlock o m) := by
  unfold State.meterBlock
  dsimp only
  split
  · refine State.Moves.foldl (State.Moves.modOut h _ _ ?_ ?_) _ _ fun t x ht => State.silenceEvent_moves ht _ _ _
    · exact fun _ => Outlet.setMeter_fixed _ _ _
    · exact fun _ => Outlet.setMeter_lists _ _ _
  · exact h

theorem State.rejectWindow_moves {a s : State} (h : State.Moves false a s) (sender : Nat) :
    State.Moves false a (s.rejectWindow sender) := by
  unfold State.rejectWindow
  dsimp only
  split
  · refine State.Moves.latch (State.Moves.clock rfl h _ ?_ ?_) _
    · exact fun l u => ⟨l, u⟩
    · exact fun _ => Nat.min_le_left _ _
  · refine State.Moves.clock rfl h _ ?_ ?_
    · exact fun l u => ⟨l, u⟩
    · exact fun _ => Nat.min_le_left _ _

theorem State.evaluateWindow_moves {a s : State} (h : State.Moves false a s) (win : Window) (count : Nat) :
    State.Moves false a (s.evaluateWindow win count) := by
  unfold State.evaluateWindow
  dsimp only
  split
  · exact State.rejectWindow_moves h _
  · refine h.clock rfl _ (fun _ _ => ⟨le_max_left _ _, max_le (by decide) (min_le_left _ _)⟩) fun _ => Nat.zero_le _

theorem State.openWindow_moves {a s : State} (h : State.Moves false a s) (frame : Time) (count sender : Nat) :
    State.Moves false a (s.openWindow frame count sender) := h.clock rfl _ (fun l u => ⟨l, u⟩) id

theorem State.takeWindow_moves {a s : State} (h : State.Moves false a s) (frame : Time) (count sender : Nat) :
    State.Moves false a (s.takeWindow frame count sender) := by
  unfold State.takeWindow
  split
  · exact State.openWindow_moves h _ _ _
  · split
    · exact State.openWindow_moves h _ _ _
    · split
      · exact h
      · split
        · split
          · exact State.openWindow_moves (State.evaluateWindow_moves h _ _) _ _ _
          · exact h.clock rfl _ (fun l u => ⟨l, u⟩) id
        · exact State.openWindow_moves h _ _ _

theorem State.takeCandidate_moves {a s : State} (h : State.Moves false a s) (feed : Nat) (sentAt : Time) :
    State.Moves false a (s.takeCandidate feed sentAt) := by
  unfold State.takeCandidate
  dsimp only
  split
  · exact h
  · split
    · exact h.clock rfl _ (fun l u => ⟨l, u⟩) id
    · split
      · exact h.clock rfl _ (fun l u => ⟨l, u⟩) id
      · exact h

theorem State.reachSoft_moves {w : Bool} {a s : State} (h : State.Moves w a s) (o : OutletId) (tag : Nat) (t : Time) :
    State.Moves w a (s.reachSoft o tag t) := by
  unfold State.reachSoft
  try dsimp only
  repeat' first
    | assumption
    | rfl
    | (intro _)
    | with_reducible apply State.softTime_moves
    | split

theorem State.handleDue_moves {a s : State} (h : State.Moves false a s) (x : Time × DueEvent) :
    State.Moves false a (s.handleDue x) := by
  unfold State.handleDue
  dsimp only
  have h' := h.horizon rfl (some x.1)
  refine State.settle_moves ?_
  split
  · exact h'
  · exact State.reachSoft_moves (State.settle_moves h') _ _ _
  · exact State.bedRampStart_moves h' _ _
  · exact State.cutAtRejoin_moves h' _ _
  · exact State.rejoin_moves h' _ _

theorem State.handleLoop_moves {a s : State} {fuel : Nat} (h : State.Moves false a s) (g : Time) (done : List (Time × DueEvent)) :
    State.Moves false a (State.handleLoop fuel s g done) := by
  induction fuel generalizing s g done with
  | zero => exact h
  | succ n ih =>
    unfold State.handleLoop
    split
    · exact h
    · exact ih (State.handleDue_moves h _) _ _

theorem State.handlePassed_moves {a s : State} (h : State.Moves false a s) (g : Time) : State.Moves false a (s.handlePassed g) :=
  State.settle_moves ((State.handleLoop_moves h _ _).horizon rfl none)

theorem State.keepDelays_moves {w : Bool} {a s : State} (h : State.Moves w a s) (o : OutletId) :
    State.Moves w a (s.keepDelays o) := by
  unfold State.keepDelays
  repeat' first
    | assumption
    | (intro _)
    | with_reducible apply State.Moves.modFit
    | with_reducible apply State.Moves.foldl
    | split

theorem Outlet.cutTime_fixed (x : Outlet) (g t : Time) :
    ((x.rewindTallies g t).skipCutFrame t).fixed = x.fixed ∧ ((x.rewindTallies g t).skipCutFrame t).lists = x.lists := by
  unfold Outlet.skipCutFrame Outlet.rewindTallies
  repeat' first | exact ⟨rfl, rfl⟩ | split

theorem State.stepTime_moves {a s : State} (h : State.Moves false a s) (t : Time) (sender : Nat) :
    State.Moves false a (s.stepTime t sender) := by
  unfold State.stepTime
  dsimp only
  generalize hu : OutletId.all.foldl State.stopEchoBlock (OutletId.all.foldl State.keepDelays s) = u
  have h0 : State.Moves false a u := hu ▸ (h.foldl State.keepDelays OutletId.all fun t o ht => State.keepDelays_moves ht o).foldl
    State.stopEchoBlock OutletId.all fun t o ht => State.stopEchoBlock_moves ht o
  have h1 := h0.mapOutlets (fun _ x => (x.rewindTallies s.now t).skipCutFrame t)
    (fun _ x => (Outlet.cutTime_fixed x s.now t).1) fun _ x => (Outlet.cutTime_fixed x s.now t).2
  have h2 := (h1.clock rfl { u.disc with groupTime := some t, window := none } (fun l u => ⟨l, u⟩) id).latch
    { FaultInfo.bare .timeStep with node := some sender }
  have h3 := h2.foldl State.timeoutOpenBlock OutletId.all fun t o ht => State.timeoutOpenBlock_moves ht o
  split
  · exact State.handlePassed_moves (h3.foldl _ _ fun t o ht => State.leaveHistoryWhere_moves ht o _) _
  · exact (h3.foldl _ _ fun t o ht => State.leaveHistoryWhere_moves ht o _).mapOutlets (fun _ x => x.forgetTallies)
      (fun _ _ => rfl) fun _ _ => rfl

theorem State.compareTime_moves {a s : State} (h : State.Moves false a s) (sentAt : Time) (sender : Nat) :
    State.Moves false a (s.compareTime sentAt sender) := by
  unfold State.compareTime
  split
  · exact h
  · split
    · exact State.stepTime_moves h _ _
    · exact h

theorem State.takeReference_moves {a s : State} (h : State.Moves false a s) (feed : Nat) (frame sentAt : Time)
    (sender phase : Nat) : State.Moves false a (s.takeReference feed frame sentAt sender phase) := by
  unfold State.takeReference
  split
  · exact State.compareTime_moves (State.takeWindow_moves h _ _ _) _ _
  · exact h


end Sys2Proof.Machine
end

