-- ==== Sys2Proof/Laws/MovesCommand.lean ====
section
/-! SUPPORT. The operations of Operands Link Power Network StoreRequests OutletRequests UnitRequests FireLines Timeline Breaks Voices Monitors as moves. -/

namespace Sys2Proof.Machine

theorem State.answer_moves {w : Bool} {a s : State} (h : State.Moves w a s) (req : RequestHead) (kind : Nat) (o : Option OutletId) (r : ResultCode) (f : AnswerFields) :
    State.Moves w a (s.answer req kind o r f) := by
  unfold State.answer
  try dsimp only
  repeat' first
    | assumption
    | rfl
    | (intro _)
    | with_reducible apply State.Moves.send

theorem State.malformed_moves {w : Bool} {a s : State} (h : State.Moves w a s) (req : RequestHead) (kind : Nat) (o : Option OutletId) :
    State.Moves w a (s.malformed req kind o) := by
  unfold State.malformed
  try dsimp only
  repeat' first
    | assumption
    | rfl
    | (intro _)
    | with_reducible apply State.answer_moves
    | with_reducible apply State.Moves.latch

theorem State.turnAway_moves {w : Bool} {a s : State} (h : State.Moves w a s) (req : RequestHead) (kind : Nat) (g : Gate) :
    State.Moves w a (s.turnAway req kind g) := by
  unfold State.turnAway
  try dsimp only
  repeat' first
    | assumption
    | rfl
    | (intro _)
    | with_reducible apply State.Moves.latch
    | with_reducible apply State.malformed_moves
    | split

theorem State.unitRequest_moves {w : Bool} {a s : State} (h : State.Moves w a s) (req : RequestHead) (kind need : Nat) (bad : Bool)
    (act : State → State) (ha : State.Moves w a (act s)) : State.Moves w a (s.unitRequest req kind need bad act) := by
  unfold State.unitRequest
  split
  · split
    · exact State.malformed_moves h _ _ _
    · exact ha
  · exact State.turnAway_moves h _ _ _

theorem State.feedRequest_moves {w : Bool} {a s : State} (h : State.Moves w a s) (req : RequestHead) (kind need : Nat)
    (bad : OutletId → Bool) (act : OutletId → State → State) (ha : ∀ o, State.Moves w a (act o s)) :
    State.Moves w a (s.feedRequest req kind need bad act) := by
  unfold State.feedRequest
  split
  · split
    · exact State.malformed_moves h _ _ _
    · exact ha _
  · exact State.turnAway_moves h _ _ _

theorem State.sendBeacon_moves {a s : State} (h : State.Moves false a s) : State.Moves false a s.sendBeacon := by
  unfold State.sendBeacon
  dsimp only
  have h1 := (h.send (.beacon s.beacon)).timers rfl (s.send (.beacon s.beacon)).listenSince (s.send (.beacon s.beacon)).clock
  exact h1.mapOutlets (fun _ x => { x with cuePhase := x.cuePhase + 1 }) (fun _ _ => rfl) fun _ _ => rfl

theorem oldestStale_mem {l : List Peer} {q : Peer} (e : oldestStale l = some q) : q ∈ l := by
  induction l generalizing q with
  | nil => cases e
  | cons p t ih =>
    unfold oldestStale at e
    split at e
    · rename_i e'
      split at e
      · cases e
        exact List.mem_cons_self
      · cases e
        exact List.mem_cons_of_mem _ (ih e')
    · split at e
      · cases e
        exact List.mem_cons_self
      · cases e

theorem enterPeer_bounded (l : List Peer) (p : Peer) (h : PeersBounded l) : PeersBounded (enterPeer l p) := by
  obtain ⟨h1, h2⟩ := h
  have happ : ∀ m : List Peer, (m.map Peer.node).Nodup → (m.any fun q => q.node == p.node) = false →
      ((m ++ [p]).map Peer.node).Nodup := by
    intro m hm hn
    rw [List.map_append]
    refine List.nodup_append.2 ⟨hm, by simp, fun a ha b hb e => ?_⟩
    subst e
    simp only [List.map_cons, List.map_nil, List.mem_singleton] at hb
    obtain ⟨q, hq1, hq2⟩ := List.mem_map.1 ha
    have := List.any_eq_false.1 hn q hq1
    exact this (by simp [hq2, hb])
  unfold enterPeer
  split
  · have e : (l.map fun q => if q.node == p.node then p else q).map Peer.node = l.map Peer.node := by
      rw [List.map_map]
      refine List.map_congr_left fun q _ => ?_
      simp only [Function.comp]
      split
      · rename_i e
        exact (beq_iff_eq.1 e).symm
      · rfl
    exact ⟨by simpa using h1, e ▸ h2⟩
  · rename_i hn
    have hn' := Bool.eq_false_iff.2 hn
    split
    · rename_i hl
      refine ⟨?_, happ l h2 hn'⟩
      simp only [List.length_append, List.length_singleton]
      omega
    · split
      · rename_i q e
        have hq := oldestStale_mem e
        have hlt : (l.filter fun r => r.node != q.node).length < l.length := by
          refine List.length_filter_lt_length_iff_exists.mpr ⟨q, hq, ?_⟩
          simp
        refine ⟨?_, happ _ ((List.filter_sublist.map _).nodup h2) ?_⟩
        · simp only [List.length_append, List.length_singleton]
          omega
        · rw [List.any_eq_false] at hn' ⊢
          exact fun r hr => hn' r (List.mem_filter.1 hr).1
      · exact ⟨h1, h2⟩

theorem State.forgetNode_moves {w : Bool} {a s : State} (h : State.Moves w a s) (n : Nat) :
    State.Moves w a (s.forgetNode n) := by
  unfold State.forgetNode
  try dsimp only
  repeat' first
    | assumption
    | rfl
    | (intro _)
    | split
    | with_reducible apply State.Moves.mapOutlets

theorem State.enterBeacon_moves {a s : State} (h : State.Moves false a s) (node : Nat) (b : BeaconBody) :
    State.Moves false a (s.enterBeacon node b) := by
  unfold State.enterBeacon
  exact (h.peers rfl _ (enterPeer_bounded _ _)).foldl _ _ fun t q ht => State.forgetNode_moves ht _

theorem State.sendAudio_moves {w : Bool} {a s : State} (h : State.Moves w a s) (o : OutletId) (ended : Bool) :
    State.Moves w a (s.sendAudio o ended) := by
  unfold State.sendAudio
  split
  · exact h
  · split
    · refine State.Moves.send (State.Moves.modOut h _ _ ?_ ?_) _
      · exact fun _ => rfl
      · exact fun _ => rfl
    · exact h

theorem State.flushAudio_moves {w : Bool} {a s : State} {fuel : Nat} (h : State.Moves w a s) (o : OutletId) :
    State.Moves w a (State.flushAudio fuel s o) := by
  induction fuel generalizing s with
  | zero => exact h
  | succ n ih =>
    unfold State.flushAudio
    split
    · exact h
    · exact ih (State.sendAudio_moves h _ _)

theorem State.releaseAtRestart_moves {w : Bool} {a s : State} (h : State.Moves w a s) (o : OutletId) :
    State.Moves w a (s.releaseAtRestart o) := by
  unfold State.releaseAtRestart
  try dsimp only
  repeat' first
    | assumption
    | rfl
    | (intro _)
    | with_reducible apply State.Moves.send
    | split

theorem State.restartFit_moves {w : Bool} {a s : State} (h : State.Moves w a s) (o : OutletId) (p : Place) :
    State.Moves w a (s.restartFit o p) := by
  unfold State.restartFit
  try dsimp only
  repeat' first
    | assumption
    | rfl
    | (intro _)
    | with_reducible apply State.stopSlot_moves
    | with_reducible apply State.recordAll_moves
    | with_reducible apply State.Moves.foldl
    | split

theorem State.restartEntry_moves {w : Bool} {a s : State} (h : State.Moves w a s) (o : OutletId) (e : Entry) :
    State.Moves w a (s.restartEntry o e) := by
  unfold State.restartEntry
  try dsimp only
  repeat' first
    | assumption
    | rfl
    | (intro _)
    | with_reducible apply State.landEntry_moves
    | split

theorem State.restartOutlet_moves {w : Bool} {a s : State} (h : State.Moves w a s) (o : OutletId) :
    State.Moves w a (s.restartOutlet o) := by
  unfold State.restartOutlet
  try dsimp only
  repeat' first
    | assumption
    | rfl
    | (intro _)
    | with_reducible apply State.restartFit_moves
    | with_reducible apply State.restartEntry_moves
    | with_reducible apply State.stopInstants_moves
    | with_reducible apply State.stopPeriods_moves
    | with_reducible apply State.Moves.foldl
    | split

theorem Entry.expire_place (e : Entry) (t : Time) : (e.expire t).place = e.place := by
  unfold Entry.expire
  split
  · rename_i hq _
    split <;> simp [Entry.place, hq]
  · rename_i hq _
    split <;> simp [Entry.place, hq]
  · rfl

theorem State.setGroupTime_moves {a s : State} (h : State.Moves false a s) : State.Moves false a s.setGroupTime := by
  unfold State.setGroupTime
  split
  · exact h
  · dsimp only
    have h1 := h.clock rfl { s.disc with groupTime := some ((s.disc.candidate.map Prod.fst).getD 0), candidate := none }
      (fun l u => ⟨l, u⟩) id
    refine h1.mapOutlets (fun _ x => { x with entries := x.entries.map fun e => e.expire ((s.disc.candidate.map Prod.fst).getD 0) })
      (fun _ _ => rfl) fun _ x => ?_
    simp [Outlet.lists, List.map_map, Function.comp_def, Entry.expire_place]

theorem State.leaveListening_moves {a s : State} (h : State.Moves false a s) (o : OutletId) : State.Moves false a (s.leaveListening o) := by
  unfold State.leaveListening
  try dsimp only
  split
  · have h1 := h.modOutWeak o (fun x => { x with air := .standby, silenceSince := s.clock }) fun _ => rfl
    split
    · exact h1
    · exact State.beginClaim_moves h1 o
  · exact h

theorem State.endListening_moves {a s : State} (h : State.Moves false a s) : State.Moves false a s.endListening := by
  unfold State.endListening
  split
  · split
    · dsimp only
      exact (State.setGroupTime_moves (h.timers rfl none s.beaconSince)).foldl _ _ fun t o ht => State.leaveListening_moves ht o
    · exact h
  · exact h

theorem State.takeBlockCue_moves {w : Bool} {a s : State} (h : State.Moves w a s) (sender : Nat) (b : OutletBlock) :
    State.Moves w a (s.takeBlockCue sender b) := by
  unfold State.takeBlockCue
  try dsimp only
  repeat' first
    | assumption
    | rfl
    | (intro _)
    | with_reducible apply State.takeCueFeed_moves
    | with_reducible apply State.start_moves
    | split

theorem State.takeBlockEcho_moves {w : Bool} {a s : State} (h : State.Moves w a s) (b : OutletBlock) :
    State.Moves w a (s.takeBlockEcho b) := by
  unfold State.takeBlockEcho
  try dsimp only
  repeat' first
    | assumption
    | rfl
    | (intro _)
    | with_reducible apply State.judgeEcho_moves
    | with_reducible apply State.Moves.foldl
    | split

theorem State.takeBeacon_moves {a s : State} (h : State.Moves false a s) (node : Nat) (b : BeaconBody) :
    State.Moves false a (s.takeBeacon node b) := by
  unfold State.takeBeacon
  dsimp only
  have h1 := State.judgeReleases_moves (State.enterBeacon_moves h node b)
  split
  · exact (h1.foldl _ _ fun t k ht => State.takeBlockCue_moves ht node k).foldl _ _ fun t k ht => State.takeBlockEcho_moves ht k
  · exact h1

theorem State.stepDown_moves {a s : State} (h : State.Moves false a s) (o : OutletId) (node : Nat) : State.Moves false a (s.stepDown o node) := by
  unfold State.stepDown
  try dsimp only
  exact (State.leaveAir_moves h o).latch _

theorem State.judgeDouble_moves {a s : State} (h : State.Moves false a s) (o : OutletId) (head : FrameHead) (b : AudioBody) : State.Moves false a (s.judgeDouble o head b) := by
  unfold State.judgeDouble
  try dsimp only
  repeat' first
    | assumption
    | with_reducible apply State.stepDown_moves
    | with_reducible apply State.leaveAir_moves
    | split

theorem State.takeOwnFeed_moves {a s : State} (h : State.Moves false a s) (o : OutletId) (head : FrameHead) (b : AudioBody) :
    State.Moves false a (s.takeOwnFeed o head b) := by
  unfold State.takeOwnFeed
  dsimp only
  repeat' first
    | assumption
    | rfl
    | (intro _)
    | with_reducible apply State.shadowAdvance_moves
    | with_reducible apply State.stopClaim_moves
    | with_reducible apply State.judgeDouble_moves
    | with_reducible apply State.Moves.modOutWeak
    | split

theorem State.takeAudioOn_moves {a s : State} (h : State.Moves false a s) (o : OutletId) (head : FrameHead) (b : AudioBody) :
    State.Moves false a (s.takeAudioOn o head b) := by
  unfold State.takeAudioOn
  dsimp only
  repeat' first
    | assumption
    | with_reducible apply State.takeOwnFeed_moves
    | with_reducible apply State.placeFrame_moves
    | with_reducible apply State.tryResync_moves
    | with_reducible apply State.collectEcho_moves
    | split

theorem State.takeRelease_moves {a s : State} (h : State.Moves false a s) (o : OutletId) (successor : Nat) : State.Moves false a (s.takeRelease o successor) := by
  unfold State.takeRelease
  try dsimp only
  repeat' first
    | assumption
    | with_reducible apply State.takeover_moves
    | with_reducible apply State.beginClaim_moves
    | split

theorem State.backToFallback_moves {w : Bool} {a s : State} (h : State.Moves w a s) (o : OutletId)
    (hs : (s.out o).air.sends = true) : State.Moves w a (s.backToFallback o) := by
  refine State.judgeRelease_moves (State.restartMeter_moves (State.Moves.modOutAt h _ _ ?_ ?_) _) _
  · simp only [Outlet.fixed, Air.off_sends hs]
    rfl
  · exact fun _ => rfl

theorem State.endYield_moves {w : Bool} {a s : State} (h : State.Moves w a s) (o : OutletId) (y : Yield)
    (hs : (s.out o).air.sends = true) : State.Moves w a (s.endYield o y) := by
  have up : ∀ (w : Bool) (a : State), State.Moves w a s → State.Moves w a (s.modOut o fun x =>
      { x with passed := if x.passed.contains y.successor then x.passed else x.passed ++ [y.successor] }) :=
    fun w a h => h.modOut _ _ (fun _ => rfl) fun _ => rfl
  have hs' := ((up true s .refl).sends o).trans hs
  unfold State.endYield
  split
  · dsimp only
    split
    · exact State.backToFallback_moves (up _ _ h) _ hs'
    · exact State.enterFallback_moves (up _ _ h) _ hs'
  · dsimp only
    split
    · exact State.backToFallback_moves (h.latch _) _ hs
    · refine State.restartMeter_moves (State.Moves.modOutAt (State.Moves.latch h _) _ _ ?_ ?_) _
      · have : ∀ f, ((s.latch f).out o) = s.out o := fun _ => rfl
        rw [this]
        simp only [Outlet.fixed, Air.off_sends hs]
        rfl
      · exact fun _ => rfl

theorem State.closeLoad_moves {w : Bool} {a s : State} (h : State.Moves w a s) (req : RequestHead) (cart : Nat) :
    State.Moves w a (s.closeLoad req cart) := by
  unfold State.closeLoad
  split
  · exact State.answer_moves h _ _ _ _ _
  · split
    · exact State.pump_moves (State.answer_moves (State.failLoad_moves h _ _) _ _ _ _ _)
    · refine State.pump_moves (State.answer_moves (State.Moves.store' h ?_) _ _ _ _ _)
      refine Store.Kept.queues (Store.Kept.modVersion (Store.Kept.refl _) _ _ _ ?_) _ _ _ (List.Sublist.refl _)
      exact fun _ => rfl

theorem State.dropCart_moves {w : Bool} {a s : State} (h : State.Moves w a s) (req : RequestHead) (cart : Nat) :
    State.Moves w a (s.dropCart req cart) := by
  unfold State.dropCart
  try dsimp only
  repeat' first
    | assumption
    | rfl
    | (intro _)
    | with_reducible apply State.answer_moves
    | with_reducible apply State.dropVersion_moves
    | with_reducible apply State.pump_moves
    | with_reducible apply State.Moves.foldl
    | split

theorem State.removeEntry_moves {w : Bool} {a s : State} (h : State.Moves w a s) (req : RequestHead) (tag : Nat) (o : OutletId) :
    State.Moves w a (s.removeEntry req tag o) := by
  unfold State.removeEntry
  try dsimp only
  repeat' first
    | assumption
    | rfl
    | (intro _)
    | with_reducible apply State.answer_moves
    | with_reducible apply State.leaveUnbegun_moves
    | with_reducible apply State.finish_moves
    | exact h.logNext
    | split

theorem State.clearSpots_moves {w : Bool} {a s : State} (h : State.Moves w a s) (req : RequestHead) (tag : Nat) (o : OutletId) :
    State.Moves w a (s.clearSpots req tag o) := by
  unfold State.clearSpots
  split
  · exact State.answer_moves h _ _ _ _ _
  · split
    · exact State.answer_moves h _ _ _ _ _
    · refine State.answer_moves (State.Moves.setOut h _ _ ?_ ?_) _ _ _ _ _
      · rfl
      · exact ⟨rfl, List.filter_sublist, fun _ h => h⟩

theorem State.setFills_moves {a s : State} (h : State.Moves false a s) (req : RequestHead) (bed : Option Nat) (fills : List Nat)
    (o : OutletId) : State.Moves false a (s.setFills req bed fills o) := by
  unfold State.setFills
  split
  · exact State.answer_moves h _ _ _ _ _
  · refine State.answer_moves (State.Moves.modOutWeak h _ _ ?_) _ _ _ _ _
    exact fun _ => rfl

theorem State.pendHandBack_moves {w : Bool} {a s : State} (h : State.Moves w a s) (o : OutletId) :
    State.Moves w a (s.pendHandBack o) := by
  unfold State.pendHandBack
  try dsimp only
  repeat' first
    | assumption
    | rfl
    | (intro _)
    | with_reducible apply State.Moves.modOut
    | with_reducible apply State.handBackBoundary_moves
    | split

theorem State.judgeHandBack_moves {w : Bool} {a s : State} (h : State.Moves w a s) (req : RequestHead) (o : OutletId) :
    State.Moves w a (s.judgeHandBack req o) := by
  unfold State.judgeHandBack
  dsimp only
  have ha := fun r => State.answer_moves h req 10 (some o) r .none
  split
  all_goals first
    | exact ha _
    | skip
  · split
    · exact ha _
    · split
      · exact ha _
      · exact State.pendHandBack_moves (ha _) _
  · rename_i e
    split
    · exact ha _
    · refine State.enterYielding_moves (ha _) _ _ _ ?_
      rw [State.answer, State.send_eq _ _ (fun t => t.out o) fun _ _ => rfl, e]
      rfl

theorem State.resumeAir_moves {w : Bool} {a s : State} (h : State.Moves w a s) (o : OutletId)
    (hs : (s.out o).air.sends = true) : State.Moves w a (s.resumeAir o) := by
  unfold State.resumeAir
  dsimp only
  have h1 := State.leaveFallback_moves h o .natural 480 hs
  split
  · exact State.rampRelay_moves h1 _ _ _
  · exact h1.modOut _ _ (fun _ => rfl) fun _ => rfl

theorem State.judgeResume_moves {w : Bool} {a s : State} (h : State.Moves w a s) (req : RequestHead) (o : OutletId) :
    State.Moves w a (s.judgeResume req o) := by
  unfold State.judgeResume
  split
  · rename_i hc
    refine State.finish_moves (State.resumeAir_moves (State.answer_moves h _ _ _ _ _) _ ?_) h.logNext
    rw [State.answer, State.send_eq _ _ (fun t => t.out o) fun _ _ => rfl]
    simp only [beq_iff_eq] at hc
    rw [hc]
    rfl
  · exact State.answer_moves h _ _ _ _ _

theorem State.readLog_moves {w : Bool} {a s : State} (h : State.Moves w a s) (req : RequestHead) (start count : Nat) :
    State.Moves w a (s.readLog req start count) := by
  unfold State.readLog
  try dsimp only
  repeat' first
    | assumption
    | rfl
    | (intro _)
    | with_reducible apply State.answer_moves

theorem State.readSlot_moves {w : Bool} {a s : State} (h : State.Moves w a s) (req : RequestHead) (cls : Nat) :
    State.Moves w a (s.readSlot req cls) := by
  unfold State.readSlot
  try dsimp only
  repeat' first
    | assumption
    | rfl
    | (intro _)
    | with_reducible apply State.answer_moves
    | split

theorem State.settleLine_moves {a s : State} (h : State.Moves false a s) (n : Nat) : State.Moves false a (s.settleLine n) := by
  unfold State.settleLine
  dsimp only
  split
  · exact h.modLineWeak _ _
  · exact State.finish_moves (State.fire_moves (h.modLineWeak _ _) _) h.logNext
  · exact h

theorem State.loopVoice_moves {w : Bool} {a s : State} (h : State.Moves w a s) (i : Nat) :
    State.Moves w a (s.loopVoice i) := by
  unfold State.loopVoice
  try dsimp only
  repeat' first
    | assumption
    | rfl
    | (intro _)
    | with_reducible apply State.settleStream_moves
    | with_reducible apply State.Moves.modVoice


end Sys2Proof.Machine
end

