-- ==== Sys2Proof/Laws/Facts.lean ====
section
/-! SUPPORT. What moves leave as it is, each fact once, by induction over the moves. -/

namespace Sys2Proof.Machine

variable {k : Bool} {a s : State}

theorem State.send_rest (s : State) (b : FrameBody) :
    ∃ l : List SentFrame, s.send b = { s with sent := s.sent ++ l } ∧ (s.isolated = true → l = []) := by
  unfold State.send
  split
  · exact ⟨[], by simp, fun _ => rfl⟩
  · rename_i e
    exact ⟨_, rfl, fun h => absurd h e⟩

/-- What every move leaves: the queue, power, the configuration, the link address, the boot reason and the sample clock. -/
def State.base (s : State) : List Instr × Bool × List Byte × UnitCfg × Nat × BootReason × Nat :=
  (s.pending, s.powered, s.configMemory, s.cfg, s.linkAddress, s.boot, s.clock)

theorem State.Moves.base (h : State.Moves k a s) : s.base = a.base := by
  induction h with
  | send _ b ih => exact (State.send_eq _ b State.base fun _ _ => rfl).trans ih
  | refl => rfl
  | _ => assumption

theorem State.Moves.reserved (h : State.Moves k a s) : s.voices.map Voice.reserved = a.voices.map Voice.reserved := by
  induction h with
  | send _ b ih => exact (State.send_eq _ b (fun t => t.voices.map Voice.reserved) fun _ _ => rfl).trans ih
  | voices _ l hl ih => exact (reserved_of_shape hl).trans ih
  | hold _ l st hl _ _ ih => exact hl.trans ih
  | refl => rfl
  | _ => assumption

theorem State.Moves.voicesLength (h : State.Moves k a s) : s.voices.length = a.voices.length := by
  simpa using congrArg List.length h.reserved

theorem State.Moves.linesLength (h : State.Moves k a s) : s.lines.length = a.lines.length := by
  induction h with
  | send _ b ih => exact (State.send_eq _ b (fun t => t.lines.length) fun _ _ => rfl).trans ih
  | lines _ l hl ih => exact (by simpa using congrArg List.length hl : l.length = _).trans ih
  | linesWeak _ _ l hl ih => exact hl.trans ih
  | refl => rfl
  | _ => assumption

/-- An isolated unit stays isolated and sends nothing (R145, R195). -/
theorem State.Moves.isolated (h : State.Moves k a s) (i : a.isolated = true) : s.isolated = true ∧ s.sent = a.sent := by
  induction h with
  | send _ b ih =>
    unfold State.send
    rw [if_pos ih.1]
    exact ih
  | isolate _ _ ih => exact ⟨rfl, ih.2⟩
  | refl => exact ⟨i, rfl⟩
  | _ => assumption

theorem State.Moves.sent (h : State.Moves k a s) : a.sent <+: s.sent := by
  induction h with
  | send _ b ih =>
    obtain ⟨l, e, -⟩ := State.send_rest ‹State› b
    rw [e]
    exact ih.trans (List.prefix_append _ _)
  | refl => exact List.prefix_refl _
  | _ => assumption

theorem Log.Wrote.refl (l : Log) : l.Wrote l [] :=
  ⟨rfl, fun k r e => by simp at e, by simp, fun h => by simp [h]⟩

theorem Log.Wrote.trans {a b c : Log} {l m : List Record} (h : a.Wrote b l) (h' : b.Wrote c m) : a.Wrote c (l ++ m) := by
  obtain ⟨n1, q1, r1, c1⟩ := h
  obtain ⟨n2, q2, r2, c2⟩ := h'
  refine ⟨by simp only [List.length_append]; omega, fun k r e => ?_, ?_, fun hl => ?_⟩
  · rw [List.getElem?_append] at e
    split at e
    · exact q1 k r e
    · have := q2 _ r e
      omega
  · refine r2.trans ?_
    rw [List.map_append, ← List.append_assoc, List.map_append]
    obtain ⟨t, ht⟩ := r1
    exact ⟨t, by rw [← List.append_assoc, ht]⟩
  · have e1 := c1 hl
    have hb : b.records.length ≤ logCapacity := by omega
    have e2 := c2 hb
    simp only [List.length_append]
    omega

theorem Log.Wrote.settled {a b : Log} (hn : b.next = a.next) (hr : b.records.map Record.core = a.records.map Record.core) :
    a.Wrote b [] := by
  have hlen : b.records.length = a.records.length := by simpa using congrArg List.length hr
  exact ⟨by simp [hn], fun k r e => by simp at e, by simp [hr], fun h => by simp [hlen, h]⟩

theorem Log.Wrote.take (a : Log) (r : Record) (o : OutletId) (t : Option Tally) :
    a.Wrote (a.take r o t) [{ r with seq := a.next }] := by
  refine ⟨rfl, fun k x e => ?_, ?_, fun h => ?_⟩
  · cases k with
    | zero => simp at e; subst e; rfl
    | succ k => simp at e
  · simp only [Log.take]
    split
    · rw [List.map_append, List.map_append]
      refine ⟨(a.records.take 1).map Record.core, ?_⟩
      rw [← List.append_assoc, ← List.map_append, List.take_append_drop]
    · exact List.suffix_refl _
  · simp only [Log.take]
    split
    · rename_i e
      simp [e, logCapacity]
    · simp only [List.length_append, List.length_singleton]
      omega

theorem insertPlaced_perm (x : (Nat × Nat) × Record) (l : List ((Nat × Nat) × Record)) : (insertPlaced x l).Perm (x :: l) := by
  induction l with
  | nil => exact .refl _
  | cons y t ih =>
    unfold insertPlaced
    split
    · exact (ih.cons y).trans (.swap x y t)
    · exact .refl _

/-- Records take places among themselves. -/
theorem placeRecords_perm (f : OutletId → List Nat) (l : List Record) : (placeRecords f l).Perm l := by
  have h : ∀ m : List ((Nat × Nat) × Record), (m.foldr insertPlaced []).Perm m := fun m => by
    induction m with
    | nil => exact .refl _
    | cons x t ih => exact (insertPlaced_perm x _).trans (ih.cons x)
  refine ((h _).map Prod.snd).trans ?_
  rw [List.map_map]
  simp only [Function.comp_def]
  rw [List.zipIdx_map_fst]

/-- Records with the numbers of others. -/
def renumbered (l m : List Record) : List Record := (l.zip (m.map Record.seq)).map fun x => { x.1 with seq := x.2 }

theorem renumbered_seq {l m : List Record} (h : l.length = m.length) : (renumbered l m).map Record.seq = m.map Record.seq := by
  rw [renumbered, List.map_map]
  exact List.map_snd_zip (by simp [h])

theorem renumbered_unnumbered {l m : List Record} (h : l.length = m.length) :
    (renumbered l m).map Record.unnumbered = l.map Record.unnumbered := by
  have : l.map Record.unnumbered = ((l.zip (m.map Record.seq)).map Prod.fst).map Record.unnumbered := by
    rw [List.map_fst_zip (by simp [h])]
  rw [this, renumbered, List.map_map, List.map_map]
  rfl

theorem map_of_core {α : Type} (g : Record → α) (hg : ∀ r, g r.core = g r) {l m : List Record}
    (h : l.map Record.core = m.map Record.core) : l.map g = m.map g := by
  have e := congrArg (List.map g) h
  simpa only [List.map_map, Function.comp_def, hg] using e

/-- Records that have taken their places are those written, with the same numbers in the same order (R164). -/
theorem Log.Wrote.placed {a b : Log} {l : List Record} (h : a.Wrote b l) {n : Nat} (hn : a.next ≤ n) (f : OutletId → List Nat) :
    ∃ m, a.Wrote (b.placed n f) m ∧ (m.map Record.unnumbered).Perm (l.map Record.unnumbered) := by
  obtain ⟨hx, hq, hs, hc⟩ := h
  have hd : b.placed n f = { b with
      records := b.records.take (b.records.length - (b.next - n)) ++
        renumbered (placeRecords f (b.records.drop (b.records.length - (b.next - n))))
          (b.records.drop (b.records.length - (b.next - n)))
      pending := (b.placed n f).pending } := rfl
  have hk : (b.records.drop (b.records.length - (b.next - n))).length ≤ l.length := by
    rw [List.length_drop]
    omega
  rw [hd]
  generalize b.records.length - (b.next - n) = k at hk ⊢
  have hp := placeRecords_perm f (b.records.drop k)
  have hr := List.take_append_drop k b.records
  generalize b.records.drop k = new at hk hp hr ⊢
  have hlen := hp.length_eq
  have hsplit := List.take_append_drop (l.length - new.length) l
  have htail : new.map Record.core = (l.drop (l.length - new.length)).map Record.core := by
    refine List.IsSuffix.eq_of_length (List.suffix_of_suffix_length_le (l₃ := (a.records ++ l).map Record.core) ?_ ?_ ?_) ?_
    · refine List.IsSuffix.trans ?_ hs
      rw [← hr, List.map_append]
      exact List.suffix_append _ _
    · rw [List.map_append]
      exact ((List.drop_suffix _ _).map _).trans (List.suffix_append _ _)
    · simp only [List.length_map, List.length_drop]
      omega
    · simp only [List.length_map, List.length_drop]
      omega
  have hseq : (l.take (l.length - new.length) ++ renumbered (placeRecords f new) new).map Record.seq = l.map Record.seq := by
    conv_rhs => rw [← hsplit]
    rw [List.map_append, List.map_append, renumbered_seq hlen, map_of_core Record.seq (fun _ => rfl) htail]
  have hnum : (renumbered (placeRecords f new) new).length = new.length := by simp [renumbered, hlen]
  have hm : (l.take (l.length - new.length) ++ renumbered (placeRecords f new) new).length = l.length := by
    simpa using congrArg List.length hseq
  refine ⟨l.take (l.length - new.length) ++ renumbered (placeRecords f new) new, ⟨?_, fun i r e => ?_, ?_, fun h => ?_⟩, ?_⟩
  · rw [hm]
    exact hx
  · have e1 := congrArg (fun m => m[i]?) hseq
    simp only [List.getElem?_map, e, Option.map_some] at e1
    cases e2 : l[i]? with
    | none => rw [e2] at e1; cases e1
    | some q =>
      rw [e2] at e1
      exact (Option.some.inj e1).trans (hq i q e2)
  · obtain ⟨t, ht⟩ := hs
    refine ⟨t, ?_⟩
    rw [← hr] at ht
    conv_rhs at ht => rw [← hsplit]
    simp only [List.map_append, htail] at ht ⊢
    rw [← List.append_assoc, ← List.append_assoc] at ht
    have := List.append_cancel_right ht
    rw [← List.append_assoc, ← List.append_assoc, this]
  · rw [hm, ← hc h]
    conv_rhs => rw [← hr]
    simp only [List.length_append, hnum]
  · rw [List.map_append, renumbered_unnumbered hlen]
    conv_rhs => rw [← hsplit, List.map_append]
    exact (hp.map _).append_left _ |>.trans
      (.of_eq (by rw [map_of_core Record.unnumbered (fun _ => rfl) htail]))

/-- What moves write in the log, in order. -/
theorem State.Moves.log (h : State.Moves k a s) : ∃ l, a.log.Wrote s.log l := by
  induction h with
  | send _ b ih => rw [State.send_eq _ b State.log fun _ _ => rfl]; exact ih
  | logTake _ r o t ih =>
    obtain ⟨l, hl⟩ := ih
    exact ⟨_, hl.trans (.take _ r o t)⟩
  | leave _ o _ r t _ ih =>
    obtain ⟨l, hl⟩ := ih
    exact ⟨_, hl.trans (.take _ r o t)⟩
  | logSettle _ l hn hr ih =>
    obtain ⟨m, hm⟩ := ih
    exact ⟨_, hm.trans (.settled hn hr)⟩
  | placed _ n f hn ih =>
    obtain ⟨m, hm⟩ := ih
    obtain ⟨l, hl, -⟩ := hm.placed hn f
    exact ⟨l, hl⟩
  | refl => exact ⟨[], .refl _⟩
  | _ => assumption

theorem Captures.slot_setSlot (c : Captures) (k j : FaultClass) (x : Slot) :
    (c.setSlot k x).slot j = if j = k then x else c.slot j := by cases k <;> cases j <;> rfl

theorem Captures.corrected_setSlot (c : Captures) (k : FaultClass) (x : Slot) : (c.setSlot k x).corrected = c.corrected := by
  cases k <;> rfl

/-- A latched first fault stays (R171, R172). -/
theorem State.Moves.firsts (h : State.Moves k a s) (c : FaultClass) (f : FaultInfo) (hf : (a.captures.slot c).first = some f) :
    (s.captures.slot c).first = some f := by
  induction h with
  | send _ b ih => rw [State.send_eq _ b State.captures fun _ _ => rfl]; exact ih
  | latch _ g ih =>
    simp only [State.latch, Captures.slot_setSlot]
    split
    · rename_i e'
      rw [← e']
      simp [Slot.latch, ih]
    · exact ih
  | corrected _ n ih => cases c <;> exact ih
  | refl => exact hf
  | _ => assumption

theorem State.Moves.captures (h : State.Moves k a s) (hb : a.captures.Bounded) : s.captures.Bounded := by
  induction h with
  | send _ b ih => rw [State.send_eq _ b State.captures fun _ _ => rfl]; exact ih
  | latch _ g ih =>
    refine ⟨fun c => ?_, ?_⟩
    · simp only [State.latch, Captures.slot_setSlot]
      split
      · simp only [Slot.latch]
        split
        · exact ih.1 _
        · exact Nat.min_le_left _ _
      · exact ih.1 c
    · simp only [State.latch, Captures.corrected_setSlot]
      exact ih.2
  | corrected _ n ih =>
    refine ⟨fun c => ?_, Nat.min_le_left _ _⟩
    have := ih.1 c
    cases c <;> exact this
  | refl => exact hb
  | _ => assumption

/-- What a store holds of versions comes from what it held (R109). -/
theorem State.Moves.versions (h : State.Moves k a s) :
    (s.store.versions.map Version.fixed).Sublist (a.store.versions.map Version.fixed) ∧
      s.store.serialCounter = a.store.serialCounter ∧ s.store.loadQueue.Sublist a.store.loadQueue := by
  induction h with
  | send _ b ih => rw [State.send_eq _ b State.store fun _ _ => rfl]; exact ih
  | store _ st hs ih => exact ⟨hs.versions.trans ih.1, hs.serialCounter.trans ih.2.1, hs.loads.trans ih.2.2⟩
  | hold _ l st _ hs _ ih => exact ⟨hs.versions.trans ih.1, hs.serialCounter.trans ih.2.1, hs.loads.trans ih.2.2⟩
  | refl => exact ⟨List.Sublist.refl _, rfl, List.Sublist.refl _⟩
  | _ => assumption

/-- The memory keeps its canonical form. -/
theorem State.Moves.memWf (h : State.Moves k a s) (hm : Machine.memWf a.store.mem = true) : Machine.memWf s.store.mem = true := by
  induction h with
  | send _ b ih => rw [State.send_eq _ b State.store fun _ _ => rfl]; exact ih
  | store _ st hs ih => rw [show ({ ‹State› with store := st } : State).store.mem = _ from hs.mem]; exact ih
  | hold _ l st _ hs _ ih => rw [show ({ ‹State› with voices := l, store := st } : State).store.mem = _ from hs.mem]; exact ih
  | write _ _ c o b ih => exact writeChain_wf c o b ih
  | refl => exact hm
  | _ => assumption

theorem Store.versionsOf_length (st : Store) (c : Nat) :
    (st.versionsOf c).length = ((st.versions.map Version.fixed).filter fun x => x.1 == c).length := by
  rw [List.filter_map, List.length_map]
  rfl

theorem State.Moves.storeBounded (h : State.Moves k a s) (hb : a.store.Bounded) : s.store.Bounded := by
  obtain ⟨h1, -, h3⟩ := h.versions
  refine ⟨⟨h.memWf hb.1.1, le_trans ?_ hb.1.2.1, le_trans h3.length_le hb.1.2.2⟩, fun c => le_trans ?_ (hb.2 c)⟩
  · simpa using h1.length_le
  · rw [Store.versionsOf_length, Store.versionsOf_length]
    exact (h1.filter _).length_le

/-- The use counts stay the voices' (R111). -/
theorem State.Moves.counted (h : State.Moves k a s) (hb : a.store.CountedBy (holdersOf a.voices)) :
    s.store.CountedBy (holdersOf s.voices) := by
  induction h with
  | send _ b ih => rw [State.send_eq _ b State.store fun _ _ => rfl, State.send_eq _ b State.voices fun _ _ => rfl]; exact ih
  | voices _ l hl ih => exact holdersOf_congr hl ▸ ih
  | hold _ l st _ _ hu ih => exact hu ih
  | store _ st hs ih => exact hs.uses _ ih
  | refl => exact hb
  | _ => assumption

theorem Store.Held.paged {a s : Store} (hs : a.Held s) (hb : a.Paged) : s.Paged := by
  obtain ⟨h1, h2, h3⟩ := hb
  refine ⟨Store.keys_of_sublist hs.versions h1, fun v hv => ?_, fun p => (hs.pages h1 p).trans (h3 p)⟩
  obtain ⟨w, hw, e⟩ := List.mem_map.1 (hs.versions.subset (List.mem_map_of_mem hv))
  simp only [Version.fixed, Prod.mk.injEq] at e
  rw [← e.2.2.2.1, ← e.2.2.2.2.2.2.2.2]
  exact h2 w hw

/-- The pages stay shared out (R106). -/
theorem State.Moves.paged (h : State.Moves k a s) (hb : a.store.Paged) : s.store.Paged := by
  induction h with
  | send _ b ih => rw [State.send_eq _ b State.store fun _ _ => rfl]; exact ih
  | store _ st hs ih => exact hs.toHeld.paged ih
  | hold _ l st _ hs _ ih => exact hs.paged ih
  | refl => exact hb
  | _ => assumption

theorem Outlet.dropEntry_tags (x : Outlet) (tag : Nat) :
    ((x.dropEntry tag).entries.map Entry.tag).Sublist (x.entries.map Entry.tag) :=
  List.filter_sublist.map _

/-- An outlet's entries and spot lists come from those it held. -/
theorem State.Moves.outlets (h : State.Moves k a s) (o : OutletId) :
    ((s.out o).entries.map Entry.tag).Sublist ((a.out o).entries.map Entry.tag) ∧ (s.out o).spots.Sublist (a.out o).spots := by
  induction h with
  | send _ b ih =>
    rw [State.send_eq _ b (fun t => t.out o) fun _ _ => rfl]
    exact ih
  | setOut _ p x _ hx ih =>
    rw [State.out_setOut]
    split
    · rename_i e
      subst e
      exact ⟨hx.tags ▸ ih.1, hx.spots.trans ih.2⟩
    · exact ih
  | setOutWeak _ _ p x hx ih =>
    rw [State.out_setOut]
    split
    · rename_i e
      subst e
      exact ⟨hx.tags ▸ ih.1, hx.spots.trans ih.2⟩
    · exact ih
  | leave _ p tag _ _ _ ih =>
    rw [State.modOut, State.out_setOut]
    split
    · rename_i e
      subst e
      exact ⟨(Outlet.dropEntry_tags _ _).trans ih.1, ih.2⟩
    · exact ih
  | refl => exact ⟨List.Sublist.refl _, List.Sublist.refl _⟩
  | _ => assumption

theorem Outlet.Shrinks.bounded {x y : Outlet} (h : x.Shrinks y) (hb : x.Bounded) : y.Bounded := by
  refine ⟨⟨le_trans (le_of_eq ?_) hb.1.1, h.tags ▸ hb.1.2.1, h.slots hb.1.2.1 hb.1.2.2⟩, le_trans h.spots.length_le hb.2.1,
    (h.spots.map _).nodup hb.2.2⟩
  simpa using congrArg List.length h.tags

theorem Outlet.dropEntry_bounded {x : Outlet} (hb : x.Bounded) (tag : Nat) : (x.dropEntry tag).Bounded := by
  have h1 := Outlet.dropEntry_tags x tag
  refine ⟨⟨le_trans (List.length_filter_le _ _) hb.1.1, h1.nodup hb.1.2.1, fun e he ea => ?_⟩, hb.2⟩
  obtain ⟨he, hn⟩ := List.mem_filter.1 he
  have hf : ∀ {q : Option Nat}, q = some e.tag → (q.filter fun t => t != tag) = some e.tag := by
    rintro q rfl
    simp only [Option.filter_some, hn, if_true]
  exact (hb.1.2.2 e he ea).imp hf fun h => ⟨hf h.1, h.2⟩

theorem State.Moves.outletBounded (h : State.Moves k a s) {o : OutletId} (hb : (a.out o).Bounded) : (s.out o).Bounded := by
  induction h with
  | send _ b ih => rw [State.send_eq _ b (fun t => t.out o) fun _ _ => rfl]; exact ih
  | setOut _ p x _ hx ih | setOutWeak _ _ p x hx ih =>
    rw [State.out_setOut]
    split
    · rename_i e
      subst e
      exact hx.bounded ih
    · exact ih
  | leave _ p tag _ _ _ ih =>
    rw [State.modOut, State.out_setOut]
    split
    · rename_i e
      subst e
      exact Outlet.dropEntry_bounded ih tag
    · exact ih
  | refl => exact hb
  | _ => assumption

/-- An entry leaves only with a record (R16). -/
theorem State.Moves.tagsKept (h : State.Moves k a s) (o : OutletId) :
    (s.out o).entries.map Entry.tag = (a.out o).entries.map Entry.tag ∨ a.log.next < s.log.next := by
  induction h with
  | send _ b ih =>
    rw [State.send_eq _ b (fun t => t.out o) fun _ _ => rfl, State.send_eq _ b State.log fun _ _ => rfl]
    exact ih
  | setOut _ p x _ hx ih =>
    refine ih.imp (fun e => ?_) id
    rw [State.out_setOut]
    split
    · rename_i e'
      subst e'
      exact hx.tags.trans e
    · exact e
  | setOutWeak _ _ p x hx ih =>
    refine ih.imp (fun e => ?_) id
    rw [State.out_setOut]
    split
    · rename_i e'
      subst e'
      exact hx.tags.trans e
    · exact e
  | leave h p tag r t _ ih =>
    obtain ⟨l, hl⟩ := h.log
    exact .inr (Nat.lt_succ_of_le (hl.1 ▸ Nat.le_add_right _ _))
  | logTake _ r p t ih =>
    refine ih.imp id fun e => ?_
    exact Nat.lt_succ_of_lt e
  | logSettle _ l hn hr ih =>
    refine ih.imp id fun e => ?_
    rw [show (({ ‹State› with log := l } : State)).log.next = _ from hn]
    exact e
  | refl => exact .inl rfl
  | _ => assumption

/-- An entry held no more has left its record among those written (R16). -/
theorem State.Moves.left (h : State.Moves k a s) (o : OutletId) :
    ∃ l, a.log.Wrote s.log l ∧ ∀ n ∈ (a.out o).entries.map Entry.tag,
      n ∈ (s.out o).entries.map Entry.tag ∨ ∃ r ∈ l, r.source = .entry ∧ r.entryTag = some n ∧ r.outlet = o := by
  induction h with
  | send _ b ih =>
    rw [State.send_eq _ b (fun t => t.out o) fun _ _ => rfl, State.send_eq _ b State.log fun _ _ => rfl]
    exact ih
  | setOut _ p x _ hx ih =>
    obtain ⟨l, hl, hn⟩ := ih
    refine ⟨l, hl, fun n m => ?_⟩
    rw [State.out_setOut]
    split
    · rename_i e
      subst e
      rw [hx.tags]
      exact hn n m
    · exact hn n m
  | setOutWeak _ _ p x hx ih =>
    obtain ⟨l, hl, hn⟩ := ih
    refine ⟨l, hl, fun n m => ?_⟩
    rw [State.out_setOut]
    split
    · rename_i e
      subst e
      rw [hx.tags]
      exact hn n m
    · exact hn n m
  | leave _ p tag r t hr ih =>
    obtain ⟨l, hl, hn⟩ := ih
    refine ⟨_, hl.trans (.take _ r p t), fun n m => ?_⟩
    rcases hn n m with m | ⟨q, hq, e⟩
    · by_cases e : o = p ∧ n = tag
      · obtain ⟨rfl, rfl⟩ := e
        exact .inr ⟨_, List.mem_append_right _ List.mem_cons_self, hr⟩
      · refine .inl ?_
        rw [State.modOut, State.out_setOut]
        split
        · rename_i e'
          subst e'
          obtain ⟨d, hd, rfl⟩ := List.mem_map.1 m
          refine List.mem_map_of_mem (List.mem_filter.2 ⟨hd, ?_⟩)
          simpa using fun e' => e ⟨rfl, e'⟩
        · exact m
    · exact .inr ⟨q, List.mem_append_left _ hq, e⟩
  | logTake _ r p t ih =>
    obtain ⟨l, hl, hn⟩ := ih
    exact ⟨_, hl.trans (.take _ r p t), fun n m => (hn n m).imp id fun ⟨q, hq, e⟩ => ⟨q, List.mem_append_left _ hq, e⟩⟩
  | logSettle _ l' hn' hr ih =>
    obtain ⟨l, hl, hn⟩ := ih
    exact ⟨_, hl.trans (.settled hn' hr), fun n m => (hn n m).imp id fun ⟨q, hq, e⟩ => ⟨q, List.mem_append_left _ hq, e⟩⟩
  | placed _ n f hn ih =>
    obtain ⟨l, hl, he⟩ := ih
    obtain ⟨m, hm, hp⟩ := hl.placed hn f
    refine ⟨m, hm, fun n x => (he n x).imp id fun ⟨q, hq, e1, e2, e3⟩ => ?_⟩
    obtain ⟨r, hr, e⟩ := List.mem_map.1 (hp.symm.subset (List.mem_map_of_mem hq))
    have e' := congrArg (fun x : Record => (x.source, x.entryTag, x.outlet)) e
    simp only [Record.unnumbered, Prod.mk.injEq] at e'
    exact ⟨r, hr, e'.1.trans e1, e'.2.1.trans e2, e'.2.2.trans e3⟩
  | refl => exact ⟨[], .refl _, fun n m => .inl m⟩
  | _ => assumption

theorem State.Moves.disc (h : State.Moves k a s) (hb : a.disc.Bounded) : s.disc.Bounded := by
  induction h with
  | send _ b ih => rw [State.send_eq _ b State.disc fun _ _ => rfl]; exact ih
  | clock _ _ d ht hr ih => exact ⟨ht ih.1.1 ih.1.2, hr ih.2⟩
  | refl => exact hb
  | _ => assumption

theorem State.Moves.peersBound (h : State.Moves k a s) (hb : PeersBounded a.peers) : PeersBounded s.peers := by
  induction h with
  | send _ b ih => rw [State.send_eq _ b State.peers fun _ _ => rfl]; exact ih
  | peers _ _ l hl ih => exact hl ih
  | refl => exact hb
  | _ => assumption

/-- Moves keep a unit in bounds. -/
theorem State.Moves.bounded (h : State.Moves k a s) (hb : a.Bounded) : s.Bounded := by
  obtain ⟨⟨h1, h2, h3, h4⟩, h5, h6, h7, h8⟩ := hb
  refine ⟨⟨h.voicesLength.trans h1, h.linesLength.trans h2, ?_, h.peersBound h4⟩, ⟨h.storeBounded h5.1, h.counted h5.2⟩,
    fun o => h.outletBounded (h6 o), h.captures h7, h.disc h8⟩
  obtain ⟨l, hl⟩ := h.log
  rw [hl.2.2.2 h3]
  exact Nat.min_le_left _ _

/-! ### The strong moves -/

/-- What the strong moves leave: the clock discipline, the timers, the peer table and isolation. -/
def State.steady (s : State) : ClockDiscipline × Option Time × List Peer × Option Nat × Nat × Bool × List Host.Cell :=
  (s.disc, s.horizon, s.peers, s.listenSince, s.beaconSince, s.isolated, s.store.mem)

theorem State.Moves.steady (h : State.Moves true a s) : s.steady = a.steady := by
  induction h with
  | send _ b ih => exact (State.send_eq _ b State.steady fun _ _ => rfl).trans ih
  | store _ st hs ih =>
    rw [← ih]
    simp only [State.steady]
    rw [hs.mem]
  | hold _ l st _ hs _ ih =>
    rw [← ih]
    simp only [State.steady]
    rw [hs.mem]
  | refl => rfl
  | write hk | clock hk | horizon hk | timers hk | peers hk | isolate hk => cases hk
  | _ => assumption

theorem State.Moves.inputs (h : State.Moves true a s) : s.lines.map FireLine.inputs = a.lines.map FireLine.inputs := by
  induction h with
  | send _ b ih => exact (State.send_eq _ b (fun t => t.lines.map FireLine.inputs) fun _ _ => rfl).trans ih
  | lines _ l hl ih => exact hl.trans ih
  | linesWeak hk => cases hk
  | refl => rfl
  | _ => assumption

end Sys2Proof.Machine
end

