-- ==== Sys2Proof/Laws/Commands.lean ====
section
/-! SUPPORT. The commands as moves: what a powered unit does with each command but seven, after the samples passed before it. -/

namespace Sys2Proof.Machine

theorem execListenTimeEnd_moves {s t : State} {dt : Nat} (hp : s.powered = true)
    (h : execListenTimeEnd dt s = .next t) : State.Moves false (s.elapse dt) t := by
  unfold execListenTimeEnd State.run at h
  rw [if_pos hp] at h
  cases h
  try dsimp only
  have h0 : State.Moves false (s.elapse dt) (s.elapse dt) := .refl
  repeat' first
    | assumption
    | (intro _)
    | with_reducible apply State.endListening_moves
    | with_reducible apply State.finish_moves
    | exact Nat.le_refl _

theorem execBeaconSend_moves {s t : State} {dt : Nat} (hp : s.powered = true)
    (h : execBeaconSend dt s = .next t) : State.Moves false (s.elapse dt) t := by
  unfold execBeaconSend State.run at h
  rw [if_pos hp] at h
  cases h
  try dsimp only
  have h0 : State.Moves false (s.elapse dt) (s.elapse dt) := .refl
  repeat' first
    | assumption
    | (intro _)
    | with_reducible apply State.sendBeacon_moves
    | split

theorem execBeaconReceived_moves {s t : State} {dt : Nat} {head body} (hp : s.powered = true)
    (h : execBeaconReceived dt head body s = .next t) : State.Moves false (s.elapse dt) t := by
  unfold execBeaconReceived State.run at h
  rw [if_pos hp] at h
  cases h
  try dsimp only
  have h0 : State.Moves false (s.elapse dt) (s.elapse dt) := .refl
  repeat' first
    | assumption
    | (intro _)
    | with_reducible apply State.isolate_moves
    | with_reducible apply State.takeBeacon_moves
    | with_reducible apply State.finish_moves
    | exact Nat.le_refl _
    | split

theorem execPeerStale_moves {s t : State} {dt : Nat} {node} (hp : s.powered = true)
    (h : execPeerStale dt node s = .next t) : State.Moves false (s.elapse dt) t := by
  unfold execPeerStale State.run at h
  rw [if_pos hp] at h
  cases h
  try dsimp only
  have h0 : State.Moves false (s.elapse dt) (s.elapse dt) := .refl
  split
  · refine State.finish_moves (State.judgeReleases_moves (State.Moves.peers rfl h0 _ ?_)) (Nat.le_refl _)
    intro hl
    have e : ((s.elapse dt).peers.map fun p => if p.node == node then { p with stale := true } else p).map Peer.node =
        (s.elapse dt).peers.map Peer.node := by
      rw [List.map_map]
      refine List.map_congr_left fun p _ => ?_
      simp only [Function.comp]
      split <;> rfl
    exact ⟨by simpa using hl.1, e ▸ hl.2⟩
  · exact h0

theorem execPeerRemoved_moves {s t : State} {dt : Nat} {node} (hp : s.powered = true)
    (h : execPeerRemoved dt node s = .next t) : State.Moves false (s.elapse dt) t := by
  unfold execPeerRemoved State.run at h
  rw [if_pos hp] at h
  cases h
  try dsimp only
  have h0 : State.Moves false (s.elapse dt) (s.elapse dt) := .refl
  split
  · refine State.finish_moves (State.judgeReleases_moves (State.forgetNode_moves (State.Moves.peers rfl h0 _ ?_) _)) (Nat.le_refl _)
    exact fun hl => ⟨le_trans (List.length_filter_le _ _) hl.1, (List.filter_sublist.map _).nodup hl.2⟩
  · exact h0

theorem execAudioFrame_moves {s t : State} {dt : Nat} {head body phase} (hp : s.powered = true)
    (h : execAudioFrame dt head body phase s = .next t) : State.Moves false (s.elapse dt) t := by
  unfold execAudioFrame State.run at h
  rw [if_pos hp] at h
  cases h
  try dsimp only
  have h0 : State.Moves false (s.elapse dt) (s.elapse dt) := .refl
  repeat' first
    | assumption
    | (intro _)
    | with_reducible apply State.takeCandidate_moves
    | with_reducible apply State.takeAudioOn_moves
    | with_reducible apply State.takeReference_moves
    | with_reducible apply State.finish_moves
    | exact Nat.le_refl _
    | with_reducible apply State.Moves.foldl
    | with_reducible apply State.Moves.foldl
    | split

theorem execAudioFrameSend_moves {s t : State} {dt : Nat} {o} (hp : s.powered = true)
    (h : execAudioFrameSend dt o s = .next t) : State.Moves true (s.elapse dt) t := by
  unfold execAudioFrameSend State.run at h
  rw [if_pos hp] at h
  cases h
  try dsimp only
  have h0 : State.Moves true (s.elapse dt) (s.elapse dt) := .refl
  repeat' first
    | assumption
    | (intro _)
    | with_reducible apply State.sendAudio_moves

theorem execCueFrame_moves {s t : State} {dt : Nat} {head body} (hp : s.powered = true)
    (h : execCueFrame dt head body s = .next t) : State.Moves true (s.elapse dt) t := by
  unfold execCueFrame State.run at h
  rw [if_pos hp] at h
  cases h
  try dsimp only
  have h0 : State.Moves true (s.elapse dt) (s.elapse dt) := .refl
  repeat' first
    | assumption
    | (intro _)
    | with_reducible apply State.takeCueFeed_moves
    | with_reducible apply State.finish_moves
    | exact Nat.le_refl _
    | split

theorem execClaimFrame_moves {s t : State} {dt : Nat} {head body} (hp : s.powered = true)
    (h : execClaimFrame dt head body s = .next t) : State.Moves false (s.elapse dt) t := by
  unfold execClaimFrame State.run at h
  rw [if_pos hp] at h
  cases h
  try dsimp only
  have h0 : State.Moves false (s.elapse dt) (s.elapse dt) := .refl
  repeat' first
    | assumption
    | (intro _)
    | with_reducible apply State.stopClaim_moves
    | split

theorem execReleaseFrame_moves {s t : State} {dt : Nat} {head body} (hp : s.powered = true)
    (h : execReleaseFrame dt head body s = .next t) : State.Moves false (s.elapse dt) t := by
  unfold execReleaseFrame State.run at h
  rw [if_pos hp] at h
  cases h
  try dsimp only
  have h0 : State.Moves false (s.elapse dt) (s.elapse dt) := .refl
  repeat' first
    | assumption
    | (intro _)
    | with_reducible apply State.takeRelease_moves
    | with_reducible apply State.finish_moves
    | exact Nat.le_refl _
    | split

theorem execOwnerSilenceExpiry_moves {s t : State} {dt : Nat} {o} (hp : s.powered = true)
    (h : execOwnerSilenceExpiry dt o s = .next t) : State.Moves false (s.elapse dt) t := by
  unfold execOwnerSilenceExpiry State.run at h
  rw [if_pos hp] at h
  cases h
  try dsimp only
  have h0 : State.Moves false (s.elapse dt) (s.elapse dt) := .refl
  repeat' first
    | assumption
    | (intro _)
    | with_reducible apply State.beginClaim_moves
    | split

theorem execClaimWindowExpiry_moves {s t : State} {dt : Nat} {o} (hp : s.powered = true)
    (h : execClaimWindowExpiry dt o s = .next t) : State.Moves false (s.elapse dt) t := by
  unfold execClaimWindowExpiry State.run at h
  rw [if_pos hp] at h
  cases h
  try dsimp only
  have h0 : State.Moves false (s.elapse dt) (s.elapse dt) := .refl
  repeat' first
    | assumption
    | (intro _)
    | with_reducible apply State.takeover_moves
    | with_reducible apply State.finish_moves
    | exact Nat.le_refl _
    | split

theorem execYieldTimeout_moves {s t : State} {dt : Nat} {o} (hp : s.powered = true)
    (h : execYieldTimeout dt o s = .next t) : State.Moves true (s.elapse dt) t := by
  unfold execYieldTimeout State.run at h
  rw [if_pos hp] at h
  cases h
  try dsimp only
  have h0 : State.Moves true (s.elapse dt) (s.elapse dt) := .refl
  repeat' first
    | assumption
    | (intro _)
    | with_reducible apply State.endYield_moves
    | with_reducible apply State.finish_moves
    | exact Nat.le_refl _
    | split
  case hs =>
    rename_i hg
    simp only [Bool.and_eq_true, beq_iff_eq] at hg
    rw [hg.1]
    rfl

theorem execCartClose_moves {s t : State} {dt : Nat} {req cart} (hp : s.powered = true)
    (h : execCartClose dt req cart s = .next t) : State.Moves true (s.elapse dt) t := by
  unfold execCartClose State.run at h
  rw [if_pos hp] at h
  cases h
  try dsimp only
  have h0 : State.Moves true (s.elapse dt) (s.elapse dt) := .refl
  repeat' first
    | assumption
    | (intro _)
    | with_reducible apply State.unitRequest_moves
    | with_reducible apply State.closeLoad_moves

theorem execCartDrop_moves {s t : State} {dt : Nat} {req cart} (hp : s.powered = true)
    (h : execCartDrop dt req cart s = .next t) : State.Moves true (s.elapse dt) t := by
  unfold execCartDrop State.run at h
  rw [if_pos hp] at h
  cases h
  try dsimp only
  have h0 : State.Moves true (s.elapse dt) (s.elapse dt) := .refl
  repeat' first
    | assumption
    | (intro _)
    | with_reducible apply State.unitRequest_moves
    | with_reducible apply State.dropCart_moves

theorem execEntryRemove_moves {s t : State} {dt : Nat} {req tag} (hp : s.powered = true)
    (h : execEntryRemove dt req tag s = .next t) : State.Moves true (s.elapse dt) t := by
  unfold execEntryRemove State.run at h
  rw [if_pos hp] at h
  cases h
  try dsimp only
  have h0 : State.Moves true (s.elapse dt) (s.elapse dt) := .refl
  repeat' first
    | assumption
    | (intro _)
    | with_reducible apply State.feedRequest_moves
    | with_reducible apply State.removeEntry_moves

theorem execSpotsClear_moves {s t : State} {dt : Nat} {req tag} (hp : s.powered = true)
    (h : execSpotsClear dt req tag s = .next t) : State.Moves true (s.elapse dt) t := by
  unfold execSpotsClear State.run at h
  rw [if_pos hp] at h
  cases h
  try dsimp only
  have h0 : State.Moves true (s.elapse dt) (s.elapse dt) := .refl
  repeat' first
    | assumption
    | (intro _)
    | with_reducible apply State.feedRequest_moves
    | with_reducible apply State.clearSpots_moves

theorem execFillsSet_moves {s t : State} {dt : Nat} {req bed fills} (hp : s.powered = true)
    (h : execFillsSet dt req bed fills s = .next t) : State.Moves false (s.elapse dt) t := by
  unfold execFillsSet State.run at h
  rw [if_pos hp] at h
  cases h
  try dsimp only
  have h0 : State.Moves false (s.elapse dt) (s.elapse dt) := .refl
  repeat' first
    | assumption
    | (intro _)
    | with_reducible apply State.feedRequest_moves
    | with_reducible apply State.setFills_moves

theorem execHandBack_moves {s t : State} {dt : Nat} {req} (hp : s.powered = true)
    (h : execHandBack dt req s = .next t) : State.Moves true (s.elapse dt) t := by
  unfold execHandBack State.run at h
  rw [if_pos hp] at h
  cases h
  try dsimp only
  have h0 : State.Moves true (s.elapse dt) (s.elapse dt) := .refl
  repeat' first
    | assumption
    | (intro _)
    | with_reducible apply State.feedRequest_moves
    | with_reducible apply State.judgeHandBack_moves
    | with_reducible apply State.finish_moves
    | exact Nat.le_refl _

theorem execResume_moves {s t : State} {dt : Nat} {req} (hp : s.powered = true)
    (h : execResume dt req s = .next t) : State.Moves true (s.elapse dt) t := by
  unfold execResume State.run at h
  rw [if_pos hp] at h
  cases h
  try dsimp only
  have h0 : State.Moves true (s.elapse dt) (s.elapse dt) := .refl
  repeat' first
    | assumption
    | (intro _)
    | with_reducible apply State.feedRequest_moves
    | with_reducible apply State.judgeResume_moves

theorem execLogRead_moves {s t : State} {dt : Nat} {req start count} (hp : s.powered = true)
    (h : execLogRead dt req start count s = .next t) : State.Moves true (s.elapse dt) t := by
  unfold execLogRead State.run at h
  rw [if_pos hp] at h
  cases h
  try dsimp only
  have h0 : State.Moves true (s.elapse dt) (s.elapse dt) := .refl
  repeat' first
    | assumption
    | (intro _)
    | with_reducible apply State.unitRequest_moves
    | with_reducible apply State.readLog_moves

theorem execCaptureRead_moves {s t : State} {dt : Nat} {req cls} (hp : s.powered = true)
    (h : execCaptureRead dt req cls s = .next t) : State.Moves true (s.elapse dt) t := by
  unfold execCaptureRead State.run at h
  rw [if_pos hp] at h
  cases h
  try dsimp only
  have h0 : State.Moves true (s.elapse dt) (s.elapse dt) := .refl
  repeat' first
    | assumption
    | (intro _)
    | with_reducible apply State.unitRequest_moves
    | with_reducible apply State.readSlot_moves

theorem execUnknownRequest_moves {s t : State} {dt : Nat} {req kind} (hp : s.powered = true)
    (h : execUnknownRequest dt req kind s = .next t) : State.Moves true (s.elapse dt) t := by
  unfold execUnknownRequest State.run at h
  rw [if_pos hp] at h
  cases h
  try dsimp only
  have h0 : State.Moves true (s.elapse dt) (s.elapse dt) := .refl
  repeat' first
    | assumption
    | (intro _)
    | with_reducible apply State.malformed_moves
    | with_reducible apply State.Moves.latch
    | split

theorem execFireLineInput_moves {s t : State} {dt : Nat} {n active} (hp : s.powered = true)
    (h : execFireLineInput dt n active s = .next t) : State.Moves false (s.elapse dt) t := by
  unfold execFireLineInput State.run at h
  rw [if_pos hp] at h
  cases h
  try dsimp only
  have h0 : State.Moves false (s.elapse dt) (s.elapse dt) := .refl
  repeat' first
    | assumption
    | (intro _)
    | with_reducible apply State.Moves.modLineWeak
    | split

theorem execFireLineStable_moves {s t : State} {dt : Nat} {n} (hp : s.powered = true)
    (h : execFireLineStable dt n s = .next t) : State.Moves false (s.elapse dt) t := by
  unfold execFireLineStable State.run at h
  rw [if_pos hp] at h
  cases h
  try dsimp only
  have h0 : State.Moves false (s.elapse dt) (s.elapse dt) := .refl
  repeat' first
    | assumption
    | (intro _)
    | with_reducible apply State.settleLine_moves
    | split

/-- What an optional step makes of a state moves as the step does. -/
theorem State.Moves.getD {w : Bool} {a s : State} {r : Option State} (h : State.Moves w a s)
    (f : ∀ t, r = some t → State.Moves w a t) : State.Moves w a (r.getD s) := by
  cases r with
  | none => exact h
  | some t => exact f t rfl

theorem State.armAnchor_moves {w : Bool} {a s : State} (h : State.Moves w a s) (o : OutletId) :
    State.Moves w a (s.armAnchor o) := by
  unfold State.armAnchor
  split
  · exact h
  · exact h.getD fun _ e => State.fillAnchor_moves h e

theorem execArmTimeReached_moves {s t : State} {dt : Nat} {o} (hp : s.powered = true)
    (h : execArmTimeReached dt o s = .next t) : State.Moves true (s.elapse dt) t := by
  unfold execArmTimeReached State.run at h
  rw [if_pos hp] at h
  cases h
  try dsimp only
  have h0 : State.Moves true (s.elapse dt) (s.elapse dt) := .refl
  repeat' first
    | assumption
    | (intro _)
    | exact State.armAnchor_moves h0 _
    | with_reducible apply State.finish_moves
    | exact Nat.le_refl _
    | split

theorem execSoftTimeReached_moves {s t : State} {dt : Nat} {o tag} (hp : s.powered = true)
    (h : execSoftTimeReached dt o tag s = .next t) : State.Moves true (s.elapse dt) t := by
  unfold execSoftTimeReached State.run at h
  rw [if_pos hp] at h
  cases h
  try dsimp only
  have h0 : State.Moves true (s.elapse dt) (s.elapse dt) := .refl
  repeat' first
    | assumption
    | (intro _)
    | with_reducible apply State.settle_moves
    | with_reducible apply State.reachSoft_moves
    | with_reducible apply State.finish_moves
    | exact Nat.le_refl _
    | split

theorem execHardTimeReached_moves {s t : State} {dt : Nat} {o tag} (hp : s.powered = true)
    (h : execHardTimeReached dt o tag s = .next t) : State.Moves true (s.elapse dt) t := by
  unfold execHardTimeReached State.run at h
  rw [if_pos hp] at h
  cases h
  try dsimp only
  have h0 : State.Moves true (s.elapse dt) (s.elapse dt) := .refl
  repeat' first
    | assumption
    | (intro _)
    | exact State.Moves.getD h0 fun _ e => State.stepAnchor_moves h0 e
    | with_reducible apply State.finish_moves
    | exact Nat.le_refl _
    | split

theorem execStartTimeReached_moves {s t : State} {dt : Nat} {o} (hp : s.powered = true)
    (h : execStartTimeReached dt o s = .next t) : State.Moves true (s.elapse dt) t := by
  unfold execStartTimeReached State.run at h
  rw [if_pos hp] at h
  cases h
  try dsimp only
  have h0 : State.Moves true (s.elapse dt) (s.elapse dt) := .refl
  repeat' first
    | assumption
    | (intro _)
    | exact State.Moves.getD h0 fun _ e => State.stepSequence_moves h0 e
    | with_reducible apply State.finish_moves
    | exact Nat.le_refl _
    | split

theorem execBreakStart_moves {s t : State} {dt : Nat} {o p} (hp : s.powered = true)
    (h : execBreakStart dt o p s = .next t) : State.Moves true (s.elapse dt) t := by
  unfold execBreakStart State.run at h
  rw [if_pos hp] at h
  cases h
  try dsimp only
  have h0 : State.Moves true (s.elapse dt) (s.elapse dt) := .refl
  repeat' first
    | assumption
    | (intro _)
    | with_reducible apply State.breakStart_moves
    | with_reducible apply State.finish_moves
    | exact Nat.le_refl _

theorem execSwapOutStart_moves {s t : State} {dt : Nat} {o p} (hp : s.powered = true)
    (h : execSwapOutStart dt o p s = .next t) : State.Moves true (s.elapse dt) t := by
  unfold execSwapOutStart State.run at h
  rw [if_pos hp] at h
  cases h
  try dsimp only
  have h0 : State.Moves true (s.elapse dt) (s.elapse dt) := .refl
  repeat' first
    | assumption
    | (intro _)
    | with_reducible apply State.swapOut_moves

theorem execSwapInStart_moves {s t : State} {dt : Nat} {o p} (hp : s.powered = true)
    (h : execSwapInStart dt o p s = .next t) : State.Moves true (s.elapse dt) t := by
  unfold execSwapInStart State.run at h
  rw [if_pos hp] at h
  cases h
  try dsimp only
  have h0 : State.Moves true (s.elapse dt) (s.elapse dt) := .refl
  repeat' first
    | assumption
    | (intro _)
    | with_reducible apply State.swapIn_moves

theorem State.itemStep_moves {w : Bool} {a s : State} (h : State.Moves w a s) (o : OutletId) (p : Place) :
    State.Moves w a ((orStep (s.stepFit o p) fun _ => s.stepShadow o p).getD s) :=
  h.getD fun _ e => (orStep_some e).elim (State.stepFit_moves h) (State.stepShadow_moves h)

theorem execItemDueTime_moves {s t : State} {dt : Nat} {o p} (hp : s.powered = true)
    (h : execItemDueTime dt o p s = .next t) : State.Moves true (s.elapse dt) t := by
  unfold execItemDueTime State.run at h
  rw [if_pos hp] at h
  cases h
  try dsimp only
  have h0 : State.Moves true (s.elapse dt) (s.elapse dt) := .refl
  repeat' first
    | assumption
    | (intro _)
    | exact State.itemStep_moves h0 _ _
    | with_reducible apply State.finish_moves
    | exact Nat.le_refl _
    | split

theorem execRejoin_moves {s t : State} {dt : Nat} {o p} (hp : s.powered = true)
    (h : execRejoin dt o p s = .next t) : State.Moves true (s.elapse dt) t := by
  unfold execRejoin State.run at h
  rw [if_pos hp] at h
  cases h
  try dsimp only
  have h0 : State.Moves true (s.elapse dt) (s.elapse dt) := .refl
  repeat' first
    | assumption
    | (intro _)
    | with_reducible apply State.rejoin_moves
    | with_reducible apply State.finish_moves
    | exact Nat.le_refl _

theorem execCutAtTheRejoin_moves {s t : State} {dt : Nat} {o p} (hp : s.powered = true)
    (h : execCutAtTheRejoin dt o p s = .next t) : State.Moves true (s.elapse dt) t := by
  unfold execCutAtTheRejoin State.run at h
  rw [if_pos hp] at h
  cases h
  try dsimp only
  have h0 : State.Moves true (s.elapse dt) (s.elapse dt) := .refl
  repeat' first
    | assumption
    | (intro _)
    | with_reducible apply State.cutAtRejoin_moves

theorem execBedRampStart_moves {s t : State} {dt : Nat} {o p} (hp : s.powered = true)
    (h : execBedRampStart dt o p s = .next t) : State.Moves true (s.elapse dt) t := by
  unfold execBedRampStart State.run at h
  rw [if_pos hp] at h
  cases h
  try dsimp only
  have h0 : State.Moves true (s.elapse dt) (s.elapse dt) := .refl
  repeat' first
    | assumption
    | (intro _)
    | with_reducible apply State.bedRampStart_moves

theorem execRampEnd_moves {s t : State} {dt : Nat} {i} (hp : s.powered = true)
    (h : execRampEnd dt i s = .next t) : State.Moves true (s.elapse dt) t := by
  unfold execRampEnd State.run at h
  rw [if_pos hp] at h
  cases h
  try dsimp only
  have h0 : State.Moves true (s.elapse dt) (s.elapse dt) := .refl
  repeat' first
    | assumption
    | (intro _)
    | with_reducible apply State.endVoice_moves
    | with_reducible apply State.finish_moves
    | exact Nat.le_refl _
    | split

theorem execCartEnd_moves {s t : State} {dt : Nat} {i} (hp : s.powered = true)
    (h : execCartEnd dt i s = .next t) : State.Moves true (s.elapse dt) t := by
  unfold execCartEnd State.run at h
  rw [if_pos hp] at h
  cases h
  try dsimp only
  have h0 : State.Moves true (s.elapse dt) (s.elapse dt) := .refl
  repeat' first
    | assumption
    | (intro _)
    | with_reducible apply State.endVoice_moves
    | with_reducible apply State.finish_moves
    | exact Nat.le_refl _
    | split

theorem execJudgePoint_moves {s t : State} {dt : Nat} {i} (hp : s.powered = true)
    (h : execJudgePoint dt i s = .next t) : State.Moves true (s.elapse dt) t := by
  unfold execJudgePoint State.run at h
  rw [if_pos hp] at h
  cases h
  try dsimp only
  have h0 : State.Moves true (s.elapse dt) (s.elapse dt) := .refl
  repeat' first
    | assumption
    | (intro _)
    | with_reducible apply State.judge_moves
    | with_reducible apply State.pump_moves
    | split

theorem execBlockLeavesRing_moves {s t : State} {dt : Nat} {i} (hp : s.powered = true)
    (h : execBlockLeavesRing dt i s = .next t) : State.Moves true (s.elapse dt) t := by
  unfold execBlockLeavesRing State.run at h
  rw [if_pos hp] at h
  cases h
  try dsimp only
  have h0 : State.Moves true (s.elapse dt) (s.elapse dt) := .refl
  repeat' first
    | assumption
    | (intro _)
    | with_reducible apply State.pump_moves
    | with_reducible apply State.Moves.modVoice
    | exact VoiceUse.leaveBlock_key _
    | split

theorem execLoopToInCue_moves {s t : State} {dt : Nat} {i} (hp : s.powered = true)
    (h : execLoopToInCue dt i s = .next t) : State.Moves true (s.elapse dt) t := by
  unfold execLoopToInCue State.run at h
  rw [if_pos hp] at h
  cases h
  try dsimp only
  have h0 : State.Moves true (s.elapse dt) (s.elapse dt) := .refl
  repeat' first
    | assumption
    | (intro _)
    | with_reducible apply State.loopVoice_moves
    | with_reducible apply State.pump_moves
    | split

theorem execPrimingTransferComplete_moves {s t : State} {dt : Nat} {ecc} (hp : s.powered = true)
    (h : execPrimingTransferComplete dt ecc s = .next t) : State.Moves true (s.elapse dt) t := by
  unfold execPrimingTransferComplete State.run at h
  rw [if_pos hp] at h
  cases h
  try dsimp only
  have h0 : State.Moves true (s.elapse dt) (s.elapse dt) := .refl
  repeat' first
    | assumption
    | (intro _)
    | with_reducible apply State.completeRead_moves
    | with_reducible apply State.finish_moves
    | exact Nat.le_refl _
    | split

theorem execRefillComplete_moves {s t : State} {dt : Nat} {ecc} (hp : s.powered = true)
    (h : execRefillComplete dt ecc s = .next t) : State.Moves true (s.elapse dt) t := by
  unfold execRefillComplete State.run at h
  rw [if_pos hp] at h
  cases h
  try dsimp only
  have h0 : State.Moves true (s.elapse dt) (s.elapse dt) := .refl
  repeat' first
    | assumption
    | (intro _)
    | with_reducible apply State.completeRead_moves
    | with_reducible apply State.pump_moves
    | split

theorem execLoadWriteComplete_moves {s t : State} {dt : Nat} (hp : s.powered = true)
    (h : execLoadWriteComplete dt s = .next t) : State.Moves false (s.elapse dt) t := by
  unfold execLoadWriteComplete State.run at h
  rw [if_pos hp] at h
  cases h
  try dsimp only
  have h0 : State.Moves false (s.elapse dt) (s.elapse dt) := .refl
  repeat' first
    | assumption
    | (intro _)
    | with_reducible apply State.completeLoad_moves
    | with_reducible apply State.pump_moves
    | split

theorem execVerifyReadComplete_moves {s t : State} {dt : Nat} {ecc} (hp : s.powered = true)
    (h : execVerifyReadComplete dt ecc s = .next t) : State.Moves true (s.elapse dt) t := by
  unfold execVerifyReadComplete State.run at h
  rw [if_pos hp] at h
  cases h
  try dsimp only
  have h0 : State.Moves true (s.elapse dt) (s.elapse dt) := .refl
  repeat' first
    | assumption
    | (intro _)
    | with_reducible apply State.completeVerify_moves
    | with_reducible apply State.pump_moves
    | split

theorem execRelaySlotJudge_moves {s t : State} {dt : Nat} {o} (hp : s.powered = true)
    (h : execRelaySlotJudge dt o s = .next t) : State.Moves true (s.elapse dt) t := by
  unfold execRelaySlotJudge State.run at h
  rw [if_pos hp] at h
  cases h
  try dsimp only
  have h0 : State.Moves true (s.elapse dt) (s.elapse dt) := .refl
  repeat' first
    | assumption
    | (intro _)
    | with_reducible apply State.judgeSlot_moves

theorem execMeterBlockEnd_moves {s t : State} {dt : Nat} {o w} (hp : s.powered = true)
    (h : execMeterBlockEnd dt o w s = .next t) : State.Moves true (s.elapse dt) t := by
  unfold execMeterBlockEnd State.run at h
  rw [if_pos hp] at h
  cases h
  try dsimp only
  have h0 : State.Moves true (s.elapse dt) (s.elapse dt) := .refl
  repeat' first
    | assumption
    | (intro _)
    | with_reducible apply State.meterBlock_moves
    | with_reducible apply State.finish_moves
    | exact Nat.le_refl _

theorem execEchoBlockEnd_moves {s t : State} {dt : Nat} {o} (hp : s.powered = true)
    (h : execEchoBlockEnd dt o s = .next t) : State.Moves true (s.elapse dt) t := by
  unfold execEchoBlockEnd State.run at h
  rw [if_pos hp] at h
  cases h
  try dsimp only
  have h0 : State.Moves true (s.elapse dt) (s.elapse dt) := .refl
  repeat' first
    | assumption
    | (intro _)
    | with_reducible apply State.closeEchoBlock_moves
    | with_reducible apply State.finish_moves
    | exact Nat.le_refl _
    | split

theorem execEchoOpenBlockTimeout_moves {s t : State} {dt : Nat} {o} (hp : s.powered = true)
    (h : execEchoOpenBlockTimeout dt o s = .next t) : State.Moves true (s.elapse dt) t := by
  unfold execEchoOpenBlockTimeout State.run at h
  rw [if_pos hp] at h
  cases h
  try dsimp only
  have h0 : State.Moves true (s.elapse dt) (s.elapse dt) := .refl
  repeat' first
    | assumption
    | (intro _)
    | with_reducible apply State.timeoutOpenBlock_moves

theorem execTapCompletion_moves {s t : State} {dt : Nat} {o block readback} (hp : s.powered = true)
    (h : execTapCompletion dt o block readback s = .next t) : State.Moves true (s.elapse dt) t := by
  unfold execTapCompletion State.run at h
  rw [if_pos hp] at h
  cases h
  try dsimp only
  have h0 : State.Moves true (s.elapse dt) (s.elapse dt) := .refl
  repeat' first
    | assumption
    | (intro _)
    | with_reducible apply State.completeTap_moves

theorem execHistoryEntryLeave_moves {s t : State} {dt : Nat} {o} (hp : s.powered = true)
    (h : execHistoryEntryLeave dt o s = .next t) : State.Moves true (s.elapse dt) t := by
  unfold execHistoryEntryLeave State.run at h
  rw [if_pos hp] at h
  cases h
  try dsimp only
  have h0 : State.Moves true (s.elapse dt) (s.elapse dt) := .refl
  repeat' first
    | assumption
    | (intro _)
    | with_reducible apply State.leaveHistoryWhere_moves
    | with_reducible apply State.finish_moves
    | exact Nat.le_refl _

/-- What a powered unit answers (notes/assumptions/1.md). -/
theorem State.run_powered {s : State} (hp : s.powered = true) (dt : Nat) (act : State → State) :
    s.run dt act = .next (act (s.elapse dt)) := by simp [State.run, hp]

/-- A unit without power does nothing with a command but POWER_ON (notes/assumptions/2.md). -/
theorem exec_unpowered {c : Instr} {s : State} (hp : s.powered = false) (hc : ∀ dt l m, c ≠ .powerOn dt l m) :
    exec c s = .next s := by
  have un : ∀ dt act, s.run dt act = .next s := fun dt act => by simp [State.run, hp]
  cases c
  case powerOn => exact absurd rfl (hc _ _ _)
  case listenTimeEnd => simp only [exec, execListenTimeEnd]; exact un _ _
  case beaconSend => simp only [exec, execBeaconSend]; exact un _ _
  case beaconReceived => simp only [exec, execBeaconReceived]; exact un _ _
  case peerStale => simp only [exec, execPeerStale]; exact un _ _
  case peerRemoved => simp only [exec, execPeerRemoved]; exact un _ _
  case audioFrame => simp only [exec, execAudioFrame]; exact un _ _
  case cueFrame => simp only [exec, execCueFrame]; exact un _ _
  case claimFrame => simp only [exec, execClaimFrame]; exact un _ _
  case releaseFrame => simp only [exec, execReleaseFrame]; exact un _ _
  case ownerSilenceExpiry => simp only [exec, execOwnerSilenceExpiry]; exact un _ _
  case claimWindowExpiry => simp only [exec, execClaimWindowExpiry]; exact un _ _
  case yieldTimeout => simp only [exec, execYieldTimeout]; exact un _ _
  case cartOpen => simp only [exec, execCartOpen]; exact un _ _
  case cartData => simp only [exec, execCartData]; exact un _ _
  case cartClose => simp only [exec, execCartClose]; exact un _ _
  case cartDrop => simp only [exec, execCartDrop]; exact un _ _
  case entryAdd => simp only [exec, execEntryAdd]; exact un _ _
  case entryRemove => simp only [exec, execEntryRemove]; exact un _ _
  case spotsSet => simp only [exec, execSpotsSet]; exact un _ _
  case spotsClear => simp only [exec, execSpotsClear]; exact un _ _
  case fillsSet => simp only [exec, execFillsSet]; exact un _ _
  case handBack => simp only [exec, execHandBack]; exact un _ _
  case resume => simp only [exec, execResume]; exact un _ _
  case logRead => simp only [exec, execLogRead]; exact un _ _
  case captureRead => simp only [exec, execCaptureRead]; exact un _ _
  case captureClear => simp only [exec, execCaptureClear]; exact un _ _
  case restart => simp only [exec, execRestart]; exact un _ _
  case fireLineInput => simp only [exec, execFireLineInput]; exact un _ _
  case fireLineStable => simp only [exec, execFireLineStable]; exact un _ _
  case armTimeReached => simp only [exec, execArmTimeReached]; exact un _ _
  case softTimeReached => simp only [exec, execSoftTimeReached]; exact un _ _
  case hardTimeReached => simp only [exec, execHardTimeReached]; exact un _ _
  case startTimeReached => simp only [exec, execStartTimeReached]; exact un _ _
  case breakStart => simp only [exec, execBreakStart]; exact un _ _
  case swapOutStart => simp only [exec, execSwapOutStart]; exact un _ _
  case swapInStart => simp only [exec, execSwapInStart]; exact un _ _
  case itemDueTime => simp only [exec, execItemDueTime]; exact un _ _
  case rejoin => simp only [exec, execRejoin]; exact un _ _
  case rampEnd => simp only [exec, execRampEnd]; exact un _ _
  case cartEnd => simp only [exec, execCartEnd]; exact un _ _
  case judgePoint => simp only [exec, execJudgePoint]; exact un _ _
  case primingTransferComplete => simp only [exec, execPrimingTransferComplete]; exact un _ _
  case refillComplete => simp only [exec, execRefillComplete]; exact un _ _
  case loadWriteComplete => simp only [exec, execLoadWriteComplete]; exact un _ _
  case verifyReadComplete => simp only [exec, execVerifyReadComplete]; exact un _ _
  case relaySlotJudge => simp only [exec, execRelaySlotJudge]; exact un _ _
  case audioFrameSend => simp only [exec, execAudioFrameSend]; exact un _ _
  case meterBlockEnd => simp only [exec, execMeterBlockEnd]; exact un _ _
  case echoBlockEnd => simp only [exec, execEchoBlockEnd]; exact un _ _
  case echoOpenBlockTimeout => simp only [exec, execEchoOpenBlockTimeout]; exact un _ _
  case tapCompletion => simp only [exec, execTapCompletion]; exact un _ _
  case historyEntryLeave => simp only [exec, execHistoryEntryLeave]; exact un _ _
  case blockLeavesRing => simp only [exec, execBlockLeavesRing]; exact un _ _
  case loopToInCue => simp only [exec, execLoopToInCue]; exact un _ _
  case cutAtTheRejoin => simp only [exec, execCutAtTheRejoin]; exact un _ _
  case bedRampStart => simp only [exec, execBedRampStart]; exact un _ _
  case unknownRequest => simp only [exec, execUnknownRequest]; exact un _ _

/-- Every command but seven leads a powered unit, after its samples have passed, by plain updates. -/
theorem exec_moves {c : Instr} {s t : State} (hp : s.powered = true) (hc : adds c = false) (h : exec c s = .next t) :
    State.Moves false (s.elapse (dtOf c)) t := by
  cases c
  case powerOn => cases hc
  case listenTimeEnd => exact execListenTimeEnd_moves hp h
  case beaconSend => exact execBeaconSend_moves hp h
  case beaconReceived => exact execBeaconReceived_moves hp h
  case peerStale => exact execPeerStale_moves hp h
  case peerRemoved => exact execPeerRemoved_moves hp h
  case audioFrame => exact execAudioFrame_moves hp h
  case cueFrame => exact (execCueFrame_moves hp h).weak
  case claimFrame => exact execClaimFrame_moves hp h
  case releaseFrame => exact execReleaseFrame_moves hp h
  case ownerSilenceExpiry => exact execOwnerSilenceExpiry_moves hp h
  case claimWindowExpiry => exact execClaimWindowExpiry_moves hp h
  case yieldTimeout => exact (execYieldTimeout_moves hp h).weak
  case cartOpen => cases hc
  case cartData => cases hc
  case cartClose => exact (execCartClose_moves hp h).weak
  case cartDrop => exact (execCartDrop_moves hp h).weak
  case entryAdd => cases hc
  case entryRemove => exact (execEntryRemove_moves hp h).weak
  case spotsSet => cases hc
  case spotsClear => exact (execSpotsClear_moves hp h).weak
  case fillsSet => exact execFillsSet_moves hp h
  case handBack => exact (execHandBack_moves hp h).weak
  case resume => exact (execResume_moves hp h).weak
  case logRead => exact (execLogRead_moves hp h).weak
  case captureRead => exact (execCaptureRead_moves hp h).weak
  case captureClear => cases hc
  case restart => cases hc
  case fireLineInput => exact execFireLineInput_moves hp h
  case fireLineStable => exact execFireLineStable_moves hp h
  case armTimeReached => exact (execArmTimeReached_moves hp h).weak
  case softTimeReached => exact (execSoftTimeReached_moves hp h).weak
  case hardTimeReached => exact (execHardTimeReached_moves hp h).weak
  case startTimeReached => exact (execStartTimeReached_moves hp h).weak
  case breakStart => exact (execBreakStart_moves hp h).weak
  case swapOutStart => exact (execSwapOutStart_moves hp h).weak
  case swapInStart => exact (execSwapInStart_moves hp h).weak
  case itemDueTime => exact (execItemDueTime_moves hp h).weak
  case rejoin => exact (execRejoin_moves hp h).weak
  case rampEnd => exact (execRampEnd_moves hp h).weak
  case cartEnd => exact (execCartEnd_moves hp h).weak
  case judgePoint => exact (execJudgePoint_moves hp h).weak
  case primingTransferComplete => exact (execPrimingTransferComplete_moves hp h).weak
  case refillComplete => exact (execRefillComplete_moves hp h).weak
  case loadWriteComplete => exact execLoadWriteComplete_moves hp h
  case verifyReadComplete => exact (execVerifyReadComplete_moves hp h).weak
  case relaySlotJudge => exact (execRelaySlotJudge_moves hp h).weak
  case audioFrameSend => exact (execAudioFrameSend_moves hp h).weak
  case meterBlockEnd => exact (execMeterBlockEnd_moves hp h).weak
  case echoBlockEnd => exact (execEchoBlockEnd_moves hp h).weak
  case echoOpenBlockTimeout => exact (execEchoOpenBlockTimeout_moves hp h).weak
  case tapCompletion => exact (execTapCompletion_moves hp h).weak
  case historyEntryLeave => exact (execHistoryEntryLeave_moves hp h).weak
  case blockLeavesRing => exact (execBlockLeavesRing_moves hp h).weak
  case loopToInCue => exact (execLoopToInCue_moves hp h).weak
  case cutAtTheRejoin => exact (execCutAtTheRejoin_moves hp h).weak
  case bedRampStart => exact (execBedRampStart_moves hp h).weak
  case unknownRequest => exact (execUnknownRequest_moves hp h).weak

/-- The plain commands lead a powered unit by strong moves. -/
theorem exec_strong {c : Instr} {s t : State} (hp : s.powered = true) (hc : plain c = true) (h : exec c s = .next t) :
    State.Moves true (s.elapse (dtOf c)) t := by
  cases c
  case powerOn => cases hc
  case listenTimeEnd => cases hc
  case beaconSend => cases hc
  case beaconReceived => cases hc
  case peerStale => cases hc
  case peerRemoved => cases hc
  case audioFrame => cases hc
  case cueFrame => exact execCueFrame_moves hp h
  case claimFrame => cases hc
  case releaseFrame => cases hc
  case ownerSilenceExpiry => cases hc
  case claimWindowExpiry => cases hc
  case yieldTimeout => exact execYieldTimeout_moves hp h
  case cartOpen => cases hc
  case cartData => cases hc
  case cartClose => exact execCartClose_moves hp h
  case cartDrop => exact execCartDrop_moves hp h
  case entryAdd => cases hc
  case entryRemove => exact execEntryRemove_moves hp h
  case spotsSet => cases hc
  case spotsClear => exact execSpotsClear_moves hp h
  case fillsSet => cases hc
  case handBack => exact execHandBack_moves hp h
  case resume => exact execResume_moves hp h
  case logRead => exact execLogRead_moves hp h
  case captureRead => exact execCaptureRead_moves hp h
  case captureClear => cases hc
  case restart => cases hc
  case fireLineInput => cases hc
  case fireLineStable => cases hc
  case armTimeReached => exact execArmTimeReached_moves hp h
  case softTimeReached => exact execSoftTimeReached_moves hp h
  case hardTimeReached => exact execHardTimeReached_moves hp h
  case startTimeReached => exact execStartTimeReached_moves hp h
  case breakStart => exact execBreakStart_moves hp h
  case swapOutStart => exact execSwapOutStart_moves hp h
  case swapInStart => exact execSwapInStart_moves hp h
  case itemDueTime => exact execItemDueTime_moves hp h
  case rejoin => exact execRejoin_moves hp h
  case rampEnd => exact execRampEnd_moves hp h
  case cartEnd => exact execCartEnd_moves hp h
  case judgePoint => exact execJudgePoint_moves hp h
  case primingTransferComplete => exact execPrimingTransferComplete_moves hp h
  case refillComplete => exact execRefillComplete_moves hp h
  case loadWriteComplete => cases hc
  case verifyReadComplete => exact execVerifyReadComplete_moves hp h
  case relaySlotJudge => exact execRelaySlotJudge_moves hp h
  case audioFrameSend => exact execAudioFrameSend_moves hp h
  case meterBlockEnd => exact execMeterBlockEnd_moves hp h
  case echoBlockEnd => exact execEchoBlockEnd_moves hp h
  case echoOpenBlockTimeout => exact execEchoOpenBlockTimeout_moves hp h
  case tapCompletion => exact execTapCompletion_moves hp h
  case historyEntryLeave => exact execHistoryEntryLeave_moves hp h
  case blockLeavesRing => exact execBlockLeavesRing_moves hp h
  case loopToInCue => exact execLoopToInCue_moves hp h
  case cutAtTheRejoin => exact execCutAtTheRejoin_moves hp h
  case bedRampStart => exact execBedRampStart_moves hp h
  case unknownRequest => exact execUnknownRequest_moves hp h

end Sys2Proof.Machine
end

