-- ==== Sys2Proof/Laws/PerInstr.lean ====
section
/-! SUPPORT. The family EncodedForm: which commands a frame carries, and that the frame of a well-formed one is 12 bytes of header and the
body of its layout (R178 to R182). One lemma for each constructor. -/

namespace Sys2Proof.Laws

set_option Elab.async false

open Sys2Proof Sys2Proof.Machine

/-! ### Lengths of the layouts -/

theorem leBytes_length (n k : Nat) : (leBytes n k).length = k := by
  induction k generalizing n with
  | zero => rfl
  | succ k ih => simp [leBytes, ih]

theorem leIntBytes_length (t : Int) (k : Nat) : (leIntBytes t k).length = k := leBytes_length _ _

theorem timeBytes_length (t : Time) : (timeBytes t).length = 6 := leBytes_length _ _

theorem flatMap_length {α : Type} (w : α → List Byte) (n : Nat) (l : List α) (h : ∀ x, (w x).length = n) :
    (l.flatMap w).length = n * l.length := by
  induction l with
  | nil => rfl
  | cons x t ih => simp only [List.flatMap_cons, List.length_append, h, ih, List.length_cons, Nat.mul_add]; omega

theorem frameBytes_length (x : SampleFrame) : (frameBytes x).length = 6 := by simp [frameBytes, leIntBytes_length]

theorem blockBytes_length (x : OutletBlock) : (blockBytes x).length = 43 := by
  simp [blockBytes, leIntBytes_length, leBytes_length, timeBytes_length, markByte]

theorem addrBytes_length (x : Addressing) : (addrBytes x).length = 9 := by cases x <;> simp [addrBytes, leBytes_length]

theorem withHeader_length (mark kind sender : Nat) (t : Time) (body : List Byte) :
    (withHeader mark kind sender t body).length = 12 + body.length := by
  simp [withHeader, leBytes_length, timeBytes_length]; omega

theorem requestBytes_length (r : RequestHead) (kind : Nat) (fields : List Byte) :
    (requestBytes r kind fields).length = 12 + (12 + fields.length) := by
  simp [requestBytes, withHeader_length, leBytes_length, addrBytes_length]; omega

/-! ### The family -/

/-- The body length of a command's frame by its layout (R179 to R182); none for a command no frame carries. -/
def bodyLength : Instr → Option Nat
  | .audioFrame _ _ _ _ => some 314
  | .beaconReceived _ _ b => some (14 + 43 * b.blocks.length)
  | .cueFrame _ _ _ => some 16
  | .claimFrame _ _ _ => some 2
  | .releaseFrame _ _ _ => some 2
  | c => (requestHead c).map fun _ => 12 + fieldBytes c

/-- A command has bytes just when a frame carries it, and those of a well-formed one are its header's 12 and its body's. -/
def EncodedForm.Statement (i : Instr) : Prop :=
  (bodyLength i = none ↔ commandBytes i = none) ∧
    ∀ n bytes, bodyLength i = some n → commandBytes i = some bytes → i.wf = true → bytes.length = 12 + n

theorem EncodedForm.powerOn (dt : Nat) (link : Nat) (config : List Byte) :
    EncodedForm.Statement (.powerOn dt link config) :=
  ⟨by simp [bodyLength, commandBytes, requestHead], fun n bytes hn _ _ => by cases hn⟩

theorem EncodedForm.listenTimeEnd (dt : Nat) :
    EncodedForm.Statement (.listenTimeEnd dt) :=
  ⟨by simp [bodyLength, commandBytes, requestHead], fun n bytes hn _ _ => by cases hn⟩

theorem EncodedForm.beaconSend (dt : Nat) :
    EncodedForm.Statement (.beaconSend dt) :=
  ⟨by simp [bodyLength, commandBytes, requestHead], fun n bytes hn _ _ => by cases hn⟩

theorem EncodedForm.beaconReceived (dt : Nat) (head : FrameHead) (body : BeaconBody) :
    EncodedForm.Statement (.beaconReceived dt head body) :=
  ⟨by simp [bodyLength, commandBytes], fun n bytes hn hb _ => by
    cases hn; cases hb
    simp only [withHeader_length, beaconBytes, markByte, List.length_append, leBytes_length, timeBytes_length, leIntBytes_length,
      flatMap_length _ 43 _ blockBytes_length]⟩

theorem EncodedForm.peerStale (dt : Nat) (node : Nat) :
    EncodedForm.Statement (.peerStale dt node) :=
  ⟨by simp [bodyLength, commandBytes, requestHead], fun n bytes hn _ _ => by cases hn⟩

theorem EncodedForm.peerRemoved (dt : Nat) (node : Nat) :
    EncodedForm.Statement (.peerRemoved dt node) :=
  ⟨by simp [bodyLength, commandBytes, requestHead], fun n bytes hn _ _ => by cases hn⟩

theorem EncodedForm.audioFrame (dt : Nat) (head : FrameHead) (body : AudioBody) (phase : Nat) :
    EncodedForm.Statement (.audioFrame dt head body phase) :=
  ⟨by simp [bodyLength, commandBytes], fun n bytes hn hb hw => by
    have hs : body.samples.length = 48 := by
      simp only [Instr.wf, audioWf, Bool.and_eq_true, beq_iff_eq] at hw
      exact hw.1.2.1.2
    cases hn; cases hb
    simp [withHeader_length, audioBytes, leBytes_length, leIntBytes_length, timeBytes_length, samplesBytes,
      flatMap_length _ 6 _ frameBytes_length, hs]⟩

theorem EncodedForm.cueFrame (dt : Nat) (head : FrameHead) (body : CueBody) :
    EncodedForm.Statement (.cueFrame dt head body) :=
  ⟨by simp [bodyLength, commandBytes], fun n bytes hn hb _ => by
    cases hn; cases hb
    simp [withHeader_length, cueBytes, timeBytes_length, leBytes_length]⟩

theorem EncodedForm.claimFrame (dt : Nat) (head : FrameHead) (body : ClaimBody) :
    EncodedForm.Statement (.claimFrame dt head body) :=
  ⟨by simp [bodyLength, commandBytes], fun n bytes hn hb _ => by
    cases hn; cases hb
    simp [withHeader_length, claimBytes, leBytes_length]⟩

theorem EncodedForm.releaseFrame (dt : Nat) (head : FrameHead) (body : ReleaseBody) :
    EncodedForm.Statement (.releaseFrame dt head body) :=
  ⟨by simp [bodyLength, commandBytes], fun n bytes hn hb _ => by
    cases hn; cases hb
    simp [withHeader_length, releaseBytes, leBytes_length]⟩

theorem EncodedForm.ownerSilenceExpiry (dt : Nat) (o : OutletId) :
    EncodedForm.Statement (.ownerSilenceExpiry dt o) :=
  ⟨by simp [bodyLength, commandBytes, requestHead], fun n bytes hn _ _ => by cases hn⟩

theorem EncodedForm.claimWindowExpiry (dt : Nat) (o : OutletId) :
    EncodedForm.Statement (.claimWindowExpiry dt o) :=
  ⟨by simp [bodyLength, commandBytes, requestHead], fun n bytes hn _ _ => by cases hn⟩

theorem EncodedForm.yieldTimeout (dt : Nat) (o : OutletId) :
    EncodedForm.Statement (.yieldTimeout dt o) :=
  ⟨by simp [bodyLength, commandBytes, requestHead], fun n bytes hn _ _ => by cases hn⟩

theorem EncodedForm.cartOpen (dt : Nat) (req : RequestHead) (f : CartFields) :
    EncodedForm.Statement (.cartOpen dt req f) :=
  ⟨by simp [bodyLength, commandBytes, requestHead], fun n bytes hn hb _ => by
    cases hn; cases hb
    simp [requestBytes_length, fieldBytes, cartOpenBytes, leBytes_length, leIntBytes_length]⟩

theorem EncodedForm.cartData (dt : Nat) (req : RequestHead) (cart : Nat) (offset : Nat) (payload : List Byte) :
    EncodedForm.Statement (.cartData dt req cart offset payload) :=
  ⟨by simp [bodyLength, commandBytes, requestHead], fun n bytes hn hb _ => by
    cases hn; cases hb
    simp [requestBytes_length, fieldBytes, leBytes_length]; omega⟩

theorem EncodedForm.cartClose (dt : Nat) (req : RequestHead) (cart : Nat) :
    EncodedForm.Statement (.cartClose dt req cart) :=
  ⟨by simp [bodyLength, commandBytes, requestHead], fun n bytes hn hb _ => by
    cases hn; cases hb
    simp [requestBytes_length, fieldBytes, leBytes_length]⟩

theorem EncodedForm.cartDrop (dt : Nat) (req : RequestHead) (cart : Nat) :
    EncodedForm.Statement (.cartDrop dt req cart) :=
  ⟨by simp [bodyLength, commandBytes, requestHead], fun n bytes hn hb _ => by
    cases hn; cases hb
    simp [requestBytes_length, fieldBytes, leBytes_length]⟩

theorem EncodedForm.entryAdd (dt : Nat) (req : RequestHead) (f : EntryFields) :
    EncodedForm.Statement (.entryAdd dt req f) :=
  ⟨by simp [bodyLength, commandBytes, requestHead], fun n bytes hn hb _ => by
    cases hn; cases hb
    simp [requestBytes_length, fieldBytes, entryAddBytes, leBytes_length, leIntBytes_length, timeBytes_length]⟩

theorem EncodedForm.entryRemove (dt : Nat) (req : RequestHead) (tag : Nat) :
    EncodedForm.Statement (.entryRemove dt req tag) :=
  ⟨by simp [bodyLength, commandBytes, requestHead], fun n bytes hn hb _ => by
    cases hn; cases hb
    simp [requestBytes_length, fieldBytes, leBytes_length]⟩

theorem EncodedForm.spotsSet (dt : Nat) (req : RequestHead) (f : SpotFields) :
    EncodedForm.Statement (.spotsSet dt req f) :=
  ⟨by simp [bodyLength, commandBytes, requestHead], fun n bytes hn hb _ => by
    cases hn; cases hb
    simp only [requestBytes_length, fieldBytes, List.length_append, spotsSetBytes, leBytes_length, flatMap_length (fun p : Nat × Nat => leBytes p.1 4 ++ leBytes p.2 1) 5 _ fun x => by simp [leBytes_length]]⟩

theorem EncodedForm.spotsClear (dt : Nat) (req : RequestHead) (tag : Nat) :
    EncodedForm.Statement (.spotsClear dt req tag) :=
  ⟨by simp [bodyLength, commandBytes, requestHead], fun n bytes hn hb _ => by
    cases hn; cases hb
    simp [requestBytes_length, fieldBytes, leBytes_length]⟩

theorem EncodedForm.fillsSet (dt : Nat) (req : RequestHead) (bed : Option Nat) (fills : List Nat) :
    EncodedForm.Statement (.fillsSet dt req bed fills) :=
  ⟨by simp [bodyLength, commandBytes, requestHead], fun n bytes hn hb _ => by
    cases hn; cases hb
    simp only [requestBytes_length, fieldBytes, List.length_append, fillsSetBytes, markByte, leBytes_length, flatMap_length (fun c => leBytes c 4) 4 _ fun x => leBytes_length _ _]⟩

theorem EncodedForm.handBack (dt : Nat) (req : RequestHead) :
    EncodedForm.Statement (.handBack dt req) :=
  ⟨by simp [bodyLength, commandBytes, requestHead], fun n bytes hn hb _ => by
    cases hn; cases hb
    simp [requestBytes_length, fieldBytes]⟩

theorem EncodedForm.resume (dt : Nat) (req : RequestHead) :
    EncodedForm.Statement (.resume dt req) :=
  ⟨by simp [bodyLength, commandBytes, requestHead], fun n bytes hn hb _ => by
    cases hn; cases hb
    simp [requestBytes_length, fieldBytes]⟩

theorem EncodedForm.logRead (dt : Nat) (req : RequestHead) (start : Nat) (count : Nat) :
    EncodedForm.Statement (.logRead dt req start count) :=
  ⟨by simp [bodyLength, commandBytes, requestHead], fun n bytes hn hb _ => by
    cases hn; cases hb
    simp [requestBytes_length, fieldBytes, leBytes_length]⟩

theorem EncodedForm.captureRead (dt : Nat) (req : RequestHead) (cls : Nat) :
    EncodedForm.Statement (.captureRead dt req cls) :=
  ⟨by simp [bodyLength, commandBytes, requestHead], fun n bytes hn hb _ => by
    cases hn; cases hb
    simp [requestBytes_length, fieldBytes, leBytes_length]⟩

theorem EncodedForm.captureClear (dt : Nat) (req : RequestHead) (cls : Nat) :
    EncodedForm.Statement (.captureClear dt req cls) :=
  ⟨by simp [bodyLength, commandBytes, requestHead], fun n bytes hn hb _ => by
    cases hn; cases hb
    simp [requestBytes_length, fieldBytes, leBytes_length]⟩

theorem EncodedForm.restart (dt : Nat) (req : RequestHead) (config : List Byte) :
    EncodedForm.Statement (.restart dt req config) :=
  ⟨by simp [bodyLength, commandBytes, requestHead], fun n bytes hn hb _ => by
    cases hn; cases hb
    simp [requestBytes_length, fieldBytes]⟩

theorem EncodedForm.fireLineInput (dt : Nat) (line : Fin 8) (active : Bool) :
    EncodedForm.Statement (.fireLineInput dt line active) :=
  ⟨by simp [bodyLength, commandBytes, requestHead], fun n bytes hn _ _ => by cases hn⟩

theorem EncodedForm.fireLineStable (dt : Nat) (line : Fin 8) :
    EncodedForm.Statement (.fireLineStable dt line) :=
  ⟨by simp [bodyLength, commandBytes, requestHead], fun n bytes hn _ _ => by cases hn⟩

theorem EncodedForm.armTimeReached (dt : Nat) (o : OutletId) :
    EncodedForm.Statement (.armTimeReached dt o) :=
  ⟨by simp [bodyLength, commandBytes, requestHead], fun n bytes hn _ _ => by cases hn⟩

theorem EncodedForm.softTimeReached (dt : Nat) (o : OutletId) (tag : Nat) :
    EncodedForm.Statement (.softTimeReached dt o tag) :=
  ⟨by simp [bodyLength, commandBytes, requestHead], fun n bytes hn _ _ => by cases hn⟩

theorem EncodedForm.hardTimeReached (dt : Nat) (o : OutletId) (tag : Nat) :
    EncodedForm.Statement (.hardTimeReached dt o tag) :=
  ⟨by simp [bodyLength, commandBytes, requestHead], fun n bytes hn _ _ => by cases hn⟩

theorem EncodedForm.startTimeReached (dt : Nat) (o : OutletId) :
    EncodedForm.Statement (.startTimeReached dt o) :=
  ⟨by simp [bodyLength, commandBytes, requestHead], fun n bytes hn _ _ => by cases hn⟩

theorem EncodedForm.breakStart (dt : Nat) (o : OutletId) (place : Place) :
    EncodedForm.Statement (.breakStart dt o place) :=
  ⟨by simp [bodyLength, commandBytes, requestHead], fun n bytes hn _ _ => by cases hn⟩

theorem EncodedForm.swapOutStart (dt : Nat) (o : OutletId) (place : Place) :
    EncodedForm.Statement (.swapOutStart dt o place) :=
  ⟨by simp [bodyLength, commandBytes, requestHead], fun n bytes hn _ _ => by cases hn⟩

theorem EncodedForm.swapInStart (dt : Nat) (o : OutletId) (place : Place) :
    EncodedForm.Statement (.swapInStart dt o place) :=
  ⟨by simp [bodyLength, commandBytes, requestHead], fun n bytes hn _ _ => by cases hn⟩

theorem EncodedForm.itemDueTime (dt : Nat) (o : OutletId) (place : Place) :
    EncodedForm.Statement (.itemDueTime dt o place) :=
  ⟨by simp [bodyLength, commandBytes, requestHead], fun n bytes hn _ _ => by cases hn⟩

theorem EncodedForm.rejoin (dt : Nat) (o : OutletId) (place : Option Place) :
    EncodedForm.Statement (.rejoin dt o place) :=
  ⟨by simp [bodyLength, commandBytes, requestHead], fun n bytes hn _ _ => by cases hn⟩

theorem EncodedForm.rampEnd (dt : Nat) (voice : Fin 12) :
    EncodedForm.Statement (.rampEnd dt voice) :=
  ⟨by simp [bodyLength, commandBytes, requestHead], fun n bytes hn _ _ => by cases hn⟩

theorem EncodedForm.cartEnd (dt : Nat) (voice : Fin 12) :
    EncodedForm.Statement (.cartEnd dt voice) :=
  ⟨by simp [bodyLength, commandBytes, requestHead], fun n bytes hn _ _ => by cases hn⟩

theorem EncodedForm.judgePoint (dt : Nat) (voice : Fin 12) :
    EncodedForm.Statement (.judgePoint dt voice) :=
  ⟨by simp [bodyLength, commandBytes, requestHead], fun n bytes hn _ _ => by cases hn⟩

theorem EncodedForm.primingTransferComplete (dt : Nat) (ecc : Ecc) :
    EncodedForm.Statement (.primingTransferComplete dt ecc) :=
  ⟨by simp [bodyLength, commandBytes, requestHead], fun n bytes hn _ _ => by cases hn⟩

theorem EncodedForm.refillComplete (dt : Nat) (ecc : Ecc) :
    EncodedForm.Statement (.refillComplete dt ecc) :=
  ⟨by simp [bodyLength, commandBytes, requestHead], fun n bytes hn _ _ => by cases hn⟩

theorem EncodedForm.loadWriteComplete (dt : Nat) :
    EncodedForm.Statement (.loadWriteComplete dt) :=
  ⟨by simp [bodyLength, commandBytes, requestHead], fun n bytes hn _ _ => by cases hn⟩

theorem EncodedForm.verifyReadComplete (dt : Nat) (ecc : Ecc) :
    EncodedForm.Statement (.verifyReadComplete dt ecc) :=
  ⟨by simp [bodyLength, commandBytes, requestHead], fun n bytes hn _ _ => by cases hn⟩

theorem EncodedForm.relaySlotJudge (dt : Nat) (o : OutletId) :
    EncodedForm.Statement (.relaySlotJudge dt o) :=
  ⟨by simp [bodyLength, commandBytes, requestHead], fun n bytes hn _ _ => by cases hn⟩

theorem EncodedForm.audioFrameSend (dt : Nat) (o : OutletId) :
    EncodedForm.Statement (.audioFrameSend dt o) :=
  ⟨by simp [bodyLength, commandBytes, requestHead], fun n bytes hn _ _ => by cases hn⟩

theorem EncodedForm.meterBlockEnd (dt : Nat) (o : OutletId) (meter : MeterId) :
    EncodedForm.Statement (.meterBlockEnd dt o meter) :=
  ⟨by simp [bodyLength, commandBytes, requestHead], fun n bytes hn _ _ => by cases hn⟩

theorem EncodedForm.echoBlockEnd (dt : Nat) (o : OutletId) :
    EncodedForm.Statement (.echoBlockEnd dt o) :=
  ⟨by simp [bodyLength, commandBytes, requestHead], fun n bytes hn _ _ => by cases hn⟩

theorem EncodedForm.echoOpenBlockTimeout (dt : Nat) (o : OutletId) :
    EncodedForm.Statement (.echoOpenBlockTimeout dt o) :=
  ⟨by simp [bodyLength, commandBytes, requestHead], fun n bytes hn _ _ => by cases hn⟩

theorem EncodedForm.tapCompletion (dt : Nat) (o : OutletId) (block : Time) (readback : Crc) :
    EncodedForm.Statement (.tapCompletion dt o block readback) :=
  ⟨by simp [bodyLength, commandBytes, requestHead], fun n bytes hn _ _ => by cases hn⟩

theorem EncodedForm.historyEntryLeave (dt : Nat) (o : OutletId) :
    EncodedForm.Statement (.historyEntryLeave dt o) :=
  ⟨by simp [bodyLength, commandBytes, requestHead], fun n bytes hn _ _ => by cases hn⟩

theorem EncodedForm.blockLeavesRing (dt : Nat) (voice : Fin 12) :
    EncodedForm.Statement (.blockLeavesRing dt voice) :=
  ⟨by simp [bodyLength, commandBytes, requestHead], fun n bytes hn _ _ => by cases hn⟩

theorem EncodedForm.loopToInCue (dt : Nat) (voice : Fin 12) :
    EncodedForm.Statement (.loopToInCue dt voice) :=
  ⟨by simp [bodyLength, commandBytes, requestHead], fun n bytes hn _ _ => by cases hn⟩

theorem EncodedForm.cutAtTheRejoin (dt : Nat) (o : OutletId) (place : Place) :
    EncodedForm.Statement (.cutAtTheRejoin dt o place) :=
  ⟨by simp [bodyLength, commandBytes, requestHead], fun n bytes hn _ _ => by cases hn⟩

theorem EncodedForm.bedRampStart (dt : Nat) (o : OutletId) (place : Place) :
    EncodedForm.Statement (.bedRampStart dt o place) :=
  ⟨by simp [bodyLength, commandBytes, requestHead], fun n bytes hn _ _ => by cases hn⟩

theorem EncodedForm.unknownRequest (dt : Nat) (req : RequestHead) (kind : Nat) :
    EncodedForm.Statement (.unknownRequest dt req kind) :=
  ⟨by simp [bodyLength, commandBytes, requestHead], fun n bytes hn hb _ => by
    cases hn; cases hb
    simp [requestBytes_length, fieldBytes]⟩

end Sys2Proof.Laws
end

