-- ==== Sys2Proof/Laws/Starts.lean ====
section
/-! SUPPORT. Time passing, power-on and RESTART, and the five requests that add to what the unit holds. -/

namespace Sys2Proof.Machine

/-! ### Time passing -/

/-- What passing time leaves: everything but the clocks, the voices, the outlets. -/
theorem State.elapse_eq (s : State) (n : Nat) :
    ∃ d v q, s.elapse n = { s with clock := s.clock + n, disc := d, voices := v, outlets := q } ∧
      (d.trim = s.disc.trim ∧ d.rejected = s.disc.rejected ∧ d.state = s.disc.state ∧ d.window = s.disc.window) ∧
      d.groupTime = s.disc.groupTime.map (fun t => t + (n : Int)) ∧
      v.map Voice.shape = s.voices.map Voice.shape ∧ ∀ o, (q.get o).lists = (s.out o).lists ∧
        (q.get o).fixed = (s.out o).fixed ∧ (q.get o).air = (s.out o).air := by
  unfold State.elapse
  split
  · rename_i e
    subst e
    exact ⟨s.disc, s.voices, s.outlets, rfl, ⟨rfl, rfl, rfl, rfl⟩, by simp, rfl, fun o => ⟨rfl, rfl, rfl⟩⟩
  · refine ⟨_, _, _, rfl, ⟨rfl, rfl, rfl, rfl⟩, rfl, ?_, fun o => ?_⟩
    · rw [List.map_map]
      refine List.map_congr_left fun v _ => ?_
      simp only [Function.comp, Voice.shape, Option.map_map]
      congr 1
      cases v.use with
      | none => rfl
      | some u =>
        refine congrArg some ?_
        show (u.elapse n).key = u.key
        unfold VoiceUse.elapse
        split <;> rfl
    · have hx : ∀ o x, (s.elapseOutlet n o x).lists = x.lists ∧ (s.elapseOutlet n o x).fixed = x.fixed ∧
          (s.elapseOutlet n o x).air = x.air := by
        intro o x
        unfold State.elapseOutlet
        dsimp only
        split <;> exact ⟨rfl, rfl, rfl⟩
      cases o <;> exact hx _ _

theorem State.elapse_bounded {s : State} (h : s.Bounded) (n : Nat) : (s.elapse n).Bounded := by
  obtain ⟨d, v, q, e, ⟨e1, e2, -, -⟩, -, e3, e4⟩ := s.elapse_eq n
  obtain ⟨⟨h1, h2, h3, h4⟩, h5, h6, h7, h8⟩ := h
  have hv : v.length = s.voices.length := by simpa using congrArg List.length e3
  rw [e]
  refine ⟨⟨hv.trans h1, h2, h3, h4⟩, ⟨h5.1, holdersOf_congr e3 ▸ h5.2⟩, fun o => ?_, h7, ?_⟩
  · exact (Outlet.Shrinks.of_eq (e4 o).1).bounded (h6 o)
  · simpa only [ClockDiscipline.Bounded, e1, e2] using h8

/-! ### Starts -/

theorem poolFor_length (cfg : UnitCfg) : (poolFor cfg).length = 12 := by
  unfold poolFor
  simp only [List.length_map, List.length_append, List.length_replicate]
  have : ((OutletId.all.filter fun o => (cfg.outlets.get o).enabled).flatMap fun o => [some o, some o]).length ≤ 8 := by
    have h := List.length_filter_le (fun o => (cfg.outlets.get o).enabled) OutletId.all
    rw [List.length_flatMap]
    simp only [List.length_cons, List.length_nil, List.map_const', List.sum_replicate, smul_eq_mul]
    simp only [OutletId.all, List.length_cons, List.length_nil] at h ⊢
    omega
  omega

theorem State.sendBeacon_eq (s : State) :
    ∃ l, s.sendBeacon =
        { s with
          sent := s.sent ++ l, beaconSince := s.clock
          outlets := s.outlets.mapId fun _ x => { x with cuePhase := x.cuePhase + 1 } } ∧ (s.isolated = true → l = []) := by
  unfold State.sendBeacon
  obtain ⟨l, e, hl⟩ := s.send_rest (.beacon s.beacon)
  rw [e]
  exact ⟨l, rfl, hl⟩

/-- What a start sets (R193, R194), with its first beacon. -/
theorem State.start_eq (s : State) (config : List Byte) :
    ∃ l, s.start config =
      { s with
        configMemory := config, cfg := settleConfig config, isolated := s.isolated || configIsolates config
        voices := poolFor (settleConfig config), voiceQueue := [], peers := [], listenSince := some s.clock
        beaconSince := s.clock, sent := s.sent ++ l
        outlets := (settleConfig config).outlets.mapId fun _ c =>
          { startOutlet c (s.isolated || configIsolates config) with
            cuePhase := (startOutlet c (s.isolated || configIsolates config)).cuePhase + 1 }
        lines := s.lines.map fun l => { FireLine.reset with active := l.active, since := s.clock } } ∧
      ((s.isolated || configIsolates config) = true → l = []) := by
  unfold State.start
  dsimp only
  obtain ⟨l, e, hl⟩ := State.sendBeacon_eq
    { s with
      configMemory := config, cfg := settleConfig config, isolated := s.isolated || configIsolates config
      voices := poolFor (settleConfig config), voiceQueue := [], peers := [], listenSince := some s.clock
      outlets := (settleConfig config).outlets.mapId fun _ c => startOutlet c (s.isolated || configIsolates config)
      lines := s.lines.map fun l => { FireLine.reset with active := l.active, since := s.clock } }
  exact ⟨l, e, hl⟩

theorem startOutlet_bounded (c : OutletCfg) (i : Bool) : (startOutlet c i).Bounded := by
  unfold startOutlet
  split
  · exact ⟨⟨Nat.zero_le _, List.nodup_nil, fun _ h => nomatch h⟩, Nat.zero_le _, List.nodup_nil⟩
  · exact ⟨⟨Nat.zero_le _, List.nodup_nil, fun _ h => nomatch h⟩, Nat.zero_le _, List.nodup_nil⟩

/-- Voices that are all FREE hold no version (R111). -/
theorem holdersOf_free {l : List Voice} (h : ∀ v ∈ l, v.use = none) : holdersOf l = fun _ _ => 0 := by
  funext c n
  refine List.countP_eq_zero.2 fun v hv => ?_
  simp [h v hv]

theorem poolFor_free (cfg : UnitCfg) : ∀ v ∈ poolFor cfg, v.use = none := by
  intro v hv
  obtain ⟨r, -, rfl⟩ := List.mem_map.1 hv
  rfl

theorem State.start_bounded {s : State} (config : List Byte) (hl : s.lines.length = 8)
    (hr : s.log.records.length ≤ logCapacity) (hs : s.store.Bounded) (hu : s.store.CountedBy fun _ _ => 0) (hc : s.captures.Bounded) (hd : s.disc.Bounded) :
    (s.start config).Bounded := by
  obtain ⟨l, e, -⟩ := s.start_eq config
  rw [e]
  refine ⟨⟨poolFor_length _, by simpa using hl, hr, Nat.zero_le _, List.nodup_nil⟩,
    ⟨hs, by rw [holdersOf_free (poolFor_free _)]; exact hu⟩, fun o => ?_, hc, hd⟩
  cases o <;> exact startOutlet_bounded _ _

theorem Captures.reset_bounded : Captures.reset.Bounded := ⟨fun k => by cases k <;> decide, by decide⟩

theorem Store.reset_bounded : Store.reset.Bounded := ⟨⟨by decide, by decide, by decide⟩, fun _ => Nat.zero_le _⟩

theorem Store.reset_counted : Store.reset.CountedBy fun _ _ => 0 := ⟨fun _ h => (nomatch h), fun _ _ h => absurd rfl h⟩

theorem ClockDiscipline.reset_bounded (k : ClockState) : ({ ClockDiscipline.reset with state := k } : ClockDiscipline).Bounded :=
  ⟨⟨by show (-1600 : Int) ≤ 0; decide, by show (0 : Int) ≤ 1600; decide⟩, Nat.zero_le 4⟩

theorem State.powerUp_bounded (s : State) (link : Nat) (config : List Byte) : (s.powerUp link config).Bounded := by
  unfold State.powerUp
  dsimp only
  exact State.start_bounded config (by rfl) (Nat.zero_le _) Store.reset_bounded Store.reset_counted Captures.reset_bounded
    (ClockDiscipline.reset_bounded _)

theorem State.restartStore_moves {w : Bool} {a s : State} (h : State.Moves w a s) : State.Moves w a s.restartStore := by
  unfold State.restartStore
  dsimp only
  refine State.Moves.foldl ?_ _ _ fun t v ht => State.failShort_moves ht v
  refine State.Moves.storeTransfer (State.Moves.foldl (State.Moves.foldl h _ _ ?_) _ _ ?_) ?_ _
  · intro t v ht
    split
    · exact ht.store' ((Store.Kept.refl _).freeVersion _ _)
    · exact ht
  · intro t v ht
    split
    · exact State.discard_moves ht _ _
    · exact ht
  · exact (Store.Kept.refl _).queues _ _ _ (List.nil_sublist _)

/-- The voices are as given, and no outlet sends. -/
def State.Still (l : List Voice) (s : State) : Prop := s.voices = l ∧ ∀ o, (s.out o).air.sends = false

theorem State.Still.setOut {l : List Voice} {s : State} (h : s.Still l) (o : OutletId) {x : Outlet} (hx : x.air = (s.out o).air) :
    (s.setOut o x).Still l := by
  refine ⟨h.1, fun p => ?_⟩
  rw [State.out_setOut]
  split
  · rw [hx]
    exact h.2 o
  · exact h.2 p

theorem State.Still.modOut {l : List Voice} {s : State} (h : s.Still l) (o : OutletId) (f : Outlet → Outlet)
    (hf : ∀ x, (f x).air = x.air) : (s.modOut o f).Still l := h.setOut o (hf _)

theorem State.Still.foldl {α : Type} {l : List Voice} {s : State} (h : s.Still l) (f : State → α → State) (xs : List α)
    (hf : ∀ t x, State.Still l t → State.Still l (f t x)) : (xs.foldl f s).Still l := by
  induction xs generalizing s with
  | nil => exact h
  | cons x t ih => exact ih (hf s x h)

theorem State.Still.finalResult {l : List Voice} {s : State} (h : s.Still l) (o : OutletId) (b : Time) (r : EchoResult)
    (again : Bool) : (s.finalResult o b r again).Still l := h.setOut o rfl

theorem State.Still.leaveHistory {l : List Voice} {t : State} (ht : t.Still l) (o : OutletId) (again : Bool) (e : HistEntry) :
    (t.leaveHistory o again e).Still l := by
  unfold State.leaveHistory State.feedRun
  extract_lets r u v x
  have hu : u.Still l := by
    show (ite _ _ _ : State).Still l
    split
    · exact ht.finalResult _ _ _ _
    · exact ht
  have hv : v.Still l := hu.setOut o rfl
  rw [if_neg (by rw [hv.2 o]; exact Bool.false_ne_true)]
  exact hv

theorem State.Still.leaveHistoryWhere {l : List Voice} {s : State} (h : s.Still l) (o : OutletId) (p : HistEntry → Bool) :
    (s.leaveHistoryWhere o p).Still l := h.foldl _ _ fun _ e ht => ht.leaveHistory o _ e

theorem State.Still.addHistory {l : List Voice} {s : State} (h : s.Still l) (o : OutletId) (e : HistEntry) :
    (s.addHistory o e).Still l := (h.foldl _ _ fun _ e ht => ht.leaveHistory o _ e).modOut o _ fun _ => rfl

theorem State.Still.closeEchoBlocks {l : List Voice} {s : State} (h : s.Still l) (n : Nat) (o : OutletId) :
    (State.closeEchoBlocks n s o).Still l := by
  induction n generalizing s with
  | zero => exact h
  | succ n ih =>
    unfold State.closeEchoBlocks
    split
    · exact h
    · refine ih ?_
      unfold State.closeEchoBlock
      dsimp only
      split
      · exact h
      · split
        · exact h.setOut o rfl
        · refine State.Still.addHistory (h.modOut o _ ?_) o _
          exact fun _ => rfl

theorem State.discard_voices (s : State) (c n : Nat) : (s.discard c n).voices = s.voices := by
  unfold State.discard
  dsimp only
  split <;> rfl

theorem State.settleVerification_voices (s : State) (v : Version) (pass : Bool) : (s.settleVerification v pass).voices = s.voices := by
  unfold State.settleVerification
  split
  · split <;> rfl
  · split
    · exact s.discard_voices _ _
    · rfl

theorem State.verificationAnswer_voices (s : State) (v : Version) (pass : Bool) : (s.verificationAnswer v pass).voices = s.voices := by
  unfold State.verificationAnswer
  split
  · rfl
  · exact State.send_eq s _ State.voices fun _ _ => rfl

theorem State.failShort_voices (s : State) (v : Version) : (s.failShort v).voices = s.voices := by
  unfold State.failShort
  split
  · exact (State.verificationAnswer_voices _ _ _).trans (State.settleVerification_voices _ _ _)
  · rfl

/-- A list of states' steps that leave the voices leaves them. -/
theorem State.foldl_voices {α : Type} (s : State) (f : State → α → State) (xs : List α) (hf : ∀ t x, (f t x).voices = t.voices) :
    (xs.foldl f s).voices = s.voices := by
  induction xs generalizing s with
  | nil => rfl
  | cons x t ih => exact (ih (f s x)).trans (hf s x)

theorem State.restartStore_voices (s : State) : s.restartStore.voices = s.voices := by
  unfold State.restartStore
  dsimp only
  refine (State.foldl_voices _ _ _ State.failShort_voices).trans
    ((State.foldl_voices _ _ _ fun t v => ?_).trans (State.foldl_voices _ _ _ fun t v => ?_))
  · split
    · exact t.discard_voices _ _
    · rfl
  · split <;> rfl

theorem State.dropVoice_voices (s : State) (i : Nat) :
    (s.dropVoice i).voices = s.voices.modify i fun v => { v with use := none } := by
  unfold State.dropVoice
  split
  · rename_i e
    refine List.ext_getElem? fun j => ?_
    rw [List.getElem?_modify]
    split
    · rename_i hj
      subst hj
      cases hx : s.voices[i]? with
      | none => rfl
      | some v =>
        unfold State.voice at e
        rw [hx] at e
        cases v
        exact congrArg (fun u => some (Voice.mk _ u)) e
    · simp
  · rfl

/-- Every voice has become FREE (R194, step 3). -/
theorem State.dropVoices_free (s : State) : ∀ v ∈ ((List.range s.voices.length).foldl State.dropVoice s).voices, v.use = none := by
  have h : ∀ (l : List Nat) (t : State) (i : Nat) (v : Voice), (l.foldl State.dropVoice t).voices[i]? = some v →
      i ∈ l ∨ (∀ w, t.voices[i]? = some w → w.use = none) → v.use = none := by
    intro l
    induction l with
    | nil =>
      rintro t i v e (hm | hn)
      · cases hm
      · exact hn v e
    | cons j l ih =>
      intro t i v e hm
      refine ih _ i v e ?_
      rcases hm with hm | hn
      · rcases List.mem_cons.1 hm with rfl | hm
        · refine .inr fun w hw => ?_
          rw [State.dropVoice_voices, List.getElem?_modify_eq] at hw
          obtain ⟨x, -, rfl⟩ := Option.map_eq_some_iff.mp hw
          rfl
        · exact .inl hm
      · refine .inr fun w hw => ?_
        rw [State.dropVoice_voices, List.getElem?_modify] at hw
        obtain ⟨x, hx, rfl⟩ := Option.map_eq_some_iff.mp hw
        split
        · rfl
        · exact hn x hx
  have hlen : ∀ (l : List Nat) (t : State), (l.foldl State.dropVoice t).voices.length = t.voices.length := by
    intro l
    induction l with
    | nil => exact fun _ => rfl
    | cons j l ih => exact fun t => (ih _).trans (by rw [State.dropVoice_voices]; simp)
  intro v hv
  obtain ⟨i, hi⟩ := List.getElem?_of_mem hv
  refine h _ s i v hi (.inl (List.mem_range.2 ?_))
  rw [← hlen (List.range s.voices.length) s]
  exact (List.getElem?_eq_some_iff.mp hi).1

theorem State.darken_still (s : State) :
    ({ s with outlets := s.outlets.mapId fun _ x => { x with air := .dark } } : State).Still s.voices :=
  ⟨rfl, fun o => by cases o <;> rfl⟩

/-- The histories empty with the voices as they are (R194, steps 5 and 8). -/
theorem State.darkHistories_voices (s : State) :
    (OutletId.all.foldl State.stopEchoBlock
      ({ s with outlets := s.outlets.mapId fun _ x => { x with air := .dark } } : State)).emptyHistories.voices = s.voices := by
  have h1 := s.darken_still.foldl State.stopEchoBlock OutletId.all fun t o ht => (ht.closeEchoBlocks _ o).setOut o rfl
  exact (h1.foldl (fun s o => s.leaveHistoryWhere o fun _ => true) OutletId.all fun t o ht => ht.leaveHistoryWhere o _).1

/-- RESTART is moves that leave every voice FREE, then a start with the captures empty and the discipline set back (R194). -/
theorem State.restart_eq (s : State) (config : List Byte) :
    ∃ m d, State.Moves false s m ∧ (∀ v ∈ m.voices, v.use = none) ∧ s.restart config =
        ({ m with captures := .reset, boot := .restartRequest, disc := d } : State).start config ∧
      d = { m.disc with
        state := if (settleConfig config).refFeed = 0 then .free else .tracking, rejected := 0, window := none, candidate := none } := by
  unfold State.restart
  dsimp only
  refine ⟨_, _, ?_, ?_, rfl, rfl⟩
  rotate_left
  · intro v hv
    rw [State.darkHistories_voices, State.restartStore_voices] at hv
    exact State.dropVoices_free _ v hv
  have h1 := (State.Moves.refl (k := false) (a := s)).foldl State.releaseAtRestart OutletId.all
    fun t o ht => State.releaseAtRestart_moves ht o
  have h2 := h1.foldl (fun s o => State.flushAudio (spansLen (s.out o).unsent + 1) s o) OutletId.all
    fun t o ht => State.flushAudio_moves ht o
  have h3 := State.inFreeOrder_moves (h2.queue []) State.restartOutlet fun t o ht => State.restartOutlet_moves ht o
  have h4 := h3.foldl State.dropVoice
    (List.range (State.inFreeOrder { OutletId.all.foldl (fun s o => State.flushAudio (spansLen (s.out o).unsent + 1) s o)
      (OutletId.all.foldl State.releaseAtRestart s) with voiceQueue := [] } State.restartOutlet).voices.length)
    fun t i ht => State.dropVoice_moves ht i
  have h5 := (State.restartStore_moves h4).mapOutletsWeak (fun _ x => { x with air := .dark }) fun _ _ => rfl
  exact State.emptyHistories_moves (h5.foldl State.stopEchoBlock OutletId.all fun t o ht => State.stopEchoBlock_moves ht o)

theorem State.restart_bounded {s : State} (h : s.Bounded) (config : List Byte) : (s.restart config).Bounded := by
  obtain ⟨m, d, hm, hv, e, hd⟩ := s.restart_eq config
  rw [e]
  have hb := hm.bounded h
  refine State.start_bounded config hb.1.2.1 hb.1.2.2.1 hb.2.1.1 (holdersOf_free hv ▸ hb.2.1.2) Captures.reset_bounded ?_
  rw [hd]
  exact ⟨hb.2.2.2.2.1, Nat.zero_le _⟩

/-! ### The requests that add -/

theorem State.unitRequest_isolated {s : State} (i : s.isolated = true) (req : RequestHead) (kind need : Nat) (bad : Bool)
    (act : State → State) : s.unitRequest req kind need bad act = s := by
  simp [State.unitRequest, State.unitGate, State.judgesRequest, i, State.turnAway]

theorem State.feedRequest_isolated {s : State} (i : s.isolated = true) (req : RequestHead) (kind need : Nat) (bad : OutletId → Bool)
    (act : OutletId → State → State) : s.feedRequest req kind need bad act = s := by
  simp [State.feedRequest, State.feedGate, State.judgesRequest, i, State.turnAway]

/-- A request by unit mask leads to its act or to moves. -/
theorem State.unitRequest_cases (s : State) (req : RequestHead) (kind need : Nat) (bad : Bool) (act : State → State) :
    s.unitRequest req kind need bad act = act s ∨ State.Moves true s (s.unitRequest req kind need bad act) := by
  unfold State.unitRequest
  split
  · split
    · exact .inr (State.malformed_moves .refl _ _ _)
    · exact .inl rfl
  · exact .inr (State.turnAway_moves .refl _ _ _)

/-- A request by feed leads to its act on an outlet or to moves. -/
theorem State.feedRequest_cases (s : State) (req : RequestHead) (kind need : Nat) (bad : OutletId → Bool)
    (act : OutletId → State → State) :
    (∃ o, s.feedRequest req kind need bad act = act o s) ∨ State.Moves true s (s.feedRequest req kind need bad act) := by
  unfold State.feedRequest
  split
  · split
    · exact .inr (State.malformed_moves .refl _ _ _)
    · exact .inl ⟨_, rfl⟩
  · exact .inr (State.turnAway_moves .refl _ _ _)

theorem Store.freeVersion_length {st : Store} {v : Version} {f : Nat → Nat → Nat} (hc : st.CountedBy f) (hv : v ∈ st.versions)
    (h0 : v.useCount = 0) : (st.freeVersion v.cart v.serial).versions.length < st.versions.length := by
  unfold Store.freeVersion
  split
  · rename_i e
    exact absurd (List.find?_eq_none.mp e v hv) (by simp [Version.is])
  · rename_i w e
    obtain ⟨hw, e1, e2⟩ := Store.find_is e
    rw [if_pos (by rw [hc.1 w hw, e1, e2, ← hc.1 v hv, h0])]
    exact List.length_filter_lt_length_iff_exists.mpr ⟨v, hv, by simp [Version.is]⟩

theorem Store.newSerial_fresh {st : Store} {cart : Nat} (h : (st.versionsOf cart).length ≤ 1) :
    ∀ v ∈ st.versions, v.key ≠ (cart, st.newSerial cart) := by
  intro v hv e
  simp only [Version.key, Prod.mk.injEq] at e
  have hm : v ∈ st.versionsOf cart := List.mem_filter.2 ⟨hv, by simp [e.1]⟩
  have hl : st.versionsOf cart = [v] := by
    cases hc : st.versionsOf cart with
    | nil => rw [hc] at hm; cases hm
    | cons w t =>
      rw [hc] at hm h
      have ht : t = [] := List.length_eq_zero_iff.1 (by simp only [List.length_cons] at h; omega)
      subst ht
      simp only [List.mem_singleton] at hm
      rw [hm]
  have e2 := e.2
  unfold Store.newSerial at e2
  rw [hl] at e2
  dsimp only at e2
  simp only [List.any_cons, List.any_nil, Bool.or_false, beq_iff_eq] at e2
  split at e2
  · rename_i e3
    have : ∀ n, nextSerial n ≠ n := fun n => by unfold nextSerial; split <;> omega
    exact this _ (e2.symm.trans e3)
  · rename_i e3
    exact e3 e2

theorem Store.openBusy_one {st : Store} {cart : Nat} (h : st.openBusy cart = false) : (st.versionsOf cart).length ≤ 1 := by
  unfold Store.openBusy at h
  simp only [Bool.or_eq_false_iff, decide_eq_false_iff_not, not_le] at h
  omega

/-- A replaced version is the cart's current one, and no voice holds it (R113). -/
theorem Store.replaced_is {st : Store} {cart : Nat} {v : Version} (h : st.replaced cart = some v) :
    v ∈ st.versions ∧ v.useCount = 0 := by
  unfold Store.replaced at h
  obtain ⟨h1, h2⟩ := Option.filter_eq_some_iff.mp h
  simp only [Bool.and_eq_true, beq_iff_eq] at h2
  exact ⟨List.mem_of_find?_eq_some h1, h2.2⟩

/-- One version more of a cart that had at most one, of a serial none had, held by no voice. -/
theorem Store.append_bounded {st m n : Store} {w : Version} {f : Nat → Nat → Nat} (hb : st.Bounded) (hc : st.CountedBy f)
    (hk : st.Kept m) (hlen : m.versions.length < directoryCapacity) (h1 : (st.versionsOf w.cart).length ≤ 1)
    (hf : ∀ v ∈ st.versions, v.key ≠ w.key) (hw : w.useCount = 0) (hv : n.versions = m.versions ++ [w]) (hm : n.mem = m.mem)
    (hl : n.loadQueue = m.loadQueue) : n.Bounded ∧ n.CountedBy f := by
  have hu := hk.uses f hc
  have hof : ∀ c, (m.versionsOf c).length ≤ (st.versionsOf c).length := fun c => by
    rw [Store.versionsOf_length, Store.versionsOf_length]
    exact (hk.versions.filter _).length_le
  refine ⟨⟨⟨by rw [hm, hk.mem]; exact hb.1.1, ?_, by rw [hl]; exact le_trans hk.loads.length_le hb.1.2.2⟩, fun c => ?_⟩, fun v hm => ?_,
    fun c s h => ?_⟩
  · rw [hv, List.length_append]
    exact hlen
  · unfold Store.versionsOf
    rw [hv, List.filter_append, List.length_append]
    have h2 : (m.versionsOf c).length ≤ 2 := le_trans (hof c) (hb.2 c)
    unfold Store.versionsOf at h2
    by_cases e : w.cart = c
    · have h3 := le_trans (hof c) (e ▸ h1)
      unfold Store.versionsOf at h3
      have := List.length_filter_le (fun v : Version => v.cart == c) [w]
      simp only [List.length_singleton] at this
      omega
    · simpa [e] using h2
  · rw [hv] at hm
    rcases List.mem_append.1 hm with hm | hm
    · exact hu.1 v hm
    · simp only [List.mem_singleton] at hm
      subst hm
      rw [hw]
      by_contra h0
      obtain ⟨x, hx, e⟩ := List.mem_map.1 (hc.2 _ _ (Ne.symm h0))
      exact hf x hx e
  · rw [hv, List.map_append]
    exact List.mem_append_left _ (hu.2 c s h)

theorem Store.openVersion_bounded {st : Store} {g : Nat → Nat → Nat} (h : st.Bounded) (hc : st.CountedBy g) (f : CartFields)
    (kind : CartKind) (hb : st.openBusy f.cart = false) (hf : st.openFull f.cart f.len = false) :
    (st.openVersion f kind).2.2.Bounded ∧ (st.openVersion f kind).2.2.CountedBy g := by
  have h1 := Store.openBusy_one hb
  have hfresh := Store.newSerial_fresh h1
  unfold Store.openFull at hf
  simp only [Bool.or_eq_false_iff, decide_eq_false_iff_not, not_le] at hf
  have hf := hf.2
  unfold Store.openVersion
  dsimp only
  cases hr : st.replaced f.cart with
  | none =>
    rw [hr] at hf
    exact Store.append_bounded h hc (.refl st) (w := newVersion f kind (st.newSerial f.cart) _ _) (by simpa using hf) h1 hfresh rfl rfl rfl rfl
  | some v =>
    rw [hr] at hf
    simp only [Option.isSome_some, if_true] at hf
    obtain ⟨hv, h0⟩ := Store.replaced_is hr
    have := Store.freeVersion_length hc hv h0
    exact Store.append_bounded h hc ((Store.Kept.refl st).freeVersion _ _) (w := newVersion f kind (st.newSerial f.cart) _ _) (by omega) h1 hfresh rfl rfl rfl rfl

theorem State.openCart_bounded {s : State} (h : s.Bounded) (req : RequestHead) (f : CartFields) (kind : CartKind) :
    (s.openCart req f kind).Bounded := by
  unfold State.openCart
  split
  · exact (State.answer_moves (w := true) .refl _ _ _ _ _).bounded h
  · rename_i hb
    split
    · exact (State.answer_moves (w := true) .refl _ _ _ _ _).bounded h
    · rename_i hf
      dsimp only
      refine (State.answer_moves (w := true) .refl _ _ _ _ _).bounded ?_
      exact ⟨h.1, Store.openVersion_bounded h.2.1.1 h.2.1.2 f kind (by simpa using hb) (by simpa using hf), h.2.2⟩

theorem State.loadData_bounded {s : State} (h : s.Bounded) (req : RequestHead) (cart offset : Nat) (payload : List Byte) :
    (s.loadData req cart offset payload).Bounded := by
  unfold State.loadData
  split
  · exact (State.answer_moves (w := true) .refl _ _ _ _ _).bounded h
  · split
    · exact (State.pump_moves (w := true) (State.answer_moves (State.failLoad_moves .refl _ _) _ _ _ _ _)).bounded h
    · split
      · exact (State.answer_moves (w := true) .refl _ _ _ _ _).bounded h
      · rename_i v _ _ hl
        refine (State.pump_moves (w := true) (State.answer_moves .refl _ _ _ _ _)).bounded ?_
        have hk := (Store.Kept.refl s.store).modVersion v.cart v.serial (fun w => { w with received := w.received + payload.length })
          fun _ => rfl
        refine ⟨h.1, ⟨⟨⟨h.2.1.1.1.1, ?_, ?_⟩, fun c => ?_⟩, hk.uses _ h.2.1.2⟩, h.2.2⟩
        · refine le_trans (le_of_eq ?_) h.2.1.1.1.2.1
          simp [Store.accept, Store.modVersion]
        · simp only [Store.accept, List.length_append, List.length_singleton]
          simp only [not_le] at hl
          exact hl
        · refine le_trans (le_of_eq ?_) (h.2.1.1.2 c)
          rw [Store.versionsOf_length, Store.versionsOf_length]
          exact congrArg (fun l => (List.filter _ l).length) (Store.modVersion_fixed _ _ _ _ fun _ => rfl)

theorem insertAt_perm (l : List Entry) (pos : Position) (e : Entry) : (insertAt l pos e).Perm (e :: l) := by
  unfold insertAt
  split
  · exact List.perm_append_comm
  · unfold insertFirstQueued
    have h := List.takeWhile_append_dropWhile (p := fun d : Entry => d.state != .queued) (l := l)
    conv => rhs; rw [← h]
    exact List.perm_middle
  · rename_i ref
    unfold insertAfter
    have h := List.takeWhile_append_dropWhile (p := fun d : Entry => d.tag != ref) (l := l)
    split
    · rename_i d t e'
      rw [e'] at h
      conv => rhs; rw [← h]
      exact (List.Perm.append_left _ (List.Perm.swap e d t)).trans List.perm_middle
    · rename_i e'
      rw [e', List.append_nil] at h
      rw [h]
      exact List.perm_append_comm

theorem Outlet.addObstacle_none {x : Outlet} {tag : Nat} {pos : Position} (h : x.addObstacle tag pos = none) :
    x.entry tag = none ∧ x.entries.length < entryCapacity := by
  unfold Outlet.addObstacle at h
  dsimp only at h
  split at h
  · cases h
  rename_i hd
  refine ⟨by simpa using hd, ?_⟩
  split at h
  · cases h
  · split at h
    · cases h
    · split at h
      · cases h
      · omega
  · split at h
    · cases h
    · omega

theorem State.addEntry_bounded {s : State} (h : s.Bounded) (req : RequestHead) (f : EntryFields) (o : OutletId) :
    (s.addEntry req f o).Bounded := by
  unfold State.addEntry
  split
  · exact (State.answer_moves (w := true) .refl _ _ _ _ _).bounded h
  · split
    · split
      · exact (State.answer_moves (w := true) .refl _ _ _ _ _).bounded h
      · rename_i hn
        refine (State.finish_moves (w := true) (State.displace_moves (State.answer_moves .refl _ _ _ _ _) _ _)
          (Nat.le_refl _)).bounded ?_
        refine ⟨h.1, h.2.1, fun p => ?_, h.2.2.2⟩
        simp only [State.modOut, State.out_setOut]
        split
        · rename_i e
          obtain ⟨hd, hc⟩ := Outlet.addObstacle_none hn
          refine ⟨⟨?_, ?_, fun d hm ea => ?_⟩, (h.2.2.1 o).2⟩
          · show (insertAt _ _ _).length ≤ _
            rw [(insertAt_perm _ _ _).length_eq]
            exact hc
          · show ((insertAt _ _ _).map Entry.tag).Nodup
            refine ((insertAt_perm _ _ _).map Entry.tag).nodup_iff.2 ?_
            rw [List.map_cons]
            refine List.nodup_cons.2 ⟨fun hm => ?_, (h.2.2.1 o).1.2.1⟩
            obtain ⟨d, hd1, hd2⟩ := List.mem_map.1 hm
            have := List.find?_eq_none.1 hd d hd1
            exact this (beq_iff_eq.2 hd2)
          · rcases List.mem_cons.1 ((insertAt_perm _ _ _).subset hm) with rfl | hm
            · cases ea
            · exact (h.2.2.1 o).1.2.2 d hm ea
        · exact h.2.2.1 p
    · exact h

theorem putList_length (l : List SpotList) (n : SpotList) :
    (putList l n).length = if l.any fun m => m.tag == n.tag then l.length else l.length + 1 := by
  unfold putList
  split <;> simp

theorem putList_nodup (l : List SpotList) (n : SpotList) (h : (l.map SpotList.tag).Nodup) :
    ((putList l n).map SpotList.tag).Nodup := by
  unfold putList
  split
  · have e : (l.map fun m => if m.tag == n.tag then n else m).map SpotList.tag = l.map SpotList.tag := by
      rw [List.map_map]
      refine List.map_congr_left fun m _ => ?_
      simp only [Function.comp]
      split
      · rename_i e
        exact (beq_iff_eq.1 e).symm
      · rfl
    rw [e]
    exact h
  · rename_i hn
    rw [List.map_append]
    refine List.nodup_append.2 ⟨h, by simp, fun a ha b hb e => ?_⟩
    subst e
    simp only [List.map_cons, List.map_nil, List.mem_singleton] at hb
    obtain ⟨m, hm1, hm2⟩ := List.mem_map.1 ha
    exact hn (List.any_eq_true.2 ⟨m, hm1, by simp [hm2, hb]⟩)

theorem State.setSpots_bounded {s : State} (h : s.Bounded) (req : RequestHead) (f : SpotFields) (o : OutletId) :
    (s.setSpots req f o).Bounded := by
  unfold State.setSpots
  split
  · exact (State.answer_moves (w := true) .refl _ _ _ _ _).bounded h
  · rename_i hn
    refine (State.answer_moves (w := true) .refl _ _ _ _ _).bounded ?_
    refine ⟨h.1, h.2.1, fun p => ?_, h.2.2.2⟩
    simp only [State.modOut, State.out_setOut]
    split
    · refine ⟨(h.2.2.1 o).1, ?_, putList_nodup _ _ (h.2.2.1 o).2.2⟩
      show (putList _ _).length ≤ 32
      rw [putList_length]
      have h2 := (h.2.2.1 o).2.1
      unfold Outlet.spotsObstacle at hn
      split at hn
      · cases hn
      · split at hn
        · cases hn
        · split at hn
          · cases hn
          · rename_i hc
            simp only [Bool.and_eq_true, decide_eq_true_eq, not_and, not_le] at hc
            split
            · exact h2
            · rename_i hno
              have := hc (by simpa [Outlet.hasList, spotListOf] using hno)
              omega
    · exact h.2.2.1 p

theorem State.clearSlot_bounded {s : State} (h : s.Bounded) (req : RequestHead) (cls : Nat) : (s.clearSlot req cls).Bounded := by
  unfold State.clearSlot
  split
  · rename_i k _
    dsimp only
    have hb := (State.answer_moves (w := true) (a := s) .refl req 14 none .ok (s.captures.answer k)).bounded h
    refine ⟨hb.1, hb.2.1, hb.2.2.1, ⟨fun j => ?_, ?_⟩, hb.2.2.2.2⟩
    · have := hb.2.2.2.1.1 j
      show (((Captures.setSlot _ k Slot.reset)).slot j).lost ≤ 65535 
      rw [Captures.slot_setSlot]
      split
      · exact Nat.zero_le _
      · exact this
    · show (if k = .store then 0 else _) ≤ 4294967295
      split
      · exact Nat.zero_le _
      · exact hb.2.2.2.1.2
  · exact h

/-- What the five requests that add to what a unit holds lead to: plain updates, plain updates after a store with one more version or
payload or an outlet with one more entry or spot list, or plain updates before a capture slot is emptied. -/
inductive State.Adds (a : State) (c : Instr) : State → Prop
  | plain {t : State} (h : State.Moves true a t) : Adds a c t
  | version {t : State} (dt : Nat) (req : RequestHead) (f : CartFields) (e : c = .cartOpen dt req f) (st : Store)
      (h : State.Moves true { a with store := st } t) : Adds a c t
  | payload {t : State} (st : Store) (hv : st.versions.map Version.fixed = a.store.versions.map Version.fixed)
      (hc : st.serialCounter = a.store.serialCounter) (h : State.Moves true { a with store := st } t) : Adds a c t
  | entry {t : State} (dt : Nat) (req : RequestHead) (f : EntryFields) (e : c = .entryAdd dt req f) (o : OutletId) (l : List Entry)
      (hl : (a.out o).entries.Sublist l) (h : State.Moves true (a.modOut o fun x => { x with entries := l }) t) : Adds a c t
  | spots {t : State} (o : OutletId) (l : List SpotList) (h : State.Moves true (a.modOut o fun x => { x with spots := l }) t) : Adds a c t
  | clear {u : State} (dt : Nat) (req : RequestHead) (cls : Nat) (e : c = .captureClear dt req cls) (h : State.Moves true a u) (k : FaultClass) :
      Adds a c { u with captures := u.captures.clear k }

theorem insertAt_sublist (l : List Entry) (pos : Position) (e : Entry) : l.Sublist (insertAt l pos e) := by
  unfold insertAt
  split
  · exact List.sublist_append_left _ _
  · unfold insertFirstQueued
    have h := List.takeWhile_append_dropWhile (p := fun d : Entry => d.state != .queued) (l := l)
    conv => lhs; rw [← h]
    exact List.Sublist.append_left (List.sublist_cons_self _ _) _
  · rename_i ref
    unfold insertAfter
    have h := List.takeWhile_append_dropWhile (p := fun d : Entry => d.tag != ref) (l := l)
    conv => lhs; rw [← h]
    refine List.Sublist.append_left ?_ _
    split
    · rename_i d t e'
      rw [e']
      exact (List.sublist_cons_self _ _).cons_cons _
    · rename_i e'
      rw [e']
      exact List.nil_sublist _

theorem exec_adds {c : Instr} {s t : State} (hp : s.powered = true) (hc : adds c = true)
    (h1 : ∀ dt l k, c ≠ .powerOn dt l k) (h2 : ∀ dt r k, c ≠ .restart dt r k) (h : exec c s = .next t) :
    State.Adds (s.elapse (dtOf c)) c t := by
  cases c
  case powerOn => exact absurd rfl (h1 _ _ _)
  case restart => exact absurd rfl (h2 _ _ _)
  case cartOpen dt req f =>
    simp only [exec, execCartOpen, State.run_powered hp] at h
    cases h
    rcases (s.elapse dt).unitRequest_cases req 1 22 (cartOpenBad f) (fun s =>
      match CartKind.ofCode f.kind with
      | some k => s.openCart req f k
      | none => s) with e | e
    · refine (congrArg (fun x : State => State.Adds (s.elapse dt) (.cartOpen dt req f) x) e).mpr ?_
      split
      · unfold State.openCart
        split
        · exact .plain (State.answer_moves .refl _ _ _ _ _)
        · split
          · exact .plain (State.answer_moves .refl _ _ _ _ _)
          · exact .version dt req f rfl _ (State.answer_moves .refl _ _ _ _ _)
      · exact .plain .refl
    · exact .plain e
  case cartData dt req cart off p =>
    simp only [exec, execCartData, State.run_powered hp] at h
    cases h
    rcases (s.elapse dt).unitRequest_cases req 2 (10 + p.length) (cartDataBad cart p) (fun s => s.loadData req cart off p) with e | e
    · refine (congrArg (fun x : State => State.Adds (s.elapse dt) (.cartData dt req cart off p) x) e).mpr ?_
      unfold State.loadData
      split
      · exact .plain (State.answer_moves .refl _ _ _ _ _)
      · split
        · exact .plain (State.pump_moves (State.answer_moves (State.failLoad_moves .refl _ _) _ _ _ _ _))
        · split
          · exact .plain (State.answer_moves .refl _ _ _ _ _)
          · rename_i v _ _ _
            exact State.Adds.payload ((s.elapse dt).store.accept v off p) (Store.modVersion_fixed _ _ _ _ fun _ => rfl) rfl (State.pump_moves (State.answer_moves .refl _ _ _ _ _))
    · exact .plain e
  case entryAdd dt req f =>
    simp only [exec, execEntryAdd, State.run_powered hp] at h
    cases h
    rcases (s.elapse dt).feedRequest_cases req 5 28 (fun o => !(s.elapse dt).isFollow o && entryAddBad f) (fun o s => s.addEntry req f o) with ⟨o, e⟩ | e
    · refine (congrArg (fun x : State => State.Adds (s.elapse dt) (.entryAdd dt req f) x) e).mpr ?_
      unfold State.addEntry
      split
      · exact .plain (State.answer_moves .refl _ _ _ _ _)
      · split
        · split
          · exact .plain (State.answer_moves .refl _ _ _ _ _)
          · exact .entry dt req f rfl o _ (insertAt_sublist _ _ _)
              (State.finish_moves (State.displace_moves (State.answer_moves .refl _ _ _ _ _) _ _) (Nat.le_refl _))
        · exact .plain .refl
    · exact .plain e
  case spotsSet dt req f =>
    simp only [exec, execSpotsSet, State.run_powered hp] at h
    cases h
    rcases (s.elapse dt).feedRequest_cases req 7 (14 + 5 * f.spots.length) (fun _ => spotsBad f) (fun o s => s.setSpots req f o) with ⟨o, e⟩ | e
    · refine (congrArg (fun x : State => State.Adds (s.elapse dt) (.spotsSet dt req f) x) e).mpr ?_
      unfold State.setSpots
      split
      · exact .plain (State.answer_moves .refl _ _ _ _ _)
      · exact .spots o _ (State.answer_moves .refl _ _ _ _ _)
    · exact .plain e
  case captureClear dt req cls =>
    simp only [exec, execCaptureClear, State.run_powered hp] at h
    cases h
    rcases (s.elapse dt).unitRequest_cases req 14 1 (FaultClass.ofCode cls).isNone (fun s => s.clearSlot req cls) with e | e
    · refine (congrArg (fun x : State => State.Adds (s.elapse dt) (.captureClear dt req cls) x) e).mpr ?_
      unfold State.clearSlot
      split
      · rename_i k hk
        exact .clear dt req cls rfl (State.answer_moves .refl _ _ _ _ _) k
      · exact .plain .refl
    · exact .plain e
  all_goals cases hc

/-! ### Pages (R106) -/

theorem takePages_count (l : List PageRun) (k p : Nat) :
    (takePages l k).1.countP (PageRun.has p) + (takePages l k).2.countP (PageRun.has p) = l.countP (PageRun.has p) := by
  induction l generalizing k with
  | nil => cases k <;> rfl
  | cons r t ih =>
    cases k with
    | zero => simp [takePages]
    | succ k =>
      unfold takePages
      split
      · have := ih (k + 1 - r.n)
        simp only [List.countP_cons] at this ⊢
        omega
      · simp only [List.countP_cons, List.countP_nil, PageRun.has, Bool.and_eq_true, decide_eq_true_eq]
        split <;> split <;> split <;> omega

theorem takePages_size (l : List PageRun) (k : Nat) (h : k ≤ runsCount l) : runsCount (takePages l k).1 = k := by
  induction l generalizing k with
  | nil =>
    cases k with
    | zero => rfl
    | succ k => simp [runsCount] at h
  | cons r t ih =>
    cases k with
    | zero => simp [takePages, runsCount]
    | succ k =>
      simp only [runsCount, List.map_cons, List.sum_cons] at h ih ⊢
      unfold takePages
      split
      · have := ih (k + 1 - r.n) (by omega)
        simp only [List.map_cons, List.sum_cons]
        omega
      · simp

theorem givePages_size (c l : List PageRun) : runsCount (givePages c l) = runsCount c + runsCount l := by
  have h2 : ∀ (r : PageRun) (m : List PageRun), runsCount (consRun r m) = r.n + runsCount m := by
    intro r m
    cases m with
    | nil => simp [consRun, runsCount]
    | cons q t =>
      rw [show consRun r (q :: t) = if r.lo + r.n = q.lo then { lo := r.lo, n := r.n + q.n } :: t else r :: q :: t from rfl]
      split
      · simp only [runsCount, List.map_cons, List.sum_cons]
        omega
      · rfl
  have h1 : ∀ (r : PageRun) (m : List PageRun), runsCount (giveRun r m) = r.n + runsCount m := by
    intro r m
    induction m with
    | nil => simp [giveRun, runsCount]
    | cons q t ih =>
      unfold giveRun
      split
      · exact h2 r (q :: t)
      · rw [h2, ih]
        simp only [runsCount, List.map_cons, List.sum_cons]
        omega
  unfold givePages
  induction c with
  | nil => simp [runsCount]
  | cons r t ih =>
    rw [List.foldr_cons, h1, ih]
    simp only [runsCount, List.map_cons, List.sum_cons]
    omega

theorem Store.append_paged {st m : Store} (h : st.Paged) (hk : st.Kept m) (f : CartFields) (kind : CartKind) (role : Role)
    {n : Nat} (hfresh : ∀ v ∈ st.versions, v.key ≠ (f.cart, n)) (hsz : pagesFor f.len ≤ runsCount m.free) :
    ({ m with
      free := (takePages m.free (pagesFor f.len)).2, serialCounter := n
      versions := m.versions ++ [newVersion f kind n role (takePages m.free (pagesFor f.len)).1] } : Store).Paged := by
  have hn := Store.keys_of_sublist hk.versions h.1
  refine ⟨?_, ?_, fun p => ?_⟩
  · rw [List.map_append]
    refine List.nodup_append.2 ⟨hn, by simp, fun a ha b hb' e => ?_⟩
    subst e
    simp only [List.map_cons, List.map_nil, List.mem_singleton] at hb'
    have h4 : a ∈ st.versions.map Version.key := by
      rw [Store.keys_eq] at ha ⊢
      exact (hk.versions.map _).subset ha
    obtain ⟨v, hv, e⟩ := List.mem_map.1 h4
    exact hfresh v hv (e.trans hb')
  · intro v hv
    rcases List.mem_append.1 hv with hv | hv
    · obtain ⟨w, hw, e⟩ := List.mem_map.1 (hk.versions.subset (List.mem_map_of_mem hv))
      simp only [Version.fixed, Prod.mk.injEq] at e
      rw [← e.2.2.2.1, ← e.2.2.2.2.2.2.2.2]
      exact h.2.1 w hw
    · simp only [List.mem_singleton] at hv
      subst hv
      exact takePages_size _ _ hsz
  · rw [← h.2.2 p, ← hk.pages h.1 p]
    simp only [Store.holders, List.map_append, List.map_cons, List.map_nil, List.sum_append, List.sum_cons, List.sum_nil]
    have := takePages_count m.free (pagesFor f.len) p
    have e : (newVersion f kind n role (takePages m.free (pagesFor f.len)).1).chain = (takePages m.free (pagesFor f.len)).1 := rfl
    rw [e]
    omega

theorem Store.openVersion_paged {st : Store} (h : st.Paged) (f : CartFields) (kind : CartKind)
    (hb : st.openBusy f.cart = false) (hf : st.openFull f.cart f.len = false) : (st.openVersion f kind).2.2.Paged := by
  have hfresh := Store.newSerial_fresh (Store.openBusy_one hb)
  unfold Store.openFull at hf
  simp only [Bool.or_eq_false_iff, decide_eq_false_iff_not, not_le, not_lt] at hf
  unfold Store.openVersion
  dsimp only
  cases hr : st.replaced f.cart with
  | none =>
    rw [hr] at hf
    exact Store.append_paged h (.refl _) f kind _ hfresh (by simpa using hf.1)
  | some v =>
    rw [hr] at hf
    obtain ⟨hv, h0⟩ := Store.replaced_is hr
    refine Store.append_paged h ((Store.Kept.refl st).freeVersion _ _) f kind _ hfresh ?_
    unfold Store.freeVersion
    split
    · rename_i e
      exact absurd (List.find?_eq_none.mp e v hv) (by simp [Version.is])
    · rename_i w e
      obtain ⟨hw, e1, e2⟩ := Store.find_is e
      have : w = v := List.inj_on_of_nodup_map h.1 hw hv (by simp [Version.key, e1, e2])
      subst this
      rw [if_pos h0]
      have h3 := hf.1
      simp only [Option.map_some, Option.getD_some] at h3
      simp only [givePages_size]
      omega

end Sys2Proof.Machine
end

