-- ==== Sys2Proof/Laws/State.lean ====
section
/-! SUPPORT. One lemma for each field and update: what an update leaves of the state, and what passing time leaves. -/

namespace Sys2Proof.Machine

/-! ### `State.setOut` -/

@[simp] theorem State.setOut_pending (s : State) (o : OutletId) (x : Outlet) : (s.setOut o x).pending = s.pending := rfl
@[simp] theorem State.setOut_powered (s : State) (o : OutletId) (x : Outlet) : (s.setOut o x).powered = s.powered := rfl
@[simp] theorem State.setOut_configMemory (s : State) (o : OutletId) (x : Outlet) : (s.setOut o x).configMemory = s.configMemory := rfl
@[simp] theorem State.setOut_cfg (s : State) (o : OutletId) (x : Outlet) : (s.setOut o x).cfg = s.cfg := rfl
@[simp] theorem State.setOut_linkAddress (s : State) (o : OutletId) (x : Outlet) : (s.setOut o x).linkAddress = s.linkAddress := rfl
@[simp] theorem State.setOut_isolated (s : State) (o : OutletId) (x : Outlet) : (s.setOut o x).isolated = s.isolated := rfl
@[simp] theorem State.setOut_boot (s : State) (o : OutletId) (x : Outlet) : (s.setOut o x).boot = s.boot := rfl
@[simp] theorem State.setOut_clock (s : State) (o : OutletId) (x : Outlet) : (s.setOut o x).clock = s.clock := rfl
@[simp] theorem State.setOut_listenSince (s : State) (o : OutletId) (x : Outlet) : (s.setOut o x).listenSince = s.listenSince := rfl
@[simp] theorem State.setOut_beaconSince (s : State) (o : OutletId) (x : Outlet) : (s.setOut o x).beaconSince = s.beaconSince := rfl
@[simp] theorem State.setOut_peers (s : State) (o : OutletId) (x : Outlet) : (s.setOut o x).peers = s.peers := rfl
@[simp] theorem State.setOut_disc (s : State) (o : OutletId) (x : Outlet) : (s.setOut o x).disc = s.disc := rfl
@[simp] theorem State.setOut_store (s : State) (o : OutletId) (x : Outlet) : (s.setOut o x).store = s.store := rfl
@[simp] theorem State.setOut_voices (s : State) (o : OutletId) (x : Outlet) : (s.setOut o x).voices = s.voices := rfl
@[simp] theorem State.setOut_voiceQueue (s : State) (o : OutletId) (x : Outlet) : (s.setOut o x).voiceQueue = s.voiceQueue := rfl
@[simp] theorem State.setOut_transfer (s : State) (o : OutletId) (x : Outlet) : (s.setOut o x).transfer = s.transfer := rfl
@[simp] theorem State.setOut_lines (s : State) (o : OutletId) (x : Outlet) : (s.setOut o x).lines = s.lines := rfl
@[simp] theorem State.setOut_log (s : State) (o : OutletId) (x : Outlet) : (s.setOut o x).log = s.log := rfl
@[simp] theorem State.setOut_captures (s : State) (o : OutletId) (x : Outlet) : (s.setOut o x).captures = s.captures := rfl
@[simp] theorem State.setOut_sent (s : State) (o : OutletId) (x : Outlet) : (s.setOut o x).sent = s.sent := rfl
@[simp] theorem State.setOut_freeCount (s : State) (o : OutletId) (x : Outlet) : (s.setOut o x).freeCount = s.freeCount := rfl
@[simp] theorem State.setOut_horizon (s : State) (o : OutletId) (x : Outlet) : (s.setOut o x).horizon = s.horizon := rfl

/-! ### `State.modOut` -/

@[simp] theorem State.modOut_pending (s : State) (o : OutletId) (f : Outlet → Outlet) : (s.modOut o f).pending = s.pending := rfl
@[simp] theorem State.modOut_powered (s : State) (o : OutletId) (f : Outlet → Outlet) : (s.modOut o f).powered = s.powered := rfl
@[simp] theorem State.modOut_configMemory (s : State) (o : OutletId) (f : Outlet → Outlet) : (s.modOut o f).configMemory = s.configMemory := rfl
@[simp] theorem State.modOut_cfg (s : State) (o : OutletId) (f : Outlet → Outlet) : (s.modOut o f).cfg = s.cfg := rfl
@[simp] theorem State.modOut_linkAddress (s : State) (o : OutletId) (f : Outlet → Outlet) : (s.modOut o f).linkAddress = s.linkAddress := rfl
@[simp] theorem State.modOut_isolated (s : State) (o : OutletId) (f : Outlet → Outlet) : (s.modOut o f).isolated = s.isolated := rfl
@[simp] theorem State.modOut_boot (s : State) (o : OutletId) (f : Outlet → Outlet) : (s.modOut o f).boot = s.boot := rfl
@[simp] theorem State.modOut_clock (s : State) (o : OutletId) (f : Outlet → Outlet) : (s.modOut o f).clock = s.clock := rfl
@[simp] theorem State.modOut_listenSince (s : State) (o : OutletId) (f : Outlet → Outlet) : (s.modOut o f).listenSince = s.listenSince := rfl
@[simp] theorem State.modOut_beaconSince (s : State) (o : OutletId) (f : Outlet → Outlet) : (s.modOut o f).beaconSince = s.beaconSince := rfl
@[simp] theorem State.modOut_peers (s : State) (o : OutletId) (f : Outlet → Outlet) : (s.modOut o f).peers = s.peers := rfl
@[simp] theorem State.modOut_disc (s : State) (o : OutletId) (f : Outlet → Outlet) : (s.modOut o f).disc = s.disc := rfl
@[simp] theorem State.modOut_store (s : State) (o : OutletId) (f : Outlet → Outlet) : (s.modOut o f).store = s.store := rfl
@[simp] theorem State.modOut_voices (s : State) (o : OutletId) (f : Outlet → Outlet) : (s.modOut o f).voices = s.voices := rfl
@[simp] theorem State.modOut_voiceQueue (s : State) (o : OutletId) (f : Outlet → Outlet) : (s.modOut o f).voiceQueue = s.voiceQueue := rfl
@[simp] theorem State.modOut_transfer (s : State) (o : OutletId) (f : Outlet → Outlet) : (s.modOut o f).transfer = s.transfer := rfl
@[simp] theorem State.modOut_lines (s : State) (o : OutletId) (f : Outlet → Outlet) : (s.modOut o f).lines = s.lines := rfl
@[simp] theorem State.modOut_log (s : State) (o : OutletId) (f : Outlet → Outlet) : (s.modOut o f).log = s.log := rfl
@[simp] theorem State.modOut_captures (s : State) (o : OutletId) (f : Outlet → Outlet) : (s.modOut o f).captures = s.captures := rfl
@[simp] theorem State.modOut_sent (s : State) (o : OutletId) (f : Outlet → Outlet) : (s.modOut o f).sent = s.sent := rfl
@[simp] theorem State.modOut_freeCount (s : State) (o : OutletId) (f : Outlet → Outlet) : (s.modOut o f).freeCount = s.freeCount := rfl
@[simp] theorem State.modOut_horizon (s : State) (o : OutletId) (f : Outlet → Outlet) : (s.modOut o f).horizon = s.horizon := rfl

/-! ### `State.setVoice` -/

@[simp] theorem State.setVoice_pending (s : State) (i : Nat) (u : Option VoiceUse) : (s.setVoice i u).pending = s.pending := rfl
@[simp] theorem State.setVoice_powered (s : State) (i : Nat) (u : Option VoiceUse) : (s.setVoice i u).powered = s.powered := rfl
@[simp] theorem State.setVoice_configMemory (s : State) (i : Nat) (u : Option VoiceUse) : (s.setVoice i u).configMemory = s.configMemory := rfl
@[simp] theorem State.setVoice_cfg (s : State) (i : Nat) (u : Option VoiceUse) : (s.setVoice i u).cfg = s.cfg := rfl
@[simp] theorem State.setVoice_linkAddress (s : State) (i : Nat) (u : Option VoiceUse) : (s.setVoice i u).linkAddress = s.linkAddress := rfl
@[simp] theorem State.setVoice_isolated (s : State) (i : Nat) (u : Option VoiceUse) : (s.setVoice i u).isolated = s.isolated := rfl
@[simp] theorem State.setVoice_boot (s : State) (i : Nat) (u : Option VoiceUse) : (s.setVoice i u).boot = s.boot := rfl
@[simp] theorem State.setVoice_clock (s : State) (i : Nat) (u : Option VoiceUse) : (s.setVoice i u).clock = s.clock := rfl
@[simp] theorem State.setVoice_listenSince (s : State) (i : Nat) (u : Option VoiceUse) : (s.setVoice i u).listenSince = s.listenSince := rfl
@[simp] theorem State.setVoice_beaconSince (s : State) (i : Nat) (u : Option VoiceUse) : (s.setVoice i u).beaconSince = s.beaconSince := rfl
@[simp] theorem State.setVoice_peers (s : State) (i : Nat) (u : Option VoiceUse) : (s.setVoice i u).peers = s.peers := rfl
@[simp] theorem State.setVoice_disc (s : State) (i : Nat) (u : Option VoiceUse) : (s.setVoice i u).disc = s.disc := rfl
@[simp] theorem State.setVoice_store (s : State) (i : Nat) (u : Option VoiceUse) : (s.setVoice i u).store = s.store := rfl
@[simp] theorem State.setVoice_voiceQueue (s : State) (i : Nat) (u : Option VoiceUse) : (s.setVoice i u).voiceQueue = s.voiceQueue := rfl
@[simp] theorem State.setVoice_transfer (s : State) (i : Nat) (u : Option VoiceUse) : (s.setVoice i u).transfer = s.transfer := rfl
@[simp] theorem State.setVoice_outlets (s : State) (i : Nat) (u : Option VoiceUse) : (s.setVoice i u).outlets = s.outlets := rfl
@[simp] theorem State.setVoice_lines (s : State) (i : Nat) (u : Option VoiceUse) : (s.setVoice i u).lines = s.lines := rfl
@[simp] theorem State.setVoice_log (s : State) (i : Nat) (u : Option VoiceUse) : (s.setVoice i u).log = s.log := rfl
@[simp] theorem State.setVoice_captures (s : State) (i : Nat) (u : Option VoiceUse) : (s.setVoice i u).captures = s.captures := rfl
@[simp] theorem State.setVoice_sent (s : State) (i : Nat) (u : Option VoiceUse) : (s.setVoice i u).sent = s.sent := rfl
@[simp] theorem State.setVoice_freeCount (s : State) (i : Nat) (u : Option VoiceUse) : (s.setVoice i u).freeCount = s.freeCount := rfl
@[simp] theorem State.setVoice_horizon (s : State) (i : Nat) (u : Option VoiceUse) : (s.setVoice i u).horizon = s.horizon := rfl

/-! ### `State.modVoice` -/

@[simp] theorem State.modVoice_pending (s : State) (i : Nat) (f : VoiceUse → VoiceUse) : (s.modVoice i f).pending = s.pending := rfl
@[simp] theorem State.modVoice_powered (s : State) (i : Nat) (f : VoiceUse → VoiceUse) : (s.modVoice i f).powered = s.powered := rfl
@[simp] theorem State.modVoice_configMemory (s : State) (i : Nat) (f : VoiceUse → VoiceUse) : (s.modVoice i f).configMemory = s.configMemory := rfl
@[simp] theorem State.modVoice_cfg (s : State) (i : Nat) (f : VoiceUse → VoiceUse) : (s.modVoice i f).cfg = s.cfg := rfl
@[simp] theorem State.modVoice_linkAddress (s : State) (i : Nat) (f : VoiceUse → VoiceUse) : (s.modVoice i f).linkAddress = s.linkAddress := rfl
@[simp] theorem State.modVoice_isolated (s : State) (i : Nat) (f : VoiceUse → VoiceUse) : (s.modVoice i f).isolated = s.isolated := rfl
@[simp] theorem State.modVoice_boot (s : State) (i : Nat) (f : VoiceUse → VoiceUse) : (s.modVoice i f).boot = s.boot := rfl
@[simp] theorem State.modVoice_clock (s : State) (i : Nat) (f : VoiceUse → VoiceUse) : (s.modVoice i f).clock = s.clock := rfl
@[simp] theorem State.modVoice_listenSince (s : State) (i : Nat) (f : VoiceUse → VoiceUse) : (s.modVoice i f).listenSince = s.listenSince := rfl
@[simp] theorem State.modVoice_beaconSince (s : State) (i : Nat) (f : VoiceUse → VoiceUse) : (s.modVoice i f).beaconSince = s.beaconSince := rfl
@[simp] theorem State.modVoice_peers (s : State) (i : Nat) (f : VoiceUse → VoiceUse) : (s.modVoice i f).peers = s.peers := rfl
@[simp] theorem State.modVoice_disc (s : State) (i : Nat) (f : VoiceUse → VoiceUse) : (s.modVoice i f).disc = s.disc := rfl
@[simp] theorem State.modVoice_store (s : State) (i : Nat) (f : VoiceUse → VoiceUse) : (s.modVoice i f).store = s.store := rfl
@[simp] theorem State.modVoice_voiceQueue (s : State) (i : Nat) (f : VoiceUse → VoiceUse) : (s.modVoice i f).voiceQueue = s.voiceQueue := rfl
@[simp] theorem State.modVoice_transfer (s : State) (i : Nat) (f : VoiceUse → VoiceUse) : (s.modVoice i f).transfer = s.transfer := rfl
@[simp] theorem State.modVoice_outlets (s : State) (i : Nat) (f : VoiceUse → VoiceUse) : (s.modVoice i f).outlets = s.outlets := rfl
@[simp] theorem State.modVoice_lines (s : State) (i : Nat) (f : VoiceUse → VoiceUse) : (s.modVoice i f).lines = s.lines := rfl
@[simp] theorem State.modVoice_log (s : State) (i : Nat) (f : VoiceUse → VoiceUse) : (s.modVoice i f).log = s.log := rfl
@[simp] theorem State.modVoice_captures (s : State) (i : Nat) (f : VoiceUse → VoiceUse) : (s.modVoice i f).captures = s.captures := rfl
@[simp] theorem State.modVoice_sent (s : State) (i : Nat) (f : VoiceUse → VoiceUse) : (s.modVoice i f).sent = s.sent := rfl
@[simp] theorem State.modVoice_freeCount (s : State) (i : Nat) (f : VoiceUse → VoiceUse) : (s.modVoice i f).freeCount = s.freeCount := rfl
@[simp] theorem State.modVoice_horizon (s : State) (i : Nat) (f : VoiceUse → VoiceUse) : (s.modVoice i f).horizon = s.horizon := rfl

/-! ### `State.modLine` -/

@[simp] theorem State.modLine_pending (s : State) (n : Nat) (f : FireLine → FireLine) : (s.modLine n f).pending = s.pending := rfl
@[simp] theorem State.modLine_powered (s : State) (n : Nat) (f : FireLine → FireLine) : (s.modLine n f).powered = s.powered := rfl
@[simp] theorem State.modLine_configMemory (s : State) (n : Nat) (f : FireLine → FireLine) : (s.modLine n f).configMemory = s.configMemory := rfl
@[simp] theorem State.modLine_cfg (s : State) (n : Nat) (f : FireLine → FireLine) : (s.modLine n f).cfg = s.cfg := rfl
@[simp] theorem State.modLine_linkAddress (s : State) (n : Nat) (f : FireLine → FireLine) : (s.modLine n f).linkAddress = s.linkAddress := rfl
@[simp] theorem State.modLine_isolated (s : State) (n : Nat) (f : FireLine → FireLine) : (s.modLine n f).isolated = s.isolated := rfl
@[simp] theorem State.modLine_boot (s : State) (n : Nat) (f : FireLine → FireLine) : (s.modLine n f).boot = s.boot := rfl
@[simp] theorem State.modLine_clock (s : State) (n : Nat) (f : FireLine → FireLine) : (s.modLine n f).clock = s.clock := rfl
@[simp] theorem State.modLine_listenSince (s : State) (n : Nat) (f : FireLine → FireLine) : (s.modLine n f).listenSince = s.listenSince := rfl
@[simp] theorem State.modLine_beaconSince (s : State) (n : Nat) (f : FireLine → FireLine) : (s.modLine n f).beaconSince = s.beaconSince := rfl
@[simp] theorem State.modLine_peers (s : State) (n : Nat) (f : FireLine → FireLine) : (s.modLine n f).peers = s.peers := rfl
@[simp] theorem State.modLine_disc (s : State) (n : Nat) (f : FireLine → FireLine) : (s.modLine n f).disc = s.disc := rfl
@[simp] theorem State.modLine_store (s : State) (n : Nat) (f : FireLine → FireLine) : (s.modLine n f).store = s.store := rfl
@[simp] theorem State.modLine_voices (s : State) (n : Nat) (f : FireLine → FireLine) : (s.modLine n f).voices = s.voices := rfl
@[simp] theorem State.modLine_voiceQueue (s : State) (n : Nat) (f : FireLine → FireLine) : (s.modLine n f).voiceQueue = s.voiceQueue := rfl
@[simp] theorem State.modLine_transfer (s : State) (n : Nat) (f : FireLine → FireLine) : (s.modLine n f).transfer = s.transfer := rfl
@[simp] theorem State.modLine_outlets (s : State) (n : Nat) (f : FireLine → FireLine) : (s.modLine n f).outlets = s.outlets := rfl
@[simp] theorem State.modLine_log (s : State) (n : Nat) (f : FireLine → FireLine) : (s.modLine n f).log = s.log := rfl
@[simp] theorem State.modLine_captures (s : State) (n : Nat) (f : FireLine → FireLine) : (s.modLine n f).captures = s.captures := rfl
@[simp] theorem State.modLine_sent (s : State) (n : Nat) (f : FireLine → FireLine) : (s.modLine n f).sent = s.sent := rfl
@[simp] theorem State.modLine_freeCount (s : State) (n : Nat) (f : FireLine → FireLine) : (s.modLine n f).freeCount = s.freeCount := rfl
@[simp] theorem State.modLine_horizon (s : State) (n : Nat) (f : FireLine → FireLine) : (s.modLine n f).horizon = s.horizon := rfl

/-! ### `State.latch` -/

@[simp] theorem State.latch_pending (s : State) (f : FaultInfo) : (s.latch f).pending = s.pending := rfl
@[simp] theorem State.latch_powered (s : State) (f : FaultInfo) : (s.latch f).powered = s.powered := rfl
@[simp] theorem State.latch_configMemory (s : State) (f : FaultInfo) : (s.latch f).configMemory = s.configMemory := rfl
@[simp] theorem State.latch_cfg (s : State) (f : FaultInfo) : (s.latch f).cfg = s.cfg := rfl
@[simp] theorem State.latch_linkAddress (s : State) (f : FaultInfo) : (s.latch f).linkAddress = s.linkAddress := rfl
@[simp] theorem State.latch_isolated (s : State) (f : FaultInfo) : (s.latch f).isolated = s.isolated := rfl
@[simp] theorem State.latch_boot (s : State) (f : FaultInfo) : (s.latch f).boot = s.boot := rfl
@[simp] theorem State.latch_clock (s : State) (f : FaultInfo) : (s.latch f).clock = s.clock := rfl
@[simp] theorem State.latch_listenSince (s : State) (f : FaultInfo) : (s.latch f).listenSince = s.listenSince := rfl
@[simp] theorem State.latch_beaconSince (s : State) (f : FaultInfo) : (s.latch f).beaconSince = s.beaconSince := rfl
@[simp] theorem State.latch_peers (s : State) (f : FaultInfo) : (s.latch f).peers = s.peers := rfl
@[simp] theorem State.latch_disc (s : State) (f : FaultInfo) : (s.latch f).disc = s.disc := rfl
@[simp] theorem State.latch_store (s : State) (f : FaultInfo) : (s.latch f).store = s.store := rfl
@[simp] theorem State.latch_voices (s : State) (f : FaultInfo) : (s.latch f).voices = s.voices := rfl
@[simp] theorem State.latch_voiceQueue (s : State) (f : FaultInfo) : (s.latch f).voiceQueue = s.voiceQueue := rfl
@[simp] theorem State.latch_transfer (s : State) (f : FaultInfo) : (s.latch f).transfer = s.transfer := rfl
@[simp] theorem State.latch_outlets (s : State) (f : FaultInfo) : (s.latch f).outlets = s.outlets := rfl
@[simp] theorem State.latch_lines (s : State) (f : FaultInfo) : (s.latch f).lines = s.lines := rfl
@[simp] theorem State.latch_log (s : State) (f : FaultInfo) : (s.latch f).log = s.log := rfl
@[simp] theorem State.latch_sent (s : State) (f : FaultInfo) : (s.latch f).sent = s.sent := rfl
@[simp] theorem State.latch_freeCount (s : State) (f : FaultInfo) : (s.latch f).freeCount = s.freeCount := rfl
@[simp] theorem State.latch_horizon (s : State) (f : FaultInfo) : (s.latch f).horizon = s.horizon := rfl

/-! ### `State.corrected` -/

@[simp] theorem State.corrected_pending (s : State) (n : Nat) : (s.corrected n).pending = s.pending := rfl
@[simp] theorem State.corrected_powered (s : State) (n : Nat) : (s.corrected n).powered = s.powered := rfl
@[simp] theorem State.corrected_configMemory (s : State) (n : Nat) : (s.corrected n).configMemory = s.configMemory := rfl
@[simp] theorem State.corrected_cfg (s : State) (n : Nat) : (s.corrected n).cfg = s.cfg := rfl
@[simp] theorem State.corrected_linkAddress (s : State) (n : Nat) : (s.corrected n).linkAddress = s.linkAddress := rfl
@[simp] theorem State.corrected_isolated (s : State) (n : Nat) : (s.corrected n).isolated = s.isolated := rfl
@[simp] theorem State.corrected_boot (s : State) (n : Nat) : (s.corrected n).boot = s.boot := rfl
@[simp] theorem State.corrected_clock (s : State) (n : Nat) : (s.corrected n).clock = s.clock := rfl
@[simp] theorem State.corrected_listenSince (s : State) (n : Nat) : (s.corrected n).listenSince = s.listenSince := rfl
@[simp] theorem State.corrected_beaconSince (s : State) (n : Nat) : (s.corrected n).beaconSince = s.beaconSince := rfl
@[simp] theorem State.corrected_peers (s : State) (n : Nat) : (s.corrected n).peers = s.peers := rfl
@[simp] theorem State.corrected_disc (s : State) (n : Nat) : (s.corrected n).disc = s.disc := rfl
@[simp] theorem State.corrected_store (s : State) (n : Nat) : (s.corrected n).store = s.store := rfl
@[simp] theorem State.corrected_voices (s : State) (n : Nat) : (s.corrected n).voices = s.voices := rfl
@[simp] theorem State.corrected_voiceQueue (s : State) (n : Nat) : (s.corrected n).voiceQueue = s.voiceQueue := rfl
@[simp] theorem State.corrected_transfer (s : State) (n : Nat) : (s.corrected n).transfer = s.transfer := rfl
@[simp] theorem State.corrected_outlets (s : State) (n : Nat) : (s.corrected n).outlets = s.outlets := rfl
@[simp] theorem State.corrected_lines (s : State) (n : Nat) : (s.corrected n).lines = s.lines := rfl
@[simp] theorem State.corrected_log (s : State) (n : Nat) : (s.corrected n).log = s.log := rfl
@[simp] theorem State.corrected_sent (s : State) (n : Nat) : (s.corrected n).sent = s.sent := rfl
@[simp] theorem State.corrected_freeCount (s : State) (n : Nat) : (s.corrected n).freeCount = s.freeCount := rfl
@[simp] theorem State.corrected_horizon (s : State) (n : Nat) : (s.corrected n).horizon = s.horizon := rfl

/-! ### Sending -/

@[simp] theorem State.send_pending (s : State) (b : FrameBody) : (s.send b).pending = s.pending :=
  s.send_eq b State.pending fun _ _ => rfl
@[simp] theorem State.send_powered (s : State) (b : FrameBody) : (s.send b).powered = s.powered :=
  s.send_eq b State.powered fun _ _ => rfl
@[simp] theorem State.send_configMemory (s : State) (b : FrameBody) : (s.send b).configMemory = s.configMemory :=
  s.send_eq b State.configMemory fun _ _ => rfl
@[simp] theorem State.send_cfg (s : State) (b : FrameBody) : (s.send b).cfg = s.cfg :=
  s.send_eq b State.cfg fun _ _ => rfl
@[simp] theorem State.send_linkAddress (s : State) (b : FrameBody) : (s.send b).linkAddress = s.linkAddress :=
  s.send_eq b State.linkAddress fun _ _ => rfl
@[simp] theorem State.send_isolated (s : State) (b : FrameBody) : (s.send b).isolated = s.isolated :=
  s.send_eq b State.isolated fun _ _ => rfl
@[simp] theorem State.send_boot (s : State) (b : FrameBody) : (s.send b).boot = s.boot :=
  s.send_eq b State.boot fun _ _ => rfl
@[simp] theorem State.send_clock (s : State) (b : FrameBody) : (s.send b).clock = s.clock :=
  s.send_eq b State.clock fun _ _ => rfl
@[simp] theorem State.send_listenSince (s : State) (b : FrameBody) : (s.send b).listenSince = s.listenSince :=
  s.send_eq b State.listenSince fun _ _ => rfl
@[simp] theorem State.send_beaconSince (s : State) (b : FrameBody) : (s.send b).beaconSince = s.beaconSince :=
  s.send_eq b State.beaconSince fun _ _ => rfl
@[simp] theorem State.send_peers (s : State) (b : FrameBody) : (s.send b).peers = s.peers :=
  s.send_eq b State.peers fun _ _ => rfl
@[simp] theorem State.send_disc (s : State) (b : FrameBody) : (s.send b).disc = s.disc :=
  s.send_eq b State.disc fun _ _ => rfl
@[simp] theorem State.send_store (s : State) (b : FrameBody) : (s.send b).store = s.store :=
  s.send_eq b State.store fun _ _ => rfl
@[simp] theorem State.send_voices (s : State) (b : FrameBody) : (s.send b).voices = s.voices :=
  s.send_eq b State.voices fun _ _ => rfl
@[simp] theorem State.send_voiceQueue (s : State) (b : FrameBody) : (s.send b).voiceQueue = s.voiceQueue :=
  s.send_eq b State.voiceQueue fun _ _ => rfl
@[simp] theorem State.send_transfer (s : State) (b : FrameBody) : (s.send b).transfer = s.transfer :=
  s.send_eq b State.transfer fun _ _ => rfl
@[simp] theorem State.send_outlets (s : State) (b : FrameBody) : (s.send b).outlets = s.outlets :=
  s.send_eq b State.outlets fun _ _ => rfl
@[simp] theorem State.send_lines (s : State) (b : FrameBody) : (s.send b).lines = s.lines :=
  s.send_eq b State.lines fun _ _ => rfl
@[simp] theorem State.send_log (s : State) (b : FrameBody) : (s.send b).log = s.log :=
  s.send_eq b State.log fun _ _ => rfl
@[simp] theorem State.send_captures (s : State) (b : FrameBody) : (s.send b).captures = s.captures :=
  s.send_eq b State.captures fun _ _ => rfl
@[simp] theorem State.send_freeCount (s : State) (b : FrameBody) : (s.send b).freeCount = s.freeCount :=
  s.send_eq b State.freeCount fun _ _ => rfl
@[simp] theorem State.send_horizon (s : State) (b : FrameBody) : (s.send b).horizon = s.horizon :=
  s.send_eq b State.horizon fun _ _ => rfl

theorem State.send_open {s : State} (h : s.isolated = false) (b : FrameBody) : s.send b = s.sends b := by
  unfold State.send
  rw [if_neg (by simp [h])]
  rfl

theorem State.answer_open {s : State} (h : s.isolated = false) (req : RequestHead) (kind : Nat) (o : Option OutletId) (r : ResultCode)
    (f : AnswerFields) : s.answer req kind o r f = s.answers req kind o r f := State.send_open h _

/-! ### Time passing -/

@[simp] theorem State.elapse_pending (s : State) (n : Nat) : (s.elapse n).pending = s.pending := by
  unfold State.elapse
  split <;> rfl
@[simp] theorem State.elapse_powered (s : State) (n : Nat) : (s.elapse n).powered = s.powered := by
  unfold State.elapse
  split <;> rfl
@[simp] theorem State.elapse_configMemory (s : State) (n : Nat) : (s.elapse n).configMemory = s.configMemory := by
  unfold State.elapse
  split <;> rfl
@[simp] theorem State.elapse_cfg (s : State) (n : Nat) : (s.elapse n).cfg = s.cfg := by
  unfold State.elapse
  split <;> rfl
@[simp] theorem State.elapse_linkAddress (s : State) (n : Nat) : (s.elapse n).linkAddress = s.linkAddress := by
  unfold State.elapse
  split <;> rfl
@[simp] theorem State.elapse_isolated (s : State) (n : Nat) : (s.elapse n).isolated = s.isolated := by
  unfold State.elapse
  split <;> rfl
@[simp] theorem State.elapse_boot (s : State) (n : Nat) : (s.elapse n).boot = s.boot := by
  unfold State.elapse
  split <;> rfl
@[simp] theorem State.elapse_listenSince (s : State) (n : Nat) : (s.elapse n).listenSince = s.listenSince := by
  unfold State.elapse
  split <;> rfl
@[simp] theorem State.elapse_beaconSince (s : State) (n : Nat) : (s.elapse n).beaconSince = s.beaconSince := by
  unfold State.elapse
  split <;> rfl
@[simp] theorem State.elapse_peers (s : State) (n : Nat) : (s.elapse n).peers = s.peers := by
  unfold State.elapse
  split <;> rfl
@[simp] theorem State.elapse_store (s : State) (n : Nat) : (s.elapse n).store = s.store := by
  unfold State.elapse
  split <;> rfl
@[simp] theorem State.elapse_voiceQueue (s : State) (n : Nat) : (s.elapse n).voiceQueue = s.voiceQueue := by
  unfold State.elapse
  split <;> rfl
@[simp] theorem State.elapse_transfer (s : State) (n : Nat) : (s.elapse n).transfer = s.transfer := by
  unfold State.elapse
  split <;> rfl
@[simp] theorem State.elapse_lines (s : State) (n : Nat) : (s.elapse n).lines = s.lines := by
  unfold State.elapse
  split <;> rfl
@[simp] theorem State.elapse_log (s : State) (n : Nat) : (s.elapse n).log = s.log := by
  unfold State.elapse
  split <;> rfl
@[simp] theorem State.elapse_captures (s : State) (n : Nat) : (s.elapse n).captures = s.captures := by
  unfold State.elapse
  split <;> rfl
@[simp] theorem State.elapse_sent (s : State) (n : Nat) : (s.elapse n).sent = s.sent := by
  unfold State.elapse
  split <;> rfl
@[simp] theorem State.elapse_freeCount (s : State) (n : Nat) : (s.elapse n).freeCount = s.freeCount := by
  unfold State.elapse
  split <;> rfl
@[simp] theorem State.elapse_horizon (s : State) (n : Nat) : (s.elapse n).horizon = s.horizon := by
  unfold State.elapse
  split <;> rfl

@[simp] theorem State.elapse_clock (s : State) (n : Nat) : (s.elapse n).clock = s.clock + n := by
  unfold State.elapse
  split
  · rename_i e
    rw [e]
    rfl
  · rfl

theorem State.elapse_disc (s : State) (n : Nat) :
    (s.elapse n).disc =
      { s.disc with
        groupTime := s.disc.groupTime.map fun t => t + (n : Int)
        candidate := s.disc.candidate.map fun c => (c.1 + (n : Int), c.2) } := by
  unfold State.elapse
  split
  · rename_i e
    subst e
    cases h : s.disc with
    | mk a b c d g k => cases g <;> cases k <;> simp
  · rfl

theorem State.elapse_out (s : State) (n : Nat) (o : OutletId) :
    (s.elapse n).out o = if n = 0 then s.out o else s.elapseOutlet n o (s.out o) := by
  unfold State.elapse
  split
  · rfl
  · cases o <;> rfl

@[simp] theorem State.elapse_out_air (s : State) (n : Nat) (o : OutletId) : ((s.elapse n).out o).air = (s.out o).air := by
  rw [State.elapse_out]
  split
  · rfl
  · unfold State.elapseOutlet
    dsimp only
    split <;> rfl
@[simp] theorem State.elapse_out_yielding (s : State) (n : Nat) (o : OutletId) : ((s.elapse n).out o).yielding = (s.out o).yielding := by
  rw [State.elapse_out]
  split
  · rfl
  · unfold State.elapseOutlet
    dsimp only
    split <;> rfl
@[simp] theorem State.elapse_out_claimSince (s : State) (n : Nat) (o : OutletId) : ((s.elapse n).out o).claimSince = (s.out o).claimSince := by
  rw [State.elapse_out]
  split
  · rfl
  · unfold State.elapseOutlet
    dsimp only
    split <;> rfl
@[simp] theorem State.elapse_out_silenceSince (s : State) (n : Nat) (o : OutletId) : ((s.elapse n).out o).silenceSince = (s.out o).silenceSince := by
  rw [State.elapse_out]
  split
  · rfl
  · unfold State.elapseOutlet
    dsimp only
    split <;> rfl
@[simp] theorem State.elapse_out_view (s : State) (n : Nat) (o : OutletId) : ((s.elapse n).out o).view = (s.out o).view := by
  rw [State.elapse_out]
  split
  · rfl
  · unfold State.elapseOutlet
    dsimp only
    split <;> rfl
@[simp] theorem State.elapse_out_heard (s : State) (n : Nat) (o : OutletId) : ((s.elapse n).out o).heard = (s.out o).heard := by
  rw [State.elapse_out]
  split
  · rfl
  · unfold State.elapseOutlet
    dsimp only
    split <;> rfl
@[simp] theorem State.elapse_out_passed (s : State) (n : Nat) (o : OutletId) : ((s.elapse n).out o).passed = (s.out o).passed := by
  rw [State.elapse_out]
  split
  · rfl
  · unfold State.elapseOutlet
    dsimp only
    split <;> rfl
@[simp] theorem State.elapse_out_handBack (s : State) (n : Nat) (o : OutletId) : ((s.elapse n).out o).handBack = (s.out o).handBack := by
  rw [State.elapse_out]
  split
  · rfl
  · unfold State.elapseOutlet
    dsimp only
    split <;> rfl
@[simp] theorem State.elapse_out_entries (s : State) (n : Nat) (o : OutletId) : ((s.elapse n).out o).entries = (s.out o).entries := by
  rw [State.elapse_out]
  split
  · rfl
  · unfold State.elapseOutlet
    dsimp only
    split <;> rfl
@[simp] theorem State.elapse_out_seqSlot (s : State) (n : Nat) (o : OutletId) : ((s.elapse n).out o).seqSlot = (s.out o).seqSlot := by
  rw [State.elapse_out]
  split
  · rfl
  · unfold State.elapseOutlet
    dsimp only
    split <;> rfl
@[simp] theorem State.elapse_out_anchorSlot (s : State) (n : Nat) (o : OutletId) : ((s.elapse n).out o).anchorSlot = (s.out o).anchorSlot := by
  rw [State.elapse_out]
  split
  · rfl
  · unfold State.elapseOutlet
    dsimp only
    split <;> rfl
@[simp] theorem State.elapse_out_airOrder (s : State) (n : Nat) (o : OutletId) : ((s.elapse n).out o).airOrder = (s.out o).airOrder := by
  rw [State.elapse_out]
  split
  · rfl
  · unfold State.elapseOutlet
    dsimp only
    split <;> rfl
@[simp] theorem State.elapse_out_inherit (s : State) (n : Nat) (o : OutletId) : ((s.elapse n).out o).inherit = (s.out o).inherit := by
  rw [State.elapse_out]
  split
  · rfl
  · unfold State.elapseOutlet
    dsimp only
    split <;> rfl
@[simp] theorem State.elapse_out_spots (s : State) (n : Nat) (o : OutletId) : ((s.elapse n).out o).spots = (s.out o).spots := by
  rw [State.elapse_out]
  split
  · rfl
  · unfold State.elapseOutlet
    dsimp only
    split <;> rfl
@[simp] theorem State.elapse_out_fills (s : State) (n : Nat) (o : OutletId) : ((s.elapse n).out o).fills = (s.out o).fills := by
  rw [State.elapse_out]
  split
  · rfl
  · unfold State.elapseOutlet
    dsimp only
    split <;> rfl
@[simp] theorem State.elapse_out_bed (s : State) (n : Nat) (o : OutletId) : ((s.elapse n).out o).bed = (s.out o).bed := by
  rw [State.elapse_out]
  split
  · rfl
  · unfold State.elapseOutlet
    dsimp only
    split <;> rfl
@[simp] theorem State.elapse_out_place1 (s : State) (n : Nat) (o : OutletId) : ((s.elapse n).out o).place1 = (s.out o).place1 := by
  rw [State.elapse_out]
  split
  · rfl
  · unfold State.elapseOutlet
    dsimp only
    split <;> rfl
@[simp] theorem State.elapse_out_place2 (s : State) (n : Nat) (o : OutletId) : ((s.elapse n).out o).place2 = (s.out o).place2 := by
  rw [State.elapse_out]
  split
  · rfl
  · unfold State.elapseOutlet
    dsimp only
    split <;> rfl
@[simp] theorem State.elapse_out_declined (s : State) (n : Nat) (o : OutletId) : ((s.elapse n).out o).declined = (s.out o).declined := by
  rw [State.elapse_out]
  split
  · rfl
  · unfold State.elapseOutlet
    dsimp only
    split <;> rfl
@[simp] theorem State.elapse_out_cuePhase (s : State) (n : Nat) (o : OutletId) : ((s.elapse n).out o).cuePhase = (s.out o).cuePhase := by
  rw [State.elapse_out]
  split
  · rfl
  · unfold State.elapseOutlet
    dsimp only
    split <;> rfl
@[simp] theorem State.elapse_out_clip (s : State) (n : Nat) (o : OutletId) : ((s.elapse n).out o).clip = (s.out o).clip := by
  rw [State.elapse_out]
  split
  · rfl
  · unfold State.elapseOutlet
    dsimp only
    split <;> rfl
@[simp] theorem State.elapse_out_periods (s : State) (n : Nat) (o : OutletId) : ((s.elapse n).out o).periods = (s.out o).periods := by
  rw [State.elapse_out]
  split
  · rfl
  · unfold State.elapseOutlet
    dsimp only
    split <;> rfl
@[simp] theorem State.elapse_out_periodCount (s : State) (n : Nat) (o : OutletId) : ((s.elapse n).out o).periodCount = (s.out o).periodCount := by
  rw [State.elapse_out]
  split
  · rfl
  · unfold State.elapseOutlet
    dsimp only
    split <;> rfl
@[simp] theorem State.elapse_out_history (s : State) (n : Nat) (o : OutletId) : ((s.elapse n).out o).history = (s.out o).history := by
  rw [State.elapse_out]
  split
  · rfl
  · unfold State.elapseOutlet
    dsimp only
    split <;> rfl
@[simp] theorem State.elapse_out_openBlock (s : State) (n : Nat) (o : OutletId) : ((s.elapse n).out o).openBlock = (s.out o).openBlock := by
  rw [State.elapse_out]
  split
  · rfl
  · unfold State.elapseOutlet
    dsimp only
    split <;> rfl
@[simp] theorem State.elapse_out_echo (s : State) (n : Nat) (o : OutletId) : ((s.elapse n).out o).echo = (s.out o).echo := by
  rw [State.elapse_out]
  split
  · rfl
  · unfold State.elapseOutlet
    dsimp only
    split <;> rfl
@[simp] theorem State.elapse_out_mismatchRun (s : State) (n : Nat) (o : OutletId) : ((s.elapse n).out o).mismatchRun = (s.out o).mismatchRun := by
  rw [State.elapse_out]
  split
  · rfl
  · unfold State.elapseOutlet
    dsimp only
    split <;> rfl
@[simp] theorem State.elapse_out_tallies (s : State) (n : Nat) (o : OutletId) : ((s.elapse n).out o).tallies = (s.out o).tallies := by
  rw [State.elapse_out]
  split
  · rfl
  · unfold State.elapseOutlet
    dsimp only
    split <;> rfl
@[simp] theorem State.elapse_out_relay_state (s : State) (n : Nat) (o : OutletId) : ((s.elapse n).out o).relay.state = (s.out o).relay.state := by
  rw [State.elapse_out]
  split
  · rfl
  · unfold State.elapseOutlet
    dsimp only
    split <;> rfl
@[simp] theorem State.elapse_out_relay_buffer (s : State) (n : Nat) (o : OutletId) : ((s.elapse n).out o).relay.buffer = (s.out o).relay.buffer := by
  rw [State.elapse_out]
  split
  · rfl
  · unfold State.elapseOutlet
    dsimp only
    split <;> rfl
@[simp] theorem State.elapse_out_relay_missing (s : State) (n : Nat) (o : OutletId) : ((s.elapse n).out o).relay.missing = (s.out o).relay.missing := by
  rw [State.elapse_out]
  split
  · rfl
  · unfold State.elapseOutlet
    dsimp only
    split <;> rfl
@[simp] theorem State.elapse_out_relay_conceal (s : State) (n : Nat) (o : OutletId) : ((s.elapse n).out o).relay.conceal = (s.out o).relay.conceal := by
  rw [State.elapse_out]
  split
  · rfl
  · unfold State.elapseOutlet
    dsimp only
    split <;> rfl
@[simp] theorem State.elapse_out_relay_mult (s : State) (n : Nat) (o : OutletId) : ((s.elapse n).out o).relay.mult = (s.out o).relay.mult := by
  rw [State.elapse_out]
  split
  · rfl
  · unfold State.elapseOutlet
    dsimp only
    split <;> rfl
@[simp] theorem State.elapse_out_relay_slot (s : State) (n : Nat) (o : OutletId) : ((s.elapse n).out o).relay.slot = (s.out o).relay.slot := by
  rw [State.elapse_out]
  split
  · rfl
  · unfold State.elapseOutlet
    dsimp only
    split <;> rfl
@[simp] theorem State.elapse_out_relay_lastSender (s : State) (n : Nat) (o : OutletId) : ((s.elapse n).out o).relay.lastSender = (s.out o).relay.lastSender := by
  rw [State.elapse_out]
  split
  · rfl
  · unfold State.elapseOutlet
    dsimp only
    split <;> rfl

@[simp] theorem State.elapse_ocfg (s : State) (n : Nat) (o : OutletId) : (s.elapse n).ocfg o = s.ocfg o := by
  simp only [State.ocfg, State.elapse_cfg]

@[simp] theorem State.elapse_isFollow (s : State) (n : Nat) (o : OutletId) : (s.elapse n).isFollow o = s.isFollow o := by
  simp only [State.isFollow, State.elapse_ocfg]

@[simp] theorem State.elapse_isSelf (s : State) (n : Nat) (o : OutletId) : (s.elapse n).isSelf o = s.isSelf o := by
  simp only [State.isSelf, State.elapse_ocfg]

@[simp] theorem State.elapse_outletOf (s : State) (n feed : Nat) : (s.elapse n).outletOf feed = s.outletOf feed := by
  simp only [State.outletOf, State.elapse_ocfg, State.elapse_out_air]

@[simp] theorem State.elapse_unitGate (s : State) (n : Nat) (req : RequestHead) : (s.elapse n).unitGate req = s.unitGate req := by
  unfold State.unitGate State.judgesRequest State.takesFrame State.soundHead
  rw [State.elapse_isolated, State.elapse_cfg, State.elapse_linkAddress]

@[simp] theorem State.elapse_feedGate (s : State) (n : Nat) (req : RequestHead) : (s.elapse n).feedGate req = s.feedGate req := by
  unfold State.feedGate State.judgesRequest State.takesFrame State.soundHead
  rw [State.elapse_isolated, State.elapse_cfg, State.elapse_linkAddress]
  simp only [State.elapse_outletOf]

@[simp] theorem State.elapse_takesFrame (s : State) (n : Nat) (h : FrameHead) (k : Nat) :
    (s.elapse n).takesFrame h k = s.takesFrame h k := by
  simp only [State.takesFrame, State.soundHead, State.elapse_cfg, State.elapse_linkAddress]

@[simp] theorem State.elapse_soundHead (s : State) (n : Nat) (h : FrameHead) (k : Nat) :
    (s.elapse n).soundHead h k = s.soundHead h k := by
  simp only [State.soundHead, State.elapse_linkAddress]

@[simp] theorem State.elapse_line (s : State) (n k : Nat) : (s.elapse n).line k = s.line k := by
  simp only [State.line, State.elapse_lines]

@[simp] theorem State.elapse_lineCfg (s : State) (n k : Nat) : (s.elapse n).lineCfg k = s.lineCfg k := by
  simp only [State.lineCfg, State.elapse_cfg]

/-! ### Outlets -/

@[simp] theorem State.setOut_out (s : State) (o : OutletId) (x : Outlet) : (s.setOut o x).out o = x := by
  rw [State.out_setOut, if_pos rfl]

theorem State.setOut_out_ne (s : State) {o p : OutletId} (h : p ≠ o) (x : Outlet) : (s.setOut o x).out p = s.out p := by
  rw [State.out_setOut, if_neg h]

@[simp] theorem State.modOut_out (s : State) (o : OutletId) (f : Outlet → Outlet) : (s.modOut o f).out o = f (s.out o) :=
  State.setOut_out _ _ _

theorem State.modOut_out_ne (s : State) {o p : OutletId} (h : p ≠ o) (f : Outlet → Outlet) : (s.modOut o f).out p = s.out p :=
  State.setOut_out_ne _ h _

/-! ### The end of a command -/

theorem State.settleLoop_rests {s : State} (h : s.Rests) (n : Nat) : State.settleLoop n s = s := by
  cases n with
  | zero => rfl
  | succ n =>
    unfold State.settleLoop
    rw [h]

theorem State.settle_quiet {s : State} (h : s.Quiet) : s.settle = s := by
  unfold State.settle
  rw [State.settleLoop_rests h.1]
  have hi := h.2.1
  have ha := hi .a
  have hb := hi .b
  have hc := hi .c
  have hd := hi .d
  cases s with
  | mk a1 a2 a3 a4 a5 a6 a7 a8 a9 a10 a11 a12 a13 a14 a15 a16 q a18 a19 a20 a21 a22 a23 =>
    cases q with
    | mk xa xb xc xd =>
      cases xa; cases xb; cases xc; cases xd
      simp only [State.out, Quad.get] at ha hb hc hd
      subst ha
      subst hb
      subst hc
      subst hd
      rfl

theorem State.pump_quiet {s : State} (h : s.Quiet) : s.pump = s := by
  unfold State.pump
  rcases h.2.2 with e | e
  · rw [if_pos e]
  · split
    · rfl
    · rw [e]

theorem State.numbered_same {s a : State} (h : s.log.next = a.log.next) : s.numbered a = s := if_pos h

/-- Where nothing comes about by itself the end of a command gives the records their numbers and no more. -/
theorem State.finish_quiet {s : State} (h : s.Quiet) (a : State) : s.finish a = s.numbered a := by
  unfold State.finish
  rw [State.settle_quiet h, State.pump_quiet h]

/-- Nothing is changed by the end of a command that wrote no record, where nothing comes about by itself. -/
theorem State.finish_same {s a : State} (h : s.Quiet) (hn : s.log.next = a.log.next) : s.finish a = s :=
  (State.finish_quiet h a).trans (State.numbered_same hn)

end Sys2Proof.Machine
end

