-- ==== Sys2Proof/Tests/Slice0.lean ====
section
/-! SUPPORT. Tests: ill-formed commands refused by `Instr.wf`, frames written out byte by byte, one small step for each command, and for each
statement of Sys2Proof/Certificates/Slice0/Obligations.lean a state and operands that meet its hypotheses. Expected values are worked out by
hand from the rule named. -/

namespace Sys2Proof.Tests

set_option Elab.async false

open Sys2Proof Sys2Proof.Machine

/-! ### Helpers -/

/-- What the command leaves meets a condition. -/
def after (c : Instr) (s : State) (p : State → Bool) : Bool :=
  match exec c s with
  | .next t => p t
  | _ => false

theorem eachOutlet {P : OutletId → Prop} (a : P .a) (b : P .b) (c : P .c) (d : P .d) : ∀ o, P o
  | .a => a
  | .b => b
  | .c => c
  | .d => d

theorem eachPlace {P : Place → Prop} (a : P .first) (b : P .second) : ∀ o, P o
  | .first => a
  | .second => b

theorem eachClass {P : FaultClass → Prop} (a : P .store) (b : P .fetch) (c : P .request) (d : P .air) (e : P .clock) : ∀ k, P k
  | .store => a
  | .fetch => b
  | .request => c
  | .air => d
  | .clock => e

/-- Node 5 with a SELF outlet A of feed 10, a FOLLOW outlet B of feed 20 that follows feed 30, reference feed 40, station 1 and one line. -/
def cfg : UnitCfg :=
  { nodeId := 5, refFeed := 40, stations := [1],
    outlets :=
      ⟨{ enabled := true, valid := true, mode := some .self, feed := 10, followFeed := 0, rank := 1, fallbackCart := some 90 },
       { enabled := true, valid := true, mode := some .follow, feed := 20, followFeed := 30, rank := 2, fallbackCart := none },
       .disabled, .disabled⟩,
    lines := { enabled := true, outlet := .a, cart := 7 } :: List.replicate 7 { enabled := false, outlet := .a, cart := 0 } }

/-- A running unit with its first two outlets as given, at sample 100,000 and group time 960,000. -/
def unit (a b : Outlet) : State :=
  { State.reset with
    powered := true, cfg := cfg, linkAddress := 100, clock := 100000, beaconSince := 100000,
    disc := { ClockDiscipline.reset with state := .tracking, groupTime := some 960000 },
    voices := poolFor cfg, outlets := ⟨a, b, .reset, .reset⟩ }

/-- An outlet in an air state. -/
def inAir (k : Air) : Outlet := { Outlet.reset with air := k, silenceSince := 100000, claimSince := 100000 }

/-- The unit with both outlets in STANDBY. -/
def quiet : State := unit (inAir .standby) (inAir .standby)

/-- The header of a frame from node 9. -/
def head (n : Nat) : FrameHead := { link := 7, mark := 0xE410, sender := 9, sentAt := 960000, bodyLen := n }

/-- A request from station 1 with `n` bytes of fields. -/
def request (addr : Addressing) (n : Nat) : RequestHead :=
  { head := { head (12 + n) with sender := 1 }, tag := 77, addr := addr }

/-- A request to the unit by mask, and one to outlet A by its feed. -/
def toUnit (n : Nat) : RequestHead := request (.unitMask 32) n
def toFeed (n : Nat) : RequestHead := request (.feed 10) n
def toFollow (n : Nat) : RequestHead := request (.feed 20) n

/-- A version of a cart. -/
def version (cart serial : Nat) (kind : CartKind) (len : Nat) (k : VersionState) (r : Role) : Version :=
  { cart := cart, serial := serial, kind := kind, len := len, inCue := 0, outCue := len, trim := 0, check := 0, state := k, role := r,
    useCount := 0, chain := [{ lo := serial, n := 1 }], received := 6 * len, written := 6 * len, closeTag := none }

/-- A READY song of 4,800 samples. -/
def song : Version := version 7 1 .song 4800 .ready .current

/-- A queued ITEM entry. -/
def item (tag cart : Nat) (mode : StartMode) : Entry :=
  { tag := tag, kind := .item cart, mode := mode, fade := false, trim := 0, state := .queued, start := .whenPrimed, planned := none,
    serial := none, lost := false, air := .empty }

/-- A voice of outlet A on the song. -/
def voice (k : VoiceState) (h : Holder) : VoiceUse :=
  { freshUse .a h song 0 false 0 with state := k, mult := .steady 16384 }

/-- The unit with a store of some versions. -/
def holding (s : State) (l : List Version) : State := { s with store := { Store.reset with versions := l } }

/-- The unit with what its first voice holds. -/
def sounding (s : State) (u : VoiceUse) : State := s.setVoice 0 (some u)

/-! ### Ill-formed commands (R178 to R182, R191) -/

def goodAudio : AudioBody :=
  { feed := 10, letter := 0, rank := 1, fallback := false, yielding := false, frameTime := 960000, leadTag := 0, entryOffset := 0,
    breakTag := 0, breakOffset := 0, samples := List.replicate 48 { l := 0, r := 0 } }

def goodBlock : OutletBlock :=
  { letter := 0, feed := 10, mode := 1, air := 4, rank := 1, leadTag := 0, meter := -1200, silence := 0, clip := 0, cue := none, echo := none }

def goodBeacon : BeaconBody :=
  { role := 1, boot := 1, timeSet := true, groupTime := 960000, clockState := 2, trim := 0, mask := 0, blocks := [goodBlock] }

def goodCue : CueBody := { feed := 30, tag := 4, start := 984000, len := 48000, cancel := 0 }

def goodCart : CartFields := { cart := 7, kind := 1, len := 4800, inCue := 0, outCue := 4800, trim := 0, check := 0 }

def goodEntry : EntryFields :=
  { tag := 2, kind := 1, ref := 7, len := 0, mode := 1, time := none, fade := none, trim := none, position := 1, reference := 0 }

def goodSpots : SpotFields := { tag := 4, opener := none, closer := none, spots := [(7, 1)] }

theorem test_wf_accepts :
    [Instr.audioFrame 0 (head 314) goodAudio 0, .beaconReceived 0 (head 57) goodBeacon, .cueFrame 0 (head 16) goodCue,
      .claimFrame 0 (head 2) { feed := 10, rank := 1 }, .releaseFrame 0 (head 2) { feed := 10, successor := 0 },
      .cartOpen 0 (toUnit 22) goodCart, .cartData 0 (toUnit 11) 7 0 [1], .entryAdd 0 (toFeed 28) goodEntry,
      .spotsSet 0 (toFeed 19) goodSpots, .fillsSet 0 (toFeed 10) (some 7) [7], .logRead 0 (toUnit 5) 1 16,
      .powerOn 0 7 (List.replicate 96 0), .unknownRequest 0 (toUnit 0) 16, .tapCompletion 0 .a 4800 0].all Instr.wf = true := by
  decide +kernel

theorem test_wf_refuses_headers :
    [Instr.claimFrame 0 { head 2 with link := 2 ^ 48 } { feed := 10, rank := 1 },
      .claimFrame 0 { head 2 with mark := 65536 } { feed := 10, rank := 1 }, .claimFrame 0 { head 2 with sender := 256 } { feed := 10, rank := 1 },
      .claimFrame 0 { head 2 with sentAt := -1 } { feed := 10, rank := 1 },
      .claimFrame 0 { head 2 with sentAt := 2 ^ 48 } { feed := 10, rank := 1 }, .claimFrame 0 (head 3) { feed := 10, rank := 1 }].all
        (fun c => !c.wf) = true := by
  decide +kernel

theorem test_wf_refuses_audio :
    [{ goodAudio with feed := 256 }, { goodAudio with letter := 256 }, { goodAudio with rank := 256 }, { goodAudio with frameTime := -48 },
      { goodAudio with leadTag := 2 ^ 32 }, { goodAudio with entryOffset := -1 }, { goodAudio with entryOffset := 2 ^ 32 },
      { goodAudio with breakTag := 2 ^ 32 }, { goodAudio with breakOffset := -1 }, { goodAudio with samples := [] },
      { goodAudio with samples := List.replicate 48 { l := 8388608, r := 0 } },
      { goodAudio with samples := List.replicate 48 { l := 0, r := -8388609 } }].all
        (fun b => !(Instr.audioFrame 0 (head 314) b 0).wf) = true ∧ (Instr.audioFrame 0 (head 314) goodAudio 2048).wf = false := by
  decide +kernel

theorem test_wf_refuses_beacons :
    ([{ goodBeacon with role := 256 }, { goodBeacon with boot := 256 }, { goodBeacon with groupTime := -1 }, { goodBeacon with clockState := 256 },
      { goodBeacon with trim := 32768 }, { goodBeacon with mask := 256 }] ++
        [{ goodBlock with letter := 256 }, { goodBlock with feed := 256 }, { goodBlock with mode := 256 }, { goodBlock with air := 256 },
          { goodBlock with rank := 256 }, { goodBlock with leadTag := 2 ^ 32 }, { goodBlock with meter := -32769 },
          { goodBlock with silence := 256 }, { goodBlock with clip := 2 ^ 32 },
          { goodBlock with cue := some { tag := 2 ^ 32, start := 0, len := 0 } }, { goodBlock with cue := some { tag := 1, start := -1, len := 0 } },
          { goodBlock with cue := some { tag := 1, start := 0, len := 2 ^ 32 } },
          { goodBlock with echo := some { feed := 256, block := 0, check := none } },
          { goodBlock with echo := some { feed := 1, block := -1, check := none } }].map fun k => { goodBeacon with blocks := [k] }).all
        (fun b => !(Instr.beaconReceived 0 (head 57) b).wf) = true ∧
      (Instr.beaconReceived 0 (head (14 + 43 * 256)) { goodBeacon with blocks := List.replicate 256 goodBlock }).wf = false := by
  decide +kernel

theorem test_wf_refuses_feed_frames :
    (([{ goodCue with feed := 256 }, { goodCue with tag := 2 ^ 32 }, { goodCue with start := -1 }, { goodCue with len := 2 ^ 32 },
      { goodCue with cancel := 256 }].map (fun b => Instr.cueFrame 0 (head 16) b)) ++
      ([.claimFrame 0 (head 2) { feed := 256, rank := 0 }, .claimFrame 0 (head 2) { feed := 1, rank := 256 },
        .releaseFrame 0 (head 2) { feed := 256, successor := 0 }, .releaseFrame 0 (head 2) { feed := 1, successor := 256 }] : List Instr)).all
        (fun c => !c.wf) = true := by
  decide +kernel

theorem test_wf_refuses_requests :
    ([{ goodCart with cart := 2 ^ 32 }, { goodCart with kind := 256 }, { goodCart with len := 2 ^ 32 }, { goodCart with inCue := 2 ^ 32 },
      { goodCart with outCue := 2 ^ 32 }, { goodCart with trim := 128 }].map (fun f => Instr.cartOpen 0 (toUnit 22) f) ++
      [{ goodEntry with tag := 2 ^ 32 }, { goodEntry with kind := 256 }, { goodEntry with ref := 2 ^ 32 }, { goodEntry with len := 2 ^ 32 },
        { goodEntry with mode := 256 }, { goodEntry with time := some (-1) }, { goodEntry with fade := some 256 },
        { goodEntry with trim := some (-129) }, { goodEntry with position := 256 }, { goodEntry with reference := 2 ^ 32 }].map
        (fun f => Instr.entryAdd 0 (toFeed 28) f) ++
      [{ goodSpots with tag := 2 ^ 32 }, { goodSpots with opener := some (2 ^ 32) }, { goodSpots with closer := some (2 ^ 32) },
        { goodSpots with spots := [(2 ^ 32, 1)] }, { goodSpots with spots := [(1, 256)] }].map (fun f => Instr.spotsSet 0 (toFeed 19) f) ++
      ([.cartOpen 0 (toUnit 21) goodCart, .cartOpen 0 { toUnit 22 with tag := 65536 } goodCart,
        .cartOpen 0 (request (.unitMask (2 ^ 64)) 22) goodCart, .cartOpen 0 (request (.feed 256) 22) goodCart,
        .cartOpen 0 (request (.unknown 3) 22) goodCart, .spotsSet 0 (toFeed (14 + 5 * 256)) { goodSpots with spots := List.replicate 256 (7, 1) },
        .cartData 0 (toUnit 11) (2 ^ 32) 0 [1], .cartData 0 (toUnit 11) 7 (2 ^ 32) [1], .cartClose 0 (toUnit 4) (2 ^ 32),
        .cartDrop 0 (toUnit 4) (2 ^ 32), .entryRemove 0 (toFeed 4) (2 ^ 32), .spotsClear 0 (toFeed 4) (2 ^ 32),
        .fillsSet 0 (toFeed 10) (some (2 ^ 32)) [7], .fillsSet 0 (toFeed 10) none [2 ^ 32],
        .fillsSet 0 (toFeed (6 + 4 * 256)) none (List.replicate 256 7), .handBack 0 (toFeed 1), .resume 0 (toFeed 1),
        .logRead 0 (toUnit 5) (2 ^ 32) 1, .logRead 0 (toUnit 5) 1 256, .captureRead 0 (toUnit 1) 256, .captureClear 0 (toUnit 1) 256,
        .restart 0 (toUnit 1) (List.replicate 96 0), .restart 0 (toUnit 0) [], .unknownRequest 0 (toUnit 0) 15,
        .unknownRequest 0 (toUnit 0) 256, .unknownRequest 0 (request (.unknown 256) 0) 1, .unknownRequest 0 (request (.unknown 2) 0) 1] : List Instr)).all
        (fun c => !c.wf) = true := by
  decide +kernel

theorem test_wf_refuses_events :
    [Instr.powerOn 0 (2 ^ 48) (List.replicate 96 0), .powerOn 0 7 [], .peerStale 0 0, .peerStale 0 64, .peerRemoved 0 64, .softTimeReached 0 .a 0,
      .hardTimeReached 0 .a (2 ^ 32), .primingTransferComplete 0 { corrected := 769, uncorrectable := none },
      .refillComplete 0 { corrected := 0, uncorrectable := some 524288 }, .verifyReadComplete 0 { corrected := 769, uncorrectable := none },
      .tapCompletion 0 .a 4801 0, .tapCompletion 0 .a (-4800) 0].all (fun c => !c.wf) = true := by
  decide +kernel

/-! ### Frames written out byte by byte (R178, R181, R182, R184) -/

def arrival : Arrival := { dt := 0, link := 7, phase := 0, config := [] }

/-- A CLAIM frame of node 9, feed 10, rank 3, sent at group time 960,000 = 0xEA600. -/
theorem test_read_claim :
    readFrame arrival [0x10, 0xE4, 4, 9, 0x00, 0xA6, 0x0E, 0, 0, 0, 2, 0, 10, 3] = some (.claimFrame 0 (head 2) { feed := 10, rank := 3 }) := by
  decide +kernel

/-- A RELEASE frame naming node 12. -/
theorem test_read_release :
    readFrame arrival [0x10, 0xE4, 5, 9, 0x00, 0xA6, 0x0E, 0, 0, 0, 2, 0, 10, 12] =
      some (.releaseFrame 0 (head 2) { feed := 10, successor := 12 }) := by
  decide +kernel

/-- A CUE frame for tag 4, start 984,000 = 0xF03C0, L 48,000 = 0xBB80. -/
theorem test_read_cue :
    readFrame arrival
      [0x10, 0xE4, 3, 9, 0x00, 0xA6, 0x0E, 0, 0, 0, 16, 0, 30, 4, 0, 0, 0, 0xC0, 0x03, 0x0F, 0, 0, 0, 0x80, 0xBB, 0, 0, 0] =
      some (.cueFrame 0 (head 16) goodCue) := by
  decide +kernel

/-- A LOG_READ from station 1 to unit mask bit 5, from 1, count 16. -/
theorem test_read_log_read :
    readFrame arrival
      [0x10, 0xE4, 6, 1, 0x00, 0xA6, 0x0E, 0, 0, 0, 17, 0, 77, 0, 12, 1, 32, 0, 0, 0, 0, 0, 0, 0, 1, 0, 0, 0, 16] =
      some (.logRead 0 (toUnit 5) 1 16) := by
  decide +kernel

/-- A HAND_BACK by feed 10, and a request of kind 16. -/
theorem test_read_requests :
    readFrame arrival [0x10, 0xE4, 6, 1, 0x00, 0xA6, 0x0E, 0, 0, 0, 12, 0, 77, 0, 10, 2, 10, 0, 0, 0, 0, 0, 0, 0] =
        some (.handBack 0 (toFeed 0)) ∧
      readFrame arrival [0x10, 0xE4, 6, 1, 0x00, 0xA6, 0x0E, 0, 0, 0, 12, 0, 77, 0, 16, 1, 32, 0, 0, 0, 0, 0, 0, 0] =
        some (.unknownRequest 0 (toUnit 0) 16) := by
  decide +kernel

/-- A frame of 11 bytes, one of kind 8 and an ANSWER carry no command. -/
theorem test_read_none :
    readFrame arrival [0x10, 0xE4, 4, 9, 0, 0, 0, 0, 0, 0, 2] = none ∧ readFrame arrival [0x10, 0xE4, 8, 9, 0, 0, 0, 0, 0, 0, 0, 0] = none ∧
      readFrame arrival [0x10, 0xE4, 7, 9, 0, 0, 0, 0, 0, 0, 0, 0] = none := by
  decide +kernel

/-- The bytes of a CLAIM frame the unit sends (R178, R181). -/
theorem test_sent_claim :
    sentBytes { link := 100, sender := 5, sentAt := 960000, body := .claim { feed := 10, rank := 1 } } =
      [0x10, 0xE4, 4, 5, 0x00, 0xA6, 0x0E, 0, 0, 0, 2, 0, 10, 1] := by
  decide +kernel

/-- The check of the nine characters "123456789" (R184). -/
theorem test_crc : crc32 [0x31, 0x32, 0x33, 0x34, 0x35, 0x36, 0x37, 0x38, 0x39] = 0xCBF43926#32 := by decide +kernel

/-- No word of the opcode table spells a command: its rows give no bits. -/
theorem test_no_word : decodeTableWord 16 0 = none ∧ State.reset.withFetchWord 16 0 = State.reset := by decide +kernel

/-! ### The start, the link and the clock -/

/-- A record of node 5 with the outlets and the line of `cfg`, and its check value 0xA0762D20. -/
def record : List Byte :=
  ([17, 228, 5, 40, 1, 0, 0, 0] ++ [1, 1, 10, 0, 1, 90, 0, 0, 0] ++ [1, 2, 20, 30, 2, 0, 0, 0, 0] ++ List.replicate 18 0 ++
    [1, 0, 7, 0, 0, 0] ++ List.replicate 42 0) ++ [0x20, 0x2D, 0x76, 0xA0]

def firstAnswer (s : State) (k : Nat) (r : ResultCode) : Bool :=
  match s.sent.map SentFrame.body with
  | .answer a :: _ => a.kind == k && a.result == r && a.dest == 1 && a.tag == 77
  | _ => false

def captured (s : State) (k : FaultClass) (f : FaultKind) : Bool := ((s.captures.slot k).first.map FaultInfo.kind) == some f

set_option maxRecDepth 100000 in
theorem test_power_on_starts :
    after (.powerOn 0 7 record) State.reset (fun t =>
      t.cfg == cfg && !t.isolated && (t.out .a).air == .listening && (t.out .c).air == .dark && t.sent.length == 1 &&
        t.voices.map Voice.reserved == [some .a, some .a, some .b, some .b] ++ List.replicate 8 none) = true := by
  decide +kernel

set_option maxRecDepth 100000 in
/-- A record with a wrong check isolates the unit, which sends nothing (R192). -/
theorem test_power_on_isolates :
    after (.powerOn 0 7 (record.set 95 0)) State.reset (fun t => t.isolated && t.sent == [] && (t.out .a).air == .dark) = true := by
  decide +kernel

/-- At the listen time's end an unset group time becomes 0 and an outlet that has heard no owner claims (R84, R130). -/
theorem test_listen_time_end :
    after (.listenTimeEnd 10)
      { unit (inAir .listening) { inAir .listening with heard := true } with
        listenSince := some 52010, disc := ClockDiscipline.reset } (fun t =>
      t.disc.groupTime == some 0 && t.listenSince == none && (t.out .a).air == .claiming && (t.out .b).air == .standby &&
        t.sent.map SentFrame.body == [.claim { feed := 10, rank := 1 }]) = true := by
  decide +kernel

theorem test_listen_time_not_over :
    after (.listenTimeEnd 9) { unit (inAir .listening) (inAir .listening) with listenSince := some 52010 } (fun t =>
      t.listenSince == some 52010 && (t.out .a).air == .listening) = true := by
  decide +kernel

/-- A beacon after 4,800 samples, none a sample earlier (R185). -/
theorem test_beacon_send :
    after (.beaconSend 4800) quiet (fun t => t.sent.length == 1 && t.beaconSince == 104800) = true ∧
      after (.beaconSend 4799) quiet (fun t => t.sent == []) = true := by
  decide +kernel

theorem test_beacon_received_adds_a_peer :
    after (.beaconReceived 3 (head 186) goodBeacon) quiet (fun t =>
      t.peers ==
        [{ node := 9, isUnit := true, arrival := 100003, stale := false, summaries := [{ feed := 10, mode := 1, air := 4, rank := 1 }] }]) =
      true := by
  decide +kernel

/-- The unit's own node id from elsewhere isolates it (R145). -/
theorem test_beacon_received_isolates :
    after (.beaconReceived 0 { head 186 with sender := 5 } goodBeacon) quiet (fun t =>
      t.isolated && (t.out .a).air == .dark && t.peers == []) = true := by
  decide +kernel

def peer (node arrival : Nat) (stale : Bool) (feed air rank : Nat) : Peer :=
  { node := node, isUnit := true, arrival := arrival, stale := stale,
    summaries := [{ feed := feed, mode := if feed = 10 then 1 else 2, air := air, rank := rank }] }

/-- 14,400 samples after its beacon a peer is STALE, a sample earlier not (R187). -/
theorem test_peer_stale :
    after (.peerStale 400 9) { quiet with peers := [peer 9 86000 false 10 2 3] } (fun t => t.peers.map Peer.stale == [true]) = true ∧
      after (.peerStale 399 9) { quiet with peers := [peer 9 86000 false 10 2 3] } (fun t => t.peers.map Peer.stale == [false]) = true := by
  decide +kernel

theorem test_peer_removed :
    after (.peerRemoved 0 9) (({ quiet with peers := [peer 9 4000 true 10 2 3] } : State).setOut .a { inAir .standby with passed := [9] })
      (fun t => t.peers == [] && (t.out .a).passed == []) = true := by
  decide +kernel

/-- A frame of the outlet's feed is the owner view and restarts the silence timer of a STANDBY outlet (R128, R131). -/
theorem test_audio_frame_view :
    after (.audioFrame 20 (head 314) goodAudio 0) quiet (fun t =>
      (t.out .a).view.map OwnerView.node == some 9 && (t.out .a).silenceSince == 100020 && (t.out .a).heard) = true := by
  decide +kernel

/-- An ON_AIR outlet of rank 1 gives way to a sender of rank 0, with DOUBLE_AIR (R134). -/
theorem test_audio_frame_double_air :
    after (.audioFrame 0 (head 314) { goodAudio with rank := 0 } 0) (unit (inAir .onAir) (inAir .standby)) (fun t =>
      (t.out .a).air == .standby && captured t .air .doubleAir) = true := by
  decide +kernel

def song9 (cart len : Nat) (k : CartKind) : Version := { version cart cart k len .ready .current with chain := [{ lo := cart, n := 1 }] }

def spotList (tag : Nat) (l : List (Nat × SpotClass)) : SpotList := { tag := tag, opener := none, closer := none, spots := l }

/-- A FOLLOW outlet with a spot list for break 4 of one spot as long as the break. -/
def follower : State :=
  holding (quiet.setOut .b { inAir .standby with spots := [spotList 4 [(8, .must)]] }) [song9 8 48000 .spot]

/-- A cue exactly 24,000 samples ahead is fitted, one sample closer it is declined LATE_CUE (R50). -/
theorem test_cue_frame :
    after (.cueFrame 0 (head 16) goodCue) follower (fun t =>
      ((t.out .b).place1.map FittedBreak.len) == some 48000 && ((t.out .b).place1.bind FittedBreak.start) == some 984000) = true ∧
      after (.cueFrame 1 (head 16) goodCue) follower (fun t => (t.out .b).place1 == none && captured t .air .lateCue) = true := by
  decide +kernel

/-- A CLAIMING outlet gives up its claim to rank 0, not to rank 2 (R126, R133). -/
theorem test_claim_frame :
    after (.claimFrame 0 (head 2) { feed := 10, rank := 0 }) (unit (inAir .claiming) (inAir .standby)) (fun t => (t.out .a).air == .standby) =
        true ∧
      after (.claimFrame 0 (head 2) { feed := 10, rank := 2 }) (unit (inAir .claiming) (inAir .standby))
        (fun t => (t.out .a).air == .claiming) = true := by
  decide +kernel

/-- A RELEASE that names the unit puts the outlet ON_AIR, one that names nobody begins a claim (R131). -/
theorem test_release_frame :
    after (.releaseFrame 0 (head 2) { feed := 10, successor := 5 }) quiet (fun t => (t.out .a).air == .onAir) = true ∧
      after (.releaseFrame 0 (head 2) { feed := 10, successor := 0 }) quiet
        (fun t => (t.out .a).air == .claiming && t.sent.map SentFrame.body == [.claim { feed := 10, rank := 1 }]) = true := by
  decide +kernel

theorem test_owner_silence_expiry :
    after (.ownerSilenceExpiry 14400 .a) quiet (fun t => (t.out .a).air == .claiming) = true ∧
      after (.ownerSilenceExpiry 14399 .a) quiet (fun t => (t.out .a).air == .standby) = true := by
  decide +kernel

theorem test_claim_window_expiry :
    after (.claimWindowExpiry 2400 .a) (unit (inAir .claiming) (inAir .standby)) (fun t => (t.out .a).air == .onAir) = true ∧
      after (.claimWindowExpiry 2399 .a) (unit (inAir .claiming) (inAir .standby)) (fun t => (t.out .a).air == .claiming) = true := by
  decide +kernel

def yielding (cause : YieldCause) (fb : Bool) : Outlet :=
  { inAir .yielding with yielding := some { successor := 9, cause := cause, fromFallback := fb, since := 100000 } }

/-- A fault release that is not taken up passes its successor over, in FALLBACK; a hand-back leaves the outlet ON_AIR with TAKEOVER (R136). -/
theorem test_yield_timeout :
    after (.yieldTimeout 9600 .a) (unit (yielding .fault true) (inAir .standby))
        (fun t => (t.out .a).air == .fallback && (t.out .a).passed == [9]) = true ∧
      after (.yieldTimeout 9600 .a) (unit (yielding .handBack false) (inAir .standby))
        (fun t => (t.out .a).air == .onAir && captured t .air .takeover) = true := by
  decide +kernel

/-! ### Requests to the unit -/

/-- A 4,800-sample cart takes serial 1 and the lowest page, an out-cue past its end becomes its end (R107, R109, R112). -/
theorem test_cart_open :
    after (.cartOpen 0 (toUnit 22) { goodCart with outCue := 4801 }) quiet (fun t =>
      firstAnswer t 1 .ok && t.store.versions.map (fun v => (v.serial, v.outCue, v.chain, v.state)) ==
        [(1, 4800, [{ lo := 0, n := 1 }], .loading)]) = true := by
  decide +kernel

def loading : Version := { version 7 1 .song 4800 .loading .current with received := 0, written := 0 }

theorem test_cart_data :
    after (.cartData 0 (toUnit 12) 7 0 [1, 2]) (holding quiet [loading]) (fun t =>
      firstAnswer t 2 .ok && t.store.versions.map Version.received == [2]) = true ∧
      after (.cartData 0 (toUnit 12) 7 1 [1, 2]) (holding quiet [loading]) (fun t =>
        firstAnswer t 2 .sequence && t.store.versions == [] && captured t .request .loadSequence) = true := by
  decide +kernel

theorem test_cart_close :
    after (.cartClose 0 (toUnit 4) 7) (holding quiet [{ loading with received := 28800 }]) (fun t =>
      firstAnswer t 3 .ok && t.store.versions.map Version.state == [.verifying]) = true ∧
      after (.cartClose 0 (toUnit 4) 7) (holding quiet [{ loading with received := 28799 }]) (fun t =>
        firstAnswer t 3 .sequence) = true := by
  decide +kernel

theorem test_cart_drop :
    after (.cartDrop 0 (toUnit 4) 7) (holding quiet [{ song with useCount := 1 }]) (fun t =>
      firstAnswer t 4 .ok && t.store.versions.map (fun v => (v.state, v.role)) == [(.retiring, .superseded)]) = true ∧
      after (.cartDrop 0 (toUnit 4) 7) quiet (fun t => firstAnswer t 4 .notFound) = true := by
  decide +kernel

def record1 (n : Nat) : Record := { Record.blank .fill .aired with seq := n }

theorem test_log_read :
    after (.logRead 0 (toUnit 5) 2 1) { quiet with log := { records := [record1 1, record1 2, record1 3], next := 4, pending := [] } } (fun t =>
      t.sent.map SentFrame.body == [.answer
        { dest := 1, tag := 77, kind := 12, outlet := none, followUp := false, result := .ok, fields := .log (some 1) 4 [record1 2] }]) =
      true := by
  decide +kernel

def underruns : State := (quiet.latch (FaultInfo.bare .underrun)).latch (FaultInfo.bare .underrun)

theorem test_capture_read :
    after (.captureRead 0 (toUnit 1) 2) underruns (fun t => firstAnswer t 13 .ok && (t.captures.slot .fetch).lost == 1) = true ∧
      after (.captureRead 0 (toUnit 1) 6) underruns (fun t => firstAnswer t 13 .malformed && captured t .request .malformed) = true := by
  decide +kernel

theorem test_capture_clear :
    after (.captureClear 0 (toUnit 1) 2) underruns (fun t =>
      firstAnswer t 14 .ok && t.captures.slot .fetch == { first := none, lost := 0 }) = true := by
  decide +kernel

set_option maxRecDepth 100000 in
/-- RESTART releases the air it holds and starts afresh; the sample clock runs on (R194, R146). -/
theorem test_restart :
    after (.restart 5 (toUnit 0) record) (unit (inAir .onAir) (inAir .standby)) (fun t =>
      firstAnswer t 15 .ok && (t.sent.map SentFrame.body)[1]? == some (.release { feed := 10, successor := 0 }) &&
        (t.out .a).air == .listening && t.clock == 100005 && t.boot == .restartRequest) = true := by
  decide +kernel

theorem test_unknown_request :
    after (.unknownRequest 0 (toUnit 0) 16) quiet (fun t => firstAnswer t 16 .malformed && captured t .request .malformed) = true := by
  decide +kernel

/-! ### Requests to an outlet -/

/-- Three queued items after one that is on the air. -/
def onItem : Entry :=
  { item 1 7 .sequence with
    state := .onAir, serial := some 1, air := { EntryAir.empty with start := some 959000, sounding := true, sounded := true } }

def airing (l : List Entry) : Outlet := { inAir .onAir with entries := onItem :: l, airOrder := [1] }

/-- A SOFT time that has come is SEQUENCE (R5); position 3 puts the entry after its reference. -/
theorem test_entry_add :
    after (.entryAdd 0 (toFeed 28) { goodEntry with mode := 2, time := some 960000, position := 3, reference := 1 })
        (holding (unit (airing [item 3 7 (.hard 2000000)]) (inAir .standby)) [song]) (fun t =>
      firstAnswer t 5 .ok &&
        (t.out .a).entries.map (fun e => (e.tag, e.mode)) == [(1, .sequence), (2, .sequence), (3, .hard 2000000)]) = true ∧
      after (.entryAdd 0 (toFeed 28) { goodEntry with tag := 1 }) (unit (airing []) (inAir .standby)) (fun t =>
        firstAnswer t 5 .duplicate) = true := by
  decide +kernel

theorem test_entry_remove :
    after (.entryRemove 0 (toFeed 4) 3) (unit { inAir .listening with entries := [item 3 7 .sequence] } (inAir .standby)) (fun t =>
      firstAnswer t 6 .ok && (t.out .a).entries == [] && t.log.records.map Record.outcome == [.withdrawn]) = true ∧
      after (.entryRemove 0 (toFeed 4) 1) (unit (airing []) (inAir .standby)) (fun t => firstAnswer t 6 .inAir) = true := by
  decide +kernel

theorem test_spots_set :
    after (.spotsSet 0 (toFeed 19) goodSpots) quiet (fun t =>
      firstAnswer t 7 .ok && (t.out .a).spots == [spotList 4 [(7, .must)]]) = true ∧
      after (.spotsSet 0 (toFeed 99) { goodSpots with spots := List.replicate 17 (7, 1) }) quiet
        (fun t => firstAnswer t 7 .outOfRange) = true := by
  decide +kernel

theorem test_spots_clear :
    after (.spotsClear 0 (toFollow 4) 4) follower (fun t => firstAnswer t 8 .ok && (t.out .b).spots == []) = true ∧
      after (.spotsClear 0 (toFollow 4) 5) follower (fun t => firstAnswer t 8 .notFound) = true := by
  decide +kernel

theorem test_fills_set :
    after (.fillsSet 0 (toFeed 14) (some 6) [7, 8]) quiet (fun t =>
      firstAnswer t 9 .ok && (t.out .a).fills == [7, 8] && (t.out .a).bed == some 6) = true ∧
      after (.fillsSet 0 (toFeed 14) none [7, 7]) quiet (fun t => firstAnswer t 9 .duplicate) = true := by
  decide +kernel

/-- A hand-back to a better twin waits for the boundary; without one it is NOT_FOUND (R139). -/
theorem test_hand_back :
    after (.handBack 0 (toFeed 0)) { unit (inAir .onAir) (inAir .standby) with peers := [peer 9 99000 false 10 2 0] } (fun t =>
      firstAnswer t 10 .ok && (t.out .a).handBack) = true ∧
      after (.handBack 0 (toFeed 0)) { unit (inAir .onAir) (inAir .standby) with peers := [peer 9 99000 false 10 2 3] } (fun t =>
        firstAnswer t 10 .notFound) = true := by
  decide +kernel

theorem test_resume :
    after (.resume 0 (toFeed 0)) (unit (inAir .fallback) (inAir .standby)) (fun t =>
      firstAnswer t 11 .ok && (t.out .a).air == .onAir) = true ∧
      after (.resume 0 (toFeed 0)) quiet (fun t => firstAnswer t 11 .notFound) = true := by
  decide +kernel

/-! ### Fire lines -/

def pressed (k : LineState) (active : Bool) : State :=
  { holding (unit (inAir .onAir) (inAir .standby)) [song] with
    lines := { FireLine.reset with state := k, active := active, since := 99040 } :: List.replicate 7 .reset }

theorem test_fire_line_input :
    after (.fireLineInput 5 0 true) (pressed .idle false) (fun t => (t.line 0).state == .pressing && (t.line 0).since == 100005) = true ∧
      after (.fireLineInput 5 0 false) (pressed .pressing true) (fun t => (t.line 0).state == .idle) = true := by
  decide +kernel

/-- Pressed for 960 samples a line fires: the version primes on a voice set aside for the outlet, at its in-cue (R32, R33). -/
theorem test_fire_line_stable :
    after (.fireLineStable 0 0) (pressed .pressing true) (fun t =>
      (t.line 0).state == .held && (t.voice 0).map VoiceUse.holder == some (.line 0) && t.transfer.isSome) = true ∧
      after (.fireLineStable 0 0) { pressed .pressing true with store := .reset } (fun t =>
        (t.line 0).state == .held && t.log.records.map Record.outcome == [.refused]) = true := by
  decide +kernel

/-! ### Times of a running order -/

/-- An ITEM armed at the current group time, its voice PRIMED. -/
def armed (mode : StartMode) : Entry :=
  { item 2 7 mode with state := .armed, start := .time 960000, planned := some 960000, serial := some 1 }

def cued (x : Outlet) : State :=
  sounding (holding (unit x (inAir .standby)) [{ song with useCount := 1, trim := -6 }]) (voice .primed (.entry 2))

/-- 96,000 samples before its time a HARD entry arms in the anchor slot (R12), its request waiting while no voice is free. -/
theorem test_arm_time_reached :
    after (.armTimeReached 0 .a)
        (holding (unit { inAir .standby with entries := [item 1 7 .sequence, item 2 7 (.hard 1056000)], seqSlot := some 1 } (inAir .standby))
          [song])
        (fun t => (t.out .a).anchorSlot == some 2 && ((t.out .a).entry 2).map Entry.state == some .armed) = true := by
  decide +kernel

/-- At T of a SOFT entry the entry before it is skipped (R13). -/
theorem test_soft_time_reached :
    after (.softTimeReached 0 .a 3)
        (holding (unit (airing [item 2 7 .sequence, item 3 7 (.soft 960000)]) (inAir .standby)) [song])
        (fun t => (t.out .a).entries.map Entry.tag == [1, 3] && t.log.records.map Record.outcome == [.skippedTime]) = true := by
  decide +kernel

theorem test_hard_time_reached :
    after (.hardTimeReached 0 .a 2) (cued { inAir .onAir with entries := [armed (.hard 960000)], anchorSlot := some 2 }) (fun t =>
      (t.out .a).leadTag == some 2 && ((t.out .a).entry 2).bind (fun e => e.air.start) == some 960000) = true := by
  decide +kernel

/-- The entry starts at its own multiplier: -3 dB is 11,598.98 of 16,384, rounded away from unity (R24, R37, R38). -/
theorem test_start_time_reached :
    after (.startTimeReached 0 .a) (cued { inAir .onAir with entries := [armed .sequence], seqSlot := some 2 }) (fun t =>
      (t.out .a).leadTag == some 2 && (t.voice 0).map (fun u => (u.state, u.mult.m1)) == some (.playing, 11598)) = true := by
  decide +kernel

/-! ### Breaks -/

def slot (cart len offset : Nat) (k : Progress) : BreakItem :=
  { role := .spot, cart := cart, serial := cart, pos := 1, cls := some .must, playLen := len, offset := offset, join := 0, progress := k,
    actual := none, skipped := 0, played := 0, concealed := 0, stream := .notChecked, mark := .here, bed := none }

/-- Break 4 of 48,000 samples with one spot as long. -/
def fitted (start : Time) (k : FitState) (items : List BreakItem) : FittedBreak :=
  { tag := 4, len := 48000, entryTag := none, start := some start, state := k, announced := false, cueStart := 0, items := items,
    tail := .none, tailLen := 0, bedCart := none, drops := [], cursor := 0, due := none, tailBegan := none, tailBed := none, tailSkip := 0,
    tailAired := 0, delays := [], resume := none, ending := false }

/-- An outlet that relays at followed time 960,000, at unity or silent. -/
def relaying (k : Air) (m : Int) (b : FittedBreak) : Outlet :=
  { inAir k with
    place1 := some b
    relay := { Relay.reset with state := .relaying, position := some 960000, mult := .steady m } }

def follow (x : Outlet) : State := unit (inAir .standby) x

theorem test_break_start :
    after (.breakStart 0 .b .first) (follow (relaying .onAir 0 (fitted 960000 .armed [slot 8 48000 0 .waiting]))) (fun t =>
      ((t.out .b).place1.map FittedBreak.state) == some .running && ((t.out .b).place1.bind FittedBreak.due) == some 960000) = true ∧
      after (.breakStart 0 .b .first) (follow (relaying .onAir 0 (fitted 960001 .armed [slot 8 48000 0 .waiting]))) (fun t =>
        ((t.out .b).place1.map FittedBreak.state) == some .armed) = true := by
  decide +kernel

/-- 240 samples before the start the relay ramps out over 480 samples, 241 before not yet (R78). -/
theorem test_swap_out_start :
    after (.swapOutStart 0 .b .first) (follow (relaying .onAir 16384 (fitted 960240 .armed []))) (fun t =>
      (t.out .b).relay.mult == { start := 100000, m0 := 16384, m1 := 0, n := 480 }) = true ∧
      after (.swapOutStart 0 .b .first) (follow (relaying .onAir 16384 (fitted 960241 .armed []))) (fun t =>
        (t.out .b).relay.mult == .steady 16384) = true := by
  decide +kernel

theorem test_swap_in_start :
    after (.swapInStart 0 .b .first) (follow (relaying .onAir 0 (fitted 912240 .running []))) (fun t =>
      (t.out .b).relay.mult == { start := 100000, m0 := 0, m1 := 16384, n := 480 }) = true ∧
      after (.swapInStart 0 .b .first) (follow (relaying .onAir 0 (fitted 912241 .running []))) (fun t =>
        (t.out .b).relay.mult == .steady 0) = true := by
  decide +kernel

/-- A voice of outlet B on a spot of 48,000 samples. -/
def spotVoice (k : VoiceState) (sounded : Nat) (looping : Bool) (slot : Nat) : VoiceUse :=
  { freshUse .b (.slot .first slot) (song9 8 48000 .spot) 0 looping 0 with state := k, sounded := sounded, mult := .steady 16384 }

def breaking (b : FittedBreak) (u : VoiceUse) : State :=
  sounding (holding (follow (relaying .onAir 0 b)) [{ song9 8 48000 .spot with useCount := 1 }]) u

theorem test_item_due_time :
    after (.itemDueTime 0 .b .first)
        (breaking { fitted 960000 .running [slot 8 48000 0 .priming] with due := some 960000 } (spotVoice .primed 0 false 0)) (fun t =>
      (t.voice 0).map VoiceUse.state == some .playing && ((t.out .b).place1.map fun b => (b.cursor, b.due)) == some (1, some 1008000)) =
      true := by
  decide +kernel

/-- Break 4 as a shadow whose one spot of 9,600 samples has passed: its tail of 38,400 samples is planned from 959,600. -/
def shadowTail : FittedBreak :=
  { fitted 950000 .running [{ slot 8 9600 0 .ended with mark := .elsewhere }] with tail := .earlyRejoin, tailLen := 38400 }

/-- A shadow's EARLY_REJOIN tail begins at its planned offset, and the relay ramps in though nothing is sent (R64, R77, R79). -/
theorem test_item_due_time_of_a_shadow :
    after (.itemDueTime 0 .b .first) (follow (relaying .standby 0 shadowTail)) (fun t =>
      (t.out .b).place1.bind FittedBreak.tailBegan == some 959600 &&
        (t.out .b).relay.mult == { start := 100000, m0 := 0, m1 := 16384, n := 480 }) = true := by
  decide +kernel

/-- A takeover closes what it passes over, so a move to FALLBACK after it cuts only what sounds here (R67, R68, R69). -/
theorem test_fallback_after_a_takeover :
    let b := fitted 936000 .running [{ slot 8 9600 0 .sounding with mark := .elsewhere }, slot 8 9600 9600 .waiting, slot 8 9600 19200 .waiting]
    let f := (b.takenFrom 1).modItem 1 fun it => { it with progress := .sounding, actual := some 960000 }
    (f.endedEarly [1]).items.map BreakItem.outcome = [.airedElsewhere, .airedCut, .withdrawn] := by
  decide +kernel

/-- At the rejoin the records are written, the spot list and the place go and the relay ramps in (R65, R68, R79). -/
theorem test_rejoin :
    after (.rejoin 0 .b (some .first)) (follow (relaying .onAir 0 (fitted 912000 .running [slot 8 48000 0 .ended]))) (fun t =>
      (t.out .b).place1 == none && t.log.records.map Record.source == [.spot] && (t.out .b).relay.mult.m1 == 16384) = true ∧
      after (.rejoin 0 .b (some .first)) (follow (relaying .onAir 0 (fitted 912001 .running [slot 8 48000 0 .ended]))) (fun t =>
        (t.out .b).place1.isSome) = true := by
  decide +kernel

/-- Within 480 samples of the rejoin a voice that would sound past it ramps out to end at it (R65). -/
theorem test_cut_at_the_rejoin :
    after (.cutAtTheRejoin 0 .b .first) (breaking { fitted 912480 .running [slot 8 48000 0 .sounding] with cursor := 1 }
        (spotVoice .playing 47000 false 0)) (fun t =>
      (t.voice 0).map (fun u => (u.state, u.mult)) == some (.ramping, { start := 100000, m0 := 16384, m1 := 0, n := 480 })) = true := by
  decide +kernel

/-- A tail bed ramps out over its last 24,000 samples (R64). -/
theorem test_bed_ramp_start :
    after (.bedRampStart 0 .b .first)
        (breaking { fitted 936000 .running [] with tail := .bed, tailLen := 48000, tailBegan := some 936000 } (spotVoice .playing 100 true 0))
        (fun t => (t.voice 0).map (fun u => (u.state, u.mult)) == some (.ramping, { start := 100000, m0 := 16384, m1 := 0, n := 24000 })) =
      true := by
  decide +kernel

/-! ### Voices and the fetch engine -/

/-- Outlet A with entry 1 on the air, its voice at `sounded` of 4,800 samples. -/
def playing (u : VoiceUse) : State := sounding (holding (unit (airing []) (inAir .standby)) [{ song with useCount := 1 }]) u

def soundingAt (sounded : Nat) : VoiceUse := { voice .playing (.entry 1) with sounded := sounded }

/-- A voice ramped to 0 before its cart's end: the entry leaves AIRED_CUT with the samples played (R16, R40). -/
theorem test_ramp_end :
    after (.rampEnd 0 0) (playing { soundingAt 700 with state := .ramping, mult := { start := 99520, m0 := 16384, m1 := 0, n := 480 } }) (fun t =>
      t.voice 0 == none && t.log.records.map (fun r => (r.outcome, r.played)) == [(.airedCut, 700)] && (t.out .a).entries == []) = true ∧
      after (.rampEnd 0 0) (playing { soundingAt 700 with state := .ramping, mult := { start := 99521, m0 := 16384, m1 := 0, n := 480 } })
        (fun t => (t.voice 0).isSome) = true := by
  decide +kernel

theorem test_cart_end :
    after (.cartEnd 0 0) (playing { soundingAt 4800 with stream := .void }) (fun t =>
      t.voice 0 == none && t.log.records.map (fun r => (r.outcome, r.played, r.stream)) == [(.aired, 4800, .notChecked)]) = true := by
  decide +kernel

/-- 480 samples before a block that is not there UNDERRUN is latched and the block is concealed (R100, R101, R102). -/
theorem test_judge_point :
    after (.judgePoint 0 0) (playing { soundingAt 544 with judged := 1 }) (fun t =>
      (t.voice 0).map (fun u => (u.judged, u.concealed, u.underrun, u.stream)) == some (2, 1, true, .void) && captured t .fetch .underrun) =
        true ∧
      after (.judgePoint 0 0) (playing { soundingAt 543 with judged := 1 }) (fun t => (t.voice 0).map VoiceUse.judged == some 1) = true := by
  decide +kernel

def full (k : Nat) : RingBlock := { ord := k, flagged := false, data := [{ l := 1, r := -1 }] }

theorem test_block_leaves_ring :
    after (.blockLeavesRing 0 0) (playing { soundingAt 1024 with ring := [full 0, full 1] }) (fun t =>
      (t.voice 0).map (fun u => (u.leftOrd, u.ring.map RingBlock.ord)) == some (1, [1])) = true := by
  decide +kernel

theorem test_loop_to_in_cue :
    after (.loopToInCue 0 0) (playing { soundingAt 4800 with looping := true, stream := .void }) (fun t =>
      (t.voice 0).map (fun u => (u.passes, u.streamDone, u.position)) == some (1, some .notChecked, 0)) = true := by
  decide +kernel

def moving (k : TransferKind) : State :=
  { playing { soundingAt 0 with state := .priming, delivered := 3, nextOrd := 3 } with transfer := some { kind := k, stale := false } }

/-- The fourth block makes the voice PRIMED (R93); it reads as the zeros of memory nothing has written. -/
theorem test_priming_transfer_complete :
    after (.primingTransferComplete 0 { corrected := 2, uncorrectable := none }) (moving (.priming 0 3)) (fun t =>
      (t.voice 0).map (fun u => (u.delivered, u.nextOrd, u.ring.map RingBlock.ord)) == some (4, 4, [3]) && t.captures.corrected == 2) =
      true := by
  decide +kernel

theorem test_refill_complete :
    after (.refillComplete 0 { corrected := 0, uncorrectable := some 7 })
        { playing { soundingAt 600 with delivered := 4, nextOrd := 4 } with transfer := some { kind := .refill 0 4, stale := false } }
        (fun t => (t.voice 0).map (fun u => (u.delivered, u.bad)) == some (5, true) && captured t .store .uncorrectable) = true := by
  decide +kernel

/-- Bytes 10 and 11 of a version in page 1 stand at 65,546 and 65,547 (R107, R115). -/
theorem test_load_write_complete :
    after (.loadWriteComplete 0)
        { holding quiet [{ loading with received := 12 }] with
          transfer := some { kind := .load { cart := 7, serial := 1, offset := 10, bytes := [5, 6] }, stale := false } }
        (fun t => (memRead t.store.mem 65546, memRead t.store.mem 65547, memRead t.store.mem 65548) == (5, 6, 0) &&
          t.store.versions.map Version.written == [2]) = true := by
  decide +kernel

def verifying : Version :=
  { loading with state := .verifying, len := 1, received := 6, written := 6, check := 0xB1C2A1A3, closeTag := some { tag := 3, node := 1 } }

/-- Six zero bytes have the check value 0xB1C2A1A3 (R184): the version is READY and its CART_CLOSE is answered again (R119, R120). -/
theorem test_verify_read_complete :
    after (.verifyReadComplete 0 { corrected := 0, uncorrectable := none })
        { holding quiet [verifying] with transfer := some { kind := .verify 7 1 0 6, stale := false } }
        (fun t => t.store.versions.map Version.state == [.ready] && t.sent.length == 1) = true ∧
      after (.verifyReadComplete 0 { corrected := 0, uncorrectable := some 1 })
        { holding quiet [verifying] with transfer := some { kind := .verify 7 1 0 6, stale := false } }
        (fun t => t.store.versions.map Version.state == [.quarantined] && captured t .store .verifyMismatch) = true := by
  decide +kernel

/-! ### The relay and the monitors -/

def frameOf (t : Time) : HeldFrame := { time := t, sender := 9, samples := List.replicate 48 { l := 100, r := -100 } }

def relayed (missing : Nat) (buffer : List HeldFrame) : Outlet :=
  { inAir .onAir with
    relay := { Relay.reset with state := .relaying, position := some 960000, buffer := buffer, missing := missing, lastSender := some 9 } }

theorem test_relay_slot_judge :
    after (.relaySlotJudge 0 .b) (follow (relayed 1 [frameOf 960000])) (fun t =>
      (t.out .b).relay.missing == 0 && (t.out .b).relay.conceal == { start := 100000, m0 := 0, m1 := 16384, n := 480 }) = true ∧
      after (.relaySlotJudge 0 .b) (follow (relayed 99 [frameOf 960048])) (fun t =>
        (t.out .b).relay.state == .lost && captured t .air .sourceLost) = true := by
  decide +kernel

/-- Samples of outlet A that sound nothing, and of outlet B that relay a full-scale frame. -/
def span (t : Time) (n : Nat) (afresh : Bool) : Span :=
  { time := t, clock := 99000, len := n, first := afresh, voices := [], relay := none,
    ctx := { rank := 1, fallback := false, yielding := false, leadTag := 4, leadBase := some 959000, breakTag := 0, breakOffset := 0 } }

/-- 48 samples go out in one frame with the fields of the first (R127, R179). -/
theorem test_audio_frame_send :
    after (.audioFrameSend 0 .a) (unit { inAir .onAir with unsent := [span 959520 48 false] } (inAir .standby)) (fun t =>
      t.sent.map SentFrame.body == [.audio
        { feed := 10, letter := 0, rank := 1, fallback := false, yielding := false, frameTime := 959520, leadTag := 4, entryOffset := 520,
          breakTag := 0, breakOffset := 0, samples := List.replicate 48 { l := 0, r := 0 } }] && (t.out .a).unsent == []) = true ∧
      after (.audioFrameSend 0 .a) (unit { inAir .onAir with unsent := [span 959520 47 false] } (inAir .standby)) (fun t =>
        t.sent == []) = true := by
  decide +kernel

def metered (m : Meter) : Outlet := { inAir .onAir with programme := { m with running := true, buf := [span 958976 1024 false] } }

/-- The 235th silent block in a row is dead air: an outlet with nobody to release to is in FALLBACK (R156, R158). -/
theorem test_meter_block_end :
    after (.meterBlockEnd 0 .a .programme) (unit (metered { Meter.reset with detector := .quiet, count := 234 }) (inAir .standby)) (fun t =>
      (t.out .a).air == .fallback && captured t .air .deadAir) = true ∧
      after (.meterBlockEnd 0 .a .programme) (unit (metered .reset) (inAir .standby)) (fun t =>
        (t.out .a).programme.detector == .quiet && (t.out .a).programme.count == 1) = true := by
  decide +kernel

set_option maxRecDepth 100000 in
/-- A block that began 24 samples late is partial; its check takes the zeros of its first frame in (R147, R127). -/
theorem test_echo_block_end :
    after (.echoBlockEnd 0 .a) (unit { inAir .onAir with echoBuf := [span 959996 4 true, span 960000 96 false] } (inAir .standby)) (fun t =>
      (t.out .a).history.map (fun h => (h.block, h.isPartial, h.firstDriven, h.lastDriven)) == [(955200, true, 959996, 959999)] &&
        ((t.out .a).history.map HistEntry.check == [crc32 (List.replicate (48 * 6) 0)])) = true := by
  decide +kernel

theorem test_echo_open_block_timeout :
    after (.echoOpenBlockTimeout 0 .a) (unit { inAir .standby with openBlock := some { block := 950400, frames := [] } } (inAir .standby)) (fun t =>
      (t.out .a).echo == some { feed := 10, block := 950400, check := none } && (t.out .a).openBlock == none) = true ∧
      after (.echoOpenBlockTimeout 0 .a) (unit { inAir .standby with openBlock := some { block := 950401, frames := [] } } (inAir .standby))
        (fun t => (t.out .a).echo == none) = true := by
  decide +kernel

def hist (block : Time) (tap : TapResult) : HistEntry :=
  { block := block, check := 1, isPartial := false, firstDriven := block, lastDriven := block + 4799, driven := 2, tap := tap,
    peerMatch := false, peerMismatch := false, result := none }

theorem test_tap_completion :
    after (.tapCompletion 0 .a 950400 2) (unit { inAir .onAir with history := [hist 950400 .pending] } (inAir .standby)) (fun t =>
      (t.out .a).history.map (fun h => (h.tap, h.result)) == [(.match, some .confirmed)]) = true ∧
      after (.tapCompletion 0 .a 950400 3) (unit { inAir .onAir with history := [hist 950400 .pending] } (inAir .standby)) (fun t =>
        (t.out .a).history.map (fun h => (h.tap, h.result)) == [(.mismatch, none)]) = true := by
  decide +kernel

/-- The third mismatch in a row latches ECHO_MISMATCH and begins the run again (R153). -/
theorem test_history_entry_leave :
    after (.historyEntryLeave 0 .a) (unit { inAir .onAir with history := [hist 878400 .mismatch], mismatchRun := 2 } (inAir .standby)) (fun t =>
      (t.out .a).history == [] && (t.out .a).mismatchRun == 0 && captured t .air .echoMismatch) = true ∧
      after (.historyEntryLeave 0 .a) (unit { inAir .onAir with history := [hist 878401 .mismatch] } (inAir .standby)) (fun t =>
        (t.out .a).history.length == 1) = true := by
  decide +kernel

/-! ### Witnesses: states and operands that meet the hypotheses of the statements -/

/-- The state a command leaves. -/
def leaves (c : Instr) (s : State) : State :=
  match exec c s with
  | .next t => t
  | _ => s

def waiting (c : Instr) (s : State) : State := { s with pending := [c] }

theorem witness_step_runs_front_command : (waiting (.beaconSend 0) quiet).pending = .beaconSend 0 :: [] := rfl

theorem witness_idle_and_unpowered_steps :
    quiet.pending = [] ∧ State.reset.powered = false ∧ ∀ dt link config, Instr.beaconSend 0 ≠ .powerOn dt link config :=
  ⟨rfl, rfl, nofun⟩

theorem witness_time_passes : (playing (soundingAt 0)).voice 0 = some (soundingAt 0) ∧ quiet.voice 0 = none ∧ (0 : Nat) < 1 := by decide +kernel

theorem witness_quiet_commands_end_as_they_are : quiet.Quiet := by
  refine ⟨?_, eachOutlet rfl rfl rfl rfl, ?_⟩
  · unfold State.Rests; decide +kernel
  · decide +kernel

theorem witness_what_comes_about_leaves : (pressed .idle true).lines[0]? = some { FireLine.reset with state := .idle, active := true, since := 99040 } :=
  rfl

/-- An entry ARMED in the sequence slot, its voice holding the one version. -/
def bound : State :=
  waiting (.startTimeReached 0 .a)
    { cued { inAir .onAir with entries := [armed .sequence], seqSlot := some 2 } with peers := [peer 9 86000 false 10 2 3] }

theorem bound_counted : bound.store.CountedBy (holdersOf bound.voices) := by
  refine ⟨by decide +kernel, fun c n h => ?_⟩
  obtain ⟨v, hv, e⟩ := List.countP_pos_iff.1 (Nat.pos_of_ne_zero h)
  have hk : v.use = none ∨ v.use.map (fun u => (u.cart, u.serial)) = some (7, 1) :=
    (by decide +kernel : ∀ v ∈ bound.voices, v.use = none ∨ v.use.map (fun u => (u.cart, u.serial)) = some (7, 1)) v hv
  cases hu : v.use with
  | none => simp [hu] at e
  | some u =>
    simp only [hu, Option.map_some, Option.some.injEq, reduceCtorEq, false_or, Prod.mk.injEq] at hk
    simp only [hu, Option.any_some, Bool.and_eq_true, beq_iff_eq] at e
    rw [← e.1, ← e.2, hk.1, hk.2]
    decide +kernel

theorem witness_every_step_keeps_bounds : bound.Bounded ∧ ∃ t, step bound = .next t := by
  refine ⟨⟨by unfold PeersBounded; decide +kernel, ⟨⟨by decide +kernel, fun c => ?_⟩, bound_counted⟩, ?_, ?_, ?_⟩, _, rfl⟩
  · exact le_trans (List.length_filter_le _ _) (by decide +kernel)
  · have none : ∀ o, (bound.out o).entries = [] → (bound.out o).spots = [] → (bound.out o).Bounded := fun o h k => by
      unfold Outlet.Bounded Outlet.Slotted
      rw [h, k]
      exact ⟨⟨Nat.zero_le _, List.nodup_nil, fun _ h => absurd h List.not_mem_nil⟩, Nat.zero_le _, List.nodup_nil⟩
    refine eachOutlet ⟨⟨by decide +kernel, by decide +kernel, fun e he _ => .inl ?_⟩, by decide +kernel⟩ (none .b rfl rfl) (none .c rfl rfl)
      (none .d rfl rfl)
    rw [List.mem_singleton.1 (show e ∈ [armed .sequence] from he)]
    rfl
  · exact ⟨eachClass (by decide +kernel) (by decide +kernel) (by decide +kernel) (by decide +kernel) (by decide +kernel), by decide +kernel⟩
  · unfold ClockDiscipline.Bounded; decide +kernel

/-- A store with one version on page 0. -/
def paged : Store :=
  { Store.reset with
    versions := [{ song with chain := [{ lo := 0, n := 1 }] }], serialCounter := 1, free := [{ lo := 1, n := 524287 }] }

theorem paged_paged : paged.Paged := by
  refine ⟨by decide +kernel, by decide +kernel, fun p => ?_⟩
  show List.countP _ [_] + (List.map _ [_]).sum = _
  simp only [List.countP_cons, List.countP_nil, PageRun.has, List.map_cons, List.map_nil, List.sum_cons, List.sum_nil, Bool.and_eq_true,
    decide_eq_true_eq]
  split <;> split <;> split <;> omega

theorem witness_every_step_keeps_pages_shared_out :
    (waiting (.beaconSend 0) { quiet with store := paged }).store.Paged ∧ ∃ t, step (waiting (.beaconSend 0) { quiet with store := paged }) = .next t :=
  ⟨paged_paged, _, rfl⟩

/-- A log of three records. -/
def logged : State := { quiet with log := { records := [record1 1, record1 2, record1 3], next := 4, pending := [] } }

theorem witness_every_step_keeps_log_one_run :
    (waiting (.beaconSend 0) logged).log.Run ∧ ∃ t, step (waiting (.beaconSend 0) logged) = .next t := by
  refine ⟨⟨by decide +kernel, by decide +kernel, fun k r h => ?_⟩, _, rfl⟩
  have : k = 0 ∨ k = 1 ∨ k = 2 ∨ 3 ≤ k := by omega
  rcases this with rfl | rfl | rfl | h3
  · cases h; rfl
  · cases h; rfl
  · cases h; rfl
  · rw [List.getElem?_eq_none (by exact h3)] at h; cases h

theorem witness_log_numbers_records_in_sequence :
    (∃ t, exec (.powerOn 0 7 record) State.reset = .next t) ∧ (∀ dt link config, Instr.beaconSend 0 ≠ .powerOn dt link config) ∧
      ∃ t, exec (.beaconSend 0) logged = .next t :=
  ⟨⟨_, rfl⟩, nofun, _, rfl⟩

theorem witness_isolated_unit_is_silent :
    ({ quiet with isolated := true } : State).isolated = true ∧ (requestHead (.handBack 0 (toFeed 0))).isSome = true ∧
      (∀ dt link config, Instr.handBack 0 (toFeed 0) ≠ .powerOn dt link config) ∧ quiet.powered = true ∧
      ∃ t, exec (.handBack 0 (toFeed 0)) { quiet with isolated := true } = .next t :=
  ⟨rfl, rfl, nofun, rfl, _, rfl⟩

theorem witness_configuration_changes_only_at_a_start :
    (∃ t, exec (.beaconSend 0) quiet = .next t) ∧ (∀ dt link config, Instr.beaconSend 0 ≠ .powerOn dt link config) ∧
      ∀ dt req config, Instr.beaconSend 0 ≠ .restart dt req config :=
  ⟨⟨_, rfl⟩, nofun, nofun⟩

theorem witness_versions_keep_what_they_were_opened_with :
    (∃ t, exec (.cartDrop 0 (toUnit 4) 7) (holding quiet [song]) = .next t) ∧
      (∀ dt link config, Instr.cartDrop 0 (toUnit 4) 7 ≠ .powerOn dt link config) ∧ ∀ dt req f, Instr.cartDrop 0 (toUnit 4) 7 ≠ .cartOpen dt req f :=
  ⟨⟨_, rfl⟩, nofun, nofun⟩

theorem witness_first_faults_stay :
    (∃ t, exec (.beaconSend 0) underruns = .next t) ∧ (∀ dt link config, Instr.beaconSend 0 ≠ .powerOn dt link config) ∧
      (∀ dt req config, Instr.beaconSend 0 ≠ .restart dt req config) ∧ (∀ dt req cls, Instr.beaconSend 0 ≠ .captureClear dt req cls) ∧
      ∃ f, (underruns.captures.slot .fetch).first = some f :=
  ⟨⟨_, rfl⟩, nofun, nofun, nofun, _, rfl⟩

theorem witness_entries_leave_with_records :
    (∃ t, exec (.beaconSend 0) (unit (airing []) (inAir .standby)) = .next t) ∧
      (∀ dt link config, Instr.beaconSend 0 ≠ .powerOn dt link config) ∧ (∀ dt req config, Instr.beaconSend 0 ≠ .restart dt req config) ∧
      ∀ dt req f, Instr.beaconSend 0 ≠ .entryAdd dt req f :=
  ⟨⟨_, rfl⟩, nofun, nofun, nofun⟩

theorem witness_sending_changes_only_at_these_commands :
    ∃ t, exec (.claimWindowExpiry 2400 .a) (unit (inAir .claiming) (inAir .standby)) = .next t ∧
      ((unit (inAir .claiming) (inAir .standby)).out .a).air.sends ≠ (t.out .a).air.sends :=
  ⟨_, rfl, by decide +kernel⟩

/-! Frames and requests -/

theorem witness_frames_are_read_back :
    (Instr.claimFrame 0 (head 2) { feed := 255, rank := 255 }).wf = true ∧ (commandBytes (.claimFrame 0 (head 2) { feed := 255, rank := 255 })).isSome = true := by
  decide +kernel

theorem witness_discarded_frames_change_nothing :
    quiet.powered = true ∧ ¬ quiet.Hears (head 313) 314 ∧ ¬ quiet.Hears { head 314 with link := 100 } 314 ∧
      ¬ quiet.Hears { head 314 with mark := 0xE411 } 314 ∧ ¬ quiet.Hears { head 314 with sender := 0 } 314 ∧
      ¬ quiet.Hears { head 314 with sender := 64 } 314 ∧ ¬ quiet.Hears { head 314 with sender := 5 } 314 ∧ (959999 : Int) % 48 ≠ 0 := by
  unfold State.Hears; decide +kernel

/-- A request of another sender, of an addressing that cannot be read, and one not addressed to the unit. -/
theorem witness_requests_are_judged_in_order :
    (requestHead (.handBack 0 (toFeed 0)) = some (toFeed 0) ∧ quiet.powered = true ∧ quiet.isolated = false ∧ quiet.Hears (toFeed 0).head 12 ∧
        (toFeed 0).head.sender ∈ quiet.cfg.stations) ∧
      ((head 12).sender ∉ quiet.cfg.stations ∧ quiet.Hears (head 12) 12 ∧ ¬ quiet.Hears (head 11) 12) ∧
      (¬ addressingReads (.handBack 0 (toUnit 0)) (toUnit 0) ∧ ¬ addressingReads (.handBack 0 (request (.feed 65) 0)) (request (.feed 65) 0) ∧
        ∀ dt r k, Instr.handBack 0 (toUnit 0) ≠ .unknownRequest dt r k) ∧
      (addressingReads (.handBack 0 (request (.feed 64) 0)) (request (.feed 64) 0) ∧ ¬ quiet.Addressed (request (.feed 64) 0)) ∧
      (addressingReads (.spotsClear 0 (toFeed 3) 4) (toFeed 3) ∧ quiet.Addressed (toFeed 3) ∧
        (toFeed 3).head.bodyLen < 12 + fieldBytes (.spotsClear 0 (toFeed 3) 4) ∧ ∀ dt r k, Instr.spotsClear 0 (toFeed 3) 4 ≠ .unknownRequest dt r k) := by
  refine ⟨⟨rfl, rfl, rfl, by unfold State.Hears; decide +kernel, by decide⟩, ⟨by decide, by unfold State.Hears; decide +kernel, by unfold State.Hears; decide +kernel⟩,
    ⟨?_, ?_, nofun⟩, ⟨?_, ?_⟩, ⟨?_, ⟨.a, by decide +kernel⟩, by decide, nofun⟩⟩
  · rintro ⟨-, h⟩; cases h
  · rintro ⟨-, -, -, h⟩; revert h; decide
  · exact ⟨by decide, by decide, by decide, by decide⟩
  · rintro ⟨o, h1, h2, -⟩; revert h1 h2; cases o <;> decide
  · exact ⟨by decide, by decide, by decide, by decide⟩

theorem witness_requests_reach_their_owner : quiet.unitGate (toUnit 0) = .unit ∧ quiet.feedGate (toFeed 0) = .outlet .a := by decide +kernel

theorem witness_unknown_requests_are_answered_malformed :
    quiet.powered = true ∧ quiet.isolated = false ∧ quiet.Hears (toUnit 0).head 12 ∧ (toUnit 0).head.sender ∈ quiet.cfg.stations ∧
      (0 = 0 ∨ 15 < 0 ∨ ∃ code, (toUnit 0).addr = .unknown code) ∧ (16 = 0 ∨ 15 < 16 ∨ ∃ code, (toUnit 0).addr = .unknown code) ∧
      (5 = 0 ∨ 15 < 5 ∨ ∃ code, (request (.unknown 3) 0).addr = .unknown code) :=
  ⟨rfl, rfl, by unfold State.Hears; decide +kernel, by decide, .inl rfl, .inr (.inl (by decide)), .inr (.inr ⟨3, rfl⟩)⟩

theorem witness_log_read_answers_the_range : logged.TakesUnit (toUnit 5) 5 := by unfold State.TakesUnit; decide +kernel

theorem witness_capture_read_answers_the_slot :
    underruns.TakesUnit (toUnit 1) 1 ∧ (∀ k, FaultClass.code k ≠ 0) ∧ (∀ k, FaultClass.code k ≠ 6) ∧ FaultClass.code .store = 1 ∧
      FaultClass.code .clock = 5 := by
  refine ⟨by unfold State.TakesUnit; decide +kernel, ?_, ?_, rfl, rfl⟩ <;> intro k <;> cases k <;> decide

theorem witness_capture_clear_empties_the_slot :
    underruns.TakesUnit (toUnit 1) 1 ∧ (∀ k, FaultClass.code k ≠ 6) ∧ FaultClass.code .fetch = 2 ∧
      (FaultInfo.bare .underrun).kind.cls = .fetch := by
  refine ⟨by unfold State.TakesUnit; decide +kernel, ?_, rfl, rfl⟩
  intro k; cases k <;> decide

theorem witness_latches_lock_the_slot :
    (quiet.captures.slot (FaultInfo.bare .underrun).kind.cls).first = none ∧
      (∃ g, (underruns.captures.slot (FaultInfo.bare .underrun).kind.cls).first = some g) ∧ FaultClass.air ≠ (FaultInfo.bare .underrun).kind.cls :=
  ⟨rfl, ⟨_, rfl⟩, by decide⟩

/-! Starts, beacons and peers -/

set_option maxRecDepth 100000 in
theorem witness_configuration_is_settled :
    recordValid record = true ∧ recordValid (List.replicate 96 0) = false ∧ ((settleConfig record).outlets.get .b).valid = true ∧
      ((record.getD (8 + 9 * OutletId.code .b + 1) 0).toNat = 2) ∧ OutletId.code .a < OutletId.code .b ∧ 7 < 8 ∧
      (settleConfig record).lines[0]?.any LineCfg.enabled = true := by
  decide +kernel

theorem witness_restart_starts_afresh : (unit (inAir .onAir) (yielding .fault false)).TakesUnit (toUnit 0) 0 := by
  unfold State.TakesUnit; decide +kernel

theorem witness_listen_time_ends :
    let s := { unit (inAir .listening) (inAir .listening) with listenSince := some 52000 }
    s.powered = true ∧ s.listenSince = some 52000 ∧ 52000 + 48000 ≤ s.clock + 0 ∧ (s.out .a).air = .listening := by
  decide +kernel

theorem witness_beacons_are_sent :
    quiet.powered = true ∧ quiet.isolated = false ∧ quiet.beaconSince + 4800 ≤ quiet.clock + 4800 ∧ (quiet.out .c).air = .dark ∧
      (quiet.out .a).air ≠ .dark := by
  decide +kernel

/-- A table of 48 peers, of which those of the nodes up to `n` are STALE. -/
def crowded (n : Nat) : State := { quiet with peers := (List.range 48).map fun k => peer (k + 16) (90000 - k) (k + 16 ≤ n) 10 2 3 }

theorem witness_beacons_enter_the_peer_table :
    quiet.powered = true ∧ quiet.Hears (head 186) 186 ∧ goodBeacon.role = 1 ∧
      (∃ q ∈ ({ quiet with peers := [peer 9 99000 false 10 2 3] } : State).peers, q.node = (head 186).sender) ∧
      (∀ q ∈ (crowded 0).peers, q.node ≠ (head 186).sender) ∧ 48 ≤ (crowded 0).peers.length ∧ (∀ q ∈ (crowded 0).peers, q.stale = false) ∧
      (∃ q ∈ (crowded 20).peers, q.stale = true) ∧ ((crowded 0).peers.drop 1).length < 48 := by
  unfold State.Hears; decide +kernel

theorem witness_own_node_id_isolates_the_unit :
    let h := { head 186 with sender := 5 }
    quiet.powered = true ∧ quiet.isolated = false ∧ h.link ≠ quiet.linkAddress ∧ h.mark = 0xE410 ∧ 1 ≤ h.sender ∧ h.sender ≤ 63 ∧
      186 ≤ h.bodyLen ∧ h.sender = quiet.cfg.nodeId := by
  decide +kernel

theorem witness_peers_age :
    let s : State := { quiet with peers := [peer 9 85600 false 10 2 3, peer 10 4000 true 10 2 3] }
    s.powered = true ∧ (∃ p ∈ s.peers, p.node = 9 ∧ p.stale = false ∧ p.arrival + 14400 ≤ s.clock + 0) ∧
      (∃ p ∈ s.peers, p.node = 10 ∧ p.arrival + 96000 ≤ s.clock + 0) ∧ (∀ p ∈ s.peers, p.node = 11 → s.clock + 0 < p.arrival + 14400) ∧
      ∀ p ∈ s.peers, p.node = 9 → s.clock + 0 < p.arrival + 96000 := by
  decide +kernel

/-! Gain, owner views and the clock -/

theorem witness_multipliers_scale_each_channel : (1 ≤ 1 ∧ 1 ≤ 12) ∧ (1 ≤ 12 ∧ 12 ≤ 12) ∧ 1 ≤ 48 ∧ 48 ≤ 48 := by decide

def view (tag : Nat) : OwnerView :=
  { node := 9, rank := 1, fallback := false, yielding := false, frameTime := 959952, leadTag := tag, entryOffset := 1000, breakTag := 0,
    breakOffset := 0, arrival := some 959960 }

theorem carries (s : State) (h : s.cfg = cfg) (k : (s.out .a).air ≠ .dark) : s.Carries .a 10 := by
  have e : ∀ o, s.ocfg o = cfg.outlets.get o := fun o => by unfold State.ocfg; rw [h]
  refine ⟨by rw [e]; decide, by rw [e]; decide, by decide, by decide, k, fun p => ?_⟩
  rw [e]; cases p <;> decide

theorem fed (x y : Outlet) : (unit x y).Hears (head 314) 314 :=
  ⟨show (7 : Nat) ≠ 100 by decide, rfl, by decide, by decide, by decide, show (9 : Nat) ≠ 5 by decide⟩

theorem witness_frames_give_the_owner_view :
    (∀ x y, (unit x y).powered = true ∧ (unit x y).Hears (head 314) 314) ∧ goodAudio.frameTime % 48 = 0 ∧
      quiet.Carries .a goodAudio.feed ∧ (unit (inAir .onAir) (inAir .standby)).Carries .a goodAudio.feed ∧
      (yielding .fault false).yielding.map Yield.successor = some (head 314).sender ∧ quiet.Better .a 0 (head 314).sender ∧
      quiet.Better .a 1 4 ∧ ¬ quiet.Better .a 1 6 ∧ quiet.disc.groupTime.isSome = true ∧ quiet.cfg.refFeed ≠ goodAudio.feed ∧
      (∀ p, quiet.isFollow p = true → (quiet.ocfg p).followFeed ≠ goodAudio.feed) ∧ goodAudio.leadTag = 0 := by
  refine ⟨fun x y => ⟨rfl, fed x y⟩, by decide, carries _ rfl (by decide +kernel), carries _ rfl (by decide +kernel), by decide +kernel, ?_, ?_, ?_, by decide,
    by decide, eachOutlet (by decide) (by decide) (by decide) (by decide), by decide⟩
  all_goals unfold State.Better; decide +kernel

/-- A window that the next frame completes, one that goes on, and none. -/
def windowed (w : Option Window) (rejected : Nat) (k : ClockState) : State :=
  { quiet with disc := { quiet.disc with window := w, rejected := rejected, state := k } }

def openWindow (last : Time) : Window := { f0 := 910848, a0 := 104136704, sender := 9, last := last }

def refFrame : AudioBody := { goodAudio with feed := 40 }

theorem hears (w : Option Window) (n : Nat) (k : ClockState) : (windowed w n k).Hears (head 314) 314 :=
  ⟨show (7 : Nat) ≠ 100 by decide, rfl, by decide, by decide, by decide, show (9 : Nat) ≠ 5 by decide⟩

/-- Error 0 at phase 0: 2,048 times 100,000 less 104,136,704 is 100,663,296. -/
theorem witness_reference_frames_steer_the_clock :
    (∀ w n k, (windowed w n k).powered = true ∧ (windowed w n k).Hears (head 314) 314 ∧ (windowed w n k).cfg.refFeed = refFrame.feed) ∧
      refFrame.frameTime % 48 = 0 ∧ 1 ≤ refFrame.feed ∧ refFrame.feed ≤ 64 ∧
      (∃ g, quiet.disc.groupTime = some g ∧ 480 < ((960481 : Time) - g).natAbs) ∧ (∃ g, quiet.disc.groupTime = some g ∧ ¬ 480 < ((960480 : Time) - g).natAbs) ∧
      (openWindow 959952).sender = (head 314).sender ∧ refFrame.frameTime = (openWindow 959952).last + 48 ∧
      refFrame.frameTime = (openWindow 959952).f0 + 49152 ∧ (windowed none 0 .free).disc.window = none ∧
      (windowed (some (openWindow 959952)) 3 .acquiring).disc.window = some (openWindow 959952) := by
  exact ⟨fun w n k => ⟨rfl, hears w n k, rfl⟩, by decide, by decide, by decide, ⟨_, rfl, by decide⟩, ⟨_, rfl, by decide⟩,
    by decide, by decide, by decide, rfl, rfl⟩

/-! Air ownership -/

theorem witness_claims_are_made_and_given_up :
    quiet.powered = true ∧ quiet.isolated = false ∧ (quiet.out .a).air = .standby ∧ (quiet.out .a).silenceSince + 14400 ≤ quiet.clock + 14400 ∧
      ¬ ((quiet.out .a).air = .standby ∧ (quiet.out .a).silenceSince + 14400 ≤ quiet.clock + 14399) ∧ quiet.Hears (head 2) 2 ∧
      quiet.Carries .a 10 ∧ quiet.cfg.nodeId ≠ 0 ∧ (7 : Nat) ≤ 7 ∧ (unit (inAir .claiming) (inAir .standby)).Carries .a 10 ∧
      quiet.Better .a 0 (head 2).sender ∧ ¬ quiet.Better .a 7 (head 2).sender := by
  refine ⟨rfl, rfl, rfl, by decide, by decide, ?_, carries _ rfl (by decide), by decide, by decide, carries _ rfl (by decide), ?_, ?_⟩
  · unfold State.Hears; decide
  all_goals unfold State.Better; decide

/-- A takeover of a song of 4,800 samples named by the view, 1,048 samples in. -/
def named : State :=
  { unit { inAir .claiming with view := some (view 2), entries := [item 2 7 .sequence], seqSlot := none } (inAir .claiming) with
    store := { paged with versions := [{ song with chain := [{ lo := 0, n := 1 }] }] } }

theorem witness_warm_takeover :
    (let s := unit (inAir .claiming) (inAir .claiming)
     s.powered = true ∧ s.horizon = none ∧ (s.out .a).air = .claiming ∧ (s.out .a).claimSince + 2400 ≤ s.clock + 2400 ∧ s.isSelf .a = true ∧
      (s.out .a).view = none ∧ (s.out .a).seqSlot = none ∧ (s.out .a).anchorSlot = none ∧ ∀ e ∈ (s.out .a).entries, e.state ≠ .onAir) ∧
      (quiet.Hears (head 2) 2 ∧ quiet.Carries .a 10 ∧ 5 ≤ 63 ∧ 5 = quiet.cfg.nodeId ∧ (quiet.out .a).air = .standby) ∧
      (let s := follow { inAir .claiming with relay := { Relay.reset with state := .relaying, position := some 960000 } }
       s.isFollow .b = true ∧ (s.out .b).place1 = none ∧ (s.out .b).place2 = none ∧ (s.out .b).relay.state = .relaying) ∧
      named.isSelf .a = true ∧ (named.out .a).view = some (view 2) ∧ (view 2).leadTag ≠ 0 ∧
      (named.out .a).entry (view 2).leadTag = some (item 2 7 .sequence) ∧ (item 2 7 .sequence).kind = .item 7 ∧
      (named.store.usable 7).map Version.inCue = some 0 ∧ named.store.Paged ∧
      0 ≤ ((0 : Nat) : Int) + ((view 2).entryOffset + ((named.elapse 2400).now - (view 2).frameTime)) ∧
      (named.out .a).leadTag ≠ some (item 2 7 .sequence).tag ∧ (item 2 7 .sequence).state ≠ .onAir ∧
      ∀ i : Fin 12, named.voice i = none := by
  refine ⟨by decide, ⟨?_, carries _ rfl (by decide), by decide +kernel⟩, by decide, by decide, by decide, by decide, by decide, by decide, by decide,
    paged_paged, by decide +kernel⟩
  unfold State.Hears; decide

theorem witness_fallback_releases_to_a_twin :
    let s : State := { unit (inAir .fallback) (inAir .standby) with peers := [peer 9 99000 false 10 2 1, peer 4 99000 false 10 2 0] }
    (4 : Nat) ∈ (s.twins .a).map Prod.snd ∧ s.bestSuccessor .a = some 4 ∧ s.betterTwin .a = some 4 ∧ s.isolated = false ∧
      (s.out .a).air = .fallback ∧ quiet.bestSuccessor .a = none ∧ (∃ p ∈ s.peers, p.isUnit = true ∧ p.stale = false ∧
        ∃ m ∈ p.summaries, m.feed = (s.ocfg .a).feed ∧ m.mode = 1 ∧ m.air = 2) := by
  decide +kernel

theorem witness_yields_time_out :
    (∀ k b, ((unit (yielding k b) (inAir .standby)).out .a).yielding = some { successor := 9, cause := k, fromFallback := b, since := 100000 } ∧
      ((unit (yielding k b) (inAir .standby)).out .a).air = .yielding ∧ (unit (yielding k b) (inAir .standby)).powered = true) ∧
      100000 + 9600 ≤ quiet.clock + 9600 ∧ quiet.clock + 9599 < 100000 + 9600 :=
  ⟨fun _ _ => ⟨rfl, rfl, rfl⟩, by decide +kernel⟩

theorem takesA (n m : Nat) (x y : Outlet) (ps : List Peer) (hx : x.air ≠ .dark) (h : n ≤ m) :
    ({ unit x y with peers := ps } : State).TakesFeed (toFeed m) n .a := by
  refine ⟨rfl, ?_, ?_⟩
  · have : (x.air != .dark) = true := by simpa using hx
    simp [State.feedGate, State.judgesRequest, State.takesFrame, State.soundHead, toFeed, request, head, unit, protocolMark, feedOk,
      State.outletOf, OutletId.all, State.ocfg, State.out, Quad.get, cfg, State.reset, this]
  · show 12 + n ≤ 12 + m
    omega

theorem witness_hand_backs_are_answered :
    let twin := [peer 9 99000 false 10 2 0]
    (∀ k : Air, k ≠ .dark → ({ unit (inAir k) (inAir .standby) with peers := twin } : State).TakesFeed (toFeed 0) 0 .a) ∧
      ({ unit (inAir .onAir) (inAir .standby) with peers := twin } : State).betterTwin .a = some 9 ∧
      (unit (inAir .onAir) (inAir .standby)).betterTwin .a = none ∧ quiet.isFollow .a = false ∧ quiet.isFollow .b = true ∧
      (inAir .onAir).waitsForRejoin = false ∧
      ({ follow (inAir .onAir) with peers := [peer 9 99000 false 20 2 0] } : State).TakesFeed (toFollow 0) 0 .b ∧
      ({ follow (inAir .onAir) with peers := [peer 9 99000 false 20 2 0] } : State).betterTwin .b = some 9 := by
  refine ⟨fun k h => takesA _ _ _ _ _ h (by decide), by decide +kernel, by decide +kernel, by decide, by decide, by decide, ?_, by decide +kernel⟩
  unfold State.TakesFeed; decide +kernel

def period : FallbackPeriod := { id := 3, since := 950000, cart := some 90, granted := true, serial := some 90, actual := some 951000, ended := none }

/-- Outlet A in FALLBACK, its fallback cart sounding. -/
def fallen : State :=
  sounding (holding (unit { inAir .fallback with periods := [period] } (inAir .standby)) [{ song9 90 4800 .fallback with useCount := 1 }])
    { freshUse .a (.fallback 3) (song9 90 4800 .fallback) 0 true 0 with state := .playing, mult := .steady 16384, sounded := 1000 }

theorem witness_resume_ends_fallback :
    fallen.TakesFeed (toFeed 0) 0 .a ∧ (fallen.out .a).air = .fallback ∧ (fallen.out .a).openPeriod = some period ∧
      (fallen.elapse 0).voiceOf .a (.fallback period.id) = some 0 ∧ ((fallen.elapse 0).voice 0).any VoiceUse.sounding = true ∧
      quiet.TakesFeed (toFeed 0) 0 .a ∧ (quiet.out .a).air ≠ .fallback ∧
      ((unit { inAir .fallback with periods := [period] } (inAir .standby)).elapse 0).voiceOf .a (.fallback period.id) = none ∧
      ({ follow (inAir .fallback) with peers := [] } : State).TakesFeed (toFollow 0) 0 .b := by
  unfold State.TakesFeed; decide +kernel

/-- Spans whose first is the first of its spell, and 48 samples across two. -/
theorem witness_audio_frames_are_sent :
    (∀ q ∈ ([span 959999 1 true, span 960000 47 false] : List Span).drop 1, q.first = false) ∧ quiet.powered = true ∧ quiet.isolated = false ∧
      (let x := { inAir .onAir with unsent := [span 959567 1 true] }
       ((unit x (inAir .standby)).elapse 0 |>.out .a).unsent = [span 959567 1 true] ∧ 48 ≤ (if (span 959567 1 true).first then (959567 % 48 : Int).toNat else 0) + spellLen false [span 959567 1 true]) ∧
      (let x := { inAir .onAir with unsent := [span 959566 1 true] }
       (if (span 959566 1 true).first then (959566 % 48 : Int).toNat else 0) + spansLen x.unsent < 48 ∧ x.air.sends = true) ∧
      ((quiet.elapse 0).out .a).unsent = [] := by
  decide +kernel

/-! Running orders and fire lines -/

def queue3 : Outlet := airing [item 3 7 .sequence, item 4 7 (.hard 2000000)]

theorem witness_entries_are_added :
    let s := unit queue3 (inAir .standby)
    let full := unit { inAir .listening with entries := List.replicate 256 (item 3 7 .sequence) } (inAir .standby)
    let led := unit { queue3 with seqSlot := some 3 } (inAir .standby)
    s.TakesFeed (toFeed 28) 28 .a ∧ s.TakesFeed (toFollow 28) 28 .b ∧ s.isFollow .b = true ∧ s.isFollow .a = false ∧
      (∃ e ∈ queue3.entries, e.tag = 4) ∧ (∀ e ∈ queue3.entries, e.tag ≠ goodEntry.tag) ∧ (∀ e ∈ queue3.entries, e.tag ≠ 9) ∧
      (queue3.entry 1 = some onItem ∧ onItem.state = .onAir ∧ queue3.leadTag = some 1) ∧
      ({ queue3 with airOrder := [] }.entry 1 = some onItem ∧ { queue3 with airOrder := [] }.leadTag ≠ some 1) ∧ full.TakesFeed (toFeed 28) 28 .a ∧
      256 ≤ (full.out .a).entries.length ∧ queue3.entries.length < 256 ∧ queue3.seqSlot = none ∧ led.TakesFeed (toFeed 28) 28 .a ∧
      (led.out .a).leadTag = some 1 ∧ (led.out .a).seqSlot = some 3 ∧ 3 ≠ goodEntry.tag ∧
      ((entriesAfter [onItem, item 2 7 .sequence, item 3 7 .sequence] 1).head?.map Entry.tag = some goodEntry.tag) ∧
      ((entriesAfter [onItem, item 3 7 .sequence, item 2 7 .sequence] 1).head?.map Entry.tag ≠ some goodEntry.tag) := by
  unfold State.TakesFeed; decide +kernel

theorem witness_entries_are_removed :
    let s := unit queue3 (inAir .standby)
    let t := unit { queue3 with entries := [{ item 3 7 .sequence with state := .armed }] } (inAir .standby)
    s.TakesFeed (toFeed 4) 4 .a ∧ s.TakesFeed (toFollow 4) 4 .b ∧ s.isFollow .b = true ∧ s.isFollow .a = false ∧ queue3.entry 9 = none ∧
      (queue3.entry 1).any (fun e => e.state == .onAir) = true ∧ (queue3.entry 3).any (fun e => e.state == .queued) = true ∧
      t.TakesFeed (toFeed 4) 4 .a ∧ ((t.out .a).entry 3).any (fun e => e.state == .armed) = true ∧ t.voiceQueue = [] := by
  unfold State.TakesFeed; decide +kernel

theorem witness_lists_are_set :
    let s := follower.setOut .b { follower.out .b with spots := [spotList 4 [(8, .must)], spotList 6 []], place1 := some (fitted 990000 .armed []) }
    let full := quiet.setOut .a { inAir .standby with spots := List.replicate 32 (spotList 9 []) }
    let spots (tag n : Nat) : SpotFields := { goodSpots with tag := tag, spots := List.replicate n (8, 1) }
    (s.TakesFeed (toFollow 94) (14 + 5 * (spots 5 16).spots.length) .b ∧ s.TakesFeed (toFollow 99) (14 + 5 * (spots 5 17).spots.length) .b ∧
        (spots 5 16).spots.length ≤ 16 ∧ 16 < (spots 5 17).spots.length) ∧
      ((s.out .b).place .first = some (fitted 990000 .armed []) ∧ (fitted 990000 .armed []).tag = 4) ∧
      (∃ l ∈ (s.out .b).spots, l.tag = 6) ∧ (∀ l ∈ (s.out .b).spots, l.tag ≠ 5) ∧ (s.out .b).place .second = none ∧
      full.TakesFeed (toFeed 19) 19 .a ∧ 32 ≤ (full.out .a).spots.length ∧ s.TakesFeed (toFollow 4) 4 .b ∧
      (quiet.TakesFeed (toFeed 38) (6 + 4 * [1, 2, 3, 4, 5, 6, 7, 8].length) .a ∧ [1, 2, 3, 4, 5, 6, 7, 8].length ≤ 8 ∧ 8 < [1, 2, 3, 4, 5, 6, 7, 8, 9].length ∧
        quiet.TakesFeed (toFeed 42) (6 + 4 * [1, 2, 3, 4, 5, 6, 7, 8, 9].length) .a ∧ [1, 2, 3, 4, 5, 6, 7, 8].Nodup ∧ ¬ [7, 7].Nodup) ∧
      (∃ v ∈ (holding quiet [song]).store.versions, some 7 = some v.cart ∧ v.kind ≠ .bed) ∧
      (holding quiet [song]).TakesFeed (toFeed 6) (6 + 4 * ([] : List Nat).length) .a := by
  unfold State.TakesFeed; decide +kernel

/-- Outlet A alone with its entry armed at the current group time; the song's chain and check do not matter. -/
theorem witness_times_of_entries_are_reached :
    (let s := cued { inAir .onAir with entries := [armed .sequence], seqSlot := some 2 }
     s.powered = true ∧ s.horizon = none ∧ (s.out .a).air = .onAir ∧ (s.out .a).handBack = false ∧ (s.out .a).entries = [armed .sequence] ∧
      (s.out .a).airOrder = [] ∧ (armed .sequence).state = .armed ∧ (armed .sequence).kind = .item 7 ∧ s.voiceOf .a (.entry 2) = some 0 ∧
      s.voice 0 = some (voice .primed (.entry 2)) ∧ (voice .primed (.entry 2)).state = .primed ∧ (s.out .a).seqSlot = some 2 ∧
      (s.out .a).anchorSlot = none ∧ (armed .sequence).start = .time 960000 ∧ 960000 ≤ (s.elapse 0).now ∧
      (armed .sequence).lost = false ∧ ∀ k ∈ (s.out .a).tallies, k.key ≠ .entry 2) ∧
      (let s := cued { inAir .onAir with entries := [armed (.hard 960000)], anchorSlot := some 2 }
       (s.out .a).seqSlot = none ∧ (s.out .a).anchorSlot = some 2 ∧ (armed (.hard 960000)).mode = .hard 960000 ∧
        s.voice 0 = some (voice .primed (.entry 2)) ∧ (voice .primed (.entry 2)).sounding = false ∧ (∀ i : Fin 11, s.voice (i.val + 1) = none)) ∧
      (let x : Outlet := { inAir .standby with entries := [item 1 7 .sequence, item 2 7 (.hard 1056000)], seqSlot := some 1 }
       let t := holding (unit x (inAir .standby)) [song]
       let s : State := { t with voices := t.voices.map fun v => { v with use := some (voice .playing (.line 1)) } }
       (s.out .a).air = .standby ∧ (s.out .a).seqSlot = some 1 ∧ (s.out .a).anchorSlot = none ∧
        x.entries.find? (fun d => decide (d.state = .queued) && d.mode.hardTime.any (fun t => decide (t - 96000 ≤ (s.elapse 0).now))) =
          some (item 2 7 (.hard 1056000)) ∧ (∀ d ∈ x.entries, d.isBreak = false) ∧ s.store.usable 7 = some song ∧
        ∀ z ∈ s.voices, z.use = none → z.reserved ≠ some .a ∧ z.reserved ≠ none) ∧
      (let x := airing [item 2 7 .sequence, item 3 7 (.soft 960000)]
       let s := (holding (unit { x with seqSlot := some 2 } (inAir .standby)) [song])
       (s.out .a).entries = [] ++ onItem :: [item 2 7 .sequence] ++ item 3 7 (.soft 960000) :: [] ∧ ((s.out .a).entries.map Entry.tag).Nodup ∧
        (s.out .a).leadTag = some onItem.tag ∧ (∀ d ∈ [item 2 7 .sequence], d.state ≠ .onAir) ∧ 960000 ≤ (s.elapse 0).now ∧
        (item 2 7 .sequence).start ≠ .time 960000 ∧ s.voiceQueue = [] ∧ (s.elapse 0).stepUnit = none ∧ (s.out .a).inherit = none) := by
  decide +kernel

theorem witness_fire_lines_make_instants :
    (pressed .pressing true).powered = true ∧ (pressed .pressing true).lines[0]? = some { FireLine.reset with state := .pressing, active := true, since := 99040 } ∧
      (pressed .pressing true).cfg.lines[0]? = some { enabled := true, outlet := .a, cart := 7 } ∧ 99040 + 960 ≤ (pressed .pressing true).clock + 0 ∧
      (pressed .pressing true).isSelf .a = true ∧ ((pressed .pressing true).out .a).air = .onAir ∧
      (∀ e ∈ ((pressed .pressing true).out .a).entries, e.isBreak = true → e.state ≠ .onAir) ∧
      (pressed .pressing true).store.usable 7 = some song ∧ quiet.store.usable 7 = none ∧
      ((pressed .pressing true).lines[0]?).any (fun l => l.current == none) = true ∧
      (∃ z ∈ (pressed .pressing true).voices, z.use = none ∧ z.reserved = some .a) ∧
      (∀ z ∈ (pressed .pressing true).voices.map fun v => { v with use := some (voice .playing (.line 1)) }, z.use ≠ none) ∧
      ((unit .reset .reset).out .a).air = .dark ∧ quiet.cfg.lines[1]?.any (fun c => !c.enabled) = true := by
  decide +kernel

/-! Breaks -/

theorem witness_fits_fill_the_break :
    (fitBreak (holding quiet [song9 8 48000 .spot]).store true 4 48000 none (some 984000) (some (spotList 4 [(8, .must)])) [] none).isSome = true ∧
      (fitBreak (holding quiet [song]).store false 4 48000 (some 2) none none [] none).isSome = true := by
  decide +kernel

/-- Outlet B holding break 4, and with both its places taken. -/
def holds (b : FittedBreak) : State := follower.setOut .b { follower.out .b with place1 := some b }

def twoHeld : State :=
  follower.setOut .b { follower.out .b with place1 := some { fitted 990000 .armed [] with tag := 7 }, place2 := some { fitted 990000 .armed [] with tag := 8 } }

theorem witness_cues_are_taken :
    (follower.powered = true ∧ follower.Hears (head 16) 16 ∧ 1 ≤ goodCue.feed ∧ goodCue.feed ≤ 64 ∧ goodCue.tag ≠ 0 ∧ goodCue.cancel ≤ 1 ∧
        follower.isFollow .b = true ∧ (follower.ocfg .b).followFeed = goodCue.feed ∧ (follower.out .b).air ≠ .dark ∧
        (follower.elapse 0).followed .b = some 960000) ∧
      (∀ p, p ≠ OutletId.b → ¬ (follower.isFollow p = true ∧ (follower.ocfg p).followFeed = goodCue.feed ∧ (follower.out p).air ≠ .dark)) ∧
      ((holds (fitted 984000 .armed [])).out .b).place .first = some (fitted 984000 .armed []) ∧ (fitted 984000 .armed []).tag = goodCue.tag ∧
      ((holds (fitted 984000 .armed [])).out .b).place .second = none ∧ (fitted 984000 .running []).state ≠ .armed ∧
      (fitted 960000 .armed []).start = some 960000 ∧ (960000 : Time) < 960001 ∧ (fitted 984000 .armed []).len = max 48000 (min 43200000 goodCue.len) ∧
      (follower.out .b).place .first = none ∧ goodCue.start - 960000 = 24000 ∧ goodCue.cancel = 0 ∧
      (follower.out .b).spots.find? (fun l => l.tag == goodCue.tag) = some (spotList 4 [(8, .must)]) ∧
      (∀ l ∈ (quiet.out .b).spots, l.tag ≠ goodCue.tag) ∧ (twoHeld.out .b).place1.isSome = true ∧ (twoHeld.out .b).place2.isSome = true ∧
      (fitBreak quiet.store true 4 48000 none (some 984000) (some (spotList 4 [(8, .must)])) [] none = none) ∧
      (fitBreak follower.store true 4 48000 none (some 984000) (some (spotList 4 [(8, .must)])) [] none).isSome = true := by
  refine ⟨by unfold State.Hears; decide +kernel, ?_⟩
  refine ⟨fun p => ?_, by decide +kernel⟩
  cases p <;> decide

theorem witness_follow_breaks_start :
    (let s := follow (relaying .onAir 16384 (fitted 960240 .armed []))
     s.powered = true ∧ s.isFollow .b = true ∧ (s.out .b).place .first = some (fitted 960240 .armed []) ∧ (fitted 960240 .armed []).start = some 960240 ∧
      (s.elapse 0).followed .b = some 960000 ∧ (960240 - 240 : Time) ≤ 960000 ∧ (960000 : Time) < 960240 ∧ ((s.elapse 0).out .b).relay.mult.m1 ≠ 0) ∧
      (let s := follow (relaying .onAir 0 (fitted 912240 .running []))
       (fitted 912240 .running []).state = .running ∧ (fitted 912240 .running []).tail = .none ∧ (912240 + 48000 - 240 : Time) ≤ 960000 ∧ (960000 : Time) < 912240 + 48000 ∧
        ((s.elapse 0).out .b).relay.mult.value (s.elapse 0).clock = 0 ∧ ((s.elapse 0).out .b).relay.mult.m1 = 0) ∧
      (∀ k m, (follow (relaying k m (fitted 960000 .armed [slot 8 48000 0 .waiting]))).voiceQueue = []) ∧
      (fitted 960000 .armed []).state = .armed ∧ (960000 : Time) ≤ 960000 ∧ (fitted 960000 .armed []).ending = false ∧
      ((fitted 960000 .armed [slot 8 48000 0 .waiting]).items[0]?).any (fun it => it.progress != .substituted) = true ∧
      (∀ i : Fin 12, (follow (relaying .onAir 0 (fitted 960000 .armed []))).voice i = none) ∧ Air.standby.sends = false ∧
      ((follow (relaying .fallback 0 (fitted 960000 .armed []))).out .b).air = .fallback ∧
      (let s := follow (relaying .standby 0 shadowTail)
       s.powered = true ∧ s.isFollow .b = true ∧ s.horizon = none ∧ (s.out .b).place .first = some shadowTail ∧ shadowTail.start = some 950000 ∧
        (s.elapse 0).followed .b = some 960000 ∧ (s.out .b).air.sends = false ∧ (950000 + 48000 - 38400 : Time) ≤ 960000 ∧
        (960000 : Time) < 950000 + 48000 ∧ (∀ it ∈ shadowTail.items, it.mark = .elsewhere ∧ it.progress = .ended ∧
          (950000 + it.offset + it.playLen : Time) ≤ 960000)) := by
  refine ⟨by decide +kernel, by decide +kernel, fun _ _ => rfl, by decide +kernel⟩

/-- A SELF outlet whose taken-over BREAK entry has its rejoin at the current group time. -/
def silentBreak : Entry :=
  { item 2 7 .sequence with
    kind := .brk 4 48000, state := .onAir,
    air := { EntryAir.empty with start := some 912000, since := 52000, takenOver := true, silentUntil := some 960000 } }

/-- A step of group time by 8,000 samples inside the break is not among the samples it played: 40,000 from its actual start (R166). -/
theorem test_rejoin_after_a_step :
    let e : Entry := { silentBreak with air := { silentBreak.air with since := 60000, sounding := true, sounded := true } }
    after (.rejoin 0 .a none) (unit { inAir .onAir with entries := [e], airOrder := [2] } (inAir .standby)) (fun t =>
      t.log.records.map (fun r => (r.outcome, r.played, r.actual)) == [(.airedTakenOver, 40000, some 912000)]) = true := by
  decide +kernel

theorem witness_breaks_play_to_the_rejoin :
    (let b : FittedBreak := { fitted 960000 .running [slot 8 48000 0 .priming] with due := some 960000 }
     let s := breaking b (spotVoice .primed 0 false 0)
     s.powered = true ∧ s.horizon = none ∧ (s.out .b).place .first = some b ∧ b.state = .running ∧ (s.elapse 0).position .b = some 960000 ∧
      (s.out .b).air = .onAir ∧ (s.out .b).entries = [] ∧ (s.out .b).seqSlot = none ∧ (s.out .b).anchorSlot = none ∧ b.ending = false ∧
      b.cursor = 0 ∧ b.items[0]? = some (slot 8 48000 0 .priming) ∧ b.resume = none ∧ 480 ≤ (960000 + 48000 - 960000 : Time) ∧
      s.voiceOf .b (.slot .first 0) = some 0 ∧ s.voice 0 = some (spotVoice .primed 0 false 0) ∧ (s.elapse 0).stepOutlet .a = none ∧
      (let u := leaves (.itemDueTime 0 .b .first) s
       u.stepUnit = none ∧ (u.out .b).inherit = none)) ∧
      (let b := { fitted 912000 .running [slot 8 48000 0 .ended] with entryTag := some 2 }
       let s := (quiet.setOut .a { inAir .onAir with entries := [silentBreak], airOrder := [2], place1 := some b })
       (s.out .a).place .first = some b ∧ b.start = some 912000 ∧ (s.elapse 0).position .a = some 960000 ∧ (912000 + 48000 : Time) ≤ 960000 ∧
        (959999 : Time) < 912000 + 48000 ∧ (s.out .a).air.sends = true ∧ (s.out .a).entry 2 = some silentBreak ∧ silentBreak.state = .onAir) ∧
      (let b := { fitted 912480 .running [slot 8 48000 0 .sounding] with cursor := 1 }
       let s := breaking b (spotVoice .playing 47000 false 0)
       (s.elapse 0).voice 0 = some (spotVoice .playing 47000 false 0) ∧ (spotVoice .playing 47000 false 0).outlet = .b ∧
        (spotVoice .playing 47000 false 0).sounding = true ∧ (spotVoice .playing 47000 false 0).holder = .slot .first 0 ∧
        (912480 + 48000 - 480 : Time) ≤ 960000 ∧ (960000 : Time) < 912480 + 48000 ∧
        (912480 + 48000 - 960000 : Time).toNat < (spotVoice .playing 47000 false 0).passEnd - (spotVoice .playing 47000 false 0).sounded) ∧
      (let b : FittedBreak := { fitted 936000 .running [] with tail := .bed, tailLen := 48000, tailBegan := some 936000 }
       (spotVoice .playing 100 true 0).looping = true ∧ (0 : Nat) = b.items.length ∧ (936000 + 48000 - min (936000 + 48000 - 936000 : Time).toNat 24000 : Time) ≤ 960000 ∧
        (960000 : Time) < 936000 + 48000) ∧
      (let b : FittedBreak := { fitted 950000 .running [slot 9 10480 0 .substituted] with cursor := 1, due := some 960480 }
       0 + 1 = b.cursor ∧ b.due = some 960480 ∧ b.items[0]? = some (slot 9 10480 0 .substituted) ∧ (960480 - (0 : Nat) - 480 : Time) ≤ 960000) ∧
      (let x := { inAir .onAir with entries := [silentBreak], airOrder := [2] }
       x.entries.find? (fun e => decide (e.state = .onAir) && e.air.silentUntil.any fun t => decide (t ≤ (quiet.elapse 0).now)) = some silentBreak ∧
        (x.entries.map Entry.tag).Nodup) := by
  decide +kernel

/-! Voices and the store -/

theorem witness_blocks_are_judged_and_leave :
    (∀ w, (playing w).powered = true ∧ ((playing w).elapse 0).voice 0 = some w) ∧ ({ soundingAt 543 with judged := 1 } : VoiceUse).judgeDue 100000 = false ∧
      ({ soundingAt 544 with judged := 1 } : VoiceUse).judgeDue 100000 = true ∧
      ({ soundingAt 544 with judged := 1, ring := [full 1] } : VoiceUse).ring.find? (fun b => b.ord == 1) = some (full 1) ∧ (full 1).flagged = false ∧
      ({ full 1 with flagged := true } : RingBlock).flagged = true ∧ (∀ b ∈ (soundingAt 544).ring, b.ord ≠ 1) ∧ (soundingAt 544).underrun = false ∧
      ({ soundingAt 544 with underrun := true } : VoiceUse).underrun = true ∧
      ¬ ((soundingAt 1023).sounding = true ∧ (soundingAt 1023).blockDone = true) ∧ ((soundingAt 1024).sounding = true ∧ (soundingAt 1024).blockDone = true) ∧
      (soundingAt 1024).stream = .valid crcInit 0 ∧ (soundingAt 1024).leftOrd < (soundingAt 1024).firstBlocks ∧
      (let w : VoiceUse := { soundingAt 9600 with looping := true, leftOrd := 5, passes := 2 }
       w.firstBlocks ≤ w.leftOrd ∧ w.blockDone = true) ∧
      ¬ ((soundingAt 4800).looping = true ∧ (soundingAt 4800).atPassEnd = true) ∧
      (let w : VoiceUse := { soundingAt 4800 with looping := true, leftOrd := 5 }
       w.looping = true ∧ w.atPassEnd = true ∧ w.streamDone = none ∧ w.blockDone = false ∧ w.stream = .valid crcInit 0 ∧
        (playing w).store.find w.cart w.serial = some { song with useCount := 1 } ∧ crcFinal crcInit = { song with useCount := 1 }.check ∧
        crcFinal (crcUpdate crcInit [1]) ≠ { song with useCount := 1 }.check) ∧
      ({ soundingAt 4800 with streamDone := some .pass } : VoiceUse).streamDone.isSome = true := by
  exact ⟨fun _ => ⟨rfl, rfl⟩, by decide +kernel⟩

def ramping (stop : Nat) : VoiceUse := { soundingAt 700 with state := .ramping, mult := { start := stop - 480, m0 := 16384, m1 := 0, n := 480 } }

theorem witness_voices_end :
    (∀ w, (playing w).powered = true ∧ ((playing w).elapse 0).voice 0 = some w ∧ (playing w).voiceQueue = []) ∧
      ((ramping 100000).state = .ramping ∧ (ramping 100000).mult.stop ≤ 100000) ∧ ¬ (ramping 100001).mult.stop ≤ 100000 ∧
      ((soundingAt 4800).looping = false ∧ (soundingAt 4800).sounding = true ∧ (soundingAt 4800).passEnd ≤ (soundingAt 4800).sounded) ∧
      ¬ (soundingAt 4799).passEnd ≤ (soundingAt 4799).sounded ∧ (soundingAt 4800).holder = .entry 1 ∧ (airing []).entry 1 = some onItem ∧
      onItem.air.offset ≤ 0 ∧ ({ onItem with air := { onItem.air with offset := 1 } } : Entry).air.offset = 1 ∧
      (let f : Instant := { cart := 7, serial := 1, fire := 955000, waiting := false, actual := some 955100 }
       let s : State := { playing { soundingAt 4800 with holder := .line 0 } with lines := { FireLine.reset with current := some f } :: List.replicate 7 .reset }
       s.lines[0]? = some { FireLine.reset with current := some f } ∧ (s.elapse 0).voice 0 = some { soundingAt 4800 with holder := .line 0 }) ∧
      (let b := { fitted 912480 .running [slot 8 48000 0 .sounding] with cursor := 1 }
       let s := breaking b (spotVoice .playing 48000 false 0)
       (s.elapse 0).voice 0 = some (spotVoice .playing 48000 false 0) ∧ (spotVoice .playing 48000 false 0).holder = .slot .first 0 ∧
        (s.out .b).place .first = some b ∧ b.ending = false ∧ b.items[0]? = some (slot 8 48000 0 .sounding) ∧
        (spotVoice .playing 48000 false 0).passEnd ≤ (spotVoice .playing 48000 false 0).sounded ∧ (slot 8 48000 0 .sounding).progress = .sounding) ∧
      ({ inAir .onAir with periods := [period] } : Outlet).periods.find? (fun q => q.id == 3) = some period := by
  exact ⟨fun _ => ⟨rfl, rfl, rfl⟩, by decide +kernel⟩

theorem witness_transfers_complete :
    (∀ k, (moving k).powered = true ∧ (moving k).isolated = false ∧ (moving k).transfer = some { kind := k, stale := false }) ∧
      (((moving (.priming 0 3)).elapse 0).voice 0).any (fun w => w.nextOrd == 3) = true ∧
      (moving (.priming 0 3)).store.find 7 1 = some { song with useCount := 1 } ∧
      (let s := holding quiet [{ loading with received := 12 }]
       s.store.find 7 1 = some { loading with received := 12 } ∧ memWf s.store.mem = true ∧
        ∀ j < 2, ∀ k < 2, byteAddr loading.chain (10 + j) = byteAddr loading.chain (10 + k) → j = k) ∧
      (holding quiet [verifying]).store.find 7 1 = some verifying ∧ verifying.role = .current ∧ verifying.useCount = 0 ∧ 6 * verifying.len ≤ 0 + 6 ∧ 0 + 5 < 6 * verifying.len ∧
      crcFinal (crcUpdate 0xFFFFFFFF#32 [0, 0, 0, 0, 0, 0]) = verifying.check ∧ crcFinal (crcUpdate 0xFFFFFFFF#32 [0, 0, 0, 0, 0, 1]) ≠ verifying.check := by
  exact ⟨fun _ => ⟨rfl, rfl, rfl⟩, by decide +kernel⟩

theorem witness_cart_requests_are_answered :
    quiet.TakesUnit (toUnit 22) 22 ∧ quiet.TakesUnit (toUnit 1162) (10 + (List.replicate 1152 (1 : Byte)).length) ∧ quiet.TakesUnit (toUnit 4) 4 ∧
      (let s := holding quiet [song, { song with serial := 2, role := .incoming, state := .loading }]
       (∃ v ∈ s.store.versions, v.cart = goodCart.cart ∧ v.role = .incoming) ∧ s.TakesUnit (toUnit 22) 22) ∧
      (∃ v, (holding quiet [loading]).store.current goodCart.cart = some v ∧ (v.state = .loading ∨ v.state = .verifying)) ∧
      (∀ v ∈ quiet.store.versions, v.cart ≠ goodCart.cart) ∧ quiet.store.current goodCart.cart = none ∧ (6 * 172800000 + 65535) / 65536 ≤ runsCount quiet.store.free ∧
      (let s := { quiet with store := { paged with versions := [{ song with state := .quarantined, chain := [{ lo := 0, n := 1 }] }] } }
       (∃ v, s.store.current goodCart.cart = some v ∧ v.state = .quarantined ∧ v.useCount = 0)) ∧
      (6 * goodCart.len + 65535) / 65536 = 1 ∧ runsCount ({ quiet.store with free := [] } : Store).free < 1 ∧
      (holding quiet [loading]).store.loading 7 = some loading ∧ (∀ w ∈ (holding quiet [loading]).store.versions, w.useCount = 0) ∧ quiet.store.loading 7 = none ∧ 0 ≠ (1 : Nat) ∧ 0 + 1152 ≤ 6 * loading.len ∧
      64 ≤ (List.replicate 64 ({ cart := 7, serial := 1, offset := 0, bytes := [] } : Payload)).length ∧
      ({ loading with received := 28800 } : Version).received = 6 * loading.len ∧ (∃ v ∈ (holding quiet [song]).store.versions, v.cart = 7 ∧ v.role = .current) := by
  refine ⟨?_, ?_, ?_, ⟨by decide, ?_⟩, ⟨loading, by decide, .inl rfl⟩, by decide, by decide, by decide, ⟨_, rfl, rfl, rfl⟩, by decide +kernel⟩
  all_goals unfold State.TakesUnit; decide +kernel

/-- Dropping needs the pages shared out: `witness_every_step_keeps_pages_shared_out` has such a store, with a version of the cart dropped. -/
theorem witness_cart_drop_pages : paged.Paged ∧ ∃ v ∈ paged.versions, v.cart = 7 ∧ v.role = .current ∧ v.state = .ready := ⟨paged_paged, _, List.mem_singleton.mpr rfl, rfl, rfl, rfl⟩

theorem witness_cart_open_pages :
    ({ paged with versions := [{ song with state := .quarantined, chain := [{ lo := 0, n := 1 }] }] } : Store).Paged := by
  have h := paged_paged
  exact ⟨by decide, by decide, h.2.2⟩

/-! The relay, the meters and the confidence monitor -/

theorem witness_relay_slots_are_judged :
    (follow (relayed 99 [])).powered = true ∧ (quiet.out .b).relay.position = none ∧ ((follow (relayed 99 [])).elapse 0 |>.out .b).relay.position = some 960000 ∧
      (960000 : Time) / 48 * 48 = 960000 ∧ ((follow (relayed 99 [])).elapse 47 |>.out .b).relay.position = some 960047 ∧
      (relayed 1 [frameOf 960000]).relay.buffer.find? (fun g => g.time == 960000) = some (frameOf 960000) ∧
      (∀ g ∈ (relayed 99 [frameOf 960048]).relay.buffer, g.time ≠ 960000) ∧ (relayed 99 []).relay.state = .relaying ∧ 99 ≤ (relayed 99 []).relay.missing ∧
      (relayed 98 []).relay.missing < 99 ∧ (∀ y, (relayed 99 []).relay.slot ≠ some (960000, y)) ∧
      (∃ y, ({ (relayed 99 []).relay with slot := some (960000, none) } : Relay).slot = some (960000, y)) ∧
      (let r : Relay := { (relayed 0 []).relay with state := .lost }
       r.state = .lost ∧ (relayed 0 []).inBreak = false) := by
  refine ⟨rfl, rfl, rfl, by decide, by decide, by decide, by decide, rfl, by decide, by decide, by rintro y ⟨⟩, ⟨_, rfl⟩, rfl, by decide⟩

/-- A full-scale sine's mean square is far above -44 dBFS, silence below -50 dBFS. -/
theorem witness_meter_blocks_are_judged :
    (∀ m, (unit (metered m) (inAir .standby)).powered = true ∧ (((unit (metered m) (inAir .standby)).elapse 0).out .a).meter .programme =
        { m with running := true, buf := [span 958976 1024 false] }) ∧
      1024 ≤ spansLen [span 958976 1024 false] ∧ spansLen [span 958976 1023 false] < 1024 ∧
      ((takeSamples false 1024 [span 958976 1024 false]).1.map SampleFrame.limited).map (fun f => f.l.natAbs * f.l.natAbs + f.r.natAbs * f.r.natAbs) =
        List.replicate 1024 0 ∧
      (0 * 10 ^ 5 < 2 ^ 56 ∧ ¬ 2 ^ 280 < 0 ^ 5 * 10 ^ 22) ∧ (¬ 720575940380 * 10 ^ 5 < 2 ^ 56 ∧ 720575940379 * 10 ^ 5 < 2 ^ 56) ∧
      (2 ^ 280 < 2868700000000 ^ 5 * 10 ^ 22 ∧ ¬ 2 ^ 280 < 2868600000000 ^ 5 * 10 ^ 22) ∧
      (∀ q, (Meter.reset.accepted).head? ≠ some q) ∧ (∀ q, Meter.reset.held ≠ some q) ∧ Meter.reset.detector = .live ∧
      ((234 : Nat) + 1 = 235 ∧ (46 : Nat) + 1 = 47) ∧
      (max (720575940380 * 10 ^ 12) (2 ^ 56) ≤ 10 ^ 4 * max (72057594038 * 10 ^ 12) (2 ^ 56) ∧
        ¬ max (720575940380 * 10 ^ 12) (2 ^ 56) ≤ 10 ^ 4 * max (0 * 10 ^ 12) (2 ^ 56)) ∧
      (max (720575940380 * 10 ^ 12) (2 ^ 56) ^ 5 ≤ 10 ^ 3 * max (720575940380 * 10 ^ 12) (2 ^ 56) ^ 5 ∧ 2 ^ 56 ≤ 720575940380 * 10 ^ 5) ∧
      quiet.isFollow .b = true ∧ quiet.isFollow .a = false ∧ ((follow (inAir .fallback)).out .b).air = .fallback ∧
      (∀ p, ((follow (inAir .fallback)).out .b).place p = none) := by
  refine ⟨fun m => ⟨rfl, rfl⟩, by decide, by decide, by decide +kernel, by decide +kernel, by decide +kernel, by decide +kernel, nofun, nofun, rfl, by decide, by decide, by decide,
    by decide, by decide, rfl, eachPlace rfl rfl⟩

theorem witness_echoes_are_kept :
    (let x := { inAir .onAir with echoBuf := [span 959996 4 true, span 960000 96 false] }
     let s := unit x (inAir .standby)
     s.powered = true ∧ ((s.elapse 0).out .a).echoBuf = span 959996 4 true :: [span 960000 96 false] ∧
      (959996 / 4800 * 4800 + 4800 - 959996 : Time).toNat = 4 ∧ 4 ≤ spansLen x.echoBuf ∧
      ((takeSamples false 4 x.echoBuf).1.map SampleFrame.limited).length = 4 ∧ (∀ h ∈ x.history, h.block ≠ 955200) ∧ spansLen [span 959996 3 true] < 4) ∧
      State.reset.disc.groupTime = none ∧ (quiet.elapse 0).disc.groupTime = some 960000 ∧
      (let x := { inAir .onAir with history := [hist 878400 .mismatch], mismatchRun := 2 }
       x.history.filter (fun h => decide (h.block + 81600 ≤ 960000)) = [hist 878400 .mismatch] ∧ x.air.sends = true ∧ x.mismatchRun = 2) ∧
      (hist 878401 .mismatch).block + 81600 = 960001 ∧ (hist 878400 .pending).result = none ∧ (hist 878400 .pending).tap ≠ .mismatch ∧
      (let s := unit { inAir .standby with openBlock := some { block := 950400, frames := [] } } (inAir .standby)
       ((s.elapse 0).out .a).openBlock = some { block := 950400, frames := [] } ∧ (s.elapse 0).monitored .a = some 10 ∧ (950400 + 9600 : Time) ≤ 960000 ∧
        (960000 : Time) < 950401 + 9600) ∧
      (quiet.out .a).openBlock = none ∧
      (let x := { inAir .onAir with history := [hist 950400 .pending] }
       x.history.find? (fun h => h.block == 950400) = some (hist 950400 .pending) ∧ (2 : Crc) = (hist 950400 .pending).driven ∧
        (3 : Crc) ≠ (hist 950400 .pending).driven ∧ (hist 950400 .match).tap ≠ .pending ∧ (∀ h ∈ x.history, h.block ≠ 955200)) ∧
      ({ hist 950400 .pending with result := some .confirmed } : HistEntry).result.isSome = true := by
  decide +kernel

/-! Clauses with more of the machine in them: voices of entries and breaks beside one another -/

/-- The unit with what its second voice holds. -/
def with1 (s : State) (u : VoiceUse) : State := s.setVoice 1 (some u)

theorem witness_samples_join_the_meters :
    (quiet.out .a).air.sends = false ∧
      (let x := { inAir .onAir with echoSkip := true, programme := .started, source := .started }
       let s (t : Time) : State := { unit x (inAir .standby) with disc := { quiet.disc with groupTime := some t } }
       (∀ t, ((s t).out .a).air.sends = true ∧ ((s t).out .a).echoSkip = true ∧ ((s t).out .a).programme.running = true ∧
          ((s t).out .a).source.running = true) ∧
        1 ≤ ((-((s 960001).mixSpan .a 1).time) % 48).toNat ∧ ((-((s 960001).mixSpan .a 48).time) % 48).toNat < 48) ∧
      ((unit (inAir .onAir) (inAir .standby)).out .a).echoSkip = false := by
  refine ⟨rfl, ⟨fun _ => ⟨rfl, rfl, rfl, rfl⟩, by decide +kernel⟩, rfl⟩

/-- A lead that has played to the end of its ramp leaves. -/
def ended : State := playing { soundingAt 700 with state := .ramping, mult := { start := 99520, m0 := 16384, m1 := 0, n := 480 } }

theorem witness_an_entry_leaves :
    ∃ t, exec (.rampEnd 0 0) ended = .next t ∧ ∃ e ∈ (ended.out .a).entries, ∀ d ∈ (t.out .a).entries, d.tag ≠ e.tag :=
  ⟨_, rfl, by decide +kernel⟩

theorem witness_isolation_ends_sending :
    ∃ t, exec (.beaconReceived 0 { head 186 with sender := 5 } goodBeacon) (unit (inAir .onAir) (inAir .standby)) = .next t ∧
      ((unit (inAir .onAir) (inAir .standby)).out .a).air.sends ≠ (t.out .a).air.sends ∧ t.isolated = true :=
  ⟨_, rfl, by decide +kernel⟩

/-- Node 16 has the oldest of the STALE beacons but node 20's, whose entry a new beacon takes. -/
theorem witness_a_displaced_node_is_forgotten :
    ∃ q ∈ (crowded 20).peers, ∀ r ∈ ((crowded 20).elapse 0 |>.enterBeacon 9 goodBeacon).peers, r.node ≠ q.node := by
  decide +kernel

/-- A shadow of three entries, the third its lead, with its second entry QUEUED, or ON_AIR without being the lead. -/
def shadow (k : EntryState) : Outlet :=
  { inAir .standby with
    entries := [item 1 7 .sequence, { item 2 7 .sequence with state := k }, { onItem with tag := 3 }], airOrder := [3] }

theorem witness_shadows_advance :
    let b : AudioBody := { goodAudio with leadTag := 2, entryOffset := 480 }
    (∀ k, (unit (shadow k) (inAir .standby)).Carries .a b.feed ∧ (unit (shadow k) (inAir .standby)).isSelf .a = true) ∧
      b.leadTag ≠ 0 ∧ (item 2 7 .sequence).lost = false ∧
      (∀ k, (shadow k).leadTag ≠ some 2 ∧ (shadow k).seqSlot ≠ some 2 ∧ ((shadow k).entries.map Entry.tag).Nodup) ∧
      quiet.cfg.refFeed ≠ b.feed ∧ ∀ p, quiet.isFollow p = true → (quiet.ocfg p).followFeed ≠ b.feed := by
  refine ⟨fun k => ⟨carries _ rfl (by cases k <;> decide), rfl⟩, by decide, rfl, fun k => by cases k <;> decide +kernel, by decide,
    eachOutlet (by decide) (by decide) (by decide) (by decide)⟩

/-- Times of every kind waited for, and none. -/
theorem witness_passed_times_wait :
    (∃ g, quiet.disc.groupTime = some g ∧ g + 480 < (960481 : Time)) ∧
      (let x := { inAir .onAir with
          entries := [item 1 7 (.soft 960000), item 2 7 (.hard 2000000), { item 3 7 .sequence with start := .time 959000 }],
          place1 := some (fitted 912480 .running [slot 8 48000 0 .ended]) }
       let s := unit x (inAir .standby)
       s.isSelf .a = true ∧ (x.entries.map Entry.mode) = [.soft 960000, .hard 2000000, .sequence] ∧
        ((x.entries[2]?).map Entry.start) = some (.time 959000) ∧ (x.place .first).map FittedBreak.state = some .running ∧
        (s.nextDue 950000 []).isSome = true ∧ s.nextDue 960001 [] = none) := by
  decide +kernel

theorem witness_stopped_spells_are_framed :
    (let x := { inAir .onAir with unsent := [span 959520 40 false, span 959900 8 true] }
     spellLen false x.unsent < spansLen x.unsent ∧ ((quiet.setOut .a x).elapse 0 |>.out .a).unsent = [span 959520 40 false] ++ [span 959900 8 true]) ∧
      (let x := { inAir .standby with unsent := [span 959520 40 false] }
       x.air.sends = false ∧ ((quiet.setOut .a x).elapse 0 |>.out .a).unsent = span 959520 40 false :: []) := by
  decide +kernel

/-- Entry 3, armed as an anchor for now with its voice PRIMED, behind the ON_AIR entry 1, which sounds, and entry 2, which has not begun. -/
def anchored : State :=
  with1 (playing (soundingAt 1000)) (voice .primed (.entry 3)) |>.setOut .a
    { airing [item 2 7 .sequence, { armed (.hard 960000) with tag := 3 }] with anchorSlot := some 3 }

theorem witness_anchors_cut_what_is_on_the_air :
    let x := anchored.out .a
    anchored.powered = true ∧ anchored.horizon = none ∧ x.air = .onAir ∧ x.handBack = false ∧
      x.entries = [onItem, item 2 7 .sequence] ++ { armed (.hard 960000) with tag := 3 } :: [] ∧ (x.entries.map Entry.tag).Nodup ∧
      x.anchorSlot = some 3 ∧ x.seqSlot ≠ some 3 ∧ 960000 ≤ (anchored.elapse 0).now ∧ (armed (.hard 960000)).lost = false ∧
      (∀ d ∈ x.entries, d.state = .onAir → d.isBreak = false ∧ d.air.sounding = true ∧ d.air.silentUntil = none) ∧ anchored.voiceQueue = [] ∧
      (anchored.elapse 0).voice 0 = some (soundingAt 1000) ∧ (soundingAt 1000).outlet = .a ∧ (soundingAt 1000).sounding = true ∧
      (∀ p k, (soundingAt 1000).holder ≠ .slot p k) ∧ ∀ d ∈ [onItem, item 2 7 .sequence], d.state ≠ .onAir → (soundingAt 1000).holder ≠ .entry d.tag := by
  refine ⟨rfl, rfl, rfl, rfl, rfl, by decide +kernel, rfl, by decide +kernel, by decide +kernel, rfl, by decide +kernel, rfl, rfl, rfl, rfl, nofun,
    by decide +kernel⟩

/-- Entry 2 armed for now behind entry 1, which sounds, a spot or not; with the fade flag or without. -/
def segued (fade : Bool) (kind : CartKind) : State :=
  with1 (sounding (holding (unit (airing []) (inAir .standby)) [{ song with useCount := 1, kind := kind }]) (soundingAt 1000)) (voice .primed (.entry 2)) |>.setOut .a
    { inAir .onAir with entries := [{ onItem with fade := fade }, armed .sequence], airOrder := [1], seqSlot := some 2 }

theorem witness_items_start_over_their_lead :
    ∀ fade, ∀ kind ∈ [CartKind.song, .spot], let s := segued fade kind
    let x := s.out .a
    s.powered = true ∧ s.horizon = none ∧ x.air = .onAir ∧ x.handBack = false ∧ (x.entries.map Entry.tag).Nodup ∧ x.leadTag = some 1 ∧
      x.entry 1 = some { onItem with fade := fade } ∧ onItem.kind = .item 7 ∧ x.seqSlot = some 2 ∧ x.anchorSlot = none ∧
      x.entry 2 = some (armed .sequence) ∧ (armed .sequence).start = .time 960000 ∧ 960000 ≤ (s.elapse 0).now ∧
      (s.elapse 0).voiceOf .a (.entry 2) = some 1 ∧ ((s.store.find 7 1).map Version.kind = some kind) ∧
      (s.elapse 0).voice 1 = some (voice .primed (.entry 2)) ∧ (s.elapse 0).voiceOf .a (.entry 1) = some 0 ∧
      (s.elapse 0).voice 0 = some (soundingAt 1000) ∧ (soundingAt 1000).sounded < (soundingAt 1000).passEnd := by
  decide +kernel

/-- A BREAK entry armed for now, its break's first voice PRIMED. -/
def breakEntry : Entry := { armed .sequence with kind := .brk 4 48000, serial := none }

def breakUp (announced : Bool) : State :=
  sounding
    (holding
      (unit
        { inAir .onAir with
          entries := [breakEntry], seqSlot := some 2,
          place1 := some { fitted 960000 .armed [slot 8 48000 0 .priming] with entryTag := some 2, start := none, announced := announced } }
        (inAir .standby))
      [{ song9 8 48000 .spot with useCount := 1 }])
    { spotVoice .primed 0 false 0 with outlet := .a }

theorem witness_break_entries_start :
    ∀ announced, let s := breakUp announced
    let x := s.out .a
    let b : FittedBreak := { fitted 960000 .armed [slot 8 48000 0 .priming] with entryTag := some 2, start := none, announced := announced }
    s.powered = true ∧ s.horizon = none ∧ x.air = .onAir ∧ x.handBack = false ∧ s.isSelf .a = true ∧ s.disc.groupTime.isSome = true ∧
      (x.entries.map Entry.tag).Nodup ∧ x.airOrder = [] ∧ (∀ d ∈ x.entries, d.state ≠ .onAir) ∧ x.seqSlot = some 2 ∧ x.anchorSlot = none ∧
      x.entry 2 = some breakEntry ∧ breakEntry.kind = .brk 4 48000 ∧ breakEntry.state = .armed ∧ breakEntry.lost = false ∧
      breakEntry.start = .time 960000 ∧ x.fitOf 2 = some .first ∧ x.place .first = some b ∧ b.ending = false ∧ b.resume = none ∧
      b.items[0]? = some (slot 8 48000 0 .priming) ∧ (s.elapse 0).voiceOf .a (.slot .first 0) = some 0 ∧
      ((s.elapse 0).voice 0).any (fun w => w.state == .primed) = true := by
  decide +kernel

/-- A line pressed long enough whose instant sounds, or has not begun. -/
def refired (waiting : Bool) (actual : Option Time) : State :=
  let s := pressed .pressing true
  { s with lines := s.lines.set 0 { s.line 0 with current := some { cart := 7, serial := 1, fire := 950000, waiting := waiting, actual := actual } } }

theorem witness_lines_fire_again :
    (∀ w t, (refired w t).isSelf .a = true ∧ ((refired w t).out .a).air = .onAir ∧ (refired w t).store.usable 7 = some song ∧
        (refired w t).lines[0]?.bind FireLine.current = some { cart := 7, serial := 1, fire := 950000, waiting := w, actual := t }) ∧
      (∃ t : Time, (some t).isSome = true) ∧
      (let s := sounding (refired false (some 950100)) (voice .playing (.line 0))
       (s.elapse 0).voiceOf .a (.line 0) = some 0 ∧ ((s.elapse 0).voice 0).any VoiceUse.sounding = true) ∧
      (let s := sounding (refired false none) (voice .primed (.line 0))
       (s.elapse 0).voiceOf .a (.line 0) = some 0 ∧ (s.elapse 0).voice 0 = some (voice .primed (.line 0))) := by
  refine ⟨fun _ _ => ⟨rfl, rfl, rfl, rfl⟩, ⟨0, rfl⟩, by decide +kernel⟩

/-- Break 4 held for another start: too close now, far enough with no list, and refitted where the first place is free or not. -/
theorem witness_cues_refit :
    let f := fitted 990000 .armed []
    let s := holds f
    let bare := follow { inAir .standby with place1 := some f }
    let second := follower.setOut .b { follower.out .b with place1 := some { f with tag := 9 }, place2 := some f }
    (s.out .b).place .first = some f ∧ f.tag = goodCue.tag ∧ f.state = .armed ∧ f.start = some 990000 ∧ (960000 : Time) < 990000 ∧
      (∀ q g, (s.out .b).place q = some g → g.tag = goodCue.tag → q = .first) ∧ ¬ (f.start = some goodCue.start ∧ f.len = 48000) ∧
      (970000 : Time) - 960000 < 24000 ∧ (24000 : Time) ≤ goodCue.start - 960000 ∧ (∀ l ∈ (bare.out .b).spots, l.tag ≠ goodCue.tag) ∧
      (s.out .b).spots.find? (fun l => l.tag == goodCue.tag) = some (spotList 4 [(8, .must)]) ∧
      (second.out .b).place .second = some f ∧ (second.out .b).place1.isSome = true ∧
      (fitBreak ((s.elapse 0).releaseFollow .b .first 960000).store true 4 48000 none (some 984000) (some (spotList 4 [(8, .must)])) [] none).isSome =
        true ∧
      fitBreak ((bare.elapse 0).releaseFollow .b .first 960000).store true 4 48000 none (some 984000) (some (spotList 4 [(8, .must)])) [] none =
        none := by
  refine ⟨by decide +kernel, rfl, rfl, rfl, by decide, fun q g => ?_, by decide +kernel⟩
  cases q
  · exact fun _ _ => rfl
  · show (none : Option FittedBreak) = some g → _
    nofun

theorem witness_first_items_sound_at_the_start :
    let b := fitted 960000 .armed [slot 8 48000 0 .priming]
    let s := breaking b (spotVoice .primed 0 false 0)
    s.powered = true ∧ s.isFollow .b = true ∧ s.horizon = none ∧ (s.out .b).place .first = some b ∧ b.state = .armed ∧
      (s.elapse 0).followed .b = some 960000 ∧ (s.out .b).air = .onAir ∧ b.ending = false ∧ b.resume = none ∧
      b.items[0]? = some (slot 8 48000 0 .priming) ∧ (480 : Time) ≤ 960000 + 48000 - 960000 ∧
      (s.elapse 0).voiceOf .b (.slot .first 0) = some 0 ∧ (s.elapse 0).voice 0 = some (spotVoice .primed 0 false 0) := by
  decide +kernel

/-- Breaks at their rejoin, with a voice still sounding, and alone on an outlet that sends or does not. -/
theorem witness_rejoins :
    let b := { fitted 912000 .running [slot 8 48000 0 .sounding] with cursor := 1 }
    let s := breaking b (spotVoice .playing 47990 false 0)
    (s.out .b).place .first = some b ∧ (s.elapse 0).position .b = some 960000 ∧ (912000 + 48000 : Time) ≤ 960000 ∧ b.ending = false ∧
      (s.out .b).air.sends = true ∧ s.isFollow .b = true ∧ (s.out .b).inFallback = false ∧ (s.out .b).place .second = none ∧
      ((follow (relaying .standby 0 b)).out .b).air.sends = false := by
  decide +kernel

/-- A looping voice that ends as its first pass does. -/
def looped (c : StreamCtx) : VoiceUse := { ramping 100000 with sounded := 4800, looping := true, leftOrd := 5, stream := c }

theorem witness_looping_voices_end :
    (∀ c ∈ [StreamCtx.void, .valid crcInit 0], (looped c).atPassEnd = true ∧ (looped c).streamDone = none ∧ (looped c).blockDone = false ∧
        (looped c).state = .ramping ∧ (looped c).mult.stop ≤ 100000 ∧ (looped c).stream = c) ∧
      (playing (looped .void)).store.find 7 1 = some { song with useCount := 1 } := by
  decide +kernel

/-- A paged store with a verified incoming version beside a current one, and with one awaiting discard. -/
def replacing (use : Nat) (r : Role) (check : Crc) : Store :=
  { paged with
    versions :=
      [{ song with chain := [{ lo := 0, n := 1 }], useCount := use },
        { verifying with serial := 2, role := r, check := check, chain := [{ lo := 1, n := 1 }] }]
    free := [{ lo := 2, n := 524286 }] }

theorem replacing_paged (use : Nat) (r : Role) (check : Crc) : (replacing use r check).Paged := by
  refine ⟨by simp [replacing, paged, Version.key, song, version, verifying, loading], by
    intro v h
    simp only [replacing, List.mem_cons, List.not_mem_nil, or_false] at h
    rcases h with rfl | rfl
    · show runsCount [{ lo := 0, n := 1 }] = pagesFor 4800; decide
    · show runsCount [{ lo := 1, n := 1 }] = pagesFor 1; decide, fun p => ?_⟩
  show List.countP _ [_] + (List.map _ [_, _]).sum = _
  simp only [List.countP_cons, List.countP_nil, PageRun.has, List.map_cons, List.map_nil, List.sum_cons, List.sum_nil, Bool.and_eq_true,
    decide_eq_true_eq]
  split <;> split <;> split <;> split <;> omega

theorem witness_incoming_versions_are_judged :
    (∀ use r check, (replacing use r check).Paged ∧
      (replacing use r check).find 7 2 = some { verifying with serial := 2, role := r, check := check, chain := [{ lo := 1, n := 1 }] }) ∧
      6 * verifying.len ≤ 0 + 6 ∧ crcFinal (crcUpdate 0xFFFFFFFF#32 [0, 0, 0, 0, 0, 0]) = 0xB1C2A1A3 ∧
      crcFinal (crcUpdate 0xFFFFFFFF#32 [0, 0, 0, 0, 0, 0]) ≠ 7 ∧ (some (9 : Nat)).isSome = true ∧
      (∀ use ∈ [0, 1], ((replacing use .incoming 0xB1C2A1A3).current 7).map (fun v => (v.serial, v.useCount)) = some (1, use)) ∧
      (Role.incoming ≠ .discarding ∧ Role.current ≠ .incoming) := by
  refine ⟨fun _ _ _ => ⟨replacing_paged _ _ _, rfl⟩, by decide, by decide +kernel, by decide +kernel, rfl, by decide +kernel, by decide⟩

/-! Takeovers inside a break -/

/-- The BREAK entry 2 as the shadow lead of outlet A at the end of its claim, its view inside the break, and a fit of break 4 or none. -/
def breakView (brk : Nat) (offset : Int) : OwnerView := { view 2 with entryOffset := offset, breakTag := brk, breakOffset := offset }

def shadowBreak : Entry := { silentBreak with air := { EntryAir.empty with start := some 950000 } }

def taken (v : OwnerView) (b : Option FittedBreak) : State :=
  { unit { inAir .claiming with view := some v, entries := [shadowBreak], airOrder := [2], place1 := b } (inAir .standby) with store := paged }

/-- Two songs of 4,800 samples with 10,000 between them, and a tail of the song as its bed. -/
def twoSongs (tail : TailKind) : FittedBreak :=
  { fitted 950000 .running [{ slot 7 4800 0 .waiting with serial := 1, join := 10000 }, { slot 7 4800 14800 .waiting with serial := 1 }] with
    entryTag := some 2, tail := tail, tailLen := 28400, bedCart := some (7, 1) }

/-- 2,448 samples after the frame seen last: part-way into the first song, in the gap behind it, in the tail, and at the break's end. -/
theorem witness_takeovers_inside_a_break :
    let at_ (offset : Int) (tail : TailKind) (p : FittedBreak → Bool) : Bool :=
      after (.claimWindowExpiry 2400 .a) (taken (breakView 4 offset) (some (twoSongs tail))) fun t =>
        ((t.out .a).place .first).any fun f => f.state == .running && p f
    at_ 1000 .bed (fun f => f.cursor == 0 && f.resume == some (0, 3448, 1352) && f.due == some 962400 && f.start == some 958952) = true ∧
      at_ 5000 .bed (fun f => f.cursor == 1 && f.resume == none && f.due == some 969752 && f.items.map BreakItem.mark == [.elsewhere, .here]) =
        true ∧
      at_ 30000 .bed (fun f => f.cursor == 2 && f.tailBegan == some 949552 && f.tailSkip == 3248) = true ∧
      at_ 30000 .silence (fun f => f.cursor == 2 && f.tailBegan == some 962400 && f.due == some 962400) = true ∧
      after (.claimWindowExpiry 2400 .a) (taken (breakView 4 45552) (some (twoSongs .bed))) (fun t =>
        (t.out .a).place .first == none && (t.out .a).entries == []) = true := by
  decide +kernel

theorem witness_breaks_taken_over :
    (∀ v b, (taken v b).powered = true ∧ (taken v b).horizon = none ∧ ((taken v b).out .a).air = .claiming ∧
        ((taken v b).out .a).claimSince + 2400 ≤ (taken v b).clock + 2400 ∧ (taken v b).isSelf .a = true ∧ ((taken v b).out .a).view = some v ∧
        (taken v b).store.Paged ∧ ((taken v b).out .a).leadTag = some 2 ∧ ((taken v b).out .a).entry 2 = some shadowBreak ∧
        (((taken v b).out .a).entries.map Entry.tag).Nodup ∧ ((taken v b).out .a).seqSlot = none ∧ ((taken v b).out .a).anchorSlot = none ∧
        ((taken v b).out .a).place .first = b ∧ ((taken v b).out .a).place .second = none ∧ ∀ i : Fin 12, (taken v b).voice i = none) ∧
      shadowBreak.kind = .brk 4 48000 ∧ shadowBreak.state = .onAir ∧ (twoSongs .bed).tag = 4 ∧ (twoSongs .bed).entryTag = some 2 ∧
      (twoSongs .bed).ending = false ∧ (breakView 4 0).leadTag = 2 ∧ (breakView 0 0).breakTag = 0 ∧ (breakView 9 0).breakTag ≠ (twoSongs .bed).tag ∧
      ((quiet.elapse 2400).now = 962400 ∧ (962400 : Time) < (962400 - (1000 + (962400 - 959952)) : Time) + 48000 ∧
        (962400 - (45552 + (962400 - 959952)) : Time) + 48000 ≤ 962400) ∧
      paged.usable 7 = some { song with chain := [{ lo := 0, n := 1 }] } ∧ song.inCue < song.len := by
  refine ⟨fun v b => ⟨rfl, rfl, rfl, Nat.le_refl 102400, rfl, rfl, paged_paged, rfl, rfl, List.nodup_singleton 2, rfl, rfl, rfl, rfl,
    fun i => ?_⟩, by decide +kernel⟩
  exact (by decide +kernel : ∀ i : Fin 12, quiet.voice i = none) i

/-- Without a fit the entry is silent to its rejoin, or has left with its record. -/
theorem witness_silent_breaks_taken_over :
    after (.claimWindowExpiry 2400 .a) (taken (breakView 0 1000) none) (fun t =>
        ((t.out .a).entries.map fun e => e.air.silentUntil) == [some 1006952] && t.log.records == []) = true ∧
      after (.claimWindowExpiry 2400 .a) (taken (breakView 9 45552) none) (fun t =>
        t.log.records.map (fun r => (r.entryTag, r.outcome)) == [(some 2, .airedTakenOver)] && (t.out .a).entries == []) = true := by
  decide +kernel

/-- Outlet B, that follows, at the end of its claim, with a running shadow of break 4. -/
def takenFollow (brk : Nat) (start : Time) (k : FitState) (tail : TailKind) : State :=
  { unit (inAir .standby)
      { inAir .claiming with
        view := some { view 0 with breakTag := brk, breakOffset := 100 }
        place1 := some { twoSongs tail with start := some start, state := k, entryTag := none }
        relay := { Relay.reset with state := .relaying, position := some 960000 } } with
    store := paged }

theorem witness_follow_takeovers_inside_a_break :
    (∀ brk start k tail, let s := takenFollow brk start k tail
      s.powered = true ∧ s.horizon = none ∧ (s.out .b).air = .claiming ∧ (s.out .b).claimSince + 2400 ≤ s.clock + 2400 ∧ s.isFollow .b = true ∧
        (s.out .b).place .second = none ∧ s.store.Paged ∧ (s.elapse 2400).followed .b = some 962400) ∧
      after (.claimWindowExpiry 2400 .b) (takenFollow 9 950000 .running .bed) (fun t => (t.out .b).place .first == none) = true ∧
      after (.claimWindowExpiry 2400 .b) (takenFollow 4 958952 .armed .bed) (fun t =>
        ((t.out .b).place .first).any (fun f => f.state == .running && f.cursor == 0 && f.resume == some (0, 3448, 1352)) &&
          (t.out .b).relay.mult == { start := 0, m0 := 0, m1 := 0, n := 0 }) = true ∧
      after (.claimWindowExpiry 2400 .b) (takenFollow 4 929952 .running .earlyRejoin) (fun t =>
        ((t.out .b).place .first).any (fun f => f.cursor == 2 && f.tailBegan == some 962400) &&
          (t.out .b).relay.mult == { start := 102400, m0 := 0, m1 := 16384, n := 480 }) = true ∧
      ((958952 : Time) ≤ 962400 ∧ (962400 : Time) < 958952 + 48000 ∧ (962400 : Time) < 929952 + 48000 ∧
        ∀ it ∈ (twoSongs .earlyRejoin).items, (it.offset + it.playLen : Int) ≤ 962400 - 929952) := by
  refine ⟨fun brk start k tail => ⟨rfl, rfl, rfl, Nat.le_refl 102400, rfl, rfl, paged_paged, rfl⟩, by decide +kernel⟩

/-! Fits, relays, meters and echoes -/

/-- Carts by id with their play lengths. -/
def carts (l : List (Nat × Nat)) : Store := { Store.reset with versions := l.map fun c => song9 c.1 c.2 .song }

/-- L 48,000 with an opener of 10,000, spots of 20,000 each, MAY, SHOULD, MAY and MUST, and a closer of 9,000: both MAY spots go, the last
first, then the closer, then the SHOULD spot. Of the 18,000 left the fills of 7,000 take 14,000, the earlier in the pool first, and that of
3,000 goes in behind them, which leaves 1,000 for four joins. -/
theorem witness_fits_remove_and_fill :
    let st := carts [(1, 10000), (2, 20000), (3, 20000), (4, 20000), (5, 20000), (6, 9000), (11, 7000), (12, 7000), (13, 3000)]
    let l : SpotList := { tag := 4, opener := some 1, closer := some 6, spots := [(2, .may), (3, .should), (4, .may), (5, .must), (9, .must)] }
    ((fitBreak st false 4 48000 (some 2) none (some l) [13, 12, 11] none).map fun b =>
        (b.items.map BreakItem.cart, b.drops.map fun d => (d.pos, d.overlength), b.tail, b.items.map BreakItem.join)) =
      some ([1, 5, 12, 11, 13], [(1, true), (2, true), (3, true), (5, false)], .none, [250, 250, 250, 250, 0]) ∧
      ((fitBreak st true 4 20000 none (some 0) (some { l with opener := none }) [] (some 13)).map fun b => (b.items.map BreakItem.cart, b.tail)) =
        some ([5], .none) ∧
      fitBreak st true 4 19999 none (some 0) (some l) [] none = none ∧
      ((fitBreak st true 4 48000 none (some 0) (some { l with opener := none, closer := none, spots := [(5, .must)] }) [] none).map fun b =>
        (b.tail, b.tailLen)) = some (.earlyRejoin, 28000) ∧
      ((fitBreak st false 4 48000 none none none [] none).map fun b => (b.tail, b.tailLen)) = some (.silence, 48000) := by
  decide +kernel

/-- A frame of the feed outlet B follows. -/
def followFrame (t : Time) : AudioBody := { goodAudio with feed := 30, frameTime := t }

def collector (k : RelayState) (buffer : List Time) (b : Option FittedBreak) : State :=
  follow { inAir .standby with place1 := b, relay := { Relay.reset with state := k, buffer := buffer.map frameOf } }

def relayTimes (t : State) : List Time := (t.out .b).relay.buffer.map HeldFrame.time

theorem witness_relay_frames_are_placed :
    (∀ x t, let s := follow x
      s.powered = true ∧ s.Hears (head 314) 314 ∧ 1 ≤ (followFrame t).feed ∧ (followFrame t).feed ≤ 64 ∧ s.isFollow .b = true ∧
        (s.ocfg .b).followFeed = (followFrame t).feed ∧ s.disc.groupTime.isSome = true ∧ s.cfg.refFeed ≠ (followFrame t).feed) ∧
      (∀ p, (quiet.ocfg p).feed ≠ 30 ∧ (p ≠ .b → quiet.isFollow p = true → (quiet.ocfg p).followFeed ≠ 30)) ∧
      (let held (f : Time) (l : List Time) : Bool :=
        after (.audioFrame 0 (head 314) (followFrame f) 0) (follow (relayed 0 [frameOf 960048, frameOf 960144])) fun t => relayTimes t == l
       held 959952 [960048, 960144] ∧ held 960000 [960000, 960048, 960144] ∧ held 960096 [960048, 960096, 960144] ∧
        held 960144 [960048, 960144] ∧ held 960720 [960048, 960144, 960720] ∧ held 960768 [960048, 960144]) ∧
      (let held (l : List Time) (f : Time) (m : List Time) : Bool :=
        after (.audioFrame 0 (head 314) (followFrame f) 0) (collector .unset l none) fun t => relayTimes t == m
       held [] 48000 [48000] ∧ held [48000, 48096] 48096 [48000, 48096] ∧ held [48000, 48096] 48048 [48000, 48048, 48096] ∧
        held [48000, 48096] 48768 [48096, 48768] ∧ held [48000, 48720] 47952 [48000, 48720] ∧ held [48000, 48672] 47952 [47952, 48000, 48672]) ∧
      after (.audioFrame 0 (head 314) (followFrame 48144) 0) (collector .unset [48000, 48048, 48096] none) (fun t =>
        (t.out .b).relay.state == .relaying && (t.out .b).relay.position == some 48000 && relayTimes t == [48000, 48048, 48096, 48144]) = true ∧
      after (.audioFrame 0 (head 314) (followFrame 48144) 0) (collector .unset [48000, 48048, 48096] (some (fitted 40000 .running []))) (fun t =>
        (t.out .b).relay.state == .unset) = true ∧
      after (.audioFrame 0 (head 314) (followFrame 984144) 0) (collector .unset [984000, 984048, 984096] (some (fitted 984000 .armed []))) (fun t =>
        (t.out .b).place .first == none && (t.out .b).relay.position == some 984000) = true ∧
      (follow (relayed 0 [])).monitored .b = some 30 ∧ (960000 : Time) < 984000 := by
  refine ⟨fun x t => ⟨rfl, fed _ _, show 1 ≤ 30 by decide, show 30 ≤ 64 by decide, rfl, rfl, rfl, show 40 ≠ 30 by decide⟩,
    eachOutlet (by decide) (by decide) (by decide) (by decide), by decide +kernel⟩

/-- The 235th silent block of outlet A, and of outlet B on its relay or inside a break, with a twin of the feed or none. -/
def dying : Meter := { Meter.reset with detector := .quiet, count := 234, running := true, buf := [span 958976 1024 false] }

theorem witness_dead_air_is_judged :
    (let s : State := { unit { inAir .onAir with programme := dying } (inAir .standby) with peers := [peer 9 99000 false 10 2 3] }
     s.bestSuccessor .a = some 9 ∧ s.isFollow .a = false ∧
      after (.meterBlockEnd 0 .a .programme) s (fun t =>
        (t.out .a).yielding == some { successor := 9, cause := .fault, fromFallback := false, since := 100000 }) = true) ∧
      (let s : State := { follow { inAir .onAir with programme := dying } with peers := [peer 9 99000 false 20 2 3] }
       s.bestSuccessor .b = some 9 ∧ s.isFollow .b = true ∧ (∀ p, (s.out .b).place p = none) ∧
        after (.meterBlockEnd 0 .b .programme) s (fun t =>
          (t.out .b).yielding == some { successor := 9, cause := .fault, fromFallback := true, since := 100000 } &&
            (t.out .b).periods.map FallbackPeriod.since == [960000]) = true) ∧
      (let s := follow { inAir .onAir with programme := dying, place1 := some (fitted 912240 .running []) }
       s.bestSuccessor .b = none ∧ (s.out .b).place .first = some (fitted 912240 .running []) ∧
        after (.meterBlockEnd 0 .b .programme) s (fun t => (t.out .b).air == .fallback && (t.out .b).yielding == none) = true) := by
  refine ⟨by decide +kernel, ⟨by decide +kernel, by decide, fun p => ?_, by decide +kernel⟩, by decide +kernel⟩
  cases p <;> rfl

/-- Outlet A not sending, with an open block, and the block's start and frame times after a frame. -/
def hearing (b : Option OpenBlock) : State := unit { inAir .standby with openBlock := b } (inAir .standby)

def collected (b : Option OpenBlock) (t : Time) : Outlet := ((hearing b).collectEcho .a t []).out .a

def frameTimes (x : Outlet) : Option (Time × List Time) := x.openBlock.map fun b => (b.block, b.frames.map Prod.fst)

def openAt (l : List Time) : OpenBlock := { block := 950400, frames := l.map fun t => (t, []) }

theorem witness_echoes_are_collected :
    (hearing none).monitored .a = some 10 ∧ frameTimes (collected none 950448) = some (950400, [950448]) ∧
      ([945600, 950544, 950496].map fun t => frameTimes (collected (some (openAt [950448, 950544])) t)) =
        [some (950400, [950448, 950544]), some (950400, [950448, 950544]), some (950400, [950448, 950496, 950544])] ∧
      frameTimes (collected (some (openAt [950448])) 955200) = some (955200, [955200]) ∧
      (collected (some (openAt [950448])) 955200).echo = some { feed := 10, block := 950400, check := none } ∧
      (collected (some (openAt (List.replicate 100 950448))) 955200).echo =
        some { feed := 10, block := 950400, check := some (crc32 []) } := by
  decide +kernel

/-- The marks of the one entry of block 950,400 after an echo of that block. -/
def judgedBy (h : HistEntry) (c : Option Crc) : List (Bool × Bool × Option EchoResult) :=
  (((unit { inAir .onAir with history := [h] } (inAir .standby)).judgeEcho .a { feed := 10, block := 950400, check := c }).out .a).history.map
    fun h => (h.peerMatch, h.peerMismatch, h.result)

theorem witness_echoes_are_judged :
    ([some 1, some 7, none].map fun c => judgedBy (hist 950400 .pending) c) =
        [[(true, false, some .confirmed)], [(false, true, none)], [(false, false, none)]] ∧
      judgedBy { hist 950400 .pending with isPartial := true } (some 1) = [(false, false, none)] ∧
      judgedBy { hist 950400 .pending with result := some .confirmed } (some 7) = [(false, false, some .confirmed)] ∧
      judgedBy (hist 955200 .pending) (some 1) = [(false, false, none)] := by
  decide +kernel

/-! Records, requests, starts, beacons and gain -/

/-- The second and then the first of two entries leave in one command: their records stand in list order (R16). -/
def leaving : State :=
  let a := unit { inAir .onAir with entries := [item 2 7 .sequence, item 3 7 .sequence] } (inAir .standby)
  (a.leaveSilent .a 3 .withdrawn).leaveSilent .a 2 .withdrawn

def found : State := unit { inAir .onAir with entries := [item 2 7 .sequence, item 3 7 .sequence] } (inAir .standby)

theorem witness_records_stand_in_list_order :
    found.log.Wrote leaving.log leaving.log.records ∧ ((leaving.finish found).log.records.map fun r => (r.seq, r.entryTag)) = [(1, some 2), (2, some 3)] ∧
      found.log.records.length ≤ 8192 ∧ ((found.out .a).entries.map Entry.tag).Nodup ∧
      ((found.out .a).entries.map Entry.tag) = [2, 3] := by
  refine ⟨⟨by decide +kernel, fun k r h => ?_, by decide +kernel, by decide +kernel⟩, by decide +kernel⟩
  have : k = 0 ∨ k = 1 ∨ 2 ≤ k := by omega
  rcases this with rfl | rfl | h3
  · cases h; decide +kernel
  · cases h; decide +kernel
  · rw [List.getElem?_eq_none (by exact h3)] at h; cases h

theorem witness_feeds_are_carried :
    quiet.isolated = false ∧ quiet.Hears (toFeed 0).head 12 ∧ (toFeed 0).head.sender ∈ quiet.cfg.stations ∧ (toFeed 0).addr = .feed 10 ∧
      quiet.Carries .a 10 ∧ quiet.feedGate (toFeed 0) = .outlet .a := by
  refine ⟨rfl, by unfold State.Hears; decide +kernel, by decide, rfl, carries _ rfl (by decide), by decide +kernel⟩

/-- A version of one page in each state RESTART tells apart. -/
def sorts : List Version :=
  [(1, VersionState.ready, Role.current, 28800), (2, .quarantined, .current, 28800), (3, .loading, .current, 28800), (4, .verifying, .current, 0),
    (5, .verifying, .current, 28800), (6, .ready, .current, 28800)].map fun c =>
      { song with cart := c.1, state := c.2.1, role := c.2.2.1, written := c.2.2.2, chain := [{ lo := c.1, n := 1 }] }

def shelves : Store :=
  { Store.reset with
    versions := sorts ++ [{ song with cart := 6, serial := 2, state := .verifying, role := .incoming, written := 0, chain := [{ lo := 7, n := 1 }] },
      { song with cart := 1, serial := 2, state := .retiring, role := .superseded, chain := [{ lo := 0, n := 1 }] }]
    verifyQueue := [(4, 1), (6, 2), (5, 1)], free := [{ lo := 8, n := 524280 }] }

def shelved : State := { quiet with store := shelves }

theorem shelves_paged : shelves.Paged := by
  refine ⟨by decide +kernel, by decide +kernel, fun p => ?_⟩
  show List.countP _ [_] + (List.map _ [_, _, _, _, _, _, _, _]).sum = _
  simp only [List.countP_cons, List.countP_nil, PageRun.has, List.map_cons, List.map_nil, List.sum_cons, List.sum_nil, Bool.and_eq_true,
    decide_eq_true_eq]
  by_cases h : p < 8
  · interval_cases p <;> decide
  · have gone : ∀ k : Nat, k < 8 → (if k ≤ p ∧ p < k + 1 then 1 else 0) = 0 := fun k hk => if_neg (by omega)
    simp only [gone 0 (by omega), gone 1 (by omega), gone 2 (by omega), gone 3 (by omega), gone 4 (by omega), gone 5 (by omega), gone 6 (by omega),
      gone 7 (by omega)]
    split <;> split <;> omega

theorem shelved_bounded : shelved.Bounded := by
  have empty : ∀ o, (shelved.out o).Bounded := by
    have none : ∀ o, (shelved.out o).entries = [] → (shelved.out o).spots = [] → (shelved.out o).Bounded := fun o h k => by
      unfold Outlet.Bounded Outlet.Slotted
      rw [h, k]
      exact ⟨⟨Nat.zero_le _, List.nodup_nil, fun _ h => absurd h List.not_mem_nil⟩, Nat.zero_le _, List.nodup_nil⟩
    exact eachOutlet (none .a rfl rfl) (none .b rfl rfl) (none .c rfl rfl) (none .d rfl rfl)
  have held : ∀ c n, holdersOf shelved.voices c n = 0 := fun c n =>
    List.countP_eq_zero.2 fun v hv => by
      rw [(by decide +kernel : ∀ v ∈ shelved.voices, v.use = none) v hv]
      exact Bool.false_ne_true
  have two : ∀ c, (shelved.store.versionsOf c).length ≤ 2 := fun c => by
    by_cases h : c < 8
    · interval_cases c <;> decide
    · rw [show shelved.store.versionsOf c = [] from List.filter_eq_nil_iff.2 fun v hv => ?_]
      · exact Nat.zero_le _
      · have := (by decide +kernel : ∀ v ∈ shelved.store.versions, v.cart < 8) v hv
        simp only [beq_iff_eq]
        omega
  refine ⟨by unfold PeersBounded; decide +kernel, ⟨⟨by decide +kernel, two⟩, fun v hv => ?_, fun c n h => absurd (held c n) h⟩, empty, ?_, ?_⟩
  · rw [held]
    exact (by decide +kernel : ∀ v ∈ shelved.store.versions, v.useCount = 0) v hv
  · exact ⟨eachClass (by decide +kernel) (by decide +kernel) (by decide +kernel) (by decide +kernel) (by decide +kernel), by decide +kernel⟩
  · unfold ClockDiscipline.Bounded; decide +kernel

set_option maxRecDepth 100000 in
theorem witness_restart_keeps_the_sound_versions :
    shelved.Bounded ∧ shelved.store.Paged ∧ shelved.TakesUnit (toUnit 0) 0 ∧
      after (.restart 0 (toUnit 0) record) shelved (fun t =>
        (t.store.versions.map fun v => (v.cart, v.serial, v.state)) ==
            [(1, 1, .ready), (2, 1, .quarantined), (4, 1, .quarantined), (5, 1, .verifying), (6, 1, .ready)] &&
          t.store.verifyQueue == [(5, 1)]) = true := by
  refine ⟨shelved_bounded, shelves_paged, ?_, by decide +kernel⟩
  unfold State.TakesUnit; decide +kernel

/-- The listen time with no candidate, and with one of another feed. -/
def listening (c : Option (Time × Bool)) : State :=
  { unit (inAir .listening) (inAir .listening) with listenSince := some 99000, disc := { ClockDiscipline.reset with candidate := c } }

theorem witness_candidates :
    (∀ c, (listening c).powered = true ∧ (listening c).Hears (head 314) 314 ∧ (listening c).disc.groupTime = none ∧
        (listening c).listenSince.isSome = true ∧ ((listening c).elapse 0).disc.candidate = c) ∧
      after (.audioFrame 0 (head 314) refFrame 0) (listening none) (fun t => t.disc.candidate == some (960000, true)) = true ∧
      after (.audioFrame 0 (head 314) goodAudio 0) (listening none) (fun t => t.disc.candidate == some (960000, false)) = true ∧
      after (.audioFrame 0 (head 314) refFrame 0) (listening (some (5, false))) (fun t => t.disc.candidate == some (960000, true)) = true ∧
      after (.audioFrame 0 (head 314) goodAudio 0) (listening (some (5, false))) (fun t => t.disc.candidate == some (5, false)) = true ∧
      quiet.disc.groupTime.isSome = true := by
  refine ⟨fun c => ⟨rfl, ⟨show (7 : Nat) ≠ 100 by decide, rfl, by decide, by decide, by decide, show (9 : Nat) ≠ 5 by decide⟩, rfl, rfl, rfl⟩,
    by decide +kernel⟩

/-- A block with a cue of feed 30 and an echo of feed 10. -/
def telling (tag : Nat) : OutletBlock :=
  { goodBlock with feed := 30, cue := some { tag := tag, start := 984000, len := 48000 }, echo := some { feed := 10, block := 950400, check := some 1 } }

theorem witness_blocks_tell_cues_and_echoes :
    (follower.Hears (head 16) 16 ∧ 1 ≤ (telling 4).feed ∧ (telling 4).feed ≤ 64 ∧ (telling 4).cue.isSome = true ∧ follower.Carries .a 10) ∧
      (((follower.takeBlockCue 9 (telling 4)).out .b).place1.map FittedBreak.tag) = some 4 ∧
      ((follower.takeBlockCue 9 (telling 0)).out .b).place1 = none ∧ goodBlock.cue = none ∧ goodBlock.echo = none ∧
      ((((unit { inAir .onAir with history := [hist 950400 .pending] } (inAir .standby)).takeBlockEcho (telling 4)).out .a).history.map HistEntry.result) =
        [some .confirmed] ∧
      (∀ o, (quiet.ocfg o).valid = true → (quiet.ocfg o).feed = 50 → (quiet.out o).air = .dark) := by
  refine ⟨⟨by unfold State.Hears; decide +kernel, by decide, by decide, rfl, carries _ rfl (by decide)⟩, by decide +kernel, by decide +kernel, rfl, rfl,
    by decide +kernel, eachOutlet (by decide) (by decide) (by decide) (by decide)⟩

/-- A quarter of the way from 16,384 to -1 over 480 samples, and of the way to silence (R40). -/
theorem witness_ramps_move :
    ({ start := 5, m0 := 16384, m1 := -1, n := 480 } : Ramp).value 125 = 12288 ∧ ({ start := 5, m0 := 0, m1 := 16384, n := 480 } : Ramp).value 6 = 34 ∧
      (120 : Nat) < 480 ∧ (soundingAt 0).sounding = true ∧ (soundingAt 0).state = .playing ∧
      ((ramping 100200).state = .ramping ∧ (ramping 100200).mult.stop ≤ 100000 + 480 ∧ 100000 + 100 < (ramping 100200).mult.stop) ∧
      ((soundingAt 0).sounded + 4799 < (soundingAt 0).passEnd ∧ (soundingAt 0).passEnd ≤ (soundingAt 0).sounded + 4800) ∧ (47 : Nat) < 48 := by
  decide +kernel

/-- A step of 1,000 samples forward that meets every hypothesis of the handling of the times it passes. -/
theorem witness_passed_times_are_handled :
    (∀ p, (quiet.ocfg p).valid = true → (quiet.ocfg p).feed ≠ refFrame.feed ∧ (quiet.isFollow p = true → (quiet.ocfg p).followFeed ≠ refFrame.feed)) ∧
      (∀ p, (quiet.out p).history = []) ∧ quiet.horizon = none ∧ quiet.disc.groupTime = some 960000 ∧ (960000 : Time) + 480 < 961000 ∧
      (let x := { inAir .onAir with
          entries := [item 1 7 (.soft 960000), { silentBreak with tag := 3 }],
          place1 := some { fitted 912480 .running [slot 8 48000 0 .ended] with due := some 959000 } }
       let s := unit x (inAir .standby)
       ((s.elapse 0).out .a).entry 1 = some (item 1 7 (.soft 960000)) ∧ 960000 ≤ (s.elapse 0).reached ∧
        (x.entries.map fun e => e.air.silentUntil) = [none, some 960000] ∧ ((x.place .first).bind FittedBreak.due) = some 959000 ∧
        (s.nextDue 950000 []).map Prod.fst = some 959000) := by
  refine ⟨eachOutlet (by decide) (by decide) (by decide) (by decide), eachOutlet rfl rfl rfl rfl, rfl, rfl, by decide, by decide +kernel⟩

/-- An item that sounded from its start has its slip in its record at the rejoin. -/
theorem witness_slips_are_recorded :
    let b := { fitted 912000 .running [{ slot 8 48000 0 .ended with actual := some 912100, played := 47900 }] with cursor := 1 }
    b.items[0]?.map BreakItem.skipped = some 0 ∧
      after (.rejoin 0 .b (some .first)) (breaking b (spotVoice .primed 0 false 9)) (fun t =>
        (t.log.records.map fun r => (r.slot, r.planned, r.actual, r.slip)) == [(some 1, some 912000, some 912100, 100)]) = true := by
  decide +kernel

end Sys2Proof.Tests
end

section
/-! The unit's invariants: reset, bounds, and the entries that leave. -/

namespace Sys2Proof.Machine

/-! ### Bounds -/

theorem Log.placed_length (l : Log) (n : Nat) (f : OutletId → List Nat) : (l.placed n f).records.length = l.records.length := by
  have h := (placeRecords_perm f (l.records.drop (l.records.length - (l.next - n)))).length_eq
  simp only [Log.placed, List.length_append, List.length_take, List.length_map, List.length_zip, h, List.length_drop]
  omega

theorem State.numbered_bounded {s : State} (h : s.Bounded) (a : State) : (s.numbered a).Bounded := by
  unfold State.numbered
  split
  · exact h
  · obtain ⟨⟨hv, hl, hr, hp⟩, hrest⟩ := h
    exact ⟨⟨hv, hl, (Log.placed_length s.log _ _).le.trans hr, hp⟩, hrest⟩

theorem State.finish_bounded {s : State} (h : s.Bounded) (a : State) : (s.finish a).Bounded :=
  State.numbered_bounded ((State.pump_moves (State.settle_moves (w := true) .refl)).bounded h) a

theorem State.unitRequest_bounded {s : State} (h : s.Bounded) (req : RequestHead) (kind need : Nat) (bad : Bool) {act : State → State}
    (hact : (act s).Bounded) : (s.unitRequest req kind need bad act).Bounded := by
  rcases s.unitRequest_cases req kind need bad act with e | e
  · exact e ▸ hact
  · exact e.bounded h

theorem State.feedRequest_bounded {s : State} (h : s.Bounded) (req : RequestHead) (kind need : Nat) (bad : OutletId → Bool)
    {act : OutletId → State → State} (hact : ∀ o, (act o s).Bounded) : (s.feedRequest req kind need bad act).Bounded := by
  rcases s.feedRequest_cases req kind need bad act with ⟨o, e⟩ | e
  · exact e ▸ hact o
  · exact e.bounded h

/-- The commands that add to what the unit holds, or start it, keep the bounds as the plain ones do. -/
theorem exec_adds_bounded {c : Instr} {s t : State} (hp : s.powered = true) (hc : adds c = true) (hs : s.Bounded)
    (h : exec c s = .next t) : t.Bounded := by
  have ha : ∀ dt, (s.elapse dt).Bounded := fun dt => s.elapse_bounded hs dt
  cases c
  case powerOn dt link config =>
    cases h
    exact s.powerUp_bounded link config
  case restart dt req config =>
    simp only [exec, execRestart, State.run_powered hp] at h
    cases h
    exact State.unitRequest_bounded (ha dt) _ _ _ _
      (State.finish_bounded (State.restart_bounded ((State.answer_moves (w := true) .refl _ _ _ _ _).bounded (ha dt)) _) _)
  case cartOpen dt req f =>
    simp only [exec, execCartOpen, State.run_powered hp] at h
    cases h
    refine State.unitRequest_bounded (ha dt) _ _ _ _ ?_
    split
    · exact State.openCart_bounded (ha dt) _ _ _
    · exact ha dt
  case cartData dt req cart offset payload =>
    simp only [exec, execCartData, State.run_powered hp] at h
    cases h
    exact State.unitRequest_bounded (ha dt) _ _ _ _ (State.loadData_bounded (ha dt) _ _ _ _)
  case entryAdd dt req f =>
    simp only [exec, execEntryAdd, State.run_powered hp] at h
    cases h
    exact State.feedRequest_bounded (ha dt) _ _ _ _ fun o => State.addEntry_bounded (ha dt) _ _ o
  case spotsSet dt req f =>
    simp only [exec, execSpotsSet, State.run_powered hp] at h
    cases h
    exact State.feedRequest_bounded (ha dt) _ _ _ _ fun o => State.setSpots_bounded (ha dt) _ _ o
  case captureClear dt req cls =>
    simp only [exec, execCaptureClear, State.run_powered hp] at h
    cases h
    exact State.unitRequest_bounded (ha dt) _ _ _ _ (State.clearSlot_bounded (ha dt) _ _)
  all_goals cases hc

/-- Every command keeps the unit in bounds. -/
theorem exec_bounded {c : Instr} {s t : State} (hs : s.Bounded) (h : exec c s = .next t) : t.Bounded := by
  by_cases hon : ∃ dt link config, c = .powerOn dt link config
  · obtain ⟨dt, link, config, rfl⟩ := hon
    cases h
    exact s.powerUp_bounded link config
  have hne : ∀ dt link config, c ≠ .powerOn dt link config := fun dt link config e => hon ⟨dt, link, config, e⟩
  cases hp : s.powered with
  | false =>
    rw [exec_unpowered hp hne] at h
    cases h
    exact hs
  | true =>
    cases ha : adds c with
    | false => exact (exec_moves hp ha h).bounded (s.elapse_bounded hs _)
    | true => exact exec_adds_bounded hp ha hs h

theorem step_bounded {s t : State} (hs : s.Bounded) (h : step s = .next t) : t.Bounded := by
  unfold step at h
  split at h
  · cases h
    split
    · exact s.elapse_bounded hs 1
    · exact hs
  · rename_i c rest _
    exact exec_bounded (s := { s with pending := rest }) hs h

/-! ### Entries that leave (R16) -/

/-- What one command does to the entries of an outlet: those it held are held still or have left their records, and they change only
where records were written, or where one is added. -/
structure EntriesRecorded (a t : State) (added : Prop) (o : OutletId) : Prop where
  left : ∃ l, a.log.Wrote t.log l ∧ ∀ n ∈ (a.out o).entries.map Entry.tag,
    n ∈ (t.out o).entries.map Entry.tag ∨ ∃ r ∈ l, r.source = .entry ∧ r.entryTag = some n ∧ r.outlet = o
  kept : a.log.next < t.log.next ∨ ((a.out o).entries.map Entry.tag).Sublist ((t.out o).entries.map Entry.tag) ∧
    (¬ added → (t.out o).entries.map Entry.tag = (a.out o).entries.map Entry.tag)

theorem State.Moves.entriesRecorded {k : Bool} {a t : State} (h : State.Moves k a t) (added : Prop) (o : OutletId) :
    EntriesRecorded a t added o :=
  ⟨h.left o, (h.tagsKept o).symm.imp id fun (e : (t.out o).entries.map Entry.tag = _) => ⟨e ▸ List.Sublist.refl _, fun _ => e⟩⟩

/-- Only the log and the entries' tags are looked at in the state a command found. -/
theorem EntriesRecorded.congr {a b t : State} {added : Prop} {o : OutletId} (h : EntriesRecorded b t added o) (hl : b.log = a.log)
    (ho : (b.out o).entries.map Entry.tag = (a.out o).entries.map Entry.tag) : EntriesRecorded a t added o :=
  ⟨by simpa only [hl, ho] using h.left, by simpa only [hl, ho] using h.kept⟩

/-- A command that adds an entry. -/
theorem EntriesRecorded.of_added {a b t : State} {o : OutletId} (h : EntriesRecorded b t True o) (hl : b.log = a.log)
    (hs : ((a.out o).entries.map Entry.tag).Sublist ((b.out o).entries.map Entry.tag)) : EntriesRecorded a t True o := by
  obtain ⟨⟨l, hw, hn⟩, hk⟩ := h
  rw [hl] at hw hk
  exact ⟨⟨l, hw, fun n hm => hn n (hs.subset hm)⟩, hk.imp id fun e => ⟨hs.trans e.1, fun e' => absurd trivial e'⟩⟩

theorem State.Adds.entriesRecorded {a t : State} {c : Instr} (h : State.Adds a c t) (o : OutletId) :
    EntriesRecorded a t (∃ dt req f, c = .entryAdd dt req f) o := by
  cases h with
  | plain h => exact h.entriesRecorded _ o
  | version _ _ _ _ st h => exact (h.entriesRecorded _ o).congr rfl rfl
  | payload st _ _ h => exact (h.entriesRecorded _ o).congr rfl rfl
  | spots p l h =>
    refine (h.entriesRecorded _ o).congr rfl ?_
    rw [State.modOut, State.out_setOut]
    split
    · subst o; rfl
    · rfl
  | clear dt req cls _ h k =>
    obtain ⟨hleft, hkept⟩ := h.entriesRecorded (∃ dt req f, c = .entryAdd dt req f) o
    exact ⟨hleft, hkept⟩
  | entry dt req f e p l hl h =>
    rw [show (∃ dt req f, c = .entryAdd dt req f) = True from eq_true ⟨dt, req, f, e⟩]
    refine (h.entriesRecorded _ o).of_added rfl ?_
    rw [State.modOut, State.out_setOut]
    split
    · subst o
      exact hl.map _
    · exact List.Sublist.refl _

theorem exec_entriesRecorded {c : Instr} {s t : State} (h : exec c s = .next t) (h1 : ∀ dt link config, c ≠ .powerOn dt link config)
    (h2 : ∀ dt req config, c ≠ .restart dt req config) (o : OutletId) :
    EntriesRecorded s t (∃ dt req f, c = .entryAdd dt req f) o := by
  cases hp : s.powered with
  | false =>
    rw [exec_unpowered hp h1] at h
    cases h
    exact (State.Moves.refl (k := true)).entriesRecorded _ o
  | true =>
    have ha : EntriesRecorded (s.elapse (dtOf c)) t (∃ dt req f, c = .entryAdd dt req f) o := by
      cases hc : adds c with
      | false => exact (exec_moves hp hc h).entriesRecorded _ o
      | true => exact (exec_adds hp hc h1 h2 h).entriesRecorded o
    exact ha.congr (by simp) (by simp)

/-! ### Reset -/

theorem State.reset_out (o : OutletId) : State.reset.out o = .reset := by cases o <;> rfl

theorem Outlet.reset_bounded : Outlet.reset.Bounded :=
  ⟨⟨Nat.zero_le _, List.nodup_nil, fun _ h => absurd h List.not_mem_nil⟩, Nat.zero_le _, List.nodup_nil⟩

theorem State.reset_bounded : State.reset.Bounded :=
  ⟨⟨rfl, rfl, Nat.zero_le _, Nat.zero_le _, List.nodup_nil⟩,
    ⟨Store.reset_bounded, holdersOf_free (l := State.reset.voices) (by simp [State.reset]) ▸ Store.reset_counted⟩,
    fun o => State.reset_out o ▸ Outlet.reset_bounded, Captures.reset_bounded, ClockDiscipline.reset_bounded _⟩

theorem Store.reset_paged : Store.reset.Paged := by
  refine ⟨List.nodup_nil, fun _ h => absurd h List.not_mem_nil, fun p => ?_⟩
  simp [Store.holders, Store.reset, PageRun.has, List.countP_cons]

theorem Log.reset_run : State.reset.log.Run := ⟨le_refl _, rfl, fun _ _ h => absurd h (by simp [State.reset])⟩

end Sys2Proof.Machine

open Sys2Proof Sys2Proof.Machine

/-- Settles O7: plain updates keep each bound, and the commands that add check for room first. -/
theorem everyStepKeepsBounds : Obligations.EveryStepKeepsBounds := fun _ _ hs h => step_bounded hs h

/-- Settles O15. -/
theorem entriesLeaveWithRecords : Obligations.EntriesLeaveWithRecords := by
  intro c s t o h h1 h2
  obtain ⟨⟨l, hw, hn⟩, hk⟩ := exec_entriesRecorded h h1 h2 o
  refine ⟨⟨l, hw, fun e he hno => ?_⟩, hk.imp id fun e => ⟨e.1, fun hadd => e.2 fun ⟨dt, req, f, e'⟩ => hadd dt req f e'⟩⟩
  refine (hn e.tag (List.mem_map_of_mem he)).resolve_left fun hm => ?_
  obtain ⟨d, hd, e'⟩ := List.mem_map.1 hm
  exact hno d hd e'

/-- Settles O4. -/
theorem quietCommandsEndAsTheyAre : Obligations.QuietCommandsEndAsTheyAre :=
  fun _ a h => ⟨State.finish_quiet h a, State.finish_same h⟩

/-- Settles O6. -/
theorem resetHoldsNothing : Obligations.ResetHoldsNothing := by
  refine ⟨⟨rfl, rfl, rfl, rfl, rfl, fun k => by cases k <;> rfl, rfl, rfl, rfl, rfl, fun i => ?_, fun o => ?_⟩,
    State.reset_bounded, Store.reset_paged, Log.reset_run⟩
  · simp only [State.voice, State.reset, List.getElem?_replicate]
    split <;> rfl
  · rw [State.reset_out]
    exact ⟨rfl, rfl, rfl, rfl⟩
end

section
/-! What comes about by itself at the end of a command, and the places its records take. -/

namespace Sys2Proof.Machine

/-! ### Records in their places (R164, R16) -/

/-- A place stands before another, or is the same: by group, then by place in the list. -/
def placeLe (x y : Nat × Nat) : Prop := x.1 < y.1 ∨ x.1 = y.1 ∧ x.2 ≤ y.2

theorem insertPlaced_sorted (x : (Nat × Nat) × Record) {l : List ((Nat × Nat) × Record)}
    (h : l.Pairwise fun y z => placeLe y.1 z.1) : (insertPlaced x l).Pairwise fun y z => placeLe y.1 z.1 := by
  induction l with
  | nil => exact List.pairwise_singleton _ _
  | cons y t ih =>
    obtain ⟨hy, ht⟩ := List.pairwise_cons.1 h
    unfold insertPlaced
    split
    · rename_i hlt
      refine List.pairwise_cons.2 ⟨fun z hz => ?_, ih ht⟩
      rcases List.mem_cons.1 ((insertPlaced_perm x t).subset hz) with rfl | hz
      · simp only [placeLe, Bool.or_eq_true, Bool.and_eq_true, decide_eq_true_eq, beq_iff_eq] at hlt ⊢
        omega
      · exact hy z hz
    · rename_i hge
      have hxy : placeLe x.1 y.1 := by
        simp only [placeLe, Bool.or_eq_true, Bool.and_eq_true, decide_eq_true_eq, beq_iff_eq] at hge ⊢
        omega
      refine List.pairwise_cons.2 ⟨fun z hz => ?_, h⟩
      rcases List.mem_cons.1 hz with rfl | hz
      · exact hxy
      · have hyz := hy z hz
        simp only [placeLe] at hxy hyz ⊢
        omega

/-- The records in their places, each with its place. -/
def placedPairs (f : OutletId → List Nat) (l : List Record) : List ((Nat × Nat) × Record) :=
  (l.zipIdx.map fun x => (recordPlace f l x.2 x.1, x.1)).foldr insertPlaced []

theorem placedPairs_sorted (f : OutletId → List Nat) (l : List Record) :
    (placedPairs f l).Pairwise fun y z => placeLe y.1 z.1 := by
  unfold placedPairs
  induction l.zipIdx.map fun x => (recordPlace f l x.2 x.1, x.1) with
  | nil => exact List.Pairwise.nil
  | cons x t ih => exact insertPlaced_sorted x ih

theorem foldr_insertPlaced_perm (l : List ((Nat × Nat) × Record)) : (l.foldr insertPlaced []).Perm l := by
  induction l with
  | nil => exact .refl _
  | cons x t ih => exact (insertPlaced_perm x _).trans (ih.cons x)

/-- Each record stands with the place of one of its list's. -/
theorem placedPairs_place {f : OutletId → List Nat} {l : List Record} {x : (Nat × Nat) × Record} (h : x ∈ placedPairs f l) :
    ∃ i, l[i]? = some x.2 ∧ x.1 = recordPlace f l i x.2 := by
  obtain ⟨⟨r, i⟩, hm, rfl⟩ := List.mem_map.1 ((foldr_insertPlaced_perm _).subset h)
  exact ⟨i, List.mem_zipIdx_iff_getElem?.1 hm, rfl⟩

/-- Records share a group exactly if they are of one outlet. -/
theorem findIdx_outlet_inj {l : List Record} {x z : Record} (hx : x ∈ l) (hz : z ∈ l)
    (h : (l.findIdx fun q => q.outlet == x.outlet) = l.findIdx fun q => q.outlet == z.outlet) : x.outlet = z.outlet := by
  have hi : (l.findIdx fun q => q.outlet == x.outlet) < l.length := List.findIdx_lt_length_of_exists ⟨x, hx, by simp⟩
  have hj : (l.findIdx fun q => q.outlet == z.outlet) < l.length := List.findIdx_lt_length_of_exists ⟨z, hz, by simp⟩
  have h1 := List.findIdx_getElem (w := hi)
  have h2 := List.findIdx_getElem (w := hj)
  simp only [beq_iff_eq] at h1 h2
  rw [← h1, ← h2]
  simp only [h]

/-- A record of an entry of the list has that entry's place in it. -/
theorem recordPlace_entry {f : OutletId → List Nat} {l : List Record} {i n : Nat} {r : Record} {t : Nat} (hr : l[i]? = some r)
    (ht : r.entryTag = some t) (hn : (f r.outlet)[n]? = some t) (hd : (f r.outlet).Nodup) :
    (recordPlace f l i r).2 = n := by
  have hlast : ((l.take (i + 1)).filter fun q => q.outlet == r.outlet).reverse =
      r :: ((l.take i).filter fun q => q.outlet == r.outlet).reverse := by
    rw [List.take_add_one, hr]
    simp
  have hidx : (f r.outlet).findIdx? (fun m => m == t) = some n := by
    rw [List.findIdx?_eq_some_iff_getElem]
    obtain ⟨hlt, e⟩ := List.getElem?_eq_some_iff.1 hn
    refine ⟨hlt, by simp [e], fun j hj => ?_⟩
    simp only [beq_iff_eq]
    intro e'
    have := (List.Nodup.getElem_inj_iff hd).1 (e'.trans e.symm)
    omega
  unfold recordPlace
  rw [hlast]
  simp only [List.findSome?_cons, ht, Option.bind_some, hidx]
  rfl

/-- The outlets' records stand together, and each outlet's in the list order of its entries. -/
def InListOrder (f : OutletId → List Nat) (m : List Record) : Prop :=
  ∀ (i j : Nat) (x z : Record), i < j → m[i]? = some x → m[j]? = some z → x.outlet = z.outlet →
    (∀ (k : Nat) (y : Record), i < k → k < j → m[k]? = some y → y.outlet = x.outlet) ∧
      ∀ (n p t u : Nat), (f x.outlet)[n]? = some t → (f x.outlet)[p]? = some u → (f x.outlet).Nodup → x.entryTag = some t →
        z.entryTag = some u → n ≤ p

theorem placeRecords_inListOrder (f : OutletId → List Nat) (l : List Record) : InListOrder f (placeRecords f l) := by
  intro i j x z hij hx hz ho
  have hs := placedPairs_sorted f l
  have he : placeRecords f l = (placedPairs f l).map Prod.snd := rfl
  rw [he, List.getElem?_map, Option.map_eq_some_iff] at hx hz
  obtain ⟨⟨a, x⟩, hx, rfl⟩ := hx
  obtain ⟨⟨c, z⟩, hz, rfl⟩ := hz
  have le_of : ∀ {i j : Nat} {x z : (Nat × Nat) × Record}, i < j → (placedPairs f l)[i]? = some x →
      (placedPairs f l)[j]? = some z → placeLe x.1 z.1 := fun hij hx hz => by
    obtain ⟨h1, rfl⟩ := List.getElem?_eq_some_iff.1 hx
    obtain ⟨h2, rfl⟩ := List.getElem?_eq_some_iff.1 hz
    exact List.pairwise_iff_getElem.1 hs _ _ h1 h2 hij
  obtain ⟨ix, hlx, ex⟩ := placedPairs_place (List.mem_of_getElem? hx)
  obtain ⟨iz, hlz, ez⟩ := placedPairs_place (List.mem_of_getElem? hz)
  dsimp only at hlx ex hlz ez ho ⊢
  have hac : a.1 = c.1 := by rw [ex, ez]; simp only [recordPlace, ho]
  refine ⟨fun k y hik hkj hy => ?_, fun n p t u hn hp hd hxt hzu => ?_⟩
  · rw [he, List.getElem?_map, Option.map_eq_some_iff] at hy
    obtain ⟨⟨b, y⟩, hy, rfl⟩ := hy
    obtain ⟨iy, hly, ey⟩ := placedPairs_place (List.mem_of_getElem? hy)
    have h1 := le_of hik hx hy
    have h2 := le_of hkj hy hz
    have hab : b.1 = a.1 := by simp only [placeLe] at h1 h2; omega
    dsimp only at hly ey ⊢
    rw [ey, ex] at hab
    exact findIdx_outlet_inj (List.mem_of_getElem? hly) (List.mem_of_getElem? hlx) hab
  · have hle := le_of hij hx hz
    have e1 : a.2 = n := ex ▸ recordPlace_entry hlx hxt hn hd
    have e2 : c.2 = p := ez ▸ recordPlace_entry hlz hzu (ho ▸ hp) (ho ▸ hd)
    simp only [placeLe] at hle
    omega

/-- Only outlets and entry tags are looked at. -/
theorem InListOrder.congr {f : OutletId → List Nat} {l m : List Record} (h : InListOrder f l)
    (e : m.map Record.unnumbered = l.map Record.unnumbered) : InListOrder f m := by
  have at_ : ∀ {i : Nat} {x : Record}, m[i]? = some x → ∃ y, l[i]? = some y ∧ y.outlet = x.outlet ∧ y.entryTag = x.entryTag := by
    intro i x hx
    have hi := congrArg (fun q => q[i]?) e
    simp only [List.getElem?_map, hx, Option.map_some] at hi
    obtain ⟨y, hy, hyx⟩ := Option.map_eq_some_iff.1 hi.symm
    have ho : y.unnumbered.outlet = x.unnumbered.outlet := congrArg Record.outlet hyx
    have ht : y.unnumbered.entryTag = x.unnumbered.entryTag := congrArg Record.entryTag hyx
    exact ⟨y, hy, ho, ht⟩
  intro i j x z hij hx hz ho
  obtain ⟨x', hx', hxo, hxt⟩ := at_ hx
  obtain ⟨z', hz', hzo, hzt⟩ := at_ hz
  obtain ⟨hb, hl⟩ := h i j x' z' hij hx' hz' (hxo.trans (ho.trans hzo.symm))
  rw [hxo] at hb hl
  refine ⟨fun k y hik hkj hy => ?_, fun n p t u hn hp hd ht hu => hl n p t u hn hp hd (hxt.trans ht) (hzt.trans hu)⟩
  obtain ⟨y', hy', hyo, -⟩ := at_ hy
  exact hyo.symm.trans (hb k y' hik hkj hy')

theorem InListOrder.nil (f : OutletId → List Nat) : InListOrder f [] := fun _ _ _ _ _ h => nomatch h

/-- The records a command wrote, where the log still holds them all, are those that took places. -/
theorem Log.Wrote.placed_inListOrder {a b : Log} {m : List Record} {f : OutletId → List Nat} (h : a.Wrote (b.placed a.next f) m)
    (ha : a.records.length ≤ logCapacity) (hm : m.length ≤ logCapacity) : InListOrder f m := by
  obtain ⟨hn, -, hs, hc⟩ := h
  have hlen : b.records.length = min logCapacity (a.records.length + m.length) := Log.placed_length b a.next f ▸ hc ha
  have hnext : b.next = a.next + m.length := hn
  have hp := placeRecords_perm f (b.records.drop (b.records.length - (b.next - a.next)))
  have hl : (b.records.drop (b.records.length - (b.next - a.next))).length = m.length := by
    rw [List.length_drop]
    omega
  have hd : (b.placed a.next f).records = b.records.take (b.records.length - (b.next - a.next)) ++
      renumbered (placeRecords f (b.records.drop (b.records.length - (b.next - a.next))))
        (b.records.drop (b.records.length - (b.next - a.next))) := rfl
  rw [hd] at hs
  generalize b.records.drop (b.records.length - (b.next - a.next)) = new at hp hl hs
  have hr : (renumbered (placeRecords f new) new).length = m.length := by simp [renumbered, hp.length_eq, hl]
  have hcore : (renumbered (placeRecords f new) new).map Record.core = m.map Record.core := by
    rw [List.map_append, List.map_append] at hs
    refine List.IsSuffix.eq_of_length (List.suffix_of_suffix_length_le ((List.suffix_append _ _).trans hs) (List.suffix_append _ _) ?_) ?_
    · simp [hr]
    · simp [hr]
  refine (placeRecords_inListOrder f new).congr ?_
  rw [← renumbered_unnumbered hp.length_eq]
  exact (map_of_core Record.unnumbered (fun _ => rfl) hcore).symm

/-! ### The end of a command -/

/-- The state before its records take their numbers. -/
theorem State.settlePump_moves (s : State) : State.Moves true s s.settle.pump := State.pump_moves (State.settle_moves .refl)

/-- Numbering changes the log alone. -/
theorem State.numbered_eq (s a : State) : ∃ l, s.numbered a = { s with log := l } := by
  unfold State.numbered
  split
  · exact ⟨s.log, rfl⟩
  · exact ⟨_, rfl⟩

/-- What the end of a command leaves are strong moves, but for the places of the log. -/
theorem State.finish_eq (s a : State) : ∃ u l, State.Moves true s u ∧ s.finish a = { u with log := l } := by
  obtain ⟨l, e⟩ := s.settle.pump.numbered_eq a
  exact ⟨_, l, s.settlePump_moves, e⟩

/-- The log of the end of a command: the records written before stay, apart from their numbers, and all take their places. -/
theorem State.finish_wrote {s a : State} {l : List Record} (h : a.log.Wrote s.log l) :
    ∃ m, a.log.Wrote (s.finish a).log m ∧ (∀ r ∈ l, ∃ q ∈ m, q.unnumbered = r.unnumbered) ∧
      (a.log.records.length ≤ logCapacity → m.length ≤ logCapacity → InListOrder (fun o => (a.out o).entries.map Entry.tag) m) := by
  obtain ⟨l', hl'⟩ := s.settlePump_moves.log
  have hw := h.trans hl'
  by_cases e : s.settle.pump.log.next = a.log.next
  · have hnil : l ++ l' = [] := List.length_eq_zero_iff.1 (by have := hw.1; omega)
    rw [hnil] at hw
    refine ⟨[], by rwa [State.finish, State.numbered_same e], fun r hr => ?_, fun _ _ => .nil _⟩
    exact absurd (List.mem_append_left l' hr) (hnil ▸ List.not_mem_nil)
  · have hlog : (s.finish a).log = s.settle.pump.log.placed a.log.next fun o => (a.out o).entries.map Entry.tag := by
      rw [State.finish, State.numbered, if_neg e]
    obtain ⟨m, hm, hp⟩ := hw.placed (le_refl _) fun o => (a.out o).entries.map Entry.tag
    rw [← hlog] at hm
    refine ⟨m, hm, fun r hr => ?_, fun ha hml => ?_⟩
    · obtain ⟨q, hq, e⟩ := List.mem_map.1 (hp.symm.subset (List.mem_map_of_mem (List.mem_append_left l' hr)))
      exact ⟨q, hq, e⟩
    · rw [hlog] at hm
      exact hm.placed_inListOrder ha hml

end Sys2Proof.Machine

open Sys2Proof Sys2Proof.Machine

/-- Settles O5: settling and the fetch engine's next transfer are strong moves, and the records take sorted places. -/
theorem whatComesAboutLeaves : Obligations.WhatComesAboutLeaves := by
  intro s a
  obtain ⟨u, l, hu, e⟩ := s.finish_eq a
  have hb := hu.base
  have hst := hu.steady
  simp only [State.base, State.steady, Prod.mk.injEq] at hb hst
  obtain ⟨hpend, -, -, hcfg, -, -, hclock⟩ := hb
  obtain ⟨hdisc, -, hpeers, hlisten, hbeacon, hiso, hmem⟩ := hst
  dsimp only
  refine ⟨?_, fun o => ?_, fun k line hk => ?_, ?_, fun l hl => ?_⟩
  · rw [e]
    exact ⟨hcfg, hclock, hdisc, hpeers, hiso, hmem, hpend, hlisten, hbeacon⟩
  · have hf := hu.fixed o
    simp only [Outlet.fixed, Prod.mk.injEq] at hf
    obtain ⟨hview, -, hfills, hbed, -⟩ := hf
    rw [e]
    exact ⟨hview, hfills, hbed, hu.sends o⟩
  · have hi := congrArg (fun q => q[k]?) hu.inputs
    simp only [List.getElem?_map, hk, Option.map_some] at hi
    obtain ⟨m, hm, hmi⟩ := Option.map_eq_some_iff.1 hi
    simp only [FireLine.inputs, Prod.mk.injEq] at hmi
    rw [e]
    exact ⟨m, hm, hmi⟩
  · rw [e]
    exact hu.sent
  · obtain ⟨m, hm, hkept, horder⟩ := State.finish_wrote hl
    refine ⟨m, hm, hkept, fun ha hml i j x z hij hx hz ho => ?_⟩
    obtain ⟨hbetween, hlist⟩ := horder ha hml i j x z hij hx hz ho
    refine ⟨hbetween, fun n p d e hd he hnodup hxt hzt => hlist n p d.tag e.tag ?_ ?_ hnodup hxt hzt⟩
    · simp [hd]
    · simp [he]
end

section
/-! Requests by feed that reach an outlet's judgement: how they are answered, and the lists they set. -/

namespace Sys2Proof.Machine

/-! ### The outlet's judgement (R188 to R190) -/

theorem State.TakesFeed.isolated {s : State} {req : RequestHead} {n : Nat} {o : OutletId} (h : s.TakesFeed req n o) :
    s.isolated = false := by
  obtain ⟨-, hg, -⟩ := h
  unfold State.feedGate at hg
  split at hg
  · cases hg
  · rename_i hj
    simp only [State.judgesRequest, Bool.not_and, Bool.not_not, Bool.or_eq_true, not_or, Bool.not_eq_true] at hj
    exact hj.1

/-- A request that reaches an outlet's judgement is answered MALFORMED, or judged by the outlet. -/
theorem State.TakesFeed.run {s : State} {req : RequestHead} {n : Nat} {o : OutletId} (h : s.TakesFeed req n o) (dt kind : Nat)
    (bad : State → OutletId → Bool) (act : State → OutletId → State → State) :
    (s.run dt fun s => s.feedRequest req kind n (bad s) (act s)) =
      .next (if bad (s.elapse dt) o then
        ((s.elapse dt).answers req kind (some o) .malformed .none).latch
          { FaultInfo.bare .malformed with node := some req.head.sender }
      else act (s.elapse dt) o (s.elapse dt)) := by
  have hi : (s.elapse dt).isolated = false := by rw [State.elapse_isolated, h.isolated]
  obtain ⟨hp, hg, hn⟩ := h
  have hf : holdsFields req n = true := decide_eq_true hn
  rw [State.run_powered hp]
  simp only [State.feedRequest, State.elapse_feedGate, hg, hf, State.malformed, State.answer_open hi, Bool.not_true, Bool.false_or]

theorem State.TakesFeed.answer {s : State} {req : RequestHead} {n : Nat} {o : OutletId} (h : s.TakesFeed req n o) (dt kind : Nat)
    (r : ResultCode) :
    (s.elapse dt).answer req kind (some o) r .none = (s.elapse dt).answers req kind (some o) r .none :=
  State.answer_open (by rw [State.elapse_isolated, h.isolated]) ..

/-- An outlet takes its new lists, and the request is answered OK. -/
theorem State.TakesFeed.answer_setOut {s : State} {req : RequestHead} {n : Nat} {o : OutletId} (h : s.TakesFeed req n o)
    (dt kind : Nat) (x : Outlet) (r : ResultCode) :
    ((s.elapse dt).setOut o x).answer req kind (some o) r .none = ((s.elapse dt).setOut o x).answers req kind (some o) r .none :=
  State.answer_open (by rw [State.setOut_isolated, State.elapse_isolated, h.isolated]) ..

/-! ### Malformed fields -/

theorem cartOk_eq_false {c : Nat} : cartOk c = false ↔ c = 0 ∨ 999999 < c := by
  simp only [cartOk, Bool.and_eq_false_iff, decide_eq_false_iff_not]
  omega

theorem optCartBad_iff {c : Option Nat} : optCartBad c = true ↔ ∃ n, c = some n ∧ (n = 0 ∨ 999999 < n) := by
  simp only [optCartBad, Option.any_eq_true, Bool.not_eq_true', cartOk_eq_false]

theorem SpotClass.ofCode_isNone {n : Nat} : (SpotClass.ofCode n).isNone = true ↔ n = 0 ∨ 3 < n := by
  match n with
  | 0 | 1 | 2 | 3 => decide
  | n + 4 => simp [SpotClass.ofCode]

theorem spotsBad_iff {f : SpotFields} : spotsBad f = true ↔
    f.tag = 0 ∨ (∃ c, f.opener = some c ∧ (c = 0 ∨ 999999 < c)) ∨ (∃ c, f.closer = some c ∧ (c = 0 ∨ 999999 < c)) ∨
      ∃ p ∈ f.spots, (p.1 = 0 ∨ 999999 < p.1) ∨ p.2 = 0 ∨ 3 < p.2 := by
  simp only [spotsBad, Bool.or_eq_true, beq_iff_eq, optCartBad_iff, List.any_eq_true, Bool.not_eq_true', cartOk_eq_false,
    SpotClass.ofCode_isNone, or_assoc]

theorem fillsBad_iff {bed : Option Nat} {fills : List Nat} : fillsBad bed fills = true ↔
    (∃ c, bed = some c ∧ (c = 0 ∨ 999999 < c)) ∨ ∃ c ∈ fills, c = 0 ∨ 999999 < c := by
  simp only [fillsBad, Bool.or_eq_true, optCartBad_iff, List.any_eq_true, Bool.not_eq_true', cartOk_eq_false]

/-! ### What stands against a request (R19, R20) -/

theorem Outlet.mem_placesWhere {x : Outlet} {g : FittedBreak → Bool} {p : Place} :
    p ∈ x.placesWhere g ↔ ∃ b, x.place p = some b ∧ g b = true := by
  have hp : p ∈ Place.all := by cases p <;> decide
  simp only [Outlet.placesWhere, List.mem_filter, hp, true_and, Option.any_eq_true]

theorem Outlet.fitted_iff {x : Outlet} {tag : Nat} : x.fitted tag = true ↔ ∃ p b, x.place p = some b ∧ b.tag = tag := by
  simp only [Outlet.fitted, Bool.not_eq_true', List.isEmpty_eq_false_iff_exists_mem, Outlet.mem_placesWhere, beq_iff_eq]

theorem Outlet.hasList_iff {x : Outlet} {tag : Nat} : x.hasList tag = true ↔ ∃ l ∈ x.spots, l.tag = tag := by
  simp [Outlet.hasList]

@[simp] theorem State.elapse_out_place (s : State) (n : Nat) (o : OutletId) (p : Place) :
    ((s.elapse n).out o).place p = (s.out o).place p := by
  cases p
  · exact s.elapse_out_place1 n o
  · exact s.elapse_out_place2 n o

@[simp] theorem State.elapse_out_placesWhere (s : State) (n : Nat) (o : OutletId) (g : FittedBreak → Bool) :
    ((s.elapse n).out o).placesWhere g = (s.out o).placesWhere g := by
  simp only [Outlet.placesWhere, State.elapse_out_place]

@[simp] theorem State.elapse_out_fitted (s : State) (n : Nat) (o : OutletId) (tag : Nat) :
    ((s.elapse n).out o).fitted tag = (s.out o).fitted tag := by
  simp only [Outlet.fitted, State.elapse_out_placesWhere]

@[simp] theorem State.elapse_out_hasList (s : State) (n : Nat) (o : OutletId) (tag : Nat) :
    ((s.elapse n).out o).hasList tag = (s.out o).hasList tag := by
  simp only [Outlet.hasList, State.elapse_out_spots]

@[simp] theorem State.elapse_out_spotsObstacle (s : State) (n : Nat) (o : OutletId) (f : SpotFields) :
    ((s.elapse n).out o).spotsObstacle f = (s.out o).spotsObstacle f := by
  simp only [Outlet.spotsObstacle, State.elapse_out_fitted, State.elapse_out_hasList, State.elapse_out_spots]

theorem Store.wrongBed_iff {st : Store} {bed : Option Nat} :
    st.wrongBed bed = true ↔ ∃ v ∈ st.versions, bed = some v.cart ∧ v.kind ≠ .bed := by
  simp only [Store.wrongBed, Option.any_eq_true, List.any_eq_true, Bool.and_eq_true, beq_iff_eq, bne_iff_ne]
  constructor
  · rintro ⟨c, hc, v, hv, rfl, hk⟩
    exact ⟨v, hv, hc, hk⟩
  · rintro ⟨v, hv, hc, hk⟩
    exact ⟨v.cart, hc, v, hv, rfl, hk⟩

theorem repeats_eq_false {l : List Nat} : repeats l = false ↔ l.Nodup := by
  induction l with
  | nil => simp [repeats]
  | cons c t ih => simp [repeats, ih]

/-! ### The lists -/

theorem putList_of_mem {l : List SpotList} {n : SpotList} (h : ∃ m ∈ l, m.tag = n.tag) :
    putList l n = l.map fun m => if m.tag = n.tag then n else m := by
  unfold putList
  rw [if_pos (by simpa using h)]
  simp only [beq_iff_eq]

theorem putList_of_not_mem {l : List SpotList} {n : SpotList} (h : ¬ ∃ m ∈ l, m.tag = n.tag) : putList l n = l ++ [n] := by
  unfold putList
  rw [if_neg (by simpa using h)]

/-- Spots read with a class code each. -/
theorem spotListOf_spots {f : SpotFields} {code : SpotClass → Nat} (h : ∀ n c, SpotClass.ofCode n = some c → code c = n)
    (hf : ∀ p ∈ f.spots, ¬ (p.2 = 0 ∨ 3 < p.2)) : (spotListOf f).spots.map (fun p => (p.1, code p.2)) = f.spots := by
  rw [spotListOf, List.map_map]
  refine (List.map_congr_left (g := id) fun p hp => ?_).trans (List.map_id _)
  have := mt SpotClass.ofCode_isNone.1 (hf p hp)
  obtain ⟨c, hc⟩ := Option.ne_none_iff_exists'.1 (Option.isNone_iff_eq_none.not.1 this)
  simp [hc, h _ _ hc]

end Sys2Proof.Machine

open Sys2Proof Sys2Proof.Machine

/-- Settles O47. -/
theorem listsAreSet : Obligations.ListsAreSet := by
  intro s dt req o
  dsimp only
  refine ⟨fun f h => ?_, fun tag h => ?_, fun bed fills h => ?_⟩
  · have hrun := h.run dt 7 (fun _ _ => spotsBad f) fun _ o s => s.setSpots req f o
    rw [← spotsBad_iff]
    refine ⟨fun hb => ?_, fun hb => ?_⟩
    · rw [exec, execSpotsSet, hrun, if_pos hb]
    · have hres : exec (.spotsSet dt req f) s = .next ((s.elapse dt).setSpots req f o) := by
        rw [exec, execSpotsSet, hrun, if_neg hb]
      have hobs : ∀ r, (s.out o).spotsObstacle f = some r →
          exec (.spotsSet dt req f) s = .next ((s.elapse dt).answers req 7 (some o) r .none) := fun r e => by
        rw [hres, State.setSpots, State.elapse_out_spotsObstacle, e]
        exact congrArg _ (h.answer dt 7 r)
      rw [← Outlet.fitted_iff, ← Outlet.hasList_iff]
      refine ⟨fun hl => hobs _ ?_, fun hl hf => hobs _ ?_, fun hl hf hh hn => hobs _ ?_, fun hl hf hh => ?_⟩
      · rw [Outlet.spotsObstacle, if_pos hl]
      · rw [Outlet.spotsObstacle, if_neg (by omega), if_pos hf]
      · rw [Outlet.spotsObstacle, if_neg (by omega), if_neg hf, if_pos (by simp [hh, hn])]
      · have hnone : (s.out o).spotsObstacle f = none := by
          rw [Outlet.spotsObstacle, if_neg (by omega), if_neg hf, if_neg]
          rcases hh with hh | hh
          · simp [hh]
          · simp [hh]
        refine ⟨spotListOf f, rfl, rfl, rfl, ?_, putList (s.out o).spots (spotListOf f),
          fun hm => putList_of_mem (Outlet.hasList_iff.1 hm), fun hm => putList_of_not_mem (mt Outlet.hasList_iff.2 hm), ?_⟩
        · refine spotListOf_spots (code := fun c => match c with | .must => 1 | .should => 2 | .may => 3) (fun n c e => ?_)
            fun p hp hcode => hb (spotsBad_iff.2 (.inr (.inr (.inr ⟨p, hp, .inr hcode⟩))))
          unfold SpotClass.ofCode at e
          split at e <;> cases e <;> rfl
        · rw [hres, State.setSpots, State.elapse_out_spotsObstacle, hnone, ← h.answer_setOut, ← State.elapse_out_spots s dt o]
          rfl
  · have hrun := h.run dt 8 (fun _ _ => tag == 0) fun _ o s => s.clearSpots req tag o
    rw [← Outlet.fitted_iff, ← Outlet.hasList_iff]
    refine ⟨fun h0 => ?_, fun h0 => ?_, fun h0 hh hf => ?_, fun h0 hh hf => ?_⟩
    · rw [exec, execSpotsClear, hrun, if_pos (beq_iff_eq.2 h0)]
    · intro hh
      rw [exec, execSpotsClear, hrun, if_neg (by simpa using h0), State.clearSpots, State.elapse_out_hasList, if_pos (by simp [hh]),
        h.answer]
    · rw [exec, execSpotsClear, hrun, if_neg (by simpa using h0), State.clearSpots, State.elapse_out_hasList, if_neg (by simp [hh]),
        State.elapse_out_fitted, if_pos hf, h.answer]
    · rw [exec, execSpotsClear, hrun, if_neg (by simpa using h0), State.clearSpots, State.elapse_out_hasList, if_neg (by simp [hh]),
        State.elapse_out_fitted, if_neg hf, ← h.answer_setOut, ← State.elapse_out_spots s dt o]
      rfl
  · have hrun := h.run dt 9 (fun _ _ => fillsBad bed fills) fun _ o s => s.setFills req bed fills o
    rw [← fillsBad_iff, ← Store.wrongBed_iff, ← repeats_eq_false]
    refine ⟨fun hb => ?_, fun hb => ?_⟩
    · rw [exec, execFillsSet, hrun, if_pos hb]
    · have hres : exec (.fillsSet dt req bed fills) s = .next ((s.elapse dt).setFills req bed fills o) := by
        rw [exec, execFillsSet, hrun, if_neg hb]
      have hobs : ∀ r, s.store.fillsObstacle bed fills = some r →
          exec (.fillsSet dt req bed fills) s = .next ((s.elapse dt).answers req 9 (some o) r .none) := fun r e => by
        rw [hres, State.setFills, State.elapse_store, e]
        exact congrArg _ (h.answer dt 9 r)
      refine ⟨fun hl => hobs _ ?_, fun hl hr => hobs _ ?_, fun hl hr hw => hobs _ ?_, fun hl hr hw => ?_⟩
      · rw [Store.fillsObstacle, if_pos hl]
      · rw [Store.fillsObstacle, if_neg (by omega), if_pos (by simpa using hr)]
      · rw [Store.fillsObstacle, if_neg (by omega), if_neg (by simp [hr]), if_pos hw]
      · have hnone : s.store.fillsObstacle bed fills = none := by
          rw [Store.fillsObstacle, if_neg (by omega), if_neg (by simp [hr]), if_neg hw]
        rw [hres, State.setFills, State.elapse_store, hnone, ← h.answer_setOut]
        rfl
end

section
/-! ENTRY_ADD: its malformed fields, what stands against it, the place and the mode of the new entry (R4 to R6). -/

namespace Sys2Proof.Machine

/-! ### Malformed fields (R4) -/

theorem entryKindOf_isNone {f : EntryFields} : (entryKindOf f).isNone = true ↔
    (f.kind ≠ 1 ∧ f.kind ≠ 2) ∨ (f.kind = 1 ∧ (f.ref = 0 ∨ 999999 < f.ref)) ∨ (f.kind = 2 ∧ f.ref = 0) := by
  unfold entryKindOf
  split
  · rename_i h
    cases hc : cartOk f.ref <;> simp [h, hc, ← cartOk_eq_false]
  · rename_i h
    by_cases h0 : f.ref = 0 <;> simp [h, h0]
  · rename_i h1 h2
    exact iff_of_true rfl (.inl ⟨h1, h2⟩)

theorem entryKindOf_sound {f : EntryFields} (h : (entryKindOf f).isNone ≠ true) :
    entryKindOf f = some (if f.kind = 1 then .item f.ref else .brk f.ref (clampLen f.len)) := by
  unfold entryKindOf at h ⊢
  split at h
  · rename_i hk
    split at h
    · rename_i hc
      simp [hk, hc]
    · exact absurd rfl h
  · rename_i hk
    split at h
    · exact absurd rfl h
    · rename_i h0
      simp [hk, h0]
  · exact absurd rfl h

theorem startModeOf_isNone {f : EntryFields} : (startModeOf f).isNone = true ↔
    (f.mode ≠ 1 ∧ f.mode ≠ 2 ∧ f.mode ≠ 3) ∨ (f.mode ≠ 1 ∧ f.time = none) := by
  unfold startModeOf
  split
  · rename_i h
    simp [h]
  · rename_i h ht
    simp [h, ht]
  · rename_i h ht
    simp [h, ht]
  · rename_i h1 h2 h3
    simp only [Option.isNone_none, true_iff]
    cases ht : f.time with
    | none => exact .inr ⟨fun e => h1 e, rfl⟩
    | some t => exact .inl ⟨fun e => h1 e, fun e => h2 t e ht, fun e => h3 t e ht⟩

theorem positionOf_isNone {f : EntryFields} : (positionOf f).isNone = true ↔
    (f.position ≠ 1 ∧ f.position ≠ 2 ∧ f.position ≠ 3) ∨ (f.position = 3 ∧ f.reference = 0) := by
  unfold positionOf
  split
  · rename_i h
    simp [h]
  · rename_i h
    simp [h]
  · rename_i h
    by_cases h0 : f.reference = 0 <;> simp [h, h0]
  · rename_i h1 h2 h3
    exact iff_of_true rfl (.inl ⟨h1, h2, h3⟩)

theorem entryAddBad_iff {f : EntryFields} : entryAddBad f = true ↔
    f.tag = 0 ∨ (f.kind ≠ 1 ∧ f.kind ≠ 2) ∨ (f.kind = 1 ∧ (f.ref = 0 ∨ 999999 < f.ref)) ∨ (f.kind = 2 ∧ f.ref = 0) ∨
      (f.mode ≠ 1 ∧ f.mode ≠ 2 ∧ f.mode ≠ 3) ∨ (f.mode ≠ 1 ∧ f.time = none) ∨
        (f.position ≠ 1 ∧ f.position ≠ 2 ∧ f.position ≠ 3) ∨ (f.position = 3 ∧ f.reference = 0) := by
  simp only [entryAddBad, Bool.or_eq_true, beq_iff_eq, entryKindOf_isNone, startModeOf_isNone, positionOf_isNone, or_assoc]

/-! ### What stands against it (R4) -/

theorem Outlet.entry_eq_none {x : Outlet} {tag : Nat} : x.entry tag = none ↔ ∀ e ∈ x.entries, e.tag ≠ tag := by
  simp [Outlet.entry]

theorem Outlet.entry_isSome {x : Outlet} {tag : Nat} : (x.entry tag).isSome = true ↔ ∃ e ∈ x.entries, e.tag = tag := by
  simp [Outlet.entry]

theorem Outlet.entry_tag {x : Outlet} {tag : Nat} {e : Entry} (h : x.entry tag = some e) : e.tag = tag := by
  simpa using List.find?_some h

theorem Outlet.entry_mem {x : Outlet} {tag : Nat} {e : Entry} (h : x.entry tag = some e) : e ∈ x.entries :=
  List.mem_of_find?_eq_some h

theorem Outlet.addObstacle_duplicate {x : Outlet} {tag : Nat} (h : (x.entry tag).isSome = true) (pos : Position) :
    x.addObstacle tag pos = some .duplicate := by
  simp [Outlet.addObstacle, h]

theorem Outlet.addObstacle_notFound {x : Outlet} {tag ref : Nat} (h : x.entry tag = none) (hr : x.entry ref = none) :
    x.addObstacle tag (.after ref) = some .notFound := by
  simp [Outlet.addObstacle, h, hr]

theorem Outlet.addObstacle_inAir {x : Outlet} {tag ref : Nat} {e : Entry} (h : x.entry tag = none) (hr : x.entry ref = some e)
    (he : e.state = .onAir) (hl : x.leadTag ≠ some ref) : x.addObstacle tag (.after ref) = some .inAir := by
  simp [Outlet.addObstacle, h, hr, he, hl]

/-- Where the position can be taken, only a full running order stands against the entry. -/
theorem Outlet.addObstacle_room {x : Outlet} {tag : Nat} {pos : Position} (h : x.entry tag = none)
    (hr : ∀ ref, pos = .after ref → ∃ e, x.entry ref = some e ∧ (e.state = .onAir → x.leadTag = some ref)) :
    x.addObstacle tag pos = if entryCapacity ≤ x.entries.length then some .full else none := by
  cases pos with
  | atEnd | firstQueued => simp [Outlet.addObstacle, h]
  | after ref =>
    obtain ⟨e, he, hl⟩ := hr ref rfl
    have hno : (e.state == .onAir && x.leadTag != some ref) = false := by
      by_cases hs : e.state = .onAir
      · simp [hl hs]
      · simp [hs]
    simp [Outlet.addObstacle, h, he, hno]

/-! ### The new entry and its place (R5, R6) -/

theorem State.takeMode_sequence (s : State) : s.takeMode .sequence = .sequence := by
  unfold State.takeMode
  split <;> simp_all

theorem State.takeMode_late {s : State} {t : Time} (h : ∃ now, s.disc.groupTime = some now ∧ t ≤ now) :
    s.takeMode (.soft t) = .sequence ∧ s.takeMode (.hard t) = .sequence := by
  obtain ⟨now, hg, ht⟩ := h
  simp [State.takeMode, hg, ht]

theorem State.takeMode_early {s : State} {t : Time} (h : ¬ ∃ now, s.disc.groupTime = some now ∧ t ≤ now) :
    s.takeMode (.soft t) = .soft t ∧ s.takeMode (.hard t) = .hard t := by
  cases hg : s.disc.groupTime with
  | none => simp [State.takeMode, hg]
  | some now =>
    have : ¬ t ≤ now := fun ht => h ⟨now, hg, ht⟩
    simp [State.takeMode, hg, this]

theorem insertAt_firstQueued (l : List Entry) (e : Entry) :
    ∃ pre post, l = pre ++ post ∧ insertAt l .firstQueued e = pre ++ e :: post ∧ (∀ d ∈ pre, d.state ≠ .queued) ∧
      ∀ d, post.head? = some d → d.state = .queued := by
  refine ⟨l.takeWhile fun d => d.state != .queued, l.dropWhile fun d => d.state != .queued, List.takeWhile_append_dropWhile.symm,
    rfl, fun d hd => by simpa using List.mem_takeWhile_imp hd, fun d hd => ?_⟩
  have := List.head?_dropWhile_not (fun d : Entry => d.state != .queued) l
  rw [hd] at this
  simpa using this

/-- An entry of a tag splits the list at the first such entry. -/
theorem split_at_tag {l : List Entry} {tag : Nat} (h : ∃ e ∈ l, e.tag = tag) :
    ∃ d post, l.dropWhile (fun d => d.tag != tag) = d :: post ∧ d.tag = tag ∧
      l = (l.takeWhile fun d => d.tag != tag) ++ d :: post := by
  have hsplit := List.takeWhile_append_dropWhile (p := fun d : Entry => d.tag != tag) (l := l)
  have hhead := List.head?_dropWhile_not (fun d : Entry => d.tag != tag) l
  cases hd : l.dropWhile (fun d => d.tag != tag) with
  | nil =>
    obtain ⟨e, he, ht⟩ := h
    have := List.dropWhile_eq_nil_iff.1 hd e he
    simp [ht] at this
  | cons d post =>
    rw [hd] at hhead hsplit
    exact ⟨d, post, rfl, by simpa using hhead, hsplit.symm⟩

theorem insertAt_after {l : List Entry} {ref : Nat} (h : ∃ e ∈ l, e.tag = ref) (e : Entry) :
    ∃ pre d post, l = pre ++ d :: post ∧ insertAt l (.after ref) e = pre ++ d :: e :: post ∧ d.tag = ref ∧
      ∀ c ∈ pre, c.tag ≠ ref := by
  obtain ⟨d, post, hd, ht, hl⟩ := split_at_tag h
  refine ⟨_, d, post, hl, ?_, ht, fun c hc => by simpa using List.mem_takeWhile_imp hc⟩
  simp only [insertAt, insertAfter, hd]

/-- An entry not put directly after a lead with an entry armed behind it displaces nothing. -/
theorem State.displace_none {s : State} {o : OutletId} (tag : Nat) (h : (s.out o).leadTag = none ∨ (s.out o).seqSlot = none) :
    s.displace o tag = s := by
  unfold State.displace
  dsimp only
  split
  · rename_i hl hq
    rcases h with h | h
    · exact absurd (h.symm.trans hl) (by simp)
    · exact absurd (h.symm.trans hq) (by simp)
  · rfl

theorem State.displace_some {s : State} {o : OutletId} {tag t q : Nat} (hl : (s.out o).leadTag = some t) (hq : (s.out o).seqSlot = some q)
    (hne : q ≠ tag) : s.displace o tag =
      if (entriesAfter (s.out o).entries t).head?.map Entry.tag = some tag then s.disarm o q else s := by
  unfold State.displace
  simp [hl, hq, hne]

end Sys2Proof.Machine

open Sys2Proof Sys2Proof.Machine

/-- Settles O45. -/
theorem entriesAreAdded : Obligations.EntriesAreAdded := by
  intro s dt req f o h
  have hrun := h.run dt 5 (fun s o => !s.isFollow o && entryAddBad f) fun _ o s => s.addEntry req f o
  simp only [State.elapse_isFollow] at hrun
  dsimp only
  rw [← entryAddBad_iff, exec, execEntryAdd, hrun]
  refine ⟨fun hf => ?_, fun hf hb => ?_, fun hf hb => ?_⟩
  · rw [if_neg (by simp [hf]), State.addEntry, State.elapse_isFollow, if_pos hf, h.answer]
  · rw [if_pos (by simp [hf, hb])]
  · rw [if_neg (by simp [hb])]
    have hkn : (entryKindOf f).isNone ≠ true := fun e => hb (by simp [entryAddBad, e])
    have hmn : (startModeOf f).isNone ≠ true := fun e => hb (by simp [entryAddBad, e])
    have hpn : (positionOf f).isNone ≠ true := fun e => hb (by simp [entryAddBad, e])
    have hkind := entryKindOf_sound hkn
    obtain ⟨mode, hmode⟩ := Option.ne_none_iff_exists'.1 (mt Option.isNone_iff_eq_none.2 hmn)
    obtain ⟨pos, hpos⟩ := Option.ne_none_iff_exists'.1 (mt Option.isNone_iff_eq_none.2 hpn)
    generalize hk : (if f.kind = 1 then EntryKind.item f.ref else EntryKind.brk f.ref (clampLen f.len)) = kind at hkind
    have hpos3 : f.position = 3 → pos = .after f.reference := fun h3 => by
      have h0 : f.reference ≠ 0 := fun e => hpn (positionOf_isNone.2 (.inr ⟨h3, e⟩))
      simpa [positionOf, h3, h0] using hpos.symm
    have hafter : ∀ ref, pos = .after ref → f.position = 3 ∧ ref = f.reference := fun ref e => by
      subst e
      unfold positionOf at hpos
      split at hpos
      · cases hpos
      · cases hpos
      · rename_i h3
        split at hpos
        · cases hpos
        · cases hpos
          exact ⟨h3, rfl⟩
      · cases hpos
    have hentry : ∀ tag, ((s.elapse dt).out o).entry tag = (s.out o).entry tag := fun tag => by
      simp only [Outlet.entry, State.elapse_out_entries]
    have hlead : ((s.elapse dt).out o).leadTag = (s.out o).leadTag := by simp only [Outlet.leadTag, State.elapse_out_airOrder]
    have hobs : ∀ r, (((s.elapse dt).out o).addObstacle f.tag pos = some r) →
        (s.elapse dt).addEntry req f o = (s.elapse dt).answers req 5 (some o) r .none := fun r e => by
      simp only [State.addEntry, State.elapse_isFollow, hf, hkind, hmode, hpos, e, h.answer, Bool.false_eq_true, if_false]
    refine ⟨fun hdup => ?_, fun hno => ⟨fun h3 hr => ?_, fun e h3 he hair hl => ?_, fun href => ?_⟩⟩
    · rw [hobs _ (Outlet.addObstacle_duplicate (by rw [hentry]; exact Outlet.entry_isSome.2 hdup) pos)]
    · rw [hobs .notFound]
      rw [hpos3 h3]
      exact Outlet.addObstacle_notFound (by rw [hentry]; exact Outlet.entry_eq_none.2 hno)
        (by rw [hentry]; exact Outlet.entry_eq_none.2 hr)
    · rw [hobs .inAir]
      rw [hpos3 h3]
      exact Outlet.addObstacle_inAir (by rw [hentry]; exact Outlet.entry_eq_none.2 hno) (by rw [hentry]; exact he) hair
        (by rw [hlead]; exact hl)
    have hroom := Outlet.addObstacle_room (x := (s.elapse dt).out o) (tag := f.tag) (pos := pos)
      (by rw [hentry]; exact Outlet.entry_eq_none.2 hno) fun ref e => by
        obtain ⟨h3, rfl⟩ := hafter ref e
        simpa only [hentry, hlead] using href h3
    rw [State.elapse_out_entries] at hroom
    refine ⟨fun hfull => ?_, fun hlt => ?_⟩
    · rw [hobs .full (by rw [hroom, if_pos (show entryCapacity ≤ _ from hfull)])]
    rw [if_neg (show ¬ entryCapacity ≤ _ from by show ¬ 256 ≤ _; omega)] at hroom
    refine ⟨(s.elapse dt).newEntry f kind mode, insertAt (s.out o).entries pos ((s.elapse dt).newEntry f kind mode), rfl,
      hk.symm, fun h1 => ?_, fun t ht h2 => ?_, fun t ht h3 => ?_, ?_, rfl, rfl, fun h1 => ?_, fun h2 => ?_, fun h3 => ?_, ?_⟩
    · obtain rfl : mode = .sequence := by simpa [startModeOf, h1] using hmode.symm
      exact State.takeMode_sequence _
    · obtain rfl : mode = .soft t := by simpa [startModeOf, h2, ht] using hmode.symm
      exact ⟨fun hl => (State.takeMode_late hl).1, fun hl => (State.takeMode_early hl).1⟩
    · obtain rfl : mode = .hard t := by simpa [startModeOf, h3, ht] using hmode.symm
      exact ⟨fun hl => (State.takeMode_late hl).2, fun hl => (State.takeMode_early hl).2⟩
    · simp only [State.newEntry, Option.any_eq_true, bne_iff_ne]
    · obtain rfl : pos = .atEnd := by simpa [positionOf, h1] using hpos.symm
      rfl
    · obtain rfl : pos = .firstQueued := by simpa [positionOf, h2] using hpos.symm
      exact insertAt_firstQueued _ _
    · rw [hpos3 h3]
      obtain ⟨e, he, -⟩ := href h3
      exact insertAt_after ⟨e, Outlet.entry_mem he, Outlet.entry_tag he⟩ _
    · generalize hl : insertAt (s.out o).entries pos ((s.elapse dt).newEntry f kind mode) = l
      have hadd : (s.elapse dt).addEntry req f o =
          ((((s.elapse dt).setOut o { (s.elapse dt).out o with entries := l }).answers req 5 (some o) .ok .none).displace o
            f.tag).finish ((s.elapse dt).setOut o { (s.elapse dt).out o with entries := l }) := by
        simp only [State.addEntry, State.elapse_isFollow, hf, hkind, hmode, hpos, hroom, Bool.false_eq_true, if_false]
        rw [← h.answer_setOut, ← hl, ← State.elapse_out_entries s dt o]
        rfl
      have hout : (((s.elapse dt).setOut o { (s.elapse dt).out o with entries := l }).answers req 5 (some o) .ok .none).out o =
          { (s.elapse dt).out o with entries := l } := State.setOut_out _ _ _
      rw [hadd]
      refine ⟨fun hnone => ?_, fun t q ht hq hne => ⟨fun hfirst => ?_, fun hfirst => ?_⟩⟩
      · rw [State.displace_none f.tag]
        rw [hout]
        simpa only [Outlet.leadTag, State.elapse_out_airOrder, State.elapse_out_seqSlot] using hnone
      all_goals
        rw [State.displace_some (t := t) (q := q) (by rw [hout]; exact hlead.trans ht)
          (by rw [hout]; exact (State.elapse_out_seqSlot s dt o).trans hq) hne, hout]
      · rw [if_pos hfirst]
      · rw [if_neg hfirst]
end

section
/-! The voice engine while no request waits, and how an entry leaves: the facts the ends of voices and entries are made of. -/

namespace Sys2Proof.Machine

/-! ### Outlets replaced -/

theorem Quad.set_get {α : Type} (q : Quad α) (o : OutletId) : q.set o (q.get o) = q := by cases o <;> rfl

theorem Quad.set_set {α : Type} (q : Quad α) (o : OutletId) (x y : α) : (q.set o x).set o y = q.set o y := by cases o <;> rfl

theorem State.setOut_self (s : State) (o : OutletId) : s.setOut o (s.out o) = s := by
  simp only [State.setOut, State.out, Quad.set_get]

theorem State.setOut_setOut (s : State) (o : OutletId) (x y : Outlet) : (s.setOut o x).setOut o y = s.setOut o y := by
  simp only [State.setOut, Quad.set_set]

/-! ### Freed voices (R91, R96, R103, R104) -/

/-- Only the voices, the store, the transfer in hand and the captures have changed. -/
def State.Engine (s t : State) : Prop :=
  ∃ v st tr c, t = { s with voices := v, store := st, transfer := tr, captures := c }

theorem State.Engine.refl (s : State) : s.Engine s := ⟨_, _, _, _, rfl⟩

theorem State.Engine.trans {s t u : State} (h : s.Engine t) (h' : t.Engine u) : s.Engine u := by
  obtain ⟨_, _, _, _, rfl⟩ := h
  obtain ⟨_, _, _, _, rfl⟩ := h'
  exact ⟨_, _, _, _, rfl⟩

theorem State.Engine.foldl {α : Type} {s t : State} (h : s.Engine t) (f : State → α → State) (l : List α)
    (hf : ∀ (u : State) (x : α), u.Engine (f u x)) : s.Engine (l.foldl f t) := by
  induction l generalizing t with
  | nil => exact h
  | cons x l ih => exact ih (h.trans (hf t x))

section fields
variable {s t : State}

theorem State.Engine.log (h : s.Engine t) : t.log = s.log := by obtain ⟨_, _, _, _, rfl⟩ := h; rfl
theorem State.Engine.sent (h : s.Engine t) : t.sent = s.sent := by obtain ⟨_, _, _, _, rfl⟩ := h; rfl
theorem State.Engine.lines (h : s.Engine t) : t.lines = s.lines := by obtain ⟨_, _, _, _, rfl⟩ := h; rfl
theorem State.Engine.cfg (h : s.Engine t) : t.cfg = s.cfg := by obtain ⟨_, _, _, _, rfl⟩ := h; rfl
theorem State.Engine.disc (h : s.Engine t) : t.disc = s.disc := by obtain ⟨_, _, _, _, rfl⟩ := h; rfl
theorem State.Engine.clock (h : s.Engine t) : t.clock = s.clock := by obtain ⟨_, _, _, _, rfl⟩ := h; rfl
theorem State.Engine.outlets (h : s.Engine t) : t.outlets = s.outlets := by obtain ⟨_, _, _, _, rfl⟩ := h; rfl
theorem State.Engine.voiceQueue (h : s.Engine t) : t.voiceQueue = s.voiceQueue := by obtain ⟨_, _, _, _, rfl⟩ := h; rfl
theorem State.Engine.out (h : s.Engine t) (o : OutletId) : t.out o = s.out o := by obtain ⟨_, _, _, _, rfl⟩ := h; rfl

end fields

theorem State.dropVoice_engine (s : State) (i : Nat) : s.Engine (s.dropVoice i) := by
  unfold State.dropVoice
  split
  · exact .refl s
  · exact ⟨_, _, _, _, rfl⟩

theorem State.settleStream_engine (s : State) (i : Nat) : s.Engine (s.settleStream i) := by
  unfold State.settleStream
  split
  · exact .refl s
  · dsimp only
    split
    · exact .refl s
    · split
      · split
        · exact ⟨_, _, _, _, rfl⟩
        · exact ⟨_, _, _, _, rfl⟩
      · exact ⟨_, _, _, _, rfl⟩

theorem State.settlePass_engine (s : State) (i : Nat) : s.Engine (s.settlePass i) := by
  unfold State.settlePass
  split
  · exact s.settleStream_engine i
  · exact .refl s

/-- With no request waiting a FREE voice stays so. -/
theorem State.offerAll_empty {s : State} (h : s.voiceQueue = []) : s.offerAll = s := by
  simp [State.offerAll, State.offer, h]

theorem State.freeVoices_engine {s : State} (h : s.voiceQueue = []) (l : List Nat) : s.Engine (s.freeVoices l) := by
  have hd : s.Engine (l.foldl State.dropVoice s) := (State.Engine.refl s).foldl _ l State.dropVoice_engine
  rw [State.freeVoices, State.offerAll_empty (hd.voiceQueue.trans h)]
  exact hd

theorem State.filterQueue_empty {s : State} (h : s.voiceQueue = []) (p : VoiceRequest → Bool) :
    ({ s with voiceQueue := s.voiceQueue.filter p } : State) = s := by
  rw [h]
  exact (congrArg (fun q => { s with voiceQueue := q }) h.symm : _)

theorem State.giveUp_engine {s : State} (h : s.voiceQueue = []) (o : OutletId) (k : Holder) : s.Engine (s.giveUp o k) := by
  unfold State.giveUp
  rw [State.filterQueue_empty h]
  dsimp only
  split
  · exact State.freeVoices_engine h _
  · exact .refl s

theorem State.giveUpWhere_engine {s : State} (h : s.voiceQueue = []) (o : OutletId) (k : Holder → Bool) :
    s.Engine (s.giveUpWhere o k) := by
  unfold State.giveUpWhere
  rw [State.filterQueue_empty h]
  exact State.freeVoices_engine h _

/-! ### Records and entries that leave (R16, R166) -/

/-- The log takes a record as the outlet writes it. -/
theorem State.take_wrote (s : State) (o : OutletId) (r : Record) (c : Confirmation) (t : Option Tally) :
    ∃ q, s.log.Wrote (s.log.take
        { { r with outlet := o, feed := (s.ocfg o).feed, concealed := min 65535 r.concealed } with confirmation := c } o t) [q] ∧
      q.unnumbered = s.asWritten o r := ⟨_, .take _ _ _ _, rfl⟩

/-- A record is written as the outlet writes it, and its item's tally passes to it. -/
theorem State.record_eq (s : State) (o : OutletId) (r : Record) (key : Option AirKey) :
    ∃ l tl, s.record o r key = ({ s with log := l } : State).setOut o { s.out o with tallies := tl } ∧
      ∃ q, s.log.Wrote l [q] ∧ q.unnumbered = s.asWritten o r := by
  have hself : ∀ l, ({ s with log := l } : State) = ({ s with log := l } : State).setOut o (s.out o) := fun l =>
    (State.setOut_self _ o).symm
  unfold State.record
  dsimp only
  split
  · exact ⟨_, _, hself _, s.take_wrote o r .none none⟩
  · split
    · exact ⟨_, _, hself _, s.take_wrote o r .none none⟩
    · rename_i k _ t _
      split
      · exact ⟨_, (s.out o).tallies.filter fun t => t.key != k, rfl, s.take_wrote o r t.verdict none⟩
      · exact ⟨_, (s.out o).tallies.filter fun t => t.key != k, rfl, s.take_wrote o r .pending (some t)⟩

/-- An entry leaves with its record. -/
theorem State.leaveEntry_eq {s : State} {o : OutletId} {tag : Nat} {e : Entry} (h : (s.out o).entry tag = some e) (out : Outcome)
    (rep : VoiceReport) (played : Nat) (under : Option Nat) :
    ∃ l tl, s.leaveEntry o tag out rep played under =
        ({ s with log := l } : State).setOut o ({ s.out o with tallies := tl }.dropEntry tag) ∧
      ∃ q, s.log.Wrote l [q] ∧ q.unnumbered = s.asWritten o (entryRecord e out rep played under) := by
  obtain ⟨l, tl, e', q, hw, hq⟩ :=
    s.record_eq o (entryRecord e out rep played under) (if e.air.sounded then some (.entry tag) else none)
  refine ⟨l, tl, ?_, q, hw, hq⟩
  unfold State.leaveEntry
  simp only [h]
  rw [e', State.modOut, State.setOut_out, State.setOut_setOut]

/-! ### Disarming with no request waiting (R8) -/

/-- What disarming leaves while no request waits: the log, the configuration, the clocks, the other entries and the frames sent. -/
structure Unprepared (s t : State) (o : OutletId) (tag : Nat) : Prop where
  log : t.log = s.log
  cfg : t.cfg = s.cfg
  sent : s.sent <+: t.sent
  queue : t.voiceQueue = []
  entries : (t.out o).entries = ((s.out o).modEntry tag fun e => if e.state = .armed then { e with state := .queued } else e).entries

theorem State.unprepare_empty {s : State} (h : s.voiceQueue = []) (o : OutletId) (tag : Nat) :
    Unprepared s (s.unprepare o tag) o tag := by
  have hrel : ∃ t : State, t.log = s.log ∧ t.cfg = s.cfg ∧ s.sent <+: t.sent ∧ t.voiceQueue = [] ∧ (t.out o).entries = (s.out o).entries ∧
      s.unprepare o tag = (t.modOut o fun x =>
        { x.modEntry tag (fun e => if e.state = .armed then { e with state := .queued } else e) with
          seqSlot := x.seqSlot.filter fun t => t != tag, anchorSlot := x.anchorSlot.filter fun t => t != tag }).giveUp o (.entry tag) := by
    unfold State.unprepare
    dsimp only
    split
    · rename_i p _
      obtain ⟨c, hc, hlog, hcfg, hsent, hq, hentries⟩ : ∃ c : State, s.cancelCue o p = c ∧ c.log = s.log ∧ c.cfg = s.cfg ∧ s.sent <+: c.sent ∧
          c.voiceQueue = [] ∧ (c.out o).entries = (s.out o).entries := by
        refine ⟨_, rfl, ?_⟩
        unfold State.cancelCue
        split
        · exact ⟨rfl, rfl, List.prefix_refl _, h, rfl⟩
        · rename_i b _
          split
          · obtain ⟨l, e, -⟩ := State.send_rest s (.cue { feed := (s.ocfg o).feed, tag := b.tag, start := b.cueStart, len := b.len, cancel := 1 })
            rw [State.sendCue, e, State.modFit]
            refine ⟨rfl, rfl, List.prefix_append _ _, h, ?_⟩
            rw [State.modOut_out]
            cases p <;> rfl
          · exact ⟨rfl, rfl, List.prefix_refl _, h, rfl⟩
      have hg : (c.modOut o fun x => x.vacate p).Engine (c.releaseFit o p) := State.giveUpWhere_engine (by simpa using hq) _ _
      refine ⟨c.releaseFit o p, hg.log.trans hlog, hg.cfg.trans hcfg, ?_, hg.voiceQueue.trans hq, ?_, by rw [hc]⟩
      · rw [hg.sent]
        exact hsent
      · rw [hg.out, State.modOut_out, ← hentries]
        cases p <;> rfl
    · exact ⟨s, rfl, rfl, List.prefix_refl _, h, rfl, rfl⟩
  obtain ⟨t, hlog, hcfg, hsent, hq, hentries, e⟩ := hrel
  rw [e]
  have hg := State.giveUp_engine (s := t.modOut o fun x =>
    { x.modEntry tag (fun e => if e.state = .armed then { e with state := .queued } else e) with
      seqSlot := x.seqSlot.filter fun t => t != tag, anchorSlot := x.anchorSlot.filter fun t => t != tag })
    (by simpa using hq) o (.entry tag)
  refine ⟨hg.log.trans hlog, hg.cfg.trans hcfg, ?_, hg.voiceQueue.trans hq, ?_⟩
  · rw [hg.sent]
    exact hsent
  · rw [hg.out, State.modOut_out]
    simp only [Outlet.modEntry, hentries]

/-- The entry of a tag after a change of it that keeps its tag. -/
theorem Outlet.entry_modEntry (x : Outlet) (tag : Nat) (f : Entry → Entry) (hf : ∀ e, (f e).tag = e.tag) :
    (x.modEntry tag f).entry tag = (x.entry tag).map f := by
  simp only [Outlet.entry, Outlet.modEntry, List.find?_map]
  have hp : ((fun e : Entry => e.tag == tag) ∘ fun e => if (e.tag == tag) = true then f e else e) = fun e => e.tag == tag := by
    funext e
    simp only [Function.comp]
    split
    · rw [hf]
    · rfl
  rw [hp]
  cases h : x.entries.find? fun e => e.tag == tag with
  | none => rfl
  | some e =>
    have ht : (e.tag == tag) = true := by simpa using List.find?_some h
    simp only [Option.map_some, ht, if_true]

theorem Outlet.modEntry_filter (x : Outlet) (tag : Nat) (f : Entry → Entry) (hf : ∀ e, (f e).tag = e.tag) :
    ((x.modEntry tag f).entries.filter fun e => e.tag != tag) = x.entries.filter fun e => e.tag != tag := by
  simp only [Outlet.modEntry]
  induction x.entries with
  | nil => rfl
  | cons e t ih =>
    rw [List.map_cons, List.filter_cons, List.filter_cons, ih]
    by_cases h : e.tag = tag
    · simp [h, hf]
    · simp [h]

/-- An entry that has not begun leaves with its record, while it holds nothing or no request waits. -/
theorem State.leaveUnbegun_removes {s : State} {o : OutletId} {tag : Nat} {e : Entry} (h : (s.out o).entry tag = some e)
    (hq : e.state = .armed → s.voiceQueue = []) (out : Outcome) :
    ∃ q d, s.log.Wrote (s.leaveUnbegun o tag out).log [q] ∧ q.unnumbered = s.asWritten o (entryRecord d out .none 0 none) ∧ d.tag = tag ∧
      s.sent <+: (s.leaveUnbegun o tag out).sent ∧
        ((s.leaveUnbegun o tag out).out o).entries = (s.out o).entries.filter fun d => d.tag != tag := by
  rw [State.leaveUnbegun, h]
  dsimp only
  by_cases ha : e.state = .armed
  · have hu := State.unprepare_empty (hq ha) o tag
    rw [if_pos (by simp [ha])]
    have hf : ∀ d : Entry, (if d.state = .armed then { d with state := .queued } else d).tag = d.tag := fun d => by split <;> rfl
    have he : ((s.unprepare o tag).out o).entry tag =
        some (if e.state = .armed then { e with state := .queued } else e) := by
      have := Outlet.entry_modEntry (s.out o) tag (fun e => if e.state = .armed then { e with state := .queued } else e) hf
      rw [h] at this
      rw [Outlet.entry, hu.entries]
      exact this
    obtain ⟨l, tl, e', q, hw, hr⟩ := State.leaveEntry_eq he out .none 0 none
    rw [State.leaveSilent, e']
    refine ⟨q, _, hu.log ▸ hw, ?_, (hf e).trans (Outlet.entry_tag h), hu.sent, ?_⟩
    · rw [hr, State.asWritten, State.asWritten, State.ocfg, State.ocfg, hu.cfg]
    · rw [State.setOut_out]
      show ((s.unprepare o tag).out o).entries.filter _ = _
      rw [hu.entries]
      exact Outlet.modEntry_filter _ _ _ hf
  · rw [if_neg (by simpa using ha)]
    obtain ⟨l, tl, e', q, hw, hr⟩ := State.leaveEntry_eq h out .none 0 none
    rw [State.leaveSilent, e']
    exact ⟨q, e, hw, hr, Outlet.entry_tag h, List.prefix_refl _, by rw [State.setOut_out]; rfl⟩

end Sys2Proof.Machine

open Sys2Proof Sys2Proof.Machine

/-- Settles O46. -/
theorem entriesAreRemoved : Obligations.EntriesAreRemoved := by
  intro s dt req tag o h
  have hrun := h.run dt 6 (fun s o => !s.isFollow o && tag == 0) fun _ o s => s.removeEntry req tag o
  simp only [State.elapse_isFollow] at hrun
  have hentry : ((s.elapse dt).out o).entry tag = (s.out o).entry tag := by simp only [Outlet.entry, State.elapse_out_entries]
  dsimp only
  rw [exec, execEntryRemove, hrun]
  refine ⟨fun hf => ?_, fun hf h0 => ?_, fun hf h0 => ?_⟩
  · rw [if_neg (by simp [hf]), State.removeEntry, State.elapse_isFollow, if_pos hf, h.answer]
  · rw [if_pos (by simp [hf, h0])]
  · rw [if_neg (by simp [h0]), State.removeEntry, State.elapse_isFollow, if_neg (by simp [hf]), hentry]
    refine ⟨fun hn => ?_, fun e he => ⟨fun hair => ?_, fun hst => ?_⟩⟩
    · rw [hn]
      exact congrArg _ (h.answer dt 6 _)
    · rw [he]
      exact congrArg _ ((if_pos (by simp [hair])).trans (h.answer dt 6 _))
    · rw [he]
      have hne : ¬ (e.state == .onAir) = true := by
        rcases hst with hst | ⟨hst, -⟩ <;> simp [hst]
      obtain ⟨q, d, hw, hr, hd, hsent, hentries⟩ := State.leaveUnbegun_removes
        (s := (s.elapse dt).answers req 6 (some o) .ok .none) (o := o) (e := e) (hentry.trans he)
        (fun ha => by
          rcases hst with hst | ⟨-, hq⟩
          · exact absurd (hst.symm.trans ha) (by decide)
          · exact (State.elapse_voiceQueue s dt).trans hq) .withdrawn
      have hw' : s.log.Wrote (((s.elapse dt).answers req 6 (some o) .ok .none).leaveUnbegun o tag .withdrawn).log [q] := by
        rw [← State.elapse_log s dt]
        exact hw
      have field : ∀ {α : Type} (g : Record → α), (∀ r : Record, g r.unnumbered = g r) →
          g q = g (((s.elapse dt).answers req 6 (some o) .ok .none).asWritten o (entryRecord d .withdrawn .none 0 none)) :=
        fun g hg => by rw [← hg q, hr]
      refine ⟨_, q, congrArg _ ((if_neg hne).trans (by rw [h.answer])), hsent, hw', field Record.source fun _ => rfl,
        field Record.outcome fun _ => rfl, (field Record.entryTag fun _ => rfl).trans (congrArg some hd), field Record.played fun _ => rfl,
        field Record.outlet fun _ => rfl, ?_⟩
      rw [hentries]
      exact congrArg (List.filter _) (State.elapse_out_entries s dt o)
end

section
/-! What an AUDIO frame, a step of group time and the end of the listen time leave as they are, and the candidate group time (R84, R130). -/

namespace Sys2Proof.Machine

/-! ### What ownership and steps of group time leave -/

theorem State.steady_of {s t : State} (h : State.Moves true s t) : t.steady = s.steady := h.steady

/-- An outlet that leaves the air keeps the clocks, the timers and the memory. -/
theorem State.leaveAir_steady (s : State) (o : OutletId) : (s.leaveAir o).steady = s.steady := by
  unfold State.leaveAir
  calc _ = (((s.landTimeline o).modOut o fun x => x.offAir s.clock).stopEchoBlock o).steady := State.steady_of (State.offerAll_moves .refl)
    _ = ((s.landTimeline o).modOut o fun x => x.offAir s.clock).steady := State.steady_of (State.stopEchoBlock_moves .refl o)
    _ = (s.landTimeline o).steady := rfl
    _ = s.steady := State.steady_of (State.landTimeline_moves .refl o)

theorem State.judgeDouble_steady (s : State) (o : OutletId) (head : FrameHead) (b : AudioBody) :
    (s.judgeDouble o head b).steady = s.steady := by
  have hd : ∀ node, (s.stepDown o node).steady = s.steady := fun node => s.leaveAir_steady o
  unfold State.judgeDouble
  dsimp only
  split
  · split
    · exact hd _
    · rfl
  · split
    · exact hd _
    · rfl
  · split
    · exact s.leaveAir_steady o
    · split
      · exact hd _
      · rfl
  · rfl

/-- What a frame of its own feed does to an outlet's ownership (R131, R132, R134, R136). -/
def State.judgeOwner (s : State) (o : OutletId) (head : FrameHead) (b : AudioBody) : State :=
  match (s.out o).air with
  | .standby => s.modOut o fun x => { x with silenceSince := s.clock }
  | .claiming => s.stopClaim o
  | _ => s.judgeDouble o head b

/-- The outlet holds the frame as its owner view (R128). -/
def Outlet.viewed (v : OwnerView) (x : Outlet) : Outlet := { x with view := some v, heard := true }

/-- Air states in which shadow advance follows a frame (R18). -/
def Air.shadows : Air → Bool
  | .listening | .standby | .claiming => true
  | _ => false

theorem State.takeOwnFeed_eq (s : State) (o : OutletId) (head : FrameHead) (b : AudioBody) :
    s.takeOwnFeed o head b =
      if (s.out o).air.shadows then
        ((s.judgeOwner o head b).modOut o (Outlet.viewed (s.viewOf head b))).shadowAdvance o (placeOf b)
      else (s.judgeOwner o head b).modOut o (Outlet.viewed (s.viewOf head b)) := by
  unfold State.takeOwnFeed State.judgeOwner
  cases (s.out o).air <;> rfl

theorem State.judgeOwner_steady (s : State) (o : OutletId) (head : FrameHead) (b : AudioBody) :
    (s.judgeOwner o head b).steady = s.steady := by
  unfold State.judgeOwner
  split
  · rfl
  · rfl
  · exact s.judgeDouble_steady o head b

theorem State.takeOwnFeed_steady (s : State) (o : OutletId) (head : FrameHead) (b : AudioBody) :
    (s.takeOwnFeed o head b).steady = s.steady := by
  rw [State.takeOwnFeed_eq]
  split
  · exact (State.steady_of (State.shadowAdvance_moves .refl o _)).trans (s.judgeOwner_steady o head b)
  · exact s.judgeOwner_steady o head b

theorem State.takeAudioOn_steady (s : State) (o : OutletId) (head : FrameHead) (b : AudioBody) :
    (s.takeAudioOn o head b).steady = s.steady := by
  unfold State.takeAudioOn
  dsimp only
  split
  · rfl
  · generalize hu : (if (s.ocfg o).feed = b.feed then s.takeOwnFeed o head b else s) = u
    have h1 : u.steady = s.steady := by
      rw [← hu]
      split
      · exact s.takeOwnFeed_steady o head b
      · rfl
    generalize hv : (if (u.isFollow o && (s.ocfg o).followFeed == b.feed) = true then
      (u.placeFrame o { time := b.frameTime, sender := head.sender, samples := b.samples }).tryResync o else u) = v
    have h2 : v.steady = u.steady := by
      rw [← hv]
      split
      · exact State.steady_of (State.tryResync_moves (State.placeFrame_moves .refl o _) o)
      · rfl
    rw [← h1, ← h2]
    split
    · exact State.steady_of (State.collectEcho_moves .refl o _ _)
    · rfl

theorem State.takeAudio_steady (s : State) (head : FrameHead) (b : AudioBody) (l : List OutletId) :
    (l.foldl (fun s o => s.takeAudioOn o head b) s).steady = s.steady := by
  induction l generalizing s with
  | nil => rfl
  | cons o l ih => exact (ih _).trans (s.takeAudioOn_steady o head b)

/-- Two states agree on the clock discipline and on what strong moves keep of the outlets, whatever the horizon. -/
structure State.Lasts (s t : State) : Prop where
  disc : t.disc = s.disc
  fixed : ∀ o, (t.out o).fixed = (s.out o).fixed

theorem State.Lasts.refl (s : State) : s.Lasts s := ⟨rfl, fun _ => rfl⟩

theorem State.Lasts.trans {s t u : State} (h : s.Lasts t) (h' : t.Lasts u) : s.Lasts u :=
  ⟨h'.disc.trans h.disc, fun o => (h'.fixed o).trans (h.fixed o)⟩

theorem State.Moves.lasts {s t : State} (h : State.Moves true s t) : s.Lasts t :=
  ⟨congrArg Prod.fst h.steady, h.fixed⟩

theorem State.Lasts.of_horizon {s t : State} {u : Option Time} (h : ({ s with horizon := u } : State).Lasts t) : s.Lasts t :=
  ⟨h.disc, h.fixed⟩

theorem State.handleDue_lasts (s : State) (x : Time × DueEvent) : s.Lasts (s.handleDue x) := by
  refine State.Lasts.of_horizon (u := some x.1) ?_
  unfold State.handleDue
  dsimp only
  refine State.Lasts.trans ?_ (State.settle_moves .refl).lasts
  split
  · exact .refl _
  · exact (State.reachSoft_moves (State.settle_moves .refl) _ _ _).lasts
  · exact (State.bedRampStart_moves .refl _ _).lasts
  · exact (State.cutAtRejoin_moves .refl _ _).lasts
  · exact (State.rejoin_moves .refl _ _).lasts

theorem State.handleLoop_lasts (n : Nat) (s : State) (g : Time) (done : List (Time × DueEvent)) :
    s.Lasts (State.handleLoop n s g done) := by
  induction n generalizing s g done with
  | zero => exact .refl s
  | succ n ih =>
    unfold State.handleLoop
    split
    · exact .refl s
    · exact (s.handleDue_lasts _).trans (ih _ _ _)

theorem State.handlePassed_lasts (s : State) (g : Time) : s.Lasts (s.handlePassed g) := by
  unfold State.handlePassed
  have h := s.handleLoop_lasts dueSteps (g + 1) []
  generalize State.handleLoop dueSteps s (g + 1) [] = u at h
  exact (h.trans (.of_horizon (u := none) (.refl _))).trans (State.settle_moves .refl).lasts

theorem State.finish_lasts (s a : State) : s.Lasts (s.finish a) := by
  obtain ⟨u, l, hu, e⟩ := s.finish_eq a
  rw [e]
  exact ⟨hu.lasts.disc, hu.lasts.fixed⟩

/-- A step sets group time and voids the window, and leaves the rest of the discipline and what is fixed of the outlets (R85). -/
theorem State.stepTime_lasts (s : State) (t : Time) (sender : Nat) :
    ({ s with disc := { s.disc with groupTime := some t, window := none } } : State).Lasts (s.stepTime t sender) := by
  unfold State.stepTime
  dsimp only
  have h0 : s.Lasts (OutletId.all.foldl State.stopEchoBlock (OutletId.all.foldl State.keepDelays s)) :=
    ((State.Moves.refl.foldl State.keepDelays OutletId.all fun t o ht => State.keepDelays_moves ht o).foldl
      State.stopEchoBlock OutletId.all fun t o ht => State.stopEchoBlock_moves ht o).lasts
  generalize OutletId.all.foldl State.stopEchoBlock (OutletId.all.foldl State.keepDelays s) = u at h0 ⊢
  have h1 := (State.Moves.mapOutlets (k := true) (a := u) .refl (fun _ x => (x.rewindTallies s.now t).skipCutFrame t)
    (fun _ x => (Outlet.cutTime_fixed x s.now t).1) fun _ x => (Outlet.cutTime_fixed x s.now t).2).lasts
  generalize hv : ({ ({ u with outlets := u.outlets.mapId fun _ x => (x.rewindTallies s.now t).skipCutFrame t } : State) with
    disc := { u.disc with groupTime := some t, window := none } } : State) = v
  have h2 : ({ s with disc := { s.disc with groupTime := some t, window := none } } : State).Lasts
      (v.latch { FaultInfo.bare .timeStep with node := some sender }) := by
    subst hv
    refine ⟨?_, fun o => (h1.fixed o).trans (h0.fixed o)⟩
    show ({ u.disc with groupTime := some t, window := none } : ClockDiscipline) = _
    rw [h0.disc]
  generalize v.latch { FaultInfo.bare .timeStep with node := some sender } = v at h2 ⊢
  have h3 := h2.trans (State.Moves.lasts ((State.Moves.refl (k := true) (a := v)).foldl State.timeoutOpenBlock OutletId.all
    fun t o ht => State.timeoutOpenBlock_moves ht o))
  generalize OutletId.all.foldl State.timeoutOpenBlock v = w at h3 ⊢
  split
  · exact (h3.trans (State.Moves.lasts (State.Moves.refl.foldl _ _ fun t o ht => State.leaveHistoryWhere_moves ht o _))).trans
      (State.handlePassed_lasts _ _)
  · exact h3.trans (State.Moves.lasts ((State.Moves.refl.foldl _ _ fun t o ht => State.leaveHistoryWhere_moves ht o _).mapOutlets
      (fun _ x => x.forgetTallies) (fun _ _ => rfl) fun _ _ => rfl))

/-! ### AUDIO frames that are taken (R177 to R179) -/

theorem State.takesFrame_iff {s : State} {h : FrameHead} {n : Nat} : s.takesFrame h n = true ↔ s.Hears h n := by
  simp only [State.takesFrame, State.soundHead, State.Hears, Bool.and_eq_true, bne_iff_ne, beq_iff_eq, decide_eq_true_eq, and_assoc,
    protocolMark]

theorem feedOk_iff {f : Nat} : feedOk f = true ↔ 1 ≤ f ∧ f ≤ 64 := by simp [feedOk]

/-- The outlets after a frame, in letter order. -/
def State.audioTaken (s : State) (h : FrameHead) (b : AudioBody) : State :=
  OutletId.all.foldl (fun s o => s.takeAudioOn o h b) (s.takeCandidate b.feed h.sentAt)

theorem exec_audioFrame {s : State} {h : FrameHead} {b : AudioBody} (hp : s.powered = true) (hh : s.Hears h 314)
    (hf : b.frameTime % 48 = 0) (h1 : 1 ≤ b.feed) (h64 : b.feed ≤ 64) (dt phase : Nat) :
    exec (.audioFrame dt h b phase) s =
      .next ((((s.elapse dt).audioTaken h b).takeReference b.feed b.frameTime h.sentAt h.sender phase).finish (s.elapse dt)) := by
  have ht : (s.elapse dt).takesFrame h audioBodyLen = true := (s.elapse_takesFrame dt h 314).trans (State.takesFrame_iff.2 hh)
  have hok : ((s.elapse dt).takesFrame h audioBodyLen && feedOk b.feed && b.frameTime % 48 == 0) = true := by
    rw [ht, feedOk_iff.2 ⟨h1, h64⟩, hf]
    rfl
  rw [exec, execAudioFrame, State.run_powered hp, if_pos hok]
  rfl

/-! ### The candidate group time (R84) -/

theorem State.takeCandidate_disc (s : State) (feed : Nat) (t : Time) :
    (s.takeCandidate feed t).disc = { s.disc with candidate := (s.takeCandidate feed t).disc.candidate } := by
  unfold State.takeCandidate
  dsimp only
  split
  · rfl
  · split
    · rfl
    · split <;> rfl

/-- A window changes neither group time nor its candidate. -/
theorem State.takeWindow_times (s : State) (frame : Time) (count sender : Nat) :
    (s.takeWindow frame count sender).disc.candidate = s.disc.candidate ∧
      (s.takeWindow frame count sender).disc.groupTime = s.disc.groupTime := by
  unfold State.takeWindow
  split
  · exact ⟨rfl, rfl⟩
  · split
    · exact ⟨rfl, rfl⟩
    · split
      · exact ⟨rfl, rfl⟩
      · split
        · split
          · unfold State.evaluateWindow State.rejectWindow State.openWindow
            dsimp only
            split
            · split <;> exact ⟨rfl, rfl⟩
            · exact ⟨rfl, rfl⟩
          · exact ⟨rfl, rfl⟩
        · exact ⟨rfl, rfl⟩

/-- The clock discipline leaves the candidate, and an unset group time, as they are. -/
theorem State.takeReference_times (s : State) (feed : Nat) (frame sentAt : Time) (sender phase : Nat) :
    (s.takeReference feed frame sentAt sender phase).disc.candidate = s.disc.candidate ∧
      (s.disc.groupTime = none → (s.takeReference feed frame sentAt sender phase).disc.groupTime = none) := by
  unfold State.takeReference
  split
  · obtain ⟨hc, hg⟩ := s.takeWindow_times frame (s.counter phase) sender
    rw [← hc, ← hg]
    generalize s.takeWindow frame (s.counter phase) sender = u
    unfold State.compareTime
    split
    · rename_i hn
      exact ⟨rfl, fun _ => hn⟩
    · rename_i g hn
      split
      · refine ⟨?_, fun h => absurd (hn.symm.trans h) (by simp)⟩
        rw [(u.stepTime_lasts _ sender).disc]
      · exact ⟨rfl, id⟩
  · exact ⟨rfl, id⟩

/-- An AUDIO frame changes the candidate as it is taken, and an unset group time not at all. -/
theorem State.audioFrame_candidate (a : State) (h : FrameHead) (b : AudioBody) (phase : Nat) :
    let t := ((a.audioTaken h b).takeReference b.feed b.frameTime h.sentAt h.sender phase).finish a
    t.disc.candidate = (a.takeCandidate b.feed h.sentAt).disc.candidate ∧
      (a.disc.groupTime = none → t.disc.groupTime = none) := by
  have hd : (a.audioTaken h b).disc = (a.takeCandidate b.feed h.sentAt).disc :=
    congrArg Prod.fst (State.takeAudio_steady _ h b OutletId.all)
  obtain ⟨hc, hg⟩ := (a.audioTaken h b).takeReference_times b.feed b.frameTime h.sentAt h.sender phase
  dsimp only
  rw [(State.finish_lasts _ a).disc]
  refine ⟨hc.trans (by rw [hd]), fun hn => hg ?_⟩
  rw [hd, State.takeCandidate_disc]
  exact hn

/-! ### The end of the listen time (R84, R130, R132) -/

/-- An outlet after the listen time (R130, R132). -/
def Outlet.heardOut (x : Outlet) (clock : Nat) : Outlet :=
  if x.air = .listening then
    { x with
      air := if x.heard then .standby else .claiming
      silenceSince := clock
      claimSince := if x.heard then x.claimSince else clock }
  else x

/-- The outlet claims as the listen time ends (R132). -/
def State.claimsNow (s : State) (o : OutletId) : Bool := (s.out o).air == .listening && !(s.out o).heard

/-- The CLAIM frame of an outlet. -/
def State.claimFrame (s : State) (o : OutletId) : SentFrame :=
  s.frame (.claim { feed := (s.ocfg o).feed, rank := (s.ocfg o).rank })

/-- A frame goes out unless the unit is ISOLATED (R145). -/
theorem State.send_eq_append (s : State) (b : FrameBody) :
    s.send b = { s with sent := s.sent ++ if s.isolated then [] else [s.frame b] } := by
  unfold State.send
  split
  · rw [List.append_nil]
  · rfl

theorem State.leaveListening_eq (s : State) (o : OutletId) :
    s.leaveListening o =
      { s with
        sent := s.sent ++ if s.isolated then [] else ([o].filter s.claimsNow).map s.claimFrame
        outlets := s.outlets.set o ((s.out o).heardOut s.clock) } := by
  unfold State.leaveListening Outlet.heardOut
  dsimp only
  by_cases hl : (s.out o).air = .listening
  · rw [if_pos (beq_iff_eq.2 hl), if_pos hl]
    cases hh : (s.out o).heard with
    | true =>
      have hc : [o].filter s.claimsNow = [] := by simp [State.claimsNow, hh]
      rw [hc, List.map_nil, ite_self, List.append_nil, if_pos rfl, if_pos rfl, if_pos rfl, ← hh]
      rfl
    | false =>
      have hc : [o].filter s.claimsNow = [o] := by simp [State.claimsNow, hl, hh]
      rw [hc, if_neg Bool.false_ne_true, if_neg Bool.false_ne_true, if_neg Bool.false_ne_true, ← hh, State.beginClaim,
        State.send_eq_append, State.modOut]
      refine congrArg (fun q => ({ s with
        sent := s.sent ++ if s.isolated then [] else [s.claimFrame o], outlets := q } : State)) ?_
      simp only [State.modOut, State.setOut, State.out, Quad.get_set, Quad.set_set, if_true]
  · have hc : [o].filter s.claimsNow = [] := by simp [State.claimsNow, hl]
    rw [if_neg (by simpa using hl), if_neg hl, hc, List.map_nil, ite_self, List.append_nil]
    exact (s.setOut_self o).symm

theorem State.leaveListening_foldl {l : List OutletId} (hl : l.Nodup) (s : State) :
    ∃ q, l.foldl State.leaveListening s =
        { s with
          sent := s.sent ++ if s.isolated then [] else (l.filter s.claimsNow).map s.claimFrame
          outlets := q } ∧
      ∀ p, q.get p = if p ∈ l then (s.out p).heardOut s.clock else s.out p := by
  induction l generalizing s with
  | nil => exact ⟨s.outlets, by simp, fun p => rfl⟩
  | cons o l ih =>
    obtain ⟨ho, hl⟩ := List.nodup_cons.1 hl
    have hout : ∀ p, (s.leaveListening o).out p = if p = o then (s.out o).heardOut s.clock else s.out p := fun p => by
      rw [State.leaveListening_eq]
      exact Quad.get_set _ _ _ _
    have hf : l.filter (s.leaveListening o).claimsNow = l.filter s.claimsNow := List.filter_congr fun p hp => by
      have hne : p ≠ o := fun e => ho (e ▸ hp)
      simp only [State.claimsNow, hout p, if_neg hne]
    obtain ⟨q, e, hq⟩ := ih hl (s.leaveListening o)
    refine ⟨q, ?_, fun p => ?_⟩
    · rw [List.foldl_cons, e, hf, State.leaveListening_eq]
      have hcf : ({ s with
          sent := s.sent ++ if s.isolated then [] else ([o].filter s.claimsNow).map s.claimFrame
          outlets := s.outlets.set o ((s.out o).heardOut s.clock) } : State).claimFrame = s.claimFrame := rfl
      rw [hcf]
      refine congrArg (fun m => ({ s with sent := m, outlets := q } : State)) ?_
      show _ ++ (if s.isolated then [] else _) = _
      rw [List.append_assoc, show (o :: l) = [o] ++ l from rfl, List.filter_append, List.map_append]
      split <;> simp
    · have hk : (s.leaveListening o).clock = s.clock := by rw [State.leaveListening_eq]
      rw [hq p, hout p, hk]
      by_cases hp : p = o
      · subst hp
        simp [ho]
      · simp [hp]

/-- A timed entry that group time has passed as it is first set (R5). -/
theorem Entry.expire_eq (e : Entry) (now : Time) :
    e.expire now = if e.state = .queued ∧
        (e.mode.softTime.any (fun t => decide (t ≤ now)) ∨ e.mode.hardTime.any (fun t => decide (t ≤ now))) then
      { e with mode := .sequence } else e := by
  obtain ⟨tag, kind, mode, fade, trim, state, start, planned, serial, lost, air⟩ := e
  cases state <;> cases mode <;> simp [Entry.expire, StartMode.softTime, StartMode.hardTime]

/-- Group time as the listen time ends (R84): the candidate, or 0, where it is unset. -/
def State.listenTimeNow (s : State) : Time := s.disc.groupTime.getD ((s.disc.candidate.map Prod.fst).getD 0)

theorem State.setGroupTime_eq (s : State) :
    ∃ q, s.setGroupTime =
        { s with
          disc := { s.disc with
            groupTime := some s.listenTimeNow, candidate := if s.disc.groupTime = none then none else s.disc.candidate }
          outlets := q } ∧
      ∀ o, q.get o = { s.out o with
        entries := (s.out o).entries.map fun e => if s.disc.groupTime = none then e.expire s.listenTimeNow else e } := by
  cases hg : s.disc.groupTime with
  | some t =>
    have hd : ({ s.disc with groupTime := some t, candidate := s.disc.candidate } : ClockDiscipline) = s.disc := by rw [← hg]
    refine ⟨s.outlets, ?_, fun o => ?_⟩
    · simp only [State.setGroupTime, State.listenTimeNow, hg, Option.getD_some, reduceCtorEq, if_false, hd]
    · simp only [reduceCtorEq, if_false, List.map_id']
      rfl
  | none =>
    refine ⟨s.outlets.mapId fun _ x => { x with entries := x.entries.map fun e => e.expire s.listenTimeNow }, ?_, fun o => ?_⟩
    · simp only [State.setGroupTime, State.listenTimeNow, hg, Option.getD_none, if_true]
    · cases o <;> simp only [if_true] <;> rfl

/-- The frame that claims as the listen time ends. -/
def State.listenClaim (s : State) (o : OutletId) : SentFrame :=
  { sender := s.cfg.nodeId, link := s.linkAddress, sentAt := s.listenTimeNow
    body := .claim { feed := (s.ocfg o).feed, rank := (s.ocfg o).rank } }

/-- The listen time ends (R84, R130, R132): group time is set, and each LISTENING outlet goes to STANDBY or claims. -/
theorem State.endListening_eq {s : State} {since : Nat} (hs : s.listenSince = some since) (ht : since + listenTime ≤ s.clock) :
    ∃ q, s.endListening =
        { s with
          listenSince := none
          disc := { s.disc with
            groupTime := some s.listenTimeNow, candidate := if s.disc.groupTime = none then none else s.disc.candidate }
          sent := s.sent ++ if s.isolated then [] else (OutletId.all.filter s.claimsNow).map s.listenClaim
          outlets := q } ∧
      ∀ o, q.get o = Outlet.heardOut { s.out o with
        entries := (s.out o).entries.map fun e => if s.disc.groupTime = none then e.expire s.listenTimeNow else e } s.clock := by
  obtain ⟨q, hset, hq⟩ := ({ s with listenSince := none } : State).setGroupTime_eq
  obtain ⟨q', hall, hq'⟩ := State.leaveListening_foldl (l := OutletId.all) (by decide)
    ({ s with listenSince := none } : State).setGroupTime
  have hout : ∀ o, ({ s with listenSince := none } : State).setGroupTime.out o = q.get o := fun o => by rw [hset]; rfl
  have hclaims : ({ s with listenSince := none } : State).setGroupTime.claimsNow = s.claimsNow := by
    funext o
    rw [State.claimsNow, hout, hq]
    rfl
  have hframe : ({ s with listenSince := none } : State).setGroupTime.claimFrame = s.listenClaim := by
    rw [hset]
    rfl
  rw [hclaims, hframe, hset] at hall
  refine ⟨q', ?_, fun o => ?_⟩
  · unfold State.endListening
    rw [hs]
    dsimp only
    rw [if_pos ht, hset]
    exact hall
  · rw [hq' o, if_pos (by cases o <;> decide), hout, hq, hset]
    rfl

end Sys2Proof.Machine

open Sys2Proof Sys2Proof.Machine

/-- Settles O30. -/
theorem listenTimeEnds : Obligations.ListenTimeEnds := by
  refine ⟨fun s dt h b phase hp hh hf h1 h64 => ?_, fun s dt since hp hs ht => ?_⟩
  · refine ⟨_, exec_audioFrame hp hh hf h1 h64 dt phase, ?_⟩
    obtain ⟨hc, hg⟩ := (s.elapse dt).audioFrame_candidate h b phase
    rw [hc]
    have hgt : (s.elapse dt).disc.groupTime.isSome = s.disc.groupTime.isSome := by simp [State.elapse_disc]
    refine ⟨fun hset => ?_, fun hnone hsome => ⟨hg ?_, fun hno => ?_, fun c byRef hcand => ?_⟩⟩
    · unfold State.takeCandidate
      rw [State.elapse_listenSince, hgt, if_pos]
      simpa using hset
    · simpa [hnone] using hgt
    all_goals
      have hopen : ¬ ((s.elapse dt).disc.groupTime.isSome || (s.elapse dt).listenSince.isNone) = true := by
        rw [State.elapse_listenSince, hgt]
        simp [hnone, Option.isSome_iff_ne_none.1 hsome]
      unfold State.takeCandidate
      dsimp only
      rw [if_neg hopen]
    · have href : ((s.elapse dt).cfg.refFeed != 0 && b.feed == (s.elapse dt).cfg.refFeed) = decide (s.cfg.refFeed = b.feed) := by
        rw [State.elapse_cfg]
        rw [Bool.eq_iff_iff]
        simp only [Bool.and_eq_true, bne_iff_ne, beq_iff_eq, decide_eq_true_eq]
        exact ⟨fun e => e.2.symm, fun e => ⟨by omega, e.symm⟩⟩
      rw [hno]
      exact congrArg (fun r => some (h.sentAt, r)) href
    · rw [hcand]
      dsimp only
      rw [State.elapse_cfg]
      by_cases he : s.cfg.refFeed = b.feed ∧ byRef = false
      · have h0 : s.cfg.refFeed ≠ 0 := by omega
        rw [if_pos he, if_pos (by simp [he.1.symm ▸ h0, he.1, he.2])]
      · rw [if_neg he, if_neg (fun e => he ?_)]
        · exact hcand
        · simp only [Bool.and_eq_true, bne_iff_ne, beq_iff_eq, Bool.not_eq_true'] at e
          exact ⟨e.1.2.symm, e.2⟩
  · have hfin : exec (.listenTimeEnd dt) s = .next ((s.elapse dt).endListening.finish (s.elapse dt)) := State.run_powered hp _ _
    obtain ⟨q, hend, hq⟩ := State.endListening_eq (s := s.elapse dt) (since := since) (by rw [State.elapse_listenSince, hs])
      (by rw [State.elapse_clock]; exact ht)
    have hnone : (s.elapse dt).disc.groupTime = none ↔ s.disc.groupTime = none := by simp [State.elapse_disc]
    have hsent : (if (s.elapse dt).isolated then [] else (OutletId.all.filter (s.elapse dt).claimsNow).map (s.elapse dt).listenClaim) =
        if s.isolated then [] else (OutletId.all.filter fun o => (s.out o).air == .listening && !(s.out o).heard).map fun o =>
          { sender := s.cfg.nodeId, link := s.linkAddress, sentAt := (s.elapse dt).listenTimeNow
            body := .claim { feed := (s.ocfg o).feed, rank := (s.ocfg o).rank } } := by
      have hc : (s.elapse dt).claimsNow = fun o => (s.out o).air == .listening && !(s.out o).heard := by
        funext o
        rw [State.claimsNow, State.elapse_out_air, State.elapse_out_heard]
      have hl : (s.elapse dt).listenClaim = fun o =>
          { sender := s.cfg.nodeId, link := s.linkAddress, sentAt := (s.elapse dt).listenTimeNow
            body := .claim { feed := (s.ocfg o).feed, rank := (s.ocfg o).rank } } := by
        funext o
        rw [State.listenClaim, State.elapse_cfg, State.elapse_linkAddress, State.elapse_ocfg]
      rw [hc, hl, State.elapse_isolated]
    have hcand : (if (s.elapse dt).disc.groupTime = none then none else (s.elapse dt).disc.candidate) =
        if s.disc.groupTime = none then none else (s.elapse dt).disc.candidate := by simp only [hnone]
    rw [hsent, hcand] at hend
    refine ⟨_, hfin, hend.trans (by rw [hend]; rfl), fun o => ⟨_, rfl, ?_⟩⟩
    have hentries : ((s.elapse dt).out o).entries.map (fun e =>
        if (s.elapse dt).disc.groupTime = none then e.expire (s.elapse dt).listenTimeNow else e) =
          (s.out o).entries.map fun e => if s.disc.groupTime = none ∧ e.state = .queued ∧
            (e.mode.softTime.any (fun t => decide (t ≤ (s.elapse dt).listenTimeNow)) ∨
              e.mode.hardTime.any (fun t => decide (t ≤ (s.elapse dt).listenTimeNow))) then { e with mode := .sequence } else e := by
      rw [State.elapse_out_entries]
      refine List.map_congr_left fun e _ => ?_
      rw [Entry.expire_eq]
      by_cases h0 : s.disc.groupTime = none <;> simp only [hnone, h0, if_true, if_false, true_and, false_and]
    have ho : (s.elapse dt).endListening.out o = q.get o := by rw [hend]; rfl
    rw [ho, hq o, hentries, Outlet.heardOut]
    dsimp only
    rw [State.elapse_out_air, State.elapse_out_heard, State.elapse_out_claimSince]
    rfl
end

section
/-! The end of a voice: its stream check, its report, and what its owner does with it (R95, R104). -/

namespace Sys2Proof.Machine

/-! ### One voice replaced -/

theorem State.voice_setVoice_self {s : State} {i : Nat} {w : VoiceUse} (h : s.voice i = some w) (u : Option VoiceUse) :
    (s.setVoice i u).voice i = u := by
  obtain ⟨v, hv, -⟩ := State.voice_some h
  simp [State.voice, State.setVoice, List.getElem?_modify_eq, hv]

/-- A voice that is dropped is FREE. -/
theorem State.dropVoice_free (s : State) (i : Nat) : (s.dropVoice i).voice i = none := by
  unfold State.dropVoice
  split
  · assumption
  · rename_i w h
    exact State.voice_setVoice_self (s := { s with store := _, transfer := _ }) h none

theorem State.freeVoices_one {s : State} (h : s.voiceQueue = []) (i : Nat) : s.freeVoices [i] = s.dropVoice i :=
  State.offerAll_empty ((s.dropVoice_engine i).voiceQueue.trans h)

/-! ### The stream check (R104) -/

/-- What a voice's report and place depend on, but for its stream check. -/
def VoiceUse.sameSound (u w : VoiceUse) : Prop :=
  u.outlet = w.outlet ∧ u.holder = w.holder ∧ u.cart = w.cart ∧ u.serial = w.serial ∧ u.sounded = w.sounded ∧ u.concealed = w.concealed ∧
    u.looping = w.looping ∧ u.passEnd = w.passEnd

theorem VoiceUse.sameSound.refl (w : VoiceUse) : w.sameSound w := ⟨rfl, rfl, rfl, rfl, rfl, rfl, rfl, rfl⟩

theorem VoiceUse.leaveBlock_sameSound (u : VoiceUse) : u.leaveBlock.sameSound u := by
  unfold VoiceUse.leaveBlock
  split
  · exact ⟨rfl, rfl, rfl, rfl, rfl, rfl, rfl, rfl⟩
  · exact .refl u

theorem VoiceUse.sameSound.trans {u v w : VoiceUse} (h : u.sameSound v) (h' : v.sameSound w) : u.sameSound w := by
  obtain ⟨a1, a2, a3, a4, a5, a6, a7, a8⟩ := h
  obtain ⟨b1, b2, b3, b4, b5, b6, b7, b8⟩ := h'
  exact ⟨a1.trans b1, a2.trans b2, a3.trans b3, a4.trans b4, a5.trans b5, a6.trans b6, a7.trans b7, a8.trans b8⟩

theorem VoiceUse.leaveBlocks_sameSound (n : Nat) (u : VoiceUse) : (VoiceUse.leaveBlocks n u).sameSound u := by
  induction n generalizing u with
  | zero => exact .refl u
  | succ n ih =>
    unfold VoiceUse.leaveBlocks
    split
    · exact (ih _).trans u.leaveBlock_sameSound
    · exact .refl u

theorem VoiceUse.leaveBlocks_void {u : VoiceUse} (h : u.stream = .void) (n : Nat) : (VoiceUse.leaveBlocks n u).stream = .void := by
  induction n generalizing u with
  | zero => exact h
  | succ n ih =>
    unfold VoiceUse.leaveBlocks
    split
    · rename_i hb
      refine ih ?_
      rw [VoiceUse.leaveBlock, if_pos hb]
      simp only [h]
    · exact h

theorem VoiceUse.leaveBlocks_playing {u : VoiceUse} (h : u.blockDone = false) (n : Nat) : VoiceUse.leaveBlocks n u = u := by
  cases n with
  | zero => rfl
  | succ n => simp [VoiceUse.leaveBlocks, h]

/-- The stream check a voice ends with (R104): the one it has, else NOT_CHECKED before its cart's last sample or when it is VOID, else what
the bytes played give against the version's check value. -/
structure VoiceUse.StreamEnd (w : VoiceUse) (st : Store) (z : StreamCheck) : Prop where
  done : ∀ y, w.streamDone = some y → z = y
  early : w.streamDone = none → w.atPassEnd = false → z = .notChecked
  void : w.streamDone = none → w.atPassEnd = true → w.stream = .void → z = .notChecked
  judged : ∀ y n v, w.streamDone = none → w.atPassEnd = true → w.blockDone = false → w.stream = .valid y n →
    st.find w.cart w.serial = some v → z = if crcFinal y = v.check then .pass else .fail

/-- A voice that ends settles its check and reports (R95, R104). -/
theorem State.settlePass_report {s : State} {i : Nat} {w : VoiceUse} (h : s.voice i = some w) :
    ∃ u z, (s.settlePass i).voice i = some u ∧ u.sameSound w ∧ u.streamDone.getD .notChecked = z ∧ w.StreamEnd s.store z := by
  have stay : (∀ y, w.streamDone = some y → w.streamDone.getD .notChecked = y) := fun y e => by rw [e]; rfl
  unfold State.settlePass
  rw [h]
  cases hend : w.atPassEnd with
  | false =>
    rw [if_neg (by simp [hend])]
    refine ⟨w, _, h, .refl w, rfl, stay, fun hn _ => by rw [hn]; rfl, fun _ e => absurd (hend.symm.trans e) (by decide),
      fun _ _ _ _ e => absurd (hend.symm.trans e) (by decide)⟩
  | true =>
    rw [if_pos (by simp [hend])]
    unfold State.settleStream
    rw [h]
    dsimp only
    cases hdone : w.streamDone with
    | some y =>
      rw [if_pos (show (some y).isSome = true from rfl)]
      exact ⟨w, _, h, .refl w, rfl, stay, fun hn => absurd (hdone.symm.trans hn) (by simp), fun hn => absurd (hdone.symm.trans hn) (by simp),
        fun _ _ _ hn => absurd (hdone.symm.trans hn) (by simp)⟩
    | none =>
      rw [if_neg (by simp)]
      have hsame := VoiceUse.leaveBlocks_sameSound w.firstBlocks w
      have hvoid := fun e : w.stream = .void => VoiceUse.leaveBlocks_void e w.firstBlocks
      have hplay := fun e : w.blockDone = false => VoiceUse.leaveBlocks_playing e w.firstBlocks
      generalize VoiceUse.leaveBlocks w.firstBlocks w = u at hsame hvoid hplay
      obtain ⟨-, -, hcart, hserial, -⟩ := id hsame
      have nodone : ∀ {z : StreamCheck} y, w.streamDone = some y → z = y := fun y e => absurd (hdone.symm.trans e) (by simp)
      have nearly : ∀ {z : StreamCheck}, w.streamDone = none → w.atPassEnd = false → z = .notChecked := fun _ e =>
        absurd (hend.symm.trans e) (by decide)
      have settled : ∀ (t : State) (z : StreamCheck), (t.voice i = some { u with streamDone := some z }) →
          (u.stream = .void → z = .notChecked) →
          (∀ y n v, u.stream = .valid y n → s.store.find u.cart u.serial = some v → z = if crcFinal y = v.check then .pass else .fail) →
          ∃ u z, t.voice i = some u ∧ u.sameSound w ∧ u.streamDone.getD .notChecked = z ∧ w.StreamEnd s.store z :=
        fun t z ht hz hv => ⟨_, z, ht, hsame, rfl, nodone, nearly, fun _ _ e => hz (hvoid e), fun y n v _ _ hb hst hf =>
          hv y n v (by rw [hplay hb]; exact hst) (by rw [hcart, hserial]; exact hf)⟩
      split
      · rename_i c n v hc hf
        have hone : ∀ y m v', u.stream = .valid y m → s.store.find u.cart u.serial = some v' → y = c ∧ v' = v := fun y m v' e e' => by
          obtain ⟨rfl, -⟩ := StreamCtx.valid.inj (e.symm.trans hc)
          exact ⟨rfl, Option.some.inj (e'.symm.trans hf)⟩
        split
        · rename_i hcheck
          refine settled _ _ (State.voice_setVoice_self h _) (fun e => absurd (hc.symm.trans e) (by simp)) fun y m v' e e' => ?_
          obtain ⟨rfl, rfl⟩ := hone y m v' e e'
          rw [if_pos hcheck]
        · rename_i hcheck
          refine settled _ .fail (State.voice_setVoice_self h _) (fun e => absurd (hc.symm.trans e) (by simp)) fun y m v' e e' => ?_
          obtain ⟨rfl, rfl⟩ := hone y m v' e e'
          rw [if_neg hcheck]
      · rename_i hno
        exact settled _ _ (State.voice_setVoice_self h _) (fun _ => rfl) fun y n v e e' => (hno y n v e e').elim

/-! ### The report to the owner -/

/-- What a voice that ends hands its owner, with no request waiting: the report and the state its owner acts in. -/
structure Ends (a b : State) (i : Nat) (w : VoiceUse) (rep : VoiceReport) : Prop where
  engine : a.Engine b
  sounded : rep.sounded = w.sounded
  concealed : rep.concealed = w.concealed
  atEnd : rep.atEnd = true ↔ w.looping = false ∧ w.passEnd ≤ w.sounded
  stream : w.StreamEnd a.store rep.stream

theorem State.endVoice_eq {a : State} {i : Nat} {w : VoiceUse} (h : a.voice i = some w) :
    ∃ b rep, Ends a b i w rep ∧ a.endVoice i =
      match w.holder with
      | .entry tag => (b.endItemEntry w.outlet tag rep).freeVoices [i]
      | .line n => b.endLine n i rep
      | .fallback id =>
        match (b.out w.outlet).periods.find? fun q => q.id == id with
        | some q => (b.recordPeriod w.outlet q rep).freeVoices [i]
        | none => b.freeVoices [i]
      | .slot p k =>
        ((b.endSlot w.outlet p k rep ((b.fit w.outlet p).bind fun b => b.endMark k rep)).freeVoices [i]).finishEnding w.outlet p := by
  obtain ⟨u, z, hu, ⟨ho, hh, -, -, hs, hc, hl, hp⟩, hz, hst⟩ := State.settlePass_report h
  refine ⟨a.settlePass i, u.report, ⟨a.settlePass_engine i, hs, hc, ?_, by rw [← hz] at hst; exact hst⟩, ?_⟩
  · simp [VoiceUse.report, hs, hl, hp]
  · unfold State.endVoice
    dsimp only
    rw [hu]
    dsimp only
    rw [ho, hh] <;> rfl

/-! ### What the owner does with the report -/

theorem State.tallyStop_eq (s : State) (o : OutletId) (k : AirKey) : ∃ tl, s.tallyStop o k = s.setOut o { s.out o with tallies := tl } :=
  ⟨_, rfl⟩

/-- An ITEM entry whose voice has ended leaves with its record. -/
theorem State.endItemEntry_eq {s : State} {o : OutletId} {tag : Nat} {e : Entry} (h : (s.out o).entry tag = some e) (rep : VoiceReport) :
    ∃ l tl, s.endItemEntry o tag rep =
        ({ s with log := l } : State).setOut o ({ s.out o with tallies := tl }.dropEntry tag) ∧
      ∃ q, s.log.Wrote l [q] ∧ q.unnumbered = s.asWritten o (entryRecord e
        (if rep.atEnd then (if 0 < e.air.offset then .airedTakenOver else .aired) else .airedCut) rep rep.sounded none) := by
  unfold State.endItemEntry
  rw [h]
  dsimp only
  obtain ⟨tl', htl⟩ := s.tallyStop_eq o (.entry tag)
  have h' : ((s.tallyStop o (.entry tag)).out o).entry tag = some e := by
    rw [htl, State.setOut_out]
    exact h
  obtain ⟨l, tl, e', q, hw, hr⟩ := State.leaveEntry_eq h'
    (if rep.atEnd then (if 0 < e.air.offset then .airedTakenOver else .aired) else .airedCut) rep rep.sounded none
  refine ⟨l, tl, ?_, q, hw, hr⟩
  rw [e', htl, State.setOut_out]
  exact State.setOut_setOut { s with log := l } o _ _

/-- An instant's record is written. -/
theorem State.recordInstant_eq (s : State) (o : OutletId) (n : Nat) (f : Instant) (out : Outcome) (rep : VoiceReport) :
    ∃ l tl, s.recordInstant o n f out rep = ({ s with log := l } : State).setOut o { s.out o with tallies := tl } ∧
      ∃ q, s.log.Wrote l [q] ∧ q.unnumbered = s.asWritten o (instantRecord f out rep) := by
  obtain ⟨tl', htl⟩ := s.tallyStop_eq o (.instant n f.fire)
  obtain ⟨l, tl, e, q, hw, hr⟩ := (s.tallyStop o (.instant n f.fire)).record_eq o (instantRecord f out rep)
    (if f.actual.isSome then some (.instant n f.fire) else none)
  refine ⟨l, tl, ?_, q, hw, hr⟩
  rw [State.recordInstant, e, htl, State.setOut_out]
  exact State.setOut_setOut { s with log := l } o _ _

/-- The only instant of a line has ended. -/
theorem State.endLine_eq {s : State} {n : Nat} {l : FireLine} {f : Instant} (hl : s.lines[n]? = some l) (ho : l.old = none)
    (hc : l.current = some f) (i : Nat) (rep : VoiceReport) :
    ∃ g tl, s.endLine n i rep = (({ s with log := g, lines := s.lines.set n { l with current := none } } : State).setOut (s.lineCfg n).outlet
        { s.out (s.lineCfg n).outlet with tallies := tl }).freeVoices [i] ∧
      ∃ q, s.log.Wrote g [q] ∧ q.unnumbered = s.asWritten (s.lineCfg n).outlet (instantRecord f rep.instantOutcome rep) := by
  obtain ⟨g, tl, e, q, hw, hr⟩ := s.recordInstant_eq (s.lineCfg n).outlet n f rep.instantOutcome rep
  refine ⟨g, tl, ?_, q, hw, hr⟩
  have hline : s.line n = l := by simp [State.line, List.getD_eq_getElem?_getD, hl]
  unfold State.endLine
  dsimp only
  rw [hline, ho, hc]
  dsimp only
  rw [e, State.modLine]
  have hset : s.lines.modify n (fun l => { l with current := none }) = s.lines.set n { l with current := none } := by
    rw [List.modify_eq_set_getElem?, hl]
    rfl
  show (({ s with log := g, lines := s.lines.modify n fun l => { l with current := none } } : State).setOut (s.lineCfg n).outlet
    { s.out (s.lineCfg n).outlet with tallies := tl }).freeVoices [i] = _
  rw [hset, ← ho]

/-- A fallback period whose voice has ended has its record. -/
theorem State.recordPeriod_eq (s : State) (o : OutletId) (p : FallbackPeriod) (rep : VoiceReport) :
    ∃ l tl, s.recordPeriod o p rep = ({ s with log := l } : State).setOut o
        { s.out o with tallies := tl, periods := (s.out o).periods.filter fun q => q.id != p.id } ∧
      ∃ q, s.log.Wrote l [q] ∧ q.unnumbered = s.asWritten o (fallbackRecord p (p.ended.getD .natural) rep) := by
  obtain ⟨l, tl, e, q, hw, hr⟩ := s.record_eq o (fallbackRecord p (p.ended.getD .natural) rep)
    (if p.actual.isSome then some (.fallback p.id) else none)
  refine ⟨l, tl, ?_, q, hw, hr⟩
  unfold State.recordPeriod
  dsimp only
  rw [e, State.modOut, State.setOut_out, State.setOut_setOut]

/-- An item of a break after its voice has ended. -/
def BreakItem.ends (it : BreakItem) (rep : VoiceReport) : BreakItem :=
  { it with progress := .ended, played := rep.sounded, concealed := rep.concealed, stream := rep.stream, mark := if rep.atEnd then it.mark else .cut }

theorem FittedBreak.modItem_const {b : FittedBreak} {k : Nat} {it : BreakItem} (hit : b.items[k]? = some it) (d : BreakItem) :
    b.modItem k (fun _ => d) = { b with items := b.items.set k d } := by
  rw [FittedBreak.modItem, List.modify_eq_set_getElem?, hit]
  rfl

/-- The voice of an item that sounds has ended. -/
theorem State.endSlot_eq {s : State} {o : OutletId} {p : Place} {k : Nat} {b : FittedBreak} {it : BreakItem} (hb : (s.out o).place p = some b)
    (hit : b.items[k]? = some it) (hso : it.progress = .sounding) (rep : VoiceReport) :
    ∃ tl, s.endSlot o p k rep ((s.fit o p).bind fun b => b.endMark k rep) =
      s.setOut o { (s.out o).setPlace p (some { b with items := b.items.set k (it.ends rep) }) with tallies := tl } := by
  have hmark : ((s.fit o p).bind fun b => b.endMark k rep).getD it.mark = if rep.atEnd then it.mark else .cut := by
    rw [State.fit, hb, Option.bind_some, FittedBreak.endMark, hit]
    dsimp only
    rw [if_pos (by simp [hso])]
    split <;> rfl
  generalize (s.fit o p).bind (fun b => b.endMark k rep) = mark at hmark
  have hfit : ∀ f : FittedBreak → FittedBreak, s.modFit o p f = s.setOut o ((s.out o).setPlace p (some (f b))) := fun f => by
    rw [State.modFit, State.modOut, hb, Option.map_some]
  unfold State.endSlot
  dsimp only
  rw [hfit, hit]
  dsimp only
  rw [if_pos (by simp [hso]), FittedBreak.modItem_const hit, hmark]
  simp only [State.tallyStop, State.modOut, State.setOut_out, State.setOut_setOut]
  exact ⟨_, rfl⟩

theorem Outlet.setPlace_place (x : Outlet) (p : Place) (b : Option FittedBreak) : (x.setPlace p b).place p = b := by cases p <;> rfl

/-- A voice at the end of its cart: not looping, it has sounded the last sample of its pass. -/
theorem atCartEnd_iff {w : VoiceUse} : (w.atPassEnd && !w.looping) = true ↔ w.looping = false ∧ w.sounding = true ∧ w.passEnd ≤ w.sounded := by
  simp only [VoiceUse.atPassEnd, Bool.and_eq_true, decide_eq_true_eq, Bool.not_eq_true']
  tauto

/-- RAMP_END and CART_END of a voice in use end it when its ramp has run or it is at its cart's end, and nothing else. -/
theorem exec_rampEnd {s : State} (hp : s.powered = true) (dt : Nat) {i : Fin 12} {w : VoiceUse} (h : (s.elapse dt).voice i = some w) :
    exec (.rampEnd dt i) s =
      .next (if w.rampDone (s.elapse dt).clock then ((s.elapse dt).endVoice i).finish (s.elapse dt) else s.elapse dt) := by
  rw [exec, execRampEnd, State.run_powered hp, h]
  rfl

theorem exec_cartEnd {s : State} (hp : s.powered = true) (dt : Nat) {i : Fin 12} {w : VoiceUse} (h : (s.elapse dt).voice i = some w) :
    exec (.cartEnd dt i) s =
      .next (if w.atPassEnd && !w.looping then ((s.elapse dt).endVoice i).finish (s.elapse dt) else s.elapse dt) := by
  rw [exec, execCartEnd, State.run_powered hp, h]
  rfl

/-- What a record written here holds, but for its number, its confirmation and the outlet's own fields. -/
theorem Record.field_of_unnumbered {q r : Record} {s : State} {o : OutletId} (h : q.unnumbered = s.asWritten o r) :
    q.outlet = o ∧ q.source = r.source ∧ q.outcome = r.outcome ∧ q.entryTag = r.entryTag ∧ q.cart = r.cart ∧ q.serial = r.serial ∧
      q.planned = r.planned ∧ q.actual = r.actual ∧ q.played = r.played ∧ q.concealed = min 65535 r.concealed ∧ q.stream = r.stream := by
  have field : ∀ {α : Type} (g : Record → α), (∀ r : Record, g r.unnumbered = g r) → g q = g (s.asWritten o r) :=
    fun g hg => by rw [← hg q, h]
  exact ⟨field Record.outlet fun _ => rfl, field Record.source fun _ => rfl, field Record.outcome fun _ => rfl, field Record.entryTag fun _ => rfl,
    field Record.cart fun _ => rfl, field Record.serial fun _ => rfl, field Record.planned fun _ => rfl, field Record.actual fun _ => rfl,
    field Record.played fun _ => rfl, field Record.concealed fun _ => rfl, field Record.stream fun _ => rfl⟩

end Sys2Proof.Machine

open Sys2Proof Sys2Proof.Machine

/-- Settles O55. -/
theorem voicesEnd : Obligations.VoicesEnd := by
  intro s dt i w c hp hw a o x whole ramped stream
  have hwhole : (w.atPassEnd && !w.looping) = true ↔ whole := atCartEnd_iff
  have hramped : w.rampDone a.clock = true ↔ ramped := by
    rw [VoiceUse.rampDone, Bool.and_eq_true, Bool.or_eq_true, hwhole, beq_iff_eq, decide_eq_true_eq]
  have hramp := exec_rampEnd hp dt hw
  have hcart := exec_cartEnd hp dt hw
  refine ⟨fun h => ?_, fun h => ?_, fun hc hq => ?_⟩
  · rw [hramp, if_neg (fun e => h (hramped.1 e))]
  · rw [hcart, if_neg (fun e => h (hwhole.1 e))]
  have hexec : exec c s = .next ((a.endVoice i).finish a) := by
    rcases hc with ⟨rfl, h⟩ | ⟨rfl, h⟩
    · rw [hramp, if_pos (hramped.2 h)]
    · rw [hcart, if_pos (hwhole.2 h)]
  obtain ⟨b, rep, hb, e⟩ := State.endVoice_eq hw
  have hbq : b.voiceQueue = [] := hb.engine.voiceQueue.trans ((State.elapse_voiceQueue s dt).trans hq)
  have hfree : ∀ t : State, t.voiceQueue = [] → (t.freeVoices [i]).voice i = none := fun t ht => by
    rw [State.freeVoices_one ht]
    exact t.dropVoice_free i
  have hstream : stream rep.stream := ⟨hb.stream.done, hb.stream.early, hb.stream.void, fun y n v h1 h2 h3 h4 h5 =>
    hb.stream.judged y n v h1 h2 h3 h4 ((congrArg (fun st : Store => st.find w.cart w.serial) (State.elapse_store s dt)).trans h5)⟩
  have hlog : b.log = s.log := hb.engine.log.trans (State.elapse_log s dt)
  have hatEnd : whole → rep.atEnd = true := fun h => hb.atEnd.2 ⟨h.1, h.2.2⟩
  have hcut : ¬ (w.looping = false ∧ w.passEnd ≤ w.sounded) → rep.atEnd = false := fun h => by
    simpa using fun e => h (hb.atEnd.1 e)
  refine ⟨fun tag d hh hd => ?_, fun n l f hh hl ho hf => ?_, fun p k g it hh hg he hit hs => ?_, fun id q hh hper => ?_⟩
  all_goals
    rw [hh] at e
    dsimp only at e
  · have hd' : (b.out w.outlet).entry tag = some d := by
      rw [hb.engine.out, Outlet.entry, State.elapse_out_entries]
      exact hd
    obtain ⟨g, tl, e', q, hwr, hr⟩ := State.endItemEntry_eq hd' rep
    obtain ⟨fo, fsrc, fout, ftag, -, -, -, -, fplayed, fconc, fstream⟩ := Record.field_of_unnumbered hr
    refine ⟨_, q, hexec, ?_⟩
    have hq' : (b.endItemEntry w.outlet tag rep).voiceQueue = [] := by rw [e']; exact hbq
    have hg := State.freeVoices_engine hq' [i]
    rw [e]
    refine ⟨hfree _ hq', ?_, fo, fsrc, ftag.trans (congrArg some (Outlet.entry_tag hd)), fplayed.trans hb.sounded, ?_, ?_, ?_, ?_, ?_, ?_⟩
    · rw [hg.log, e', ← hlog]
      exact hwr
    · rw [fconc, ← hb.concealed]
      rfl
    · rw [fstream]
      exact hstream
    · exact fun h h0 => fout.trans ((if_pos (hatEnd h)).trans (if_neg (Int.not_lt.2 h0)))
    · exact fun h h0 => fout.trans ((if_pos (hatEnd h)).trans (if_pos h0))
    · exact fun h => fout.trans (if_neg (by simp [hcut h]))
    · rw [hg.out, e', State.setOut_out, Outlet.dropEntry, hb.engine.out]
      exact congrArg (List.filter _) (State.elapse_out_entries s dt w.outlet)
  · have hl' : b.lines[n]? = some l := by rw [hb.engine.lines, State.elapse_lines]; exact hl
    obtain ⟨g, tl, e', q, hwr, hr⟩ := State.endLine_eq hl' ho hf i rep
    obtain ⟨-, fsrc, fout, -, fcart, fserial, fplan, fact, fplayed, -, fstream⟩ := Record.field_of_unnumbered hr
    refine ⟨_, q, hexec, ?_⟩
    rw [e, e']
    generalize hu : State.setOut _ _ _ = u
    have huq : u.voiceQueue = [] := by rw [← hu]; exact hbq
    have hg := State.freeVoices_engine huq [i]
    refine ⟨hfree _ huq, ?_, ?_, fsrc, fcart, fserial, fplan, fact, fplayed.trans hb.sounded, ?_, ?_, ?_⟩
    · rw [hg.lines, ← hu]
      exact congrArg (List.set · n _) (hb.engine.lines.trans (State.elapse_lines s dt))
    · rw [hg.log, ← hu, ← hlog]
      exact hwr
    · rw [fstream]
      exact hstream
    · exact fun h => fout.trans (if_pos (hatEnd h))
    · exact fun h => fout.trans (if_neg (by simp [hcut h]))
  · have hg' : (b.out w.outlet).place p = some g := by rw [hb.engine.out, State.elapse_out_place]; exact hg
    obtain ⟨tl, e'⟩ := State.endSlot_eq hg' hit hs rep
    refine ⟨_, rep.stream, hexec, ?_⟩
    rw [e, e']
    generalize hu : State.setOut _ _ _ = u
    have huq : u.voiceQueue = [] := by rw [← hu]; exact hbq
    have hen := State.freeVoices_engine huq [i]
    have hplace : (u.out w.outlet).place p = some { g with items := g.items.set k (it.ends rep) } := by
      rw [← hu, State.setOut_out]
      exact Outlet.setPlace_place _ _ _
    have hfin : (u.freeVoices [i]).finishEnding w.outlet p = u.freeVoices [i] := by
      rw [State.finishEnding, State.fit, hen.out, hplace]
      exact if_neg (by simp [he])
    rw [hfin]
    refine ⟨hfree _ huq, ?_, hstream, ?_⟩
    · rw [hen.log, ← hu]
      exact hlog
    · rw [hen.out, hplace]
      have hmark : (if rep.atEnd = true then it.mark else .cut) = if w.looping = false ∧ w.passEnd ≤ w.sounded then it.mark else .cut :=
        if_congr hb.atEnd rfl rfl
      rw [BreakItem.ends, hb.sounded, hb.concealed, hmark]
  · have hper' : ((b.out w.outlet).periods.find? fun q => q.id == id) = some q := by
      rw [hb.engine.out, State.elapse_out_periods]
      exact hper
    rw [hper'] at e
    dsimp only at e
    obtain ⟨g, tl, e', r, hwr, hr⟩ := State.recordPeriod_eq b w.outlet q rep
    obtain ⟨fo, fsrc, -, -, fcart, -, fplan, fact, fplayed, -, -⟩ := Record.field_of_unnumbered hr
    refine ⟨_, r, hexec, ?_⟩
    rw [e, e']
    generalize hu : State.setOut _ _ _ = u
    have huq : u.voiceQueue = [] := by rw [← hu]; exact hbq
    have hg := State.freeVoices_engine huq [i]
    refine ⟨hfree _ huq, ?_, fsrc, fo, fcart, fplan, fact, fplayed.trans hb.sounded, ?_⟩
    · rw [hg.log, ← hu, ← hlog]
      exact hwr
    · have hid : q.id = id := by simpa using List.find?_some hper
      rw [hg.out, ← hu, State.setOut_out, hid, hb.engine.out, State.elapse_out_periods]
end

section
/-! What the voices' queue serves leaves of an outlet, whatever requests wait (R89 to R92): its order, its slots, and each entry that has no
request of its own waiting. -/

namespace Sys2Proof.Machine

/-! ### What a grant leaves -/

/-- An entry but for the mark of a version lost at a grant (R10). -/
def Entry.core (e : Entry) : Entry := { e with lost := false }

/-- An outlet but for what grants change of it: the marks of its entries, its fitted breaks and its fallback periods. -/
def Outlet.core (x : Outlet) : Outlet :=
  { x with entries := x.entries.map Entry.core, place1 := none, place2 := none, periods := [], tallies := [] }

/-- No request waits whose grant looks at the version of an entry (R10). -/
def State.Unasked (s : State) (o : OutletId) (tag : Nat) : Prop :=
  ∀ r ∈ s.voiceQueue, r.outlet = o → r.holder = .entry tag → ∀ e, (s.out o).entry tag = some e → e.isBreak = true

/-- From `a` to `s` voices were freed and offered: of the outlet no more has changed than grants change (R89, R91). -/
structure State.Serves (o : OutletId) (a s : State) : Prop where
  log : s.log = a.log
  cfg : s.cfg = a.cfg
  disc : s.disc = a.disc
  clock : s.clock = a.clock
  core : (s.out o).core = (a.out o).core
  queue : s.voiceQueue.Sublist a.voiceQueue
  kept : ∀ tag, a.Unasked o tag → (s.out o).entry tag = (a.out o).entry tag

theorem State.Serves.refl (o : OutletId) (a : State) : State.Serves o a a := ⟨rfl, rfl, rfl, rfl, rfl, List.Sublist.refl _, fun _ _ => rfl⟩

theorem State.Serves.unasked {o : OutletId} {a s : State} (h : State.Serves o a s) {tag : Nat} (hu : a.Unasked o tag) : s.Unasked o tag :=
  fun r hr ho hh e he => hu r (h.queue.subset hr) ho hh e ((h.kept tag hu).symm.trans he)

theorem State.Serves.trans {o : OutletId} {a s t : State} (h : State.Serves o a s) (h' : State.Serves o s t) : State.Serves o a t :=
  ⟨h'.log.trans h.log, h'.cfg.trans h.cfg, h'.disc.trans h.disc, h'.clock.trans h.clock, h'.core.trans h.core, h'.queue.trans h.queue,
    fun tag hu => (h'.kept tag (h.unasked hu)).trans (h.kept tag hu)⟩

section serves
variable {o : OutletId} {a s : State}

/-- Changes beside the outlets, the log and the queue. -/
theorem State.Serves.beside {t : State} (h : State.Serves o a s) (hl : t.log = s.log) (hc : t.cfg = s.cfg) (hd : t.disc = s.disc)
    (hk : t.clock = s.clock) (ho : t.out o = s.out o) (hq : t.voiceQueue = s.voiceQueue) : State.Serves o a t :=
  h.trans ⟨hl, hc, hd, hk, by rw [ho], hq ▸ List.Sublist.refl _, fun _ _ => by rw [ho]⟩

theorem State.Serves.filterQueue (h : State.Serves o a s) (p : VoiceRequest → Bool) :
    State.Serves o a { s with voiceQueue := s.voiceQueue.filter p } :=
  h.trans ⟨rfl, rfl, rfl, rfl, rfl, List.filter_sublist, fun _ _ => rfl⟩

theorem State.Serves.eraseQueue (h : State.Serves o a s) (r : VoiceRequest) :
    State.Serves o a { s with voiceQueue := s.voiceQueue.erase r } :=
  h.trans ⟨rfl, rfl, rfl, rfl, rfl, List.erase_sublist, fun _ _ => rfl⟩

/-- A change of an outlet that grants could make, or of another outlet. -/
theorem State.Serves.modOut (h : State.Serves o a s) (p : OutletId) (f : Outlet → Outlet)
    (hf : p = o → (f (s.out o)).core = (s.out o).core ∧ (f (s.out o)).entries = (s.out o).entries) : State.Serves o a (s.modOut p f) := by
  by_cases hp : p = o
  · subst hp
    obtain ⟨hcore, hentries⟩ := hf rfl
    refine h.trans ⟨rfl, rfl, rfl, rfl, by rw [State.modOut_out]; exact hcore, List.Sublist.refl _, fun tag _ => ?_⟩
    rw [State.modOut_out, Outlet.entry, Outlet.entry, hentries]
  · refine h.beside rfl rfl rfl rfl ?_ rfl
    rw [State.modOut, State.out_setOut, if_neg (Ne.symm hp)]

theorem Outlet.setPlace_core (x : Outlet) (p : Place) (b : Option FittedBreak) : (x.setPlace p b).core = x.core := by cases p <;> rfl

theorem Outlet.setPlace_entries (x : Outlet) (p : Place) (b : Option FittedBreak) : (x.setPlace p b).entries = x.entries := by cases p <;> rfl

theorem State.Serves.modFit (h : State.Serves o a s) (q : OutletId) (p : Place) (f : FittedBreak → FittedBreak) :
    State.Serves o a (s.modFit q p f) :=
  h.modOut q _ fun _ => ⟨Outlet.setPlace_core _ _ _, Outlet.setPlace_entries _ _ _⟩

theorem State.Serves.prime (h : State.Serves o a s) (i : Nat) (q : OutletId) (k : Holder) (v : Version) (n : Nat) (l : Bool) (t : Time) :
    State.Serves o a (s.prime i q k v n l t) := h.beside rfl rfl rfl rfl rfl rfl

theorem State.Serves.grantSlot (h : State.Serves o a s) (i : Nat) (r : VoiceRequest) (p : Place) (k : Nat) :
    State.Serves o a (s.grantSlot i r p k) := by
  unfold State.grantSlot
  dsimp only
  split
  · exact h
  · split
    · split
      · exact (h.prime ..).modFit _ _ _
      · split
        · exact (h.modFit _ _ _).prime ..
        · exact h.modFit _ _ _
    · split
      · exact h.prime ..
      · exact h.modFit _ _ _

theorem State.Serves.grantFallback (h : State.Serves o a s) (i : Nat) (r : VoiceRequest) (id : Nat) :
    State.Serves o a (s.grantFallback i r id) := by
  unfold State.grantFallback
  dsimp only
  split
  · exact (h.prime ..).modOut _ _ fun _ => ⟨rfl, rfl⟩
  · exact h.modOut _ _ fun _ => ⟨rfl, rfl⟩

theorem Outlet.modEntry_core {x : Outlet} {tag : Nat} {f : Entry → Entry} (hf : ∀ e, (f e).core = e.core) : (x.modEntry tag f).core = x.core := by
  simp only [Outlet.core, Outlet.modEntry, List.map_map]
  have : (Entry.core ∘ fun e => if (e.tag == tag) = true then f e else e) = Entry.core := by
    funext e
    simp only [Function.comp]
    split
    · exact hf e
    · rfl
  rw [this]

theorem Outlet.entry_modEntry_ne {x : Outlet} {tag t : Nat} (h : t ≠ tag) {f : Entry → Entry} (hf : ∀ e, (f e).tag = e.tag) :
    (x.modEntry tag f).entry t = x.entry t := by
  simp only [Outlet.entry, Outlet.modEntry]
  induction x.entries with
  | nil => rfl
  | cons e l ih =>
    rw [List.map_cons, List.find?_cons, List.find?_cons, ih]
    by_cases he : e.tag = tag
    · have hn : (tag == t) = false := by simpa using Ne.symm h
      rw [if_pos (by simp [he]), hf, he, hn]
    · rw [if_neg (by simp [he])]

/-- An entry loses its version only at the grant of its own request (R10). -/
theorem State.Serves.loseEntry (h : State.Serves o a s) (q : OutletId) (tag : Nat) (hu : q = o → ¬ a.Unasked o tag) :
    State.Serves o a (s.loseEntry q tag) := by
  by_cases hq : q = o
  · subst hq
    have hc : ((s.loseEntry q tag).out q).core = (s.out q).core := by
      rw [State.loseEntry, State.modEntry, State.modOut_out]
      exact Outlet.modEntry_core fun _ => rfl
    refine ⟨h.log, h.cfg, h.disc, h.clock, hc.trans h.core, h.queue, fun t ht => ?_⟩
    have hne : t ≠ tag := fun e => hu rfl (e ▸ ht)
    rw [State.loseEntry, State.modEntry, State.modOut_out, Outlet.entry_modEntry_ne hne (f := fun e => { e with lost := true }) fun _ => rfl]
    exact h.kept t ht
  · refine h.beside rfl rfl rfl rfl ?_ rfl
    rw [State.loseEntry, State.modEntry, State.modOut, State.out_setOut, if_neg (Ne.symm hq)]

theorem State.startSample_beside (s : State) (n : Nat) (d : Int) :
    ∃ k, (s.startSample n d).2 = { s with freeCount := k } := by
  unfold State.startSample
  split
  · exact ⟨_, rfl⟩
  · exact ⟨_, rfl⟩

theorem State.Serves.grant (h : State.Serves o a s) (i : Nat) {r : VoiceRequest} (hr : r ∈ a.voiceQueue) : State.Serves o a (s.grant i r) := by
  unfold State.grant
  split
  · rename_i tag htag
    split
    · exact h
    · rename_i e he
      split
      · rename_i cart n hk hn
        split
        · rename_i v _
          obtain ⟨k, hs⟩ := s.startSample_beside v.inCue e.air.offset
          dsimp only
          rw [hs]
          exact State.Serves.prime (s := { s with freeCount := k }) (h.beside rfl rfl rfl rfl rfl rfl) ..
        · refine h.loseEntry _ _ fun ho hu => ?_
          subst ho
          have := hu r hr rfl htag e ((h.kept tag hu).symm.trans he)
          simp [Entry.isBreak, hk] at this
      · exact h
  · exact h.grantSlot ..
  · exact h.grantFallback ..
  · exact h

theorem State.pick_beside (s : State) (n : Nat) : ∃ k, (s.pick n).2 = { s with freeCount := k } := by
  unfold State.pick
  split
  · exact ⟨_, rfl⟩
  · exact ⟨_, rfl⟩

theorem State.claimant_mem {s : State} {i : Nat} {r : VoiceRequest} (h : s.claimant i = some r) : r ∈ s.voiceQueue := by
  unfold State.claimant at h
  split at h
  · cases h
  · split at h
    · cases h
    · split at h
      · dsimp only at h
        split at h
        · rename_i hf
          cases h
          exact List.mem_of_mem_filter (List.mem_of_find?_eq_some hf)
        · exact List.mem_of_mem_filter (List.mem_of_head? h)
      · exact List.mem_of_find?_eq_some h

theorem State.Serves.offer (h : State.Serves o a s) (n : Nat) : State.Serves o a (State.offer n s) := by
  induction n generalizing s with
  | zero => exact h
  | succ n ih =>
    unfold State.offer
    dsimp only
    obtain ⟨k, hk⟩ := s.pick_beside ((List.range s.voices.length).filter fun i => (s.claimant i).isSome).length
    rw [hk]
    have hs : State.Serves o a { s with freeCount := k } := h.beside rfl rfl rfl rfl rfl rfl
    split
    · exact hs
    · split
      · exact hs
      · rename_i r hr
        exact ih ((hs.eraseQueue r).grant _ (hs.queue.subset (State.claimant_mem hr)))

theorem State.Serves.engine {t : State} (h : State.Serves o a s) (he : s.Engine t) : State.Serves o a t :=
  h.beside he.log he.cfg he.disc he.clock (he.out o) he.voiceQueue

theorem State.Serves.freeVoices (h : State.Serves o a s) (l : List Nat) : State.Serves o a (s.freeVoices l) :=
  (h.engine ((State.Engine.refl s).foldl State.dropVoice l State.dropVoice_engine)).offer _

theorem State.Serves.giveUp (h : State.Serves o a s) (q : OutletId) (k : Holder) : State.Serves o a (s.giveUp q k) := by
  unfold State.giveUp
  dsimp only
  split
  · exact (h.filterQueue _).freeVoices _
  · exact h.filterQueue _

theorem State.Serves.giveUpWhere (h : State.Serves o a s) (q : OutletId) (k : Holder → Bool) : State.Serves o a (s.giveUpWhere q k) :=
  (h.filterQueue _).freeVoices _

theorem State.Serves.releaseFit (h : State.Serves o a s) (q : OutletId) (p : Place) : State.Serves o a (s.releaseFit q p) :=
  (h.modOut q _ fun _ => ⟨by cases p <;> rfl, by cases p <;> rfl⟩).giveUpWhere _ _

theorem State.Serves.shadowFit (h : State.Serves o a s) (q : OutletId) (p : Place) (t : Time) : State.Serves o a (s.shadowFit q p t) :=
  (h.modFit q p _).giveUpWhere _ _

theorem State.Serves.fitEntry (h : State.Serves o a s) (q : OutletId) (p : Place) (tag brk len : Nat) :
    State.Serves o a (s.fitEntry q p tag brk len) :=
  h.modOut q (fun x => x.setPlace p _) fun _ => ⟨Outlet.setPlace_core _ _ _, Outlet.setPlace_entries _ _ _⟩

end serves

/-- An entry that gives up what it holds or awaits has no request waiting, and stays as it is. -/
theorem State.giveUp_unasked (s : State) (o : OutletId) (tag : Nat) :
    (s.giveUp o (.entry tag)).Unasked o tag ∧ ((s.giveUp o (.entry tag)).out o).entry tag = (s.out o).entry tag := by
  have h : State.Serves o { s with voiceQueue := s.voiceQueue.filter fun r => !(r.outlet == o && r.holder == .entry tag) }
      (s.giveUp o (.entry tag)) := by
    unfold State.giveUp
    dsimp only
    split
    · exact (State.Serves.refl o _).freeVoices _
    · exact .refl o _
  have hu : State.Unasked { s with voiceQueue := s.voiceQueue.filter fun r => !(r.outlet == o && r.holder == .entry tag) } o tag :=
    fun r hr ho hh => by
      have := (List.mem_filter.1 hr).2
      simp [ho, hh] at this
  exact ⟨h.unasked hu, h.kept tag hu⟩

end Sys2Proof.Machine
end

section
/-! An AUDIO frame on the outlet of its feed: what the other outlets do with it, the owner view, and ownership (R128, R131 to R136). -/

namespace Sys2Proof.Machine

/-! ### The outlets a frame passes before and after its own (R70, R148) -/

section aside
variable {o : OutletId} {a s : State}

theorem State.Serves.modOut_ne (h : State.Serves o a s) {p : OutletId} (hp : p ≠ o) (f : Outlet → Outlet) : State.Serves o a (s.modOut p f) :=
  h.modOut p f fun e => absurd e hp

theorem State.Serves.foldl {α : Type} (h : State.Serves o a s) (f : State → α → State) (l : List α)
    (hf : ∀ t x, x ∈ l → State.Serves o a t → State.Serves o a (f t x)) : State.Serves o a (l.foldl f s) := by
  induction l generalizing s with
  | nil => exact h
  | cons x l ih =>
    exact ih (hf s x List.mem_cons_self h) fun t y hy => hf t y (List.mem_cons_of_mem x hy)

theorem State.Serves.tryResync (h : State.Serves o a s) {p : OutletId} (hp : p ≠ o) : State.Serves o a (s.tryResync p) := by
  unfold State.tryResync
  dsimp only
  split
  · exact h
  · split
    · refine (h.modOut_ne hp _).foldl _ _ fun t q _ ht => ?_
      unfold State.releaseFollow
      dsimp only
      split
      · exact (ht.releaseFit p q).modOut_ne hp fun x => { x with relay := _ }
      · exact ht.releaseFit p q
    · exact h

theorem State.Serves.collectEcho (h : State.Serves o a s) {p : OutletId} (hp : p ≠ o) (t : Time) (l : List SampleFrame) :
    State.Serves o a (s.collectEcho p t l) := by
  have hopen : ∀ {u : State}, State.Serves o a u → ∀ f : Outlet → Outlet, State.Serves o a (u.modOut p f) := fun hu f => hu.modOut_ne hp f
  unfold State.collectEcho
  dsimp only
  split
  · exact hopen h _
  · split
    · exact h
    · split
      · refine hopen ?_ _
        unfold State.closeOpenBlock
        split
        · exact hopen h _
        · exact h
      · split
        · exact h
        · exact hopen h _

/-- The relay takes a frame of the follow feed (R70). -/
def State.takeFollowed (s : State) (o : OutletId) (head : FrameHead) (b : AudioBody) : State :=
  if s.isFollow o && (s.ocfg o).followFeed == b.feed then
    (s.placeFrame o { time := b.frameTime, sender := head.sender, samples := b.samples }).tryResync o
  else s

/-- The echoes take a frame of the monitored feed (R148). -/
def State.takeMonitored (s : State) (o : OutletId) (b : AudioBody) : State :=
  if s.monitored o = some b.feed then s.collectEcho o b.frameTime b.samples else s

theorem State.takeOwnFeed_cfg (s : State) (o : OutletId) (head : FrameHead) (b : AudioBody) : (s.takeOwnFeed o head b).cfg = s.cfg :=
  congrArg (fun x => x.2.2.2.1) (State.takeOwnFeed_moves .refl o head b).base

/-- What one outlet does with a frame: nothing if it is DARK, else it takes it as its own feed's, its relay's, its echoes'. -/
theorem State.takeAudioOn_eq (s : State) (o : OutletId) (head : FrameHead) (b : AudioBody) : s.takeAudioOn o head b =
    if !(s.ocfg o).valid || (s.out o).air == .dark then s
    else ((if (s.ocfg o).feed = b.feed then s.takeOwnFeed o head b else s).takeFollowed o head b).takeMonitored o b := by
  have hcfg : ∀ t : State, t.cfg = s.cfg → (s.ocfg o).followFeed = (t.ocfg o).followFeed := fun t h => by rw [State.ocfg, State.ocfg, h]
  unfold State.takeAudioOn State.takeFollowed State.takeMonitored
  dsimp only
  split
  · rfl
  · split
    · rw [hcfg _ (s.takeOwnFeed_cfg o head b)]
    · rfl

theorem State.Serves.takeFollowed (h : State.Serves o a s) {p : OutletId} (hp : p ≠ o) (head : FrameHead) (b : AudioBody) :
    State.Serves o a (s.takeFollowed p head b) := by
  unfold State.takeFollowed
  split
  · exact State.Serves.tryResync (s := s.placeFrame p _) (h.modOut_ne hp _) hp
  · exact h

theorem State.Serves.takeMonitored (h : State.Serves o a s) {p : OutletId} (hp : p ≠ o) (b : AudioBody) :
    State.Serves o a (s.takeMonitored p b) := by
  unfold State.takeMonitored
  split
  · exact h.collectEcho hp _ _
  · exact h

/-- Another outlet, of another feed, takes a frame. -/
theorem State.Serves.takeAudioOn (h : State.Serves o a s) {p : OutletId} (hp : p ≠ o) (head : FrameHead) (b : AudioBody)
    (hf : (s.ocfg p).valid = true → (s.ocfg p).feed ≠ b.feed) : State.Serves o a (s.takeAudioOn p head b) := by
  rw [State.takeAudioOn_eq]
  split
  · exact h
  · rename_i hv
    simp only [Bool.or_eq_true, Bool.not_eq_true', not_or, Bool.not_eq_false] at hv
    rw [if_neg (hf hv.1)]
    exact (h.takeFollowed hp head b).takeMonitored hp b

end aside

theorem OutletId.all_split (o : OutletId) : ∃ l m, OutletId.all = l ++ o :: m ∧ (∀ p ∈ l, p ≠ o) ∧ ∀ p ∈ m, p ≠ o := by
  cases o
  · exact ⟨[], [.b, .c, .d], rfl, by decide, by decide⟩
  · exact ⟨[.a], [.c, .d], rfl, by decide, by decide⟩
  · exact ⟨[.a, .b], [.d], rfl, by decide, by decide⟩
  · exact ⟨[.a, .b, .c], [], rfl, by decide, by decide⟩

theorem State.takeCandidate_eq (s : State) (feed : Nat) (t : Time) : ∃ d, s.takeCandidate feed t = { s with disc := d } ∧
    d.groupTime = s.disc.groupTime := by
  unfold State.takeCandidate
  dsimp only
  split
  · exact ⟨_, rfl, rfl⟩
  · split
    · exact ⟨_, rfl, rfl⟩
    · split
      · exact ⟨_, rfl, rfl⟩
      · exact ⟨_, rfl, rfl⟩

/-- A frame is taken by the outlet of its feed, with the others passed before and after it. -/
theorem State.audioTaken_own {a : State} {o : OutletId} {b : AudioBody} (hc : a.Carries o b.feed) (h : FrameHead) :
    ∃ (u : State) (m : List OutletId), a.audioTaken h b = m.foldl (fun s p => s.takeAudioOn p h b) (u.takeAudioOn o h b) ∧ (∀ p ∈ m, p ≠ o) ∧
      State.Serves o (a.takeCandidate b.feed h.sentAt) u := by
  obtain ⟨l, m, hall, hl, hm⟩ := OutletId.all_split o
  obtain ⟨d, hd, -⟩ := a.takeCandidate_eq b.feed h.sentAt
  refine ⟨l.foldl (fun s p => s.takeAudioOn p h b) (a.takeCandidate b.feed h.sentAt), m, ?_, hm, ?_⟩
  · rw [State.audioTaken, hall, List.foldl_append, List.foldl_cons]
  · refine (State.Serves.refl o _).foldl _ _ fun t p hp ht => ht.takeAudioOn (hl p hp) h b fun hv hf => ?_
    have hcfg : t.ocfg p = a.ocfg p := by rw [State.ocfg, ht.cfg, hd]; rfl
    rw [hcfg] at hv hf
    exact hl p hp (hc.2.2.2.2.2 p hv hf)

/-! ### The air state at a frame (R131, R132, R134, R136) -/

theorem Air.eq_of_off {x y : Air} (h : x.off = y.off) (hy : y.sends = false) : x = y := by
  cases x <;> cases y <;> first | rfl | exact absurd h (by decide) | exact absurd hy (by decide)

theorem Outlet.fixed_iff {x y : Outlet} : x.fixed = y.fixed ↔ x.view = y.view ∧ x.heard = y.heard ∧ x.fills = y.fills ∧ x.bed = y.bed ∧ x.air.off = y.air.off := by
  simp only [Outlet.fixed, Prod.mk.injEq]

/-- An outlet that leaves the air is in STANDBY. -/
theorem State.leaveAir_standby (s : State) (o : OutletId) : ((s.leaveAir o).out o).air = .standby := by
  unfold State.leaveAir
  generalize hu : ((s.landTimeline o).modOut o fun x => x.offAir s.clock) = u
  have hf : ((u.stopEchoBlock o).offerAll.out o).fixed = (u.out o).fixed :=
    (State.offerAll_moves (State.stopEchoBlock_moves .refl o)).fixed o
  obtain ⟨-, -, -, -, hoff⟩ := Outlet.fixed_iff.1 hf
  have hair : (u.out o).air = .standby := by rw [← hu, State.modOut_out]; rfl
  rw [hair] at hoff
  exact Air.eq_of_off hoff rfl

/-- The outlet is better than the sender, or gives way (R126, R134). -/
theorem State.betterSender_iff {s : State} {o : OutletId} {rank node : Nat} : s.betterSender o rank node = true ↔ s.Better o rank node := by
  simp only [State.betterSender, betterCandidate, State.Better, Bool.or_eq_true, Bool.and_eq_true, decide_eq_true_eq, beq_iff_eq]

/-- What a frame of its feed leaves of an outlet's air state: a sending one gives way to its named successor, and to a better sender not
YIELDING with DOUBLE_AIR. -/
structure State.Judged (s t : State) (o : OutletId) (head : FrameHead) (b : AudioBody) : Prop where
  listening : (s.out o).air = .listening → (t.out o).air = .listening
  standby : (s.out o).air = .standby → (t.out o).air = .standby
  claiming : (s.out o).air = .claiming → (t.out o).air = .standby
  leaves : (s.out o).air.sends = true → ((s.out o).air = .yielding ∧ (s.out o).yielding.map Yield.successor = some head.sender) ∨
    (s.Better o b.rank head.sender ∧ b.yielding = false) → (t.out o).air = .standby
  latched : (s.out o).air.sends = true → ¬ ((s.out o).air = .yielding ∧ (s.out o).yielding.map Yield.successor = some head.sender) →
    s.Better o b.rank head.sender ∧ b.yielding = false → ∃ f, (t.captures.slot .air).first = some f
  stays : (s.out o).air.sends = true → ¬ ((s.out o).air = .yielding ∧ (s.out o).yielding.map Yield.successor = some head.sender) →
    ¬ (s.Better o b.rank head.sender ∧ b.yielding = false) → (t.out o).air.sends = true

/-- A slot that latches a fault has a first one. -/
theorem Slot.latch_first (x : Slot) (f : FaultInfo) : ∃ g, (x.latch f).first = some g := by
  unfold Slot.latch
  split
  · exact ⟨_, rfl⟩
  · rename_i g hg
    exact ⟨g, hg⟩

theorem State.latch_first (s : State) (f : FaultInfo) : ∃ g, ((s.latch f).captures.slot f.kind.cls).first = some g := by
  rw [State.latch, Captures.slot_setSlot, if_pos rfl]
  exact Slot.latch_first _ _

theorem State.stepDown_latched (s : State) (o : OutletId) (node : Nat) : ∃ f, ((s.stepDown o node).captures.slot .air).first = some f :=
  State.latch_first _ _

open Classical in
/-- A sending outlet judges a frame of its feed (R134). -/
theorem State.judgeDouble_sending {s : State} {o : OutletId} (head : FrameHead) (b : AudioBody) (hs : (s.out o).air.sends = true) :
    s.judgeDouble o head b =
      if (s.out o).air = .yielding ∧ (s.out o).yielding.map Yield.successor = some head.sender then s.leaveAir o
      else if s.Better o b.rank head.sender ∧ b.yielding = false then s.stepDown o head.sender else s := by
  have hbetter : (s.betterSender o b.rank head.sender && !b.yielding) = true ↔ s.Better o b.rank head.sender ∧ b.yielding = false := by
    rw [Bool.and_eq_true, State.betterSender_iff, Bool.not_eq_true']
  unfold State.judgeDouble
  dsimp only
  cases hair : (s.out o).air with
  | onAir | fallback =>
    exact (if_congr hbetter rfl rfl).trans (if_neg fun h => absurd h.1 (by decide)).symm
  | yielding =>
    dsimp only
    refine if_congr ?_ rfl (if_congr hbetter rfl rfl)
    cases (s.out o).yielding <;> simp
  | _ =>
    rw [hair] at hs
    exact absurd hs (by decide)

theorem State.judgeOwner_judged (s : State) (o : OutletId) (head : FrameHead) (b : AudioBody) :
    State.Judged s (s.judgeOwner o head b) o head b := by
  by_cases hs : (s.out o).air.sends = true
  · have hne : ∀ x : Air, x.sends = false → (s.out o).air ≠ x := fun x hx e => absurd (hs.symm.trans ((congrArg Air.sends e).trans hx)) (by decide)
    have he : s.judgeOwner o head b = s.judgeDouble o head b := by
      unfold State.judgeOwner
      split
      · rename_i e
        exact absurd e (hne _ rfl)
      · rename_i e
        exact absurd e (hne _ rfl)
      · rfl
    have hdown : ((s.stepDown o head.sender).out o).air = .standby := s.leaveAir_standby o
    rw [he, State.judgeDouble_sending head b hs]
    refine ⟨fun e => absurd e (hne _ rfl), fun e => absurd e (hne _ rfl), fun e => absurd e (hne _ rfl), fun _ h => ?_, fun _ hn hb => ?_,
      fun _ hn hb => ?_⟩
    · split
      · exact s.leaveAir_standby o
      · rename_i hn
        rw [if_pos (h.resolve_left hn)]
        exact hdown
    · rw [if_neg hn, if_pos hb]
      exact s.stepDown_latched o head.sender
    · rw [if_neg hn, if_neg hb]
      exact hs
  · refine ⟨fun e => ?_, fun e => ?_, fun e => ?_, fun e => absurd e hs, fun e => absurd e hs, fun e => absurd e hs⟩
    all_goals
      unfold State.judgeOwner
      rw [e]
      dsimp only
    · unfold State.judgeDouble
      dsimp only
      rw [e]
      exact e
    · rw [State.modOut_out]
      exact e
    · rw [State.stopClaim, State.modOut_out]

/-! ### After the frame (R18, R70, R81, R148) -/

theorem State.takeFollowed_moves {k : Bool} {a s : State} (h : State.Moves k a s) (o : OutletId) (head : FrameHead) (b : AudioBody) :
    State.Moves k a (s.takeFollowed o head b) := by
  unfold State.takeFollowed
  split
  · exact State.tryResync_moves (State.placeFrame_moves h o _) o
  · exact h

theorem State.takeMonitored_moves {k : Bool} {a s : State} (h : State.Moves k a s) (o : OutletId) (b : AudioBody) :
    State.Moves k a (s.takeMonitored o b) := by
  unfold State.takeMonitored
  split
  · exact State.collectEcho_moves h o _ _
  · exact h

/-- Past its own feed's outlet a frame makes strong moves. -/
theorem State.takeAudioOn_moves_other {a s : State} (h : State.Moves true a s) (p : OutletId) (head : FrameHead) (b : AudioBody)
    (hf : (s.ocfg p).valid = true → (s.ocfg p).feed ≠ b.feed) : State.Moves true a (s.takeAudioOn p head b) := by
  rw [State.takeAudioOn_eq]
  split
  · exact h
  · rename_i hv
    simp only [Bool.or_eq_true, Bool.not_eq_true', not_or, Bool.not_eq_false] at hv
    rw [if_neg (hf hv.1)]
    exact State.takeMonitored_moves (State.takeFollowed_moves h p head b) p b

/-- The clock discipline leaves what is fixed of the outlets. -/
theorem State.takeReference_fixed (s : State) (feed : Nat) (frame sentAt : Time) (sender phase : Nat) (o : OutletId) :
    ((s.takeReference feed frame sentAt sender phase).out o).fixed = (s.out o).fixed := by
  have hw : ∀ (count : Nat), ((s.takeWindow frame count sender).out o).fixed = (s.out o).fixed := fun count => by
    unfold State.takeWindow
    split
    · rfl
    · split
      · rfl
      · split
        · rfl
        · split
          · split
            · unfold State.evaluateWindow State.rejectWindow State.openWindow
              dsimp only
              split
              · split <;> rfl
              · rfl
            · rfl
          · rfl
  unfold State.takeReference
  split
  · rw [← hw (s.counter phase)]
    generalize s.takeWindow frame (s.counter phase) sender = u
    unfold State.compareTime
    split
    · rfl
    · split
      · exact (u.stepTime_lasts _ sender).fixed o
      · rfl
  · rfl

section judged
variable {s t : State} {o : OutletId} {head : FrameHead} {b : AudioBody}

/-- What follows keeps whether the outlet sends, its air state while it does not, and the first faults. -/
theorem State.Judged.after (h : State.Judged s t o head b) {t' : State} (hf : (t'.out o).fixed = (t.out o).fixed)
    (hl : ∀ f, (t.captures.slot .air).first = some f → (t'.captures.slot .air).first = some f) : State.Judged s t' o head b := by
  obtain ⟨-, -, -, -, hoff⟩ := Outlet.fixed_iff.1 hf
  have hair : ∀ x : Air, x.sends = false → (t.out o).air = x → (t'.out o).air = x := fun x hx e => by
    rw [e] at hoff
    exact Air.eq_of_off hoff hx
  refine ⟨fun e => hair _ rfl (h.listening e), fun e => hair _ rfl (h.standby e), fun e => hair _ rfl (h.claiming e),
    fun e e' => hair _ rfl (h.leaves e e'), fun e e' e'' => ?_, fun e e' e'' => ?_⟩
  · obtain ⟨f, hf⟩ := h.latched e e' e''
    exact ⟨f, hl f hf⟩
  · rw [Air.sends_of_off hoff]
    exact h.stays e e' e''

theorem State.Judged.before (h : State.Judged s t o head b) {s' : State} (ha : (s'.out o).air = (s.out o).air)
    (hy : (s'.out o).yielding = (s.out o).yielding) (hc : s'.cfg = s.cfg) : State.Judged s' t o head b := by
  have hb : s'.Better o b.rank head.sender ↔ s.Better o b.rank head.sender := by
    rw [State.Better, State.Better, State.ocfg, State.ocfg, hc]
  refine ⟨?_, ?_, ?_, ?_, ?_, ?_⟩
  all_goals rw [ha]
  · exact h.listening
  · exact h.standby
  · exact h.claiming
  · rw [hy, hb]
    exact h.leaves
  · rw [hy, hb]
    exact h.latched
  · rw [hy, hb]
    exact h.stays

end judged

theorem State.takeOwnFeed_judged (s : State) (o : OutletId) (head : FrameHead) (b : AudioBody) :
    State.Judged s (s.takeOwnFeed o head b) o head b ∧ ((s.takeOwnFeed o head b).out o).view = some (s.viewOf head b) ∧
      ((s.takeOwnFeed o head b).out o).heard = true := by
  have hj := s.judgeOwner_judged o head b
  have hv : State.Judged s ((s.judgeOwner o head b).modOut o (Outlet.viewed (s.viewOf head b))) o head b := by
    have hair : (((s.judgeOwner o head b).modOut o (Outlet.viewed (s.viewOf head b))).out o).air = ((s.judgeOwner o head b).out o).air := by
      rw [State.modOut_out]
      rfl
    refine ⟨?_, ?_, ?_, ?_, hj.latched, ?_⟩
    all_goals rw [hair]
    · exact hj.listening
    · exact hj.standby
    · exact hj.claiming
    · exact hj.leaves
    · exact hj.stays
  have hout : ((s.judgeOwner o head b).modOut o (Outlet.viewed (s.viewOf head b))).out o =
      Outlet.viewed (s.viewOf head b) ((s.judgeOwner o head b).out o) := State.modOut_out ..
  rw [State.takeOwnFeed_eq]
  generalize (s.judgeOwner o head b).modOut o (Outlet.viewed (s.viewOf head b)) = u at hv hout
  have hview : (u.out o).view = some (s.viewOf head b) ∧ (u.out o).heard = true := by
    rw [hout]
    exact ⟨rfl, rfl⟩
  split
  · have hm : State.Moves true u (u.shadowAdvance o (placeOf b)) := State.shadowAdvance_moves .refl o _
    obtain ⟨h1, h2, -⟩ := Outlet.fixed_iff.1 (hm.fixed o)
    exact ⟨hv.after (hm.fixed o) (hm.firsts .air), h1.trans hview.1, h2.trans hview.2⟩
  · exact ⟨hv, hview⟩

/-- An AUDIO frame on the outlet of its feed (R128, R131 to R136). -/
theorem State.audioFrame_judged {a : State} {o : OutletId} {b : AudioBody} (hc : a.Carries o b.feed) (h : FrameHead) (phase : Nat) :
    let t := ((a.audioTaken h b).takeReference b.feed b.frameTime h.sentAt h.sender phase).finish a
    State.Judged a t o h b ∧ (t.out o).view = some (a.viewOf h b) ∧ (t.out o).heard = true := by
  obtain ⟨d, hd, hgroup⟩ := a.takeCandidate_eq b.feed h.sentAt
  obtain ⟨u, m, htaken, hm, hu⟩ := State.audioTaken_own hc h
  rw [hd] at hu
  have hcfg : u.cfg = a.cfg := hu.cfg
  have hcore : (u.out o).core = (a.out o).core := hu.core
  have hair : (u.out o).air = (a.out o).air := (congrArg Outlet.air hcore : _)
  have hyield : (u.out o).yielding = (a.out o).yielding := (congrArg Outlet.yielding hcore : _)
  have hocfg : u.ocfg o = a.ocfg o := by rw [State.ocfg, State.ocfg, hcfg]
  obtain ⟨hvalid, hfeed, -, -, hdark, halone⟩ := hc
  obtain ⟨hj, hview, hheard⟩ := u.takeOwnFeed_judged o h b
  have hj' : State.Judged a (u.takeOwnFeed o h b) o h b := hj.before hair.symm hyield.symm hcfg.symm
  have hv : u.viewOf h b = a.viewOf h b := by
    unfold State.viewOf
    rw [hu.disc, hgroup]
  rw [hv] at hview
  have hon : u.takeAudioOn o h b = ((u.takeOwnFeed o h b).takeFollowed o h b).takeMonitored o b := by
    rw [State.takeAudioOn_eq, hocfg, hvalid, hair, if_neg (by simpa using hdark), if_pos hfeed]
  have hcfg' : (u.takeOwnFeed o h b).cfg = a.cfg := (State.takeOwnFeed_cfg u o h b).trans hcfg
  generalize u.takeOwnFeed o h b = v at hj' hview hheard hon hcfg'
  have hmoves : State.Moves true v (a.audioTaken h b) := by
    rw [htaken, hon]
    have h0 : State.Moves true v ((v.takeFollowed o h b).takeMonitored o b) :=
      State.takeMonitored_moves (State.takeFollowed_moves .refl o h b) o b
    generalize (v.takeFollowed o h b).takeMonitored o b = w at h0
    clear htaken hon
    induction m generalizing w with
    | nil => exact h0
    | cons p m ih =>
      refine ih (fun q hq => hm q (List.mem_cons_of_mem p hq)) _ (State.takeAudioOn_moves_other h0 p h b fun hvp hfp => ?_)
      have hcw : w.ocfg p = a.ocfg p := by
        rw [State.ocfg, State.ocfg, ← hcfg']
        exact congrArg (fun x : _ × _ × _ × UnitCfg × _ => x.2.2.2.1.outlets.get p) h0.base
      rw [hcw] at hvp hfp
      exact hm p List.mem_cons_self (halone p hvp hfp)
  generalize a.audioTaken h b = w at hmoves
  have href : State.Moves false w (w.takeReference b.feed b.frameTime h.sentAt h.sender phase) := State.takeReference_moves .refl ..
  have hrf := w.takeReference_fixed b.feed b.frameTime h.sentAt h.sender phase o
  dsimp only
  generalize w.takeReference b.feed b.frameTime h.sentAt h.sender phase = x at href hrf
  obtain ⟨y, l, hy, he⟩ := x.finish_eq a
  rw [he]
  have hfix : (y.out o).fixed = (v.out o).fixed := (hy.fixed o).trans (hrf.trans (hmoves.fixed o))
  obtain ⟨h1, h2, -⟩ := Outlet.fixed_iff.1 hfix
  exact ⟨hj'.after hfix fun f hf => hy.firsts .air f (href.firsts .air f (hmoves.firsts .air f hf)), h1.trans hview, h2.trans hheard⟩

end Sys2Proof.Machine
end

section
/-! Shadow advance (R18): disarming, the entries that are passed, and the shadow lead. -/

namespace Sys2Proof.Machine

/-! ### Outlets alike but for what grants change -/

theorem Outlet.core_entries {x y : Outlet} (h : x.core = y.core) : x.entries.map Entry.core = y.entries.map Entry.core :=
  (congrArg Outlet.entries h : _)

theorem Outlet.core_seqSlot {x y : Outlet} (h : x.core = y.core) : x.seqSlot = y.seqSlot := (congrArg Outlet.seqSlot h : _)

theorem Outlet.core_airOrder {x y : Outlet} (h : x.core = y.core) : x.airOrder = y.airOrder := (congrArg Outlet.airOrder h : _)

theorem entries_tags {l m : List Entry} (h : l.map Entry.core = m.map Entry.core) : l.map Entry.tag = m.map Entry.tag := by
  have := congrArg (List.map Entry.tag) h
  simpa only [List.map_map, Function.comp_def, Entry.core] using this

theorem Outlet.entry_core (x : Outlet) (tag : Nat) :
    (x.entry tag).map Entry.core = (x.entries.map Entry.core).find? fun e => e.tag == tag := by
  rw [Outlet.entry, List.find?_map]
  rfl

/-! ### Disarming (R8) -/

/-- An outlet with an entry disarmed, as its slots show it. -/
def Outlet.unslot (x : Outlet) (tag : Nat) : Outlet :=
  { x.modEntry tag (fun e => if e.state = .armed then { e with state := .queued } else e) with
    seqSlot := x.seqSlot.filter fun t => t != tag, anchorSlot := x.anchorSlot.filter fun t => t != tag }

theorem State.unprepare_eq (s : State) (o : OutletId) (tag : Nat) : ∃ u, State.Serves o s u ∧
    s.unprepare o tag = (u.modOut o fun x => x.unslot tag).giveUp o (.entry tag) := by
  have hcancel : ∀ p, State.Serves o s (s.cancelCue o p) := fun p => by
    unfold State.cancelCue
    split
    · exact .refl o s
    · split
      · rename_i b _ _
        obtain ⟨l, e, -⟩ := State.send_rest s (.cue { feed := (s.ocfg o).feed, tag := b.tag, start := b.cueStart, len := b.len, cancel := 1 })
        rw [State.sendCue, e]
        exact State.Serves.modFit (s := { s with sent := s.sent ++ l }) ((State.Serves.refl o s).beside rfl rfl rfl rfl rfl rfl) o p _
      · exact .refl o s
  unfold State.unprepare
  dsimp only
  split
  · exact ⟨_, (hcancel _).releaseFit o _, rfl⟩
  · exact ⟨s, .refl o s, rfl⟩

/-! ### Changes about one entry -/

/-- From `a` to `s` no more has changed about the entries of an outlet than those of one tag; slots were only given up, and no ENTRY record
was written. -/
structure State.Touches (o : OutletId) (tag : Nat) (a s : State) : Prop where
  log : ∃ rs, a.log.Wrote s.log rs ∧ ∀ r ∈ rs, r.source ≠ .entry
  tags : (s.out o).entries.map Entry.tag = (a.out o).entries.map Entry.tag
  others : ((s.out o).entries.map Entry.core).filter (fun e => e.tag != tag) = ((a.out o).entries.map Entry.core).filter fun e => e.tag != tag
  slot : ∀ q, (s.out o).seqSlot = some q → (a.out o).seqSlot = some q
  queue : s.voiceQueue.Sublist a.voiceQueue
  kept : ∀ t, t ≠ tag → a.Unasked o t → (s.out o).entry t = (a.out o).entry t

section touches
variable {o : OutletId} {tag : Nat} {a s t : State}

theorem State.Touches.refl (o : OutletId) (tag : Nat) (a : State) : State.Touches o tag a a :=
  ⟨⟨[], .refl _, fun _ h => nomatch h⟩, rfl, rfl, fun _ h => h, List.Sublist.refl _, fun _ _ _ => rfl⟩

theorem State.Touches.unasked (h : State.Touches o tag a s) {t : Nat} (ht : t ≠ tag) (hu : a.Unasked o t) : s.Unasked o t :=
  fun r hr ho hh e he => hu r (h.queue.subset hr) ho hh e ((h.kept t ht hu).symm.trans he)

theorem State.Touches.trans (h : State.Touches o tag a s) (h' : State.Touches o tag s t) : State.Touches o tag a t := by
  obtain ⟨r1, w1, n1⟩ := h.log
  obtain ⟨r2, w2, n2⟩ := h'.log
  refine ⟨⟨r1 ++ r2, w1.trans w2, fun r hr => (List.mem_append.1 hr).elim (n1 r) (n2 r)⟩, h'.tags.trans h.tags, h'.others.trans h.others,
    fun q hq => h.slot q (h'.slot q hq), h'.queue.trans h.queue, fun u hu ha => (h'.kept u hu (h.unasked hu ha)).trans (h.kept u hu ha)⟩

theorem State.Serves.touches (h : State.Serves o a s) (tag : Nat) : State.Touches o tag a s :=
  ⟨⟨[], by rw [h.log]; exact .refl _, fun _ h => nomatch h⟩, entries_tags (Outlet.core_entries h.core), by rw [Outlet.core_entries h.core],
    fun q hq => (Outlet.core_seqSlot h.core).symm.trans hq, h.queue, fun t _ hu => h.kept t hu⟩

/-- A change of the outlet that leaves its entries. -/
theorem State.Touches.modOut_same (s : State) (o : OutletId) (tag : Nat) (f : Outlet → Outlet) (he : (f (s.out o)).entries = (s.out o).entries)
    (hs : ∀ q, (f (s.out o)).seqSlot = some q → (s.out o).seqSlot = some q) : State.Touches o tag s (s.modOut o f) := by
  refine ⟨⟨[], .refl _, fun _ h => nomatch h⟩, ?_, ?_, ?_, List.Sublist.refl _, fun t _ _ => ?_⟩
  · rw [State.modOut_out, he]
  · rw [State.modOut_out, he]
  · rw [State.modOut_out]
    exact hs
  · rw [State.modOut_out, Outlet.entry, Outlet.entry, he]

/-- A change of the entries of the tag. -/
theorem State.Touches.modOut_entry (s : State) (o : OutletId) (tag : Nat) (g : Outlet → Outlet) (f : Entry → Entry)
    (he : (g (s.out o)).entries = ((s.out o).modEntry tag f).entries) (hf : ∀ e, (f e).tag = e.tag)
    (hs : ∀ q, (g (s.out o)).seqSlot = some q → (s.out o).seqSlot = some q) : State.Touches o tag s (s.modOut o g) := by
  refine ⟨⟨[], .refl _, fun _ h => nomatch h⟩, ?_, ?_, ?_, List.Sublist.refl _, fun t ht _ => ?_⟩
  · rw [State.modOut_out, he, Outlet.modEntry, List.map_map]
    refine List.map_congr_left fun e _ => ?_
    simp only [Function.comp]
    split
    · exact hf e
    · rfl
  · have hfc : ∀ l : List Entry, (l.map Entry.core).filter (fun e => e.tag != tag) = (l.filter fun e => e.tag != tag).map Entry.core := fun l => by
      rw [List.filter_map]
      rfl
    rw [State.modOut_out, he, hfc, hfc, Outlet.modEntry_filter _ _ _ hf]
  · rw [State.modOut_out]
    exact hs
  · rw [State.modOut_out, Outlet.entry, he]
    exact Outlet.entry_modEntry_ne ht hf

theorem State.Touches.unprepare (s : State) (o : OutletId) (tag : Nat) : State.Touches o tag s (s.unprepare o tag) := by
  obtain ⟨u, hu, e⟩ := s.unprepare_eq o tag
  rw [e]
  refine ((hu.touches tag).trans (.modOut_entry u o tag _ (fun e => if e.state = .armed then { e with state := .queued } else e) rfl
    (fun e => by split <;> rfl) fun q hq => ?_)).trans (((State.Serves.refl o _).giveUp o _).touches tag)
  exact (Option.filter_eq_some_iff.1 hq).1

theorem State.Touches.disarm (s : State) (o : OutletId) (tag : Nat) : State.Touches o tag s (s.disarm o tag) :=
  (State.Touches.unprepare s o tag).trans
    (.modOut_entry (s.unprepare o tag) o tag (fun x => x.modEntry tag Entry.requeue) Entry.requeue rfl (fun _ => rfl) fun _ h => h)

theorem State.Touches.requeueShadow (s : State) (o : OutletId) (tag : Nat) : State.Touches o tag s (s.requeueShadow o tag) :=
  (State.Touches.disarm s o tag).trans (.modOut_same _ o tag _ rfl fun _ h => h)

end touches

/-- Disarming leaves the order of the ON_AIR entries. -/
theorem State.disarm_airOrder (s : State) (o : OutletId) (tag : Nat) : ((s.disarm o tag).out o).airOrder = (s.out o).airOrder := by
  obtain ⟨u, hu, e⟩ := s.unprepare_eq o tag
  have hg : State.Serves o (u.modOut o fun x => x.unslot tag) (s.unprepare o tag) := by
    rw [e]
    exact (State.Serves.refl o _).giveUp o _
  have h1 : ((s.unprepare o tag).out o).airOrder = (u.out o).airOrder := by
    rw [Outlet.core_airOrder hg.core, State.modOut_out]
    rfl
  rw [State.disarm, State.modEntry, State.modOut_out]
  exact h1.trans (Outlet.core_airOrder hu.core)

/-- A disarmed entry is QUEUED. -/
theorem State.disarm_queued {s : State} {o : OutletId} {tag : Nat} :
    ∀ e ∈ ((s.disarm o tag).out o).entries, e.tag = tag → e.state = .queued := by
  intro e he ht
  rw [State.disarm, State.modEntry, State.modOut_out, Outlet.modEntry, List.mem_map] at he
  obtain ⟨d, -, rfl⟩ := he
  split
  · rfl
  · rename_i hd
    rw [if_neg hd] at ht
    exact absurd (by simpa using ht) hd

section touches
variable {o : OutletId} {tag : Nat} {a s : State}

theorem find_filter_ne {l : List Entry} {t : Nat} (h : t ≠ tag) :
    ((l.filter fun e => e.tag != tag).find? fun e => e.tag == t) = l.find? fun e => e.tag == t := by
  rw [List.find?_filter]
  congr 1
  funext e
  by_cases he : e.tag = t
  · simp [he, h]
  · simp [he]

theorem State.Touches.entry (h : State.Touches o tag a s) {t : Nat} (ht : t ≠ tag) {e : Entry} (he : (a.out o).entry t = some e) :
    ∃ d, (s.out o).entry t = some d ∧ d.core = e.core := by
  have hc : ((s.out o).entry t).map Entry.core = some e.core := by
    rw [Outlet.entry_core, ← find_filter_ne ht, h.others, find_filter_ne ht, ← Outlet.entry_core, he]
    rfl
  exact Option.map_eq_some_iff.1 hc

theorem State.Touches.mem (h : State.Touches o tag a s) {y : Entry} (hy : y ∈ (s.out o).entries) (ht : y.tag ≠ tag) :
    ∃ x ∈ (a.out o).entries, x.core = y.core := by
  have : y.core ∈ ((s.out o).entries.map Entry.core).filter fun e => e.tag != tag :=
    List.mem_filter.2 ⟨List.mem_map_of_mem hy, by simpa [Entry.core] using ht⟩
  rw [h.others] at this
  obtain ⟨x, hx, e⟩ := List.mem_map.1 (List.mem_filter.1 this).1
  exact ⟨x, hx, e⟩

/-- The entry of the tag is still there. -/
theorem State.Touches.still (h : State.Touches o tag a s) {t : Nat} {e : Entry} (he : (a.out o).entry t = some e) :
    ∃ d, (s.out o).entry t = some d := by
  have ht : t ∈ (a.out o).entries.map Entry.tag := List.mem_map.2 ⟨e, Outlet.entry_mem he, Outlet.entry_tag he⟩
  rw [← h.tags] at ht
  obtain ⟨d, hd, hdt⟩ := List.mem_map.1 ht
  exact Option.isSome_iff_exists.1 (Outlet.entry_isSome.2 ⟨d, hd, hdt⟩)

end touches

/-! ### Entries passed (R18, R66) -/

/-- From `a` to `s` an entry has left AIRED_ELSEWHERE, and no more of the others has changed than grants change. -/
structure State.Passes (o : OutletId) (tags : List Nat) (a s : State) : Prop where
  log : ∃ rs, a.log.Wrote s.log rs ∧ (rs.filter fun r => r.source == .entry).map (fun r => (r.outlet, r.entryTag, r.outcome)) =
    tags.map fun t => (o, some t, Outcome.airedElsewhere)
  entries : (s.out o).entries.map Entry.core = ((a.out o).entries.map Entry.core).filter fun e => !tags.contains e.tag
  slot : ∀ q, (s.out o).seqSlot = some q → (a.out o).seqSlot = some q
  queue : s.voiceQueue.Sublist a.voiceQueue
  kept : ∀ t, t ∉ tags → a.Unasked o t → (s.out o).entry t = (a.out o).entry t

theorem State.record_other {s : State} {o : OutletId} (r : Record) (k : Option AirKey) (hr : r.source ≠ .entry) (tag : Nat) :
    State.Touches o tag s (s.record o r k) := by
  obtain ⟨l, tl, e, q, hw, hq⟩ := s.record_eq o r k
  rw [e]
  obtain ⟨-, hsrc, -⟩ := Record.field_of_unnumbered hq
  refine ⟨⟨[q], hw, fun x hx => ?_⟩, ?_, ?_, ?_, List.Sublist.refl _, fun t _ _ => ?_⟩
  · rw [List.mem_singleton.1 hx, hsrc]
    exact hr
  all_goals rw [State.setOut_out]
  · exact fun _ h => h
  · rfl

theorem ItemRole.source_ne (r : ItemRole) : r.source ≠ .entry := by cases r <;> decide

theorem breakRecords_source (b : FittedBreak) (p : Place) (d : Time) : ∀ r ∈ breakRecords b p d, r.1.source ≠ .entry := by
  intro r hr
  simp only [breakRecords, List.mem_append, List.mem_map, List.mem_flatMap] at hr
  rcases hr with (⟨x, -, rfl⟩ | ⟨x, -, hx⟩) | hx
  · exact fun h => nomatch (show Source.spot = .entry from h)
  · rcases List.mem_cons.1 hx with rfl | hx
    · exact ItemRole.source_ne _
    · split at hx
      · rw [List.mem_singleton.1 hx]
        exact fun h => nomatch (show Source.bed = .entry from h)
      · cases hx
  · split at hx
    · rw [List.mem_singleton.1 hx]
      exact fun h => nomatch (show Source.bed = .entry from h)
    · cases hx

theorem State.Touches.recordAll (s : State) (o : OutletId) (tag : Nat) (l : List (Record × Option AirKey)) (hl : ∀ r ∈ l, r.1.source ≠ .entry) :
    State.Touches o tag s (s.recordAll o l) := by
  unfold State.recordAll
  induction l generalizing s with
  | nil => exact .refl o tag s
  | cons r l ih =>
    exact (s.record_other r.1 r.2 (hl r List.mem_cons_self) tag).trans (ih _ fun x hx => hl x (List.mem_cons_of_mem r hx))

/-- A shadow break that is closed writes no ENTRY record, and its entry stays (R66, R68). -/
theorem State.Touches.closeShadow (s : State) (o : OutletId) (p : Place) (mark : FittedBreak → FittedBreak) {tag : Nat}
    (ht : ∀ b, (s.out o).place p = some b → b.entryTag = some tag) : State.Touches o tag s (s.closeShadow o p mark) := by
  have hclose : ∀ u : State, State.Touches o tag u (u.closeFit o p) := fun u => by
    have hw : State.Touches o tag u (u.writeBreak o p) := by
      unfold State.writeBreak
      split
      · exact .refl o tag u
      · rename_i b _
        exact (State.Touches.recordAll u o tag _ (breakRecords_source b p _)).trans
          (.modOut_same _ o tag (fun x => { x with spots := x.spots.filter fun l => l.tag != b.tag }) rfl fun _ h => h)
    exact hw.trans (.modOut_same _ o tag (fun x => x.vacate p) (by cases p <;> rfl) fun q h => by cases p <;> exact h)
  unfold State.closeShadow
  split
  · exact .refl o tag s
  · rename_i b hb
    have h := ((((State.Serves.refl o s).modFit o p mark).touches tag).trans (hclose _)).trans
      (((State.Serves.refl o _).giveUpWhere o (Holder.ofPlace p)).touches tag)
    dsimp only
    split
    · rename_i t htag _
      obtain rfl : t = tag := Option.some.inj (htag.symm.trans (ht b hb))
      exact h.trans (.modOut_entry _ o t _ (fun e => { e with air := { e.air with underfill := some b.tailAired } }) rfl (fun _ => rfl)
        fun _ h => h)
    · exact h

theorem Outlet.fitOf_entryTag {x : Outlet} {tag : Nat} {p : Place} (h : x.fitOf tag = some p) : ∃ b, x.place p = some b ∧ b.entryTag = some tag := by
  have hm := List.mem_of_head? h
  obtain ⟨b, hb, ht⟩ := Outlet.mem_placesWhere.1 hm
  exact ⟨b, hb, by simpa using ht⟩

/-- An entry leaves AIRED_ELSEWHERE after what has touched it alone. -/
theorem State.Touches.leaves {o : OutletId} {tag : Nat} {a s : State} (h : State.Touches o tag a s) {d : Entry}
    (hd : (s.out o).entry tag = some d) (rep : VoiceReport) (n : Nat) (under : Option Nat) :
    State.Passes o [tag] a (s.leaveEntry o tag .airedElsewhere rep n under) := by
  obtain ⟨l, tl, e, q, hw, hq⟩ := State.leaveEntry_eq hd .airedElsewhere rep n under
  obtain ⟨ho, hsrc, hout, htag, -⟩ := Record.field_of_unnumbered hq
  obtain ⟨rs, hrs, hne⟩ := h.log
  rw [e]
  have hentries : ∀ l : List Entry, (l.map Entry.core).filter (fun e => !([tag].contains e.tag)) = (l.map Entry.core).filter fun e => e.tag != tag :=
    fun l => List.filter_congr fun e _ => by
      rw [List.contains_cons, List.contains_nil, Bool.or_false]
      rfl
  refine ⟨⟨rs ++ [q], hrs.trans hw, ?_⟩, ?_, ?_, h.queue, fun t ht hu => ?_⟩
  · have hnil : rs.filter (fun r => r.source == .entry) = [] := List.filter_eq_nil_iff.2 fun r hr => by simpa using hne r hr
    have hsrc' : q.source = .entry := hsrc
    rw [List.filter_append, hnil, List.nil_append, List.filter_cons_of_pos (by simp [hsrc'])]
    simp only [List.filter_nil, List.map_cons, List.map_nil, ho, hout, htag]
    rw [show (entryRecord d .airedElsewhere rep n under).entryTag = some d.tag from rfl, Outlet.entry_tag hd]
    rfl
  all_goals rw [State.setOut_out]
  · rw [hentries, ← h.others, List.filter_map]
    rfl
  · intro q' hq'
    exact h.slot q' (Option.filter_eq_some_iff.1 hq').1
  · have ht' : t ≠ tag := by simpa using ht
    rw [← h.kept t ht' hu]
    exact find_filter_ne ht'

/-- An entry on the air elsewhere leaves, giving up what it holds. -/
theorem State.Touches.endsBreakEntry {o : OutletId} {tag : Nat} {a s : State} (h : State.Touches o tag a s) {e : Entry}
    (he : (a.out o).entry tag = some e) (n : Nat) (under : Option Nat) :
    State.Passes o [tag] a ((s.giveUp o (.entry tag)).endBreakEntry o tag .airedElsewhere n under) := by
  have hg := h.trans (((State.Serves.refl o s).giveUp o (.entry tag)).touches tag)
  have ht : State.Touches o tag a ((s.giveUp o (.entry tag)).tallyStop o (.entry tag)) :=
    hg.trans (.modOut_same _ o tag _ rfl fun _ h => h)
  obtain ⟨d, hd⟩ := ht.still he
  exact ht.leaves hd _ _ _

theorem State.passEntry_passes {s : State} {o : OutletId} {tag : Nat} {e : Entry} (h : (s.out o).entry tag = some e) :
    State.Passes o [tag] s (s.passEntry o tag) := by
  unfold State.passEntry
  rw [h]
  dsimp only
  split
  · split
    · rename_i p hp
      obtain ⟨b, hb, ht⟩ := Outlet.fitOf_entryTag hp
      refine State.Touches.endsBreakEntry (.closeShadow s o p _ fun c hc => ?_) h _ _
      obtain rfl : b = c := Option.some.inj (hb.symm.trans hc)
      exact ht
    · exact (State.Touches.refl o tag s).endsBreakEntry h _ _
  · unfold State.leaveUnbegun
    rw [h]
    dsimp only
    have hu : State.Touches o tag s (if (e.state == .armed) = true then s.unprepare o tag else s) := by
      split
      · exact .unprepare s o tag
      · exact .refl o tag s
    obtain ⟨d, hd⟩ := hu.still h
    exact hu.leaves hd _ _ _

theorem State.Passes.trans {o : OutletId} {l m : List Nat} {a s t : State} (h : State.Passes o l a s) (h' : State.Passes o m s t) :
    State.Passes o (l ++ m) a t := by
  obtain ⟨r1, w1, e1⟩ := h.log
  obtain ⟨r2, w2, e2⟩ := h'.log
  refine ⟨⟨r1 ++ r2, w1.trans w2, by rw [List.filter_append, List.map_append, e1, e2, List.map_append]⟩, ?_, fun q hq => h.slot q (h'.slot q hq),
    h'.queue.trans h.queue, fun t ht hu => ?_⟩
  · rw [h'.entries, h.entries, List.filter_filter]
    refine List.filter_congr fun e _ => ?_
    rw [List.contains_append, Bool.not_or, Bool.and_comm]
  · rw [List.mem_append, not_or] at ht
    have hs := h.kept t ht.1 hu
    exact (h'.kept t ht.2 fun r hr ho hh e he => hu r (h.queue.subset hr) ho hh e (hs.symm.trans he)).trans hs

theorem State.Passes.refl (o : OutletId) (a : State) : State.Passes o [] a a :=
  ⟨⟨[], .refl _, rfl⟩, by simp, fun _ h => h, List.Sublist.refl _, fun _ _ _ => rfl⟩

/-- The entries before the named one are passed one after the other (R18). -/
theorem State.passEntries_passes {o : OutletId} (pre : List Entry) {a s : State} {l : List Nat} (h : State.Passes o l a s)
    (hp : ∀ d ∈ pre, ∃ e, (a.out o).entry d.tag = some e) (hn : (l ++ pre.map Entry.tag).Nodup) :
    State.Passes o (l ++ pre.map Entry.tag) a (pre.foldl (fun s d => s.passEntry o d.tag) s) := by
  induction pre generalizing s l with
  | nil => simpa using h
  | cons d pre ih =>
    obtain ⟨e, he⟩ := hp d List.mem_cons_self
    have hd : d.tag ∉ l := fun hm => by
      have := (List.nodup_append.1 hn).2.2 d.tag hm d.tag (by simp)
      exact this rfl
    have ht : e.tag = d.tag := Outlet.entry_tag he
    have hs : ∃ c, (s.out o).entry d.tag = some c := by
      have hm : (e.core) ∈ (s.out o).entries.map Entry.core := by
        rw [h.entries]
        refine List.mem_filter.2 ⟨List.mem_map_of_mem (Outlet.entry_mem he), ?_⟩
        rw [show e.core.tag = d.tag from ht]
        simpa using hd
      obtain ⟨c, hc, hce⟩ := List.mem_map.1 hm
      refine Option.isSome_iff_exists.1 (Outlet.entry_isSome.2 ⟨c, hc, ?_⟩)
      exact (congrArg Entry.tag hce : c.core.tag = e.core.tag).trans ht
    obtain ⟨c, hc⟩ := hs
    have h1 := h.trans (State.passEntry_passes hc)
    rw [List.foldl_cons, List.map_cons, List.append_cons]
    refine ih h1 (fun x hx => hp x (List.mem_cons_of_mem d hx)) ?_
    rwa [List.map_cons, List.append_cons] at hn

/-! ### The shadow lead (R18, R66) -/

/-- An outlet with an entry as its lead (R25). -/
def Outlet.led (x : Outlet) (tag : Nat) : Outlet :=
  { x.modEntry tag fun e => { e with state := .onAir, air := .empty } with
    seqSlot := x.seqSlot.filter fun t => t != tag
    anchorSlot := x.anchorSlot.filter fun t => t != tag
    inherit := none
    airOrder := tag :: x.airOrder.filter fun t => t != tag }

theorem State.makeLead_eq {s : State} {o : OutletId} {tag : Nat} {e : Entry} (he : (s.out o).entry tag = some e) (hl : e.lost = false) :
    s.makeLead o tag = s.modOut o fun x => x.led tag := by
  rw [State.makeLead, he, if_pos (by simp [hl])]
  rfl

theorem Outlet.led_entry {x : Outlet} {tag : Nat} {e : Entry} (he : x.entry tag = some e) :
    (x.led tag).entry tag = some { e with state := .onAir, air := .empty } := by
  have := Outlet.entry_modEntry x tag (fun e => { e with state := .onAir, air := .empty }) fun _ => rfl
  rw [he] at this
  exact this

/-- The named entry as the shadow lead. -/
def Entry.shadowed (e : Entry) (f : FramePlace) : Entry :=
  { e with state := .onAir, air := { EntryAir.empty with start := some (f.time - f.entryOffset) } }

/-- An entry that has not begun, awaits no grant and has its version becomes the shadow lead. -/
theorem State.shadowLead_leads {s : State} {o : OutletId} {e : Entry} (he : (s.out o).entry e.tag = some e) (hu : s.Unasked o e.tag)
    (hl : e.lost = false) (f : FramePlace) :
    State.Touches o e.tag s (s.shadowLead o e f) ∧ ((s.shadowLead o e f).out o).entry e.tag = some (e.shadowed f) ∧
      ((s.shadowLead o e f).out o).seqSlot ≠ some e.tag := by
  have hprep : ∃ u, State.Serves o s u ∧ s.shadowLead o e f =
      (u.makeLead o e.tag).modEntry o e.tag fun e => { e with air := { EntryAir.empty with start := some (f.time - f.entryOffset) } } := by
    unfold State.shadowLead
    dsimp only
    split
    · exact ⟨_, (State.Serves.refl o s).giveUp o _, rfl⟩
    · split
      · exact ⟨_, (State.Serves.refl o s).shadowFit o _ _, rfl⟩
      · split
        · exact ⟨_, ((State.Serves.refl o s).fitEntry o _ _ _ _).shadowFit o _ _, rfl⟩
        · exact ⟨s, .refl o s, rfl⟩
  obtain ⟨u, hus, h⟩ := hprep
  have heu : (u.out o).entry e.tag = some e := (hus.kept e.tag hu).trans he
  rw [h, State.makeLead_eq heu hl]
  have h1 : State.Touches o e.tag u (u.modOut o fun x => x.led e.tag) :=
    .modOut_entry u o e.tag _ (fun e => { e with state := .onAir, air := .empty }) rfl (fun _ => rfl) fun q hq =>
      (Option.filter_eq_some_iff.1 hq).1
  have h2 : ((u.modOut o fun x => x.led e.tag).out o).entry e.tag = some { e with state := .onAir, air := .empty } := by
    rw [State.modOut_out]
    exact Outlet.led_entry heu
  have h3 : ((u.modOut o fun x => x.led e.tag).out o).seqSlot ≠ some e.tag := by
    rw [State.modOut_out]
    intro hq
    simpa using (Option.filter_eq_some_iff.1 (show (u.out o).seqSlot.filter (fun t => t != e.tag) = some e.tag from hq)).2
  generalize (u.modOut o fun x => x.led e.tag) = w at h1 h2 h3
  refine ⟨((hus.touches e.tag).trans h1).trans (.modOut_entry w o e.tag _
    (fun e => { e with air := { EntryAir.empty with start := some (f.time - f.entryOffset) } }) rfl (fun _ => rfl) fun _ h => h), ?_, ?_⟩
  · have := Outlet.entry_modEntry (w.out o) e.tag (fun e => { e with air := { EntryAir.empty with start := some (f.time - f.entryOffset) } })
      fun _ => rfl
    rw [h2] at this
    rw [State.modEntry, State.modOut_out, this]
    rfl
  · rw [State.modEntry, State.modOut_out]
    exact h3

/-! ### Shadow advance (R18) -/

/-- What a state shows of an outlet once the entry a frame names is the one ON_AIR entry: its list begins with it, and it no longer stands
in the sequence slot. -/
structure State.Follows (o : OutletId) (tag : Nat) (tags : List Nat) (c : Entry) (s : State) : Prop where
  tags : (s.out o).entries.map Entry.tag = tags
  lead : ∃ e, (s.out o).entry tag = some e ∧ e.core = c
  slot : (s.out o).seqSlot ≠ some tag

theorem State.Follows.touches {o : OutletId} {tag t : Nat} {tags : List Nat} {c : Entry} {s u : State} (h : State.Follows o tag tags c s)
    (hu : State.Touches o t s u) (ht : tag ≠ t) : State.Follows o tag tags c u := by
  obtain ⟨e, he, hc⟩ := h.lead
  obtain ⟨d, hd, hdc⟩ := hu.entry ht he
  exact ⟨hu.tags.trans h.tags, ⟨d, hd, hdc.trans hc⟩, fun hq => h.slot (hu.slot _ hq)⟩

/-- The other ON_AIR entries go back to QUEUED (R18, R3). -/
theorem State.requeueShadows {o : OutletId} {tag : Nat} {tags : List Nat} {c : Entry} (l : List Entry) {s : State}
    (h : State.Follows o tag tags c s) (hl : ∀ d ∈ l, d.tag ≠ tag)
    (ha : ∀ d ∈ (s.out o).entries, d.tag ≠ tag → d.state = .onAir → d.tag ∈ l.map Entry.tag) :
    let t := l.foldl (fun s d => s.requeueShadow o d.tag) s
    State.Follows o tag tags c t ∧ (∀ d ∈ (t.out o).entries, d.tag ≠ tag → d.state ≠ .onAir) ∧
      ∃ rs, s.log.Wrote t.log rs ∧ ∀ r ∈ rs, r.source ≠ .entry := by
  induction l generalizing s with
  | nil => exact ⟨h, fun d hd hdt hs => absurd (ha d hd hdt hs) (by simp), [], .refl _, fun _ h => nomatch h⟩
  | cons x l ih =>
    have hx : State.Touches o x.tag s (s.requeueShadow o x.tag) := .requeueShadow s o x.tag
    have hq : ∀ d ∈ ((s.requeueShadow o x.tag).out o).entries, d.tag = x.tag → d.state = .queued := by
      intro d hd
      rw [State.requeueShadow, State.modOut_out] at hd
      exact State.disarm_queued d hd
    obtain ⟨h1, h2, rs, h3, h4⟩ := ih (h.touches hx (Ne.symm (hl x List.mem_cons_self))) (fun d hd => hl d (List.mem_cons_of_mem x hd))
      fun d hd hdt hs => by
        by_cases hdx : d.tag = x.tag
        · exact absurd ((hq d hd hdx).symm.trans hs) (by decide)
        · obtain ⟨y, hy, hyc⟩ := hx.mem hd hdx
          have hyt : y.tag = d.tag := (congrArg Entry.tag hyc : y.core.tag = d.core.tag)
          have hys : y.state = d.state := (congrArg Entry.state hyc : y.core.state = d.core.state)
          rcases List.mem_cons.1 (ha y hy (hyt ▸ hdt) (hys.trans hs)) with hm | hm
          · exact absurd (hyt.symm.trans hm) hdx
          · exact hyt ▸ hm
    obtain ⟨qs, h5, h6⟩ := hx.log
    exact ⟨h1, h2, qs ++ rs, h5.trans h3, fun r hr => (List.mem_append.1 hr).elim (h6 r) (h4 r)⟩

theorem entriesBefore_eq {pre post : List Entry} {e : Entry} (hn : ((pre ++ e :: post).map Entry.tag).Nodup) :
    entriesBefore (pre ++ e :: post) e.tag = pre := by
  have hpre : ∀ d ∈ pre, (d.tag != e.tag) = true := fun d hd => by
    rw [List.map_append, List.nodup_append] at hn
    simpa using hn.2.2 d.tag (List.mem_map_of_mem hd) e.tag (by simp)
  rw [entriesBefore, List.takeWhile_append_of_pos hpre, List.takeWhile_cons_of_neg (by simp), List.append_nil]

theorem Outlet.entry_of_split {x : Outlet} {pre post : List Entry} {e : Entry} (hx : x.entries = pre ++ e :: post)
    (hn : (x.entries.map Entry.tag).Nodup) : x.entry e.tag = some e := by
  rw [Outlet.entry, hx, List.find?_append, List.find?_eq_none.2, Option.none_or, List.find?_cons_of_pos (by simp)]
  intro d hd
  rw [hx, List.map_append, List.nodup_append] at hn
  simpa using hn.2.2 d.tag (List.mem_map_of_mem hd) e.tag (by simp)

/-- The entries before the named one have left, and what comes after them is as it was but for what grants change. -/
theorem passed_core {pre post : List Entry} {e : Entry} (hn : ((pre ++ e :: post).map Entry.tag).Nodup) :
    (((pre ++ e :: post).map Entry.core).filter fun d => !(pre.map Entry.tag).contains d.tag) = (e :: post).map Entry.core := by
  rw [List.map_append, List.filter_append]
  have h1 : ((pre.map Entry.core).filter fun d => !(pre.map Entry.tag).contains d.tag) = [] := by
    refine List.filter_eq_nil_iff.2 fun d hd => ?_
    obtain ⟨c, hc, rfl⟩ := List.mem_map.1 hd
    have : c.core.tag ∈ pre.map Entry.tag := List.mem_map_of_mem (f := Entry.tag) (a := c) hc
    simpa using this
  have h2 : (((e :: post).map Entry.core).filter fun d => !(pre.map Entry.tag).contains d.tag) = (e :: post).map Entry.core := by
    refine List.filter_eq_self.2 fun d hd => ?_
    obtain ⟨c, hc, rfl⟩ := List.mem_map.1 hd
    rw [List.map_append, List.nodup_append] at hn
    have : c.core.tag ∉ pre.map Entry.tag := fun hm => hn.2.2 _ hm c.core.tag (List.mem_map_of_mem (f := Entry.tag) (a := c) hc) rfl
    simpa using this
  rw [h1, h2, List.nil_append]

/-- What the named entry is once it leads: itself if it was ON_AIR, else the shadow lead. -/
def Entry.leads (e : Entry) (f : FramePlace) : Entry := if e.state = .onAir then e else e.shadowed f

/-- The entry a frame names becomes the one ON_AIR entry and the lead; those before it leave AIRED_ELSEWHERE. -/
structure State.Advanced (o : OutletId) (e : Entry) (pre post : List Entry) (f : FramePlace) (s t : State) : Prop where
  follows : State.Follows o e.tag ((e :: post).map Entry.tag) (e.leads f).core t
  lead : (t.out o).leadTag = some e.tag
  others : ∀ d ∈ (t.out o).entries, d.tag ≠ e.tag → d.state ≠ .onAir
  log : ∃ rs, s.log.Wrote t.log rs ∧ (rs.filter fun r => r.source == .entry).map (fun r => (r.outlet, r.entryTag, r.outcome)) =
    pre.map fun d => (o, some d.tag, Outcome.airedElsewhere)

theorem filter_entry_eq_nil {rs : List Record} (h : ∀ r ∈ rs, r.source ≠ .entry) : rs.filter (fun r => r.source == .entry) = [] :=
  List.filter_eq_nil_iff.2 fun r hr => by simpa using h r hr

/-- What the sequence slot holds is disarmed. -/
theorem State.Advanced.disarm {o : OutletId} {e : Entry} {pre post : List Entry} {f : FramePlace} {s w : State}
    (h : State.Advanced o e pre post f s w) {q : Nat} (hq : (w.out o).seqSlot = some q) : State.Advanced o e pre post f s (w.disarm o q) := by
  have hqe : e.tag ≠ q := fun he => h.follows.slot (he ▸ hq)
  have hdis : State.Touches o q w (w.disarm o q) := .disarm w o q
  refine ⟨h.follows.touches hdis hqe, ?_, fun y hy hyt hs => ?_, ?_⟩
  · rw [Outlet.leadTag, w.disarm_airOrder o q]
    exact h.lead
  · by_cases hyq : y.tag = q
    · exact absurd ((State.disarm_queued y hy hyq).symm.trans hs) (by decide)
    · obtain ⟨x, hx, hxc⟩ := hdis.mem hy hyq
      exact h.others x hx ((congrArg Entry.tag hxc : x.core.tag = y.core.tag).trans_ne hyt)
        ((congrArg Entry.state hxc : x.core.state = y.core.state).trans hs)
  · obtain ⟨rs, hw, hm⟩ := h.log
    obtain ⟨qs, hw', hm'⟩ := hdis.log
    refine ⟨rs ++ qs, hw.trans hw', ?_⟩
    rw [List.filter_append, filter_entry_eq_nil hm', List.append_nil, hm]

theorem State.shadowAdvance_advances {s : State} {o : OutletId} {f : FramePlace} {pre post : List Entry} {e : Entry}
    (hx : (s.out o).entries = pre ++ e :: post) (hn : ((s.out o).entries.map Entry.tag).Nodup) (ht : e.tag = f.leadTag) (h0 : f.leadTag ≠ 0)
    (hlead : (s.out o).leadTag ≠ some e.tag) (hl : e.lost = false) (hslot : e.state = .onAir → (s.out o).seqSlot ≠ some e.tag) :
    State.Advanced o e pre post f s (s.shadowAdvance o f) := by
  have he : (s.out o).entry e.tag = some e := Outlet.entry_of_split hx hn
  have hn' : ((pre ++ e :: post).map Entry.tag).Nodup := hx ▸ hn
  have hpre : entriesBefore (s.out o).entries e.tag = pre := hx ▸ entriesBefore_eq hn'
  -- The named entry gives up its own voice or request, unless it is a BREAK or ON_AIR.
  obtain ⟨a, ha, hau, hae, h1⟩ : ∃ a, State.Serves o s a ∧ (e.state ≠ .onAir → a.Unasked o e.tag) ∧
      (e.state ≠ .onAir → (a.out o).entry e.tag = some e) ∧
      (if (e.isBreak || e.state == .onAir) = true then s else s.giveUp o (.entry e.tag)) = a := by
    refine ⟨_, ?_, ?_, ?_, rfl⟩
    · split
      · exact .refl o s
      · exact (State.Serves.refl o s).giveUp o _
    · intro hs
      split
      · rename_i hb
        have hb' : e.isBreak = true := by simpa [hs] using hb
        exact fun r _ _ _ d hd => Option.some.inj (he.symm.trans hd) ▸ hb'
      · exact (s.giveUp_unasked o e.tag).1
    · intro hs
      split
      · exact he
      · exact (s.giveUp_unasked o e.tag).2.trans he
  -- The entries before it leave.
  have hcores : (a.out o).entries.map Entry.core = (pre ++ e :: post).map Entry.core := by rw [Outlet.core_entries ha.core, hx]
  have hpass : State.Passes o (pre.map Entry.tag) a (pre.foldl (fun s d => s.passEntry o d.tag) a) := by
    have := State.passEntries_passes (o := o) pre (l := []) (.refl o a) (fun d hd => ?_) ?_
    · rwa [List.nil_append] at this
    · have hm : d.core ∈ (a.out o).entries.map Entry.core := by
        rw [hcores]
        exact List.mem_map_of_mem (List.mem_append_left _ hd)
      obtain ⟨c, hc, hcd⟩ := List.mem_map.1 hm
      exact Option.isSome_iff_exists.1 (Outlet.entry_isSome.2 ⟨c, hc, (congrArg Entry.tag hcd : c.core.tag = d.core.tag)⟩)
    · rw [List.map_append] at hn'
      rw [List.nil_append]
      exact (List.nodup_append.1 hn').1
  generalize hb : pre.foldl (fun s d => s.passEntry o d.tag) a = b at hpass
  have hbcores : (b.out o).entries.map Entry.core = (e :: post).map Entry.core := by rw [hpass.entries, hcores, passed_core hn']
  have hetag : e.tag ∉ pre.map Entry.tag := fun hm => by
    rw [List.map_append, List.nodup_append] at hn'
    exact hn'.2.2 _ hm e.tag (by simp) rfl
  -- It leads.
  have hfollows : State.Follows o e.tag ((e :: post).map Entry.tag) (e.leads f).core (if (e.state == .onAir) = true then b else b.shadowLead o e f) ∧
      ∃ rs, b.log.Wrote (if (e.state == .onAir) = true then b else b.shadowLead o e f).log rs ∧ ∀ r ∈ rs, r.source ≠ .entry := by
    by_cases hs : e.state = .onAir
    · rw [if_pos (by simp [hs]), Entry.leads, if_pos hs]
      refine ⟨⟨entries_tags hbcores, ?_, fun hq => hslot hs ((Outlet.core_seqSlot ha.core).symm.trans (hpass.slot _ hq))⟩, [], .refl _,
        fun _ h => nomatch h⟩
      have hm : ((b.out o).entry e.tag).map Entry.core = some e.core := by
        rw [Outlet.entry_core, hbcores]
        exact List.find?_cons_of_pos (by simp [Entry.core])
      exact Option.map_eq_some_iff.1 hm
    · rw [if_neg (by simpa using hs), Entry.leads, if_neg hs]
      have hbe : (b.out o).entry e.tag = some e := (hpass.kept e.tag hetag (hau hs)).trans (hae hs)
      have hbu : b.Unasked o e.tag := fun r hr ho hh d hd =>
        hau hs r (hpass.queue.subset hr) ho hh d ((hpass.kept e.tag hetag (hau hs)).symm.trans hd)
      obtain ⟨h2, h3, h4⟩ := State.shadowLead_leads hbe hbu hl f
      exact ⟨⟨h2.tags.trans (entries_tags hbcores), ⟨_, h3, rfl⟩, h4⟩, h2.log⟩
  generalize hc : (if (e.state == .onAir) = true then b else b.shadowLead o e f) = c at hfollows
  obtain ⟨hcf, rs2, hcw, hcn⟩ := hfollows
  -- The other ON_AIR entries are QUEUED again.
  obtain ⟨hdf, hdo, rs3, hdw, hdn⟩ := State.requeueShadows ((c.out o).entries.filter fun d => d.state == .onAir && d.tag != e.tag) hcf
    (fun d hd => by simpa using (And.right (by simpa using (List.mem_filter.1 hd).2) : d.tag ≠ e.tag))
    fun d hd hdt hs => List.mem_map_of_mem (List.mem_filter.2 ⟨hd, by simp [hs, hdt]⟩)
  generalize hd : ((c.out o).entries.filter fun d => d.state == .onAir && d.tag != e.tag).foldl (fun s d => s.requeueShadow o d.tag) c = d
    at hdf hdo hdw
  -- The sequence slot is emptied unless it holds the entry after the lead.
  have h5 : State.Touches o (e.tag + 1) d (d.modOut o fun x => { x with airOrder := [e.tag] }) := .modOut_same _ o _ _ rfl fun _ h => h
  have hlog : ∃ rs, s.log.Wrote (d.modOut o fun x => { x with airOrder := [e.tag] }).log rs ∧
      (rs.filter fun r => r.source == .entry).map (fun r => (r.outlet, r.entryTag, r.outcome)) =
        pre.map fun d => (o, some d.tag, Outcome.airedElsewhere) := by
    obtain ⟨rs1, hw1, hm1⟩ := hpass.log
    obtain ⟨rs4, hw4, hn4⟩ := h5.log
    rw [ha.log] at hw1
    refine ⟨_, ((hw1.trans hcw).trans hdw).trans hw4, ?_⟩
    rw [List.filter_append, List.filter_append, List.filter_append, filter_entry_eq_nil hcn, filter_entry_eq_nil hdn, filter_entry_eq_nil hn4, List.append_nil, List.append_nil,
      List.append_nil, hm1, List.map_map]
    rfl
  have hdone : State.Advanced o e pre post f s (d.modOut o fun x => { x with airOrder := [e.tag] }) := by
    refine ⟨hdf.touches h5 (by simp), ?_, ?_, hlog⟩
    · rw [State.modOut_out]
      rfl
    · rw [State.modOut_out]
      exact hdo
  have hres : s.shadowAdvance o f = match ((d.modOut o fun x => { x with airOrder := [e.tag] }).out o).seqSlot with
      | some q =>
        if (entriesAfter ((d.modOut o fun x => { x with airOrder := [e.tag] }).out o).entries e.tag).head?.map Entry.tag == some q then
          d.modOut o fun x => { x with airOrder := [e.tag] }
        else (d.modOut o fun x => { x with airOrder := [e.tag] }).disarm o q
      | none => d.modOut o fun x => { x with airOrder := [e.tag] } := by
    rw [State.shadowAdvance, if_neg h0, ← ht, he]
    dsimp only
    rw [if_neg hlead, hpre, h1, hb, hc, hd] <;> rfl
  rw [hres]
  split
  · rename_i q hq
    split
    · exact hdone
    · exact hdone.disarm hq
  · exact hdone

end Sys2Proof.Machine
end

section
/-! An AUDIO frame that only the outlet of its feed takes (R18, R128, R148). -/

namespace Sys2Proof.Machine

/-- Another outlet neither carries, follows nor monitors the feed. -/
theorem State.takeAudioOn_apart {s : State} {p : OutletId} {b : AudioBody} (h : FrameHead)
    (hf : (s.ocfg p).valid = true → (s.ocfg p).feed ≠ b.feed) (hr : s.isFollow p = true → (s.ocfg p).followFeed ≠ b.feed) :
    s.takeAudioOn p h b = s := by
  rw [State.takeAudioOn_eq]
  split
  · rfl
  · rename_i hv
    simp only [Bool.or_eq_true, Bool.not_eq_true', not_or, Bool.not_eq_false, beq_iff_eq] at hv
    rw [if_neg (hf hv.1)]
    have h1 : s.takeFollowed p h b = s := if_neg fun e => by
      simp only [Bool.and_eq_true, beq_iff_eq] at e
      exact hr e.1 e.2
    rw [h1]
    refine if_neg fun e => ?_
    unfold State.monitored at e
    dsimp only at e
    rw [if_neg (by simpa using hv.2)] at e
    split at e
    · split at e
      · rename_i hfol
        exact hr hfol (Option.some.inj e)
      · cases e
    · exact hf hv.1 (Option.some.inj e)

/-- A frame that no other outlet takes. -/
theorem State.audioTaken_alone {a : State} {o : OutletId} {b : AudioBody} (hc : a.Carries o b.feed) (h : FrameHead)
    (hr : ∀ p, a.isFollow p = true → (a.ocfg p).followFeed ≠ b.feed) :
    a.audioTaken h b = ((a.takeCandidate b.feed h.sentAt).takeOwnFeed o h b).takeMonitored o b := by
  obtain ⟨d, hd, -⟩ := a.takeCandidate_eq b.feed h.sentAt
  have hskip : ∀ (l : List OutletId) (s : State), s.cfg = a.cfg → (∀ p ∈ l, p ≠ o) → l.foldl (fun s p => s.takeAudioOn p h b) s = s := by
    intro l
    induction l with
    | nil => exact fun s _ _ => rfl
    | cons p l ih =>
      intro s hs hl
      have hp : s.takeAudioOn p h b = s := by
        refine State.takeAudioOn_apart h (fun hv hf => hl p List.mem_cons_self ?_) fun hfol => ?_
        · rw [State.ocfg, hs] at hv hf
          exact hc.2.2.2.2.2 p hv hf
        · rw [State.isFollow, State.ocfg, hs] at hfol
          rw [State.ocfg, hs]
          exact hr p hfol
      rw [List.foldl_cons, hp]
      exact ih s hs fun q hq => hl q (List.mem_cons_of_mem p hq)
  obtain ⟨l, m, hall, hl, hm⟩ := OutletId.all_split o
  obtain ⟨hvalid, hfeed, -, -, hdark, -⟩ := hc
  have hcand : (a.takeCandidate b.feed h.sentAt).cfg = a.cfg ∧ (a.takeCandidate b.feed h.sentAt).out o = a.out o := by
    rw [hd]
    exact ⟨rfl, rfl⟩
  rw [State.audioTaken, hall, List.foldl_append, hskip l _ hcand.1 hl, List.foldl_cons]
  generalize a.takeCandidate b.feed h.sentAt = s at hcand
  have hown := s.takeOwnFeed_cfg o h b
  have hon : s.takeAudioOn o h b = (s.takeOwnFeed o h b).takeMonitored o b := by
    have hocfg : s.ocfg o = a.ocfg o := by rw [State.ocfg, State.ocfg, hcand.1]
    rw [State.takeAudioOn_eq, hocfg, hcand.2, hvalid, if_neg (by simpa using hdark), if_pos hfeed]
    congr 1
    refine if_neg fun e => ?_
    simp only [Bool.and_eq_true, beq_iff_eq] at e
    rw [State.isFollow, State.ocfg, hown, hcand.1] at e
    exact hr o e.1 e.2
  rw [hon]
  refine hskip m _ ?_ hm
  have hmon : State.Moves true (s.takeOwnFeed o h b) ((s.takeOwnFeed o h b).takeMonitored o b) := State.takeMonitored_moves .refl o b
  exact (congrArg (fun x : _ × _ × _ × UnitCfg × _ => x.2.2.2.1) hmon.base).trans (hown.trans hcand.1)

theorem State.takeReference_other {s : State} {feed : Nat} (h : s.cfg.refFeed ≠ feed) (frame sentAt : Time) (sender phase : Nat) :
    s.takeReference feed frame sentAt sender phase = s := if_neg fun e => by
  simp only [Bool.and_eq_true, beq_iff_eq] at e
  exact h e.2.symm

/-- Echoes change an outlet's open block and its echo alone. -/
theorem State.takeMonitored_eq (s : State) (o : OutletId) (b : AudioBody) :
    ∃ k e, s.takeMonitored o b = s.setOut o { s.out o with openBlock := k, echo := e } := by
  have hself : ∃ k e, s = s.setOut o { s.out o with openBlock := k, echo := e } := ⟨_, _, (s.setOut_self o).symm⟩
  unfold State.takeMonitored
  split
  · unfold State.collectEcho
    dsimp only
    split
    · exact ⟨_, _, rfl⟩
    · split
      · exact hself
      · split
        · unfold State.closeOpenBlock
          split
          · exact ⟨_, _, by rw [State.modOut, State.modOut, State.setOut_out, State.setOut_setOut]⟩
          · exact ⟨_, _, rfl⟩
        · split
          · exact hself
          · exact ⟨_, _, rfl⟩
  · exact hself

/-- A frame that names no other entry of the outlet moves no running order (R18). -/
theorem State.shadowAdvance_stays {s : State} {o : OutletId} {f : FramePlace}
    (h : f.leadTag = 0 ∨ (∀ e ∈ (s.out o).entries, e.tag ≠ f.leadTag) ∨ (s.out o).leadTag = some f.leadTag) : s.shadowAdvance o f = s := by
  unfold State.shadowAdvance
  dsimp only
  by_cases h0 : f.leadTag = 0
  · rw [if_pos h0]
  · rw [if_neg h0]
    split
    · rfl
    · rename_i e he
      have ht := Outlet.entry_tag he
      refine if_pos ?_
      rcases h.resolve_left h0 with h | h
      · exact absurd ht (h e (Outlet.entry_mem he))
      · rw [h, ht]

/-- An outlet that does not send and takes a frame of its feed: only its timers and its owner view change before shadow advance. -/
theorem State.takeOwnFeed_silent {s : State} {o : OutletId} (h : FrameHead) (b : AudioBody)
    (ha : (s.out o).air = .listening ∨ (s.out o).air = .standby ∨ (s.out o).air = .claiming) :
    ∃ air n, s.takeOwnFeed o h b =
        (s.setOut o { s.out o with air := air, silenceSince := n, view := some (s.viewOf h b), heard := true }).shadowAdvance o (placeOf b) ∧
      ((s.out o).air = .standby → air = .standby ∧ n = s.clock) := by
  rw [State.takeOwnFeed_eq, if_pos (by rcases ha with e | e | e <;> rw [e] <;> rfl)]
  rcases ha with e | e | e
  · refine ⟨.listening, (s.out o).silenceSince, ?_, fun e' => absurd (e.symm.trans e') (by decide)⟩
    unfold State.judgeOwner State.judgeDouble
    dsimp only
    rw [e]
    dsimp only
    rw [← e]
    rfl
  · refine ⟨.standby, s.clock, ?_, fun _ => ⟨rfl, rfl⟩⟩
    unfold State.judgeOwner
    rw [e]
    dsimp only
    rw [State.modOut, State.modOut, State.setOut_out, State.setOut_setOut, ← e]
    rfl
  · refine ⟨.standby, s.clock, ?_, fun e' => absurd (e.symm.trans e') (by decide)⟩
    unfold State.judgeOwner
    rw [e]
    dsimp only
    rw [State.stopClaim, State.modOut, State.modOut, State.setOut_out, State.setOut_setOut]
    rfl

theorem State.audioTaken_base (a : State) (h : FrameHead) (b : AudioBody) : (a.audioTaken h b).base = a.base := by
  obtain ⟨d, hd, -⟩ := a.takeCandidate_eq b.feed h.sentAt
  have hm : State.Moves false (a.takeCandidate b.feed h.sentAt) (a.audioTaken h b) :=
    State.Moves.refl.foldl _ _ fun t o ht => State.takeAudioOn_moves ht o h b
  refine hm.base.trans ?_
  rw [hd]
  rfl

theorem State.audioTaken_cfg (a : State) (h : FrameHead) (b : AudioBody) : (a.audioTaken h b).cfg = a.cfg :=
  congrArg (fun x : _ × _ × _ × UnitCfg × _ => x.2.2.2.1) (a.audioTaken_base h b)

theorem State.audioTaken_clock (a : State) (h : FrameHead) (b : AudioBody) : (a.audioTaken h b).clock = a.clock :=
  congrArg (fun x : _ × _ × _ × UnitCfg × _ × _ × Nat => x.2.2.2.2.2.2) (a.audioTaken_base h b)

/-- The command of a frame that only its feed's outlet takes, and that is not the reference. -/
theorem exec_audioFrame_alone {s : State} {h : FrameHead} {b : AudioBody} {o : OutletId} (hp : s.powered = true) (hh : s.Hears h 314)
    (hf : b.frameTime % 48 = 0) (hc : s.Carries o b.feed) (hr : s.cfg.refFeed ≠ b.feed)
    (hfol : ∀ p, s.isFollow p = true → (s.ocfg p).followFeed ≠ b.feed) (dt phase : Nat) :
    exec (.audioFrame dt h b phase) s =
      .next (((((s.elapse dt).takeCandidate b.feed h.sentAt).takeOwnFeed o h b).takeMonitored o b).finish (s.elapse dt)) := by
  have hca : (s.elapse dt).Carries o b.feed := by simpa only [State.Carries, State.elapse_ocfg, State.elapse_out_air] using hc
  have hfa : ∀ p, (s.elapse dt).isFollow p = true → ((s.elapse dt).ocfg p).followFeed ≠ b.feed := by
    simpa only [State.elapse_isFollow, State.elapse_ocfg] using hfol
  rw [exec_audioFrame hp hh hf hc.2.2.1 hc.2.2.2.1, State.takeReference_other (by rw [State.audioTaken_cfg, State.elapse_cfg]; exact hr),
    State.audioTaken_alone hca h hfa]

end Sys2Proof.Machine

open Sys2Proof Sys2Proof.Machine

/-- Settles O36. -/
theorem framesGiveTheOwnerView : Obligations.FramesGiveTheOwnerView := by
  intro s dt h b phase o hp hh hf hc a x view named beaten
  have hca : a.Carries o b.feed := by
    simpa only [a, State.Carries, State.elapse_ocfg, State.elapse_out_air] using hc
  have hexec := exec_audioFrame hp hh hf hc.2.2.1 hc.2.2.2.1 dt phase
  have hview : a.viewOf h b = view := rfl
  refine ⟨?_, fun hs hg hr hfol hnone => ?_, fun pre post e hair hself hr hx hn ht h0 hl hlost hslot => ?_⟩
  · obtain ⟨hj, hv, hd⟩ := State.audioFrame_judged hca h phase
    have hj' : State.Judged s _ o h b := hj.before (State.elapse_out_air s dt o).symm (State.elapse_out_yielding s dt o).symm
      (State.elapse_cfg s dt).symm
    refine ⟨_, hexec, hv, hd, hj'.listening, hj'.standby, hj'.claiming, hj'.leaves, fun h1 h2 h3 => ?_, hj'.stays⟩
    obtain ⟨f, hf⟩ := hj'.latched h1 h2 h3
    exact Option.isSome_iff_exists.2 ⟨f, hf⟩
  · have hg' : a.disc.groupTime.isSome = true := by
      show ((s.elapse dt).disc.groupTime).isSome = true
      rw [State.elapse_disc]
      simpa using hg
    have hcand : a.takeCandidate b.feed h.sentAt = a := if_pos (by rw [hg', Bool.true_or])
    have hair : (a.out o).air = .standby := (State.elapse_out_air s dt o).trans hs
    obtain ⟨air, n, hown, hst⟩ := State.takeOwnFeed_silent (s := a) h b (Or.inr (Or.inl hair))
    obtain ⟨rfl, rfl⟩ := hst hair
    rw [exec_audioFrame_alone hp hh hf hc hr hfol, hcand, hown, State.shadowAdvance_stays, ← hair]
    · congr 2
      refine if_pos ?_
      rw [State.monitored, State.setOut_out]
      dsimp only
      rw [hair]
      exact congrArg some hca.2.1
    · rw [State.setOut_out]
      dsimp only [Outlet.leadTag]
      simp only [a, State.elapse_out_entries, State.elapse_out_airOrder]
      exact hnone
  · have hair' : (((s.elapse dt).takeCandidate b.feed h.sentAt).out o).air = .listening ∨
        (((s.elapse dt).takeCandidate b.feed h.sentAt).out o).air = .standby ∨
          (((s.elapse dt).takeCandidate b.feed h.sentAt).out o).air = .claiming := by
      obtain ⟨d, hd, -⟩ := (s.elapse dt).takeCandidate_eq b.feed h.sentAt
      rw [hd]
      exact (State.elapse_out_air s dt o).symm ▸ hair
    obtain ⟨air, n, hown, -⟩ := State.takeOwnFeed_silent h b hair'
    obtain ⟨d, hd, -⟩ := (s.elapse dt).takeCandidate_eq b.feed h.sentAt
    rw [hd] at hown
    generalize hv : State.setOut _ _ _ = v at hown
    have hvx : (v.out o).entries = x.entries ∧ (v.out o).leadTag = x.leadTag ∧ (v.out o).seqSlot = x.seqSlot ∧ v.log = s.log := by
      rw [← hv, State.setOut_out]
      exact ⟨State.elapse_out_entries s dt o, congrArg List.head? (State.elapse_out_airOrder s dt o), State.elapse_out_seqSlot s dt o,
        State.elapse_log s dt⟩
    obtain ⟨he, hlead, hseq, hlog⟩ := hvx
    have hadv : State.Advanced o e pre post (placeOf b) v (v.shadowAdvance o (placeOf b)) :=
      State.shadowAdvance_advances (he.trans hx) (he ▸ hn) ht h0 (hlead ▸ hl) hlost (hseq ▸ hslot)
    rw [exec_audioFrame_alone hp hh hf hc hr.1 hr.2, hd, hown]
    generalize v.shadowAdvance o (placeOf b) = w at hadv
    obtain ⟨k, j, hmon⟩ := w.takeMonitored_eq o b
    obtain ⟨rs, hw, hrs⟩ := hadv.log
    obtain ⟨c, hc, hcc⟩ := hadv.follows.lead
    refine ⟨w.takeMonitored o b, rs, rfl, ?_⟩
    rw [hmon, State.setOut_out]
    refine ⟨hadv.lead, hadv.follows.tags, ⟨c, hc, ?_, fun hs => ?_⟩, hadv.others, hlog ▸ hw, hrs⟩
    · refine (congrArg Entry.state hcc : c.core.state = (e.leads (placeOf b)).core.state).trans ?_
      show (e.leads (placeOf b)).state = .onAir
      rw [Entry.leads]
      split
      · assumption
      · rfl
    · refine (congrArg Entry.air hcc : c.core.air = (e.leads (placeOf b)).core.air).trans ?_
      rw [Entry.leads, if_neg hs]
      rfl
end

section
/-! The clock discipline: windows, steps of group time, and the times a step passes (R15, R81 to R86). -/

namespace Sys2Proof.Machine

/-! ### Rounding (R39, R82) -/

theorem roundDiv_rounds (p : Int) {n : Nat} (hn : 0 < n) : Rounds (roundDiv p n) p n := by
  have hlo : (2 * p.natAbs + n) / (2 * n) * (2 * n) ≤ 2 * p.natAbs + n := Nat.div_mul_le_self _ _
  have hhi : 2 * p.natAbs + n < ((2 * p.natAbs + n) / (2 * n) + 1) * (2 * n) :=
    (Nat.lt_mul_div_succ _ (by omega)).trans_eq (Nat.mul_comm _ _)
  unfold Rounds roundDiv
  dsimp only
  generalize (2 * p.natAbs + n) / (2 * n) = m at hlo hhi
  obtain ⟨k, hk⟩ : ∃ k, m * n = k := ⟨_, rfl⟩
  have hm : m * (2 * n) = 2 * k := by rw [← hk]; ring
  have hm1 : (m + 1) * (2 * n) = 2 * k + 2 * n := by rw [← hk]; ring
  rw [hm] at hlo
  rw [hm1] at hhi
  have hki : (m : Int) * n = k := by exact_mod_cast hk
  split
  · rw [neg_mul, hki]
    omega
  · rw [hki]
    omega

/-! ### Windows (R81 to R83) -/

section windows
variable {s : State} {frame : Time} {count sender : Nat} {w : Window}

theorem State.takeWindow_first (h : s.disc.window = none) : s.takeWindow frame count sender = s.openWindow frame count sender := by
  rw [State.takeWindow, h]

theorem State.takeWindow_broken (h : s.disc.window = some w) (hb : w.sender ≠ sender ∨ frame ≠ w.last ∧ frame ≠ w.last + 48) :
    s.takeWindow frame count sender = s.openWindow frame count sender := by
  rw [State.takeWindow, h]
  dsimp only
  by_cases hs : w.sender = sender
  · obtain ⟨h1, h2⟩ := hb.resolve_left (fun e => e hs)
    rw [if_neg (by simp [hs]), if_neg h1, if_neg h2]
  · rw [if_pos hs]

theorem State.takeWindow_again (h : s.disc.window = some w) (hs : w.sender = sender) (hf : frame = w.last) :
    s.takeWindow frame count sender = s := by
  rw [State.takeWindow, h]
  dsimp only
  rw [if_neg (by simp [hs]), if_pos hf]

theorem State.takeWindow_grows (h : s.disc.window = some w) (hs : w.sender = sender) (hf : frame = w.last + 48) (hc : frame ≠ w.f0 + 49152) :
    s.takeWindow frame count sender = { s with disc := { s.disc with window := some { w with last := frame } } } := by
  rw [State.takeWindow, h]
  dsimp only
  rw [if_neg (by simp [hs]), if_neg (fun e => absurd (e.symm.trans hf) (by simp)), if_pos hf, if_neg hc]

theorem State.takeWindow_complete (h : s.disc.window = some w) (hs : w.sender = sender) (hf : frame = w.last + 48) (hc : frame = w.f0 + 49152) :
    s.takeWindow frame count sender = (s.evaluateWindow w count).openWindow frame count sender := by
  rw [State.takeWindow, h]
  dsimp only
  rw [if_neg (by simp [hs]), if_neg (fun e => absurd (e.symm.trans hf) (by simp)), if_pos hf, if_pos hc]

/-- A frame that completes no window leaves the trim, the rejected count and the clock state. -/
theorem State.takeWindow_keeps (h : ∀ w, s.disc.window = some w → ¬ (w.sender = sender ∧ frame = w.last + 48 ∧ frame = w.f0 + 49152)) :
    ∃ v, (s.takeWindow frame count sender).disc = { s.disc with window := v } := by
  cases hw : s.disc.window with
  | none =>
    rw [State.takeWindow_first hw]
    exact ⟨_, rfl⟩
  | some w =>
    by_cases hb : w.sender ≠ sender ∨ frame ≠ w.last ∧ frame ≠ w.last + 48
    · rw [State.takeWindow_broken hw hb]
      exact ⟨_, rfl⟩
    · push Not at hb
      obtain ⟨hs, hf⟩ := hb
      by_cases hl : frame = w.last
      · rw [State.takeWindow_again hw hs hl]
        exact ⟨s.disc.window, rfl⟩
      · rw [State.takeWindow_grows hw hs (hf hl) fun hc => h w hw ⟨hs, hf hl, hc⟩]
        exact ⟨_, rfl⟩

/-- An accepted window (R82). -/
theorem State.evaluateWindow_accept (h : (windowError (count - w.a0)).natAbs ≤ 3200) :
    (s.evaluateWindow w count).disc = s.disc.acceptWindow (windowError (count - w.a0)) := by
  rw [State.evaluateWindow, if_neg (by omega)]

open Classical in
/-- A rejected window (R83). -/
theorem State.evaluateWindow_reject (h : 3200 < (windowError (count - w.a0)).natAbs) :
    (s.evaluateWindow w count).disc =
        { s.disc with
          rejected := min 4 (s.disc.rejected + 1)
          state := if s.disc.rejected = 3 ∧ (s.disc.state = .acquiring ∨ s.disc.state = .tracking) then .holdover else s.disc.state } ∧
      (s.disc.rejected = 3 ∧ (s.disc.state = .acquiring ∨ s.disc.state = .tracking) →
        ∃ f, ((s.evaluateWindow w count).captures.slot .clock).first = some f) := by
  rw [State.evaluateWindow, if_pos h, State.rejectWindow]
  dsimp only
  split
  · exact ⟨by congr, fun _ => State.latch_first _ _⟩
  · rename_i hn
    exact ⟨by congr, fun h => absurd h hn⟩

end windows

/-! ### Steps of group time (R85, R86) -/

theorem steppedTime_near (g h : Time) : (steppedTime g h - g) % 48 = 0 ∧ -24 ≤ h - steppedTime g h ∧ h - steppedTime g h < 24 := by
  unfold steppedTime
  have : ∀ g h : Int, (g + 48 * ((h - g + 24) / 48) - g) % 48 = 0 ∧ -24 ≤ h - (g + 48 * ((h - g + 24) / 48)) ∧
      h - (g + 48 * ((h - g + 24) / 48)) < 24 := fun g h => by omega
  exact this g h

theorem steppedTime_later {g h : Time} (hf : g + 480 < h) : g < steppedTime g h := by
  unfold steppedTime
  have : ∀ g h : Int, g + 480 < h → g < g + 48 * ((h - g + 24) / 48) := fun g h => by omega
  exact this g h hf

/-- Group time is set by a step, the blocks in progress ended. -/
def State.stepSet (s : State) (t : Time) : State :=
  let u : State := OutletId.all.foldl State.stopEchoBlock (OutletId.all.foldl State.keepDelays s)
  let u : State := { u with outlets := u.outlets.mapId fun _ x => (x.rewindTallies s.now t).skipCutFrame t }
  { u with disc := { u.disc with groupTime := some t, window := none } }

/-- TIME_STEP is latched, and open echo blocks whose time has come close. -/
def State.stepClock (s : State) (t : Time) (sender : Nat) : State :=
  OutletId.all.foldl State.timeoutOpenBlock ((s.stepSet t).latch { FaultInfo.bare .timeStep with node := some sender })

/-- The stepped state of a forward step. -/
def State.stepForward (s : State) (t : Time) (sender : Nat) : State :=
  OutletId.all.foldl (fun s o => s.leaveHistoryWhere o fun e => decide (e.block + historyStay ≤ t)) (s.stepClock t sender)

/-- The stepped state of a backward step. -/
def State.stepBack (s : State) (t : Time) (sender : Nat) : State :=
  let u : State := OutletId.all.foldl (fun s o => s.leaveHistoryWhere o fun _ => true) (s.stepClock t sender)
  { u with outlets := u.outlets.mapId fun _ x => x.forgetTallies }

theorem State.stepTime_eq (s : State) (t : Time) (sender : Nat) :
    s.stepTime t sender = if s.now < t then (s.stepForward t sender).handlePassed s.now else s.stepBack t sender := rfl

theorem State.stepTime_forward {s : State} {t : Time} (h : s.now < t) (sender : Nat) :
    s.stepTime t sender = (s.stepForward t sender).handlePassed s.now := (s.stepTime_eq t sender).trans (if_pos h)

theorem State.stepTime_latched (s : State) (t : Time) (sender : Nat) :
    ∃ f, ((s.stepTime t sender).captures.slot .clock).first = some f := by
  obtain ⟨f, hf⟩ := (s.stepSet t).latch_first { FaultInfo.bare .timeStep with node := some sender }
  have h3 : State.Moves false ((s.stepSet t).latch { FaultInfo.bare .timeStep with node := some sender }) (s.stepClock t sender) :=
    State.Moves.refl.foldl _ _ fun t o ht => State.timeoutOpenBlock_moves ht o
  refine ⟨f, State.Moves.firsts (k := false) ?_ .clock f hf⟩
  rw [State.stepTime_eq]
  split
  · exact State.handlePassed_moves (h3.foldl _ _ fun t o ht => State.leaveHistoryWhere_moves ht o _) _
  · exact (h3.foldl _ _ fun t o ht => State.leaveHistoryWhere_moves ht o _).mapOutlets (fun _ x => x.forgetTallies) (fun _ _ => rfl)
      fun _ _ => rfl

/-- A frame of the reference feed. -/
theorem State.takeReference_ref {s : State} {feed : Nat} (h : s.cfg.refFeed = feed) (h1 : 1 ≤ feed) (frame sentAt : Time) (sender phase : Nat) :
    s.takeReference feed frame sentAt sender phase = (s.takeWindow frame (s.counter phase) sender).compareTime sentAt sender :=
  if_pos (by simp only [Bool.and_eq_true, bne_iff_ne, beq_iff_eq]; omega)

theorem State.compareTime_near {s : State} {sentAt : Time} (h : ¬ ∃ g, s.disc.groupTime = some g ∧ 480 < (sentAt - g).natAbs) (sender : Nat) :
    s.compareTime sentAt sender = s := by
  unfold State.compareTime
  split
  · rfl
  · rename_i g hg
    exact if_neg fun e => h ⟨g, hg, e⟩

theorem State.compareTime_far {s : State} {g sentAt : Time} (hg : s.disc.groupTime = some g) (h : 480 < (sentAt - g).natAbs) (sender : Nat) :
    s.compareTime sentAt sender = s.stepTime (steppedTime g sentAt) sender := by
  rw [State.compareTime, hg]
  exact if_pos h

/-- A window leaves all but the clock discipline and the captures. -/
theorem State.takeWindow_eq (s : State) (frame : Time) (count sender : Nat) :
    ∃ d c, s.takeWindow frame count sender = { s with disc := d, captures := c } := by
  unfold State.takeWindow
  split
  · exact ⟨_, _, rfl⟩
  · split
    · exact ⟨_, _, rfl⟩
    · split
      · exact ⟨_, _, rfl⟩
      · split
        · split
          · unfold State.evaluateWindow State.rejectWindow State.openWindow
            dsimp only
            split
            · split <;> exact ⟨_, _, rfl⟩
            · exact ⟨_, _, rfl⟩
          · exact ⟨_, _, rfl⟩
        · exact ⟨_, _, rfl⟩

end Sys2Proof.Machine
end

section
/-! What a step of group time leaves before it handles what it passes, where no history holds a mismatch (R85, R147 to R153). -/

namespace Sys2Proof.Machine

/-- What the timeline of an outlet looks at. -/
def Outlet.stage (x : Outlet) : List Entry × Option Nat × Option Nat × List Nat × Air × List FallbackPeriod × Relay :=
  (x.entries, x.seqSlot, x.anchorSlot, x.airOrder, x.air, x.periods, x.relay)

/-- No entry of the history leaves with the result MISMATCH (R151). -/
def Outlet.Clean (x : Outlet) : Prop := ∀ e ∈ x.history, e.tap ≠ .mismatch ∧ e.peerMismatch = false ∧ e.result ≠ some .mismatch

/-- From `s` to `w` no more than the clock discipline, captures, echoes, tallies and confirmations have changed, and the breaks of FOLLOW
outlets. -/
structure State.Hushed (s w : State) : Prop where
  rest : (w.horizon, w.clock, w.cfg, w.voices, w.voiceQueue, w.store, w.lines, w.sent) =
    (s.horizon, s.clock, s.cfg, s.voices, s.voiceQueue, s.store, s.lines, s.sent)
  next : w.log.next = s.log.next
  records : w.log.records.map Record.core = s.log.records.map Record.core
  stage : ∀ p, (w.out p).stage = (s.out p).stage
  places : ∀ p, s.isSelf p = true → (w.out p).place1 = (s.out p).place1 ∧ (w.out p).place2 = (s.out p).place2
  clean : (∀ p, (s.out p).Clean) → ∀ p, (w.out p).Clean

theorem State.Hushed.refl (s : State) : s.Hushed s := ⟨rfl, rfl, rfl, fun _ => rfl, fun _ _ => ⟨rfl, rfl⟩, fun h => h⟩

theorem State.Hushed.cfg {s w : State} (h : s.Hushed w) : w.cfg = s.cfg := by
  have := h.rest
  simp only [Prod.mk.injEq] at this
  exact this.2.2.1

theorem State.Hushed.isSelf {s w : State} (h : s.Hushed w) (p : OutletId) : w.isSelf p = s.isSelf p := by
  rw [State.isSelf, State.isSelf, State.ocfg, State.ocfg, h.cfg]

theorem State.Hushed.trans {s t u : State} (h : s.Hushed t) (h' : t.Hushed u) : s.Hushed u :=
  ⟨h'.rest.trans h.rest, h'.next.trans h.next, h'.records.trans h.records, fun p => (h'.stage p).trans (h.stage p),
    fun p hp =>
      have h1 := h.places p hp
      have h2 := h'.places p ((h.isSelf p).trans hp)
      ⟨h2.1.trans h1.1, h2.2.trans h1.2⟩,
    fun hc => h'.clean (h.clean hc)⟩

theorem State.Hushed.foldl {α : Type} {s : State} (f : State → α → State) (l : List α) (hc : ∀ p, (s.out p).Clean)
    (hf : ∀ (t : State) (x : α), (∀ p, (t.out p).Clean) → t.Hushed (f t x)) : s.Hushed (l.foldl f s) := by
  induction l generalizing s with
  | nil => exact .refl s
  | cons x l ih =>
    have h := hf s x hc
    exact h.trans (ih (h.clean hc))

/-- A change of one outlet that leaves its timeline, and its history clean. -/
theorem State.Hushed.modOut (s : State) (o : OutletId) (f : Outlet → Outlet) (hs : (f (s.out o)).stage = (s.out o).stage)
    (hp : s.isSelf o = true → (f (s.out o)).place1 = (s.out o).place1 ∧ (f (s.out o)).place2 = (s.out o).place2)
    (hc : (s.out o).Clean → (f (s.out o)).Clean) : s.Hushed (s.modOut o f) := by
  have hout : ∀ p, (s.modOut o f).out p = if p = o then f (s.out o) else s.out p := fun p => State.out_setOut s o p _
  refine ⟨rfl, rfl, rfl, fun p => ?_, fun p hpp => ?_, fun h p => ?_⟩
  · rw [hout]
    split
    · rename_i e
      rw [e, hs]
    · rfl
  · rw [hout]
    split
    · rename_i e
      subst e
      exact hp hpp
    · exact ⟨rfl, rfl⟩
  · rw [hout]
    split
    · exact hc (h o)
    · exact h p

theorem State.Hushed.modOut' (s : State) (o : OutletId) (f : Outlet → Outlet) (hs : ∀ x, (f x).stage = x.stage)
    (hp : ∀ x, (f x).place1 = x.place1 ∧ (f x).place2 = x.place2) (hc : ∀ x, (f x).history.Sublist x.history) : s.Hushed (s.modOut o f) :=
  .modOut s o f (hs _) (fun _ => hp _) fun h e he => h e ((hc _).subset he)

/-! ### Echo blocks (R147, R151, R153) -/

theorem State.Hushed.finalResult (s : State) (o : OutletId) (b : Time) (r : EchoResult) (again : Bool) : s.Hushed (s.finalResult o b r again) := by
  have h := State.Hushed.modOut' s o (fun x => { x with tallies := x.tallies.map fun t =>
    { t.touch s.now b with tally := (t.touch s.now b).tally.take b r (!again && !(s.out o).inProgress b) } })
    (fun _ => rfl) (fun _ => ⟨rfl, rfl⟩) fun _ => List.Sublist.refl _
  refine h.trans ⟨rfl, rfl, ?_, fun _ => rfl, fun _ _ => ⟨rfl, rfl⟩, fun h => h⟩
  show List.map _ (List.map _ _) = _
  rw [List.map_map]
  refine List.map_congr_left fun x _ => ?_
  dsimp only [Function.comp]
  split <;> rfl

theorem HistEntry.leavingResult_ne {e : HistEntry} (h : e.tap ≠ .mismatch ∧ e.peerMismatch = false ∧ e.result ≠ some .mismatch) :
    e.leavingResult ≠ .mismatch := by
  obtain ⟨ht, hp, hr⟩ := h
  unfold HistEntry.leavingResult
  split
  · rename_i r hr'
    exact fun e => hr (hr'.trans (congrArg some e))
  · rw [if_neg (by simp [ht, hp])]
    decide

theorem State.Hushed.leaveHistory (s : State) (o : OutletId) (again : Bool) {e : HistEntry}
    (he : e.tap ≠ .mismatch ∧ e.peerMismatch = false ∧ e.result ≠ some .mismatch) : s.Hushed (s.leaveHistory o again e) := by
  have hrun : ∀ u : State, u.Hushed (u.feedRun o e.block e.leavingResult) := fun u => by
    unfold State.feedRun
    dsimp only
    rw [if_neg (c := (e.leavingResult == .mismatch) = true) (by simpa using HistEntry.leavingResult_ne he)]
    split
    · exact .modOut' u o _ (fun _ => rfl) (fun _ => ⟨rfl, rfl⟩) fun _ => List.Sublist.refl _
    · exact .refl u
  have hres : s.Hushed (if e.result.isNone then s.finalResult o e.block e.leavingResult again else s) := by
    split
    · exact .finalResult ..
    · exact .refl s
  exact (hres.trans (.modOut' _ o (fun x => { x with history := x.history.filter fun h => h.block != e.block }) (fun _ => rfl)
    (fun _ => ⟨rfl, rfl⟩) fun _ => List.filter_sublist)).trans (hrun _)

theorem State.Hushed.leaveAll {s : State} (o : OutletId) (again : Bool) (l : List HistEntry)
    (hl : ∀ e ∈ l, e.tap ≠ .mismatch ∧ e.peerMismatch = false ∧ e.result ≠ some .mismatch) :
    s.Hushed (l.foldl (fun s e => s.leaveHistory o again e) s) := by
  induction l generalizing s with
  | nil => exact .refl s
  | cons e l ih =>
    exact (State.Hushed.leaveHistory s o again (hl e List.mem_cons_self)).trans (ih fun d hd => hl d (List.mem_cons_of_mem e hd))

theorem State.Hushed.leaveHistoryWhere {s : State} (o : OutletId) (p : HistEntry → Bool) (hc : ∀ p, (s.out p).Clean) :
    s.Hushed (s.leaveHistoryWhere o p) := .leaveAll o false _ fun e he => hc o e (List.mem_of_mem_filter he)

theorem insertHist_mem {e d : HistEntry} {l : List HistEntry} (h : d ∈ insertHist e l) : d = e ∨ d ∈ l := by
  induction l with
  | nil => exact Or.inl (List.mem_singleton.1 h)
  | cons x l ih =>
    unfold insertHist at h
    split at h
    · exact List.mem_cons.1 h
    · rcases List.mem_cons.1 h with rfl | h
      · exact Or.inr List.mem_cons_self
      · exact (ih h).imp_right (List.mem_cons_of_mem x)

theorem State.Hushed.closeEchoBlock {s : State} (o : OutletId) (hc : ∀ p, (s.out p).Clean) : s.Hushed (s.closeEchoBlock o) := by
  unfold State.closeEchoBlock
  dsimp only
  split
  · exact .refl s
  · rename_i h _
    generalize takeSamples false _ _ = z
    have h1 : s.Hushed (s.modOut o fun x => { x with echoBuf := z.2 }) :=
      .modOut' s o _ (fun _ => rfl) (fun _ => ⟨rfl, rfl⟩) fun _ => List.Sublist.refl _
    have hc1 := h1.clean hc
    split
    · exact h1
    · generalize (s.modOut o fun x => { x with echoBuf := z.2 }) = u at h1 hc1
      refine h1.trans ?_
      unfold State.addHistory
      have h2 : u.Hushed _ := State.Hushed.leaveAll o true ((u.out o).history.filter fun d =>
        d.block == (histEntry h.time h.first (z.1.map SampleFrame.limited)).block) fun e he => hc1 o e (List.mem_of_mem_filter he)
      refine h2.trans (.modOut _ o _ rfl (fun _ => ⟨rfl, rfl⟩) fun hcl d hd => ?_)
      rcases insertHist_mem hd with rfl | hd
      · exact ⟨by simp [histEntry], rfl, by simp [histEntry]⟩
      · exact hcl d hd

theorem State.Hushed.stopEchoBlock {s : State} (o : OutletId) (hc : ∀ p, (s.out p).Clean) : s.Hushed (s.stopEchoBlock o) := by
  have hall : ∀ (n : Nat) (t : State), (∀ p, (t.out p).Clean) → t.Hushed (State.closeEchoBlocks n t o) := by
    intro n
    induction n with
    | zero => exact fun t _ => .refl t
    | succ n ih =>
      intro t ht
      unfold State.closeEchoBlocks
      split
      · exact .refl t
      · have h := State.Hushed.closeEchoBlock o ht
        exact h.trans (ih _ (h.clean ht))
  exact (hall _ s hc).trans (.modOut' _ o _ (fun _ => rfl) (fun _ => ⟨rfl, rfl⟩) fun _ => List.Sublist.refl _)

theorem State.Hushed.timeoutOpenBlock (s : State) (o : OutletId) : s.Hushed (s.timeoutOpenBlock o) := by
  unfold State.timeoutOpenBlock State.closeOpenBlock
  split
  · split
    · split
      · exact .modOut' s o _ (fun _ => rfl) (fun _ => ⟨rfl, rfl⟩) fun _ => List.Sublist.refl _
      · exact .refl s
    · exact .refl s
  · exact .refl s

/-! ### The stepped state (R76, R85, R86) -/

theorem State.isSelf_not_follow {s : State} {o : OutletId} (h : s.isFollow o = true) : ¬ s.isSelf o = true := by
  simp only [State.isFollow, State.isSelf, Bool.and_eq_true, beq_iff_eq] at h ⊢
  rw [h.2]
  exact fun e => nomatch e.2

theorem State.Hushed.keepDelays (s : State) (o : OutletId) : s.Hushed (s.keepDelays o) := by
  unfold State.keepDelays
  split
  · split
    · rename_i hf
      have hfit : ∀ (t : State) (p : Place) (f : FittedBreak → FittedBreak), t.cfg = s.cfg → t.Hushed (t.modFit o p f) := fun t p f ht =>
        .modOut t o _ (by cases p <;> rfl) (fun hs => absurd hs (State.isSelf_not_follow (by
          rw [State.isFollow, State.ocfg, ht]
          exact hf))) fun hc => by cases p <;> exact hc
      exact (hfit s .first _ rfl).trans (hfit _ .second _ rfl)
    · exact .refl s
  · exact .refl s

theorem Outlet.cutTime_stage (x : Outlet) (g t : Time) :
    ((x.rewindTallies g t).skipCutFrame t).stage = x.stage ∧ ((x.rewindTallies g t).skipCutFrame t).place1 = x.place1 ∧
      ((x.rewindTallies g t).skipCutFrame t).place2 = x.place2 ∧ ((x.rewindTallies g t).skipCutFrame t).history = x.history := by
  unfold Outlet.skipCutFrame Outlet.rewindTallies
  split <;> split <;> exact ⟨rfl, rfl, rfl, rfl⟩

theorem State.Hushed.stepForward {s : State} (t : Time) (sender : Nat) (hc : ∀ p, (s.out p).Clean) : s.Hushed (s.stepForward t sender) := by
  have h1 : s.Hushed (OutletId.all.foldl State.keepDelays s) := .foldl _ _ hc fun u o _ => .keepDelays u o
  have h2 := h1.trans (.foldl State.stopEchoBlock OutletId.all (h1.clean hc) fun u o hu => .stopEchoBlock o hu)
  generalize hu : OutletId.all.foldl State.stopEchoBlock (OutletId.all.foldl State.keepDelays s) = u at h2
  have h3 : u.Hushed (s.stepSet t) := by
    rw [State.stepSet]
    dsimp only
    rw [hu]
    have hout : ∀ p, ({ ({ u with outlets := u.outlets.mapId fun _ x => (x.rewindTallies s.now t).skipCutFrame t } : State) with
        disc := { u.disc with groupTime := some t, window := none } } : State).out p = ((u.out p).rewindTallies s.now t).skipCutFrame t :=
      fun p => by cases p <;> rfl
    refine ⟨rfl, rfl, rfl, fun p => ?_, fun p _ => ?_, fun h p => ?_⟩
    all_goals
      have hst := (u.out p).cutTime_stage s.now t
      rw [hout]
    · exact hst.1
    · exact ⟨hst.2.1, hst.2.2.1⟩
    · unfold Outlet.Clean
      rw [hst.2.2.2]
      exact h p
  have h4 : (s.stepSet t).Hushed ((s.stepSet t).latch { FaultInfo.bare .timeStep with node := some sender }) :=
    ⟨rfl, rfl, rfl, fun _ => rfl, fun _ _ => ⟨rfl, rfl⟩, fun h => h⟩
  have h5 := (h2.trans h3).trans h4
  have h6 := h5.trans (.foldl State.timeoutOpenBlock OutletId.all (h5.clean hc) fun u o _ => .timeoutOpenBlock u o)
  exact h6.trans (.foldl _ OutletId.all (h6.clean hc) fun u o hu => .leaveHistoryWhere o _ hu)

end Sys2Proof.Machine
end

section
/-! AUDIO frames of the reference feed: the times a forward step handles, and O37 (R15, R81 to R86). -/

namespace Sys2Proof.Machine

/-! ### The times waited for (R15, R86) -/

theorem earliestDue_some {l : List (Time × DueEvent)} {y : Time × DueEvent} (h : earliestDue l = some y) : y ∈ l ∧ ∀ z ∈ l, y.1 ≤ z.1 := by
  induction l generalizing y with
  | nil => cases h
  | cons x l ih =>
    unfold earliestDue at h
    split at h
    · rename_i w hw
      obtain ⟨hm, hle⟩ := ih hw
      split at h
      · rename_i hlt
        cases h
        refine ⟨List.mem_cons_of_mem x hm, fun z hz => ?_⟩
        rcases List.mem_cons.1 hz with rfl | hz
        · exact le_of_lt hlt
        · exact hle z hz
      · rename_i hnl
        cases h
        refine ⟨List.mem_cons_self, fun z hz => ?_⟩
        rcases List.mem_cons.1 hz with rfl | hz
        · exact le_refl _
        · exact (not_lt.1 hnl).trans (hle z hz)
    · rename_i hn
      cases h
      have hl : l = [] := by
        cases l with
        | nil => rfl
        | cons a l =>
          unfold earliestDue at hn
          split at hn
          · split at hn <;> cases hn
          · cases hn
      subst hl
      exact ⟨List.mem_cons_self, fun z hz => by rw [List.mem_singleton.1 hz]⟩

theorem earliestDue_none {l : List (Time × DueEvent)} (h : earliestDue l = none) : l = [] := by
  cases l with
  | nil => rfl
  | cons a l =>
    unfold earliestDue at h
    split at h
    · split at h <;> cases h
    · cases h

/-- A time that is waited for and passed. -/
theorem State.mem_passed {v : State} {g : Time} {done : List (Time × DueEvent)} {z : Time × DueEvent} :
    z ∈ v.dueTimes.filter (fun x => decide (g ≤ x.1) && decide (x.1 ≤ v.now) && !done.contains x) ↔
      z ∈ v.dueTimes ∧ g ≤ z.1 ∧ z.1 ≤ v.now ∧ z ∉ done := by
  rw [List.mem_filter]
  simp only [Bool.and_eq_true, decide_eq_true_eq, Bool.not_eq_true', List.contains_eq_mem, decide_eq_false_iff_not, and_assoc]

theorem State.nextDue_earliest (v : State) (g : Time) (done : List (Time × DueEvent)) :
    (∀ y, v.nextDue g done = some y → y ∈ v.dueTimes ∧ g ≤ y.1 ∧ y.1 ≤ v.now ∧ y ∉ done ∧
      ∀ z ∈ v.dueTimes, g ≤ z.1 → z.1 ≤ v.now → z ∉ done → y.1 ≤ z.1) ∧
    (v.nextDue g done = none → ∀ z ∈ v.dueTimes, g ≤ z.1 → z.1 ≤ v.now → z ∈ done) := by
  refine ⟨fun y h => ?_, fun h z hz h1 h2 => ?_⟩
  · obtain ⟨hm, hle⟩ := earliestDue_some h
    obtain ⟨h1, h2, h3, h4⟩ := State.mem_passed.1 hm
    exact ⟨h1, h2, h3, h4, fun z hz hz1 hz2 hz3 => hle z (State.mem_passed.2 ⟨hz, hz1, hz2, hz3⟩)⟩
  · by_contra hd
    have hm := State.mem_passed.2 ⟨hz, h1, h2, hd⟩
    rw [earliestDue_none h] at hm
    cases hm

theorem State.mem_dueTimes {v : State} {o : OutletId} (hs : v.isSelf o = true) {x : Time × DueEvent}
    (h : (∃ e ∈ (v.out o).entries, x ∈ e.dueTimes o) ∨ ∃ p b, (v.out o).place p = some b ∧ x ∈ b.dueTimes o p) : x ∈ v.dueTimes := by
  refine List.mem_flatMap.2 ⟨o, by cases o <;> decide, ?_⟩
  rw [if_pos hs, List.mem_append]
  refine h.imp (fun ⟨e, he, hx⟩ => List.mem_flatMap.2 ⟨e, he, hx⟩) fun ⟨p, b, hb, hx⟩ => List.mem_flatMap.2 ⟨p, by cases p <;> decide, ?_⟩
  rw [State.fit, hb]
  exact hx

theorem Entry.mem_dueTimes {e : Entry} {o : OutletId} {u : Time} :
    (e.mode = .soft u → (u, DueEvent.soft o e.tag u) ∈ e.dueTimes o) ∧
    (e.mode = .hard u → (u - 96000, DueEvent.settle) ∈ e.dueTimes o ∧ (u, DueEvent.settle) ∈ e.dueTimes o) ∧
    (e.start = .time u → (u, DueEvent.settle) ∈ e.dueTimes o) ∧ (e.air.silentUntil = some u → (u, DueEvent.rejoin o none) ∈ e.dueTimes o) := by
  unfold Entry.dueTimes
  refine ⟨fun h => ?_, fun h => ?_, fun h => ?_, fun h => ?_⟩ <;> simp [h]

theorem FittedBreak.mem_dueTimes {b : FittedBreak} {o : OutletId} {p : Place} {u : Time} (hs : b.state = .running) (hu : b.start = some u) :
    (∀ d, b.due = some d → (d, DueEvent.settle) ∈ b.dueTimes o p) ∧ (u + b.len - 480, .cut o p) ∈ b.dueTimes o p ∧
      (u + b.len, .rejoin o (some p)) ∈ b.dueTimes o p := by
  unfold FittedBreak.dueTimes
  rw [hs, FittedBreak.rejoinAt, hu]
  refine ⟨fun d h => ?_, ?_, ?_⟩
  · simp [h]
  · simp
  · simp

/-! ### A forward step (R85, R86) -/

theorem State.handleLoop_none {v : State} {g : Time} {done : List (Time × DueEvent)} (n : Nat) (h : v.nextDue g done = none) :
    State.handleLoop n v g done = v := by
  cases n with
  | zero => rfl
  | succ n => rw [State.handleLoop, h]

theorem State.handleLoop_some {v : State} {g : Time} {done : List (Time × DueEvent)} {y : Time × DueEvent} (n : Nat)
    (h : v.nextDue g done = some y) :
    State.handleLoop (n + 1) v g done = State.handleLoop n (v.handleDue y) y.1 (y :: done.filter fun z => z.1 == y.1) := by
  rw [State.handleLoop, h]

theorem exec_softTimeReached {v : State} (hp : v.powered = true) (n : Nat) (o : OutletId) {e : Entry} {u : Time}
    (he : ((v.elapse n).out o).entry e.tag = some e) (hm : e.mode = .soft u) (hu : u ≤ (v.elapse n).reached) :
    exec (.softTimeReached n o e.tag) v = .next (((v.elapse n).settle.reachSoft o e.tag u).finish (v.elapse n)) := by
  have hd : (v.elapse n).softDue o e.tag = some u := by
    rw [State.softDue, he]
    simp [hm, StartMode.softTime, Option.filter, hu]
  rw [exec, execSoftTimeReached, State.run_powered hp, hd]

/-- What the clock discipline is after a reference frame: as the windows leave it, and, where the frame's time of sending lies far from
group time, stepped. -/
theorem State.takeReference_disc {s : State} {feed : Nat} (h : s.cfg.refFeed = feed) (h1 : 1 ≤ feed) (frame sentAt : Time) (sender phase : Nat) :
    let v := s.takeWindow frame (s.counter phase) sender
    let t := s.takeReference feed frame sentAt sender phase
    ((¬ ∃ g, s.disc.groupTime = some g ∧ 480 < (sentAt - g).natAbs) → t = v) ∧
    (∀ g, s.disc.groupTime = some g → 480 < (sentAt - g).natAbs → t = v.stepTime (steppedTime g sentAt) sender ∧
      t.disc = { v.disc with groupTime := some (steppedTime g sentAt), window := none }) := by
  have hg := (s.takeWindow_times frame (s.counter phase) sender).2
  dsimp only
  rw [State.takeReference_ref h h1]
  generalize s.takeWindow frame (s.counter phase) sender = v at hg
  rw [← hg]
  refine ⟨fun hn => State.compareTime_near hn sender, fun g hv hf => ?_⟩
  rw [State.compareTime_far hv hf]
  exact ⟨rfl, (v.stepTime_lasts _ sender).disc⟩

section windows
variable {s : State} {frame : Time} {count sender : Nat}

/-- The window after a reference frame (the table of R81). -/
theorem State.takeWindow_window :
    let v := s.takeWindow frame count sender
    let opened : Option Window := some { f0 := frame, a0 := count, sender := sender, last := frame }
    (s.disc.window = none → v.disc.window = opened) ∧
    ∀ w, s.disc.window = some w →
      (w.sender ≠ sender → v.disc.window = opened) ∧
      (w.sender = sender → frame = w.last → v.disc.window = some w) ∧
      (w.sender = sender → frame = w.last + 48 →
        v.disc.window = if frame = w.f0 + 49152 then opened else some { w with last := frame }) ∧
      (frame ≠ w.last → frame ≠ w.last + 48 → v.disc.window = opened) := by
  refine ⟨fun h => ?_, fun w h => ⟨fun hs => ?_, fun hs hl => ?_, fun hs hl => ?_, fun h1 h2 => ?_⟩⟩
  · rw [State.takeWindow_first h]
    rfl
  · rw [State.takeWindow_broken h (Or.inl hs)]
    rfl
  · rw [State.takeWindow_again h hs hl, h]
  · split
    · rename_i hc
      rw [State.takeWindow_complete h hs hl hc]
      rfl
    · rename_i hc
      rw [State.takeWindow_grows h hs hl hc]
  · rw [State.takeWindow_broken h (Or.inr ⟨h1, h2⟩)]
    rfl

open Classical in
/-- A complete window is accepted or rejected (R82, R83). -/
theorem State.takeWindow_evaluates {w : Window} (h : s.disc.window = some w)
    (hc : w.sender = sender ∧ frame = w.last + 48 ∧ frame = w.f0 + 49152) :
    let v := s.takeWindow frame count sender
    let d := s.disc
    ((windowError (count - w.a0)).natAbs ≤ 3200 →
      v.disc.trim = max (-1600) (min 1600 (d.trim + max (-16) (min 16 (-(roundDiv (windowError (count - w.a0)) 2))))) ∧ v.disc.rejected = 0 ∧
      v.disc.state = (if d.state = .acquiring ∨ d.state = .holdover then .tracking else d.state)) ∧
    (3200 < (windowError (count - w.a0)).natAbs →
      v.disc.trim = d.trim ∧ v.disc.rejected = min 4 (d.rejected + 1) ∧
      (d.rejected = 3 ∧ (d.state = .acquiring ∨ d.state = .tracking) →
        v.disc.state = .holdover ∧ ∃ f, (v.captures.slot .clock).first = some f) ∧
      (¬ (d.rejected = 3 ∧ (d.state = .acquiring ∨ d.state = .tracking)) → v.disc.state = d.state)) := by
  obtain ⟨hs, hl, h0⟩ := hc
  rw [State.takeWindow_complete h hs hl h0]
  refine ⟨fun he => ?_, fun he => ?_⟩
  · have hd := State.evaluateWindow_accept (s := s) (w := w) (count := count) he
    refine ⟨congrArg ClockDiscipline.trim hd, congrArg ClockDiscipline.rejected hd, (congrArg ClockDiscipline.state hd).trans ?_⟩
    unfold ClockDiscipline.acceptWindow
    dsimp only
    cases s.disc.state <;> rfl
  · obtain ⟨hd, hf⟩ := State.evaluateWindow_reject (s := s) (w := w) (count := count) he
    exact ⟨(congrArg ClockDiscipline.trim hd : _), (congrArg ClockDiscipline.rejected hd : _), fun hr =>
      ⟨((congrArg ClockDiscipline.state hd : _).trans (if_pos hr) : _), hf hr⟩,
      fun hr => ((congrArg ClockDiscipline.state hd : _).trans (if_neg hr) : _)⟩

end windows

/-- A frame that no outlet takes. -/
theorem State.audioTaken_none {a : State} {b : AudioBody} (h : FrameHead)
    (hn : ∀ p, (a.ocfg p).valid = true → (a.ocfg p).feed ≠ b.feed ∧ (a.isFollow p = true → (a.ocfg p).followFeed ≠ b.feed))
    (hg : a.disc.groupTime.isSome = true) : a.audioTaken h b = a := by
  have hcand : a.takeCandidate b.feed h.sentAt = a := if_pos (by rw [hg, Bool.true_or])
  have hp : ∀ p, a.takeAudioOn p h b = a := fun p => State.takeAudioOn_apart h (fun hv => (hn p hv).1) fun hf =>
    (hn p (by simpa [State.isFollow] using (Bool.and_eq_true _ _ ▸ hf : _ ∧ _).1)).2 hf
  rw [State.audioTaken, hcand]
  simp only [OutletId.all, List.foldl_cons, List.foldl_nil, hp]

end Sys2Proof.Machine

open Sys2Proof Sys2Proof.Machine

/-- Settles O37. -/
theorem referenceFramesSteerTheClock : Obligations.ReferenceFramesSteerTheClock := by
  intro s dt h b phase hp hh hf h1 h64 href a d count far opened complete
  have hexec := exec_audioFrame hp hh hf h1 h64 dt phase
  -- What the outlets leave of the discipline and the clock.
  obtain ⟨c, hcand, hgroup⟩ := a.takeCandidate_eq b.feed h.sentAt
  have hxd : (a.audioTaken h b).disc = { a.disc with candidate := (a.takeCandidate b.feed h.sentAt).disc.candidate } :=
    (congrArg Prod.fst (State.takeAudio_steady _ h b OutletId.all)).trans (State.takeCandidate_disc a b.feed h.sentAt)
  have hxc : (a.audioTaken h b).cfg.refFeed = b.feed := by rw [State.audioTaken_cfg]; simpa [a] using href
  have hcount : (a.audioTaken h b).counter phase = count := by
    rw [State.counter, State.audioTaken_clock, State.elapse_clock]
    rfl
  generalize hx : a.audioTaken h b = x at hxd hxc hcount
  obtain ⟨hnear, hfar⟩ := State.takeReference_disc hxc h1 b.frameTime h.sentAt h.sender phase
  have hgx : x.disc.groupTime = a.disc.groupTime := by rw [hxd]
  rw [hcount, hgx] at hnear hfar
  refine ⟨_, hexec, ?_⟩
  rw [hx]
  have had := State.elapse_disc s dt
  have hdx : x.disc.window = d.window ∧ x.disc.trim = d.trim ∧ x.disc.rejected = d.rejected ∧ x.disc.state = d.state := by
    rw [hxd, had]
    exact ⟨rfl, rfl, rfl, rfl⟩
  obtain ⟨ew, et, er, es⟩ := hdx
  have hwin := State.takeWindow_window (s := x) (frame := b.frameTime) (count := count) (sender := h.sender)
  have hval := fun w => State.takeWindow_evaluates (s := x) (frame := b.frameTime) (count := count) (sender := h.sender) (w := w)
  have hkeep := State.takeWindow_keeps (s := x) (frame := b.frameTime) (count := count) (sender := h.sender)
  have hgw := (x.takeWindow_times b.frameTime count h.sender).2
  dsimp only at hwin hval
  rw [ew] at hwin hkeep hval
  rw [et, er, es] at hval
  have hy : x.takeReference b.feed b.frameTime h.sentAt h.sender phase = (x.takeWindow b.frameTime count h.sender).compareTime h.sentAt h.sender := by
    rw [State.takeReference_ref hxc h1, hcount]
  -- What is left of the windows at the end.
  have hmoves : State.Moves false (x.takeWindow b.frameTime count h.sender)
      (x.takeReference b.feed b.frameTime h.sentAt h.sender phase) := by
    rw [hy]
    exact State.compareTime_moves .refl _ _
  generalize hv : x.takeWindow b.frameTime count h.sender = v at hwin hval hkeep hgw hmoves hnear hfar
  generalize x.takeReference b.feed b.frameTime h.sentAt h.sender phase = y at hmoves hnear hfar
  have hlast := (y.finish_lasts a).disc
  have hfirst : ∀ f, (v.captures.slot .clock).first = some f → ((y.finish a).captures.slot .clock).first.isSome = true := fun f hf => by
    obtain ⟨u, l, hu, e⟩ := y.finish_eq a
    rw [e]
    exact Option.isSome_iff_exists.2 ⟨f, hu.firsts .clock f (hmoves.firsts .clock f hf)⟩
  have hrest : (y.finish a).disc.trim = v.disc.trim ∧ (y.finish a).disc.rejected = v.disc.rejected ∧
      (y.finish a).disc.state = v.disc.state := by
    rw [hlast]
    by_cases hfr : far
    · obtain ⟨g, hg, hd⟩ := hfr
      rw [(hfar g hg hd).2]
      exact ⟨rfl, rfl, rfl⟩
    · rw [hnear hfr]
      exact ⟨rfl, rfl, rfl⟩
  obtain ⟨ht, hr, hs⟩ := hrest
  refine ⟨fun g hg hd => ?_, fun g hg hd => ?_, fun v g n done => ⟨rfl, State.handleLoop_none n, fun w => State.handleLoop_some n⟩,
    fun v u o => ⟨rfl, fun n m => rfl, fun p => ⟨rfl, rfl⟩, fun q => rfl⟩,
    fun v n o hv => ⟨fun q => ?_, fun p => ⟨?_, ?_⟩, fun e u => exec_softTimeReached hv n o⟩,
    State.nextDue_earliest, fun v o hv => ⟨fun e he => ?_, fun p f u hp hs hu => ?_⟩, fun hn => ?_, fun hn => ?_, fun w hw hc => ?_⟩
  · obtain ⟨hst, hdisc⟩ := hfar g hg hd
    obtain ⟨f, hf⟩ := v.stepTime_latched (steppedTime g h.sentAt) h.sender
    obtain ⟨h1, h2, h3⟩ := steppedTime_near g h.sentAt
    obtain ⟨u, l, hu, e⟩ := y.finish_eq a
    refine ⟨steppedTime g h.sentAt, by rw [hlast, hdisc], h1, h2, h3, by rw [hlast, hdisc], ?_⟩
    rw [e]
    exact Option.isSome_iff_exists.2 ⟨f, hu.firsts .clock f (hst ▸ hf)⟩
  · have hd' : 480 < (h.sentAt - g).natAbs := by
      have : ∀ g h : Int, g + 480 < h → 480 < (h - g).natAbs := fun g h => by omega
      exact this _ _ hd
    obtain ⟨hst, hdisc⟩ := hfar g hg hd'
    have hnow : v.now = g := by rw [State.now, hgw, hgx, hg]; rfl
    have hy' : y = (v.stepForward (steppedTime g h.sentAt) h.sender).handlePassed g := by
      rw [hst, State.stepTime_forward (by rw [hnow]; exact steppedTime_later hd), hnow]
    have hgt : (v.stepForward (steppedTime g h.sentAt) h.sender).disc.groupTime = (y.finish a).disc.groupTime := by
      rw [hlast, hy', (State.handlePassed_lasts _ g).disc]
    refine ⟨⟨_, by rw [← hy'], hgt⟩, fun hnone hclean hhor => ⟨v.stepForward (steppedTime g h.sentAt) h.sender, by rw [← hy'], hgt, ?_⟩⟩
    have hxa : x = a := by
      rw [← hx]
      refine State.audioTaken_none h ?_ (by rw [hg]; rfl)
      simpa only [a, State.elapse_ocfg, State.elapse_isFollow] using hnone
    obtain ⟨d', c', hdc⟩ := x.takeWindow_eq b.frameTime count h.sender
    have hav : a.Hushed v := by
      rw [← hv, hdc, hxa]
      exact ⟨rfl, rfl, rfl, fun _ => rfl, fun _ _ => ⟨rfl, rfl⟩, fun h => h⟩
    have hca : ∀ p, (a.out p).Clean := fun p e he => hclean p e (by simpa only [a, State.elapse_out_history] using he)
    have hall := hav.trans (.stepForward (steppedTime g h.sentAt) h.sender (hav.clean hca))
    generalize v.stepForward (steppedTime g h.sentAt) h.sender = w at hall
    have hre := hall.rest
    simp only [Prod.mk.injEq] at hre
    obtain ⟨r1, r2, r3, r4, r5, r6, r7, r8⟩ := hre
    refine ⟨r1.trans ((State.elapse_horizon s dt).trans hhor), r2, r3, r4, r5, r6, r7, r8, hall.next, hall.records, fun p => ⟨?_, fun hp => ?_⟩⟩
    · have hp := hall.stage p
      simp only [Outlet.stage, Prod.mk.injEq] at hp
      exact hp
    · exact hall.places p ((State.elapse_isSelf s dt p).trans hp)
  · rw [exec, execRejoin, State.run_powered hv]
  · rw [exec, execCutAtTheRejoin, State.run_powered hv]
  · rw [exec, execBedRampStart, State.run_powered hv]
  · have hm : ∀ x, x ∈ e.dueTimes o → x ∈ v.dueTimes := fun x hx => State.mem_dueTimes hv (Or.inl ⟨e, he, hx⟩)
    exact ⟨fun u hu => hm _ (Entry.mem_dueTimes.1 hu), fun u hu => ⟨hm _ (Entry.mem_dueTimes.2.1 hu).1, hm _ (Entry.mem_dueTimes.2.1 hu).2⟩,
      fun u hu => hm _ (Entry.mem_dueTimes.2.2.1 hu), fun u hu => hm _ (Entry.mem_dueTimes.2.2.2 hu)⟩
  · have hm : ∀ x, x ∈ f.dueTimes o p → x ∈ v.dueTimes := fun x hx => State.mem_dueTimes hv (Or.inr ⟨p, f, hp, hx⟩)
    obtain ⟨h1, h2, h3⟩ := FittedBreak.mem_dueTimes (o := o) (p := p) hs hu
    exact ⟨fun d hd => hm _ (h1 d hd), hm _ h2, hm _ h3⟩
  · rw [hlast, hnear hn]
    exact ⟨hgw.trans hgx, hwin⟩
  · obtain ⟨k, hk⟩ := hkeep hn
    rw [ht, hr, hs, hk]
    exact ⟨et, er, es⟩
  · obtain ⟨hacc, hrej⟩ := hval w hw hc
    rw [ht, hr, hs]
    refine ⟨windowError (count - w.a0), roundDiv (windowError (count - w.a0)) 2, roundDiv_rounds _ (by decide), roundDiv_rounds _ (by decide),
      fun he => ?_, fun he => ?_⟩
    · obtain ⟨a1, a2, a3⟩ := hacc he
      exact ⟨a1, a2, a3.trans (if_congr Iff.rfl rfl rfl)⟩
    · obtain ⟨b1, b2, b3, b4⟩ := hrej he
      exact ⟨b1, b2, fun hh => ⟨(b3 hh).1, (b3 hh).2.elim fun f hf => hfirst f hf⟩, b4⟩
end

section
/-! What a RESTART makes of the versions of the store, once every voice is FREE (R105, R110, R124). -/

namespace Sys2Proof.Machine

/-! ### Changes of one version -/

/-- No two versions have one name, and no voice holds any. -/
def Store.Idle (st : Store) : Prop := (st.versions.map Version.key).Nodup ∧ ∀ v ∈ st.versions, v.useCount = 0

/-- Two stores agree on a name: on the version that has it and on its place in the verify queue. -/
def Store.SameAt (k : Nat × Nat) (a s : Store) : Prop :=
  (∀ w, w.key = k → (w ∈ s.versions ↔ w ∈ a.versions)) ∧ (k ∈ s.verifyQueue ↔ k ∈ a.verifyQueue)

theorem Store.SameAt.refl (k : Nat × Nat) (a : Store) : a.SameAt k a := ⟨fun _ _ => Iff.rfl, Iff.rfl⟩

theorem Store.SameAt.trans {k : Nat × Nat} {a s t : Store} (h : Store.SameAt k a s) (h' : Store.SameAt k s t) : Store.SameAt k a t :=
  ⟨fun w hw => (h'.1 w hw).trans (h.1 w hw), h'.2.trans h.2⟩

/-- From `a` to `s` no version has changed but the one of a name. -/
structure Store.ChangesAt (k : Nat × Nat) (a s : Store) : Prop where
  idle : s.Idle
  same : ∀ k', k' ≠ k → Store.SameAt k' a s
  queue : s.verifyQueue.Sublist a.verifyQueue

theorem Store.ChangesAt.refl {a : Store} (h : a.Idle) (k : Nat × Nat) : Store.ChangesAt k a a := ⟨h, fun _ _ => .refl _ _, List.Sublist.refl _⟩

theorem Store.ChangesAt.trans {k : Nat × Nat} {a s t : Store} (h : Store.ChangesAt k a s) (h' : Store.ChangesAt k s t) : Store.ChangesAt k a t :=
  ⟨h'.idle, fun k' hk => (h.same k' hk).trans (h'.same k' hk), h'.queue.trans h.queue⟩

theorem Version.is_iff {v : Version} {c n : Nat} : v.is c n = true ↔ v.key = (c, n) := by simp [Version.is, Version.key]

/-- In a store that no voice uses, freeing a version takes its record out of the directory. -/
theorem Store.freeVersion_idle {st : Store} (h : st.Idle) (c n : Nat) :
    (st.freeVersion c n).versions = st.versions.filter (fun w => !w.is c n) ∧ (st.freeVersion c n).verifyQueue = st.verifyQueue ∧
      (st.freeVersion c n).loadQueue = st.loadQueue := by
  unfold Store.freeVersion
  split
  · rename_i e
    refine ⟨(List.filter_eq_self.2 fun w hw => ?_).symm, rfl, rfl⟩
    simpa using List.find?_eq_none.mp e w hw
  · rename_i v e
    rw [if_pos (h.2 v (Store.find_is e).1)]
    exact ⟨rfl, rfl, rfl⟩

theorem Store.ChangesAt.freeVersion {st : Store} (h : st.Idle) (c n : Nat) : Store.ChangesAt (c, n) st (st.freeVersion c n) := by
  obtain ⟨hv, hq, -⟩ := st.freeVersion_idle h c n
  refine ⟨⟨?_, fun v hm => h.2 v ?_⟩, fun k hk => ⟨fun w hw => ?_, by rw [hq]⟩, by rw [hq]⟩
  · rw [hv]
    exact (List.filter_sublist.map _).nodup h.1
  · rw [hv] at hm
    exact (List.mem_filter.1 hm).1
  · rw [hv, List.mem_filter]
    have : w.is c n = false := by
      rw [← Bool.not_eq_true, Version.is_iff, hw]
      exact hk
    simp [this]

theorem Store.ChangesAt.modVersion {st : Store} (h : st.Idle) (c n : Nat) (f : Version → Version) (hf : ∀ v, (f v).held = v.held) :
    Store.ChangesAt (c, n) st (st.modVersion c n f) := by
  have hfix : ∀ v, (f v).fixed = v.fixed := fun v => congrArg Prod.fst (hf v)
  have huse : ∀ v, (f v).useCount = v.useCount := fun v => congrArg Prod.snd (hf v)
  have hkey : ∀ v, (f v).key = v.key := fun v => congrArg Version.keyOf (hfix v)
  refine ⟨⟨?_, fun v hm => ?_⟩, fun k hk => ⟨fun w hw => ?_, Iff.rfl⟩, List.Sublist.refl _⟩
  · rw [Store.keys_eq, st.modVersion_fixed c n f hfix, ← Store.keys_eq]
    exact h.1
  · obtain ⟨w, hw, rfl⟩ := List.mem_map.1 hm
    split
    · rw [huse]
      exact h.2 w hw
    · exact h.2 w hw
  · refine ⟨fun hm => ?_, fun hm => List.mem_map.2 ⟨w, hm, if_neg ?_⟩⟩
    · obtain ⟨v, hv, e⟩ := List.mem_map.1 hm
      split at e
      · rename_i hi
        rw [← e, hkey, Version.is_iff.1 hi] at hw
        exact absurd hw.symm hk
      · exact e ▸ hv
    · rw [Version.is_iff, hw]
      exact hk

theorem Store.freeVersion_gone {st : Store} (h : st.Idle) (c n : Nat) {w : Version} (hw : w ∈ (st.freeVersion c n).versions) :
    w.key ≠ (c, n) := by
  rw [(st.freeVersion_idle h c n).1] at hw
  intro hk
  have := (List.mem_filter.1 hw).2
  rw [Version.is_iff.2 hk] at this
  exact absurd this (by decide)

/-- The queues lose what is of one name. -/
theorem Store.ChangesAt.unqueue {st : Store} (h : st.Idle) (k : Nat × Nat) (l : List Payload) (w : Option Sweep) :
    Store.ChangesAt k st { st with loadQueue := l, verifyQueue := st.verifyQueue.filter fun q => q != k, sweep := w } :=
  ⟨h, fun k' hk => ⟨fun _ _ => Iff.rfl, by simp [hk]⟩, List.filter_sublist⟩

/-- The version of a name, in the change made of it. -/
theorem Store.modVersion_at {st : Store} {c n : Nat} {f : Version → Version} (hf : ∀ v, (f v).fixed = v.fixed) {w : Version}
    (hw : w.key = (c, n)) : w ∈ (st.modVersion c n f).versions ↔ ∃ v ∈ st.versions, v.key = (c, n) ∧ f v = w := by
  have hkey : ∀ v, (f v).key = v.key := fun v => congrArg Version.keyOf (hf v)
  simp only [Store.modVersion, List.mem_map]
  refine ⟨fun ⟨v, hv, e⟩ => ?_, fun ⟨v, hv, hk, e⟩ => ⟨v, hv, ?_⟩⟩
  · split at e
    · rename_i hi
      exact ⟨v, hv, Version.is_iff.1 hi, e⟩
    · rename_i hi
      rw [e] at hi
      exact absurd (Version.is_iff.2 hw) hi
  · rw [if_pos (Version.is_iff.2 hk)]
    exact e

/-- Discarding a version changes that one alone: what is left of it has no role (R116). -/
theorem State.discard_changes {s : State} (h : s.store.Idle) (c n : Nat) :
    ∃ st tr, s.discard c n = { s with store := st, transfer := tr } ∧ Store.ChangesAt (c, n) s.store st ∧
      ∀ w ∈ st.versions, w.key = (c, n) → w.role = .discarding ∧ w.state = .quarantined := by
  have hmod := Store.ChangesAt.modVersion h c n (fun v => { v with role := .discarding, state := .quarantined }) fun _ => rfl
  have hq := hmod.trans (Store.ChangesAt.unqueue hmod.idle (c, n)
    (s.store.loadQueue.filter fun p => !(p.cart == c && p.serial == n)) (s.store.sweep.filter fun w => !(w.cart == c && w.serial == n)))
  unfold State.discard
  dsimp only
  split
  · refine ⟨_, _, rfl, hq, fun w hw hk => ?_⟩
    obtain ⟨v, -, -, rfl⟩ := (Store.modVersion_at (f := fun v => { v with role := .discarding, state := .quarantined }) (fun _ => rfl) hk).1 hw
    exact ⟨rfl, rfl⟩
  · refine ⟨_, s.transfer, rfl, hq.trans (Store.ChangesAt.freeVersion hq.idle c n), fun w hw hk => ?_⟩
    exact absurd hk (Store.freeVersion_gone hq.idle c n hw)

/-! ### One version after the other -/

/-- A pass over versions of different names, that changes each of them alone, does to each what it does of it as it was. -/
theorem State.foldl_changes {f : State → Version → State} (hf : ∀ t v, t.store.Idle → Store.ChangesAt v.key t.store (f t v).store)
    (l : List Version) (hn : (l.map Version.key).Nodup) (s : State) (hs : s.store.Idle) :
    (l.foldl f s).store.Idle ∧ (l.foldl f s).store.verifyQueue.Sublist s.store.verifyQueue ∧
      (∀ k, k ∉ l.map Version.key → Store.SameAt k s.store (l.foldl f s).store) ∧
      ∀ v ∈ l, ∃ t : State, t.store.Idle ∧ Store.SameAt v.key s.store t.store ∧ Store.SameAt v.key (f t v).store (l.foldl f s).store := by
  induction l generalizing s with
  | nil => exact ⟨hs, List.Sublist.refl _, fun k _ => .refl _ _, fun v hv => nomatch hv⟩
  | cons x l ih =>
    rw [List.map_cons, List.nodup_cons] at hn
    have hx := hf s x hs
    obtain ⟨h1, h2, h3, h4⟩ := ih hn.2 (f s x) hx.idle
    refine ⟨h1, h2.trans hx.queue, fun k hk => ?_, fun v hv => ?_⟩
    · rw [List.map_cons, List.mem_cons, not_or] at hk
      exact (hx.same k hk.1).trans (h3 k hk.2)
    · rcases List.mem_cons.1 hv with rfl | hv
      · exact ⟨s, hs, .refl _ _, h3 _ hn.1⟩
      · obtain ⟨t, ht, ha, hb⟩ := h4 v hv
        refine ⟨t, ht, (hx.same _ fun e => hn.1 ?_).trans ha, hb⟩
        exact e ▸ List.mem_map_of_mem hv

/-! ### The three passes of a RESTART (R124) -/

/-- RETIRING versions are freed. -/
def State.freeRetiring (s : State) (v : Version) : State :=
  if v.state == .retiring then { s with store := s.store.freeVersion v.cart v.serial } else s

/-- LOADING versions are discarded. -/
def State.discardLoading (s : State) (v : Version) : State := if v.state == .loading then s.discard v.cart v.serial else s

/-- The load receive queue empties, and the transfer in hand comes to nothing. -/
def State.dropLoads (s : State) : State :=
  { s with store := { s.store with loadQueue := [], sweep := none }, transfer := s.transfer.map fun t => { t with stale := true } }

theorem State.restartStore_passes (s : State) :
    ∃ p q : State, p = s.store.versions.foldl State.freeRetiring s ∧ q = p.store.versions.foldl State.discardLoading p ∧
      s.restartStore = q.dropLoads.store.versions.foldl State.failShort q.dropLoads := ⟨_, _, rfl, rfl, rfl⟩

theorem State.freeRetiring_changes (t : State) (v : Version) (h : t.store.Idle) : Store.ChangesAt v.key t.store (t.freeRetiring v).store := by
  unfold State.freeRetiring
  split
  · exact .freeVersion h _ _
  · exact .refl h _

theorem State.discardLoading_changes (t : State) (v : Version) (h : t.store.Idle) :
    Store.ChangesAt v.key t.store (t.discardLoading v).store := by
  unfold State.discardLoading
  split
  · obtain ⟨st, tr, e, hc, -⟩ := State.discard_changes h v.cart v.serial
    rw [e]
    exact hc
  · exact .refl h _

/-- Ending short: a current version is QUARANTINED, an incoming one discarded (R120, R124). -/
theorem State.endVerification_short (t : State) (v : Version) (h : t.store.Idle) :
    Store.ChangesAt v.key t.store (t.endVerification v false false none).store ∧
      (v.role ≠ .incoming → ∀ w, w.key = v.key → (w ∈ (t.endVerification v false false none).store.versions ↔
        ∃ x ∈ t.store.versions, x.key = v.key ∧ { x with state := .quarantined, closeTag := none } = w)) ∧
      (v.role = .incoming → ∀ w ∈ (t.endVerification v false false none).store.versions, w.key = v.key →
        w.role = .discarding ∧ w.state = .quarantined) := by
  have hans : ∀ s : State, (s.verificationAnswer v false).store = s.store := fun s => by
    unfold State.verificationAnswer
    split
    · rfl
    · exact State.send_eq s _ State.store fun _ _ => rfl
  have hq := Store.ChangesAt.unqueue h v.key t.store.loadQueue (t.store.sweep.filter fun w => !(w.cart == v.cart && w.serial == v.serial))
  unfold State.endVerification
  dsimp only
  rw [hans, if_neg (by decide)]
  unfold State.settleVerification
  rw [if_neg (by decide)]
  split
  · rename_i hr
    obtain ⟨st, tr, e, hc, hw⟩ := State.discard_changes (s := { t with store := _ }) hq.idle v.cart v.serial
    rw [hr]
    refine ⟨?_, fun hn => absurd rfl hn, fun _ w hm hk => hw w ?_ hk⟩
    · erw [e]
      exact hq.trans hc
    · erw [e] at hm
      exact hm
  · rename_i hr
    refine ⟨hq.trans (.modVersion hq.idle _ _ _ fun _ => rfl), fun _ w hk => ?_, fun hi => absurd hi ?_⟩
    · exact Store.modVersion_at (f := fun w => { w with state := .quarantined, closeTag := none }) (fun _ => rfl) hk
    · exact hr

theorem State.failShort_changes (t : State) (v : Version) (h : t.store.Idle) : Store.ChangesAt v.key t.store (t.failShort v).store := by
  unfold State.failShort
  split
  · exact (t.endVerification_short v h).1
  · exact .refl h _

/-- The version of a name is the only one that has it. -/
theorem Store.Idle.eq_of_key {st : Store} (h : st.Idle) {v w : Version} (hv : v ∈ st.versions) (hw : w ∈ st.versions) (hk : w.key = v.key) :
    w = v := List.inj_on_of_nodup_map h.1 hw hv hk

/-- No version of a name comes back, for moves add none. -/
theorem State.Moves.keys {k : Bool} {a s : State} (h : State.Moves k a s) {w : Version} (hw : w ∈ s.store.versions) :
    ∃ v ∈ a.store.versions, v.fixed = w.fixed ∧ v.key = w.key := by
  obtain ⟨v, hv, e⟩ := List.mem_map.1 (h.versions.1.subset (List.mem_map_of_mem hw))
  exact ⟨v, hv, e, congrArg Version.keyOf e⟩

/-- What a RESTART makes of a version (R124). -/
structure Store.Restarted (v : Version) (a r : Store) : Prop where
  gone : v.state = .retiring ∨ v.state = .loading → ∀ w ∈ r.versions, w.key = v.key → w.role = .discarding ∧ w.state = .quarantined
  short : v.state = .verifying → v.written < v.bytes → v.role ≠ .incoming →
    ∀ w, w.key = v.key → (w ∈ r.versions ↔ w = { v with state := .quarantined, closeTag := none })
  shortIncoming : v.state = .verifying → v.written < v.bytes → v.role = .incoming →
    ∀ w ∈ r.versions, w.key = v.key → w.role = .discarding ∧ w.state = .quarantined
  stays : v.state ≠ .retiring → v.state ≠ .loading → (v.state = .verifying → v.bytes ≤ v.written) → Store.SameAt v.key a r

theorem State.restartStore_gives {s : State} (h : s.store.Idle) :
    s.restartStore.store.Idle ∧ s.restartStore.store.loadQueue = [] ∧ s.restartStore.store.verifyQueue.Sublist s.store.verifyQueue ∧
      ∀ v ∈ s.store.versions, Store.Restarted v s.store s.restartStore.store := by
  obtain ⟨p, q, ep, eq, er⟩ := s.restartStore_passes
  obtain ⟨hp, hpq, -, hpv⟩ := State.foldl_changes State.freeRetiring_changes s.store.versions h.1 s h
  rw [← ep] at hp hpq hpv
  obtain ⟨hq, hqq, hqo, hqv⟩ := State.foldl_changes State.discardLoading_changes p.store.versions hp.1 p hp
  rw [← eq] at hq hqq hqo hqv
  obtain ⟨hr, hrq, hro, hrv⟩ := State.foldl_changes State.failShort_changes q.dropLoads.store.versions hq.1 q.dropLoads hq
  rw [← er] at hr hrq hro hrv
  have hloads : s.restartStore.store.loadQueue = [] := by
    have hm : State.Moves true q.dropLoads s.restartStore := er ▸ State.Moves.foldl .refl _ _ fun t v ht => State.failShort_moves ht v
    exact List.sublist_nil.1 hm.versions.2.2
  -- what the second and third passes do of a name, by the version it has
  have second : ∀ v ∈ p.store.versions, v.state ≠ .loading → Store.SameAt v.key p.store q.store := fun v hv hl => by
    obtain ⟨t, -, h1, h2⟩ := hqv v hv
    rw [State.discardLoading, if_neg (by simpa using hl)] at h2
    exact h1.trans h2
  have third : ∀ v ∈ q.store.versions, ¬ (v.state = .verifying ∧ v.written < v.bytes) →
      Store.SameAt v.key q.store s.restartStore.store := fun v hv hl => by
    obtain ⟨t, -, h1, h2⟩ := hrv v hv
    rw [State.failShort, if_neg (by simpa using hl)] at h2
    exact h1.trans h2
  -- a name whose versions have lost their role keeps none with one
  have left : ∀ k, (∀ w ∈ q.store.versions, w.key = k → w.role = .discarding ∧ w.state = .quarantined) →
      ∀ w ∈ s.restartStore.store.versions, w.key = k → w.role = .discarding ∧ w.state = .quarantined := fun k hk w hw e => by
    by_cases hm : k ∈ q.store.versions.map Version.key
    · obtain ⟨v, hv, ev⟩ := List.mem_map.1 hm
      have hs := third v hv fun ⟨hc, _⟩ => by rw [(hk v hv ev).2] at hc; cases hc
      exact hk w ((hs.1 w (e.trans ev.symm)).1 hw) e
    · exact absurd (List.mem_map_of_mem (f := Version.key) (((hro k hm).1 w e).1 hw)) (e ▸ hm)
  have first : ∀ v ∈ s.store.versions, v.state ≠ .retiring → Store.SameAt v.key s.store p.store := fun v hv hl => by
    obtain ⟨t, -, h1, h2⟩ := hpv v hv
    rw [State.freeRetiring, if_neg (by simpa using hl)] at h2
    exact h1.trans h2
  refine ⟨hr, hloads, hrq.trans (hqq.trans hpq), fun v hv => ⟨fun hst => ?_, fun hst hw hrole => ?_, fun hst hw hrole => ?_, fun h1 h2 h3 => ?_⟩⟩
  · refine left v.key fun w hw hk => ?_
    rcases hst with hst | hst
    · obtain ⟨t, ht, -, h2⟩ := hpv v hv
      rw [State.freeRetiring, if_pos (by simp [hst])] at h2
      have hnp : v.key ∉ p.store.versions.map Version.key := fun hm => by
        obtain ⟨x, hx, e⟩ := List.mem_map.1 hm
        exact Store.freeVersion_gone ht _ _ ((h2.1 x e).1 hx) e
      exact absurd (List.mem_map_of_mem (f := Version.key) (((hqo v.key hnp).1 w hk).1 hw)) (hk ▸ hnp)
    · have hvp : v ∈ p.store.versions := ((first v hv (by simp [hst])).1 v rfl).2 hv
      obtain ⟨t, ht, -, h2⟩ := hqv v hvp
      rw [State.discardLoading, if_pos (by simp [hst])] at h2
      obtain ⟨st, tr, e, -, hd⟩ := State.discard_changes ht v.cart v.serial
      rw [e] at h2
      exact hd w ((h2.1 w hk).1 hw) hk
  all_goals have hvp : v ∈ p.store.versions := ((first v hv (by simp [*])).1 v rfl).2 hv
  all_goals have hvq : v ∈ q.store.versions := ((second v hvp (by simp [*])).1 v rfl).2 hvp
  · obtain ⟨t, ht, h1, h2⟩ := hrv v hvq
    rw [State.failShort, if_pos (by simp [hst, hw])] at h2
    intro w hk
    rw [h2.1 w hk, (t.endVerification_short v ht).2.1 hrole w hk]
    refine ⟨fun ⟨x, hx, ek, e⟩ => ?_, fun e => ⟨v, (h1.1 v rfl).2 hvq, rfl, e.symm⟩⟩
    rw [← e, hq.eq_of_key hvq ((h1.1 x ek).1 hx) ek]
  · obtain ⟨t, ht, -, h2⟩ := hrv v hvq
    rw [State.failShort, if_pos (by simp [hst, hw])] at h2
    exact fun w hm hk => (t.endVerification_short v ht).2.2 hrole w ((h2.1 w hk).1 hm) hk
  · exact ((first v hv h1).trans (second v hvp h2)).trans (third v hvq fun ⟨hc, hlt⟩ => absurd (h3 hc) (by omega))

end Sys2Proof.Machine
end

section
/-! The store while voices only end (R103, R104, R111, R121): what the outlets' part of a RESTART leaves of it. -/

namespace Sys2Proof.Machine

/-! ### Versions while voices end -/

/-- A version as it was, but for a quarantine in service of one in use (R121). -/
def Version.Ages (K : Nat × Nat → Prop) (v w : Version) : Prop :=
  (w.fixed = v.fixed ∧ w.role = v.role ∧ w.written = v.written ∧ w.closeTag = v.closeTag) ∧
    (w.state = v.state ∨ v.role = .current ∧ v.state = .ready ∧ w.state = .quarantined ∧ K v.key)

theorem Version.Ages.key {K : Nat × Nat → Prop} {v w : Version} (h : v.Ages K w) : w.key = v.key := congrArg Version.keyOf h.1.1

theorem Version.Ages.retiring {K : Nat × Nat → Prop} {v w : Version} (h : v.Ages K w) : w.state = .retiring ↔ v.state = .retiring := by
  rcases h.2 with e | ⟨-, e, e', -⟩
  · rw [e]
  · rw [e, e']
    decide

/-- A store whose voices, of the names `K`, have only ended: no version has changed but by ageing, and only RETIRING ones are gone. -/
structure Store.Ages (K : Nat × Nat → Prop) (a s : Store) : Prop where
  loads : s.loadQueue = a.loadQueue
  queue : s.verifyQueue = a.verifyQueue
  names : (s.versions.map Version.key).Nodup
  kept : ∀ v ∈ a.versions, v.state ≠ .retiring → ∃ w ∈ s.versions, v.Ages K w
  old : ∀ w ∈ s.versions, ∃ v ∈ a.versions, v.Ages K w

section store
variable {K : Nat × Nat → Prop} {a s : Store}

theorem Store.Ages.refl (h : (a.versions.map Version.key).Nodup) : Store.Ages K a a :=
  ⟨rfl, rfl, h, fun v hv _ => ⟨v, hv, ⟨rfl, rfl, rfl, rfl⟩, .inl rfl⟩, fun w hw => ⟨w, hw, ⟨rfl, rfl, rfl, rfl⟩, .inl rfl⟩⟩

theorem Store.Ages.modVersion (h : Store.Ages K a s) (c n : Nat) (f : Version → Version) (hf : ∀ v, (f v).fixed = v.fixed)
    (hk : ∀ v w : Version, v.key = (c, n) → v.Ages K w → v.Ages K (f w)) : Store.Ages K a (s.modVersion c n f) := by
  have hone : ∀ v w : Version, v.Ages K w → v.Ages K (if w.is c n then f w else w) := fun v w hw => by
    split
    · rename_i hi
      exact hk v w (hw.key.symm.trans (Version.is_iff.1 hi)) hw
    · exact hw
  refine ⟨h.loads, h.queue, ?_, fun v hv hr => ?_, fun w hw => ?_⟩
  · rw [Store.keys_eq, s.modVersion_fixed c n f hf, ← Store.keys_eq]
    exact h.names
  · obtain ⟨w, hw, ha⟩ := h.kept v hv hr
    exact ⟨_, List.mem_map_of_mem hw, hone v w ha⟩
  · obtain ⟨x, hx, rfl⟩ := List.mem_map.1 hw
    obtain ⟨v, hv, ha⟩ := h.old x hx
    exact ⟨v, hv, hone v x ha⟩

theorem Store.Ages.quarantine (h : Store.Ages K a s) {c n : Nat} (hk : K (c, n)) : Store.Ages K a (s.quarantine c n) := by
  refine h.modVersion c n _ (fun v => by split <;> rfl) fun v w hv ha => ?_
  split
  · rename_i hc
    simp only [Bool.and_eq_true, beq_iff_eq] at hc
    obtain ⟨hrole, hstate⟩ := hc
    refine ⟨ha.1, .inr ⟨ha.1.2.1.symm.trans hrole, ?_, rfl, hv ▸ hk⟩⟩
    rcases ha.2 with e | ⟨-, e, -, -⟩
    · exact e.symm.trans hstate
    · exact e
  · exact ha

/-- A version found RETIRING and freed takes none that is not RETIRING with it. -/
theorem Store.Ages.freeRetiring (h : Store.Ages K a s) {c n : Nat} {v : Version} (hf : s.find c n = some v) (hr : v.state = .retiring)
    (h0 : v.useCount = 0) : Store.Ages K a (s.freeVersion c n) := by
  obtain ⟨hv, hcart, hserial⟩ := Store.find_is hf
  have hkey : v.key = (c, n) := Prod.ext hcart hserial
  unfold Store.freeVersion
  simp only [hf, h0, if_true]
  refine ⟨h.loads, h.queue, (List.filter_sublist.map _).nodup h.names, fun x hx hx' => ?_, fun w hw => h.old w (List.mem_of_mem_filter hw)⟩
  obtain ⟨w, hw, ha⟩ := h.kept x hx hx'
  refine ⟨w, List.mem_filter.2 ⟨hw, ?_⟩, ha⟩
  rw [Bool.not_eq_true', ← Bool.not_eq_true, Version.is_iff]
  intro e
  have : w = v := List.inj_on_of_nodup_map h.names hw hv (e.trans hkey.symm)
  exact hx' (ha.retiring.1 (this ▸ hr))

theorem Store.Ages.useDown (h : Store.Ages K a s) (c n : Nat) : Store.Ages K a (s.useDown c n) := by
  have h' : Store.Ages K a (s.modVersion c n fun v => { v with useCount := v.useCount - 1 }) := h.modVersion c n _ (fun _ => rfl) fun _ _ _ ha => ha
  unfold Store.useDown
  dsimp only
  split
  · rename_i v e
    split
    · rename_i hc
      simp only [Bool.and_eq_true, beq_iff_eq] at hc
      exact h'.freeRetiring e hc.1 hc.2
    · exact h'
  · exact h'

end store

/-! ### States while voices end -/

/-- A voice holds a version of the name. -/
def State.Holds (s : State) (k : Nat × Nat) : Prop := ∃ i u, s.voice i = some u ∧ u.key = k

/-- From `a` to `s` voices have ended, none was granted, and no request waits. -/
structure State.Ebbs (a s : State) : Prop where
  queue : s.voiceQueue = []
  voices : ∀ k, s.Holds k → a.Holds k
  store : Store.Ages a.Holds a.store s.store

section ebbs
variable {a s : State}

theorem State.Ebbs.refl (hq : a.voiceQueue = []) (hn : (a.store.versions.map Version.key).Nodup) : a.Ebbs a := ⟨hq, fun _ h => h, .refl hn⟩

/-- A change beside the voices, their queue and the store. -/
theorem State.Ebbs.beside {t : State} (h : a.Ebbs s) (hv : t.voices = s.voices) (hs : t.store = s.store) (hq : t.voiceQueue = s.voiceQueue) :
    a.Ebbs t := by
  refine ⟨hq.trans h.queue, fun k hk => h.voices k ?_, hs ▸ h.store⟩
  simpa only [State.Holds, State.voice, hv] using hk

theorem State.Ebbs.foldl {α : Type} (h : a.Ebbs s) (f : State → α → State) (l : List α) (hf : ∀ t x, a.Ebbs t → a.Ebbs (f t x)) :
    a.Ebbs (l.foldl f s) := by
  induction l generalizing s with
  | nil => exact h
  | cons x l ih => exact ih (hf s x h)

theorem State.voice_setVoice_some {i j : Nat} {u : Option VoiceUse} {w : VoiceUse} (h : (s.setVoice i u).voice j = some w) :
    u = some w ∨ s.voice j = some w := by
  simp only [State.voice, State.setVoice, List.getElem?_modify] at h
  split at h
  · cases hx : s.voices[j]? with
    | none => rw [hx] at h; cases h
    | some v => rw [hx] at h; exact .inl h
  · exact .inr (by simpa [State.voice] using h)

/-- A voice of the same version, or none, where one was. -/
theorem State.Ebbs.setVoice (h : a.Ebbs s) {i : Nat} {u : Option VoiceUse} (hu : ∀ w, u = some w → a.Holds w.key) : a.Ebbs (s.setVoice i u) := by
  refine ⟨h.queue, fun k ⟨j, w, hw, hk⟩ => ?_, h.store⟩
  rcases State.voice_setVoice_some hw with e | e
  · exact hk ▸ hu w e
  · exact h.voices k ⟨j, w, e, hk⟩

theorem State.Ebbs.latch (h : a.Ebbs s) (f : FaultInfo) : a.Ebbs (s.latch f) := h.beside rfl rfl rfl

theorem State.Ebbs.withStore (h : a.Ebbs s) {st : Store} (hs : Store.Ages a.Holds a.store st) : a.Ebbs { s with store := st } :=
  ⟨h.queue, h.voices, hs⟩

theorem State.Ebbs.holds (h : a.Ebbs s) {i : Nat} {u : VoiceUse} (hu : s.voice i = some u) : a.Holds u.key :=
  h.voices _ ⟨i, u, hu, rfl⟩

theorem State.Ebbs.dropVoice (h : a.Ebbs s) (i : Nat) : a.Ebbs (s.dropVoice i) := by
  unfold State.dropVoice
  split
  · exact h
  · rename_i u hu
    have hst : Store.Ages a.Holds a.store (if u.bad then s.store.quarantine u.cart u.serial else s.store) := by
      split
      · exact h.store.quarantine (h.holds hu)
      · exact h.store
    dsimp only
    refine State.Ebbs.setVoice ?_ fun w hw => by cases hw
    exact (h.withStore (hst.useDown u.cart u.serial)).beside rfl rfl rfl

theorem State.Ebbs.settleStream (h : a.Ebbs s) (i : Nat) : a.Ebbs (s.settleStream i) := by
  unfold State.settleStream
  split
  · exact h
  · rename_i u hu
    have hkey : (VoiceUse.leaveBlocks u.firstBlocks u).key = u.key := u.leaveBlocks_key u.firstBlocks
    have hset : ∀ z, a.Ebbs (s.setVoice i (some { VoiceUse.leaveBlocks u.firstBlocks u with streamDone := z })) := fun z =>
      h.setVoice fun w hw => by
        cases hw
        exact hkey ▸ h.holds hu
    have hq : a.Holds (VoiceUse.leaveBlocks u.firstBlocks u).key := hkey ▸ h.holds hu
    split
    · exact h
    · dsimp only
      split
      · split
        · exact hset _
        · exact State.Ebbs.withStore ((hset (some .fail)).latch _) ((hset (some .fail)).store.quarantine hq)
      · exact hset _

theorem State.Ebbs.settlePass (h : a.Ebbs s) (i : Nat) : a.Ebbs (s.settlePass i) := by
  unfold State.settlePass
  split
  · exact h.settleStream i
  · exact h

theorem State.Ebbs.stopVoice (h : a.Ebbs s) (i : Nat) : a.Ebbs (s.stopVoice i).2 := by
  unfold State.stopVoice
  dsimp only
  split
  · exact h.settlePass i
  · exact (h.settlePass i).dropVoice i

theorem State.Ebbs.giveUp (h : a.Ebbs s) (o : OutletId) (k : Holder) : a.Ebbs (s.giveUp o k) := by
  unfold State.giveUp
  rw [State.filterQueue_empty h.queue]
  dsimp only
  split
  · rename_i i _
    rw [State.freeVoices_one h.queue]
    exact h.dropVoice i
  · exact h

theorem State.Ebbs.modOut (h : a.Ebbs s) (o : OutletId) (f : Outlet → Outlet) : a.Ebbs (s.modOut o f) := h.beside rfl rfl rfl

theorem State.Ebbs.modLine (h : a.Ebbs s) (n : Nat) (f : FireLine → FireLine) : a.Ebbs (s.modLine n f) := h.beside rfl rfl rfl

theorem State.Ebbs.tallyStop (h : a.Ebbs s) (o : OutletId) (k : AirKey) : a.Ebbs (s.tallyStop o k) := h.modOut o _

theorem State.Ebbs.record (h : a.Ebbs s) (o : OutletId) (r : Record) (k : Option AirKey) : a.Ebbs (s.record o r k) := by
  obtain ⟨l, tl, e, -⟩ := s.record_eq o r k
  rw [e]
  exact h.beside rfl rfl rfl

theorem State.Ebbs.recordAll (h : a.Ebbs s) (o : OutletId) (l : List (Record × Option AirKey)) : a.Ebbs (s.recordAll o l) :=
  h.foldl _ l fun _ r ht => ht.record o r.1 r.2

theorem State.Ebbs.leaveEntry (h : a.Ebbs s) (o : OutletId) (tag : Nat) (out : Outcome) (rep : VoiceReport) (n : Nat) (u : Option Nat) :
    a.Ebbs (s.leaveEntry o tag out rep n u) := by
  unfold State.leaveEntry
  dsimp only
  split
  · exact h
  · exact (h.record o _ _).modOut o _

theorem State.Ebbs.stopSlot (h : a.Ebbs s) (o : OutletId) (p : Place) (mark : VoiceReport → Nat → Option AirMark) (i : Nat) :
    a.Ebbs (s.stopSlot o p mark i) := by
  unfold State.stopSlot
  split
  · exact h
  · split
    · exact h
    · exact (((h.stopVoice i).modOut o _).tallyStop o _).tallyStop o _

/-! ### An outlet's part of a RESTART (R194, step 2) -/

theorem State.Ebbs.restartFit (h : a.Ebbs s) (o : OutletId) (p : Place) : a.Ebbs (s.restartFit o p) := by
  unfold State.restartFit
  split
  · exact h
  · split
    · have hs := h.foldl (fun s i => s.stopSlot o p (fun _ _ => some .handedOver) i) (s.slotVoices o p) fun t i ht => ht.stopSlot o p _ i
      dsimp only
      split
      · exact hs.recordAll o _
      · exact hs
    · exact h

theorem State.Ebbs.restartEntry (h : a.Ebbs s) (o : OutletId) (e : Entry) : a.Ebbs (s.restartEntry o e) := by
  unfold State.restartEntry
  split
  · rename_i hc
    simp only [Bool.and_eq_true, Bool.not_eq_true', beq_iff_eq] at hc
    obtain ⟨⟨hair, hbreak⟩, hsound⟩ := hc
    unfold State.landEntry
    rw [if_neg (by simp [hair]), if_neg (by simp [hbreak]), if_pos hsound]
    split
    · exact ((h.stopVoice _).tallyStop o _).leaveEntry o _ _ _ _ _
    · exact h.leaveEntry o _ _ _ _ _
  · exact h

theorem State.Ebbs.recordInstant (h : a.Ebbs s) (o : OutletId) (n : Nat) (f : Instant) (out : Outcome) (rep : VoiceReport) :
    a.Ebbs (s.recordInstant o n f out rep) := (h.tallyStop o _).record o _ _

/-- A holder's voice stops, if it has one that meets a condition. -/
theorem State.Ebbs.stopped (h : a.Ebbs s) (x : Option Nat) : a.Ebbs (match x with
    | some i => s.stopVoice i
    | none => (VoiceReport.none, s)).2 := by
  split
  · exact h.stopVoice _
  · exact h

theorem State.Ebbs.stopLine (h : a.Ebbs s) (n : Nat) : a.Ebbs (s.stopLine n) := by
  unfold State.stopLine
  dsimp only
  rcases (s.line n).old with _ | old <;> rcases (s.line n).current with _ | current <;> dsimp only
  · exact (h.stopped _).modLine n _
  · exact ((h.stopped _).recordInstant _ _ _ _ _).modLine n _
  · exact ((h.stopped _).recordInstant _ _ _ _ _).modLine n _
  · exact (((h.stopped _).recordInstant _ _ _ _ _).recordInstant _ _ _ _ _).modLine n _

theorem State.Ebbs.recordPeriod (h : a.Ebbs s) (o : OutletId) (q : FallbackPeriod) (rep : VoiceReport) : a.Ebbs (s.recordPeriod o q rep) := by
  unfold State.recordPeriod
  exact (h.record o _ _).modOut o _

theorem State.Ebbs.stopPeriods (h : a.Ebbs s) (o : OutletId) : a.Ebbs (s.stopPeriods o) := by
  refine h.foldl _ _ fun t q ht => ?_
  refine State.Ebbs.giveUp (State.Ebbs.recordPeriod ?_ o _ _) o _
  split
  · refine State.Ebbs.tallyStop ?_ o _
    split
    · split
      · exact ht.stopVoice _
      · exact ht
    · exact ht
  · split
    · split
      · exact ht.stopVoice _
      · exact ht
    · exact ht

theorem State.Ebbs.restartOutlet (h : a.Ebbs s) (o : OutletId) : a.Ebbs (s.restartOutlet o) := by
  have hfit := h.foldl (fun s p => s.restartFit o p) Place.all fun t p ht => ht.restartFit o p
  unfold State.restartOutlet
  refine State.Ebbs.stopPeriods (State.Ebbs.foldl ?_ _ _ fun t n ht => ht.stopLine n) o
  split
  · exact hfit.foldl _ _ fun t e ht => ht.restartEntry o e
  · exact hfit

theorem State.Ebbs.freeOrder {α : Type} (h : a.Ebbs s) (n : Nat) (l : List α) : a.Ebbs (State.freeOrder n s l).2 := by
  have hpick : ∀ (t : State) (k : Nat), a.Ebbs t → a.Ebbs (t.pick k).2 := fun t k ht => by
    unfold State.pick
    split
    · exact ht
    · exact ht.beside rfl rfl rfl
  induction n generalizing s l with
  | zero => exact h
  | succ n ih =>
    unfold State.freeOrder
    dsimp only
    split
    · exact hpick _ _ h
    · exact ih (hpick _ _ h) _

theorem State.Ebbs.inFreeOrder (h : a.Ebbs s) (f : State → OutletId → State) (hf : ∀ t o, a.Ebbs t → a.Ebbs (f t o)) :
    a.Ebbs (s.inFreeOrder f) := ((h.freeOrder 4 _).foldl f _ hf).foldl f _ hf

end ebbs

end Sys2Proof.Machine
end

section
/-! What a RESTART sends first, and how it leaves the outlets, the voices and the store as it starts afresh (R146, R193, R194). -/

namespace Sys2Proof.Machine

/-! ### The frames sent before anything else (R146, R127) -/

/-- The RELEASE frame of an outlet at a RESTART: it names the successor of its yield, or its best successor, or 0. -/
def State.restartRelease (s : State) (o : OutletId) : SentFrame :=
  s.frame (.release { feed := (s.ocfg o).feed, successor := match (s.out o).yielding with
    | some y => y.successor
    | none => (s.bestSuccessor o).getD 0 })

theorem State.releaseAtRestart_eq {s : State} (hi : s.isolated = false) (o : OutletId) :
    s.releaseAtRestart o = { s with sent := s.sent ++ ([o].filter fun o => (s.out o).air.sends).map s.restartRelease } := by
  unfold State.releaseAtRestart
  dsimp only
  split
  · rename_i hs
    have hf : ([o].filter fun o => (s.out o).air.sends) = [o] := by simp [hs]
    rw [State.send_eq_append, if_neg (by simp [hi]), hf]
    rfl
  · rename_i hs
    have hf : ([o].filter fun o => (s.out o).air.sends) = [] := by simp [hs]
    rw [hf, List.map_nil, List.append_nil]

/-- The RELEASE frames go out in letter order. -/
theorem State.releases_eq (l : List OutletId) {s : State} (hi : s.isolated = false) :
    l.foldl State.releaseAtRestart s = { s with sent := s.sent ++ (l.filter fun o => (s.out o).air.sends).map s.restartRelease } := by
  induction l generalizing s with
  | nil => simp
  | cons o l ih =>
    have hrest : ∀ q, l.foldl State.releaseAtRestart { s with sent := q } =
        { s with sent := q ++ (l.filter fun o => (s.out o).air.sends).map s.restartRelease } := fun q => ih (s := { s with sent := q }) hi
    rw [List.foldl_cons, State.releaseAtRestart_eq hi, hrest]
    refine congrArg (fun q => ({ s with sent := q } : State)) ?_
    rw [List.append_assoc]
    refine congrArg (s.sent ++ ·) ?_
    rw [← List.map_append, ← List.filter_append]
    rfl

/-- Framing what is left changes the outlets and what has been sent. -/
theorem State.flushAudio_eq (n : Nat) (s : State) (o : OutletId) :
    ∃ q l, State.flushAudio n s o = { s with outlets := q, sent := s.sent ++ l } := by
  have hself : ∃ q l, s = { s with outlets := q, sent := s.sent ++ l } := ⟨s.outlets, [], by rw [List.append_nil]⟩
  have hone : ∀ (t : State) (b : Bool), ∃ q l, t.sendAudio o b = { t with outlets := q, sent := t.sent ++ l } := fun t b => by
    unfold State.sendAudio
    split
    · exact ⟨t.outlets, [], by rw [List.append_nil]⟩
    · split
      · dsimp only
        rw [State.send_eq_append]
        exact ⟨_, _, rfl⟩
      · exact ⟨t.outlets, [], by rw [List.append_nil]⟩
  induction n generalizing s with
  | zero => exact hself
  | succ n ih =>
    unfold State.flushAudio
    split
    · exact hself
    · obtain ⟨q, l, e⟩ := hone s true
      obtain ⟨q', l', e'⟩ := ih (s.sendAudio o true) ⟨_, [], by rw [List.append_nil]⟩
      rw [e', e]
      exact ⟨q', l ++ l', by simp⟩

/-! ### A unit without anything to come about -/

/-- The outlet holds nothing that could come about. -/
structure Outlet.Blank (x : Outlet) : Prop where
  entries : x.entries = []
  seqSlot : x.seqSlot = none
  anchorSlot : x.anchorSlot = none
  place1 : x.place1 = none
  place2 : x.place2 = none
  periods : x.periods = []
  inherit : x.inherit = none

theorem Quad.mapId_self {α : Type} (q : Quad α) (f : OutletId → α → α) (h : ∀ o, f o (q.get o) = q.get o) : q.mapId f = q := by
  cases q
  exact congr (congr (congr (congrArg Quad.mk (h .a)) (h .b)) (h .c)) (h .d)

/-- Nothing comes about where nothing is ready and no start is handed on. -/
theorem State.settle_rests {s : State} (h : s.Rests) (hi : ∀ o, (s.out o).inherit = none) : s.settle = s := by
  unfold State.settle
  rw [State.settleLoop_rests h]
  refine congrArg (fun q => ({ s with outlets := q } : State)) (Quad.mapId_self _ _ fun o => ?_)
  have := hi o
  show ({ s.out o with inherit := none } : Outlet) = s.out o
  rw [← this]

theorem State.stepOutlet_blank {s : State} {o : OutletId} (h : (s.out o).Blank) : s.stepOutlet o = none := by
  have hf : ∀ p, s.fit o p = none := fun p => by
    cases p
    · exact h.place1
    · exact h.place2
  have hlost : s.stepLost o = none := by simp [State.stepLost, h.entries]
  have hdue : (s.out o).anchorDue s.reached = none := by simp [Outlet.anchorDue, h.anchorSlot, h.seqSlot]
  have hanchor : s.stepAnchor o = none := by simp [State.stepAnchor, hdue]
  have hlate : s.stepLateLead o = none := by simp [State.stepLateLead, h.entries]
  have hsequence : s.stepSequence o = none := by simp [State.stepSequence, State.sequenceDue, h.seqSlot]
  have hnext : (s.out o).nextEntry = none := by
    unfold Outlet.nextEntry
    rw [h.entries]
    cases (s.out o).leadTag <;> rfl
  have hfill : s.fillSequence o = none := by simp [State.fillSequence, hnext]
  have hfillAnchor : s.fillAnchor o = none := by simp [State.fillAnchor, h.entries]
  have hfallback : s.stepFallback o = none := by simp [State.stepFallback, Outlet.openPeriod, h.periods]
  have hfit : ∀ p, s.stepFit o p = none := fun p => by simp [State.stepFit, hf p]
  have hshadow : ∀ p, s.stepShadow o p = none := fun p => by simp [State.stepShadow, hf p]
  simp only [State.stepOutlet, hlost, hanchor, hlate, hsequence, hfill, hfillAnchor, hfallback, hfit, hshadow, orStep]

theorem State.rests_of_blank {s : State} (h : ∀ o, (s.out o).Blank) (hl : ∀ l ∈ s.lines, l.current = none) : s.Rests := by
  have hline : ∀ n, s.stepLine n = none := fun n => by
    have hc : (s.line n).current = none := by
      unfold State.line
      rw [List.getD_eq_getElem?_getD]
      cases e : s.lines[n]? with
      | none => rfl
      | some l => exact hl l (List.mem_of_getElem? e)
    simp only [State.stepLine, hc]
  have hlines : ∀ l : List Nat, firstStep s.stepLine l = none := fun l => by
    induction l with
    | nil => rfl
    | cons n l ih => simp only [firstStep, hline, ih, orStep]
  have hall : ∀ l : List OutletId, firstStep s.stepOutlet l = none := fun l => by
    induction l with
    | nil => rfl
    | cons o l ih => simp only [firstStep, State.stepOutlet_blank (h o), ih, orStep]
  simp only [State.Rests, State.stepUnit, hall, hlines, orStep]

/-- A transfer begun changes no version, and only the queues of loads shrink. -/
theorem State.pump_eq (s : State) :
    ∃ st tr, s.pump = { s with store := st, transfer := tr } ∧ st.versions = s.store.versions ∧ st.verifyQueue = s.store.verifyQueue ∧
      st.serialCounter = s.store.serialCounter ∧ st.loadQueue.Sublist s.store.loadQueue := by
  unfold State.pump
  split
  · exact ⟨_, _, rfl, rfl, rfl, rfl, List.Sublist.refl _⟩
  · split
    · unfold State.beginTransfer
      dsimp only
      split
      · exact ⟨_, _, rfl, rfl, rfl, rfl, List.drop_sublist _ _⟩
      · split <;> exact ⟨_, _, rfl, rfl, rfl, rfl, List.Sublist.refl _⟩
      · exact ⟨_, _, rfl, rfl, rfl, rfl, List.Sublist.refl _⟩
    · exact ⟨_, _, rfl, rfl, rfl, rfl, List.Sublist.refl _⟩

/-! ### The histories of outlets that do not send (R147) -/

/-- No outlet sends, and the store is as given. -/
def State.Mute (st : Store) (s : State) : Prop := s.store = st ∧ ∀ o, (s.out o).air.sends = false

section mute
variable {st : Store} {s : State}

theorem State.Mute.setOut (h : s.Mute st) (o : OutletId) {x : Outlet} (hx : x.air = (s.out o).air) : (s.setOut o x).Mute st := by
  refine ⟨h.1, fun p => ?_⟩
  rw [State.out_setOut]
  split
  · rw [hx]
    exact h.2 o
  · exact h.2 p

theorem State.Mute.foldl {α : Type} (h : s.Mute st) (f : State → α → State) (l : List α) (hf : ∀ t x, State.Mute st t → State.Mute st (f t x)) :
    (l.foldl f s).Mute st := by
  induction l generalizing s with
  | nil => exact h
  | cons x l ih => exact ih (hf s x h)

theorem State.Mute.leaveHistory (h : s.Mute st) (o : OutletId) (again : Bool) (e : HistEntry) : (s.leaveHistory o again e).Mute st := by
  have hrun : ∀ t : State, t.Mute st → ∀ b r, (t.feedRun o b r).Mute st := fun t ht b r => by
    rw [State.feedRun, if_neg (by rw [ht.2 o]; decide)]
    exact ht
  unfold State.leaveHistory
  dsimp only
  refine hrun _ ?_ _ _
  refine State.Mute.setOut ?_ o rfl
  split
  · exact h.setOut o rfl
  · exact h

theorem State.Mute.stopEchoBlock (h : s.Mute st) (o : OutletId) : (s.stopEchoBlock o).Mute st := by
  have hadd : ∀ t : State, t.Mute st → ∀ e, (t.addHistory o e).Mute st := fun t ht e =>
    (ht.foldl _ _ fun _ d hd => hd.leaveHistory o true d).setOut o rfl
  have hclose : ∀ t : State, t.Mute st → (t.closeEchoBlock o).Mute st := fun t ht => by
    unfold State.closeEchoBlock
    dsimp only
    split
    · exact ht
    · split
      · exact ht.setOut o rfl
      · refine hadd _ ?_ _
        exact ht.setOut o rfl
  have hall : ∀ (n : Nat) (t : State), t.Mute st → (State.closeEchoBlocks n t o).Mute st := fun n => by
    induction n with
    | zero => exact fun _ ht => ht
    | succ n ih =>
      intro t ht
      unfold State.closeEchoBlocks
      split
      · exact ht
      · exact ih _ (hclose t ht)
  exact (hall _ s h).setOut o rfl

theorem State.Mute.emptyHistories (h : s.Mute st) : s.emptyHistories.Mute st :=
  h.foldl _ _ fun _ o ht => ht.foldl _ _ fun _ e hu => hu.leaveHistory o false e

end mute

end Sys2Proof.Machine
end

section
/-! RESTART: the stages it goes through, and O29 (R194). -/

namespace Sys2Proof.Machine

/-! ### The stages of a RESTART -/

/-- What is still to frame has gone out, and no request waits. -/
def State.framed (s : State) : State :=
  { OutletId.all.foldl (fun s o => State.flushAudio (spansLen (s.out o).unsent + 1) s o) s with voiceQueue := [] }

/-- The outlets have written their records and every voice is FREE. -/
def State.vacated (s : State) : State :=
  let t := s.inFreeOrder State.restartOutlet
  (List.range t.voices.length).foldl State.dropVoice t

/-- Every outlet is DARK. -/
def State.darkened (s : State) : State := { s with outlets := s.outlets.mapId fun _ x => { x with air := .dark } }

/-- The histories are empty. -/
def State.silenced (s : State) : State := (OutletId.all.foldl State.stopEchoBlock s.darkened).emptyHistories

/-- The unit as its start finds it before its first beacon. -/
def State.afresh (s : State) (config : List Byte) : State :=
  let cfg := settleConfig config
  let iso := s.isolated || configIsolates config
  { s with
    captures := .reset
    boot := .restartRequest
    disc := { s.disc with state := if cfg.refFeed = 0 then .free else .tracking, rejected := 0, window := none, candidate := none }
    configMemory := config, cfg := cfg, isolated := iso, voices := poolFor cfg, voiceQueue := [], peers := []
    listenSince := some s.clock
    outlets := cfg.outlets.mapId fun _ c => startOutlet c iso
    lines := s.lines.map fun l => { FireLine.reset with active := l.active, since := s.clock } }

/-- The unit at a RESTART before it starts afresh. -/
def State.wound (s : State) : State := (OutletId.all.foldl State.releaseAtRestart s).framed.vacated.restartStore.silenced

theorem State.restart_stages (s : State) (config : List Byte) : s.restart config = (s.wound.afresh config).sendBeacon := by
  have hstart : ∀ m : State,
      ({ m with
        captures := .reset
        boot := .restartRequest
        disc := { m.disc with
          state := if (settleConfig config).refFeed = 0 then .free else .tracking, rejected := 0, window := none, candidate := none } } : State).start
        config = (m.afresh config).sendBeacon := fun m => rfl
  unfold State.restart
  rw [← hstart]
  simp only [State.wound, State.framed, State.vacated, State.silenced, State.darkened]

theorem State.framed_moves (s : State) : State.Moves true s s.framed :=
  (State.Moves.refl.foldl _ OutletId.all fun _ o ht => State.flushAudio_moves ht o).queue []

theorem State.vacated_moves (s : State) : State.Moves true s s.vacated :=
  (State.inFreeOrder_moves .refl State.restartOutlet fun _ o ht => State.restartOutlet_moves ht o).foldl _ _
    fun _ i ht => State.dropVoice_moves ht i

theorem State.silenced_moves (s : State) : State.Moves true s.darkened s.silenced :=
  State.emptyHistories_moves (State.Moves.refl.foldl _ OutletId.all fun _ o ht => State.stopEchoBlock_moves ht o)

theorem State.silenced_store (s : State) : s.silenced.store = s.store :=
  have h : s.darkened.Mute s.store := ⟨rfl, fun o => by cases o <;> rfl⟩
  (State.Mute.emptyHistories (h.foldl _ OutletId.all fun _ o ht => ht.stopEchoBlock o)).1

/-! ### The unit as it starts afresh -/

theorem Quad.get_mapId {α β : Type} (q : Quad α) (f : OutletId → α → β) (o : OutletId) : (q.mapId f).get o = f o (q.get o) := by
  cases o <;> rfl

theorem startOutlet_blank (c : OutletCfg) (i : Bool) : (startOutlet c i).Blank := by
  unfold startOutlet
  split <;> exact ⟨rfl, rfl, rfl, rfl, rfl, rfl, rfl⟩

theorem startOutlet_air (c : OutletCfg) (i : Bool) :
    (startOutlet c i).air = if c.valid = true ∧ i = false then .listening else .dark := by
  unfold startOutlet
  cases c.valid <;> cases i <;> rfl

theorem State.sendBeacon_eq_append (s : State) :
    s.sendBeacon =
      { s with
        sent := s.sent ++ if s.isolated then [] else [s.frame (.beacon s.beacon)]
        beaconSince := s.clock
        outlets := s.outlets.mapId fun _ x => { x with cuePhase := x.cuePhase + 1 } } := by
  unfold State.sendBeacon
  rw [State.send_eq_append]

/-- What follows a start changes no more than the transfer taken up, the sweep and the log (R97, R119, R164). -/
theorem State.afresh_finish (m b : State) (config : List Byte) :
    ∃ st tr lg, (m.afresh config).sendBeacon.finish b = { (m.afresh config).sendBeacon with store := st, transfer := tr, log := lg } ∧
      st.versions = m.store.versions ∧ st.verifyQueue = m.store.verifyQueue ∧ st.serialCounter = m.store.serialCounter ∧
        st.loadQueue.Sublist m.store.loadQueue := by
  have hblank : ∀ o, ((m.afresh config).sendBeacon.out o).Blank := fun o => by
    rw [State.sendBeacon_eq_append]
    show Outlet.Blank (Quad.get (Quad.mapId _ _) o)
    rw [Quad.get_mapId]
    have h : ((m.afresh config).outlets.get o).Blank := by
      show Outlet.Blank (Quad.get (Quad.mapId _ _) o)
      rw [Quad.get_mapId]
      exact startOutlet_blank _ _
    exact ⟨h.entries, h.seqSlot, h.anchorSlot, h.place1, h.place2, h.periods, h.inherit⟩
  have hrests : (m.afresh config).sendBeacon.Rests := State.rests_of_blank hblank fun l hl => by
    rw [State.sendBeacon_eq_append] at hl
    obtain ⟨l', -, rfl⟩ := List.mem_map.1 hl
    rfl
  obtain ⟨st, tr, e, hv, hq, hs, hl⟩ := (m.afresh config).sendBeacon.pump_eq
  obtain ⟨lg, e'⟩ := State.numbered_eq (m.afresh config).sendBeacon.pump b
  have hstore : (m.afresh config).sendBeacon.store = m.store := by rw [State.sendBeacon_eq_append]; rfl
  rw [hstore] at hv hq hs hl
  refine ⟨st, tr, lg, ?_, hv, hq, hs, hl⟩
  rw [State.finish, State.settle_rests hrests fun o => (hblank o).inherit, e', e]

/-- Two voices are set aside for each enabled outlet (R87). -/
theorem poolFor_reserved (cfg : UnitCfg) (o : OutletId) :
    ((poolFor cfg).map Voice.reserved).count (some o) = if (cfg.outlets.get o).enabled then 2 else 0 := by
  have hmap : (poolFor cfg).map Voice.reserved =
      ((OutletId.all.filter fun o => (cfg.outlets.get o).enabled).flatMap fun o => [some o, some o]) ++
        List.replicate (12 - ((OutletId.all.filter fun o => (cfg.outlets.get o).enabled).flatMap fun o => [some o, some o]).length) none := by
    unfold poolFor
    rw [List.map_map]
    exact List.map_id _
  have htwo : ∀ f : OutletId → Bool, ((OutletId.all.filter f).flatMap fun o => [some o, some o]).count (some o) = if f o then 2 else 0 := fun f => by
    rcases ha : f .a <;> rcases hb : f .b <;> rcases hc : f .c <;> rcases hd : f .d <;> cases o <;>
      simp [OutletId.all, ha, hb, hc, hd]
  rw [hmap, List.count_append, htwo, List.count_replicate]
  simp

/-- The phase of pending cues shows in no block of an outlet that does not send (R46, R180). -/
theorem State.outletBlock_cuePhase {s t : State} {o : OutletId} (hc : t.cfg = s.cfg) {n : Nat}
    (hx : t.out o = { s.out o with cuePhase := n }) (hs : (s.out o).air.sends = false) : t.outletBlock o = s.outletBlock o := by
  have hocfg : t.ocfg o = s.ocfg o := by rw [State.ocfg, hc]; rfl
  have hfollow : t.isFollow o = s.isFollow o := by rw [State.isFollow, hocfg]; rfl
  have hcue : ∀ x : Outlet, x.air.sends = false → x.pendingCue = none := fun x h => by
    unfold Outlet.pendingCue
    rw [if_neg (by simp [h])]
  have hmeter : t.beaconMeter o = s.beaconMeter o := by
    unfold State.beaconMeter
    rw [hx, hfollow]
  have hp : (t.out o).pendingCue = none := hcue _ (by rw [hx]; exact hs)
  unfold State.outletBlock
  dsimp only
  rw [hmeter, hp, hcue _ hs, hocfg, hfollow, hx, ite_self, ite_self]
  rfl

/-- A beacon sent leaves the beacon as it was while no outlet sends (R46, R180). -/
theorem State.beacon_sendBeacon {s : State} (h : ∀ o, (s.out o).air.sends = false) (st : Store) (tr : Option Transfer) (lg : Log) :
    ({ s.sendBeacon with store := st, transfer := tr, log := lg } : State).beacon = s.beacon := by
  rw [State.sendBeacon_eq_append]
  refine congrArg (fun l => ({ role := 1, boot := s.boot.code, timeSet := s.disc.groupTime.isSome, groupTime := s.now
                               clockState := s.disc.state.code, trim := s.disc.trim, mask := s.captures.mask, blocks := l } : BeaconBody))
    (List.map_congr_left fun o _ => ?_)
  exact State.outletBlock_cuePhase (n := (s.out o).cuePhase + 1) rfl (Quad.get_mapId _ _ o) (h o)

theorem State.afresh_log (w : State) (config : List Byte) : (w.afresh config).sendBeacon.log = w.log := by
  rw [State.sendBeacon_eq_append]
  rfl

/-- A unit `t` that has started afresh from `w` (R193, R194). -/
structure State.StartedFrom (w : State) (config : List Byte) (t : State) : Prop where
  cfg : t.cfg = settleConfig config
  configMemory : t.configMemory = config
  isolated : t.isolated = configIsolates config
  boot : t.boot = .restartRequest
  peers : t.peers = []
  captures : t.captures = .reset
  clock : t.clock = w.clock
  listenSince : t.listenSince = some w.clock
  beaconSince : t.beaconSince = w.clock
  disc : t.disc = { w.disc with
    state := if (settleConfig config).refFeed = 0 then .free else .tracking, rejected := 0, window := none, candidate := none }
  voices : t.voices = poolFor (settleConfig config)
  outlets : ∀ o, ∃ n, t.out o = { startOutlet ((settleConfig config).outlets.get o) (configIsolates config) with cuePhase := n }
  store : t.store.versions = w.store.versions ∧ t.store.verifyQueue = w.store.verifyQueue ∧
    t.store.serialCounter = w.store.serialCounter ∧ t.store.loadQueue.Sublist w.store.loadQueue
  sent : t.sent = w.sent ++ if configIsolates config then [] else [t.frame (.beacon t.beacon)]

theorem State.afresh_starts {w : State} (hi : w.isolated = false) (b : State) (config : List Byte) :
    w.StartedFrom config ((w.afresh config).sendBeacon.finish b) := by
  obtain ⟨st, tr, lg, e, hstore⟩ := w.afresh_finish b config
  have hiso : (w.afresh config).isolated = configIsolates config := by
    show (w.isolated || _) = _
    rw [hi, Bool.false_or]
  have hout : ∀ o, (w.afresh config).out o = startOutlet ((settleConfig config).outlets.get o) (configIsolates config) := fun o => by
    rw [← hiso]
    exact Quad.get_mapId _ _ o
  have hbeacon := State.beacon_sendBeacon (s := w.afresh config) (fun o => by
    rw [hout, startOutlet_air]
    split <;> rfl) st tr lg
  rw [← e] at hbeacon
  rw [State.sendBeacon_eq_append] at e
  refine ⟨?_, ?_, ?_, ?_, ?_, ?_, ?_, ?_, ?_, ?_, ?_, fun o => ⟨((w.afresh config).out o).cuePhase + 1, ?_⟩, ?_, ?_⟩
  case refine_14 =>
    have hframe : ∀ x, ((w.afresh config).sendBeacon.finish b).frame x = (w.afresh config).frame x := fun x => by
      rw [State.sendBeacon_eq_append, e]
      rfl
    rw [hframe, hbeacon, ← hiso, State.sendBeacon_eq_append, e]
    rfl
  all_goals rw [State.sendBeacon_eq_append, e]
  case refine_3 => exact hiso
  case refine_12 =>
    rw [← hout]
    exact Quad.get_mapId _ _ o
  case refine_13 => exact hstore
  all_goals rfl

/-! ### What a RESTART leaves of the rest (R80, R105, R124, R164) -/

theorem State.wound_eq {s : State} (hi : s.isolated = false) :
    (∃ rest, s.wound.sent = s.sent ++ (OutletId.all.filter fun o => (s.out o).air.sends).map s.restartRelease ++ rest) ∧
      s.wound.disc = s.disc ∧ s.wound.isolated = false ∧ s.wound.clock = s.clock ∧ s.wound.cfg = s.cfg ∧
      s.wound.linkAddress = s.linkAddress ∧ (∃ l, s.log.Wrote s.wound.log l) ∧
      s.wound.store.serialCounter = s.store.serialCounter := by
  have hr := State.releases_eq OutletId.all hi
  generalize hre : OutletId.all.foldl State.releaseAtRestart s = r at hr
  have h1 : State.Moves true r r.framed.vacated.restartStore := State.restartStore_moves ((State.framed_moves r).trans (State.vacated_moves _))
  have hw : s.wound = r.framed.vacated.restartStore.silenced := by rw [State.wound, hre]
  generalize r.framed.vacated.restartStore = p at h1 hw
  have h2 := p.silenced_moves
  have hb := h2.base.trans (h1.base : p.darkened.base = r.base)
  have hst := h2.steady.trans (h1.steady : p.darkened.steady = r.steady)
  rw [← hw] at hb hst h2
  simp only [State.base, State.steady, Prod.mk.injEq] at hb hst
  obtain ⟨-, -, -, hcfg, hlink, -, hclock⟩ := hb
  obtain ⟨hdisc, -, -, -, -, hiso, -⟩ := hst
  obtain ⟨l1, e1⟩ := h1.sent
  obtain ⟨l2, e2⟩ := h2.sent
  obtain ⟨m1, w1⟩ := h1.log
  obtain ⟨m2, w2⟩ := h2.log
  refine ⟨⟨l1 ++ l2, ?_⟩, ?_, ?_, ?_, ?_, ?_, ⟨m1 ++ m2, ?_⟩, ?_⟩
  · rw [← e2, ← List.append_assoc, show p.darkened.sent = p.sent from rfl, ← e1, hr]
  · rw [hdisc, hr]
  · rw [hiso, hr, hi]
  · rw [hclock, hr]
  · rw [hcfg, hr]
  · rw [hlink, hr]
  · have : s.log = r.log := by rw [hr]
    rw [this]
    exact w1.trans w2
  · rw [h2.versions.2.1, show p.darkened.store = p.store from rfl, h1.versions.2.1, hr]

/-- A version that a voice holds has a use count (R111). -/
theorem State.Holds.useCount {s : State} (hc : s.store.CountedBy (holdersOf s.voices)) {v : Version} (hv : v ∈ s.store.versions)
    (h : s.Holds v.key) : v.useCount ≠ 0 := by
  obtain ⟨i, u, hu, hk⟩ := h
  obtain ⟨x, hx, hxu⟩ := State.voice_some hu
  simp only [VoiceUse.key, Version.key, Prod.mk.injEq] at hk
  rw [hc.1 v hv]
  refine Nat.pos_iff_ne_zero.1 (List.countP_pos_iff.2 ⟨x, List.mem_of_getElem? hx, ?_⟩)
  simp [hxu, hk.1, hk.2]

/-- The store of a RESTART: the voices end, then the versions take their new states. -/
theorem State.wound_store {s : State} (hi : s.isolated = false) (hc : s.store.CountedBy (holdersOf s.voices))
    (hn : (s.store.versions.map Version.key).Nodup) :
    ∃ m : State, m.store.Idle ∧ Store.Ages s.Holds s.store m.store ∧ s.wound.store = m.restartStore.store := by
  have hr := State.releases_eq OutletId.all hi
  generalize hre : OutletId.all.foldl State.releaseAtRestart s = r at hr
  have hm : State.Moves true s r.framed.vacated :=
    hre ▸ (State.Moves.refl.foldl _ OutletId.all fun _ o ht => State.releaseAtRestart_moves ht o).trans
      ((State.framed_moves _).trans (State.vacated_moves _))
  have hframed : ∀ (l : List OutletId) (t : State), ∃ q sn, l.foldl (fun s o => State.flushAudio (spansLen (s.out o).unsent + 1) s o) t =
      { t with outlets := q, sent := sn } := fun l => by
    induction l with
    | nil => exact fun t => ⟨_, _, rfl⟩
    | cons o l ih =>
      intro t
      obtain ⟨q, sn, e⟩ := State.flushAudio_eq (spansLen (t.out o).unsent + 1) t o
      obtain ⟨q', sn', e'⟩ := ih (State.flushAudio (spansLen (t.out o).unsent + 1) t o)
      exact ⟨q', sn', by rw [List.foldl_cons, e', e]⟩
  have hf : r.framed.store = s.store ∧ r.framed.voices = s.voices := by
    obtain ⟨q, sn, e⟩ := hframed OutletId.all r
    unfold State.framed
    rw [e, hr]
    exact ⟨rfl, rfl⟩
  have hebb : s.Ebbs r.framed := ⟨rfl, fun k hk => by simpa only [State.Holds, State.voice, hf.2] using hk, by rw [hf.1]; exact .refl hn⟩
  have hv : s.Ebbs r.framed.vacated := (hebb.inFreeOrder _ fun _ o ht => ht.restartOutlet o).foldl _ _ fun _ i ht => ht.dropVoice i
  refine ⟨r.framed.vacated, ⟨hv.store.names, fun v hv' => ?_⟩, hv.store, ?_⟩
  · have hfree : ∀ x ∈ r.framed.vacated.voices, x.use = none := State.dropVoices_free _
    rw [(hm.counted hc).1 v hv', holdersOf_free hfree]
  · rw [State.wound, hre, State.silenced_store]

/-! ### The versions a RESTART leaves (R105, R124) -/

section versions
variable {K : Nat × Nat → Prop} {a m r : Store}

/-- Each version left is without a role, or was one the RESTART leaves. -/
theorem Store.Restarted.sound (hm : m.Idle) (hr : ∀ x ∈ m.versions, Store.Restarted x m r) {w x : Version} (hw : w ∈ r.versions)
    (hx : x ∈ m.versions) (hk : w.key = x.key) :
    w.state ≠ .retiring ∧ w.state ≠ .loading ∧ (w.state = .verifying → w.bytes ≤ w.written) := by
  obtain ⟨hgone, hshort, hincoming, hstays⟩ := hr x hx
  have quarantined : w.state = .quarantined → w.state ≠ .retiring ∧ w.state ≠ .loading ∧ (w.state = .verifying → w.bytes ≤ w.written) :=
    fun e => by rw [e]; exact ⟨nofun, nofun, nofun⟩
  by_cases h1 : x.state = .retiring
  · exact quarantined (hgone (.inl h1) w hw hk).2
  by_cases h2 : x.state = .loading
  · exact quarantined (hgone (.inr h2) w hw hk).2
  by_cases h3 : x.state = .verifying ∧ x.written < x.bytes
  · by_cases hrole : x.role = .incoming
    · exact quarantined (hincoming h3.1 h3.2 hrole w hw hk).2
    · rw [(hshort h3.1 h3.2 hrole w hk).1 hw] at quarantined ⊢
      exact quarantined rfl
  · have hc : x.state = .verifying → x.bytes ≤ x.written := fun e => not_lt.1 fun hlt => h3 ⟨e, hlt⟩
    have : w = x := hm.eq_of_key hx (((hstays h1 h2 hc).1 w hk).1 hw) hk
    exact this ▸ ⟨h1, h2, hc⟩

theorem Version.Ages.state_eq {v x : Version} (h : v.Ages K x) (hv : v.state ≠ .ready) : x.state = v.state := by
  rcases h.2 with e | ⟨-, e, -⟩
  · exact e
  · exact absurd e hv

theorem Version.Ages.bytes_eq {v x : Version} (h : v.Ages K x) : x.bytes = v.bytes := by
  have := h.1.1
  simp only [Version.fixed, Prod.mk.injEq] at this
  rw [Version.bytes, Version.bytes, this.2.2.2.1]

/-- READY and QUARANTINED versions stay. -/
theorem Store.restart_keeps (ha : Store.Ages K a m) (hr : ∀ x ∈ m.versions, Store.Restarted x m r) {v : Version} (hv : v ∈ a.versions)
    (hs : v.state = .ready ∨ v.state = .quarantined) :
    ∃ w ∈ r.versions, w.fixed = v.fixed ∧ w.role = v.role ∧ (w.state = v.state ∨ w.state = .quarantined ∧ K v.key) := by
  obtain ⟨x, hx, hage⟩ := ha.kept v hv (by rcases hs with e | e <;> simp [e])
  have hst : x.state = .ready ∨ x.state = .quarantined := by
    rcases hage.2 with e | ⟨-, -, e, -⟩
    · rw [e]
      exact hs
    · exact .inr e
  have hsame : Store.SameAt x.key m r := by
    rcases hst with e | e <;> exact (hr x hx).stays (by simp [e]) (by simp [e]) (by simp [e])
  refine ⟨x, (hsame.1 x rfl).2 hx, hage.1.1, hage.1.2.1, ?_⟩
  rcases hage.2 with e | ⟨-, -, e, hk⟩
  · exact .inl e
  · exact .inr ⟨e, hk⟩

/-- The version before a RESTART of a version's name. -/
theorem Store.Ages.find (ha : Store.Ages K a m) (hn : (a.versions.map Version.key).Nodup) {v x : Version} (hv : v ∈ a.versions)
    (hx : x ∈ m.versions) (hk : x.key = v.key) : v.Ages K x := by
  obtain ⟨v', hv', h⟩ := ha.old x hx
  have : v' = v := List.inj_on_of_nodup_map hn hv' hv (h.key.symm.trans hk)
  exact this ▸ h

end versions

end Sys2Proof.Machine

open Sys2Proof Sys2Proof.Machine

/-- Settles O29: the stages of a RESTART are strong moves up to the DARK outlets, and the unit that starts afresh has nothing that could come
about. -/
theorem restartStartsAfresh : Obligations.RestartStartsAfresh := by
  intro s dt req config ht
  obtain ⟨hp, hg, hn⟩ := ht
  have hi : s.isolated = false := by
    unfold State.unitGate at hg
    split at hg
    · cases hg
    · rename_i hj
      simp only [State.judgesRequest, Bool.not_and, Bool.not_not, Bool.or_eq_true, not_or, Bool.not_eq_true] at hj
      exact hj.1
  dsimp only
  have hrun : exec (.restart dt req config) s =
      .next ((((s.elapse dt).answers req 15 none .ok .none).restart config).finish (s.elapse dt)) := by
    have hf : holdsFields req 0 = true := decide_eq_true hn
    rw [exec, execRestart, State.run_powered hp]
    simp only [State.unitRequest, State.elapse_unitGate, hg, hf, Bool.not_true, Bool.false_or]
    rw [if_neg (by decide), State.answer_open (by rw [State.elapse_isolated, hi])]
  have hai : ((s.elapse dt).answers req 15 none .ok .none).isolated = false := (State.elapse_isolated s dt).trans hi
  have hrel : (OutletId.all.filter fun o => (((s.elapse dt).answers req 15 none .ok .none).out o).air.sends).map
      ((s.elapse dt).answers req 15 none .ok .none).restartRelease =
      (OutletId.all.filter fun o => (s.out o).air.sends).map fun o =>
        (s.elapse dt).frame (.release { feed := (s.ocfg o).feed, successor := match (s.out o).yielding with
          | some y => y.successor
          | none => (s.bestSuccessor o).getD 0 }) := by
    have hbest : ∀ o, ((s.elapse dt).answers req 15 none .ok .none).bestSuccessor o = s.bestSuccessor o := fun o => by
      show (s.elapse dt).bestSuccessor o = _
      simp only [State.bestSuccessor, State.twins, State.twinSummary, State.elapse_out_passed, State.elapse_peers, State.elapse_ocfg]
    have hyield : ∀ o, (((s.elapse dt).answers req 15 none .ok .none).out o).yielding = (s.out o).yielding := State.elapse_out_yielding s dt
    have hocfg : ∀ o, ((s.elapse dt).answers req 15 none .ok .none).ocfg o = s.ocfg o := State.elapse_ocfg s dt
    refine (congrArg (List.map _) (List.filter_congr fun o _ => congrArg Air.sends (State.elapse_out_air s dt o))).trans
      (List.map_congr_left fun o _ => ?_)
    unfold State.restartRelease
    rw [hbest, hyield, hocfg]
    rfl
  have hstore : ((s.elapse dt).answers req 15 none .ok .none).store = s.store := State.elapse_store s dt
  have hlog : ((s.elapse dt).answers req 15 none .ok .none).log = s.log := State.elapse_log s dt
  have hclock : ((s.elapse dt).answers req 15 none .ok .none).clock = s.clock + dt := State.elapse_clock s dt
  have hdisc : ((s.elapse dt).answers req 15 none .ok .none).disc = (s.elapse dt).disc := rfl
  have hbounded : s.Bounded → ((s.elapse dt).answers req 15 none .ok .none).store.CountedBy
      (holdersOf ((s.elapse dt).answers req 15 none .ok .none).voices) := fun hb => (State.elapse_bounded hb dt).2.1.2
  generalize (s.elapse dt).answers req 15 none .ok .none = a at hrun hai hrel hstore hlog hclock hdisc hbounded ⊢
  rw [State.restart_stages] at hrun
  obtain ⟨⟨rest, hsent⟩, hwdisc, hwiso, hwclock, hwcfg, hwlink, ⟨l, hwlog⟩, hwserial⟩ := State.wound_eq hai
  have hwstore := State.wound_store hai
  obtain ⟨m, hm, -⟩ := State.finish_wrote (s := (a.wound.afresh config).sendBeacon) (a := s.elapse dt) (l := l) (by
    rw [State.afresh_log, State.elapse_log, ← hlog]
    exact hwlog)
  have h := State.afresh_starts hwiso (s.elapse dt) config
  rw [State.elapse_log] at hm
  generalize ((a.wound.afresh config).sendBeacon.finish (s.elapse dt)) = t at hrun hm h
  have hocfg : ∀ o, t.ocfg o = (settleConfig config).outlets.get o := fun o => by rw [State.ocfg, h.cfg]
  obtain ⟨hversions, hverify, hserial, hloads⟩ := h.store
  refine ⟨t, hrun, ⟨rest ++ if configIsolates config then [] else [t.frame (.beacon t.beacon)], ?_⟩, h.cfg, h.configMemory, h.isolated, h.boot,
    h.peers, h.captures, ?_, ?_, ?_, ?_, ⟨m, hm⟩, ?_, fun i => ?_, fun o => ?_, fun o => ?_, fun hiso => ?_, fun hb hp => ?_⟩
  · rw [h.sent, hsent, hrel, List.append_assoc] <;> rfl
  · rw [h.clock, hwclock, hclock]
  · rw [h.listenSince, h.clock]
  · rw [h.beaconSince, h.clock]
  · rw [h.disc, hwdisc, hdisc, h.cfg]
  · rw [hserial, hwserial, hstore]
  · unfold State.voice
    rw [h.voices]
    cases e : (poolFor (settleConfig config))[i]? with
    | none => rfl
    | some v => exact poolFor_free _ v (List.mem_of_getElem? e)
  · rw [h.voices, poolFor_reserved, hocfg]
  · obtain ⟨n, e⟩ := h.outlets o
    have hfields : ∀ (c : OutletCfg) (i : Bool), startOutlet c i = { Outlet.reset with air := (startOutlet c i).air, source := (startOutlet c i).source } :=
      fun c i => by
        unfold startOutlet
        split <;> rfl
    have hrelay : (State.reset.out o).relay = Outlet.reset.relay := by cases o <;> rfl
    rw [e, hocfg, h.isolated, ← startOutlet_air, hfields, hrelay]
    exact ⟨rfl, rfl, rfl, rfl, rfl, rfl, rfl, rfl, rfl, rfl, rfl⟩
  · rw [h.sent, ← h.isolated, if_neg (by simp [hiso]), List.getLast?_concat]
  · obtain ⟨m, hidle, hages, hw⟩ := hwstore (hbounded hb) (hstore ▸ hp.1)
    obtain ⟨hridle, hrloads, hrqueue, hrestart⟩ := State.restartStore_gives hidle
    rw [hw] at hversions hverify hloads
    have hkeys : ∀ w ∈ m.restartStore.store.versions, ∃ x ∈ m.store.versions, w.key = x.key := fun w hw' => by
      obtain ⟨x, hx, -, hk⟩ := (State.restartStore_moves (State.Moves.refl (k := true) (a := m))).keys hw'
      exact ⟨x, hx, hk.symm⟩
    generalize m.restartStore.store = r at hridle hrloads hrqueue hrestart hversions hverify hloads hkeys
    rw [hversions, hverify, ← hstore, ← hages.queue]
    have hcount : ∀ v ∈ a.store.versions, a.Holds v.key → v.useCount ≠ 0 := fun v hv hk => hk.useCount (hbounded hb) hv
    have hnames : (a.store.versions.map Version.key).Nodup := hstore ▸ hp.1
    refine ⟨List.sublist_nil.1 (hrloads ▸ hloads), hrqueue, fun w hw' => ?_, fun v hv => ⟨fun hrole hst => ?_, fun hst w hw' hk => ?_, fun hst hlt => ?_,
      fun hst hle => ?_⟩⟩
    · obtain ⟨x, hx, hk⟩ := hkeys w hw'
      exact ⟨hridle.2 w hw', Store.Restarted.sound hidle hrestart hw' hx hk⟩
    · obtain ⟨w, hw', hfix, hr, hs⟩ := Store.restart_keeps hages hrestart hv hst
      exact ⟨w, hw', hfix, hr.trans hrole, hs.imp_right fun ⟨h1, h2⟩ => ⟨h1, hcount v hv h2⟩⟩
    · obtain ⟨x, hx, hkx⟩ := hkeys w hw'
      have hage := hages.find hnames hv hx (hkx.symm.trans hk)
      have hxs := hage.state_eq (by rcases hst with e | e <;> simp [e])
      exact ((hrestart x hx).gone (by rw [hxs]; exact hst) w hw' hkx).1
    all_goals
      obtain ⟨x, hx, hage⟩ := hages.kept v hv (by simp [hst])
      have hxs := hage.state_eq (by simp [hst])
      obtain ⟨hfix, hrole, hwritten, hclose⟩ := hage.1
      have hbytes := hage.bytes_eq
    · have hlt' : x.written < x.bytes := by rw [hwritten, hbytes]; exact hlt
      refine ⟨fun hr => ?_, fun hr w hw' hk => ((hrestart x hx).shortIncoming (hxs.trans hst) hlt' (hrole.trans hr) w hw' (hk.trans hage.key.symm)).1⟩
      exact ⟨_, ((hrestart x hx).short (hxs.trans hst) hlt' (by simp [hrole, hr]) { x with state := .quarantined, closeTag := none } rfl).2 rfl, hfix,
        hrole.trans hr, rfl⟩
    · have hsame := (hrestart x hx).stays (by simp [hxs, hst]) (by simp [hxs, hst]) fun _ => by rw [hwritten, hbytes]; exact hle
      refine ⟨⟨x, (hsame.1 x rfl).2 hx, hfix, hrole, hxs.trans hst, hclose⟩, fun hq => ?_⟩
      have := hsame.2.2
      rw [hage.key] at this
      exact this hq

end

section
/-! The times of a RUNNING break while it plays: an item that begins, and the ramps that end with the break or a bed (R62 to R65, R79). -/

namespace Sys2Proof.Machine

/-! ### Some voices changed -/

theorem State.voice_modVoice (s : State) (i j : Nat) (f : VoiceUse → VoiceUse) :
    (s.modVoice i f).voice j = if j = i then (s.voice j).map f else s.voice j := by
  simp only [State.voice, State.modVoice, List.getElem?_modify]
  split
  · rename_i e
    rw [if_pos e.symm]
    cases h : s.voices[j]? <;> rfl
  · rename_i e
    rw [if_neg (Ne.symm e)]
    cases h : s.voices[j]? <;> rfl

/-- Voices changed one after the other, each once, by what the sample clock gives. -/
theorem State.foldl_modVoice (f : Nat → VoiceUse → VoiceUse) {l : List Nat} (hl : l.Nodup) (s : State) :
    ∃ v, l.foldl (fun s i => s.modVoice i (f s.clock)) s = { s with voices := v } ∧
      ∀ i, ({ s with voices := v } : State).voice i = if i ∈ l then (s.voice i).map (f s.clock) else s.voice i := by
  induction l generalizing s with
  | nil => exact ⟨s.voices, rfl, fun i => by rw [if_neg List.not_mem_nil]⟩
  | cons j l ih =>
    rw [List.nodup_cons] at hl
    obtain ⟨v, e, hv⟩ := ih hl.2 (s.modVoice j (f s.clock))
    refine ⟨v, e, fun i => (hv i).trans ?_⟩
    rw [State.voice_modVoice, show (s.modVoice j (f s.clock)).clock = s.clock from rfl]
    by_cases hi : i = j
    · subst hi
      rw [if_neg hl.1, if_pos rfl, if_pos List.mem_cons_self]
    · simp [hi]

theorem State.voicesWhere_nodup (s : State) (o : OutletId) (p : VoiceUse → Bool) : (s.voicesWhere o p).Nodup := List.nodup_range.filter _

theorem State.mem_voicesWhere {s : State} {o : OutletId} {p : VoiceUse → Bool} {i : Nat} {u : VoiceUse} (h : s.voice i = some u) :
    i ∈ s.voicesWhere o p ↔ u.outlet = o ∧ p u = true := by
  obtain ⟨v, hv, -⟩ := State.voice_some h
  have hi : i < s.voices.length := (List.getElem?_eq_some_iff.1 hv).1
  simp [State.voicesWhere, h, hi]

theorem VoiceUse.slotOf_eq {u : VoiceUse} {p : Place} {k : Nat} : u.slotOf p = some k ↔ u.holder = .slot p k := by
  unfold VoiceUse.slotOf
  cases u.holder with
  | slot q j =>
    dsimp only
    split
    · rename_i e
      simp [e]
    · rename_i e
      simp [e]
  | _ => simp

theorem State.mem_slotVoices {s : State} {o : OutletId} {p : Place} {i : Nat} {u : VoiceUse} (h : s.voice i = some u) :
    i ∈ s.slotVoices o p ↔ u.outlet = o ∧ u.sounding = true ∧ ∃ k, u.holder = .slot p k := by
  rw [State.slotVoices, State.mem_voicesWhere h, Bool.and_eq_true, Option.isSome_iff_exists]
  simp only [VoiceUse.slotOf_eq]

/-- A ramp that ends `left` samples on (R64, R65). -/
theorem VoiceUse.rampOutEnding_stop {u : VoiceUse} (h : u.sounding = true) (clock n left : Nat) :
    (u.rampOutEnding clock n left).state = .ramping ∧ (u.rampOutEnding clock n left).mult.stop ≤ clock + left := by
  unfold VoiceUse.rampOutEnding
  dsimp only
  split
  · rename_i hr
    simpa using hr
  · refine ⟨rfl, ?_⟩
    split
    · simp only [Ramp.stop]
      omega
    · exact le_refl _

/-- A ramp of `n` samples from now (R29, R40). -/
theorem VoiceUse.rampOut_stop {u : VoiceUse} (h : u.sounding = true) (clock n : Nat) :
    (u.rampOut clock n).state = .ramping ∧ (u.rampOut clock n).mult.stop ≤ clock + n := by
  unfold VoiceUse.rampOut
  split
  · rename_i hr
    simpa using hr
  · exact ⟨rfl, le_refl _⟩

/-! ### Positions (R44, R15) -/

theorem State.reachedPos_eq {s : State} (h : s.horizon = none) (o : OutletId) : s.reachedPos o = s.position o := by
  unfold State.reachedPos State.position
  rw [h]

theorem FittedBreak.leftAt_eq {b : FittedBreak} {t : Time} (h : b.start = some t) (pos : Time) : b.leftAt pos = (t + b.len - pos).toNat := by
  simp [FittedBreak.leftAt, FittedBreak.rejoinAt, h]

/-! ### CUT_AT_THE_REJOIN and BED_RAMP_START (R63 to R65, R79) -/

/-- What the cut at the rejoin makes of a voice of the place. -/
def FittedBreak.cutVoice (b : FittedBreak) (p : Place) (left clock : Nat) (u : VoiceUse) : VoiceUse :=
  let cut := match u.slotOf p with
    | some k => if u.looping then decide (k < b.items.length) && b.bedCut k else decide (left < u.passEnd - u.sounded)
    | none => false
  if cut then u.rampOutEnding clock 480 left else u

theorem State.cutAtRejoin_eq {a : State} {o : OutletId} {p : Place} {b : FittedBreak} {pos r : Time} (hb : (a.out o).place p = some b)
    (hpos : a.position o = some pos) (hr : b.rejoinAt = some r) :
    a.cutAtRejoin o p =
      if b.state = .running ∧ r - 480 ≤ pos ∧ pos < r then
        (a.slotVoices o p).foldl (fun s i => s.modVoice i (b.cutVoice p (b.leftAt pos) s.clock)) a
      else a := by
  have hfit : a.fit o p = some b := hb
  unfold State.cutAtRejoin
  rw [hfit, hpos]
  dsimp only
  simp only [hr, Option.any_some, Bool.and_eq_true, beq_iff_eq, decide_eq_true_eq]
  rfl

/-- What a bed's ramp makes of a voice of the place. -/
def FittedBreak.bedVoice (b : FittedBreak) (p : Place) (pos : Time) (clock : Nat) (u : VoiceUse) : VoiceUse :=
  match (u.slotOf p).bind b.bedEnd with
  | some (e, n) => if u.looping && decide (e - n ≤ pos) && decide (pos < e) then u.rampOutEnding clock n (e - pos).toNat else u
  | none => u

theorem State.bedRampStart_eq {a : State} {o : OutletId} {p : Place} {b : FittedBreak} {pos : Time} (hb : (a.out o).place p = some b)
    (hpos : a.position o = some pos) :
    a.bedRampStart o p = (a.slotVoices o p).foldl (fun s i => s.modVoice i (b.bedVoice p pos s.clock)) a := by
  have hfit : a.fit o p = some b := hb
  unfold State.bedRampStart
  rw [hfit, hpos]
  rfl

theorem FittedBreak.bedEnd_tail {b : FittedBreak} {t tb : Time} (ht : b.start = some t) (htb : b.tailBegan = some tb) :
    b.bedEnd b.items.length = some (t + b.len, min (t + b.len - tb).toNat 24000) := by
  simp [FittedBreak.bedEnd, FittedBreak.bedRamp, FittedBreak.rejoinAt, ht, htb]

theorem FittedBreak.bedEnd_slot {b : FittedBreak} {k : Nat} {d : Time} {it : BreakItem} (hk : k + 1 = b.cursor) (hd : b.due = some d)
    (hit : b.items[k]? = some it) : b.bedEnd k = some (d - it.join, 480) := by
  have hlt : k < b.items.length := (List.getElem?_eq_some_iff.1 hit).1
  rw [FittedBreak.bedEnd, if_pos hlt, if_pos hk, FittedBreak.slotEnd, ← hk, hd]
  simp [hit]

/-- The cut: what would sound past the rejoin ramps to end by it, everything else goes on (R65, R79). -/
theorem State.cutAtRejoin_gives {a : State} {o : OutletId} {p : Place} {b : FittedBreak} {t pos : Time} (hb : (a.out o).place p = some b)
    (hs : b.state = .running) (ht : b.start = some t) (hpos : a.position o = some pos) :
    ∃ v, a.cutAtRejoin o p = { a with voices := v } ∧ ∀ i w, a.voice i = some w →
      (w.outlet = o → w.sounding = true → (∃ k, w.holder = .slot p k) → w.looping = false → t + b.len - 480 ≤ pos → pos < t + b.len →
        (t + b.len - pos).toNat < w.passEnd - w.sounded →
        ∃ z, ({ a with voices := v } : State).voice i = some z ∧ z.state = .ramping ∧ z.mult.stop ≤ a.clock + (t + b.len - pos).toNat) ∧
      ((w.outlet ≠ o ∨ w.sounding = false ∨ (∀ k, w.holder ≠ .slot p k) ∨ pos < t + b.len - 480 ∨ t + b.len ≤ pos ∨
          w.looping = false ∧ w.passEnd - w.sounded ≤ (t + b.len - pos).toNat ∨ w.looping = true ∧ w.holder = .slot p b.items.length) →
        ({ a with voices := v } : State).voice i = some w) := by
  rw [State.cutAtRejoin_eq hb hpos (r := t + b.len) (by simp [FittedBreak.rejoinAt, ht]), FittedBreak.leftAt_eq ht]
  generalize t + (b.len : Int) = r
  split
  · rename_i hc
    obtain ⟨v, e, hv⟩ := State.foldl_modVoice (b.cutVoice p (r - pos).toNat) (a.voicesWhere_nodup o _) a
    refine ⟨v, e, fun i w hw => ⟨fun ho hsnd ⟨k, hk⟩ hl _ _ hlt => ?_, fun hor => ?_⟩⟩
    · refine ⟨_, (hv i).trans ((if_pos ((State.mem_slotVoices hw).2 ⟨ho, hsnd, k, hk⟩)).trans (by rw [hw]; rfl)), ?_⟩
      have : b.cutVoice p (r - pos).toNat a.clock w = w.rampOutEnding a.clock 480 (r - pos).toNat := by
        simp [FittedBreak.cutVoice, VoiceUse.slotOf_eq.2 hk, hl, hlt]
      rw [this]
      exact VoiceUse.rampOutEnding_stop hsnd _ _ _
    · refine (hv i).trans ?_
      split
      · rename_i hm
        obtain ⟨ho, hsnd, k, hk⟩ := (State.mem_slotVoices hw).1 hm
        rw [hw]
        refine congrArg some (if_neg ?_)
        rw [VoiceUse.slotOf_eq.2 hk]
        rcases hor with h | h | h | h | h | ⟨hl, h⟩ | ⟨hl, h⟩
        · exact absurd ho h
        · rw [hsnd] at h; cases h
        · exact absurd hk (h k)
        · exact absurd hc.2.1 (not_le.2 h)
        · exact absurd hc.2.2 (not_lt.2 h)
        · simp [hl, h]
        · rw [hk] at h
          cases h
          simp [hl]
      · exact hw
  · rename_i hc
    exact ⟨a.voices, rfl, fun i w hw => ⟨fun _ _ _ _ h1 h2 _ => absurd ⟨hs, h1, h2⟩ hc, fun _ => hw⟩⟩

/-- The ramp of a bed: it ends with its slot, or with the tail at the rejoin (R63, R64). -/
theorem State.bedRampStart_gives {a : State} {o : OutletId} {p : Place} {b : FittedBreak} {t pos : Time} (hb : (a.out o).place p = some b)
    (ht : b.start = some t) (hpos : a.position o = some pos) :
    ∃ v, a.bedRampStart o p = { a with voices := v } ∧ ∀ i w, a.voice i = some w →
      (w.outlet ≠ o ∨ w.sounding = false ∨ (∀ k, w.holder ≠ .slot p k) ∨ w.looping = false →
        ({ a with voices := v } : State).voice i = some w) ∧
      ∀ (k : Nat) (e : Time) (n : Nat),
        (k = b.items.length ∧ e = t + b.len ∧ (∃ tb, b.tailBegan = some tb ∧ n = min (t + b.len - tb).toNat 24000) ∨
          n = 480 ∧ k + 1 = b.cursor ∧ ∃ d it, b.due = some d ∧ b.items[k]? = some it ∧ e = d - it.join) →
        w.outlet = o → w.sounding = true → w.holder = .slot p k → w.looping = true →
        (e - n ≤ pos → pos < e → ∃ z, ({ a with voices := v } : State).voice i = some z ∧ z.state = .ramping ∧
          z.mult.stop ≤ a.clock + (e - pos).toNat) ∧
        (pos < e - n → ({ a with voices := v } : State).voice i = some w) := by
  rw [State.bedRampStart_eq hb hpos]
  obtain ⟨v, e, hv⟩ := State.foldl_modVoice (b.bedVoice p pos) (a.voicesWhere_nodup o _) a
  refine ⟨v, e, fun i w hw => ⟨fun hor => ?_, fun k e n hend ho hsnd hk hl => ?_⟩⟩
  · refine (hv i).trans ?_
    split
    · rename_i hm
      obtain ⟨ho, hsnd, k, hk⟩ := (State.mem_slotVoices hw).1 hm
      have hl : w.looping = false := by
        rcases hor with h | h | h | h
        · exact absurd ho h
        · rw [hsnd] at h; cases h
        · exact absurd hk (h k)
        · exact h
      rw [hw]
      refine congrArg some ?_
      unfold FittedBreak.bedVoice
      split
      · rw [if_neg (by simp [hl])]
      · rfl
    · exact hw
  · have hbed : b.bedEnd k = some (e, n) := by
      rcases hend with ⟨rfl, rfl, tb, htb, rfl⟩ | ⟨rfl, hk', d, it, hd, hit, rfl⟩
      · exact FittedBreak.bedEnd_tail ht htb
      · exact FittedBreak.bedEnd_slot hk' hd hit
    have hvoice : ({ a with voices := v } : State).voice i = some (b.bedVoice p pos a.clock w) :=
      (hv i).trans ((if_pos ((State.mem_slotVoices hw).2 ⟨ho, hsnd, k, hk⟩)).trans (by rw [hw]; rfl))
    rw [hvoice]
    have hval : b.bedVoice p pos a.clock w = if e - n ≤ pos ∧ pos < e then w.rampOutEnding a.clock n (e - pos).toNat else w := by
      simp [FittedBreak.bedVoice, VoiceUse.slotOf_eq.2 hk, hbed, hl]
    rw [hval]
    refine ⟨fun h1 h2 => ⟨_, rfl, ?_⟩, fun h1 => ?_⟩
    · rw [if_pos ⟨h1, h2⟩]
      exact VoiceUse.rampOutEnding_stop hsnd _ _ _
    · rw [if_neg fun h => absurd h.1 (not_le.2 h1)]

/-! ### An item begins (R62) -/

/-- Starting a voice changes the voices and the captures (R95, R100, R102). -/
theorem State.startVoiceWith_engine (s : State) (i : Nat) (set : VoiceUse → VoiceUse) : s.Engine (s.startVoiceWith i set) := by
  have hjudge : ∀ t : State, t.Engine (t.judge i) := fun t => by
    unfold State.judge
    split
    · exact .refl t
    · split
      · exact ⟨_, _, _, _, rfl⟩
      · dsimp only
        split <;> exact ⟨_, _, _, _, rfl⟩
  have hfirst : ∀ (n : Nat) (t : State), t.Engine (State.judgeFirst n t i) := fun n => by
    induction n with
    | zero => exact fun t => .refl t
    | succ n ih =>
      intro t
      unfold State.judgeFirst
      split
      · split
        · exact (hjudge t).trans (ih _)
        · exact .refl t
      · exact .refl t
  have hmod : s.Engine (s.modVoice i fun u => set { u with state := .playing }) := ⟨_, _, _, _, rfl⟩
  exact hmod.trans (hfirst 481 _)

/-- A voice starts by what is set on it as it stands. -/
theorem State.startVoiceWith_congr {s : State} {i : Nat} {w : VoiceUse} (hw : s.voice i = some w) {f g : VoiceUse → VoiceUse}
    (h : f { w with state := .playing } = g { w with state := .playing }) : s.startVoiceWith i f = s.startVoiceWith i g := by
  obtain ⟨v, hv, hu⟩ := State.voice_some hw
  have hmod : s.modVoice i (fun u => f { u with state := .playing }) = s.modVoice i fun u => g { u with state := .playing } := by
    refine congrArg (fun l => ({ s with voices := l } : State)) (List.ext_getElem? fun j => ?_)
    simp only [List.getElem?_modify]
    split
    · rename_i e
      subst e
      rw [hv]
      show some { v with use := v.use.map _ } = some { v with use := v.use.map _ }
      rw [hu, Option.map_some, Option.map_some, h]
    · rfl
  rw [State.startVoiceWith, State.startVoiceWith, hmod]

theorem FittedBreak.modItem_set {b : FittedBreak} {k : Nat} {it : BreakItem} (hit : b.items[k]? = some it) (f : BreakItem → BreakItem) :
    b.items.modify k f = b.items.set k (f it) := by
  refine List.ext_getElem? fun j => ?_
  rw [List.getElem?_modify, List.getElem?_set]
  split
  · rename_i e
    subst e
    rw [if_pos (List.getElem?_eq_some_iff.1 hit).1, hit]
    rfl
  · simp

/-- A tally begins, or goes on if the item has one. -/
theorem State.tallyStart_eq (s : State) (o : OutletId) (k : AirKey) : ∃ tl, s.tallyStart o k = s.setOut o { s.out o with tallies := tl } ∧
    ((∀ t ∈ (s.out o).tallies, t.key ≠ k) → tl = (s.out o).tallies ++ [{ key := k, since := s.now, stopped := none, tally := .empty }]) := by
  refine ⟨_, rfl, fun h => ?_⟩
  have : ((s.out o).tallies.any fun t => t.key == k) = false := by simpa using h
  rw [this, if_neg Bool.false_ne_true]

/-- A break of a place changed, and a tally begun. -/
theorem State.modFit_tallyStart {c : State} {o : OutletId} {p : Place} {b f : FittedBreak} {g : FittedBreak → FittedBreak} {k : AirKey}
    (hb : (c.out o).place p = some b) (hf : g b = f) : ∃ tl,
    (c.modFit o p g).tallyStart o k = c.setOut o { (c.out o).setPlace p (some f) with tallies := tl } ∧
      ((∀ z ∈ (c.out o).tallies, z.key ≠ k) →
        tl = (c.out o).tallies ++ [{ key := k, since := c.now, stopped := none, tally := .empty }]) := by
  have hmod : c.modFit o p g = c.setOut o ((c.out o).setPlace p (some f)) := by
    rw [State.modFit, State.modOut, hb, Option.map_some, hf]
  have htal : ((c.out o).setPlace p (some f)).tallies = (c.out o).tallies := by cases p <;> rfl
  obtain ⟨tl, e, h⟩ := (c.setOut o ((c.out o).setPlace p (some f))).tallyStart_eq o k
  rw [State.setOut_out, htal] at h
  rw [hmod, e, State.setOut_out, State.setOut_setOut]
  exact ⟨tl, rfl, h⟩

theorem Outlet.setPlace_relay (x : Outlet) (p : Place) (b : Option FittedBreak) : (x.setPlace p b).relay = x.relay := by cases p <;> rfl

/-- Group times of positions count on the configuration, the clocks and the relay alone (R76). -/
theorem State.toGroup_congr {s t : State} {o : OutletId} (hc : t.cfg = s.cfg) (hr : (t.out o).relay = (s.out o).relay) (hd : t.disc = s.disc)
    (pos : Time) : t.toGroup o pos = s.toGroup o pos := by
  have hnow : t.now = s.now := by rw [State.now, hd]; rfl
  rw [State.toGroup, State.toGroup, State.isFollow, State.isFollow, State.ocfg, State.ocfg, State.relayDelay, State.relayDelay, hc, hr, hnow]

/-- An item that begins with its whole length, long before the rejoin, sounds at its own multiplier (R62). -/
theorem State.beginItem_form {a : State} {o : OutletId} {p : Place} {k i : Nat} {b : FittedBreak} {it : BreakItem} {w : VoiceUse} {pos : Time}
    (hb : (a.out o).place p = some b) (hw : a.voice i = some w) (hit : b.items[k]? = some it) (hres : b.resume = none)
    (hleft : 480 ≤ b.leftAt pos) : ∃ tl, a.beginItem o p k i pos =
      ((a.startVoice i (.steady (multiplier (((a.store.find w.cart w.serial).map Version.trim).getD 0)))).setOut o
        { (a.out o).setPlace p
            (some
              { b with
                items := b.items.set k { it with progress := .sounding, actual := some a.now, skipped := 0, mark := .here }
                cursor := k + 1
                due := some (pos + it.playLen + it.join) }) with
          tallies := tl }).requestSlot
        o p (k + 1) (a.toGroup o (pos + it.playLen + it.join)) ∧
      ((∀ z ∈ (a.out o).tallies, z.key ≠ .item p k) →
        tl = (a.out o).tallies ++ [{ key := .item p k, since := a.now, stopped := none, tally := .empty }]) := by
  have hstart : a.startVoiceWith i (fun u => u.enter a.clock (a.voiceMult w 0) false (u.lateCut (b.leftAt pos))) =
      a.startVoice i (.steady (multiplier (((a.store.find w.cart w.serial).map Version.trim).getD 0))) := by
    refine State.startVoiceWith_congr hw ?_
    have hlate : ∀ u : VoiceUse, u.lateCut (b.leftAt pos) = none := fun u => by
      unfold VoiceUse.lateCut
      rw [if_neg]
      simp only [Bool.and_eq_true, decide_eq_true_eq, not_and]
      omega
    have hm : a.voiceMult w 0 = multiplier (((a.store.find w.cart w.serial).map Version.trim).getD 0) := by
      rw [State.voiceMult, Int.zero_add]
    rw [hlate, hm]
    rfl
  obtain ⟨v, st, tr, c, e⟩ := a.startVoiceWith_engine i fun u =>
    { u with mult := .steady (multiplier (((a.store.find w.cart w.serial).map Version.trim).getD 0)) }
  have hfit : a.fit o p = some b := hb
  unfold State.beginItem
  rw [hfit, hw]
  dsimp only
  rw [hit]
  dsimp only
  rw [hres]
  simp only [Option.filter_none, Option.map_none, Option.getD_none, Option.isSome_none, Bool.false_eq_true, if_false]
  rw [hstart]
  have hitem := FittedBreak.modItem_set hit fun d =>
    { d with progress := .sounding, actual := some a.now, skipped := d.playLen - it.playLen, mark := .here }
  obtain ⟨tl, etl, htl⟩ := State.modFit_tallyStart (c := { a with voices := v, store := st, transfer := tr, captures := c })
    (g := fun b => { b.modItem k fun d =>
        { d with progress := .sounding, actual := some a.now, skipped := d.playLen - it.playLen, mark := .here } with
      cursor := k + 1, due := some (pos + it.playLen + it.join), resume := none }) (k := .item p k) hb
    (congrArg (fun l => ({ b with items := l, cursor := k + 1, due := some (pos + it.playLen + it.join), resume := none } : FittedBreak)) hitem)
  refine ⟨tl, ?_, htl⟩
  unfold State.startVoice
  rw [e]
  refine (congrArg (fun s : State => s.requestSlot o p (k + 1) _) etl).trans ?_
  rw [State.toGroup_congr (s := a)]
  · rw [Nat.sub_self, ← hres]
    rfl
  · rfl
  · rw [State.modFit, State.modOut_out, Outlet.setPlace_relay]
    rfl
  · rfl

/-! ### An item that is due (R62) -/

/-- A slot begun before with its item, and not by substitution, leaves no bed behind (R63). -/
theorem FittedBreak.unbedded {b : FittedBreak} (h : ∀ j it, b.cursor = j + 1 → b.items[j]? = some it → it.progress ≠ .substituted) (s : State)
    (o : OutletId) (p : Place) (hb : (s.out o).place p = some b) (t : Time) : s.unheardBed o p t = none := by
  have hfit : s.fit o p = some b := hb
  unfold State.unheardBed
  rw [hfit]
  dsimp only
  split
  · rename_i j e hc _
    have : ((b.items[j]?).any fun it => it.progress == .substituted) = false := by
      cases hit : b.items[j]? with
      | none => rfl
      | some it => simpa using h j it hc hit
    rw [this, if_neg (by simp)]
  · rfl

/-- The step of a RUNNING break whose next item is due with its voice PRIMED (R62). -/
theorem State.stepFit_begins {a : State} {o : OutletId} {p : Place} {b : FittedBreak} {t pos due : Time} {i : Nat} {it : BreakItem}
    (hb : (a.out o).place p = some b) (hs : b.state = .running) (he : b.ending = false) (hplays : (a.out o).playsTimeline = true)
    (hh : a.horizon = none) (hpos : a.position o = some pos) (ht : b.start = some t) (hr : pos < t + b.len) (hdue : b.due = some due)
    (hle : due ≤ pos) (hbed : ∀ j it, b.cursor = j + 1 → b.items[j]? = some it → it.progress ≠ .substituted)
    (hit : b.items[b.cursor]? = some it) (hsub : it.progress ≠ .substituted) (hv : a.primedVoice o (.slot p b.cursor) = some i) :
    a.stepFit o p = some (a.beginItem o p b.cursor i pos) := by
  have hfit : a.fit o p = some b := hb
  have hreached : a.reachedPos o = some pos := (State.reachedPos_eq hh o).trans hpos
  have hcond : (b.state == .running && !b.ending && (a.out o).playsTimeline && b.rejoinAt.any fun r => decide (pos < r)) = true := by
    simp [hs, he, hplays, FittedBreak.rejoinAt, ht, hr]
  unfold State.stepFit
  rw [hfit, hpos]
  dsimp only
  rw [hreached, Option.getD_some, if_pos hcond]
  split
  · -- no bed was put off: the slot begun last has its item
    rename_i e
    split at e
    · rename_i j hc
      split at e
      · rename_i jt _ _ hjt _ _
        rw [if_neg] at e
        · cases e
        · simp only [Bool.and_eq_true, beq_iff_eq, not_and]
          exact fun h => absurd h (hbed j jt hc hjt)
      · cases e
    · cases e
  · rename_i hu
    rw [FittedBreak.unbedded hbed a o p hb pos] at hu
    cases hu
  · rw [hdue, hit]
    dsimp only
    rw [if_neg (not_lt.2 hle), if_neg (by simpa using hsub), hv]
    rfl

/-! ### Where nothing else is ready -/

theorem State.numbered_self {s a : State} (h : s.log = a.log) : s.numbered a = s := State.numbered_same (by rw [h])

/-- A command that leaves nothing ready and has written no record ends with the fetch engine's next transfer (R97). -/
theorem State.finish_rests {u a : State} (h : u.Rests) (hi : ∀ o, (u.out o).inherit = none) (hl : u.log = a.log) : u.finish a = u.pump := by
  obtain ⟨st, tr, e, -⟩ := u.pump_eq
  rw [State.finish, State.settle_rests h hi, State.numbered_self (by rw [e]; exact hl)]

/-- A voice that does not sound is as it was after passing samples, and holders keep their voices (R95). -/
theorem State.elapse_voice (s : State) (n i : Nat) : (s.elapse n).voice i = (s.voice i).map fun u => if n = 0 then u else u.elapse n := by
  unfold State.elapse
  split
  · cases s.voice i <;> rfl
  · simp only [State.voice, List.getElem?_map]
    cases s.voices[i]? with
    | none => rfl
    | some v => rfl

theorem VoiceUse.elapse_silent {u : VoiceUse} (h : u.sounding = false) (n : Nat) : u.elapse n = u := by
  rw [VoiceUse.elapse, if_neg (by simp [h])]

theorem State.elapse_voice_silent {s : State} {i : Nat} {u : VoiceUse} (h : s.voice i = some u) (hs : u.sounding = false) (n : Nat) :
    (s.elapse n).voice i = some u := by
  rw [State.elapse_voice, h, Option.map_some, VoiceUse.elapse_silent hs, ite_self]

theorem State.elapse_voiceOf (s : State) (n : Nat) (o : OutletId) (h : Holder) : (s.elapse n).voiceOf o h = s.voiceOf o h := by
  unfold State.elapse
  split
  · rfl
  · simp only [State.voiceOf, List.length_map, List.findIdx_map]
    have hp : ((fun v : Voice => v.use.any fun u => u.outlet == o && u.holder == h) ∘
        fun v : Voice => { v with use := v.use.map fun u => u.elapse n }) = fun v => v.use.any fun u => u.outlet == o && u.holder == h := by
      funext v
      have hkeep : ∀ u : VoiceUse, (u.elapse n).outlet = u.outlet ∧ (u.elapse n).holder = u.holder := fun u => by
        unfold VoiceUse.elapse
        split <;> exact ⟨rfl, rfl⟩
      cases hv : v.use with
      | none => simp [hv]
      | some u => simp [hv, hkeep u]
    rw [hp]

theorem VoiceUse.sounding_primed {u : VoiceUse} (h : u.state = .primed) : u.sounding = false := by simp [VoiceUse.sounding, h]

theorem State.primedVoice_of {s : State} {o : OutletId} {h : Holder} {i : Nat} {u : VoiceUse} (hv : s.voiceOf o h = some i)
    (hu : s.voice i = some u) (hp : u.state = .primed) : s.primedVoice o h = some i := by
  simp [State.primedVoice, hv, hu, hp]

end Sys2Proof.Machine
end

section
/-! The rejoin: voices that stop, records in their order, the entry that leaves, and the relay (R65 to R69, R79). -/

namespace Sys2Proof.Machine

/-! ### Fitted breaks that grants leave (R62, R91) -/

theorem Outlet.setPlace_place_ite (x : Outlet) (p r : Place) (b : Option FittedBreak) :
    (x.setPlace r b).place p = if p = r then b else x.place p := by cases p <;> cases r <;> rfl

theorem State.modFit_fit (s : State) (o q : OutletId) (p r : Place) (f : FittedBreak → FittedBreak) :
    (s.modFit q r f).fit o p = if o = q ∧ p = r then (s.fit o p).map f else s.fit o p := by
  unfold State.modFit State.fit
  rw [State.modOut, State.out_setOut]
  by_cases ho : o = q
  · subst ho
    rw [if_pos rfl, Outlet.setPlace_place_ite]
    by_cases hp : p = r
    · simp [hp]
    · simp [hp]
  · rw [if_neg ho, if_neg fun h => ho h.1]

/-- A change of another outlet, or one that leaves the place. -/
theorem State.modOut_fit {s : State} {o q : OutletId} {p : Place} {f : Outlet → Outlet} (hf : ∀ x, (f x).place p = x.place p) :
    (s.modOut q f).fit o p = s.fit o p := by
  unfold State.fit
  rw [State.modOut, State.out_setOut]
  split
  · rename_i e
    rw [hf, e]
  · rfl

section fits
variable {s : State} {o : OutletId} {p : Place}

/-- A grant changes the place of its own slot alone. -/
theorem State.grant_fit {i : Nat} {r : VoiceRequest} (h : r.outlet = o → r.holder.ofPlace p = true → s.fit o p = none) :
    (s.grant i r).fit o p = s.fit o p := by
  have hmod : ∀ (t : State) (k : Nat) (f : FittedBreak → FittedBreak), t.fit o p = s.fit o p → ∀ q, r.holder = .slot q k →
      (t.modFit r.outlet q f).fit o p = s.fit o p := fun t k f ht q hq => by
    rw [State.modFit_fit]
    split
    · rename_i hc
      have : s.fit o p = none := h hc.1.symm (by simp [hq, Holder.ofPlace, hc.2])
      rw [ht, this]
      rfl
    · exact ht
  unfold State.grant
  split
  · split
    · rfl
    · split
      · split
        · rename_i v _
          obtain ⟨k, hk⟩ := s.startSample_beside v.inCue _
          dsimp only
          rw [hk]
          rfl
        · exact State.modOut_fit fun x => by cases p <;> rfl
      · rfl
  · rename_i q k hq
    unfold State.grantSlot
    dsimp only
    split
    · rfl
    · split
      · split
        · exact hmod (s.prime _ _ _ _ _ _ _) k _ rfl q hq
        · split
          · exact hmod s k _ rfl q hq
          · exact hmod s k _ rfl q hq
      · split
        · rfl
        · exact hmod s k _ rfl q hq
  · unfold State.grantFallback
    dsimp only
    split
    · exact State.modOut_fit (s := s.prime _ _ _ _ _ _ _) fun x => by cases p <;> rfl
    · exact State.modOut_fit fun x => by cases p <;> rfl
  · rfl

/-- Offers leave a place that no waiting request is for, and one that is free. -/
theorem State.offer_fit (n : Nat) (h : ∀ r ∈ s.voiceQueue, r.outlet = o → r.holder.ofPlace p = true → s.fit o p = none) :
    (State.offer n s).fit o p = s.fit o p := by
  induction n generalizing s with
  | zero => rfl
  | succ n ih =>
    unfold State.offer
    dsimp only
    obtain ⟨k, hk⟩ := s.pick_beside ((List.range s.voices.length).filter fun i => (s.claimant i).isSome).length
    rw [hk]
    split
    · rfl
    · split
      · rfl
      · rename_i i _ _ r hr
        have hmem : r ∈ s.voiceQueue := State.claimant_mem hr
        have hg : (State.grant { s with freeCount := k, voiceQueue := s.voiceQueue.erase r } i r).fit o p = s.fit o p :=
          State.grant_fit (h r hmem)
        have hq : (State.grant { s with freeCount := k, voiceQueue := s.voiceQueue.erase r } i r).voiceQueue.Sublist s.voiceQueue :=
          (((State.Serves.refl o s).beside (t := { s with freeCount := k }) rfl rfl rfl rfl rfl rfl).eraseQueue r |>.grant i hmem).queue
        refine (ih fun z hz ho hp => ?_).trans hg
        rw [hg]
        exact h z (hq.subset hz) ho hp

theorem State.Engine.fit {t : State} (h : s.Engine t) (o : OutletId) (p : Place) : t.fit o p = s.fit o p := by
  rw [State.fit, h.out]
  rfl

theorem State.freeVoices_fit (l : List Nat) (h : ∀ r ∈ s.voiceQueue, r.outlet = o → r.holder.ofPlace p = true → s.fit o p = none) :
    (s.freeVoices l).fit o p = s.fit o p := by
  have he : s.Engine (l.foldl State.dropVoice s) := (State.Engine.refl s).foldl _ l State.dropVoice_engine
  refine (State.offer_fit _ fun r hr => ?_).trans (he.fit o p)
  rw [he.fit, he.voiceQueue] at *
  exact h r hr

theorem State.giveUpWhere_fit (q : OutletId) (k : Holder → Bool)
    (h : ∀ r ∈ s.voiceQueue, (r.outlet == q && k r.holder) = false → r.outlet = o → r.holder.ofPlace p = true → s.fit o p = none) :
    (s.giveUpWhere q k).fit o p = s.fit o p := by
  refine State.freeVoices_fit (s := { s with voiceQueue := _ }) _ fun r hr => ?_
  have := (List.mem_filter.1 hr).2
  rw [Bool.not_eq_true'] at this
  exact h r (List.mem_filter.1 hr).1 this

/-- A place that gives up its own slots keeps its break. -/
theorem State.giveUpWhere_own (s : State) (o : OutletId) (p : Place) : (s.giveUpWhere o (Holder.ofPlace p)).fit o p = s.fit o p :=
  State.giveUpWhere_fit o _ fun r _ hr ho hp => by simp [ho, hp] at hr

/-- A free place stays free as a break is released. -/
theorem State.releaseFit_vacant (h : s.fit o p = none) (q : OutletId) (r : Place) : (s.releaseFit q r).fit o p = none := by
  have hv : (s.modOut q fun x => x.vacate r).fit o p = none := by
    unfold State.fit at h ⊢
    rw [State.modOut, State.out_setOut]
    split
    · rename_i e
      subst e
      cases p <;> cases r <;> first | exact h | rfl
    · exact h
  unfold State.releaseFit
  rw [State.giveUpWhere_fit _ _ fun _ _ _ _ _ => hv, hv]

end fits

/-! ### Voices that stop at the rejoin (R65) -/

theorem State.stopVoice_engine (s : State) (i : Nat) : s.Engine (s.stopVoice i).2 := by
  unfold State.stopVoice
  dsimp only
  split
  · exact s.settlePass_engine i
  · exact (s.settlePass_engine i).trans (State.dropVoice_engine _ i)

section stops
variable {a s : State} {o : OutletId} {p : Place}

theorem State.Serves.tallyStop (h : State.Serves o a s) (q : OutletId) (k : AirKey) : State.Serves o a (s.tallyStop q k) :=
  h.modOut q _ fun _ => ⟨rfl, rfl⟩

theorem State.Serves.stopSlot (h : State.Serves o a s) (q : OutletId) (r : Place) (mark : VoiceReport → Nat → Option AirMark) (i : Nat) :
    State.Serves o a (s.stopSlot q r mark i) := by
  unfold State.stopSlot
  split
  · exact h
  · split
    · exact h
    · exact (((h.engine (s.stopVoice_engine i)).modFit q r _).tallyStop q _).tallyStop q _

/-- A voice that stops closes its slot: the break keeps its tag. -/
theorem State.stopSlot_fit (s : State) (o : OutletId) (p : Place) (mark : VoiceReport → Nat → Option AirMark) (i : Nat) {b : FittedBreak}
    (hb : s.fit o p = some b) : ∃ f, (s.stopSlot o p mark i).fit o p = some f ∧ f.tag = b.tag := by
  have htag : ∀ (t : State) (k : Nat) (rep : VoiceReport) (m : Option AirMark), t.fit o p = some b →
      ∃ f, (t.endSlot o p k rep m).fit o p = some f ∧ f.tag = b.tag := fun t k rep m ht => by
    have hstop : ∀ (u : State) (k : AirKey), (u.tallyStop o k).fit o p = u.fit o p := fun u k => State.modOut_fit fun x => by cases p <;> rfl
    unfold State.endSlot
    dsimp only
    rw [hstop, hstop, State.modFit_fit, if_pos ⟨rfl, rfl⟩, ht]
    refine ⟨_, rfl, ?_⟩
    dsimp only
    split <;> rfl
  unfold State.stopSlot
  split
  · exact ⟨b, hb, rfl⟩
  · split
    · exact ⟨b, hb, rfl⟩
    · exact htag _ _ _ _ (((s.stopVoice_engine i).fit o p).trans hb)

theorem State.stopAtRejoin_serves (a : State) (o : OutletId) (p : Place) : State.Serves o a (a.stopAtRejoin o p) :=
  ((State.Serves.refl o a).foldl _ _ fun _ i _ ht => ht.stopSlot o p _ i).giveUpWhere o _

theorem State.stopAtRejoin_fit (a : State) (o : OutletId) (p : Place) {b : FittedBreak} (hb : a.fit o p = some b) :
    ∃ f, (a.stopAtRejoin o p).fit o p = some f ∧ f.tag = b.tag ∧
      ((∀ i w, a.voice i = some w → w.outlet = o → ∀ k, w.holder ≠ .slot p k) → f = b) := by
  have hall : ∀ (l : List Nat) (s : State) (b : FittedBreak), s.fit o p = some b →
      ∃ f, (l.foldl (fun s i => s.stopSlot o p (fun rep k => (s.fit o p).bind fun b => b.endMark k rep) i) s).fit o p = some f ∧
        f.tag = b.tag ∧ (l = [] → f = b) := fun l => by
    induction l with
    | nil => exact fun s b h => ⟨b, h, rfl, fun _ => rfl⟩
    | cons i l ih =>
      intro s b h
      obtain ⟨c, hc, hct⟩ := s.stopSlot_fit o p _ i h
      obtain ⟨f, hf, hft, -⟩ := ih _ c hc
      exact ⟨f, hf, hft.trans hct, fun hn => nomatch hn⟩
  obtain ⟨f, hf, hft, hnil⟩ := hall (a.slotVoices o p) a b hb
  unfold State.stopAtRejoin
  dsimp only
  rw [State.giveUpWhere_own]
  refine ⟨f, hf, hft, fun hn => hnil (List.eq_nil_iff_forall_not_mem.2 fun i hi => ?_)⟩
  cases hw : a.voice i with
  | none =>
    have := (List.mem_filter.1 hi).2
    rw [hw] at this
    cases this
  | some w =>
    obtain ⟨ho, -, k, hk⟩ := (State.mem_slotVoices hw).1 hi
    exact hn i w hw ho k hk

end stops

/-! ### Records and the entry that leaves (R68, R16) -/

/-- Records written one after the other change the log and the outlet's tallies. -/
theorem State.recordAll_eq (s : State) (o : OutletId) (l : List (Record × Option AirKey)) :
    ∃ lg tl rs, s.recordAll o l = ({ s with log := lg } : State).setOut o { s.out o with tallies := tl } ∧ s.log.Wrote lg rs ∧
      rs.map Record.unnumbered = l.map fun q => s.asWritten o q.1 := by
  unfold State.recordAll
  induction l generalizing s with
  | nil => exact ⟨s.log, (s.out o).tallies, [], (s.setOut_self o).symm, .refl _, rfl⟩
  | cons r l ih =>
    obtain ⟨lg, tl, e, q, hw, hq⟩ := s.record_eq o r.1 r.2
    obtain ⟨lg', tl', rs, e', hw', hrs⟩ := ih (s.record o r.1 r.2)
    rw [e] at hw' hrs e'
    refine ⟨lg', tl', q :: rs, ?_, hw.trans hw', ?_⟩
    · rw [List.foldl_cons, e, e', State.setOut_out]
      exact State.setOut_setOut { s with log := lg' } o _ _
    · rw [List.map_cons, List.map_cons, hq, hrs]
      rfl

/-- A break's records are written, its spot list goes and its place is free. -/
theorem State.closeFit_eq {s : State} {o : OutletId} {p : Place} {f : FittedBreak} (hf : s.fit o p = some f) :
    ∃ lg tl rs, s.closeFit o p =
        ({ s with log := lg } : State).setOut o
          ({ s.out o with tallies := tl, spots := (s.out o).spots.filter fun l => l.tag != f.tag }.vacate p) ∧
      s.log.Wrote lg rs ∧ rs.map Record.unnumbered = (breakRecords f p (s.posDelay o)).map fun q => s.asWritten o q.1 := by
  obtain ⟨lg, tl, rs, e, hw, hrs⟩ := s.recordAll_eq o (breakRecords f p (s.posDelay o))
  refine ⟨lg, tl, rs, ?_, hw, hrs⟩
  unfold State.closeFit State.writeBreak
  rw [hf]
  dsimp only
  rw [e]
  simp only [State.modOut, State.setOut_out, State.setOut_setOut]

/-- The BREAK entry that leaves, if it is ON_AIR (R16). -/
def Outlet.leaving (x : Outlet) (tag : Option Nat) : Option Entry := (tag.bind x.entry).filter fun e => e.state == .onAir

theorem State.leaveBreakEntry_eq (s : State) (o : OutletId) (tag : Option Nat) (out : Entry → Outcome) (under : Option Nat) :
    ∃ lg tl rs, s.leaveBreakEntry o tag out under =
        ({ s with log := lg } : State).setOut o
          (match (s.out o).leaving tag with
            | some e => { s.out o with tallies := tl }.dropEntry e.tag
            | none => s.out o) ∧
      s.log.Wrote lg rs ∧ rs.map Record.unnumbered = ((s.out o).leaving tag).toList.map fun e =>
        s.asWritten o (entryRecord e (out e) .none (if e.air.sounding then s.breakPlayed e else e.air.played) under) := by
  have hself : s = ({ s with log := s.log } : State).setOut o (s.out o) := (s.setOut_self o).symm
  unfold State.leaveBreakEntry
  cases ht : tag.bind (s.out o).entry with
  | none =>
    have hl : (s.out o).leaving tag = none := by rw [Outlet.leaving, ht]; rfl
    rw [hl]
    exact ⟨s.log, [], [], hself, .refl _, rfl⟩
  | some e =>
    by_cases ha : e.state = .onAir
    · have hl : (s.out o).leaving tag = some e := by rw [Outlet.leaving, ht]; simp [ha]
      obtain ⟨t, -, hentry⟩ := Option.bind_eq_some_iff.1 ht
      have htag : e.tag = t := Outlet.entry_tag hentry
      rw [hl]
      dsimp only
      rw [if_pos (by simp [ha]), State.endBreakEntry]
      obtain ⟨tl, etl⟩ := s.tallyStop_eq o (.entry e.tag)
      rw [etl]
      have he : ((s.setOut o { s.out o with tallies := tl }).out o).entry e.tag = some e := by rw [State.setOut_out, htag]; exact hentry
      obtain ⟨lg, tl', e', q, hw, hq⟩ := State.leaveEntry_eq he (out e) .none
        (if e.air.sounding = true then s.breakPlayed e else e.air.played) under
      refine ⟨lg, tl', [q], ?_, hw, by rw [List.map_singleton, hq]; rfl⟩
      rw [e', State.setOut_out]
      exact State.setOut_setOut { s with log := lg } o _ _
    · have hl : (s.out o).leaving tag = none := by rw [Outlet.leaving, ht]; simp [ha]
      rw [hl]
      dsimp only
      rw [if_neg (by simp [ha])]
      exact ⟨s.log, [], [], hself, .refl _, rfl⟩

end Sys2Proof.Machine
end

section
/-! What a rejoin leaves of its outlet: the break's end, then the relay and a pending hand-back (R65, R72, R79, R140). -/

namespace Sys2Proof.Machine

/-! ### After the break's end (R72, R77, R140) -/

/-- From `s` to `t` an outlet's list, spot lists and records are as they were, and a free place is free. -/
structure State.Stands (o : OutletId) (p : Place) (s t : State) : Prop where
  log : t.log = s.log
  tags : (t.out o).entries.map Entry.tag = (s.out o).entries.map Entry.tag
  spots : (t.out o).spots = (s.out o).spots
  vacant : s.fit o p = none → t.fit o p = none

section stands
variable {o : OutletId} {p : Place} {s t u : State}

theorem State.Stands.refl (o : OutletId) (p : Place) (s : State) : State.Stands o p s s := ⟨rfl, rfl, rfl, fun h => h⟩

theorem State.Stands.trans (h : State.Stands o p s t) (h' : State.Stands o p t u) : State.Stands o p s u :=
  ⟨h'.log.trans h.log, h'.tags.trans h.tags, h'.spots.trans h.spots, fun hv => h'.vacant (h.vacant hv)⟩

theorem State.Stands.modOut (s : State) (o : OutletId) (p : Place) (f : Outlet → Outlet)
    (hf : ((f (s.out o)).entries, (f (s.out o)).spots, (f (s.out o)).place p) = ((s.out o).entries, (s.out o).spots, (s.out o).place p)) :
    State.Stands o p s (s.modOut o f) := by
  simp only [Prod.mk.injEq] at hf
  obtain ⟨he, hs, hp⟩ := hf
  refine ⟨rfl, ?_, ?_, fun h => ?_⟩
  · rw [State.modOut_out, he]
  · rw [State.modOut_out, hs]
  · rw [State.fit, State.modOut_out, hp]
    exact h

theorem State.Stands.serves (h : State.Serves o s t) (hv : s.fit o p = none → t.fit o p = none) : State.Stands o p s t :=
  ⟨h.log, entries_tags (Outlet.core_entries h.core), (congrArg Outlet.spots h.core : _), hv⟩

theorem State.Stands.foldl {α : Type} (f : State → α → State) (l : List α) (hf : ∀ t x, State.Stands o p t (f t x)) (s : State) :
    State.Stands o p s (l.foldl f s) := by
  induction l generalizing s with
  | nil => exact .refl o p s
  | cons x l ih => exact (hf s x).trans (ih _)

theorem State.Stands.relay (s : State) (o : OutletId) (p : Place) (r : Outlet → Relay) :
    State.Stands o p s (s.modOut o fun x => { x with relay := r x }) := by
  refine .modOut s o p _ ?_
  cases p <;> rfl

theorem State.Stands.relayTo (s : State) (o : OutletId) (p : Place) (m : Int) : State.Stands o p s (s.relayTo o m) := by
  unfold State.relayTo State.rampRelay
  exact .relay s o p _

theorem State.Stands.tryResync (s : State) (o : OutletId) (p : Place) : State.Stands o p s (s.tryResync o) := by
  have hrelease : ∀ (t : State) (q : Place) (old : Time), State.Stands o p t (t.releaseFollow o q old) := fun t q old => by
    have h : State.Stands o p t (t.releaseFit o q) := .serves ((State.Serves.refl o t).releaseFit o q) fun hv => State.releaseFit_vacant hv o q
    unfold State.releaseFollow
    dsimp only
    split
    · exact h.trans (.relayTo _ o p _)
    · exact h
  unfold State.tryResync
  dsimp only
  split
  · exact .refl o p s
  · split
    · refine State.Stands.trans ?_ (.foldl _ _ (fun t q => hrelease t q _) _)
      exact .relay s o p _
    · exact .refl o p s

theorem State.Stands.relayAfterBreak (s : State) (o : OutletId) (p : Place) : State.Stands o p s (s.relayAfterBreak o) := by
  unfold State.relayAfterBreak
  dsimp only
  split
  · refine State.Stands.trans ?_ (.tryResync _ o p)
    exact .relay s o p _
  · exact .refl o p s

theorem State.Stands.enterYielding (s : State) (o : OutletId) (p : Place) (n : Nat) (c : YieldCause) :
    State.Stands o p s (s.enterYielding o n c) := by
  have hsent : ∀ l, State.Stands o p s { s with sent := l } := fun l => ⟨rfl, rfl, rfl, fun h => h⟩
  unfold State.enterYielding
  rw [State.send_eq_append]
  dsimp only
  refine State.Stands.trans (hsent (s.sent ++ if s.isolated then [] else [s.frame (.release { feed := (s.ocfg o).feed, successor := n })])) ?_
  refine .modOut _ o p _ ?_
  cases p <;> rfl

theorem State.Stands.followBoundary (s : State) (o : OutletId) (p : Place) : State.Stands o p s (s.followBoundary o) := by
  unfold State.followBoundary State.handBackBoundary
  dsimp only
  split
  · split
    · split
      · exact .enterYielding s o p _ _
      · refine .modOut s o p _ ?_
        cases p <;> rfl
    · exact .refl o p s
  · exact .refl o p s

end stands

/-- With no break in its places and no FALLBACK a relay at its full multiplier keeps it at a resync (R72, R77). -/
theorem State.relayAfterBreak_m1 {s : State} {o : OutletId} (hm : (s.out o).relay.mult.m1 = unity) (hf : (s.out o).inFallback = false)
    (hp : ∀ p, (s.out o).place p = none) : ((s.relayAfterBreak o).out o).relay.mult.m1 = unity := by
  unfold State.relayAfterBreak
  dsimp only
  split
  · have hm' : ((s.modOut o fun x => { x with relay := { x.relay with buffer := if x.relay.state == .lost then [] else x.relay.buffer } }).out
        o).relay.mult.m1 = unity := by rw [State.modOut_out]; exact hm
    have hf' : ((s.modOut o fun x => { x with relay := { x.relay with buffer := if x.relay.state == .lost then [] else x.relay.buffer } }).out
        o).inFallback = false := by rw [State.modOut_out]; exact hf
    have hp' : ∀ p, ((s.modOut o fun x => { x with relay := { x.relay with buffer := if x.relay.state == .lost then [] else x.relay.buffer } }).out
        o).place p = none := fun p => by rw [State.modOut_out, ← hp p]; cases p <;> rfl
    generalize s.modOut o _ = v at hm' hf' hp'
    unfold State.tryResync
    dsimp only
    split
    · exact hm'
    · rename_i h _
      split
      · have hnone : ∀ q, (v.out o).passedBreaks q h.time = [] := fun q =>
          List.eq_nil_iff_forall_not_mem.2 fun r hr => by
            obtain ⟨b, hb, -⟩ := Outlet.mem_placesWhere.1 hr
            rw [hp'] at hb
            cases hb
        rw [hnone, List.foldl_nil, State.modOut_out]
        unfold Outlet.resyncMult
        simp only [List.any_nil, Bool.false_and, Bool.or_false, hf', Bool.false_eq_true, if_false]
        rfl
      · exact hm'
  · exact hm

theorem State.followBoundary_relay (s : State) (o : OutletId) : ((s.followBoundary o).out o).relay = (s.out o).relay := by
  unfold State.followBoundary State.handBackBoundary
  dsimp only
  split
  · split
    · split
      · unfold State.enterYielding
        rw [State.send_eq_append, State.modOut_out]
        rfl
      · rw [State.modOut_out]
    · rfl
  · rfl

/-! ### The end of a break (R65, R66, R68) -/

/-- From `a` to `u` the break of a place, as `f` at its end, has ended with its records, and the entry `left` after them. -/
structure State.FitEnds (o : OutletId) (p : Place) (b f : FittedBreak) (left : Option Entry) (record : Entry → Record) (a u : State) : Prop where
  place : u.fit o p = none
  spots : (u.out o).spots = (a.out o).spots.filter fun l => l.tag != b.tag
  log : ∃ rs, a.log.Wrote u.log rs ∧ rs.map Record.unnumbered =
    (breakRecords f p (a.posDelay o)).map (fun q => a.asWritten o q.1) ++ left.toList.map fun e => a.asWritten o (record e)
  gone : ∀ e, left = some e → ∀ d ∈ (u.out o).entries, d.tag ≠ e.tag

theorem State.FitEnds.stands {o : OutletId} {p : Place} {b f : FittedBreak} {left : Option Entry} {record : Entry → Record} {a u v : State}
    (h : State.FitEnds o p b f left record a u) (hs : State.Stands o p u v) : State.FitEnds o p b f left record a v := by
  obtain ⟨rs, hw, hrs⟩ := h.log
  refine ⟨hs.vacant h.place, hs.spots.trans h.spots, ⟨rs, hs.log ▸ hw, hrs⟩, fun e he d hd => ?_⟩
  have : d.tag ∈ (v.out o).entries.map Entry.tag := List.mem_map_of_mem hd
  rw [hs.tags] at this
  obtain ⟨d', hd', e'⟩ := List.mem_map.1 this
  exact e' ▸ h.gone e he d' hd'

theorem State.posDelay_congr {s t : State} {o : OutletId} (hc : t.cfg = s.cfg) (hr : (t.out o).relay = (s.out o).relay) (hd : t.disc = s.disc) :
    t.posDelay o = s.posDelay o := by
  have hnow : t.now = s.now := by rw [State.now, hd]; rfl
  rw [State.posDelay, State.posDelay, State.isFollow, State.isFollow, State.ocfg, State.ocfg, State.relayDelay, State.relayDelay, hc, hr, hnow]

theorem State.Serves.posDelay {o : OutletId} {a s : State} (h : State.Serves o a s) : s.posDelay o = a.posDelay o :=
  State.posDelay_congr h.cfg (congrArg Outlet.relay h.core : _) h.disc

theorem State.asWritten_congr {s t : State} (h : t.cfg = s.cfg) (o : OutletId) : t.asWritten o = s.asWritten o := by
  funext r
  rw [State.asWritten, State.asWritten, State.ocfg, State.ocfg, h]

/-- What grants leave of an entry that may leave. -/
theorem Outlet.leaving_core {x y : Outlet} (h : x.entries.map Entry.core = y.entries.map Entry.core) (tag : Option Nat) :
    (x.leaving tag).map Entry.core = (y.leaving tag).map Entry.core := by
  have hone : ∀ z : Outlet, (z.leaving tag).map Entry.core = (tag.bind fun t => (z.entries.map Entry.core).find? fun e => e.tag == t).filter
      fun e => e.state == .onAir := fun z => by
    cases tag with
    | none => rfl
    | some t =>
      have he : (z.entries.map Entry.core).find? (fun e => e.tag == t) = (z.entry t).map Entry.core := by
        rw [Outlet.entry, List.find?_map]
        rfl
      rw [Outlet.leaving, Option.bind_some, Option.bind_some, he]
      cases z.entry t with
      | none => rfl
      | some e =>
        by_cases ha : e.state = .onAir
        · simp [Option.filter, Entry.core, ha]
        · simp [Option.filter, Entry.core, ha]
  rw [hone, hone, h]

end Sys2Proof.Machine
end

section
/-! The end of a break at its rejoin, on a sending outlet and as a shadow (R65, R66, R68, R69, R79). -/

namespace Sys2Proof.Machine

/-! ### The break closes (R65, R68) -/

/-- From `a` to `u` the break of a place, as `f` at its end, has closed: its records are written, its list and its place go. -/
structure State.Closes (o : OutletId) (p : Place) (b f : FittedBreak) (a u : State) : Prop where
  cfg : u.cfg = a.cfg
  disc : u.disc = a.disc
  clock : u.clock = a.clock
  core : { (u.out o).core with inherit := none } = { (a.out o).core with inherit := none, spots := (a.out o).spots.filter fun l => l.tag != b.tag }
  place : u.fit o p = none
  others : ∀ q, a.fit o q = none → u.fit o q = none
  log : ∃ rs, a.log.Wrote u.log rs ∧ rs.map Record.unnumbered = (breakRecords f p (a.posDelay o)).map fun q => a.asWritten o q.1

section closes
variable {o : OutletId} {p : Place} {b f : FittedBreak} {a s t : State}

theorem State.Serves.closes (h : State.Serves o a s) (hf : s.fit o p = some f) (ht : f.tag = b.tag)
    (hv : ∀ q, a.fit o q = none → s.fit o q = none) : State.Closes o p b f a (s.closeFit o p) := by
  obtain ⟨lg, tl, rs, e, hw, hrs⟩ := State.closeFit_eq hf
  have hplace : ∀ q, (s.closeFit o p).fit o q = if q = p then none else s.fit o q := fun q => by
    rw [e, State.fit, State.setOut_out, Outlet.vacate]
    cases p <;> cases q <;> rfl
  refine ⟨?_, ?_, ?_, ?_, ?_, fun q hq => ?_, rs, ?_, ?_⟩
  · rw [e]
    exact h.cfg
  · rw [e]
    exact h.disc
  · rw [e]
    exact h.clock
  · have hs : (s.out o).spots = (a.out o).spots := (congrArg Outlet.spots h.core : _)
    have hc : (({ s with log := lg } : State).setOut o
          ({ s.out o with tallies := tl, spots := (s.out o).spots.filter fun l => l.tag != f.tag }.vacate p)).out o =
        ({ s.out o with tallies := tl, spots := (s.out o).spots.filter fun l => l.tag != f.tag }.vacate p) := State.setOut_out _ _ _
    rw [e, hc, ← h.core, ht, hs]
    cases p <;> rfl
  · rw [hplace, if_pos rfl]
  · rw [hplace]
    split
    · rfl
    · exact hv q hq
  · rw [e, ← h.log]
    exact hw
  · rw [hrs, h.posDelay, State.asWritten_congr h.cfg]

theorem State.Closes.serves (h : State.Closes o p b f a s) (ht : State.Serves o s t) (hv : ∀ q, s.fit o q = none → t.fit o q = none) :
    State.Closes o p b f a t := by
  obtain ⟨rs, hw, hrs⟩ := h.log
  exact ⟨ht.cfg.trans h.cfg, ht.disc.trans h.disc, ht.clock.trans h.clock,
    (congrArg (fun x : Outlet => { x with inherit := none }) ht.core).trans h.core, hv p h.place,
    fun q hq => hv q (h.others q hq), rs, ht.log ▸ hw, hrs⟩

theorem State.Closes.entries (h : State.Closes o p b f a s) : (s.out o).entries.map Entry.core = (a.out o).entries.map Entry.core :=
  (congrArg Outlet.entries h.core : _)

/-- A break that closes with no entry leaving. -/
theorem State.Closes.ends (h : State.Closes o p b f a s) (record : Entry → Record) : State.FitEnds o p b f none record a s := by
  obtain ⟨rs, hw, hrs⟩ := h.log
  refine ⟨h.place, (congrArg Outlet.spots h.core : _), ⟨rs, hw, ?_⟩, fun e he => nomatch he⟩
  rw [hrs]
  exact (List.append_nil _).symm

/-- The record of a BREAK entry that leaves (R16, R68). -/
def State.leavingRecord (s : State) (out : Entry → Outcome) (under : Option Nat) (e : Entry) : Record :=
  entryRecord e (out e) .none (if e.air.sounding then s.breakPlayed e else e.air.played) under

theorem State.leavingRecord_core {out : Entry → Outcome} (ho : ∀ e, out e.core = out e) (hk : t.clock = s.clock) {d e : Entry}
    (h : d.core = e.core) (under : Option Nat) : t.leavingRecord out under d = s.leavingRecord out under e := by
  have hcore : ∀ (u : State) (x : Entry), u.leavingRecord out under x = u.leavingRecord out under x.core := fun u x => by
    rw [State.leavingRecord, State.leavingRecord, ho]
    rfl
  rw [hcore, h, ← hcore, State.leavingRecord, State.leavingRecord, State.breakPlayed, State.breakPlayed, hk]

/-- The entry leaves after the break has closed. -/
theorem State.Closes.leaves (h : State.Closes o p b f a s) (tag : Option Nat) {out : Entry → Outcome} (ho : ∀ e, out e.core = out e)
    (under : Option Nat) :
    State.FitEnds o p b f ((a.out o).leaving tag) (a.leavingRecord out under) a (s.leaveBreakEntry o tag out under) := by
  obtain ⟨lg, tl, rs, e, hw, hrs⟩ := s.leaveBreakEntry_eq o tag out under
  obtain ⟨rs', hw', hrs'⟩ := h.log
  have hleft := Outlet.leaving_core h.entries tag
  refine ⟨?_, ?_, ⟨rs' ++ rs, ?_, ?_⟩, fun l hl => ?_⟩
  · rw [e, State.fit, State.setOut_out, ← h.place, State.fit]
    cases (s.out o).leaving tag <;> cases p <;> rfl
  · have hs : (s.out o).spots = (a.out o).spots.filter fun l => l.tag != b.tag := (congrArg Outlet.spots h.core : _)
    rw [e, State.setOut_out, ← hs]
    cases (s.out o).leaving tag <;> rfl
  · rw [e]
    exact hw'.trans hw
  · rw [List.map_append, hrs', hrs, State.asWritten_congr h.cfg]
    congr 1
    change ((s.out o).leaving tag).toList.map (fun d => a.asWritten o (s.leavingRecord out under d)) = _
    cases hs : (s.out o).leaving tag with
    | none =>
      rw [hs, Option.map_none] at hleft
      rw [Option.map_eq_none_iff.1 hleft.symm]
      rfl
    | some d =>
      rw [hs, Option.map_some] at hleft
      obtain ⟨l, hl, hd⟩ := Option.map_eq_some_iff.1 hleft.symm
      rw [hl]
      simp only [Option.toList_some, List.map_cons, List.map_nil]
      rw [State.leavingRecord_core ho h.clock hd.symm]
  · rw [hl, Option.map_some] at hleft
    obtain ⟨d, hd, hdl⟩ := Option.map_eq_some_iff.1 hleft
    rw [e, State.setOut_out, hd]
    have htag : d.tag = l.tag := (congrArg Entry.tag hdl : _)
    intro x hx
    have := (List.mem_filter.1 hx).2
    rw [← htag]
    simpa using this

theorem State.handStart_eq (s : State) (o : OutletId) : ∃ i, s.handStart o = s.setOut o { s.out o with inherit := i } := by
  have hself : s = s.setOut o { s.out o with inherit := (s.out o).inherit } := (s.setOut_self o).symm
  unfold State.handStart
  dsimp only
  split
  · split
    · exact ⟨_, hself⟩
    · exact ⟨_, rfl⟩
  · exact ⟨_, hself⟩

end closes

/-! ### The break ends (R65, R66) -/

section rejoins
variable {o : OutletId} {p : Place} {b : FittedBreak} {a : State}

/-- What an entry leaves its outlet with at the rejoin (R65, R69). -/
def Entry.rejoinOutcome (e : Entry) : Outcome := if e.air.takenOver then .airedTakenOver else .aired

theorem State.stopAtRejoin_vacant (a : State) (o : OutletId) (p : Place) {q : Place} (h : a.fit o q = none) : (a.stopAtRejoin o p).fit o q = none := by
  have hstop : ∀ (mark : VoiceReport → Nat → Option AirMark) (s : State) (i : Nat), s.fit o q = none → (s.stopSlot o p mark i).fit o q = none :=
    fun mark s i hs => by
      have htally : ∀ (u : State) (k : AirKey), (u.tallyStop o k).fit o q = u.fit o q := fun u k => State.modOut_fit fun x => by cases q <;> rfl
      unfold State.stopSlot
      split
      · exact hs
      · split
        · exact hs
        · dsimp only
          unfold State.endSlot
          dsimp only
          rw [htally, htally, State.modFit_fit, (s.stopVoice_engine i).fit, hs]
          split <;> rfl
  have hall : ∀ (l : List Nat) (s : State), s.fit o q = none →
      (l.foldl (fun s i => s.stopSlot o p (fun rep k => (s.fit o p).bind fun b => b.endMark k rep) i) s).fit o q = none := fun l => by
    induction l with
    | nil => exact fun s h => h
    | cons i l ih => exact fun s h => ih _ (hstop _ s i h)
  unfold State.stopAtRejoin
  dsimp only
  have := hall (a.slotVoices o p) a h
  rw [State.giveUpWhere_fit _ _ fun _ _ _ _ _ => this, this]

/-- The state after a break's records and the hand of the sequence slot (R65, R11). -/
def State.closedAtRejoin (a : State) (o : OutletId) (p : Place) : State :=
  let s := (a.stopAtRejoin o p).closeFit o p
  if s.isFollow o then s else s.handStart o

theorem State.endAtRejoin_closed (a : State) (o : OutletId) (p : Place) (b : FittedBreak) (pos : Time) : a.endAtRejoin o p b pos =
    let s := (a.closedAtRejoin o p).leaveBreakEntry o b.entryTag Entry.rejoinOutcome (b.underfill pos)
    if s.isFollow o && (s.out o).relayWaits pos then s.relayTo o unity else s := rfl

theorem State.stopAtRejoin_closes (hb : a.fit o p = some b) :
    ∃ f, (a.stopAtRejoin o p).fit o p = some f ∧ ((∀ i w, a.voice i = some w → w.outlet = o → ∀ k, w.holder ≠ .slot p k) → f = b) ∧
      State.Closes o p b f a ((a.stopAtRejoin o p).closeFit o p) := by
  obtain ⟨f, hf, ht, hsame⟩ := a.stopAtRejoin_fit o p hb
  exact ⟨f, hf, hsame, (a.stopAtRejoin_serves o p).closes hf ht fun q hq => a.stopAtRejoin_vacant o p hq⟩

theorem State.Closes.handed {f : FittedBreak} {s : State} (h : State.Closes o p b f a s) : State.Closes o p b f a (s.handStart o) := by
  obtain ⟨i, e⟩ := s.handStart_eq o
  have hfit : ∀ q, (s.handStart o).fit o q = s.fit o q := fun q => by
    rw [e, State.fit, State.setOut_out]
    cases q <;> rfl
  have hc : ((s.handStart o).out o).core = { (s.out o).core with inherit := i } := by
    rw [e, State.setOut_out]
    rfl
  refine ⟨?_, ?_, ?_, ?_, ?_, fun q hq => ?_, ?_⟩
  · rw [e]
    exact h.cfg
  · rw [e]
    exact h.disc
  · rw [e]
    exact h.clock
  · rw [hc, ← h.core]
  · rw [hfit, h.place]
  · rw [hfit, h.others q hq]
  · rw [e]
    exact h.log

/-- A break at its rejoin on a sending outlet (R65, R68): its records, then that of the entry that leaves, and the relay comes in. -/
theorem State.endAtRejoin_ends (hb : a.fit o p = some b) (pos : Time) :
    ∃ f, (a.stopAtRejoin o p).fit o p = some f ∧ ((∀ i w, a.voice i = some w → w.outlet = o → ∀ k, w.holder ≠ .slot p k) → f = b) ∧
      State.FitEnds o p b f ((a.out o).leaving b.entryTag) (a.leavingRecord Entry.rejoinOutcome (b.underfill pos)) a (a.endAtRejoin o p b pos) ∧
      (a.isFollow o = true → (a.out o).inFallback = false → (∀ q, q ≠ p → a.fit o q = none) →
        ((a.endAtRejoin o p b pos).out o).relay.mult.m1 = unity ∧ ((a.endAtRejoin o p b pos).out o).inFallback = false ∧
          ∀ q, ((a.endAtRejoin o p b pos).out o).place q = none) := by
  obtain ⟨f, hf, hsame, hcloses⟩ := State.stopAtRejoin_closes hb
  have hclosed : State.Closes o p b f a (a.closedAtRejoin o p) := by
    unfold State.closedAtRejoin
    dsimp only
    split
    · exact hcloses
    · exact hcloses.handed
  have hends := hclosed.leaves b.entryTag (out := Entry.rejoinOutcome) (fun _ => rfl) (b.underfill pos)
  refine ⟨f, hf, hsame, ?_, fun hfollow hfb hothers => ?_⟩
  · rw [State.endAtRejoin_closed]
    dsimp only
    split
    · exact hends.stands (.relayTo _ o p _)
    · exact hends
  · obtain ⟨lg, tl, rs, e, -⟩ := (a.closedAtRejoin o p).leaveBreakEntry_eq o b.entryTag Entry.rejoinOutcome (b.underfill pos)
    rw [State.endAtRejoin_closed]
    dsimp only
    have hcfg : ((a.closedAtRejoin o p).leaveBreakEntry o b.entryTag Entry.rejoinOutcome (b.underfill pos)).cfg = a.cfg := by
      rw [e]
      exact hclosed.cfg
    have hfb' : (((a.closedAtRejoin o p).leaveBreakEntry o b.entryTag Entry.rejoinOutcome (b.underfill pos)).out o).inFallback = false := by
      have : ((a.closedAtRejoin o p).out o).inFallback = (a.out o).inFallback := (congrArg Outlet.inFallback hclosed.core : _)
      rw [e, State.setOut_out, ← hfb, ← this]
      cases ((a.closedAtRejoin o p).out o).leaving b.entryTag <;> rfl
    have hplace : ∀ q, (((a.closedAtRejoin o p).leaveBreakEntry o b.entryTag Entry.rejoinOutcome (b.underfill pos)).out o).place q = none :=
      fun q => by
        have hn : (a.closedAtRejoin o p).fit o q = none := by
          by_cases hq : q = p
          · subst hq
            exact hclosed.place
          · exact hclosed.others q (hothers q hq)
        rw [e, State.setOut_out, ← hn, State.fit]
        cases ((a.closedAtRejoin o p).out o).leaving b.entryTag <;> cases q <;> rfl
    generalize (a.closedAtRejoin o p).leaveBreakEntry o b.entryTag Entry.rejoinOutcome (b.underfill pos) = s at hcfg hfb' hplace
    have hfollow' : s.isFollow o = true := by rw [State.isFollow, State.ocfg, hcfg]; exact hfollow
    have hwaits : (s.out o).relayWaits pos = ((s.out o).relay.mult.m1 != unity) := by
      have h1 : ∀ g, (s.out o).placesWhere g = [] := fun g => List.eq_nil_iff_forall_not_mem.2 fun r hr => by
        obtain ⟨c, hc, -⟩ := Outlet.mem_placesWhere.1 hr
        rw [hplace] at hc
        cases hc
      have h2 : (s.out o).contentHolds pos = false := by simp [Outlet.contentHolds, hplace]
      rw [Outlet.relayWaits, h1, h2, hfb']
      simp
    rw [hfollow', hwaits, Bool.true_and]
    split
    · unfold State.relayTo State.rampRelay
      rw [State.modOut_out]
      exact ⟨rfl, hfb', fun q => by rw [← hplace q]; cases q <;> rfl⟩
    · rename_i hm
      exact ⟨by simpa using hm, hfb', hplace⟩

theorem State.Stands.modEntry (s : State) (o : OutletId) (p : Place) (tag : Nat) (f : Entry → Entry) (hf : ∀ e, (f e).tag = e.tag) :
    State.Stands o p s (s.modEntry o tag f) := by
  refine ⟨rfl, ?_, ?_, fun h => ?_⟩
  · rw [State.modEntry, State.modOut_out]
    exact Outlet.modEntry_tags _ _ _ hf
  · rw [State.modEntry, State.modOut_out]
    rfl
  · rw [State.modEntry, State.modOut_fit fun x => by cases p <;> rfl]
    exact h

/-- A shadow break at its rejoin (R66, R68). -/
theorem State.endShadow_ends (hb : a.fit o p = some b) (record : Entry → Record) :
    State.FitEnds o p b b.markShadow none record a (a.endShadow o p) := by
  have hmark : State.Serves o a (a.modFit o p FittedBreak.markShadow) := (State.Serves.refl o a).modFit o p _
  have hf : (a.modFit o p FittedBreak.markShadow).fit o p = some b.markShadow := by rw [State.modFit_fit, if_pos ⟨rfl, rfl⟩, hb]; rfl
  have hv : ∀ q, a.fit o q = none → (a.modFit o p FittedBreak.markShadow).fit o q = none := fun q hq => by
    rw [State.modFit_fit, hq]
    split <;> rfl
  have hc := (hmark.closes (b := b) hf rfl hv).serves ((State.Serves.refl o _).giveUpWhere o (Holder.ofPlace p)) fun q hq => by
    rw [State.giveUpWhere_fit _ _ fun _ _ _ _ _ => hq, hq]
  unfold State.endShadow State.closeShadow
  rw [hb]
  dsimp only
  split
  · exact (hc.ends record).stands (.modEntry _ o p _ _ fun _ => rfl)
  · exact hc.ends record

/-- What REJOIN does of a RUNNING break whose rejoin has come (R65, R66). -/
theorem State.rejoin_reached {t pos : Time} (hb : a.fit o p = some b) (hr : b.state = .running) (ht : b.start = some t) (hh : a.horizon = none)
    (hp : a.position o = some pos) (hle : t + b.len ≤ pos) (he : b.ending = false) : a.rejoin o (some p) =
      ((if (a.out o).air.sends then a.endAtRejoin o p b pos else a.endShadow o p).relayAfterBreak o).followBoundary o := by
  have hfit : a.rejoinFit o p b pos = if (a.out o).air.sends then a.endAtRejoin o p b pos else a.endShadow o p := by
    unfold State.rejoinFit
    rw [hr, he]
    rfl
  have hcome : (b.begun && b.rejoinAt.any fun r => decide (r ≤ (a.reachedPos o).getD pos)) = true := by
    rw [State.reachedPos_eq hh, hp, FittedBreak.rejoinAt, ht]
    simp [FittedBreak.begun, hr, hle]
  unfold State.rejoin
  dsimp only
  rw [hb, hp]
  dsimp only
  rw [if_pos hcome, hfit]

theorem State.rejoin_early {t pos : Time} (hb : a.fit o p = some b) (ht : b.start = some t) (hh : a.horizon = none)
    (hp : a.position o = some pos) (hlt : pos < t + b.len) : a.rejoin o (some p) = a := by
  have hcome : ¬(b.begun && b.rejoinAt.any fun r => decide (r ≤ (a.reachedPos o).getD pos)) = true := by
    rw [State.reachedPos_eq hh, hp, FittedBreak.rejoinAt, ht]
    simp [hlt]
  unfold State.rejoin
  dsimp only
  rw [hb, hp]
  dsimp only
  rw [if_neg hcome]

end rejoins

/-! ### The records of items (R68, R76) -/

theorem itemRecord_mem {f : FittedBreak} {k : Nat} {it : BreakItem} (h : f.items[k]? = some it) (p : Place) (delay : Time) :
    itemRecord f delay k it ∈ (breakRecords f p delay).map Prod.fst := by
  refine List.mem_map.2 ⟨(itemRecord f delay k it, if it.actual.isSome then some (.item p k) else none), ?_, rfl⟩
  refine List.mem_append_left _ (List.mem_append_right _ (List.mem_flatMap.2 ⟨(it, k), ?_, ?_⟩))
  · exact List.mem_zipIdx_iff_getElem?.2 h
  · exact List.mem_cons_self

/-- An item that sounded from its start has its record with its slip (R68, R76). -/
theorem item_written {a : State} {o : OutletId} {p : Place} {f : FittedBreak} {rs : List Record} {rest : List Record} {delay : Time}
    (h : rs.map Record.unnumbered = (breakRecords f p delay).map (fun q => a.asWritten o q.1) ++ rest) {k : Nat} {it : BreakItem} {t : Time}
    (hit : f.items[k]? = some it) (ht : it.actual = some t) (hs : it.skipped = 0) :
    ∃ q ∈ rs, q.slot = some (k + 1) ∧ q.source ≠ .bed ∧ q.cart = it.cart ∧ q.serial = it.serial ∧ q.actual = some t ∧
      ∃ pl, q.planned = some pl ∧ q.slip = t - pl := by
  obtain ⟨z, hz, hze⟩ := List.mem_map.1 (itemRecord_mem hit p delay)
  have hmem : a.asWritten o (itemRecord f delay k it) ∈ rs.map Record.unnumbered := by
    rw [h]
    exact List.mem_append_left _ (List.mem_map.2 ⟨z, hz, by rw [hze]⟩)
  obtain ⟨q, hq, hqe⟩ := List.mem_map.1 hmem
  have field : ∀ {α : Type} (g : Record → α), (∀ r : Record, g r.unnumbered = g r) → g q = g (a.asWritten o (itemRecord f delay k it)) :=
    fun g hg => by rw [← hg q, hqe]
  obtain ⟨-, hsource, -, -, hcart, hserial, hplanned, hactual, -⟩ := Record.field_of_unnumbered hqe
  refine ⟨q, hq, field Record.slot fun _ => rfl, ?_, hcart, hserial, hactual.trans ht, _, hplanned, ?_⟩
  · rw [hsource]
    change it.role.source ≠ .bed
    cases it.role <;> decide
  · refine (field Record.slip fun _ => rfl).trans ?_
    change (match it.actual with
      | some a => a - f.plannedAt delay (it.offset + it.skipped)
      | none => 0) = _
    rw [ht, hs]
    rfl

/-! ### The rejoin of a BREAK taken over without its break (R69) -/

theorem State.rejoinSilent_ends {a : State} {o : OutletId} {e : Entry} (hh : a.horizon = none)
    (he : (a.out o).entries.find? (fun e => decide (e.state = .onAir) && e.air.silentUntil.any fun t => decide (t ≤ a.now)) = some e)
    (hn : ((a.out o).entries.map Entry.tag).Nodup) :
    ∃ r, a.log.Wrote (a.rejoin o none).log [r] ∧ r.outcome = .airedTakenOver ∧ r.entryTag = some e.tag ∧
      ((a.rejoin o none).out o).entries = (a.out o).entries.filter fun d => d.tag != e.tag := by
  obtain ⟨pre, post, hx⟩ := List.append_of_mem (List.mem_of_find?_eq_some he)
  have hentry := Outlet.entry_of_split hx hn
  have hfind : (a.out o).entries.find? (fun e => e.state == .onAir && e.air.silentUntil.any fun t => decide (t ≤ a.reached)) = some e := by
    have hr : a.reached = a.now := by rw [State.reached, hh]; rfl
    rw [← he, hr]
    rfl
  obtain ⟨tl, etl⟩ := a.tallyStop_eq o (.entry e.tag)
  have he' : ((a.tallyStop o (.entry e.tag)).out o).entry e.tag = some e := by
    rw [etl, State.setOut_out]
    exact hentry
  obtain ⟨lg, tl', e', q, hw, hq⟩ := State.leaveEntry_eq he' .airedTakenOver .none (a.breakPlayed e) e.air.underfill
  have hrejoin : a.rejoin o none = ({ a.tallyStop o (.entry e.tag) with log := lg } : State).setOut o
      ({ (a.tallyStop o (.entry e.tag)).out o with tallies := tl' }.dropEntry e.tag) := by
    rw [← e']
    unfold State.rejoin
    dsimp only
    unfold State.rejoinSilent
    rw [hfind]
    rfl
  obtain ⟨-, -, hout, htag, -⟩ := Record.field_of_unnumbered hq
  refine ⟨q, ?_, hout, htag, ?_⟩
  · rw [hrejoin]
    exact hw
  · rw [hrejoin, State.setOut_out, etl, State.setOut_out]
    rfl

end Sys2Proof.Machine
end

section
/-! A break plays to its rejoin: the obligation's statements assembled (R62 to R69, R76, R79). -/

namespace Sys2Proof.Machine

/-- A slot's request writes no record (R62). -/
theorem State.requestSlot_log (s : State) (o : OutletId) (p : Place) (k : Nat) (t : Time) : (s.requestSlot o p k t).log = s.log := by
  unfold State.requestSlot
  split
  · rfl
  · split
    · unfold State.request
      split
      · exact ((State.Serves.refl o s).grantSlot _ _ p k).log
      · rfl
    · rfl

/-- ITEM_DUE_TIME where the item's voice is PRIMED (R62). -/
theorem exec_itemDueTime_begins {s : State} (hp : s.powered = true) (dt : Nat) {o : OutletId} {p : Place} {b : FittedBreak} {t pos due : Time}
    {i : Nat} {it : BreakItem} (hb : ((s.elapse dt).out o).place p = some b) (hs : b.state = .running) (he : b.ending = false)
    (hplays : ((s.elapse dt).out o).playsTimeline = true) (hh : (s.elapse dt).horizon = none) (hpos : (s.elapse dt).position o = some pos)
    (ht : b.start = some t) (hr : pos < t + b.len) (hdue : b.due = some due) (hle : due ≤ pos)
    (hbed : ∀ j it, b.cursor = j + 1 → b.items[j]? = some it → it.progress ≠ .substituted) (hit : b.items[b.cursor]? = some it)
    (hsub : it.progress ≠ .substituted) (hv : (s.elapse dt).primedVoice o (.slot p b.cursor) = some i) :
    exec (.itemDueTime dt o p) s = .next (((s.elapse dt).beginItem o p b.cursor i pos).finish (s.elapse dt)) := by
  have hstep := State.stepFit_begins hb hs he hplays hh hpos ht hr hdue hle hbed hit hsub hv
  have hcome : (s.elapse dt).itemDue o p = true := by
    have hfit : (s.elapse dt).fit o p = some b := hb
    simp [State.itemDue, hfit, hs, State.reachedPos_eq hh, hpos, hdue, hle]
  show execItemDueTime dt o p s = _
  rw [execItemDueTime, State.run_powered hp, if_pos hcome, hstep]
  rfl

theorem exec_rejoin {s : State} (hp : s.powered = true) (dt : Nat) (o : OutletId) (p : Option Place) :
    exec (.rejoin dt o p) s = .next (((s.elapse dt).rejoin o p).finish (s.elapse dt)) := State.run_powered hp dt _

theorem exec_cutAtTheRejoin {s : State} (hp : s.powered = true) (dt : Nat) (o : OutletId) (p : Place) :
    exec (.cutAtTheRejoin dt o p) s = .next ((s.elapse dt).cutAtRejoin o p) :=
  State.run_powered hp dt fun s => s.cutAtRejoin o p

theorem exec_bedRampStart {s : State} (hp : s.powered = true) (dt : Nat) (o : OutletId) (p : Place) :
    exec (.bedRampStart dt o p) s = .next ((s.elapse dt).bedRampStart o p) :=
  State.run_powered hp dt fun s => s.bedRampStart o p

/-- A break that closes at its rejoin, on a sending outlet or as a shadow (R65, R66, R68). -/
theorem State.rejoin_ends {a : State} {o : OutletId} {p : Place} {b : FittedBreak} {t pos : Time} (hb : a.fit o p = some b)
    (hr : b.state = .running) (ht : b.start = some t) (hh : a.horizon = none) (hp : a.position o = some pos) (hle : t + b.len ≤ pos)
    (he : b.ending = false) :
    let left := (b.entryTag.bind (a.out o).entry).filter fun e => (a.out o).air.sends && e.state == .onAir
    ∃ f, f = (if (a.out o).air.sends = true then ((a.stopAtRejoin o p).fit o p).getD b else b.markShadow) ∧
      ((∀ i w, a.voice i = some w → w.outlet = o → ∀ k, w.holder ≠ .slot p k) → (a.out o).air.sends = true → f = b) ∧
      State.FitEnds o p b f left (a.leavingRecord Entry.rejoinOutcome (b.underfill pos)) a (a.rejoin o (some p)) ∧
      ((a.out o).air.sends = true → a.isFollow o = true → (a.out o).inFallback = false → (∀ q, q ≠ p → a.fit o q = none) →
        ((a.rejoin o (some p)).out o).relay.mult.m1 = unity) := by
  intro left
  have hlast : ∀ v : State, State.Stands o p v ((v.relayAfterBreak o).followBoundary o) := fun v =>
    (State.Stands.relayAfterBreak v o p).trans (.followBoundary _ o p)
  rw [State.rejoin_reached hb hr ht hh hp hle he]
  by_cases hsends : (a.out o).air.sends = true
  · obtain ⟨f, hf, hsame, hends, hrelay⟩ := State.endAtRejoin_ends hb pos
    have hleft : left = (a.out o).leaving b.entryTag := by simp only [left, hsends, Bool.true_and]; rfl
    rw [if_pos hsends, if_pos hsends, hleft, hf]
    refine ⟨f, rfl, fun hn _ => hsame hn, hends.stands (hlast _), fun _ hfollow hfb hothers => ?_⟩
    obtain ⟨hm, hfb', hplace⟩ := hrelay hfollow hfb hothers
    rw [State.followBoundary_relay]
    exact State.relayAfterBreak_m1 hm hfb' hplace
  · have hleft : left = none := by simp [left, hsends]
    rw [if_neg hsends, if_neg hsends, hleft]
    exact ⟨_, rfl, fun _ h => absurd h hsends, (State.endShadow_ends hb _).stands (hlast _), fun h => absurd h hsends⟩

end Sys2Proof.Machine

open Sys2Proof Sys2Proof.Machine

/-- Settles O53: items by the step of their break, rejoins by what ends there, ramps by the voices they touch. -/
theorem breaksPlayToTheRejoin : Obligations.BreaksPlayToTheRejoin := by
  intro s dt o hp hh a x
  have hh' : a.horizon = none := (State.elapse_horizon s dt).trans hh
  have hentries : (a.out o).entries = x.entries := State.elapse_out_entries s dt o
  constructor
  · intro p b t pos hb hs ht hpos r left
    refine ⟨?_, ?_, ?_, ?_, ?_⟩
    · intro k i it w due hair _ _ _ he hdue hle hk hit hsub hbed hres h480 hv hw hprimed _ _ htl c next u hrests hinherit
      subst hk
      have hroom : (480 : Int) ≤ t + (b.len : Int) - pos := h480
      have hlt : pos < t + b.len := Int.lt_of_sub_pos (lt_of_lt_of_le (by decide) hroom)
      have hb' : (a.out o).place p = some b := (State.elapse_out_place s dt o p).trans hb
      have hw' : a.voice i = some w := State.elapse_voice_silent hw (VoiceUse.sounding_primed hprimed) dt
      have hv' : a.primedVoice o (.slot p b.cursor) = some i :=
        State.primedVoice_of ((State.elapse_voiceOf s dt o _).trans hv) hw' hprimed
      have hplays : (a.out o).playsTimeline = true := by
        have : (a.out o).air = .onAir := (State.elapse_out_air s dt o).trans hair
        simp [Outlet.playsTimeline, Outlet.inFallback, this, Air.sends]
      rw [exec_itemDueTime_begins hp dt hb' hs he hplays hh' hpos ht hlt hdue hle (fun j jt => hbed j jt) hit hsub hv']
      have hbegin : a.beginItem o p b.cursor i pos = u := by
        obtain ⟨tl, e, htl'⟩ := State.beginItem_form hb' hw' hit hres
          (by rw [FittedBreak.leftAt_eq ht]; exact (Int.le_toNat (le_trans (by decide) hroom)).2 hroom)
        rw [e, htl' (by simpa [a] using htl)]
        simp only [u, c, next, a, x, State.elapse_store, State.elapse_out_tallies]
      rw [hbegin]
      refine congrArg _ (State.finish_rests hrests hinherit ?_)
      rw [State.requestSlot_log]
      have hc : c.log = a.log := (a.startVoiceWith_engine i fun v =>
        { v with mult := .steady (multiplier (((s.store.find w.cart w.serial).map Version.trim).getD 0)) }).log
      exact hc
    · intro hlt
      rw [exec_rejoin hp, State.rejoin_early ((State.elapse_out_place s dt o p).trans hb) ht hh' hpos hlt]
    · intro hle he
      have hb' : a.fit o p = some b := (State.elapse_out_place s dt o p).trans hb
      have hair : (a.out o).air = x.air := State.elapse_out_air s dt o
      have hentry : (a.out o).entry = x.entry := by funext n; rw [Outlet.entry, hentries]; rfl
      obtain ⟨f, hf, hsame, hends, hrelay⟩ := State.rejoin_ends hb' hs ht hh' hpos hle he
      rw [hair] at hf hsame hrelay
      rw [hair, hentry] at hends
      obtain ⟨rs, hw, hrs⟩ := hends.log
      refine ⟨_, f, rs, exec_rejoin hp dt o (some p), hends.place, ?_, ?_, hf, fun hn => hsame hn, ⟨hrs, hends.gone⟩, ?_, ?_⟩
      · exact hends.spots.trans (by rw [State.elapse_out_spots])
      · rw [← State.elapse_log s dt]
        exact hw
      · exact fun k it t' hit ht' hsk => item_written hrs hit ht' hsk
      · intro hsends hfollow hfb hothers
        refine hrelay hsends ((State.elapse_isFollow s dt o).trans hfollow) ?_ fun q hq => (State.elapse_out_place s dt o q).trans (hothers q hq)
        rw [← hfb]
        simp only [Outlet.inFallback, a, x, State.elapse_out_air, State.elapse_out_yielding]
    · obtain ⟨v, e, hg⟩ := State.cutAtRejoin_gives ((State.elapse_out_place s dt o p).trans hb) hs ht hpos
      exact ⟨_, exec_cutAtTheRejoin hp dt o p, by rw [e], by rw [e]; exact hg⟩
    · obtain ⟨v, e, hg⟩ := State.bedRampStart_gives ((State.elapse_out_place s dt o p).trans hb) ht hpos
      exact ⟨_, exec_bedRampStart hp dt o p, by rw [e], by rw [e]; exact hg⟩
  · intro e he hn
    obtain ⟨q, hw, hout, htag, hrest⟩ := State.rejoinSilent_ends hh' (by rw [hentries]; exact he) (by rw [hentries]; exact hn)
    refine ⟨_, q, exec_rejoin hp dt o none, ?_, hout, htag, ?_⟩
    · rw [← State.elapse_log s dt]
      exact hw
    · rw [hrest, hentries]
end

section
/-! A voice that starts, and an ITEM that becomes the lead and sounds (R25, R37, R95). -/

namespace Sys2Proof.Machine

/-! ### A voice starts (R95) -/

/-- A voice's start does not look at the outlets. -/
theorem State.startVoiceWith_setOut (s : State) (o : OutletId) (x : Outlet) (i : Nat) (set : VoiceUse → VoiceUse) :
    (s.setOut o x).startVoiceWith i set = (s.startVoiceWith i set).setOut o x := by
  have hjudge : ∀ t : State, (t.setOut o x).judge i = (t.judge i).setOut o x := fun t => by
    have hv : (t.setOut o x).voice i = t.voice i := rfl
    unfold State.judge
    rw [hv]
    split
    · rfl
    · split
      · rfl
      · dsimp only
        split <;> rfl
  have hfirst : ∀ (n : Nat) (t : State), State.judgeFirst n (t.setOut o x) i = (State.judgeFirst n t i).setOut o x := fun n => by
    induction n with
    | zero => exact fun t => rfl
    | succ n ih =>
      intro t
      have hv : (t.setOut o x).voice i = t.voice i := rfl
      unfold State.judgeFirst
      rw [hv, hjudge, ih]
      cases t.voice i with
      | none => rfl
      | some u => exact (apply_ite (fun t : State => t.setOut o x) _ _ _).symm
  unfold State.startVoiceWith
  exact hfirst 481 (s.modVoice i fun u => set { u with state := .playing })

theorem State.voice_setVoice_ne {i j : Nat} (s : State) (u : Option VoiceUse) (h : j ≠ i) : (s.setVoice i u).voice j = s.voice j := by
  simp [State.voice, State.setVoice, Ne.symm h]

/-- Starting a voice leaves the others. -/
theorem State.startVoiceWith_other {s : State} {i j : Nat} (h : j ≠ i) (set : VoiceUse → VoiceUse) :
    (s.startVoiceWith i set).voice j = s.voice j := by
  have hjudge : ∀ t : State, (t.judge i).voice j = t.voice j := fun t => by
    unfold State.judge
    split
    · rfl
    · split
      · exact State.voice_setVoice_ne _ _ h
      · dsimp only
        split
        · exact State.voice_setVoice_ne _ _ h
        · exact State.voice_setVoice_ne _ _ h
  have hfirst : ∀ (n : Nat) (t : State), (State.judgeFirst n t i).voice j = t.voice j := fun n => by
    induction n with
    | zero => exact fun t => rfl
    | succ n ih =>
      intro t
      unfold State.judgeFirst
      split
      · split
        · rw [ih, hjudge]
        · rfl
      · rfl
  unfold State.startVoiceWith
  rw [hfirst, State.voice_modVoice, if_neg h]

/-- A voice that starts sounds. -/
theorem State.startVoiceWith_sounds {s : State} {i : Nat} {w : VoiceUse} (hw : s.voice i = some w) {set : VoiceUse → VoiceUse}
    (hs : (set { w with state := .playing }).sounding = true) : ∃ z, (s.startVoiceWith i set).voice i = some z ∧ z.sounding = true := by
  have hjudge : ∀ t : State, (∃ z, t.voice i = some z ∧ z.sounding = true) → ∃ z, (t.judge i).voice i = some z ∧ z.sounding = true := fun t ht => by
    obtain ⟨z, hz, hsnd⟩ := ht
    unfold State.judge
    rw [hz]
    dsimp only
    split
    · refine ⟨_, State.voice_setVoice_self hz _, ?_⟩
      split <;> exact hsnd
    · split
      · exact ⟨_, State.voice_setVoice_self hz _, hsnd⟩
      · exact ⟨_, State.voice_setVoice_self hz _, hsnd⟩
  have hfirst : ∀ (n : Nat) (t : State), (∃ z, t.voice i = some z ∧ z.sounding = true) →
      ∃ z, (State.judgeFirst n t i).voice i = some z ∧ z.sounding = true := fun n => by
    induction n with
    | zero => exact fun t ht => ht
    | succ n ih =>
      intro t ht
      unfold State.judgeFirst
      split
      · split
        · exact ih _ (hjudge t ht)
        · exact ht
      · exact ht
  unfold State.startVoiceWith
  refine hfirst _ _ ⟨_, ?_, hs⟩
  rw [State.voice_modVoice, if_pos rfl, hw]
  rfl

/-! ### An ITEM sounds (R25) -/

/-- An entry that sounds from now (R25). -/
def Entry.soundsFrom (e : Entry) (now : Time) : Entry := { e with air := { e.air with start := some now, sounding := true, sounded := true } }

theorem State.resolveSuccessor_none {s : State} {o : OutletId} (h : (s.out o).seqSlot = none) : s.resolveSuccessor o = s := by
  unfold State.resolveSuccessor
  dsimp only
  rw [h]
  rfl

theorem State.handBackBoundary_none {s : State} {o : OutletId} (h : (s.out o).handBack = false) : s.handBackBoundary o = s := by
  unfold State.handBackBoundary
  dsimp only
  rw [h, Bool.false_and, if_neg Bool.false_ne_true]

/-- An ITEM whose voice is PRIMED sounds from its start at its own multiplier (R25, R37). -/
theorem State.soundItem_eq {s : State} {o : OutletId} {e : Entry} {i : Nat} {w : VoiceUse} (he : e.air.offset = 0) (hw : s.voice i = some w)
    (hseq : (s.out o).seqSlot = none) : ∃ tl, s.soundItem o e i =
      (s.startVoice i (.steady (s.voiceMult w e.trim))).setOut o
        { (s.out o).modEntry e.tag (fun e => e.soundsFrom s.now) with tallies := tl } ∧
      ((∀ t ∈ (s.out o).tallies, t.key ≠ .entry e.tag) →
        tl = (s.out o).tallies ++ [{ key := .entry e.tag, since := s.now, stopped := none, tally := .empty }]) := by
  have hnot : ¬(0 < e.air.offset) := by rw [he]; exact lt_irrefl 0
  have hsound : s.soundItem o e i = (((s.setOut o ((s.out o).modEntry e.tag fun e => e.soundsFrom s.now)).startVoice i
      (.steady (s.voiceMult w e.trim))).tallyStart o (.entry e.tag)).resolveSuccessor o := by
    unfold State.soundItem
    rw [hw]
    dsimp only
    rw [if_neg (by simp [hnot]), if_neg hnot]
    rfl
  have hout : (((s.startVoice i (.steady (s.voiceMult w e.trim))).setOut o ((s.out o).modEntry e.tag fun e => e.soundsFrom s.now)).out o) =
      (s.out o).modEntry e.tag fun e => e.soundsFrom s.now := State.setOut_out _ _ _
  have hnow : ((s.startVoice i (.steady (s.voiceMult w e.trim))).setOut o ((s.out o).modEntry e.tag fun e => e.soundsFrom s.now)).now = s.now := by
    have : (s.startVoice i (.steady (s.voiceMult w e.trim))).disc = s.disc := (s.startVoiceWith_engine i _).disc
    show (s.startVoice i (.steady (s.voiceMult w e.trim))).disc.groupTime.getD 0 = s.disc.groupTime.getD 0
    rw [this]
  obtain ⟨tl, htl, hnew⟩ := ((s.startVoice i (.steady (s.voiceMult w e.trim))).setOut o
    ((s.out o).modEntry e.tag fun e => e.soundsFrom s.now)).tallyStart_eq o (.entry e.tag)
  rw [hsound, State.startVoice, State.startVoiceWith_setOut, ← State.startVoice, htl, hout, State.setOut_setOut, State.resolveSuccessor_none]
  · refine ⟨tl, rfl, fun h => ?_⟩
    rw [hnew (by rw [hout]; exact h), hout, hnow]
    rfl
  · rw [State.setOut_out]
    exact hseq

end Sys2Proof.Machine
end

section
/-! An ITEM alone in its running order starts, and a HARD entry arms (R10, R12, R14, R24, R25). -/

namespace Sys2Proof.Machine

/-! ### The armed entry becomes the lead and sounds (R25) -/

/-- An entry as the lead, before it sounds. -/
def Entry.led (e : Entry) : Entry := { e with state := .onAir, air := .empty }

section leads
variable {s : State} {o : OutletId} {e : Entry} {cart i : Nat} {w : VoiceUse}

theorem State.makeLead_entry (he : (s.out o).entry e.tag = some e) (hl : e.lost = false) :
    ((s.makeLead o e.tag).out o).entry e.tag = some e.led := by
  rw [State.makeLead_eq he hl, State.modOut_out]
  exact Outlet.led_entry he

/-- An ITEM with its voice PRIMED is ready, and sounds. -/
theorem State.soundEntry_item (hk : e.kind = .item cart) (ha : e.air.offset = 0) (hp : s.primedVoice o (.entry e.tag) = some i)
    (hw : s.voice i = some w) (hseq : (s.out o).seqSlot = none) : s.entryReady o e = true ∧ ∃ tl, s.soundEntry o e =
      (s.startVoice i (.steady (s.voiceMult w e.trim))).setOut o
        { (s.out o).modEntry e.tag (fun e => e.soundsFrom s.now) with tallies := tl } ∧
      ((∀ t ∈ (s.out o).tallies, t.key ≠ .entry e.tag) →
        tl = (s.out o).tallies ++ [{ key := .entry e.tag, since := s.now, stopped := none, tally := .empty }]) := by
  refine ⟨?_, ?_⟩
  · unfold State.entryReady
    rw [hk]
    dsimp only
    rw [hp]
    rfl
  · unfold State.soundEntry
    rw [hk]
    dsimp only
    rw [hp]
    exact State.soundItem_eq ha hw hseq

/-- The ITEM of the sequence or of the anchor slot becomes the lead and sounds at once. -/
theorem State.makeLead_sounds (he : (s.out o).entry e.tag = some e) (hl : e.lost = false) (hk : e.kind = .item cart)
    (hp : s.primedVoice o (.entry e.tag) = some i) (hw : s.voice i = some w) (hseq : (s.out o).seqSlot.filter (fun t => t != e.tag) = none) :
    (s.makeLead o e.tag).entryReady o e.led = true ∧ ∃ tl, (s.makeLead o e.tag).soundEntry o e.led =
      (s.startVoice i (.steady (s.voiceMult w e.trim))).setOut o
        { ((s.out o).led e.tag).modEntry e.tag (fun e => e.soundsFrom s.now) with tallies := tl } ∧
      ((∀ t ∈ (s.out o).tallies, t.key ≠ .entry e.tag) →
        tl = (s.out o).tallies ++ [{ key := .entry e.tag, since := s.now, stopped := none, tally := .empty }]) := by
  have hlead : s.makeLead o e.tag = s.setOut o ((s.out o).led e.tag) := State.makeLead_eq he hl
  have hout : (s.setOut o ((s.out o).led e.tag)).out o = (s.out o).led e.tag := State.setOut_out _ _ _
  rw [hlead]
  obtain ⟨hready, tl, hs, htl⟩ := State.soundEntry_item (s := s.setOut o ((s.out o).led e.tag)) (e := e.led) hk rfl hp hw (by rw [hout]; exact hseq)
  refine ⟨hready, tl, ?_, fun h => ?_⟩
  · rw [hs, hout, State.startVoice, State.startVoiceWith_setOut, State.setOut_setOut]
    rfl
  · have := htl (by rw [hout]; exact h)
    rw [hout] at this
    exact this

/-- What starts an ITEM that is alone in its running order (R25). -/
structure State.Alone (s : State) (o : OutletId) (e : Entry) (i : Nat) (w : VoiceUse) : Prop where
  item : ∃ cart, e.kind = .item cart
  air : (s.out o).air = .onAir
  handBack : (s.out o).handBack = false
  entries : (s.out o).entries = [e]
  order : (s.out o).airOrder = []
  state : e.state = .armed
  lost : e.lost = false
  primed : s.primedVoice o (.entry e.tag) = some i
  voice : s.voice i = some w
  seq : (s.out o).seqSlot.filter (fun t => t != e.tag) = none
  anchor : (s.out o).anchorSlot.filter (fun t => t != e.tag) = none
  fresh : ∀ t ∈ (s.out o).tallies, t.key ≠ .entry e.tag

/-- The unit once the ITEM sounds as the lead (R25). -/
def State.alone (s : State) (o : OutletId) (e : Entry) (i : Nat) (w : VoiceUse) : State :=
  (s.startVoice i (.steady (s.voiceMult w e.trim))).setOut o
    { s.out o with
      entries := [{ e with state := .onAir, air := { EntryAir.empty with start := some s.now, sounding := true, sounded := true } }]
      seqSlot := none
      anchorSlot := none
      inherit := none
      airOrder := [e.tag]
      tallies := (s.out o).tallies ++ [{ key := .entry e.tag, since := s.now, stopped := none, tally := .empty }] }

theorem State.Alone.entry (h : State.Alone s o e i w) : (s.out o).entry e.tag = some e := by
  rw [Outlet.entry, h.entries]
  simp

theorem State.Alone.sounds (h : State.Alone s o e i w) : (s.makeLead o e.tag).entryReady o e.led = true ∧
    ((s.makeLead o e.tag).soundEntry o e.led).handBackBoundary o = s.alone o e i w := by
  obtain ⟨cart, hk⟩ := h.item
  obtain ⟨hready, tl, hs, htl⟩ := State.makeLead_sounds h.entry h.lost hk h.primed h.voice h.seq
  refine ⟨hready, ?_⟩
  rw [hs, htl h.fresh, State.handBackBoundary_none]
  · refine congrArg _ ?_
    simp only [Outlet.led, Outlet.modEntry, h.entries, h.order, h.seq, h.anchor]
    simp [Entry.soundsFrom]
  · rw [State.setOut_out]
    exact h.handBack

theorem State.Alone.starts (h : State.Alone s o e i w) : s.startEntry o e = s.alone o e i w := by
  have hformer : (s.out o).lead = none := by rw [Outlet.lead, Outlet.leadTag, h.order]; rfl
  unfold State.startEntry
  dsimp only
  rw [hformer]
  dsimp only
  rw [State.makeLead_entry h.entry h.lost]
  exact h.sounds.2

/-! ### Due starts (R14, R24) -/

/-- No HARD entry of a slot is due where none stands in one. -/
theorem Outlet.anchorDue_none {x : Outlet} (ha : x.anchorSlot = none) (hq : x.seqSlot = some e.tag) (he : x.entry e.tag = some e)
    (hm : ∀ t, e.mode ≠ .hard t) (now : Time) : x.anchorDue now = none := by
  unfold Outlet.anchorDue
  dsimp only
  rw [ha, hq, Option.bind_none, Option.filter_none, Option.bind_some, he]
  cases h : e.mode with
  | hard t => exact absurd h (hm t)
  | sequence => simp [Option.filter, h]
  | soft t => simp [Option.filter, h]

/-- The entry of the sequence slot starts at its start time (R24). -/
theorem State.sequenceDue_of {t : Time} (hplays : (s.out o).playsTimeline = true) (hq : (s.out o).seqSlot = some e.tag)
    (he : (s.out o).entry e.tag = some e) (ha : (s.out o).anchorSlot = none) (hm : ∀ t, e.mode ≠ .hard t) (ht : e.start = .time t)
    (hle : t ≤ s.reached) (hlead : ∀ l, (s.out o).lead = some l → l.isBreak = false) (hready : s.entryReady o e = true) :
    s.sequenceDue o = some e := by
  have hanchor : (s.out o).anchorDue s.reached = none := Outlet.anchorDue_none ha hq he hm _
  unfold State.sequenceDue
  dsimp only
  rw [if_pos hplays, hq, Option.bind_some, he]
  dsimp only
  have htimed : (match e.mode with
      | .hard _ => true
      | _ => false) = false := by
    split
    · rename_i u h
      exact absurd h (hm u)
    · rfl
  rw [hanchor, ht, hready, if_pos]
  rw [Bool.and_eq_true, Bool.and_eq_true, Bool.and_eq_true, Bool.and_eq_true]
  refine ⟨⟨⟨⟨by simpa using hle, ?_⟩, ?_⟩, rfl⟩, rfl⟩
  · rw [Bool.not_eq_true']
    exact htimed
  · split
    · rename_i l h
      rw [hlead l h]
      rfl
    · rfl

theorem Outlet.playsTimeline_onAir {x : Outlet} (h : x.air = .onAir) : x.playsTimeline = true := by
  simp [Outlet.playsTimeline, Outlet.inFallback, h, Air.sends]

/-- START_TIME_REACHED where the entry of the sequence slot is ready (R24). -/
theorem exec_startTimeReached (hp : s.powered = true) {dt : Nat} {a : State} (hs : s.elapse dt = a) (hair : (a.out o).air = .onAir)
    (hq : (a.out o).seqSlot = some e.tag) (he : (a.out o).entry e.tag = some e) (ha : (a.out o).anchorSlot = none) (hm : ∀ t, e.mode ≠ .hard t)
    {t : Time} (ht : e.start = .time t) (hle : t ≤ a.reached) (hlead : ∀ l, (a.out o).lead = some l → l.isBreak = false)
    (hready : a.entryReady o e = true) : exec (.startTimeReached dt o) s = .next ((a.startEntry o e).finish a) := by
  subst hs
  have hdue := State.sequenceDue_of (Outlet.playsTimeline_onAir hair) hq he ha hm ht hle hlead hready
  have hcome : (s.elapse dt).startDue o = true := by
    unfold State.startDue
    rw [hq, Option.bind_some, he]
    simp [ht, ArmedStart.planned, hle]
  show execStartTimeReached dt o s = _
  rw [execStartTimeReached, State.run_powered hp, if_pos hcome, State.stepSequence, hdue]
  rfl

/-- An armed HARD entry whose time has come is the anchor that is due (R14). -/
theorem Outlet.anchorDue_some {x : Outlet} {t now : Time} (hs : x.anchorSlot = some e.tag ∨ x.anchorSlot = none ∧ x.seqSlot = some e.tag)
    (he : x.entry e.tag = some e) (hm : e.mode = .hard t) (hle : t ≤ now) (ha : e.state = .armed) (hl : e.lost = false) :
    x.anchorDue now = some e := by
  unfold Outlet.anchorDue
  dsimp only
  rcases hs with h | ⟨h1, h2⟩
  · rw [h, Option.bind_some, he]
    simp [Option.filter, hm, ha, hl, hle]
  · rw [h1, h2, Option.bind_none, Option.filter_none, Option.bind_some, he]
    simp [Option.filter, hm, ha, hl, hle]

/-- HARD_TIME_REACHED of an ARMED entry that no BREAK on the air defers (R14, R30). -/
theorem exec_hardTimeReached (hp : s.powered = true) {dt : Nat} {a : State} (hs : s.elapse dt = a) (hair : (a.out o).air = .onAir)
    (hslot : (a.out o).anchorSlot = some e.tag ∨ (a.out o).anchorSlot = none ∧ (a.out o).seqSlot = some e.tag)
    (he : (a.out o).entry e.tag = some e) {t : Time} (hm : e.mode = .hard t) (hle : t ≤ a.reached) (harmed : e.state = .armed)
    (hl : e.lost = false) (hbreak : ∀ d ∈ (a.out o).entries, d.state = .onAir → d.isBreak = false) :
    exec (.hardTimeReached dt o e.tag) s = .next ((a.anchorStart o e).finish a) := by
  subst hs
  have hdue := Outlet.anchorDue_some hslot he hm hle harmed hl
  have hcome : (s.elapse dt).hardDue o e.tag = true := by
    unfold State.hardDue
    rw [he]
    simp [hm, StartMode.hardTime, hle]
  have hfree : ((s.elapse dt).out o).breakOnAir = false := List.any_eq_false.2 fun d hd => by
    simp only [Bool.and_eq_true, beq_iff_eq, not_and]
    intro hb ha
    rw [hbreak d hd ha] at hb
    cases hb
  have hstep : (s.elapse dt).stepAnchor o = some ((s.elapse dt).anchorStart o e) := by
    unfold State.stepAnchor
    dsimp only
    rw [hair, hfree, hdue]
    rfl
  show execHardTimeReached dt o e.tag s = _
  rw [execHardTimeReached, State.run_powered hp, if_pos hcome, hstep]
  rfl

/-! ### The ITEM starts at its own time or as an anchor (R14, R24) -/

/-- With no voice sounding nothing ramps out. -/
theorem State.rampAll_silent (h : ∀ j z, s.voice j = some z → z.outlet = o → z.sounding = false) (n : Nat) : s.rampAll o n = s := by
  have hnil : s.voicesWhere o VoiceUse.sounding = [] := List.eq_nil_iff_forall_not_mem.2 fun j hj => by
    cases hv : s.voice j with
    | none =>
      have := (List.mem_filter.1 hj).2
      rw [hv] at this
      cases this
    | some z =>
      obtain ⟨ho, hz⟩ := (State.mem_voicesWhere hv).1 hj
      rw [h j z hv ho] at hz
      cases hz
  rw [State.rampAll, hnil]
  rfl

theorem State.Alone.anchors (h : State.Alone s o e i w) (hq : ∀ j z, s.voice j = some z → z.outlet = o → z.sounding = false) :
    s.anchorStart o e = s.alone o e i w := by
  have hfb : (s.out o).inFallback = false := by simp [Outlet.inFallback, h.air]
  obtain ⟨hready, hsounds⟩ := h.sounds
  unfold State.anchorStart
  dsimp only
  rw [hfb, if_neg Bool.false_ne_true, State.rampAll_silent hq, h.entries]
  have hpass : [e].foldl (fun s d => s.passAnchor o (entriesBefore [e] e.tag) d) s = s := by
    simp [State.passAnchor, h.state, entriesBefore]
  rw [hpass, State.makeLead_entry h.entry h.lost]
  dsimp only
  rw [if_pos hready, hsounds]

theorem State.Alone.ready (h : State.Alone s o e i w) : s.entryReady o e = true := by
  obtain ⟨cart, hk⟩ := h.item
  unfold State.entryReady
  rw [hk]
  dsimp only
  rw [h.primed]
  rfl

end leads

/-! ### A HARD entry arms (R10, R12, R90) -/

/-- No voice of the outlet or shared is FREE. -/
theorem State.voiceFor_none {s : State} {o : OutletId} (h : ∀ z ∈ s.voices, z.use = none → z.reserved ≠ some o ∧ z.reserved ≠ none) :
    s.voiceFor o = none := by
  have hfree : ∀ r : Option OutletId, (r = some o ∨ r = none) → s.freeVoice r = none := fun r hr => by
    unfold State.freeVoice
    dsimp only
    rw [if_neg]
    intro hlt
    have hz := List.findIdx_getElem (w := hlt)
    simp only [Bool.and_eq_true, Option.isNone_iff_eq_none, beq_iff_eq] at hz
    obtain ⟨hu, hres⟩ := hz
    obtain ⟨h1, h2⟩ := h _ (List.getElem_mem hlt) hu
    rcases hr with hr | hr
    · exact h1 (hres.trans hr)
    · exact h2 (hres.trans hr)
  rw [State.voiceFor, hfree _ (.inl rfl), hfree _ (.inr rfl)]

/-- A HARD ITEM arms in the anchor slot with its cart's version, and its request waits (R10, R12). -/
theorem State.armsAnchor_eq {s : State} {o : OutletId} {e : Entry} {cart : Nat} {v : Version} {t : Time} (hk : e.kind = .item cart)
    (hm : e.mode = .hard t) (hv : s.store.usable cart = some v) (hfree : ∀ z ∈ s.voices, z.use = none → z.reserved ≠ some o ∧ z.reserved ≠ none) :
    s.arm o e .anchor = ({ s with voiceQueue := enqueue s.voiceQueue { outlet := o, holder := .entry e.tag, needed := t } } : State).setOut o
      { s.out o with
        entries := (s.out o).entries.map fun d =>
          if d.tag = e.tag then
            { d with state := .armed, start := .time t, planned := some t, serial := some v.serial, lost := false, air := .empty }
          else d
        anchorSlot := some e.tag } := by
  unfold State.arm
  rw [hk]
  dsimp only
  rw [hv, hm]
  dsimp only
  unfold State.request
  have hfor : (s.setArmed o e.tag .anchor (.time t) (some v.serial)).voiceFor o = none := State.voiceFor_none hfree
  have hneeded : (ArmedStart.time t).needed s.now = t := rfl
  simp only [StartMode.noLead, Option.getD_some, hneeded]
  rw [if_neg (by simp [VoiceRequest.isFallback]), hfor]
  dsimp only
  unfold State.setArmed State.modOut Outlet.modEntry
  simp only [beq_iff_eq]
  rfl

/-- A candidate for the anchor slot where no entry is a BREAK (R12). -/
theorem Outlet.isCandidate_item {x : Outlet} {e : Entry} (h : e.isBreak = false) (now : Time) :
    x.isCandidate now e = (decide (e.state = .queued) && e.mode.hardTime.any fun t => decide (t - 96000 ≤ now)) := by
  unfold Outlet.isCandidate
  rw [h]
  cases hs : e.state <;> cases hm : e.mode <;> simp [StartMode.hardTime]

/-- ARM_TIME_REACHED where the sequence slot is taken and the first candidate is an ITEM (R12). -/
theorem exec_armTimeReached {s : State} (hp : s.powered = true) (dt : Nat) {o : OutletId} {e : Entry} {q : Nat}
    (hq : ((s.elapse dt).out o).seqSlot = some q) (ha : ((s.elapse dt).out o).anchorSlot = none)
    (hfills : ((s.elapse dt).out o).fillsAnchor = true)
    (he : ((s.elapse dt).out o).entries.find? (fun d => ((s.elapse dt).out o).isCandidate (s.elapse dt).reached d) = some e) :
    exec (.armTimeReached dt o) s = .next (((s.elapse dt).arm o e .anchor).finish (s.elapse dt)) := by
  have hcome : ((s.elapse dt).out o).armDue (s.elapse dt).reached = true :=
    List.any_eq_true.2 ⟨e, List.mem_of_find?_eq_some he, List.find?_some he⟩
  have hseq : (s.elapse dt).fillSequence o = none := by
    unfold State.fillSequence
    dsimp only
    rw [hq]
    rfl
  have hfill : (s.elapse dt).fillAnchor o = some ((s.elapse dt).arm o e .anchor) := by
    unfold State.fillAnchor
    dsimp only
    rw [ha, hfills, he]
    rfl
  show execArmTimeReached dt o s = _
  rw [execArmTimeReached, State.run_powered hp, if_pos hcome, State.armAnchor, hseq, hfill]
  rfl

/-- A voice that sounds after passing samples sounded before. -/
theorem State.elapse_quiet {s : State} {o : OutletId} (h : ∀ j z, s.voice j = some z → z.outlet = o → z.sounding = false) (dt : Nat) :
    ∀ j z, (s.elapse dt).voice j = some z → z.outlet = o → z.sounding = false := by
  intro j z hz ho
  rw [State.elapse_voice] at hz
  obtain ⟨u, hu, e⟩ := Option.map_eq_some_iff.1 hz
  by_cases hs : u.sounding = false
  · rw [VoiceUse.elapse_silent hs, ite_self] at e
    exact e ▸ hs
  · have houtlet : u.outlet = z.outlet := by
      rw [← e]
      split
      · rfl
      · unfold VoiceUse.elapse
        split <;> rfl
    exact absurd (h j u hu (houtlet.trans ho)) hs

/-- Passing samples free no voice. -/
theorem State.elapse_free {s : State} {o : OutletId} (h : ∀ z ∈ s.voices, z.use = none → z.reserved ≠ some o ∧ z.reserved ≠ none) (dt : Nat) :
    ∀ z ∈ (s.elapse dt).voices, z.use = none → z.reserved ≠ some o ∧ z.reserved ≠ none := by
  unfold State.elapse
  split
  · exact h
  · intro z hz hu
    obtain ⟨v, hv, rfl⟩ := List.mem_map.1 hz
    exact h v hv (Option.map_eq_none_iff.1 hu)

/-! ### SOFT times (R13) -/

theorem entriesAfter_eq {pre rest : List Entry} {l : Entry} (hn : ((pre ++ l :: rest).map Entry.tag).Nodup) :
    entriesAfter (pre ++ l :: rest) l.tag = rest := by
  have hpre : ∀ d ∈ pre, (d.tag != l.tag) = true := fun d hd => by
    rw [List.map_append, List.nodup_append] at hn
    simpa using hn.2.2 d.tag (List.mem_map_of_mem hd) l.tag (by simp)
  rw [entriesAfter, List.dropWhile_append_of_pos hpre, List.dropWhile_cons_of_neg (by simp)]
  rfl

/-- What an entry that leaves SKIPPED_TIME shows in its record (R13, R14). -/
def Record.shows (r : Record) : OutletId × Source × Option Nat × Outcome := (r.outlet, r.source, r.entryTag, r.outcome)

/-- An entry that leaves changes no request. -/
theorem State.leaveEntry_queue (s : State) (o : OutletId) (tag : Nat) (out : Outcome) (rep : VoiceReport) (n : Nat) (under : Option Nat) :
    (s.leaveEntry o tag out rep n under).voiceQueue = s.voiceQueue := by
  cases h : (s.out o).entry tag with
  | none =>
    unfold State.leaveEntry
    rw [h]
  | some e =>
    obtain ⟨l, tl, e', -⟩ := State.leaveEntry_eq h out rep n under
    rw [e']
    rfl

theorem State.leaveUnbegun_queue {s : State} (h : s.voiceQueue = []) (o : OutletId) (tag : Nat) (out : Outcome) :
    (s.leaveUnbegun o tag out).voiceQueue = [] := by
  unfold State.leaveUnbegun State.leaveSilent
  split
  · rw [State.leaveEntry_queue]
    split
    · exact (State.unprepare_empty h o tag).queue
    · exact h
  · exact h

/-- Entries that have not begun leave one after the other, no request waiting (R13). -/
theorem State.leaveUnbegun_all {o : OutletId} (mid : List Entry) {pre post : List Entry} {s : State} (hq : s.voiceQueue = [])
    (hx : (s.out o).entries = pre ++ mid ++ post) (hn : ((s.out o).entries.map Entry.tag).Nodup) :
    ∃ rs, s.log.Wrote (mid.foldl (fun s d => s.leaveUnbegun o d.tag .skippedTime) s).log rs ∧
      rs.map Record.shows = mid.map (fun d => (o, Source.entry, some d.tag, Outcome.skippedTime)) ∧
      ((mid.foldl (fun s d => s.leaveUnbegun o d.tag .skippedTime) s).out o).entries = pre ++ post := by
  induction mid generalizing s with
  | nil => exact ⟨[], .refl _, rfl, by simpa using hx⟩
  | cons d mid ih =>
    have hx' : (s.out o).entries = pre ++ d :: (mid ++ post) := by simpa using hx
    obtain ⟨q, e, hw, hqe, he, -, hrest⟩ := State.leaveUnbegun_removes (Outlet.entry_of_split hx' hn) (fun _ => hq) .skippedTime
    have hleft : ((s.leaveUnbegun o d.tag .skippedTime).out o).entries = pre ++ mid ++ post := by
      rw [hx', List.map_append, List.map_cons, List.nodup_middle, List.nodup_cons, ← List.map_append, ← List.append_assoc] at hn
      have hkeep : ∀ c ∈ pre ++ mid ++ post, (c.tag != d.tag) = true := fun c hc => by
        simpa using fun h : c.tag = d.tag => hn.1 (h ▸ List.mem_map_of_mem hc)
      rw [hrest, hx', List.append_assoc, List.filter_append, List.filter_cons_of_neg (by simp), ← List.filter_append,
        List.filter_eq_self.2 (by rw [← List.append_assoc]; exact hkeep)]
    have hn' : (((s.leaveUnbegun o d.tag .skippedTime).out o).entries.map Entry.tag).Nodup := by
      rw [hrest]
      exact hn.sublist (List.filter_sublist.map _)
    obtain ⟨rs, hws, hrs, hlast⟩ := ih (State.leaveUnbegun_queue hq o d.tag .skippedTime) hleft hn'
    refine ⟨q :: rs, hw.trans hws, ?_, hlast⟩
    obtain ⟨ho, hsrc, hout, htag, -⟩ := Record.field_of_unnumbered hqe
    rw [List.map_cons, List.map_cons, hrs]
    refine congrArg (· :: _) ?_
    rw [Record.shows, ho, hsrc, hout, htag]
    exact congrArg (fun t => (o, Source.entry, some t, Outcome.skippedTime)) he

/-- A SOFT entry whose time has come and that nothing else starts before is next (R13). -/
theorem State.reachSoft_next {s : State} {o : OutletId} {pre mid post : List Entry} {l e : Entry} {t : Time}
    (hplays : (s.out o).playsTimeline = true) (hx : (s.out o).entries = pre ++ l :: mid ++ e :: post)
    (hn : ((s.out o).entries.map Entry.tag).Nodup) (hlead : (s.out o).leadTag = some l.tag) (hmid : ∀ d ∈ mid, d.state ≠ .onAir)
    (hs : e.state = .queued) (hm : e.mode = .soft t)
    (hseq : ∀ q d, (s.out o).seqSlot = some q → (s.out o).entry q = some d → d.start ≠ .time t) :
    s.reachSoft o e.tag t = mid.foldl (fun s d => s.leaveUnbegun o d.tag .skippedTime) s := by
  have he : (s.out o).entry e.tag = some e := Outlet.entry_of_split hx hn
  have hafter : entriesAfter (s.out o).entries l.tag = mid ++ e :: post := by
    have hx' : (s.out o).entries = pre ++ l :: (mid ++ e :: post) := by simpa using hx
    rw [hx'] at hn ⊢
    exact entriesAfter_eq hn
  have hbefore : entriesBefore (mid ++ e :: post) e.tag = mid := entriesBefore_eq <| by
    rw [hx] at hn
    exact hn.sublist (List.Sublist.map _ (by simp))
  have hkeep : mid.filter (fun d => d.state != .onAir) = mid := List.filter_eq_self.2 fun d hd => by simpa using hmid d hd
  rw [State.reachSoft, hplays, he, if_pos (by simp [hs, hm])]
  unfold State.softTime
  dsimp only
  cases hd : (s.out o).seqSlot.bind (s.out o).entry with
  | none =>
    rw [hlead]
    dsimp only
    rw [hafter, hbefore, hkeep]
  | some d =>
    obtain ⟨q, hq, hqd⟩ := Option.bind_eq_some_iff.1 hd
    have hstart := hseq q d hq hqd
    dsimp only
    rw [if_neg (by simp [hstart]), hlead]
    dsimp only
    rw [hafter, hbefore, hkeep]

end Sys2Proof.Machine
end

section
/-! An ITEM starts over its former lead, which plays on or fades (R24, R25, R27). -/

namespace Sys2Proof.Machine

/-- A voice changed within its holder keeps its place. -/
theorem State.voiceOf_modVoice (s : State) (i : Nat) {f : VoiceUse → VoiceUse} (hf : ∀ u, (f u).outlet = u.outlet ∧ (f u).holder = u.holder)
    (o : OutletId) (h : Holder) : (s.modVoice i f).voiceOf o h = s.voiceOf o h := by
  have hp : ∀ v : Voice, (({ v with use := v.use.map f } : Voice).use.any fun u => u.outlet == o && u.holder == h) =
      v.use.any fun u => u.outlet == o && u.holder == h := fun v => by
    cases hu : v.use with
    | none => rfl
    | some u => simp [hf u]
  have hidx : ∀ (l : List Voice) (i : Nat), (l.modify i fun v => { v with use := v.use.map f }).findIdx
      (fun v => v.use.any fun u => u.outlet == o && u.holder == h) = l.findIdx fun v => v.use.any fun u => u.outlet == o && u.holder == h := fun l => by
    induction l with
    | nil =>
      intro i
      cases i <;> rfl
    | cons v l ih =>
      intro i
      cases i with
      | zero => rw [List.modify_zero_cons, List.findIdx_cons, List.findIdx_cons, hp]
      | succ i => rw [List.modify_succ_cons, List.findIdx_cons, List.findIdx_cons, ih]
  unfold State.voiceOf
  dsimp only
  rw [State.modVoice, hidx, List.length_modify]

theorem VoiceUse.rampOut_kept (u : VoiceUse) (c n : Nat) : (u.rampOut c n).outlet = u.outlet ∧ (u.rampOut c n).holder = u.holder := by
  unfold VoiceUse.rampOut
  split
  · exact ⟨rfl, rfl⟩
  · split <;> exact ⟨rfl, rfl⟩

/-- What the fade flag of a former lead does to its voice (R27). -/
def State.fadeVoice (s : State) (fade : Bool) (u : VoiceUse) : VoiceUse :=
  if fade && u.sounding && decide (u.sounded < u.passEnd) && !(s.store.find u.cart u.serial).any fun v => v.kind == .spot then
    u.rampOut s.clock (u.passEnd - u.sounded)
  else u

theorem State.fadeVoice_kept (s : State) (b : Bool) (u : VoiceUse) : (s.fadeVoice b u).outlet = u.outlet ∧ (s.fadeVoice b u).holder = u.holder := by
  unfold State.fadeVoice
  split
  · exact u.rampOut_kept _ _
  · exact ⟨rfl, rfl⟩

/-- The fade flag acts on the voice of the former lead alone. -/
theorem State.fadeLead_eq {s : State} {o : OutletId} {l : Entry} {cart i : Nat} (hk : l.kind = .item cart)
    (hv : s.voiceOf o (.entry l.tag) = some i) : s.fadeLead o l = s.modVoice i (s.fadeVoice l.fade) := by
  unfold State.fadeLead
  rw [hk, hv]
  dsimp only
  cases hf : l.fade with
  | false =>
    have hid : (fun v : Voice => { v with use := v.use.map (s.fadeVoice false) }) = id := by
      funext v
      show ({ v with use := v.use.map id } : Voice) = v
      rw [Option.map_id]
      rfl
    rw [if_neg Bool.false_ne_true, State.modVoice, hid, List.modify_id]
  | true =>
    rw [if_pos rfl]
    refine congrArg (s.modVoice i) (funext fun u => ?_)
    simp [State.fadeVoice, and_assoc]

/-- What the unit is as an ITEM has started over its former lead (R25, R27). -/
structure State.Over (a u : State) (o : OutletId) (l e : Entry) (i j : Nat) (w : VoiceUse) : Prop where
  lead : (u.out o).leadTag = some e.tag
  seq : (u.out o).seqSlot = none
  former : (u.out o).entry l.tag = some l
  starts : (u.out o).entry e.tag = some (e.led.soundsFrom a.now)
  sounds : ∃ z, u.voice j = some z ∧ z.sounding = true
  fades : u.voice i = some (a.fadeVoice l.fade w)

theorem State.startEntry_over {a : State} {o : OutletId} {l e : Entry} {cl ce i j : Nat} {w z : VoiceUse} (hb : (a.out o).handBack = false)
    (hlead : (a.out o).leadTag = some l.tag) (hl : (a.out o).entry l.tag = some l) (hkl : l.kind = .item cl)
    (hq : (a.out o).seqSlot = some e.tag) (he : (a.out o).entry e.tag = some e) (hne : l.tag ≠ e.tag) (hke : e.kind = .item ce)
    (hlost : e.lost = false) (hj : a.voiceOf o (.entry e.tag) = some j) (hz : a.voice j = some z) (hp : z.state = .primed)
    (hi : a.voiceOf o (.entry l.tag) = some i) (hw : a.voice i = some w) (hs : w.sounding = true) :
    State.Over a (a.startEntry o e) o l e i j w := by
  have hji : j ≠ i := fun h => by
    rw [h, hw] at hz
    obtain rfl := Option.some.inj hz
    rw [VoiceUse.sounding_primed hp] at hs
    cases hs
  have hformer : (a.out o).lead = some l := by rw [Outlet.lead, hlead]; exact hl
  have hmake : a.makeLead o e.tag = a.setOut o ((a.out o).led e.tag) := State.makeLead_eq he hlost
  have hfade : (a.makeLead o e.tag).fadeLead o l = (a.modVoice i (a.fadeVoice l.fade)).setOut o ((a.out o).led e.tag) := by
    rw [hmake, State.fadeLead_eq (s := a.setOut o ((a.out o).led e.tag)) hkl hi]
    rfl
  have hzj : (a.modVoice i (a.fadeVoice l.fade)).voice j = some z := by rw [State.voice_modVoice, if_neg hji, hz]
  have hprimed : (a.modVoice i (a.fadeVoice l.fade)).primedVoice o (.entry e.tag) = some j :=
    State.primedVoice_of ((a.voiceOf_modVoice i (a.fadeVoice_kept l.fade) o _).trans hj) hzj hp
  have hseq : ((a.out o).led e.tag).seqSlot = none := by
    show (a.out o).seqSlot.filter (fun t => t != e.tag) = none
    rw [hq]
    simp [Option.filter]
  obtain ⟨-, tl, hsound, -⟩ := State.soundEntry_item (s := (a.modVoice i (a.fadeVoice l.fade)).setOut o ((a.out o).led e.tag)) (e := e.led)
    hke rfl hprimed hzj (by rw [State.setOut_out]; exact hseq)
  have hstart : a.startEntry o e =
      (((a.modVoice i (a.fadeVoice l.fade)).setOut o ((a.out o).led e.tag)).soundEntry o e.led).handBackBoundary o := by
    have hentry : (((a.modVoice i (a.fadeVoice l.fade)).setOut o ((a.out o).led e.tag)).out o).entry e.tag = some e.led := by
      rw [State.setOut_out]
      exact Outlet.led_entry he
    unfold State.startEntry
    dsimp only
    rw [hformer]
    dsimp only
    rw [hfade, hentry]
  rw [hstart, hsound, State.handBackBoundary_none (by rw [State.setOut_out, State.setOut_out]; exact hb)]
  have hformer' : (((a.out o).led e.tag).modEntry e.tag fun d => d.soundsFrom a.now).entry l.tag = some l := by
    have hled : ((a.out o).led e.tag).entry l.tag = some l :=
      (Outlet.entry_modEntry_ne (x := a.out o) (f := fun d => { d with state := .onAir, air := .empty }) hne fun _ => rfl).trans hl
    exact (Outlet.entry_modEntry_ne (f := fun d => d.soundsFrom a.now) hne fun _ => rfl).trans hled
  refine ⟨?_, ?_, ?_, ?_, ?_, ?_⟩
  · rw [State.setOut_out, State.setOut_out]
    rfl
  · rw [State.setOut_out, State.setOut_out]
    exact hseq
  · rw [State.setOut_out, State.setOut_out]
    exact hformer'
  · rw [State.setOut_out, State.setOut_out]
    have := Outlet.entry_modEntry ((a.out o).led e.tag) e.tag (fun d => d.soundsFrom a.now) fun _ => rfl
    rw [Outlet.led_entry he] at this
    exact this
  · exact State.startVoiceWith_sounds (s := (a.modVoice i (a.fadeVoice l.fade)).setOut o ((a.out o).led e.tag)) hzj
      (set := fun u => { u with mult := _ }) rfl
  · refine (State.startVoiceWith_other (s := (a.modVoice i (a.fadeVoice l.fade)).setOut o ((a.out o).led e.tag)) (Ne.symm hji) _).trans ?_
    refine (State.voice_modVoice a i i _).trans ?_
    rw [if_pos rfl, hw]
    rfl

end Sys2Proof.Machine
end

section
/-! Voices that grants, requests and starts leave as they are, and what the sounding of an entry leaves of its outlet (R89, R91, R95). -/

namespace Sys2Proof.Machine

/-! ### Voices spared -/

/-- The voices of a kind are as they were. -/
structure State.Spares (keep : VoiceUse → Prop) (s t : State) : Prop where
  voices : ∀ i w, s.voice i = some w → keep w → t.voice i = some w

section spares
variable {keep : VoiceUse → Prop} {s t u : State}

theorem State.Spares.refl (keep : VoiceUse → Prop) (s : State) : s.Spares keep s := ⟨fun _ _ h _ => h⟩

theorem State.Spares.trans (h : s.Spares keep t) (h' : t.Spares keep u) : s.Spares keep u :=
  ⟨fun i w hw hk => h'.voices i w (h.voices i w hw hk) hk⟩

theorem State.Spares.of_voices (h : t.voices = s.voices) : s.Spares keep t := ⟨fun i w hw _ => by rw [State.voice, h]; exact hw⟩

theorem State.Spares.from_voices (h : t.voices = s.voices) (h' : t.Spares keep u) : s.Spares keep u := (State.Spares.of_voices h).trans h'

theorem State.Spares.setVoice {i : Nat} (ht : t.voices = s.voices) (h : ∀ w, s.voice i = some w → ¬ keep w) (x : Option VoiceUse) :
    s.Spares keep (t.setVoice i x) := by
  refine ⟨fun j w hw hk => ?_⟩
  by_cases hj : j = i
  · subst hj
    exact absurd hk (h w hw)
  · rw [State.voice_setVoice_ne _ _ hj, State.voice, ht]
    exact hw

theorem State.Spares.modOut (s : State) (o : OutletId) (f : Outlet → Outlet) : s.Spares keep (s.modOut o f) := .of_voices rfl

theorem State.Spares.prime {i : Nat} (h : s.voice i = none) (o : OutletId) (k : Holder) (v : Version) (n : Nat) (l : Bool) (t : Time) :
    s.Spares keep (s.prime i o k v n l t) := by
  unfold State.prime
  dsimp only
  have hnone : ∀ w, s.voice i = some w → ¬ keep w := fun w hw => by rw [h] at hw; cases hw
  refine .setVoice ?_ hnone _
  rfl

/-- A grant primes a FREE voice (R89). -/
theorem State.Spares.grant {i : Nat} (h : s.voice i = none) (r : VoiceRequest) : s.Spares keep (s.grant i r) := by
  have hslot : ∀ p k, s.Spares keep (s.grantSlot i r p k) := fun p k => by
    unfold State.grantSlot
    dsimp only
    split
    · exact .refl keep s
    · split
      · split
        · exact (State.Spares.prime h ..).trans (.modOut _ _ _)
        · split
          · exact State.Spares.trans (.modOut s _ _) (.prime (by exact h) ..)
          · exact .modOut s _ _
      · split
        · exact .prime h ..
        · exact .modOut s _ _
  unfold State.grant
  split
  · split
    · exact .refl keep s
    · split
      · split
        · rename_i v _
          obtain ⟨k, hs⟩ := s.startSample_beside v.inCue _
          dsimp only
          rw [hs]
          exact State.Spares.trans (t := { s with freeCount := k }) (.of_voices rfl) (.prime (by exact h) ..)
        · exact .of_voices rfl
      · exact .refl keep s
  · exact hslot _ _
  · unfold State.grantFallback
    dsimp only
    split
    · exact (State.Spares.prime h ..).trans (.modOut _ _ _)
    · exact .modOut s _ _
  · exact .refl keep s

/-- A voice with no use is FREE. -/
theorem State.voice_none {i : Nat} {v : Voice} (h : s.voices[i]? = some v) (hu : v.use = none) : s.voice i = none := by
  rw [State.voice, h]
  exact hu

theorem State.freeVoice_free {q : Option OutletId} {i : Nat} (h : s.freeVoice q = some i) : s.voice i = none := by
  unfold State.freeVoice at h
  dsimp only at h
  split at h
  · rename_i hlt
    obtain rfl := Option.some.inj h
    have hz := List.findIdx_getElem (w := hlt)
    simp only [Bool.and_eq_true, Option.isNone_iff_eq_none] at hz
    exact State.voice_none (List.getElem?_eq_getElem hlt) hz.1
  · cases h

theorem State.voiceFor_free {q : OutletId} {i : Nat} (h : s.voiceFor q = some i) : s.voice i = none := by
  unfold State.voiceFor at h
  split at h
  · rename_i hi
    exact State.freeVoice_free (hi.trans h)
  · exact State.freeVoice_free h

theorem State.claimant_free {i : Nat} {r : VoiceRequest} (h : s.claimant i = some r) : s.voice i = none := by
  unfold State.claimant at h
  split at h
  · cases h
  · rename_i v hv
    split at h
    · cases h
    · rename_i hu
      exact State.voice_none hv (by simpa using hu)

theorem State.Spares.request (s : State) (r : VoiceRequest) : s.Spares keep (s.request r) := by
  unfold State.request
  split
  · rename_i i hi
    refine .grant ?_ r
    split at hi
    · exact State.freeVoice_free hi
    · exact State.voiceFor_free hi
  · exact .of_voices rfl

theorem State.Spares.requestSlot (s : State) (o : OutletId) (p : Place) (k : Nat) (t : Time) : s.Spares keep (s.requestSlot o p k t) := by
  unfold State.requestSlot
  split
  · exact .refl keep s
  · split
    · exact .request s _
    · exact .refl keep s

theorem State.Spares.offer (n : Nat) (s : State) : s.Spares keep (State.offer n s) := by
  induction n generalizing s with
  | zero => exact .refl keep s
  | succ n ih =>
    unfold State.offer
    dsimp only
    obtain ⟨k, hk⟩ := s.pick_beside ((List.range s.voices.length).filter fun i => (s.claimant i).isSome).length
    rw [hk]
    have hpick : s.Spares keep { s with freeCount := k } := .of_voices rfl
    split
    · exact hpick
    · split
      · exact hpick
      · rename_i r hr
        have hfree := State.claimant_free (s := { s with freeCount := k }) hr
        refine State.Spares.trans ?_ (ih _)
        refine State.Spares.from_voices (t := { s with freeCount := k, voiceQueue := s.voiceQueue.erase r }) rfl (.grant ?_ r)
        exact hfree

theorem State.Spares.dropVoice {i : Nat} (h : ∀ w, s.voice i = some w → ¬ keep w) : s.Spares keep (s.dropVoice i) := by
  unfold State.dropVoice
  split
  · exact .refl keep s
  · dsimp only
    refine .setVoice ?_ h _
    rfl

theorem State.Spares.freeVoices {l : List Nat} (h : ∀ i ∈ l, ∀ w, s.voice i = some w → ¬ keep w) : s.Spares keep (s.freeVoices l) := by
  have hfold : ∀ (l : List Nat) (s : State), (∀ i ∈ l, ∀ w, s.voice i = some w → ¬ keep w) →
      s.Spares keep (l.foldl State.dropVoice s) := fun l => by
    induction l with
    | nil => exact fun s _ => .refl keep s
    | cons i l ih =>
      intro s h
      refine (State.Spares.dropVoice (h i List.mem_cons_self)).trans (ih _ fun j hj w hw => ?_)
      by_cases hji : j = i
      · subst hji
        rw [State.dropVoice_free] at hw
        cases hw
      · refine h j (List.mem_cons_of_mem i hj) w ?_
        rw [← hw]
        unfold State.dropVoice
        split
        · rfl
        · exact (State.voice_setVoice_ne _ _ hji).symm
  exact (hfold l s h).trans (.offer _ _)

theorem State.voiceOf_holds {o : OutletId} {k : Holder} {i : Nat} (h : s.voiceOf o k = some i) :
    ∃ w, s.voice i = some w ∧ w.outlet = o ∧ w.holder = k := by
  unfold State.voiceOf at h
  dsimp only at h
  split at h
  · rename_i hlt
    obtain rfl := Option.some.inj h
    have hz := List.findIdx_getElem (w := hlt)
    rw [Option.any_eq_true] at hz
    obtain ⟨w, hw, he⟩ := hz
    simp only [Bool.and_eq_true, beq_iff_eq] at he
    refine ⟨w, ?_, he⟩
    rw [State.voice, List.getElem?_eq_getElem hlt]
    exact hw
  · cases h

/-- A holder gives up its own voice alone (R90, R96). -/
theorem State.Spares.giveUp {o : OutletId} {k : Holder} (h : ∀ w, keep w → w.outlet = o → w.holder ≠ k) (s : State) :
    s.Spares keep (s.giveUp o k) := by
  unfold State.giveUp
  dsimp only
  split
  · rename_i i hi
    obtain ⟨w, hw, ho, hk⟩ := State.voiceOf_holds hi
    refine State.Spares.from_voices (t := { s with voiceQueue := s.voiceQueue.filter fun r => !(r.outlet == o && r.holder == k) }) rfl
      (.freeVoices fun j hj z hz hkeep => ?_)
    obtain rfl := List.mem_singleton.1 hj
    rw [hw] at hz
    obtain rfl := Option.some.inj hz
    exact h w hkeep ho hk
  · exact .of_voices rfl

theorem State.Spares.giveUpWhere {o : OutletId} {k : Holder → Bool} (h : ∀ w, keep w → w.outlet = o → k w.holder = false) (s : State) :
    s.Spares keep (s.giveUpWhere o k) := by
  unfold State.giveUpWhere
  dsimp only
  refine State.Spares.from_voices (t := { s with voiceQueue := s.voiceQueue.filter fun r => !(r.outlet == o && k r.holder) }) rfl
    (.freeVoices fun j hj z hz hkeep => ?_)
  obtain ⟨ho, hk⟩ := (State.mem_voicesWhere hz).1 hj
  rw [h z hkeep ho] at hk
  cases hk

theorem State.Spares.startVoiceWith {i : Nat} (h : ∀ w, s.voice i = some w → ¬ keep w) (set : VoiceUse → VoiceUse) :
    s.Spares keep (s.startVoiceWith i set) := by
  refine ⟨fun j w hw hk => ?_⟩
  by_cases hj : j = i
  · subst hj
    exact absurd hk (h w hw)
  · rw [State.startVoiceWith_other hj]
    exact hw

end spares

/-! ### What the sounding of an entry leaves of its outlet (R25, R61) -/

/-- What the sounding of entries leaves of an entry. -/
def Entry.mark (e : Entry) : Nat × EntryState × Bool := (e.tag, e.state, e.air.cut)

/-- From `s` to `t` an outlet sounds what it has: no record is written, its order and its anchor slot stay, and voices of a kind are spared. -/
structure State.Plays (o : OutletId) (keep : VoiceUse → Prop) (s t : State) : Prop where
  log : t.log = s.log
  order : (t.out o).airOrder = (s.out o).airOrder
  anchor : (t.out o).anchorSlot = (s.out o).anchorSlot
  handBack : (t.out o).handBack = (s.out o).handBack
  marks : (t.out o).entries.map Entry.mark = (s.out o).entries.map Entry.mark
  spares : s.Spares keep t

section plays
variable {o : OutletId} {keep : VoiceUse → Prop} {s t u : State}

theorem State.Plays.refl (o : OutletId) (keep : VoiceUse → Prop) (s : State) : State.Plays o keep s s := ⟨rfl, rfl, rfl, rfl, rfl, .refl keep s⟩

theorem State.Plays.trans (h : State.Plays o keep s t) (h' : State.Plays o keep t u) : State.Plays o keep s u :=
  ⟨h'.log.trans h.log, h'.order.trans h.order, h'.anchor.trans h.anchor, h'.handBack.trans h.handBack, h'.marks.trans h.marks,
    h.spares.trans h'.spares⟩

theorem entries_marks {l m : List Entry} (h : l.map Entry.core = m.map Entry.core) : l.map Entry.mark = m.map Entry.mark := by
  have hcore : ∀ l : List Entry, l.map Entry.mark = (l.map Entry.core).map Entry.mark := fun l => by
    rw [List.map_map]
    rfl
  rw [hcore, h, ← hcore]

theorem State.Serves.plays (h : State.Serves o s t) (hv : s.Spares keep t) : State.Plays o keep s t :=
  ⟨h.log, Outlet.core_airOrder h.core, (congrArg Outlet.anchorSlot h.core : _), (congrArg Outlet.handBack h.core : _),
    entries_marks (Outlet.core_entries h.core), hv⟩

theorem State.Plays.modOut (s : State) (f : Outlet → Outlet) (hf : ∀ x, (f x).airOrder = x.airOrder ∧ (f x).anchorSlot = x.anchorSlot ∧
    (f x).handBack = x.handBack ∧ (f x).entries.map Entry.mark = x.entries.map Entry.mark) : State.Plays o keep s (s.modOut o f) := by
  obtain ⟨h1, h2, h3, h4⟩ := hf (s.out o)
  refine ⟨rfl, ?_, ?_, ?_, ?_, .modOut s o f⟩
  · rw [State.modOut_out, h1]
  · rw [State.modOut_out, h2]
  · rw [State.modOut_out, h3]
  · rw [State.modOut_out, h4]

theorem State.Plays.modFit (s : State) (p : Place) (f : FittedBreak → FittedBreak) : State.Plays o keep s (s.modFit o p f) :=
  .modOut s _ fun x => by cases p <;> exact ⟨rfl, rfl, rfl, rfl⟩

theorem State.Plays.tallyStart (s : State) (k : AirKey) : State.Plays o keep s (s.tallyStart o k) := .modOut s _ fun _ => ⟨rfl, rfl, rfl, rfl⟩

/-- A change of an entry that leaves its mark. -/
theorem State.Plays.modEntry (s : State) (tag : Nat) (f : Entry → Entry) (hf : ∀ e, (f e).mark = e.mark) :
    State.Plays o keep s (s.modEntry o tag f) := by
  refine .modOut s _ fun x => ⟨rfl, rfl, rfl, ?_⟩
  simp only [Outlet.modEntry, List.map_map]
  refine List.map_congr_left fun e _ => ?_
  simp only [Function.comp]
  split
  · exact hf e
  · rfl

/-- Changes beside the outlets, the log and the voices. -/
theorem State.Plays.beside (hl : t.log = s.log) (ho : t.outlets = s.outlets) (hv : t.voices = s.voices) : State.Plays o keep s t := by
  have hout : t.out o = s.out o := by rw [State.out, ho]; rfl
  exact ⟨hl, by rw [hout], by rw [hout], by rw [hout], by rw [hout], .of_voices hv⟩

theorem State.Plays.sendCue (s : State) (b : FittedBreak) (start : Time) (c : Nat) : State.Plays o keep s (s.sendCue o b start c) := by
  unfold State.sendCue
  rw [State.send_eq_append]
  exact .beside rfl rfl rfl

theorem State.Plays.requestSlot (s : State) (p : Place) (k : Nat) (n : Time) : State.Plays o keep s (s.requestSlot o p k n) := by
  have hv : s.Spares keep (s.requestSlot o p k n) := .requestSlot s o p k n
  unfold State.requestSlot at hv ⊢
  split
  · exact .refl o keep s
  · rename_i b _
    split
    · rename_i hb
      have hr : s.Spares keep (s.request { outlet := o, holder := .slot p k, needed := n }) := .request s _
      unfold State.request at hr ⊢
      split
      · rename_i i hi
        rw [hi] at hr
        exact ((State.Serves.refl o s).grantSlot i _ p k).plays hr
      · exact .beside rfl rfl rfl
    · exact .refl o keep s

theorem State.Plays.startVoiceWith {i : Nat} (h : ∀ w, s.voice i = some w → ¬ keep w) (set : VoiceUse → VoiceUse) :
    State.Plays o keep s (s.startVoiceWith i set) :=
  ((State.Serves.refl o s).engine (s.startVoiceWith_engine i set)).plays (.startVoiceWith h set)

end plays

end Sys2Proof.Machine
end

section
/-! Fitted breaks that run and entries that sound leave other voices, the records and the order of the entries as they are (R25, R61 to R64). -/

namespace Sys2Proof.Machine

/-- Voices of a kind sound, and none of them is a slot's of the outlet. -/
structure Aloof (o : OutletId) (keep : VoiceUse → Prop) : Prop where
  sounds : ∀ w, keep w → w.sounding = true
  slots : ∀ w, keep w → w.outlet = o → ∀ p k, w.holder ≠ .slot p k

section plays
variable {o : OutletId} {keep : VoiceUse → Prop} {s t : State}

theorem Aloof.primed (ha : Aloof o keep) {h : Holder} {i : Nat} (hi : s.primedVoice o h = some i) : ∀ w, s.voice i = some w → ¬ keep w := by
  intro w hw hk
  have := (Option.filter_eq_some_iff.1 hi).2
  rw [hw] at this
  have hp : w.state = .primed := by simpa using this
  have hs := ha.sounds w hk
  rw [VoiceUse.sounding_primed hp] at hs
  cases hs

theorem State.Plays.beginItem {p : Place} {k i : Nat} (h : ∀ w, s.voice i = some w → ¬ keep w) (pos : Time) :
    State.Plays o keep s (s.beginItem o p k i pos) := by
  unfold State.beginItem
  split
  · split
    · dsimp only
      exact (((State.Plays.startVoiceWith h _).trans (.modFit _ p _)).trans (.tallyStart _ _)).trans (.requestSlot _ p _ _)
    · exact .refl o keep s
  · exact .refl o keep s

theorem State.Plays.beginBed {p : Place} {k i : Nat} (h : ∀ w, s.voice i = some w → ¬ keep w) (b : Bool) (n l : Nat) :
    State.Plays o keep s (s.beginBed o p k i b n l) := by
  unfold State.beginBed
  split
  · exact .refl o keep s
  · dsimp only
    exact ((State.Plays.startVoiceWith h _).trans (.modFit _ p _)).trans (.tallyStart _ _)

theorem State.Plays.beginSubstituted (s : State) (p : Place) (k : Nat) (due : Time) : State.Plays o keep s (s.beginSubstituted o p k due) := by
  unfold State.beginSubstituted
  split
  · exact .refl o keep s
  · split
    · exact .refl o keep s
    · dsimp only
      exact (State.Plays.modFit s p _).trans (.requestSlot _ p _ _)

theorem State.Plays.beginTail (s : State) (p : Place) (pos : Time) : State.Plays o keep s (s.beginTail o p pos) := by
  unfold State.beginTail
  dsimp only
  split
  · split
    · exact (State.Plays.modFit s p _).trans (.modOut _ _ fun _ => ⟨rfl, rfl, rfl, rfl⟩)
    · exact .modFit s p _
  · exact .modFit s p _

theorem State.Plays.stepFit (ha : Aloof o keep) {p : Place} (e : s.stepFit o p = some t) : State.Plays o keep s t := by
  unfold State.stepFit at e
  dsimp only at e
  split at e
  · split at e
    · split at e
      · rename_i hl
        cases e
        split at hl
        · split at hl
          · rename_i hi
            split at hl
            · cases hl
              exact .beginBed (ha.primed hi) ..
            · cases hl
          · cases hl
        · cases hl
      · cases e
        exact ((State.Serves.refl o s).giveUp o _).plays (.giveUp (fun w hw ho => ha.slots w hw ho _ _) s)
      · split at e
        · cases e
        · split at e
          · cases e
          · split at e
            · split at e
              · cases e
                exact .beginSubstituted s _ _ _
              · obtain ⟨i, hi, rfl⟩ := Option.map_eq_some_iff.mp e
                exact .beginItem (ha.primed hi) _
            · split at e
              · cases e
              · split at e
                · cases e
                  exact .beginTail s _ _
                · split at e
                  · obtain ⟨i, hi, rfl⟩ := Option.map_eq_some_iff.mp e
                    exact .beginBed (ha.primed hi) ..
                  · cases e
    · cases e
  · cases e

theorem State.Plays.runFit (ha : Aloof o keep) (n : Nat) (s : State) (p : Place) : State.Plays o keep s (State.runFit n s o p) := by
  induction n generalizing s with
  | zero => exact .refl o keep s
  | succ n ih =>
    unfold State.runFit
    split
    · exact .refl o keep s
    · rename_i e
      exact (State.Plays.stepFit ha e).trans (ih _)

theorem State.Plays.startFit (ha : Aloof o keep) (s : State) (p : Place) (t : Time) : State.Plays o keep s (s.startFit o p t) :=
  (State.Plays.modFit s p _).trans (.runFit ha _ _ p)

theorem State.Plays.resolveSuccessor (s : State) : State.Plays o keep s (s.resolveSuccessor o) := by
  have hannounce : ∀ (t : State) (tag : Nat), State.Plays o keep t (t.announceArmed o tag) := fun t tag => by
    unfold State.announceArmed
    dsimp only
    split
    · split
      · unfold State.announce
        split
        · exact .refl o keep t
        · split
          · dsimp only
            exact ((State.Plays.sendCue t _ _ _).trans (.modFit _ _ _)).trans (.modOut _ _ fun _ => ⟨rfl, rfl, rfl, rfl⟩)
          · exact .refl o keep t
      · exact .refl o keep t
    · exact .refl o keep t
  unfold State.resolveSuccessor
  dsimp only
  split
  · split
    · split
      · refine State.Plays.trans ?_ (hannounce _ _)
        exact .modEntry s _ _ fun _ => rfl
      · exact .refl o keep s
    · exact .refl o keep s
  · exact .refl o keep s

/-- A BREAK entry that sounds from now (R25, R166). -/
def Entry.breaksFrom (e : Entry) (now : Time) (clock : Int) : Entry :=
  { e with air := { e.air with start := some now, since := clock, sounding := true, sounded := true } }

/-- The break of a place is announced at its actual start, unless it was before (R45). -/
def State.announceStart (s : State) (o : OutletId) (p : Place) : State :=
  match s.fit o p with
  | some b => if b.announced then s else s.sendCue o b s.now 0
  | none => s

/-- The fitted break of a BREAK entry is announced and starts (R45, R61). -/
def State.playBreak (s : State) (o : OutletId) (tag : Nat) : State :=
  match (s.out o).fitOf tag with
  | none => s
  | some p => (s.announceStart o p).startFit o p (s.announceStart o p).now

theorem State.soundBreak_eq (s : State) (o : OutletId) (e : Entry) : s.soundBreak o e =
    (((s.modEntry o e.tag fun d => d.breaksFrom s.now s.clock).tallyStart o (.entry e.tag)).playBreak o e.tag).resolveSuccessor o := by
  unfold State.soundBreak State.playBreak State.announceStart
  rfl

theorem State.Plays.playBreak (ha : Aloof o keep) (s : State) (tag : Nat) : State.Plays o keep s (s.playBreak o tag) := by
  unfold State.playBreak
  split
  · exact .refl o keep s
  · refine State.Plays.trans ?_ (.startFit ha _ _ _)
    unfold State.announceStart
    split
    · split
      · exact .refl o keep s
      · exact .sendCue _ _ _ _
    · exact .refl o keep s

/-- A lead that has not begun sounds, as an ITEM from its start or with its break (R25, R61). -/
theorem State.Plays.soundEntry (ha : Aloof o keep) (s : State) {e : Entry} (he : e.air.offset = 0) : State.Plays o keep s (s.soundEntry o e) := by
  unfold State.soundEntry
  split
  · split
    · rename_i i hi
      unfold State.soundItem
      split
      · exact .refl o keep s
      · dsimp only
        rw [he, if_neg (by simp), if_neg (lt_irrefl 0)]
        refine State.Plays.trans (State.Plays.trans (State.Plays.trans ?_ (.startVoiceWith ?_ _)) (.tallyStart _ _)) (.resolveSuccessor _)
        · exact .modEntry s _ _ fun _ => rfl
        · exact ha.primed hi
    · exact .refl o keep s
  · rw [State.soundBreak_eq]
    refine State.Plays.trans (State.Plays.trans (State.Plays.trans ?_ (.tallyStart _ _)) (.playBreak ha _ _)) (.resolveSuccessor _)
    exact .modEntry s _ _ fun _ => rfl

end plays

end Sys2Proof.Machine
end

section
/-! An anchor starts in a longer running order: what sounds ramps out, the ON_AIR entries are cut, and entries before it leave (R14, R29). -/

namespace Sys2Proof.Machine

/-! ### An entry that has not begun leaves (R13, R14) -/

section leaving
variable {o : OutletId} {keep : VoiceUse → Prop} {s : State}

/-- Disarming an entry spares voices that neither it nor a slot holds. -/
theorem State.Spares.unprepare (ha : Aloof o keep) {tag : Nat} (ht : ∀ w, keep w → w.outlet = o → w.holder ≠ .entry tag) (s : State) :
    s.Spares keep (s.unprepare o tag) := by
  have hcancel : ∀ p, s.Spares keep (s.cancelCue o p) := fun p => by
    unfold State.cancelCue
    split
    · exact .refl keep s
    · split
      · rw [State.sendCue, State.send_eq_append]
        exact .of_voices rfl
      · exact .refl keep s
  have hplace : ∀ (t : State) (p : Place), t.Spares keep (t.releaseFit o p) := fun t p => by
    refine State.Spares.from_voices (t := t.modOut o fun x => x.vacate p) rfl (.giveUpWhere (fun w hw ho => ?_) _)
    cases hh : w.holder with
    | slot q k => exact absurd hh (ha.slots w hw ho q k)
    | entry _ => rfl
    | line _ => rfl
    | fallback _ => rfl
  unfold State.unprepare
  dsimp only
  refine State.Spares.trans ?_ (.giveUp ht _)
  refine State.Spares.trans ?_ (.modOut _ _ _)
  split
  · exact (hcancel _).trans (hplace _ _)
  · exact .refl keep s

/-- What disarming leaves of the outlet's records, its hand-back and its anchor slot. -/
theorem State.unprepare_leaves (s : State) (o : OutletId) (tag : Nat) : (s.unprepare o tag).log = s.log ∧
    ((s.unprepare o tag).out o).handBack = (s.out o).handBack ∧
    ∀ q, ((s.unprepare o tag).out o).anchorSlot = some q → (s.out o).anchorSlot = some q := by
  obtain ⟨u, hu, e⟩ := s.unprepare_eq o tag
  have hg := (State.Serves.refl o (u.modOut o fun x => x.unslot tag)).giveUp o (.entry tag)
  rw [e]
  refine ⟨hg.log.trans hu.log, ?_, fun q hq => ?_⟩
  · have h1 : (((u.modOut o fun x => x.unslot tag).giveUp o (.entry tag)).out o).handBack = ((u.modOut o fun x => x.unslot tag).out o).handBack :=
      (congrArg Outlet.handBack hg.core : _)
    rw [h1, State.modOut_out]
    exact (congrArg Outlet.handBack hu.core : _)
  · have h1 : (((u.modOut o fun x => x.unslot tag).giveUp o (.entry tag)).out o).anchorSlot = ((u.modOut o fun x => x.unslot tag).out o).anchorSlot :=
      (congrArg Outlet.anchorSlot hg.core : _)
    have h2 : (u.out o).anchorSlot = (s.out o).anchorSlot := (congrArg Outlet.anchorSlot hu.core : _)
    rw [h1, State.modOut_out] at hq
    rw [← h2]
    exact (Option.filter_eq_some_iff.1 hq).1

/-- From `s` to `t` one entry has left SKIPPED_TIME, and no more of the others has changed than grants change. -/
structure State.Skips (o : OutletId) (tag : Nat) (keep : VoiceUse → Prop) (s t : State) : Prop where
  log : ∃ r, s.log.Wrote t.log [r] ∧ r.shows = (o, Source.entry, some tag, Outcome.skippedTime)
  marks : (t.out o).entries.map Entry.mark = ((s.out o).entries.map Entry.mark).filter fun m => m.1 != tag
  handBack : (t.out o).handBack = (s.out o).handBack
  anchor : ∀ q, (t.out o).anchorSlot = some q → (s.out o).anchorSlot = some q
  queue : t.voiceQueue.Sublist s.voiceQueue
  kept : ∀ u, u ≠ tag → s.Unasked o u → (t.out o).entry u = (s.out o).entry u
  spares : s.Spares keep t

theorem State.leaveUnbegun_skips (ha : Aloof o keep) {tag : Nat} (ht : ∀ w, keep w → w.outlet = o → w.holder ≠ .entry tag) {c : Entry}
    (hc : (s.out o).entry tag = some c) : State.Skips o tag keep s (s.leaveUnbegun o tag .skippedTime) := by
  have hprep : ∃ t, s.leaveUnbegun o tag .skippedTime = t.leaveSilent o tag .skippedTime ∧ State.Touches o tag s t ∧ t.log = s.log ∧
      (t.out o).handBack = (s.out o).handBack ∧ (∀ q, (t.out o).anchorSlot = some q → (s.out o).anchorSlot = some q) ∧ s.Spares keep t := by
    unfold State.leaveUnbegun
    rw [hc]
    dsimp only
    split
    · obtain ⟨h1, h2, h3⟩ := s.unprepare_leaves o tag
      exact ⟨_, rfl, .unprepare s o tag, h1, h2, h3, .unprepare ha ht s⟩
    · exact ⟨_, rfl, .refl o tag s, rfl, rfl, fun _ h => h, .refl keep s⟩
  obtain ⟨t, e, htouch, hlog, hback, hanchor, hspares⟩ := hprep
  obtain ⟨d, hd⟩ := htouch.still hc
  obtain ⟨l, tl, e', q, hw, hq⟩ := State.leaveEntry_eq hd .skippedTime .none 0 none
  obtain ⟨ho, hsrc, hout, htag, -⟩ := Record.field_of_unnumbered hq
  have hmark : ∀ l : List Entry, (l.filter fun d => d.tag != tag).map Entry.mark = (((l.map Entry.core).filter fun d => d.tag != tag).map Entry.mark) :=
    fun l => by
      rw [List.filter_map, List.map_map]
      rfl
  rw [e, State.leaveSilent, e']
  refine ⟨⟨q, hlog ▸ hw, ?_⟩, ?_, ?_, ?_, ?_, fun u hu hun => ?_, ?_⟩
  · rw [Record.shows, ho, hsrc, hout, htag]
    exact congrArg (fun t => (o, Source.entry, some t, Outcome.skippedTime)) (Outlet.entry_tag hd)
  · rw [State.setOut_out]
    change ((t.out o).entries.filter fun d => d.tag != tag).map Entry.mark = _
    rw [hmark, htouch.others, ← hmark, List.filter_map]
    rfl
  · rw [State.setOut_out]
    exact hback
  · rw [State.setOut_out]
    exact fun q hq => hanchor q (Option.filter_eq_some_iff.1 hq).1
  · exact htouch.queue
  · rw [State.setOut_out, ← htouch.kept u hu hun]
    exact find_filter_ne hu
  · exact hspares.trans (.of_voices rfl)

end leaving

/-! ### The entries an anchor passes (R14) -/

/-- What an anchor leaves of an entry, `pre` being those before it: one that is ON_AIR is cut, one before it that has not started is gone. -/
def Entry.passed (pre : List Entry) (d : Entry) : Option (Nat × EntryState × Bool) :=
  if d.state = .onAir then some (d.tag, .onAir, true) else if pre.contains d then none else some d.mark

/-- An entry leaves SKIPPED_TIME as an anchor starts. -/
def Entry.skipped (pre : List Entry) (d : Entry) : Bool := d.state != .onAir && pre.contains d

/-- From `a` to `s` an anchor `e` has passed the entries `done` of its running order, and has still to pass `todo`. -/
structure State.Anchors (o : OutletId) (e : Entry) (keep : VoiceUse → Prop) (pre done todo : List Entry) (a s : State) : Prop where
  log : ∃ rs, a.log.Wrote s.log rs ∧ rs.map Record.shows =
    (done.filter (Entry.skipped pre)).map fun d => (o, Source.entry, some d.tag, Outcome.skippedTime)
  marks : (s.out o).entries.map Entry.mark = done.filterMap (Entry.passed pre) ++ todo.map Entry.mark
  entry : (s.out o).entry e.tag = some e
  unasked : s.Unasked o e.tag
  handBack : (s.out o).handBack = (a.out o).handBack
  anchor : ∀ q, (s.out o).anchorSlot = some q → (a.out o).anchorSlot = some q
  spares : a.Spares keep s

section anchors
variable {o : OutletId} {keep : VoiceUse → Prop} {a s : State} {e d : Entry} {pre done todo : List Entry}

theorem Entry.passed_tag {m : Nat × EntryState × Bool} (h : d.passed pre = some m) : m.1 = d.tag := by
  unfold Entry.passed at h
  split at h
  · obtain rfl := Option.some.inj h
    rfl
  · split at h
    · cases h
    · obtain rfl := Option.some.inj h
      rfl

/-- The mark of a tag once its entry is cut. -/
def Mark.cut (tag : Nat) (m : Nat × EntryState × Bool) : Nat × EntryState × Bool := if m.1 = tag then (m.1, m.2.1, true) else m

theorem Mark.cut_apart {tag : Nat} {l : List (Nat × EntryState × Bool)} (h : ∀ m ∈ l, m.1 ≠ tag) : l.map (Mark.cut tag) = l := by
  have : l.map (Mark.cut tag) = l.map id := List.map_congr_left fun m hm => if_neg (h m hm)
  rw [this, List.map_id]

/-- A change about a tag leaves the marks of other tags. -/
theorem marks_apart {tag : Nat} {l : List Entry} (h : tag ∉ l.map Entry.tag) : ∀ m ∈ l.filterMap (Entry.passed pre) ++ l.map Entry.mark, m.1 ≠ tag := by
  intro m hm e
  refine h ?_
  rcases List.mem_append.1 hm with hm | hm
  · obtain ⟨d, hd, hp⟩ := List.mem_filterMap.1 hm
    exact e ▸ Entry.passed_tag hp ▸ List.mem_map_of_mem hd
  · obtain ⟨d, hd, rfl⟩ := List.mem_map.1 hm
    exact e ▸ List.mem_map_of_mem (f := Entry.tag) hd

/-- An entry of the list that stands has one mark, that of its tag. -/
theorem State.Anchors.some_entry (h : State.Anchors o e keep pre done (d :: todo) a s) : ∃ c, (s.out o).entry d.tag = some c := by
  have hm : d.mark ∈ (s.out o).entries.map Entry.mark := by
    rw [h.marks]
    exact List.mem_append_right _ List.mem_cons_self
  obtain ⟨c, hc, hcm⟩ := List.mem_map.1 hm
  exact Option.isSome_iff_exists.1 (Outlet.entry_isSome.2 ⟨c, hc, congrArg Prod.fst hcm⟩)

theorem State.Anchors.step (ha : Aloof o keep) (hk : ∀ w, keep w → w.outlet = o → d.skipped pre = true → w.holder ≠ .entry d.tag)
    (h : State.Anchors o e keep pre done (d :: todo) a s) (hn : ((done ++ d :: todo).map Entry.tag).Nodup)
    (hde : d.tag = e.tag → d.state ≠ .onAir ∧ pre.contains d = false)
    (hsound : d.state = .onAir → d.air.sounding = true ∧ d.air.silentUntil = none) :
    State.Anchors o e keep pre (done ++ [d]) todo a (s.passAnchor o pre d) := by
  obtain ⟨rs, hw, hrs⟩ := h.log
  have hdone : d.tag ∉ done.map Entry.tag := fun hm => by
    rw [List.map_append, List.nodup_append] at hn
    exact hn.2.2 _ hm d.tag (by simp) rfl
  have htodo : d.tag ∉ todo.map Entry.tag := fun hm => by
    rw [List.map_append, List.nodup_append, List.map_cons, List.nodup_cons] at hn
    exact hn.2.1.1 hm
  have hapart : ∀ m ∈ done.filterMap (Entry.passed pre), m.1 ≠ d.tag := fun m hm => marks_apart hdone m (List.mem_append_left _ hm)
  have hapart' : ∀ m ∈ todo.map Entry.mark, m.1 ≠ d.tag := fun m hm => marks_apart (pre := pre) htodo m (List.mem_append_right _ hm)
  unfold State.passAnchor
  by_cases hair : d.state = .onAir
  · obtain ⟨hsnd, hsil⟩ := hsound hair
    have hne : e.tag ≠ d.tag := fun hh => (hde hh.symm).1 hair
    rw [if_pos (by simp [hair])]
    unfold State.cutEntry
    rw [hsil, if_neg (by simp), if_pos hsnd]
    have hentry : ((s.modEntry o d.tag fun e => { e with air := { e.air with cut := true } }).out o).entry e.tag = (s.out o).entry e.tag := by
      rw [State.modEntry, State.modOut_out]
      exact Outlet.entry_modEntry_ne hne fun _ => rfl
    refine ⟨⟨rs, hw, ?_⟩, ?_, hentry.trans h.entry, ?_, ?_, ?_, h.spares.trans (.of_voices rfl)⟩
    · have hno : d.skipped pre = false := by simp [Entry.skipped, hair]
      rw [hrs, List.filter_append, List.filter_cons_of_neg (by simp [hno])]
      simp
    · have hpass : d.passed pre = some (d.tag, .onAir, true) := by simp [Entry.passed, hair]
      have hmap : ((s.out o).entries.map fun e => if e.tag == d.tag then ({ e with air := { e.air with cut := true } } : Entry) else e).map Entry.mark =
          ((s.out o).entries.map Entry.mark).map (Mark.cut d.tag) := by
        simp only [List.map_map]
        refine List.map_congr_left fun e _ => ?_
        by_cases ht : e.tag = d.tag
        · simp [Mark.cut, Entry.mark, ht]
        · simp [Mark.cut, Entry.mark, ht]
      rw [State.modEntry, State.modOut_out]
      change ((s.out o).entries.map fun e => if e.tag == d.tag then ({ e with air := { e.air with cut := true } } : Entry) else e).map Entry.mark = _
      rw [hmap, h.marks, List.map_append, List.map_cons, List.map_cons, Mark.cut_apart hapart, Mark.cut_apart hapart', List.filterMap_append]
      simp [hpass, Mark.cut, Entry.mark, hair]
    · exact fun r hr ho hh c hc => h.unasked r hr ho hh c (hentry.symm.trans hc)
    · rw [State.modEntry, State.modOut_out]
      exact h.handBack
    · rw [State.modEntry, State.modOut_out]
      exact h.anchor
  · rw [if_neg (by simpa using hair)]
    by_cases hpre : pre.contains d = true
    · have hskip : d.skipped pre = true := by simp [Entry.skipped, hair, List.contains_iff_mem.1 hpre]
      have hne : e.tag ≠ d.tag := fun hh => by
        rw [(hde hh.symm).2] at hpre
        cases hpre
      obtain ⟨c, hc⟩ := h.some_entry
      have hs := State.leaveUnbegun_skips ha (fun w hw ho => hk w hw ho hskip) hc
      obtain ⟨r, hwr, hr⟩ := hs.log
      have hkept : ((s.leaveUnbegun o d.tag .skippedTime).out o).entry e.tag = (s.out o).entry e.tag := hs.kept e.tag hne h.unasked
      rw [if_pos hpre]
      refine ⟨⟨rs ++ [r], hw.trans hwr, ?_⟩, ?_, hkept.trans h.entry, ?_, hs.handBack.trans h.handBack, fun q hq => h.anchor q (hs.anchor q hq),
        h.spares.trans hs.spares⟩
      · rw [List.map_append, hrs, List.filter_append, List.filter_cons_of_pos hskip]
        simp [hr]
      · have hpass : d.passed pre = none := by rw [Entry.passed, if_neg hair, if_pos hpre]
        rw [hs.marks, h.marks, List.map_cons, List.filter_append, List.filter_cons_of_neg (by simp [Entry.mark]),
          List.filter_eq_self.2 (by simpa using hapart), List.filter_eq_self.2 (by simpa using hapart'), List.filterMap_append]
        simp [hpass]
      · exact fun r hr ho hh c hc => h.unasked r (hs.queue.subset hr) ho hh c (hkept.symm.trans hc)
    · have hskip : d.skipped pre = false := by rw [Entry.skipped, Bool.eq_false_iff.2 hpre, Bool.and_false]
      have hpass : d.passed pre = some d.mark := by rw [Entry.passed, if_neg hair, if_neg hpre]
      rw [if_neg hpre]
      refine ⟨⟨rs, hw, ?_⟩, ?_, h.entry, h.unasked, h.handBack, h.anchor, h.spares⟩
      · rw [hrs, List.filter_append, List.filter_cons_of_neg (by simp [hskip])]
        simp
      · rw [h.marks, List.filterMap_append]
        simp [hpass]

/-- An anchor passes the entries of its list one after the other. -/
theorem State.Anchors.all (ha : Aloof o keep) (hk : ∀ w, keep w → w.outlet = o → ∀ d : Entry, d.skipped pre = true → w.holder ≠ .entry d.tag)
    (todo : List Entry) {done : List Entry} {s : State} (h : State.Anchors o e keep pre done todo a s) (hn : ((done ++ todo).map Entry.tag).Nodup)
    (hde : ∀ d ∈ todo, d.tag = e.tag → d.state ≠ .onAir ∧ pre.contains d = false)
    (hsound : ∀ d ∈ todo, d.state = .onAir → d.air.sounding = true ∧ d.air.silentUntil = none) :
    State.Anchors o e keep pre (done ++ todo) [] a (todo.foldl (fun s d => s.passAnchor o pre d) s) := by
  induction todo generalizing done s with
  | nil => simpa using h
  | cons d todo ih =>
    have h1 := h.step ha (fun w hw ho => hk w hw ho d) hn (hde d List.mem_cons_self) (hsound d List.mem_cons_self)
    rw [List.append_cons] at hn ⊢
    exact ih h1 hn (fun x hx => hde x (List.mem_cons_of_mem d hx)) fun x hx => hsound x (List.mem_cons_of_mem d hx)

end anchors

/-! ### The marks of the whole list -/

section marks
variable {pre post : List Entry} {e : Entry}

theorem not_mem_pre (hn : ((pre ++ e :: post).map Entry.tag).Nodup) {d : Entry} (hd : d ∈ e :: post) : pre.contains d = false := by
  rw [Bool.eq_false_iff]
  intro h
  rw [List.map_append, List.nodup_append] at hn
  exact hn.2.2 d.tag (List.mem_map_of_mem (List.contains_iff_mem.1 h)) d.tag (List.mem_map_of_mem hd) rfl

theorem skipped_filter (hn : ((pre ++ e :: post).map Entry.tag).Nodup) :
    (pre ++ e :: post).filter (Entry.skipped pre) = pre.filter fun d => d.state != .onAir := by
  have h1 : (e :: post).filter (Entry.skipped pre) = [] := List.filter_eq_nil_iff.2 fun d hd => by
    simp only [Entry.skipped, not_mem_pre hn hd, Bool.and_false, Bool.false_eq_true, not_false_eq_true]
  have h2 : pre.filter (Entry.skipped pre) = pre.filter fun d => d.state != .onAir := List.filter_congr fun d hd => by
    simp only [Entry.skipped, List.contains_iff_mem.2 hd, Bool.and_true]
  rw [List.filter_append, h1, h2, List.append_nil]

theorem passed_tags (hn : ((pre ++ e :: post).map Entry.tag).Nodup) :
    ((pre ++ e :: post).filterMap (Entry.passed pre)).map Prod.fst = ((pre.filter fun d => d.state == .onAir) ++ e :: post).map Entry.tag := by
  have hone : ∀ l : List Entry, (l.filterMap (Entry.passed pre)).map Prod.fst = (l.filter fun d => !d.skipped pre).map Entry.tag := fun l => by
    induction l with
    | nil => rfl
    | cons d l ih =>
      by_cases hs : d.skipped pre = true
      · have hp : d.passed pre = none := by
          simp only [Entry.skipped, Bool.and_eq_true, bne_iff_ne] at hs
          rw [Entry.passed, if_neg hs.1, if_pos hs.2]
        rw [List.filterMap_cons_none hp, ih, List.filter_cons_of_neg (by simp [hs])]
      · obtain ⟨m, hm⟩ : ∃ m, d.passed pre = some m := by
          unfold Entry.passed
          split
          · exact ⟨_, rfl⟩
          · rename_i h
            rw [if_neg]
            · exact ⟨_, rfl⟩
            · intro hc
              exact hs (by simp only [Entry.skipped, hc, Bool.and_true]; simpa using h)
        rw [List.filterMap_cons_some hm, List.map_cons, ih, List.filter_cons_of_pos (by simpa using hs), List.map_cons, Entry.passed_tag hm]
  have h1 : (e :: post).filter (fun d => !d.skipped pre) = e :: post := List.filter_eq_self.2 fun d hd => by
    simp only [Entry.skipped, not_mem_pre hn hd, Bool.and_false, Bool.not_false]
  have h2 : pre.filter (fun d => !d.skipped pre) = pre.filter fun d => d.state == .onAir := List.filter_congr fun d hd => by
    simp only [Entry.skipped, List.contains_iff_mem.2 hd, Bool.and_true, bne, Bool.not_not]
  rw [hone, List.filter_append, h1, h2]

end marks

/-! ### The anchor starts (R14, R29) -/

/-- Voices an anchor leaves ramping: they sound, and neither a slot of the outlet nor an entry the anchor passes holds them. -/
def Outplays (o : OutletId) (pre : List Entry) (w : VoiceUse) : Prop :=
  w.sounding = true ∧ (w.outlet = o → (∀ p k, w.holder ≠ .slot p k) ∧ ∀ d ∈ pre, d.state ≠ .onAir → w.holder ≠ .entry d.tag)

theorem outplays_aloof (o : OutletId) (pre : List Entry) : Aloof o (Outplays o pre) := ⟨fun _ h => h.1, fun _ h ho => (h.2 ho).1⟩

/-- Every sounding voice of the outlet ramps out. -/
theorem State.rampAll_eq (s : State) (o : OutletId) (n : Nat) : ∃ v, s.rampAll o n = { s with voices := v } ∧
    ∀ i w, s.voice i = some w → w.outlet = o → w.sounding = true → ({ s with voices := v } : State).voice i = some (w.rampOut s.clock n) := by
  obtain ⟨v, e, hv⟩ := State.foldl_modVoice (fun clock u => u.rampOut clock n) (s.voicesWhere_nodup o VoiceUse.sounding) s
  refine ⟨v, e, fun i w hw ho hs => (hv i).trans ?_⟩
  rw [if_pos ((State.mem_voicesWhere hw).2 ⟨ho, hs⟩), hw]
  rfl

theorem Outlet.entry_of_mem {x : Outlet} {d : Entry} (hn : (x.entries.map Entry.tag).Nodup) (hd : d ∈ x.entries) : x.entry d.tag = some d := by
  obtain ⟨pre, post, hx⟩ := List.append_of_mem hd
  exact Outlet.entry_of_split hx hn

/-- The mark of a tag once its entry leads. -/
def Mark.led (tag : Nat) (m : Nat × EntryState × Bool) : Nat × EntryState × Bool := if m.1 = tag then (m.1, .onAir, false) else m

theorem Mark.led_tags (tag : Nat) (l : List (Nat × EntryState × Bool)) : (l.map (Mark.led tag)).map Prod.fst = l.map Prod.fst := by
  rw [List.map_map]
  refine List.map_congr_left fun m _ => ?_
  simp only [Function.comp, Mark.led]
  split <;> rfl

theorem Outlet.led_marks (x : Outlet) (tag : Nat) : (x.led tag).entries.map Entry.mark = (x.entries.map Entry.mark).map (Mark.led tag) := by
  simp only [Outlet.led, Outlet.modEntry, List.map_map]
  refine List.map_congr_left fun e _ => ?_
  by_cases ht : e.tag = tag
  · simp [Mark.led, Entry.mark, ht, EntryAir.empty]
  · simp [Mark.led, Entry.mark, ht]

/-- What the unit is as an anchor has started in its running order (R14, R29). -/
structure State.Anchored (a u : State) (o : OutletId) (pre post : List Entry) (e : Entry) : Prop where
  lead : (u.out o).leadTag = some e.tag
  anchor : (u.out o).anchorSlot = none
  tags : (u.out o).entries.map Entry.tag = ((pre.filter fun d => d.state == .onAir) ++ e :: post).map Entry.tag
  cuts : ∀ d ∈ pre ++ e :: post, d.state = .onAir → ∃ d', (u.out o).entry d.tag = some d' ∧ d'.state = .onAir ∧ d'.air.cut = true
  log : ∃ rs, a.log.Wrote u.log rs ∧ rs.map Record.shows =
    (pre.filter fun d => d.state != .onAir).map fun d => (o, Source.entry, some d.tag, Outcome.skippedTime)
  ramps : ∀ i w, a.voice i = some w → w.outlet = o → Outplays o pre w → u.voice i = some (w.rampOut a.clock 24000)

theorem State.anchorStart_anchors {a : State} {o : OutletId} {pre post : List Entry} {e : Entry} (hon : (a.out o).air = .onAir)
    (hb : (a.out o).handBack = false) (hx : (a.out o).entries = pre ++ e :: post) (hn : ((a.out o).entries.map Entry.tag).Nodup)
    (hs : e.state = .armed) (hl : e.lost = false) (hslot : (a.out o).anchorSlot = some e.tag)
    (hsound : ∀ d ∈ (a.out o).entries, d.state = .onAir → d.air.sounding = true ∧ d.air.silentUntil = none) (hu : a.Unasked o e.tag) :
    State.Anchored a (a.anchorStart o e) o pre post e := by
  obtain ⟨v, hv, hramp⟩ := a.rampAll_eq o 24000
  have hn' : ((pre ++ e :: post).map Entry.tag).Nodup := hx ▸ hn
  have hfb : (a.out o).inFallback = false := by simp [Outlet.inFallback, hon]
  have hnair : e.state ≠ .onAir := by rw [hs]; decide
  -- the entries of the list are passed
  have hstart : State.Anchors o e (Outplays o pre) pre [] (pre ++ e :: post) { a with voices := v } { a with voices := v } :=
    { log := ⟨[], .refl _, rfl⟩, marks := by rw [← hx]; rfl, entry := Outlet.entry_of_split hx hn, unasked := hu, handBack := rfl
      anchor := fun _ h => h, spares := .refl _ _ }
  have hpassed := hstart.all (outplays_aloof o pre)
    (fun w hw ho d hd => by
      simp only [Entry.skipped, Bool.and_eq_true, bne_iff_ne] at hd
      exact (hw.2 ho).2 d (List.contains_iff_mem.1 hd.2) hd.1)
    _ (by simpa using hn')
    (fun d hd ht => by
      have : d = e := by
        have h1 := Outlet.entry_of_mem hn (hx ▸ hd)
        rw [ht, Outlet.entry_of_split hx hn] at h1
        exact (Option.some.inj h1).symm
      exact this ▸ ⟨hnair, not_mem_pre hn' List.mem_cons_self⟩)
    fun d hd => hsound d (hx ▸ hd)
  rw [List.nil_append] at hpassed
  have hfold : ∃ y : State, (pre ++ e :: post).foldl (fun (s : State) d => s.passAnchor o pre d) { a with voices := v } = y := ⟨_, rfl⟩
  obtain ⟨y, hy⟩ := hfold
  rw [hy] at hpassed
  -- the anchor becomes the lead, and sounds if it is ready
  have hled : y.makeLead o e.tag = y.modOut o fun x => x.led e.tag := State.makeLead_eq hpassed.entry hl
  have hback : ∀ u : State, State.Plays o (Outplays o pre) (y.makeLead o e.tag) u → u.handBackBoundary o = u :=
    fun u hu => State.handBackBoundary_none <| hu.handBack.trans <| by
      rw [hled, State.modOut_out]
      exact hpassed.handBack.trans hb
  have hplays : State.Plays o (Outplays o pre) (y.makeLead o e.tag) (a.anchorStart o e) := by
    unfold State.anchorStart
    dsimp only
    rw [hfb, if_neg Bool.false_ne_true, hv, hx, entriesBefore_eq hn', hy, State.makeLead_entry hpassed.entry hl]
    dsimp only
    split
    · have hsounds := State.Plays.soundEntry (o := o) (outplays_aloof o pre) (y.makeLead o e.tag) (e := e.led) rfl
      rw [hback _ hsounds]
      exact hsounds
    · rw [hback _ (.refl _ _ _)]
      exact .refl _ _ _
  have hout : (y.makeLead o e.tag).out o = (y.out o).led e.tag := by rw [hled, State.modOut_out]
  have hmarks : ((a.anchorStart o e).out o).entries.map Entry.mark = ((pre ++ e :: post).filterMap (Entry.passed pre)).map (Mark.led e.tag) := by
    rw [hplays.marks, hout, Outlet.led_marks, hpassed.marks, List.map_nil, List.append_nil]
  have htags : ((a.anchorStart o e).out o).entries.map Entry.tag = ((pre.filter fun d => d.state == .onAir) ++ e :: post).map Entry.tag := by
    rw [← passed_tags hn', ← Mark.led_tags e.tag, ← hmarks, List.map_map]
    rfl
  refine ⟨?_, ?_, htags, fun d hd hair => ?_, ?_, fun i w hw ho hout' => ?_⟩
  · rw [Outlet.leadTag, hplays.order, hout]
    rfl
  · rw [hplays.anchor, hout]
    refine Option.eq_none_iff_forall_not_mem.2 fun q hq => ?_
    obtain ⟨h1, h2⟩ := Option.filter_eq_some_iff.1 (show (y.out o).anchorSlot.filter (fun t => t != e.tag) = some q from hq)
    have h3 : (a.out o).anchorSlot = some q := hpassed.anchor q h1
    rw [hslot] at h3
    obtain rfl := Option.some.inj h3
    simp at h2
  · have hde : d.tag ≠ e.tag := fun ht => by
      have h1 := Outlet.entry_of_mem hn (hx ▸ hd)
      rw [ht, Outlet.entry_of_split hx hn] at h1
      obtain rfl := Option.some.inj h1
      exact hnair hair
    have hm : (d.tag, EntryState.onAir, true) ∈ ((a.anchorStart o e).out o).entries.map Entry.mark := by
      rw [hmarks]
      exact List.mem_map.2 ⟨_, List.mem_filterMap.2 ⟨d, hd, if_pos hair⟩, if_neg hde⟩
    obtain ⟨c, hc, hcm⟩ := List.mem_map.1 hm
    simp only [Entry.mark, Prod.mk.injEq] at hcm
    obtain ⟨h1, h2, h3⟩ := hcm
    refine ⟨c, h1 ▸ Outlet.entry_of_mem ?_ hc, h2, h3⟩
    rw [htags]
    exact hn'.sublist (List.Sublist.map _ (List.Sublist.append_right List.filter_sublist _))
  · obtain ⟨rs, hw, hrs⟩ := hpassed.log
    refine ⟨rs, ?_, by rw [hrs, skipped_filter hn']⟩
    rw [hplays.log, hled]
    exact hw
  · have hkeep : Outplays o pre (w.rampOut a.clock 24000) := by
      obtain ⟨h1, h2⟩ := w.rampOut_kept a.clock 24000
      have hr := (VoiceUse.rampOut_stop hout'.1 a.clock 24000).1
      refine ⟨by simp [VoiceUse.sounding, hr], fun _ => ?_⟩
      rw [h2]
      exact hout'.2 ho
    refine hplays.spares.voices i _ ?_ hkeep
    rw [hled]
    exact hpassed.spares.voices i _ (hramp i w hw ho hout'.1) hkeep

end Sys2Proof.Machine
end

section
/-! A BREAK entry starts with its first item (R25, R45, R61, R62). -/

namespace Sys2Proof.Machine

/-! ### A slot's request (R60, R62) -/

/-- A break as a slot's request leaves it: its times and its other items stand. -/
structure FittedBreak.Asked (k : Nat) (f g : FittedBreak) : Prop where
  state : g.state = f.state
  start : g.start = f.start
  cursor : g.cursor = f.cursor
  due : g.due = f.due
  ending : g.ending = f.ending
  len : g.len = f.len
  items : ∀ j, j ≠ k → g.items[j]? = f.items[j]?

/-- What a slot's request changes: the voices, the queue and the break of its place. -/
structure State.Asks (o : OutletId) (p : Place) (k : Nat) (s t : State) : Prop where
  beside : ∃ st v q ol, t = { s with store := st, voices := v, voiceQueue := q, outlets := ol }
  out : (t.out o).setPlace p none = (s.out o).setPlace p none
  fit : ∀ f, s.fit o p = some f → ∃ g, t.fit o p = some g ∧ f.Asked k g

/-- An item whose version is found unusable (R63). -/
def BreakItem.substituted (it : BreakItem) : BreakItem :=
  { it with progress := .substituted, actual := none, played := 0, concealed := 0, stream := .notChecked }

section asks
variable {o : OutletId} {p : Place} {k : Nat} {s : State}

theorem FittedBreak.Asked.refl (k : Nat) (f : FittedBreak) : f.Asked k f := ⟨rfl, rfl, rfl, rfl, rfl, rfl, fun _ _ => rfl⟩

theorem FittedBreak.Asked.modItem (f : FittedBreak) (k : Nat) (h : BreakItem → BreakItem) : f.Asked k (f.modItem k h) :=
  ⟨rfl, rfl, rfl, rfl, rfl, rfl, fun j hj => by
    simp [FittedBreak.modItem, Ne.symm hj]⟩

theorem State.Asks.queue (s : State) (q : List VoiceRequest) : State.Asks o p k s { s with voiceQueue := q } :=
  ⟨⟨_, _, _, _, rfl⟩, rfl, fun f hf => ⟨f, hf, .refl k f⟩⟩

/-- A change of the break of the place, with the store and the voices. -/
theorem State.Asks.modFit {f : FittedBreak} (hf : s.fit o p = some f) {h : FittedBreak → FittedBreak} (ha : f.Asked k (h f)) (st : Store)
    (v : List Voice) : State.Asks o p k s ({ s with store := st, voices := v }.modFit o p h) := by
  refine ⟨⟨_, _, _, _, rfl⟩, ?_, fun f' hf' => ⟨h f, ?_, ?_⟩⟩
  · rw [State.modFit, State.modOut_out]
    cases p <;> rfl
  · rw [State.modFit_fit, if_pos ⟨rfl, rfl⟩]
    exact congrArg (Option.map h) hf
  · rw [hf] at hf'
    obtain rfl := Option.some.inj hf'
    exact ha

theorem State.grantSlot_asks (i : Nat) {r : VoiceRequest} (hr : r.outlet = o) : State.Asks o p k s (s.grantSlot i r p k) := by
  have hprime : ∀ (t : State) (v : Version) (n : Nat) (l : Bool), ∃ st vs, t.prime i r.outlet r.holder v n l r.needed =
      { t with store := st, voices := vs } := fun t v n l => ⟨_, _, rfl⟩
  subst hr
  unfold State.grantSlot
  dsimp only
  split
  · exact .queue s s.voiceQueue
  · rename_i b hb
    split
    · split
      · rename_i v _
        obtain ⟨st, vs, e⟩ := hprime s v _ false
        rw [e]
        exact .modFit hb (.modItem b k _) st vs
      · have hsub := State.Asks.modFit (k := k) hb (h := fun b => b.modItem k BreakItem.substituted) (.modItem b k _) s.store s.voices
        split
        · rename_i v _
          obtain ⟨st, vs, e⟩ := hprime (s.modFit r.outlet p fun b => b.modItem k BreakItem.substituted) v v.inCue true
          refine (congrArg (State.Asks r.outlet p k s) e).mpr ?_
          exact ⟨⟨_, _, _, _, rfl⟩, hsub.out, hsub.fit⟩
        · exact hsub
    · split
      · rename_i v _
        obtain ⟨st, vs, e⟩ := hprime s v _ true
        rw [e]
        exact ⟨⟨_, _, _, _, rfl⟩, rfl, fun f hf => ⟨f, hf, .refl k f⟩⟩
      · refine State.Asks.modFit (s := s) hb ?_ s.store s.voices
        split <;> exact ⟨rfl, rfl, rfl, rfl, rfl, rfl, fun _ _ => rfl⟩

theorem State.requestSlot_asks (s : State) (o : OutletId) (p : Place) (k : Nat) (t : Time) : State.Asks o p k s (s.requestSlot o p k t) := by
  unfold State.requestSlot
  split
  · exact .queue s s.voiceQueue
  · split
    · unfold State.request
      split
      · exact State.grantSlot_asks _ rfl
      · exact .queue s _
    · exact .queue s s.voiceQueue

end asks

/-! ### The break starts with its first item (R61, R62) -/

/-- A RUNNING break whose first item sounds waits for the next slot (R62). -/
theorem State.stepFit_waits {s : State} {o : OutletId} {p : Place} {b : FittedBreak} {pos due : Time} (hb : s.fit o p = some b)
    (hh : s.horizon = none) (hpos : s.position o = some pos) (hdue : b.due = some due) (hlt : pos < due)
    (hbed : ∀ j it, b.cursor = j + 1 → b.items[j]? = some it → it.progress ≠ .substituted) : s.stepFit o p = none := by
  have hreached : s.reachedPos o = some pos := (State.reachedPos_eq hh o).trans hpos
  unfold State.stepFit
  rw [hb, hpos]
  dsimp only
  rw [hreached, Option.getD_some]
  split
  · split
    · rename_i e
      split at e
      · rename_i j hc
        split at e
        · rename_i jt _ _ hjt _ _
          rw [if_neg] at e
          · cases e
          · simp only [Bool.and_eq_true, beq_iff_eq, not_and]
            exact fun h => absurd h (hbed j jt hc hjt)
        · cases e
      · cases e
    · rename_i hu
      rw [FittedBreak.unbedded hbed s o p hb pos] at hu
      cases hu
    · rw [hdue]
      dsimp only
      rw [if_pos hlt]
  · rfl

/-- A break whose slot has begun with its item, whole and from now (R62). -/
def FittedBreak.slotBegun (b : FittedBreak) (k : Nat) (it : BreakItem) (now : Time) (due : Time) : FittedBreak :=
  { b with
    items := b.items.set k { it with progress := .sounding, actual := some now, skipped := 0, mark := .here }
    cursor := k + 1
    due := some due }

/-- What the unit is as an item has begun (R62). -/
structure State.Begins (o : OutletId) (p : Place) (k i : Nat) (b : FittedBreak) (a u : State) : Prop where
  cfg : u.cfg = a.cfg
  disc : u.disc = a.disc
  horizon : u.horizon = a.horizon
  sent : u.sent = a.sent
  out : ∃ tl, (u.out o).setPlace p none = { (a.out o).setPlace p none with tallies := tl }
  fit : ∃ f, u.fit o p = some f ∧ b.Asked (k + 1) f
  sounds : ∃ z, u.voice i = some z ∧ z.sounding = true

theorem State.beginItem_begins {a : State} {o : OutletId} {p : Place} {k i : Nat} {b : FittedBreak} {it : BreakItem} {w : VoiceUse} {pos : Time}
    (hb : (a.out o).place p = some b) (hw : a.voice i = some w) (hit : b.items[k]? = some it) (hres : b.resume = none)
    (hleft : 480 ≤ b.leftAt pos) :
    State.Begins o p k i (b.slotBegun k it a.now (pos + it.playLen + it.join)) a (a.beginItem o p k i pos) := by
  obtain ⟨tl, e, -⟩ := State.beginItem_form hb hw hit hres hleft
  have hz : ∃ z, (a.startVoice i (.steady (multiplier (((a.store.find w.cart w.serial).map Version.trim).getD 0)))).voice i = some z ∧
      z.sounding = true := State.startVoiceWith_sounds hw (set := fun u => { u with mult := _ }) rfl
  have hc : a.Engine (a.startVoice i (.steady (multiplier (((a.store.find w.cart w.serial).map Version.trim).getD 0)))) :=
    a.startVoiceWith_engine i _
  have hx : ({ (a.out o).setPlace p (some (b.slotBegun k it a.now (pos + it.playLen + it.join))) with tallies := tl } : Outlet).place p =
      some (b.slotBegun k it a.now (pos + it.playLen + it.join)) ∧
      ({ (a.out o).setPlace p (some (b.slotBegun k it a.now (pos + it.playLen + it.join))) with tallies := tl } : Outlet).setPlace p none =
        { (a.out o).setPlace p none with tallies := tl } := by cases p <;> exact ⟨rfl, rfl⟩
  have hform : a.beginItem o p k i pos =
      ((a.startVoice i (.steady (multiplier (((a.store.find w.cart w.serial).map Version.trim).getD 0)))).setOut o
        { (a.out o).setPlace p (some (b.slotBegun k it a.now (pos + it.playLen + it.join))) with tallies := tl }).requestSlot
          o p (k + 1) (a.toGroup o (pos + it.playLen + it.join)) := e
  rw [hform]
  generalize a.startVoice i (.steady (multiplier (((a.store.find w.cart w.serial).map Version.trim).getD 0))) = c at hz hc
  generalize ({ (a.out o).setPlace p (some (b.slotBegun k it a.now (pos + it.playLen + it.join))) with tallies := tl } : Outlet) = x at hx
  have hasks := (c.setOut o x).requestSlot_asks o p (k + 1) (a.toGroup o (pos + it.playLen + it.join))
  obtain ⟨z, hz, hsnd⟩ := hz
  have hspares := State.Spares.requestSlot (keep := fun _ => True) (c.setOut o x) o p (k + 1) (a.toGroup o (pos + it.playLen + it.join))
  obtain ⟨st, v, q, ol, hbeside⟩ := hasks.beside
  refine ⟨?_, ?_, ?_, ?_, ⟨tl, ?_⟩, ?_, z, hspares.voices i z hz trivial, hsnd⟩
  · rw [hbeside]
    exact hc.cfg
  · rw [hbeside]
    exact hc.disc
  · rw [hbeside]
    obtain ⟨_, _, _, _, hc⟩ := hc
    rw [hc]
    rfl
  · rw [hbeside]
    exact hc.sent
  · rw [hasks.out, State.setOut_out, hx.2]
  · exact hasks.fit _ (by rw [State.fit, State.setOut_out, hx.1])

/-- A break as it starts (R61). -/
def FittedBreak.started (b : FittedBreak) (start : Time) : FittedBreak :=
  { b with state := .running, start := some start, announced := false, cursor := 0, due := some start }

/-- What the unit is as a break has started with its first item (R61, R62). -/
structure State.Starts (o : OutletId) (p : Place) (it : BreakItem) (i : Nat) (now : Time) (s u : State) : Prop where
  sent : u.sent = s.sent
  out : ∃ tl, (u.out o).setPlace p none = { (s.out o).setPlace p none with tallies := tl }
  fit : ∃ f jt, u.fit o p = some f ∧ f.state = .running ∧ f.start = some now ∧ f.cursor = 1 ∧ f.due = some (now + it.playLen + it.join) ∧
    f.items[0]? = some jt ∧ jt.progress = .sounding ∧ jt.actual = some now
  sounds : ∃ z, u.voice i = some z ∧ z.sounding = true

theorem State.startFit_starts {s : State} {o : OutletId} {p : Place} {b : FittedBreak} {it : BreakItem} {i : Nat} {w : VoiceUse} {g : Time}
    (hb : s.fit o p = some b) (hfollow : s.isFollow o = false) (hg : s.disc.groupTime = some g) (hplays : (s.out o).playsTimeline = true)
    (hh : s.horizon = none) (he : b.ending = false) (hres : b.resume = none) (hlen : 480 ≤ b.len) (hit : b.items[0]? = some it)
    (hsub : it.progress ≠ .substituted) (hplay : 0 < it.playLen) (hv : s.voiceOf o (.slot p 0) = some i) (hw : s.voice i = some w)
    (hp : w.state = .primed) : State.Starts o p it i g s (s.startFit o p g) := by
  have hplace : (s.out o).place p = some b := hb
  have hb1 : (s.modFit o p fun b => b.started g).fit o p = some (b.started g) := by
    rw [State.modFit_fit, if_pos ⟨rfl, rfl⟩, hb]
    rfl
  have hout1 : (s.modFit o p fun b => b.started g).out o = (s.out o).setPlace p (some (b.started g)) := by
    rw [State.modFit, State.modOut_out, hplace]
    rfl
  have hplays1 : ((s.modFit o p fun b => b.started g).out o).playsTimeline = true := by
    rw [hout1, ← hplays]
    cases p <;> rfl
  have hroom : g < g + (b.len : Int) := by
    have : (0 : Int) < b.len := by exact_mod_cast lt_of_lt_of_le (by decide) hlen
    exact lt_add_of_pos_right g this
  have hposition : ∀ t : State, t.cfg = s.cfg → t.disc = s.disc → t.position o = some g := fun t hc hd => by
    rw [State.position, State.isFollow, State.ocfg, hc, ← State.ocfg, ← State.isFollow, hfollow, hd, ← hg]
    rfl
  have hlater : g < g + it.playLen + it.join := by
    have h1 : (0 : Int) < it.playLen := by exact_mod_cast hplay
    have h2 : (0 : Int) ≤ it.join := Int.natCast_nonneg _
    exact lt_of_lt_of_le (lt_add_of_pos_right g h1) (le_add_of_nonneg_right h2)
  have hleft : 480 ≤ (b.started g).leftAt g := by
    rw [FittedBreak.leftAt_eq (t := g) rfl]
    have : (g + ((b.started g).len : Int) - g).toNat = b.len := by
      rw [add_sub_cancel_left]
      rfl
    rw [this]
    exact hlen
  -- the first item begins
  have hstep := State.stepFit_begins (a := s.modFit o p fun b => b.started g) (t := g) (pos := g) (due := g) (i := i) (it := it) hb1 rfl he hplays1 hh
    (hposition _ rfl rfl) rfl hroom rfl (le_refl g) (fun j jt hj _ => by cases hj) hit hsub
    (State.primedVoice_of (s := s.modFit o p fun b => b.started g) hv hw hp)
  have hbegins := State.beginItem_begins (a := s.modFit o p fun b => b.started g) (k := 0) (pos := g) hb1 hw hit hres hleft
  have hnow : (s.modFit o p fun b => b.started g).now = g := by
    show s.disc.groupTime.getD 0 = g
    rw [hg]
    rfl
  rw [hnow] at hbegins
  have hstep' : (s.modFit o p fun b => b.started g).stepFit o p = some ((s.modFit o p fun b => b.started g).beginItem o p 0 i g) := hstep
  obtain ⟨f, hf, hasked⟩ := hbegins.fit
  have hfirst : ∃ jt, f.items[0]? = some jt ∧ jt.progress = .sounding ∧ jt.actual = some g := by
    rw [hasked.items 0 (by decide)]
    refine ⟨_, List.getElem?_set_self ?_, rfl, rfl⟩
    exact (List.getElem?_eq_some_iff.1 hit).1
  obtain ⟨jt, hjt, hprog, hact⟩ := hfirst
  -- its next slot is not due, and the break waits
  have hwaits : ((s.modFit o p fun b => b.started g).beginItem o p 0 i g).stepFit o p = none :=
    State.stepFit_waits hf (hbegins.horizon.trans hh) (hposition _ (hbegins.cfg.trans rfl) (hbegins.disc.trans rfl)) hasked.due hlater
      fun j kt hj hkt => by
        have : j = 0 := by simpa [FittedBreak.slotBegun] using (hasked.cursor.symm.trans hj).symm
        subst this
        rw [hjt] at hkt
        obtain rfl := Option.some.inj hkt
        rw [hprog]
        decide
  have hrun : s.startFit o p g = (s.modFit o p fun b => b.started g).beginItem o p 0 i g := by
    show State.runFit (62 + 1 + 1) (s.modFit o p fun b => b.started g) o p = _
    rw [State.runFit, hstep']
    dsimp only
    rw [State.runFit, hwaits]
  rw [hrun]
  obtain ⟨tl, htl⟩ := hbegins.out
  refine ⟨hbegins.sent, ⟨tl, ?_⟩, ⟨f, jt, hf, hasked.state, hasked.start, hasked.cursor, hasked.due, hjt, hprog, hact⟩, hbegins.sounds⟩
  rw [htl, hout1]
  cases p <;> rfl

end Sys2Proof.Machine
end

section
/-! A BREAK entry becomes the lead and its break starts, announced at its actual start (R25, R45, R61), and the obligation on the times of
entries. -/

namespace Sys2Proof.Machine

/-- What stands of an outlet whose place alone, and whose tallies, have changed. -/
theorem Outlet.rest_of_setPlace {x y : Outlet} {p : Place} {tl : List LiveTally} (h : x.setPlace p none = { y.setPlace p none with tallies := tl }) :
    x.entries = y.entries ∧ x.airOrder = y.airOrder ∧ x.seqSlot = y.seqSlot ∧ x.handBack = y.handBack := by
  have h1 := congrArg Outlet.entries h
  have h2 := congrArg Outlet.airOrder h
  have h3 := congrArg Outlet.seqSlot h
  have h4 := congrArg Outlet.handBack h
  cases p <;> exact ⟨h1, h2, h3, h4⟩

theorem Outlet.fitOf_congr {x y : Outlet} (h : ∀ p, x.place p = y.place p) (tag : Nat) : x.fitOf tag = y.fitOf tag := by
  simp only [Outlet.fitOf, Outlet.placesWhere, h]

/-- What the unit is as a BREAK entry has started with its break's first item (R25, R45, R61). -/
structure State.BreakStarts (a u : State) (o : OutletId) (p : Place) (e : Entry) (b : FittedBreak) (it : BreakItem) (i : Nat) : Prop where
  lead : (u.out o).leadTag = some e.tag
  entry : (u.out o).entry e.tag = some (e.led.breaksFrom a.now a.clock)
  fit : ∃ f jt, u.fit o p = some f ∧ f.state = .running ∧ f.start = some a.now ∧ f.cursor = 1 ∧ f.due = some (a.now + it.playLen + it.join) ∧
    f.items[0]? = some jt ∧ jt.progress = .sounding ∧ jt.actual = some a.now
  sounds : ∃ z, u.voice i = some z ∧ z.sounding = true
  sent : u.sent = a.sent ++ if b.announced = true ∨ a.isolated = true then []
    else [a.frame (.cue { feed := (a.ocfg o).feed, tag := b.tag, start := a.now, len := b.len, cancel := 0 })]

/-- A break not announced before is announced at its start (R45). -/
theorem State.announceStart_eq {s : State} {o : OutletId} {p : Place} {b : FittedBreak} (hb : s.fit o p = some b) :
    s.announceStart o p = { s with sent := s.sent ++ if b.announced = true ∨ s.isolated = true then []
      else [s.frame (.cue { feed := (s.ocfg o).feed, tag := b.tag, start := s.now, len := b.len, cancel := 0 })] } := by
  unfold State.announceStart
  rw [hb]
  dsimp only
  by_cases h : b.announced = true
  · rw [if_pos h, if_pos (.inl h), List.append_nil]
  · rw [if_neg h, State.sendCue, State.send_eq_append]
    simp only [h, Bool.false_eq_true, false_or]

theorem State.startEntry_break {a : State} {o : OutletId} {p : Place} {e : Entry} {brk len i : Nat} {b : FittedBreak} {it : BreakItem}
    {w : VoiceUse} {g : Time} (hon : (a.out o).air = .onAir) (hback : (a.out o).handBack = false) (hfollow : a.isFollow o = false)
    (hg : a.disc.groupTime = some g) (hh : a.horizon = none) (hord : (a.out o).airOrder = []) (hq : (a.out o).seqSlot = some e.tag)
    (he : (a.out o).entry e.tag = some e) (hk : e.kind = .brk brk len) (hl : e.lost = false) (hfit : (a.out o).fitOf e.tag = some p)
    (hb : (a.out o).place p = some b) (hend : b.ending = false) (hres : b.resume = none) (hlen : 480 ≤ b.len) (hit : b.items[0]? = some it)
    (hsub : it.progress ≠ .substituted) (hplay : 0 < it.playLen) (hv : a.voiceOf o (.slot p 0) = some i) (hw : a.voice i = some w)
    (hp : w.state = .primed) : State.BreakStarts a (a.startEntry o e) o p e b it i := by
  have hnow : a.now = g := by rw [State.now, hg]; rfl
  have hformer : (a.out o).lead = none := by rw [Outlet.lead, Outlet.leadTag, hord]; rfl
  have hmake : a.makeLead o e.tag = a.setOut o ((a.out o).led e.tag) := State.makeLead_eq he hl
  -- the entry sounds
  obtain ⟨tl, htl, -⟩ := (a.setOut o (((a.out o).led e.tag).modEntry e.tag fun d => d.breaksFrom a.now a.clock)).tallyStart_eq o (.entry e.tag)
  rw [State.setOut_out, State.setOut_setOut] at htl
  have hsound : (a.makeLead o e.tag).soundEntry o e.led =
      ((a.setOut o { ((a.out o).led e.tag).modEntry e.tag (fun d => d.breaksFrom a.now a.clock) with tallies := tl }).playBreak o e.tag).resolveSuccessor
        o := by
    have hsets : (a.setOut o ((a.out o).led e.tag)).modEntry o e.tag (fun d => d.breaksFrom a.now a.clock) =
        a.setOut o (((a.out o).led e.tag).modEntry e.tag fun d => d.breaksFrom a.now a.clock) := by
      rw [State.modEntry, State.modOut, State.setOut_out, State.setOut_setOut]
    unfold State.soundEntry
    rw [show e.led.kind = .brk brk len from hk]
    dsimp only
    rw [hmake, State.soundBreak_eq]
    exact congrArg (fun s : State => (s.playBreak o e.tag).resolveSuccessor o) ((congrArg (fun s : State => s.tallyStart o (.entry e.tag)) hsets).trans htl)
  have hx : ∀ x : Outlet, x = { ((a.out o).led e.tag).modEntry e.tag (fun d => d.breaksFrom a.now a.clock) with tallies := tl } →
      (∀ q, x.place q = (a.out o).place q) ∧ x.playsTimeline = true ∧ x.airOrder = [e.tag] ∧ x.seqSlot = none ∧ x.handBack = false ∧
        x.entry e.tag = some (e.led.breaksFrom a.now a.clock) := by
    rintro x rfl
    refine ⟨fun q => by cases q <;> rfl, Outlet.playsTimeline_onAir hon, ?_, ?_, hback, ?_⟩
    · show e.tag :: (a.out o).airOrder.filter (fun t => t != e.tag) = [e.tag]
      rw [hord]
      rfl
    · show (a.out o).seqSlot.filter (fun t => t != e.tag) = none
      rw [hq]
      simp [Option.filter]
    · have := Outlet.entry_modEntry ((a.out o).led e.tag) e.tag (fun d => d.breaksFrom a.now a.clock) fun _ => rfl
      rw [Outlet.led_entry he] at this
      exact this
  generalize ({ ((a.out o).led e.tag).modEntry e.tag (fun d => d.breaksFrom a.now a.clock) with tallies := tl } : Outlet) = x at hsound hx
  obtain ⟨hplace, hplays, horder, hseq, hbackx, hentry⟩ := hx x rfl
  have hout : (a.setOut o x).out o = x := State.setOut_out a o x
  have hfitx : (a.setOut o x).fit o p = some b := by rw [State.fit, hout, hplace, hb]
  -- its break is announced and starts
  have hannounce := State.announceStart_eq hfitx
  have hbreak : (a.setOut o x).playBreak o e.tag = ((a.setOut o x).announceStart o p).startFit o p g := by
    unfold State.playBreak
    rw [hout, Outlet.fitOf_congr hplace, hfit]
    dsimp only
    rw [hannounce]
    exact congrArg _ hnow
  have hstarts := State.startFit_starts (s := { a.setOut o x with sent := (a.setOut o x).sent ++
      if b.announced = true ∨ (a.setOut o x).isolated = true then []
      else [(a.setOut o x).frame (.cue { feed := ((a.setOut o x).ocfg o).feed, tag := b.tag, start := (a.setOut o x).now, len := b.len, cancel := 0 })] })
    (o := o) hfitx hfollow hg (by rw [← hplays]; exact congrArg _ hout) hh hend hres hlen hit hsub hplay hv hw hp
  rw [← hannounce, ← hbreak] at hstarts
  obtain ⟨tl', htl'⟩ := hstarts.out
  have houtv : ((a.setOut o x).announceStart o p).out o = x := by
    rw [hannounce]
    exact hout
  obtain ⟨h1, h2, h3, h4⟩ := Outlet.rest_of_setPlace htl'
  rw [houtv] at h1 h2 h3 h4
  have hstart : a.startEntry o e = (a.setOut o x).playBreak o e.tag := by
    unfold State.startEntry
    dsimp only
    rw [hformer]
    dsimp only
    rw [State.makeLead_entry he hl]
    dsimp only
    rw [hsound, State.resolveSuccessor_none (h3.trans hseq), State.handBackBoundary_none (h4.trans hbackx)]
  rw [hstart]
  refine ⟨?_, ?_, ?_, hstarts.sounds, ?_⟩
  · rw [Outlet.leadTag, h2, horder]
    rfl
  · rw [Outlet.entry, h1]
    exact hentry
  · rw [hnow]
    exact hstarts.fit
  · rw [hstarts.sent, hannounce]
    rfl

theorem State.follow_of_self {s : State} {o : OutletId} (h : s.isSelf o = true) : s.isFollow o = false := by
  simp only [State.isSelf, Bool.and_eq_true, beq_iff_eq] at h
  simp [State.isFollow, h.2]

/-- Passing samples do not set group time, nor unset it (R80). -/
theorem State.elapse_timed {s : State} (h : s.disc.groupTime.isSome = true) (n : Nat) : (s.elapse n).disc.groupTime.isSome = true := by
  rw [State.elapse_disc, Option.isSome_map]
  exact h

/-- A BREAK entry is ready with its first item's voice PRIMED (R61). -/
theorem State.entryReady_break {s : State} {o : OutletId} {e : Entry} {p : Place} {brk len i : Nat} {b : FittedBreak} {it : BreakItem}
    (hk : e.kind = .brk brk len) (hfit : (s.out o).fitOf e.tag = some p) (hb : (s.out o).place p = some b) (hit : b.items[0]? = some it)
    (hsub : it.progress ≠ .substituted) (hv : s.primedVoice o (.slot p 0) = some i) : s.entryReady o e = true := by
  have hfirst : s.firstSlotReady o p = true := by
    have hfit : s.fit o p = some b := hb
    unfold State.firstSlotReady
    rw [hfit]
    dsimp only
    rw [hit]
    dsimp only
    rw [if_neg (by simpa using hsub), hv]
    rfl
  unfold State.entryReady
  rw [hk]
  dsimp only
  rw [hfit]
  exact hfirst

end Sys2Proof.Machine

open Sys2Proof Sys2Proof.Machine

/-- Settles O48, a start time, an arm time, a SOFT time and an anchor's time each by what its command does first. -/
theorem timesOfEntriesAreReached : Obligations.TimesOfEntriesAreReached := by
  intro s dt o hpow hh a x
  have hh' : a.horizon = none := (State.elapse_horizon s dt).trans hh
  have hreached : a.reached = a.now := by rw [State.reached, hh']; rfl
  have hentries : (a.out o).entries = x.entries := State.elapse_out_entries s dt o
  have hseq : (a.out o).seqSlot = x.seqSlot := State.elapse_out_seqSlot s dt o
  have hanchor : (a.out o).anchorSlot = x.anchorSlot := State.elapse_out_anchorSlot s dt o
  have hair : (a.out o).air = x.air := State.elapse_out_air s dt o
  have hback : (a.out o).handBack = x.handBack := State.elapse_out_handBack s dt o
  refine ⟨?_, ?_, ?_, ?_, ?_, ?_⟩
  · intro e cart i w c hon hb he hord hstate hlost hk hv hw hprimed hc htal b u
    have hw' : a.voice i = some w := State.elapse_voice_silent hw (VoiceUse.sounding_primed hprimed) dt
    have hslots : x.seqSlot.filter (fun t => t != e.tag) = none ∧ x.anchorSlot.filter (fun t => t != e.tag) = none := by
      rcases hc with ⟨-, h1, h2, -⟩ | ⟨-, -, ⟨h1, h2⟩ | ⟨h1, h2⟩, -⟩ <;> simp [h1, h2, Option.filter]
    have halone : a.Alone o e i w :=
      { item := ⟨cart, hk⟩, air := hair.trans hon, handBack := hback.trans hb, entries := hentries.trans he
        order := (State.elapse_out_airOrder s dt o).trans hord, state := hstate, lost := hlost
        primed := State.primedVoice_of ((State.elapse_voiceOf s dt o _).trans hv) hw' hprimed, voice := hw'
        seq := hseq ▸ hslots.1, anchor := hanchor ▸ hslots.2
        fresh := by simpa [a] using htal }
    have hu : a.alone o e i w = u := by
      simp only [State.alone, u, b, a, x, State.voiceMult, State.elapse_store, State.elapse_out_tallies]
    rcases hc with ⟨rfl, h1, h2, hm, t, ht, hle⟩ | ⟨rfl, ⟨t, hm, hle⟩, hslot, hq⟩
    · rw [exec_startTimeReached hpow rfl halone.air (hseq.trans h1) halone.entry (hanchor.trans h2) hm ht (hreached ▸ hle)
        (fun l hl => by rw [Outlet.lead, Outlet.leadTag, halone.order] at hl; cases hl) halone.ready, halone.starts, hu]
    · rw [exec_hardTimeReached hpow rfl halone.air (by rw [hseq, hanchor]; tauto) halone.entry hm (hreached ▸ hle) hstate hlost
        (fun d hd hon => by
          obtain rfl := List.mem_singleton.1 (halone.entries ▸ hd)
          rw [hstate] at hon
          cases hon), halone.anchors (State.elapse_quiet hq dt), hu]
  · intro e cart v t q hon hs ha hfind hm hk hbrk hv hfree r first u
    have hfind' : (a.out o).entries.find? (fun d => (a.out o).isCandidate a.reached d) = some e := by
      rw [hentries, hreached, ← hfind]
      exact List.find?_congr fun d hd => Outlet.isCandidate_item (hbrk d hd) _
    have hfree' : ∀ z ∈ a.voices, z.use = none → z.reserved ≠ some o ∧ z.reserved ≠ none := State.elapse_free hfree dt
    rw [exec_armTimeReached hpow dt (hseq.trans hs) (hanchor.trans ha) (by rw [Outlet.fillsAnchor, show (a.out o).air = .standby from hair.trans hon]) hfind',
      State.armsAnchor_eq hk hm ((State.elapse_store s dt).symm ▸ hv) hfree']
    simp only [u, r, first, a, x, enqueue, VoiceRequest.before, State.elapse_voiceQueue, State.elapse_out_entries]
  · intro pre mid post l e t hon hx hn hlead hmid hs hm hle hslot hq hrests hinherit
    have hq' : a.voiceQueue = [] := (State.elapse_voiceQueue s dt).trans hq
    have hx' : (a.out o).entries = pre ++ l :: mid ++ e :: post := hentries.trans hx
    have hn' : ((a.out o).entries.map Entry.tag).Nodup := hentries ▸ hn
    have hentry : (a.out o).entry = x.entry := by funext n; rw [Outlet.entry, hentries]; rfl
    have hlead' : (a.out o).leadTag = some l.tag := (congrArg List.head? (State.elapse_out_airOrder s dt o) : _).trans hlead
    have hsettle : a.settle = a := State.settle_rests hrests fun p => (State.elapse_out_inherit s dt p).trans (hinherit p)
    rw [exec_softTimeReached hpow dt o (Outlet.entry_of_split hx' hn') hm (hreached ▸ hle), hsettle,
      State.reachSoft_next (Outlet.playsTimeline_onAir (hair.trans hon)) hx' hn' hlead' hmid hs hm
        (by rw [hseq, hentry]; exact hslot)]
    obtain ⟨rs, hw, hrs, hrest⟩ := State.leaveUnbegun_all mid (pre := pre ++ [l]) (post := e :: post) hq' (by simpa using hx') hn'
    refine ⟨_, rs, rfl, by simpa using hrest, ?_, hrs⟩
    rw [← State.elapse_log s dt]
    exact hw
  · intro pre post e t hon hb hx hn hm hle hs hl hslot _ hsounds hq
    have hx' : (a.out o).entries = pre ++ e :: post := hentries.trans hx
    have hn' : ((a.out o).entries.map Entry.tag).Nodup := hentries ▸ hn
    have he : (a.out o).entry e.tag = some e := Outlet.entry_of_split hx' hn'
    have hunasked : a.Unasked o e.tag := fun r hr ho hh => absurd hh (hq r ((State.elapse_voiceQueue s dt : a.voiceQueue = s.voiceQueue) ▸ hr) ho)
    have hanchored := State.anchorStart_anchors (hair.trans hon) (hback.trans hb) hx' hn' hs hl (hanchor.trans hslot)
      (fun d hd hair => (hsounds d (hentries ▸ hd) hair).2) hunasked
    obtain ⟨rs, hw, hrs⟩ := hanchored.log
    refine ⟨_, rs, exec_hardTimeReached hpow rfl (hair.trans hon) (.inl (hanchor.trans hslot)) he hm (hreached ▸ hle) hs hl
      (fun d hd hair => (hsounds d (hentries ▸ hd) hair).1), hanchored.lead, hanchored.anchor, hanchored.tags,
      fun d hd => hanchored.cuts d (hx ▸ hd), ?_, hrs, fun i w hw' ho hsnd hslots hskip =>
        ⟨_, hanchored.ramps i w hw' ho ⟨hsnd, fun _ => ⟨hslots, hskip⟩⟩, ?_⟩⟩
    · rw [← State.elapse_log s dt]
      exact hw
    · obtain ⟨h1, h2⟩ := VoiceUse.rampOut_stop hsnd a.clock 24000
      refine ⟨h1, h2, fun hplaying => ?_⟩
      rw [VoiceUse.rampOut, if_neg (by simp [hplaying]), if_pos hsnd]
      rfl
  · intro l e cl ce i j w z t hon hb hn hlead hl hkl hq ha he hne hke hs hlost hm ht hle hj hz hp hi hw hsnd hlt spot
    have hentry : (a.out o).entry = x.entry := by funext n; rw [Outlet.entry, hentries]; rfl
    have hlead' : (a.out o).leadTag = some l.tag := (congrArg List.head? (State.elapse_out_airOrder s dt o) : _).trans hlead
    have hover := State.startEntry_over (hback.trans hb) hlead' (hentry ▸ hl) hkl (hseq.trans hq) (hentry ▸ he) hne hke hlost hj hz hp hi hw hsnd
    have hready : a.entryReady o e = true := by
      simp [State.entryReady, hke, State.primedVoice_of hj hz hp]
    have hexec := exec_startTimeReached hpow rfl (hair.trans hon) (hseq.trans hq) (hentry ▸ he) (hanchor.trans ha) hm ht (hreached ▸ hle)
      (fun d hd => by
        rw [Outlet.lead, hlead', Option.bind_some, hentry, hl] at hd
        obtain rfl := Option.some.inj hd
        simp [Entry.isBreak, hkl]) hready
    have hspot : (a.store.find w.cart w.serial).any (fun v => v.kind == .spot) = true ↔ spot := by
      rw [show a.store = s.store from State.elapse_store s dt, Option.any_eq_true]
      simp [spot]
    refine ⟨_, hexec, hover.lead, hover.seq, hover.former,
      ⟨_, hover.starts, rfl, rfl⟩, hover.sounds, fun h => ?_, fun hf hns => ⟨_, hover.fades, ?_⟩⟩
    · rw [hover.fades, State.fadeVoice, if_neg]
      rcases h with h | h
      · simp [h]
      · simp [hspot.2 h]
    · have hno : (a.store.find w.cart w.serial).any (fun v => v.kind == .spot) = false := by
        rw [← Bool.not_eq_true, hspot]
        exact hns
      rw [State.fadeVoice, if_pos (by simp [hf, hsnd, hlt, hno])]
      exact VoiceUse.rampOut_stop hsnd _ _
  · intro e brk len i p b it w t hon hb hself hset hn hord hnone hq ha he hk hs hl hm ht hle hfit hplace hend hres hlen hit hsub hplay hv hw hp
    have hentry : (a.out o).entry = x.entry := by funext n; rw [Outlet.entry, hentries]; rfl
    have hpl : (a.out o).place = x.place := funext fun q => State.elapse_out_place s dt o q
    have hfollow : a.isFollow o = false := by
      rw [State.elapse_isFollow]
      exact State.follow_of_self hself
    have hgroup : a.disc.groupTime.isSome = true := State.elapse_timed hset dt
    obtain ⟨g, hg⟩ := Option.isSome_iff_exists.1 hgroup
    have hord' : (a.out o).airOrder = [] := (State.elapse_out_airOrder s dt o).trans hord
    have hfit' : (a.out o).fitOf e.tag = some p := (Outlet.fitOf_congr (congrFun hpl) e.tag).trans hfit
    have hb' : (a.out o).place p = some b := hpl ▸ hplace
    have hready : a.entryReady o e = true := State.entryReady_break hk hfit' hb' hit hsub (State.primedVoice_of hv hw hp)
    have hexec := exec_startTimeReached hpow rfl (hair.trans hon) (hseq.trans hq) (hentry ▸ he) (hanchor.trans ha) hm ht (hreached ▸ hle)
      (fun d hd => by rw [Outlet.lead, Outlet.leadTag, hord'] at hd; cases hd) hready
    have hstarts := State.startEntry_break (hair.trans hon) (hback.trans hb) hfollow hg hh' hord' (hseq.trans hq) (hentry ▸ he) hk hl hfit' hb'
      hend hres hlen hit hsub hplay hv hw hp
    obtain ⟨f, jt, hf, h1, h2, h3, h4, h5, h6, h7⟩ := hstarts.fit
    refine ⟨_, f, jt, hexec, hstarts.lead,
      ⟨_, hstarts.entry, rfl, rfl⟩, hf, h1, h2, h3, h4, h5, h6, h7, hstarts.sounds, ?_⟩
    rw [hstarts.sent]
    simp only [a, State.elapse_sent, State.elapse_isolated, State.elapse_ocfg]
end

section
/-! What passing samples change (R42, R73, R76, R80, R95, R127, R147, R157). -/

namespace Sys2Proof.Machine

/-! ### Voices -/

/-- A sounding voice sounds the samples up to the end of its pass (R95). -/
theorem VoiceUse.elapse_eq (u : VoiceUse) (n : Nat) :
    u.elapse n = { u with sounded := if u.sounding then max u.sounded (min (u.sounded + n) u.passEnd) else u.sounded } := by
  unfold VoiceUse.elapse
  split <;> rfl

theorem VoiceUse.elapse_zero (u : VoiceUse) : u.elapse 0 = u := by
  have h : max u.sounded (min (u.sounded + 0) u.passEnd) = u.sounded := by omega
  rw [VoiceUse.elapse_eq, h, ite_self]

theorem State.elapse_voice_map (s : State) (n i : Nat) : (s.elapse n).voice i = (s.voice i).map fun u => u.elapse n := by
  rw [State.elapse_voice]
  by_cases hn : n = 0
  · simp [hn, VoiceUse.elapse_zero]
  · simp [hn]

/-! ### What an outlet has sent (R42, R127, R147, R157) -/

/-- A span cut at the next frame's start begins with a frame (R147). -/
theorem Span.drop_time_mod (p : Span) : (p.drop ((-p.time) % 48).toNat).time % 48 = 0 := by
  have hframe : ∀ t : Int, (t + (((-t) % 48).toNat : Int)) % 48 = 0 := fun t => by omega
  exact hframe p.time

theorem Outlet.feedEcho_joins {x : Outlet} (h : x.echoSkip = false) (p : Span) : (x.feedEcho p).echoBuf = x.echoBuf ++ [p] :=
  if_neg (by simp [h])

/-- Samples of the frame that a step of group time cut stay out of the echo check. -/
theorem Outlet.feedEcho_skips {x : Outlet} (h : x.echoSkip = true) {p : Span} (hp : p.len ≤ ((-p.time) % 48).toNat) :
    (x.feedEcho p).echoBuf = x.echoBuf :=
  (if_pos h).trans (if_pos hp)

theorem Outlet.feedEcho_resumes {x : Outlet} (h : x.echoSkip = true) {p : Span} (hp : ((-p.time) % 48).toNat < p.len) :
    (x.feedEcho p).echoBuf = x.echoBuf ++ [p.drop ((-p.time) % 48).toNat] :=
  (if_pos h).trans (if_neg (Nat.not_le.2 hp))

section elapse
variable {s : State} {n : Nat} {o : OutletId}

theorem State.elapse_out_pos (hn : 0 < n) : (s.elapse n).out o = s.elapseOutlet n o (s.out o) := by
  rw [State.elapse_out, if_neg (by omega)]

theorem State.elapse_out_unsent (hn : 0 < n) :
    ((s.elapse n).out o).unsent = (s.out o).unsent ++ (if (s.out o).air.sends then [s.mixSpan o n] else []) := by
  rw [State.elapse_out_pos hn, State.elapseOutlet]
  cases (s.out o).air.sends <;> simp

theorem State.elapse_out_silent (hn : 0 < n) (h : (s.out o).air.sends = false) :
    ((s.elapse n).out o).echoBuf = (s.out o).echoBuf ∧ ((s.elapse n).out o).programme = (s.out o).programme := by
  rw [State.elapse_out_pos hn, State.elapseOutlet, if_neg (by simp [h])]
  exact ⟨rfl, rfl⟩

theorem State.elapse_out_echoBuf (hn : 0 < n) (h : (s.out o).air.sends = true) :
    ((s.elapse n).out o).echoBuf = ((s.out o).feedEcho (s.mixSpan o n)).echoBuf := by
  rw [State.elapse_out_pos hn, State.elapseOutlet, if_pos h]

theorem State.elapse_out_programme (hn : 0 < n) (h : (s.out o).air.sends = true) :
    ((s.elapse n).out o).programme = (s.out o).programme.feed (s.mixSpan o n) := by
  rw [State.elapse_out_pos hn, State.elapseOutlet, if_pos h]

theorem State.elapse_out_source (hn : 0 < n) : ((s.elapse n).out o).source = (s.out o).source.feed (s.sourceSpan o n) := by
  rw [State.elapse_out_pos hn, State.elapseOutlet]
  cases (s.out o).air.sends <;> rfl

theorem State.elapse_out_relay (hn : 0 < n) :
    ((s.elapse n).out o).relay = { (s.out o).relay with position := (s.out o).relay.position.map fun p => p + (n : Int) } := by
  rw [State.elapse_out_pos hn, State.elapseOutlet]
  cases (s.out o).air.sends <;> rfl

end elapse

end Sys2Proof.Machine

open Sys2Proof Sys2Proof.Machine

/-- Settles O3, the voices by what one voice sounds, an outlet by what joins each of its buffers. -/
theorem timePasses : Obligations.TimePasses := by
  intro s n
  refine ⟨⟨(s.elapse n).voices, (s.elapse n).outlets, ?_, fun i u hu => ?_, fun i hi => ?_⟩, fun o hn => ?_⟩
  · obtain ⟨d, v, q, e, -⟩ := s.elapse_eq n
    rw [← State.elapse_disc s n, e]
  · rw [State.elapse_voice_map, hu, Option.map_some, VoiceUse.elapse_eq]
  · rw [State.elapse_voice_map, hi, Option.map_none]
  · refine ⟨State.elapse_out_unsent hn, State.elapse_out_silent hn, fun hs => ?_, State.elapse_out_source hn, State.elapse_out_relay hn,
      State.elapse_out_air s n o, State.elapse_out_entries s n o⟩
    refine ⟨?_, State.elapse_out_programme hn hs⟩
    rw [State.elapse_out_echoBuf hn hs]
    exact ⟨fun hskip => Outlet.feedEcho_joins hskip _, fun hskip hle => Outlet.feedEcho_skips hskip hle,
      fun hskip hlt => ⟨Outlet.feedEcho_resumes hskip hlt, Span.drop_time_mod _⟩⟩
end

section
/-! BEACON_SEND (R41, R46, R157, R176, R180, R185). -/

namespace Sys2Proof.Machine

/-! ### The locked capture mask (R176) -/

theorem bitsCode_testBit (l : List Bool) (i : Nat) : (bitsCode l).testBit i = l.getD i false := by
  induction l generalizing i with
  | nil => simp [bitsCode]
  | cons b t ih =>
    unfold bitsCode
    cases i with
    | zero => cases b <;> simp [Nat.testBit_zero]
    | succ i =>
      have hhalf : ((if b then 1 else 0) + 2 * bitsCode t) / 2 = bitsCode t := by split <;> omega
      rw [Nat.testBit_succ, hhalf, ih]
      rfl

theorem bitsCode_lt (l : List Bool) : bitsCode l < 2 ^ l.length := by
  induction l with
  | nil => exact Nat.one_pos
  | cons b t ih =>
    have hbit : (if b then 1 else 0) < 2 := by split <;> omega
    rw [bitsCode, List.length_cons, Nat.pow_succ]
    omega

/-- The bit of a class tells whether its slot is locked. -/
theorem Captures.mask_testBit (c : Captures) (k : FaultClass) : c.mask.testBit (k.code - 1) = (c.slot k).locked := by
  rw [Captures.mask, bitsCode_testBit]
  cases k <;> rfl

theorem Captures.mask_lt (c : Captures) : c.mask < 32 := bitsCode_lt (FaultClass.all.map fun k => (c.slot k).locked)

/-! ### The outlet blocks (R180) -/

/-- What a block carries whatever the air state. -/
theorem State.outletBlock_carries (s : State) (o : OutletId) :
    (s.outletBlock o).letter = o.code ∧ (s.outletBlock o).feed = (s.ocfg o).feed ∧ (s.outletBlock o).rank = (s.ocfg o).rank ∧
      (s.outletBlock o).air = (s.out o).air.code ∧ (s.outletBlock o).mode = modeCode (s.ocfg o).mode ∧
      (s.outletBlock o).leadTag = if s.isFollow o then 0 else (s.out o).leadTag.getD 0 := by
  unfold State.outletBlock
  dsimp only
  split <;> exact ⟨rfl, rfl, rfl, rfl, rfl, rfl⟩

theorem State.outletBlock_dark {s : State} {o : OutletId} (h : (s.out o).air = .dark) :
    (s.outletBlock o).meter = -1200 ∧ (s.outletBlock o).silence = 0 ∧ (s.outletBlock o).clip = 0 ∧ (s.outletBlock o).cue = none ∧
      (s.outletBlock o).echo = none := by
  unfold State.outletBlock
  dsimp only
  rw [if_pos (by simp [h])]
  exact ⟨rfl, rfl, rfl, rfl, rfl⟩

theorem State.outletBlock_lit {s : State} {o : OutletId} (h : (s.out o).air ≠ .dark) :
    ((s.outletBlock o).meter = (s.beaconMeter o).level ∧ (s.outletBlock o).silence = (s.beaconMeter o).detector.code) ∧
      (s.outletBlock o).clip = (s.out o).clipCount ∧ (s.outletBlock o).echo = (s.out o).echo ∧
      (s.outletBlock o).cue = if s.isSelf o then (s.out o).pendingCue else none := by
  unfold State.outletBlock
  dsimp only
  rw [if_neg (by simpa using h)]
  exact ⟨⟨rfl, rfl⟩, rfl, rfl, rfl⟩

/-- A FOLLOW outlet that does not send reports its source meter (R157). -/
theorem State.beaconMeter_eq (s : State) (o : OutletId) :
    s.beaconMeter o = if (s.out o).air.sends = false ∧ s.isFollow o = true then (s.out o).source else (s.out o).programme := by
  unfold State.beaconMeter
  simp only [Bool.and_eq_true, Bool.not_eq_true']

theorem State.beacon_letters (s : State) : s.beacon.blocks.map OutletBlock.letter = [0, 1, 2, 3] := by
  show (OutletId.all.map s.outletBlock).map OutletBlock.letter = OutletId.all.map OutletId.code
  rw [List.map_map]
  exact List.map_congr_left fun o _ => (s.outletBlock_carries o).1

theorem State.beacon_block (s : State) (o : OutletId) : s.beacon.blocks[o.code]? = some (s.outletBlock o) := by cases o <;> rfl

theorem State.sendBeacon_open {s : State} (h : s.isolated = false) :
    s.sendBeacon =
      { s.sends (.beacon s.beacon) with
        beaconSince := s.clock
        outlets := s.outlets.mapId fun _ x => { x with cuePhase := x.cuePhase + 1 } } := by
  rw [State.sendBeacon, State.send_open h]
  rfl

@[simp] theorem State.elapse_out_leadTag (s : State) (n : Nat) (o : OutletId) : ((s.elapse n).out o).leadTag = (s.out o).leadTag := by
  simp only [Outlet.leadTag, State.elapse_out_airOrder]

@[simp] theorem State.elapse_out_pendingCue (s : State) (n : Nat) (o : OutletId) :
    ((s.elapse n).out o).pendingCue = (s.out o).pendingCue := by
  simp only [Outlet.pendingCue, Outlet.pendingBreaks, State.elapse_out_air, State.elapse_out_cuePhase, State.elapse_out_place1,
    State.elapse_out_place2]

end Sys2Proof.Machine

open Sys2Proof Sys2Proof.Machine

/-- Settles O31, the outlet blocks by what each kind of block carries. -/
theorem beaconsAreSent : Obligations.BeaconsAreSent := by
  intro s dt hp hi hdue a
  have hiso : a.isolated = false := (State.elapse_isolated s dt).trans hi
  have hsend : exec (.beaconSend dt) s = .next a.sendBeacon := by
    have hready : (a.beaconDue && !a.isolated) = true := by
      simpa [State.beaconDue, beaconPeriod, a, hi] using hdue
    show execBeaconSend dt s = _
    rw [execBeaconSend, State.run_powered hp, if_pos hready]
  have hdisc : a.disc.trim = s.disc.trim ∧ a.disc.state = s.disc.state ∧ a.disc.groupTime.isSome = s.disc.groupTime.isSome := by
    rw [State.elapse_disc]
    exact ⟨rfl, rfl, Option.isSome_map⟩
  obtain ⟨htrim, hstate, hset⟩ := hdisc
  have hcaptures : a.captures = s.captures := State.elapse_captures s dt
  refine ⟨a.beacon, ?_, rfl, ?_, hset, rfl, htrim, ?_, fun k => ?_, a.captures.mask_lt, a.beacon_letters, fun o => ?_⟩
  · rw [hsend, State.sendBeacon_open hiso]
    rfl
  · show a.boot.code = _
    rw [State.elapse_boot]
    cases s.boot <;> rfl
  · show a.disc.state.code = _
    rw [hstate]
    cases s.disc.state <;> rfl
  · exact (a.captures.mask_testBit k).trans (by rw [hcaptures])
  · obtain ⟨-, hfeed, hrank, hair, hmode, hlead⟩ := a.outletBlock_carries o
    simp only [a, State.elapse_ocfg, State.elapse_isFollow, State.elapse_out_air, State.elapse_out_leadTag] at hfeed hrank hair hmode hlead
    refine ⟨_, a.beacon_block o, hfeed, hrank, hair, ?_, hlead, fun hdark => ?_, fun hlit => ?_⟩
    · rw [hmode]
      cases (s.ocfg o).mode with
      | none => rfl
      | some m => cases m <;> rfl
    · exact State.outletBlock_dark ((State.elapse_out_air s dt o).trans hdark)
    · obtain ⟨hmeter, hclip, hecho, hcue⟩ := State.outletBlock_lit (s := a) (o := o) (by simpa [a] using hlit)
      rw [State.beaconMeter_eq] at hmeter
      simp only [a, State.elapse_out_air, State.elapse_isFollow, State.elapse_isSelf, State.elapse_out_echo, State.elapse_out_pendingCue,
        Outlet.clipCount, State.elapse_out_clip] at hmeter hclip hecho hcue
      exact ⟨hmeter, hclip, hecho, hcue⟩
end

section
/-! Multipliers, ramps and the mix (R37 to R41, R73, R77, R95, R101). -/

namespace Sys2Proof.Machine

/-! ### Multipliers (R37, R38) -/

theorem multiplier_clamped (g : Int) : multiplier g = multiplier (max (-48) (min 12 g)) := by
  have hclamp : clampTrim g = clampTrim (max (-48) (min 12 g)) := by
    unfold clampTrim
    omega
  rw [multiplier, multiplier, hclamp]

/-- The table's gains: each the exact value or the next integer above it. -/
theorem multiplier_gain : ∀ k ∈ List.range 13, 1 ≤ k →
    (multiplier k - 1) ^ 40 < 16384 ^ 40 * 10 ^ k ∧ (16384 : Int) ^ 40 * 10 ^ k ≤ multiplier k ^ 40 := by decide +kernel

/-- The table's losses: each the exact value or the next integer below it. -/
theorem multiplier_loss : ∀ k ∈ List.range 49, 1 ≤ k →
    multiplier (-k) ^ 40 * 10 ^ k ≤ 16384 ^ 40 ∧ (16384 : Int) ^ 40 < (multiplier (-k) + 1) ^ 40 * 10 ^ k := by decide +kernel

/-! ### Ramps (R40) -/

theorem Ramp.value_end {r : Ramp} {k : Nat} (h : r.n ≤ k) : r.value (r.start + k) = r.m1 := by
  rw [Ramp.value, if_neg (by omega), if_pos (by omega)]

theorem Ramp.value_along {r : Ramp} {k : Nat} (h : k < r.n) :
    r.value (r.start + k) = r.m0 + ((r.m1 - r.m0) * (k : Int)).tdiv (r.n : Int) := by
  rw [Ramp.value, if_neg (by omega), if_neg (by omega), Nat.add_sub_cancel_left]

/-- Truncated division: the quotient's magnitude rounds down, and its sign is the dividend's. -/
theorem tdiv_truncates (d : Int) {n : Nat} (hn : 0 < n) :
    (d.tdiv n).natAbs * n ≤ d.natAbs ∧ d.natAbs < ((d.tdiv n).natAbs + 1) * n ∧ 0 ≤ d.tdiv n * d := by
  have habs : (d.tdiv n).natAbs = d.natAbs / n := Int.natAbs_tdiv d n
  rw [habs]
  refine ⟨Nat.div_mul_le_self _ _, ?_, ?_⟩
  · rw [Nat.mul_comm]
    exact Nat.lt_mul_div_succ _ hn
  · rcases le_total 0 d with hd | hd
    · exact mul_nonneg (Int.tdiv_nonneg hd (Int.natCast_nonneg n)) hd
    · refine mul_nonneg_of_nonpos_of_nonpos ?_ hd
      have hneg := Int.tdiv_nonneg (Int.neg_nonneg_of_nonpos hd) (Int.natCast_nonneg n)
      rw [Int.neg_tdiv] at hneg
      omega

theorem VoiceUse.rampOut_keeps {w : VoiceUse} {clock n : Nat} (hr : w.state = .ramping) (hs : w.mult.stop ≤ clock + n) :
    w.rampOut clock n = w := by
  rw [VoiceUse.rampOut, if_pos (by simp [hr, hs])]

theorem VoiceUse.rampOut_replaces {w : VoiceUse} {clock n : Nat} (h : w.sounding = true) (hs : w.state = .playing ∨ clock + n < w.mult.stop) :
    w.rampOut clock n = { w with state := .ramping, mult := w.mult.retarget clock 0 n } := by
  have hnot : ¬ (w.state == .ramping && decide (w.mult.stop ≤ clock + n)) = true := by
    simp only [Bool.and_eq_true, beq_iff_eq, decide_eq_true_eq]
    rintro ⟨hr, hle⟩
    rcases hs with hs | hs
    · rw [hr] at hs
      cases hs
    · omega
  rw [VoiceUse.rampOut, if_neg hnot, if_pos h]

/-! ### The mix (R41) -/

/-- The exact sum of sample frames, channel by channel. -/
theorem SampleFrame.foldl_add (l : List SampleFrame) (f : SampleFrame) :
    (l.foldl SampleFrame.add f).l = f.l + (l.map SampleFrame.l).sum ∧ (l.foldl SampleFrame.add f).r = f.r + (l.map SampleFrame.r).sum := by
  induction l generalizing f with
  | nil => simp
  | cons g t ih =>
    obtain ⟨hl, hr⟩ := ih (f.add g)
    rw [List.foldl_cons, hl, hr]
    simp only [SampleFrame.add, List.map_cons, List.sum_cons]
    omega

theorem SampleFrame.scale_zero (m : Int) : SampleFrame.zero.scale m = .zero := by
  have hzero : scale 0 m = 0 := by
    rw [scale, zero_mul]
    rfl
  simp only [SampleFrame.scale, SampleFrame.zero, hzero]

theorem Span.samples_getElem {p : Span} {n k : Nat} (h : k < n) : (p.samples n)[k]? = some (p.mix k) := by
  simp [Span.samples, h]

/-- The sounding voices of an outlet are those its next samples are mixed from. -/
theorem State.mixSpan_voices (s : State) (o : OutletId) (n : Nat) :
    (s.mixSpan o n).voices = (s.voices.filterMap Voice.use).filter fun w => w.outlet == o && w.sounding :=
  List.filter_filterMap.symm

section relay
variable {v : RelayView} {clock k : Nat}

/-- Inside the present slot the relay adds its sample by both ramps (R73, R77). -/
theorem RelayView.contribution_present {f : Time} {samples : List SampleFrame} (h : v.slot = some (f, some samples))
    (hf : f ≤ v.position + k ∧ v.position + k < f + 48) :
    v.contribution clock k = ((samples.getD (v.position + k - f).toNat .zero).scale (v.conceal.value (clock + k))).scale (v.mult.value (clock + k)) := by
  unfold RelayView.contribution RelayView.source
  rw [h]
  dsimp only
  rw [if_pos hf]

theorem RelayView.contribution_past {f : Time} {samples : List SampleFrame} (h : v.slot = some (f, some samples))
    (hf : ¬ (f ≤ v.position + k ∧ v.position + k < f + 48)) : v.contribution clock k = .zero := by
  unfold RelayView.contribution RelayView.source
  rw [h]
  dsimp only
  rw [if_neg hf, SampleFrame.scale_zero]

/-- A missing slot adds nothing (R73). -/
theorem RelayView.contribution_missing (h : ∀ f samples, v.slot ≠ some (f, some samples)) : v.contribution clock k = .zero := by
  have hsource : v.source clock k = .zero := by
    unfold RelayView.source
    split
    · rename_i f samples e
      exact absurd e (h f samples)
    · rfl
  rw [RelayView.contribution, hsource, SampleFrame.scale_zero]

end relay

/-- What the relay adds to an outlet's mix `k` samples on. -/
def State.relayAdds (s : State) (o : OutletId) (k : Nat) : SampleFrame :=
  ((s.relayView o).map fun v => v.contribution s.clock k).getD .zero

theorem State.mixSpan_mix (s : State) (o : OutletId) (n k : Nat) :
    ((s.mixSpan o n).mix k).l = (s.relayAdds o k).l + ((s.mixSpan o n).voices.map fun w => (w.contribution s.clock k).l).sum ∧
      ((s.mixSpan o n).mix k).r = (s.relayAdds o k).r + ((s.mixSpan o n).voices.map fun w => (w.contribution s.clock k).r).sum := by
  have hmix : (s.mixSpan o n).mix k =
      ((s.mixSpan o n).voices.map fun w => w.contribution s.clock k).foldl SampleFrame.add (s.relayAdds o k) := by
    unfold Span.mix State.relayAdds
    show List.foldl _ (match s.relayView o with | some v => v.contribution s.clock k | none => .zero) _ = _
    cases s.relayView o <;> rfl
  obtain ⟨hl, hr⟩ := SampleFrame.foldl_add ((s.mixSpan o n).voices.map fun w => w.contribution s.clock k) (s.relayAdds o k)
  rw [List.map_map] at hl hr
  rw [hmix]
  exact ⟨hl, hr⟩

theorem State.relayAdds_self {s : State} {o : OutletId} (h : s.isFollow o = false) (k : Nat) : s.relayAdds o k = .zero := by
  rw [State.relayAdds, State.relayView, if_neg (by simp [h])]
  rfl

theorem State.relayAdds_follow {s : State} {o : OutletId} (h : s.isFollow o = true) (k : Nat) :
    s.relayAdds o k =
      RelayView.contribution
        { position := (s.out o).relay.position.getD 0, slot := (s.out o).relay.slot, conceal := (s.out o).relay.conceal,
          mult := (s.out o).relay.mult } s.clock k := by
  rw [State.relayAdds, State.relayView, if_pos h]
  rfl

end Sys2Proof.Machine

open Sys2Proof Sys2Proof.Machine

/-- Settles O35, the table of multipliers by its entries, each rule of ramps by its cases, and the mix as a sum over what sounds. -/
theorem multipliersScaleEachChannel : Obligations.MultipliersScaleEachChannel := by
  refine ⟨by decide, multiplier_clamped, fun k h1 h2 => multiplier_gain k (List.mem_range.2 (by omega)) h1,
    fun k h1 h2 => multiplier_loss k (List.mem_range.2 (by omega)) h1,
    fun f m => ⟨roundDiv_rounds _ (by omega), roundDiv_rounds _ (by omega)⟩, fun r k => ⟨Ramp.value_end, fun hk => ?_, fun _ _ => rfl⟩,
    fun w clock n hs => ⟨VoiceUse.rampOut_keeps, VoiceUse.rampOut_replaces hs⟩,
    fun w clock k => ⟨fun h => if_pos h, fun h => if_neg (by omega)⟩, fun s o n k hk => ?_⟩
  · have hmoved : r.value (r.start + k) - r.m0 = ((r.m1 - r.m0) * (k : Int)).tdiv (r.n : Int) := by
      rw [Ramp.value_along hk]
      omega
    dsimp only
    rw [hmoved]
    exact tdiv_truncates _ (by omega)
  · intro voices relay
    obtain ⟨hl, hr⟩ := s.mixSpan_mix o n k
    rw [State.mixSpan_voices] at hl hr
    suffices hrelay : s.relayAdds o k = relay from
      ⟨_, Span.samples_getElem hk, by rw [hl, hrelay], by rw [hr, hrelay]⟩
    simp only [relay]
    cases hf : s.isFollow o with
    | false =>
      rw [State.relayAdds_self hf]
      rfl
    | true =>
      rw [State.relayAdds_follow hf]
      cases hslot : (s.out o).relay.slot with
      | none => exact RelayView.contribution_missing fun f samples e => by cases e
      | some q =>
        obtain ⟨f, _ | samples⟩ := q
        · exact RelayView.contribution_missing fun f samples e => by cases e
        · dsimp only
          split
          · rename_i hin
            exact RelayView.contribution_present rfl hin
          · rename_i hout
            exact RelayView.contribution_past rfl hout
end

section
/-! AUDIO_FRAME_SEND (R41, R127, R179). -/

namespace Sys2Proof.Machine

/-! ### Limits (R41) -/

theorem limit24_bounds (x : Int) : -8388608 ≤ limit24 x ∧ limit24 x ≤ 8388607 := by
  unfold limit24
  omega

/-! ### A span without its first samples -/

theorem VoiceUse.contribution_later (u : VoiceUse) (clock n k : Nat) :
    ({ u with sounded := u.sounded + n } : VoiceUse).contribution (clock + n) k = u.contribution clock (n + k) := by
  unfold VoiceUse.contribution
  rw [← Nat.add_assoc u.sounded n k, ← Nat.add_assoc clock n k]
  rfl

theorem RelayView.contribution_later (v : RelayView) (clock n k : Nat) :
    ({ v with position := v.position + n } : RelayView).contribution (clock + n) k = v.contribution clock (n + k) := by
  unfold RelayView.contribution RelayView.source
  rw [Int.natCast_add, ← Int.add_assoc v.position, ← Nat.add_assoc clock n k]

/-- The samples of a span that begins `n` samples on are the span's own from there (R95, R73). -/
theorem Span.mix_drop (p : Span) (n k : Nat) : (p.drop n).mix k = p.mix (n + k) := by
  have hvoices : ((p.drop n).voices.map fun u => u.contribution (p.drop n).clock k) = p.voices.map fun u => u.contribution p.clock (n + k) := by
    show (p.voices.map _).map _ = _
    rw [List.map_map]
    exact List.map_congr_left fun u _ => u.contribution_later p.clock n k
  unfold Span.mix
  rw [hvoices]
  cases hr : p.relay with
  | none => simp only [Span.drop, hr, Option.map_none]
  | some v =>
    simp only [Span.drop, hr, Option.map_some]
    rw [v.contribution_later]

theorem Span.samples_take {p : Span} {n : Nat} (h : n ≤ p.len) : p.samples n = (p.samples p.len).take n := by
  rw [Span.samples, Span.samples, ← List.map_take, List.take_range, min_eq_left h]

theorem Span.samples_length (p : Span) (n : Nat) : (p.samples n).length = n := by simp [Span.samples]

theorem Span.samples_drop (p : Span) (n : Nat) : (p.drop n).samples (p.drop n).len = (p.samples p.len).drop n := by
  refine List.ext_getElem (by simp [Span.samples, Span.drop]) fun k _ _ => ?_
  simp [Span.samples, Span.mix_drop]

/-! ### Samples taken from the front (R127) -/

/-- Samples of one spell are taken in order, and those left follow them. -/
theorem takeSamples_spell (l : List Span) (stop : Bool) (n : Nat) (hs : stop = true → ∀ q ∈ l, q.first = false)
    (h : ∀ q ∈ l.drop 1, q.first = false) :
    (takeSamples stop n l).1 = (l.flatMap fun p => p.samples p.len).take n ∧
      ((takeSamples stop n l).2.flatMap fun p => p.samples p.len) = (l.flatMap fun p => p.samples p.len).drop n := by
  induction l generalizing stop n with
  | nil => simp [takeSamples]
  | cons p t ih =>
    have hgo : (stop && p.first) = false := by
      cases stop with
      | false => rfl
      | true => exact hs rfl p List.mem_cons_self
    unfold takeSamples
    rw [hgo, Bool.or_false, List.flatMap_cons]
    split
    · rename_i hn
      have hn : n = 0 := by simpa using hn
      subst hn
      exact ⟨rfl, rfl⟩
    · split
      · rename_i hle
        obtain ⟨htake, hdrop⟩ := ih true (n - p.len) (fun _ => h) fun q hq => h q (List.mem_of_mem_drop hq)
        have hlen : (p.samples p.len).length ≤ n := by rwa [Span.samples_length]
        dsimp only
        rw [htake, hdrop, List.take_append, List.drop_append, Span.samples_length, List.take_of_length_le hlen,
          List.drop_of_length_le hlen]
        exact ⟨rfl, rfl⟩
      · rename_i hlt
        have hlt : n ≤ p.len := by omega
        dsimp only
        rw [List.flatMap_cons, Span.samples_drop, List.take_append_of_le_length (by rwa [Span.samples_length]),
          List.drop_append_of_le_length (by rwa [Span.samples_length])]
        exact ⟨Span.samples_take hlt, rfl⟩

theorem spellLen_whole {l : List Span} {stop : Bool} (hs : stop = true → ∀ q ∈ l, q.first = false) (h : ∀ q ∈ l.drop 1, q.first = false) :
    spellLen stop l = spansLen l := by
  induction l generalizing stop with
  | nil => rfl
  | cons p t ih =>
    have hgo : (stop && p.first) = false := by
      cases stop with
      | false => rfl
      | true => exact hs rfl p List.mem_cons_self
    rw [spellLen, hgo, if_neg Bool.false_ne_true, ih (fun _ => h) fun q hq => h q (List.mem_of_mem_drop hq)]
    simp [spansLen]

/-! ### The frame at the front (R127, R179) -/

/-- Zeros before a span's first sample: those of its slot before the outlet began. -/
def Span.lead (p : Span) : Nat := if p.first then (p.time % 48).toNat else 0

section front
variable {s : State} {o : OutletId} {p : Span} {rest : List Span}

theorem State.sendAudio_nothing (h : (s.out o).unsent = []) (ended : Bool) : s.sendAudio o ended = s := by
  unfold State.sendAudio Outlet.frontFrame
  rw [h]
  rfl

theorem Outlet.frontFrame_cons {x : Outlet} (h : x.unsent = p :: rest) :
    x.frontFrame = some (p, p.lead, spellLen false x.unsent,
      decide (spellLen false x.unsent < spansLen x.unsent) || !x.air.sends) := by
  unfold Outlet.frontFrame
  rw [h]
  rfl

/-- The frame of a slot that is whole, or at whose end the spell has ended. -/
theorem State.sendAudio_sends (h : (s.out o).unsent = p :: rest)
    (hwhole : 48 ≤ p.lead + spellLen false (s.out o).unsent ∨ spellLen false (s.out o).unsent < spansLen (s.out o).unsent ∨
      (s.out o).air.sends = false) :
    let raw := (takeSamples false (48 - p.lead) (s.out o).unsent).1
    s.sendAudio o false =
      (s.setOut o
        { s.out o with
          unsent := (takeSamples false (48 - p.lead) (s.out o).unsent).2
          clip := min 4294967295 ((s.out o).clip + (raw.map SampleFrame.clips).sum) }).send
        (.audio (s.audioBody o p p.lead (silence p.lead ++ raw.map SampleFrame.limited ++ silence (48 - p.lead - raw.length)))) := by
  unfold State.sendAudio
  rw [Outlet.frontFrame_cons h]
  dsimp only
  rw [if_pos]
  · rfl
  · rcases hwhole with hw | hw | hw
    · simp [show 48 - p.lead ≤ spellLen false (s.out o).unsent by omega]
    · simp [hw]
    · simp [hw]

theorem State.sendAudio_waits (h : (s.out o).unsent = p :: rest) (hshort : p.lead + spellLen false (s.out o).unsent < 48)
    (hspell : spellLen false (s.out o).unsent = spansLen (s.out o).unsent) (hsends : (s.out o).air.sends = true) :
    s.sendAudio o false = s := by
  unfold State.sendAudio
  rw [Outlet.frontFrame_cons h]
  dsimp only
  rw [if_neg]
  rw [hspell] at hshort
  simp only [hspell, hsends, lt_irrefl, decide_false, Bool.not_true, Bool.or_false, decide_eq_true_eq]
  omega

end front

/-- The fields of the frame at the front; without an actual start of its lead the entry offset is 0 (notes/assumptions/48.md). -/
theorem State.audioBody_eq (s : State) (o : OutletId) (p : Span) (lead : Nat) (samples : List SampleFrame) :
    s.audioBody o p lead samples =
      { feed := (s.ocfg o).feed, letter := o.code, rank := p.ctx.rank, fallback := p.ctx.fallback, yielding := p.ctx.yielding,
        frameTime := p.time - lead, leadTag := p.ctx.leadTag,
        entryOffset := (p.ctx.leadBase.map fun b => max 0 (p.time - lead - b)).getD 0, breakTag := p.ctx.breakTag,
        breakOffset := if p.ctx.breakTag = 0 then 0 else max 0 (p.ctx.breakOffset - lead), samples := samples } := by
  unfold State.audioBody
  cases p.ctx.leadBase <;> rfl

end Sys2Proof.Machine

open Sys2Proof Sys2Proof.Machine

/-- Settles O44, the frame by what stands at the front of the samples to be framed. -/
theorem audioFramesAreSent : Obligations.AudioFramesAreSent := by
  refine ⟨fun f => ⟨limit24_bounds _, limit24_bounds _⟩, fun n l h => takeSamples_spell l false n nofun h, fun s dt o hp hi => ?_⟩
  intro a waiting
  have hexec : exec (.audioFrameSend dt o) s = .next (a.sendAudio o false) := State.run_powered hp dt fun s => s.sendAudio o false
  have hair : (a.out o).air = (s.out o).air := State.elapse_out_air s dt o
  rw [hexec]
  refine ⟨fun hempty => by rw [State.sendAudio_nothing hempty], fun p rest hfront => ?_⟩
  intro lead raw
  refine ⟨fun hwhole => ?_, fun hshort hrest hsends => ?_⟩
  · rw [State.sendAudio_sends hfront (by rw [hair]; exact hwhole),
      State.send_open (s := a.setOut o _) ((State.elapse_isolated s dt).trans hi), State.audioBody_eq, State.elapse_ocfg, State.elapse_out_clip]
    rfl
  · have hspell : spellLen false waiting = spansLen waiting := spellLen_whole nofun (by rw [hfront]; exact hrest)
    rw [State.sendAudio_waits hfront (by rw [hspell]; exact hshort) hspell (by rw [hair]; exact hsends)]
end

section
/-! FIRE_LINE_INPUT and FIRE_LINE_STABLE (R32 to R35, R92). -/

namespace Sys2Proof.Machine

/-! ### A line and its input (R32) -/

section line
variable {s : State} {n : Nat} {l : FireLine}

theorem State.line_of (h : s.lines[n]? = some l) : s.line n = l := by
  simp [State.line, List.getD_eq_getElem?_getD, h]

theorem State.modLine_of (h : s.lines[n]? = some l) (f : FireLine → FireLine) : s.modLine n f = { s with lines := s.lines.set n (f l) } := by
  rw [State.modLine, List.modify_eq_set_getElem?, h]
  rfl

theorem State.lineCfg_of {c : LineCfg} (h : s.cfg.lines[n]? = some c) : s.lineCfg n = c := by
  simp [State.lineCfg, List.getD_eq_getElem?_getD, h]

end line

section input
variable {l : FireLine} {clock : Nat}

theorem FireLine.input_idle (h : l.state = .idle) : l.input true clock = { l with state := .pressing, active := true, since := clock } := by
  unfold FireLine.input
  simp only [h]

theorem FireLine.input_pressing (h : l.state = .pressing) : l.input false clock = { l with state := .idle, active := false } := by
  unfold FireLine.input
  simp only [h]

theorem FireLine.input_held (h : l.state = .held) : l.input false clock = { l with state := .waitRelease, active := false, since := clock } := by
  unfold FireLine.input
  simp only [h]

theorem FireLine.input_waitRelease (h : l.state = .waitRelease) (active : Bool) :
    l.input active clock = { l with active := active, since := clock } := by
  unfold FireLine.input
  simp only [h]

end input

/-- What FIRE_LINE_INPUT does on a line: an enabled one takes a changed level as its state has it, a disabled one keeps the level alone. -/
theorem exec_fireLineInput {s : State} (hp : s.powered = true) (dt : Nat) {n : Fin 8} {l : FireLine} {c : LineCfg}
    (hl : s.lines[n.val]? = some l) (hc : s.cfg.lines[n.val]? = some c) (active : Bool) :
    exec (.fireLineInput dt n active) s =
      .next
        (if l.active = active then s.elapse dt
         else
          { s.elapse dt with
            lines := s.lines.set n.val (if c.enabled = true then l.input active (s.clock + dt) else { l with active := active }) }) := by
  have hline : (s.elapse dt).lines[n.val]? = some l := by rwa [State.elapse_lines]
  have hcfg : (s.elapse dt).lineCfg n.val = c := State.lineCfg_of (by rwa [State.elapse_cfg])
  have hmod : ∀ f, (s.elapse dt).modLine n.val f = { s.elapse dt with lines := s.lines.set n.val (f l) } := fun f => by
    rw [State.modLine_of hline, State.elapse_lines]
  show execFireLineInput dt n active s = _
  rw [execFireLineInput, State.run_powered hp, State.line_of hline, hcfg, State.elapse_clock, hmod, hmod]
  congr 2
  split <;> rfl

/-! ### A level that was held (R32) -/

/-- FIRE_LINE_STABLE settles an enabled line whose level has been held for 960 samples, and else does nothing. -/
theorem exec_fireLineStable {s : State} (hp : s.powered = true) (dt : Nat) {n : Fin 8} {l : FireLine} {c : LineCfg}
    (hl : s.lines[n.val]? = some l) (hc : s.cfg.lines[n.val]? = some c) :
    exec (.fireLineStable dt n) s =
      .next (if c.enabled = true ∧ l.since + 960 ≤ s.clock + dt then (s.elapse dt).settleLine n.val else s.elapse dt) := by
  show execFireLineStable dt n s = _
  rw [execFireLineStable, State.run_powered hp, State.line_of (by rwa [State.elapse_lines]),
    State.lineCfg_of (s := s.elapse dt) (by rwa [State.elapse_cfg])]
  simp only [FireLine.stable, stableTime, State.elapse_clock, Bool.and_eq_true, decide_eq_true_eq]

section settle
variable {s : State} {n : Nat} {l : FireLine}

theorem State.settleLine_released (hl : s.lines[n]? = some l) (hs : l.state = .waitRelease) (ha : l.active = false) :
    s.settleLine n = { s with lines := s.lines.set n { l with state := .idle } } := by
  unfold State.settleLine
  rw [State.line_of hl]
  simp only [hs, ha]
  rw [State.modLine_of hl, ha]

theorem State.settleLine_pressed (hl : s.lines[n]? = some l) (hs : l.state = .pressing) (ha : l.active = true) :
    s.settleLine n = (({ s with lines := s.lines.set n { l with state := .held } } : State).fire n).finish s := by
  unfold State.settleLine
  rw [State.line_of hl]
  simp only [hs, ha]
  rw [State.modLine_of hl, ha]

theorem State.settleLine_stays (hl : s.lines[n]? = some l)
    (h : l.state = .idle ∨ l.state = .held ∨ (l.state = .waitRelease ∧ l.active = true) ∨ (l.state = .pressing ∧ l.active = false)) :
    s.settleLine n = s := by
  unfold State.settleLine
  rw [State.line_of hl]
  rcases h with h | h | ⟨h, ha⟩ | ⟨h, ha⟩
  · simp only [h]
  · simp only [h]
  · simp only [h, ha]
  · simp only [h, ha]

end settle

/-! ### Whether a fire may be made (R33) -/

/-- The outlet is SELF and ON_AIR, and none of its entries is a BREAK on the air (R33). -/
def State.MayFire (s : State) (o : OutletId) : Prop :=
  s.isSelf o = true ∧ (s.out o).air = .onAir ∧ ∀ e ∈ (s.out o).entries, e.isBreak = true → e.state ≠ .onAir

theorem State.fireVersion_may {s : State} {o : OutletId} (h : s.MayFire o) (cart : Nat) : s.fireVersion o cart = s.store.usable cart := by
  obtain ⟨hself, hair, hbreak⟩ := h
  have hquiet : (s.out o).breakOnAir = false := by simpa [Outlet.breakOnAir] using hbreak
  unfold State.fireVersion
  dsimp only
  rw [if_pos (by simp [hself, hair, hquiet])]

theorem State.fireVersion_mayNot {s : State} {o : OutletId} (h : ¬ s.MayFire o) (cart : Nat) : s.fireVersion o cart = none := by
  unfold State.fireVersion
  dsimp only
  rw [if_neg]
  intro hgo
  simp only [Bool.and_eq_true, beq_iff_eq, Bool.not_eq_true'] at hgo
  obtain ⟨⟨hself, hair⟩, hquiet⟩ := hgo
  exact h ⟨hself, hair, by simpa [Outlet.breakOnAir] using hquiet⟩

section fire
variable {s : State} {n : Nat} {l : FireLine} {c : LineCfg} {v : Version}

/-- A line mapped to a DARK outlet makes no fire (R32). -/
theorem State.fire_dark (hc : s.lineCfg n = c) (hair : (s.out c.outlet).air = .dark) : s.fire n = s := by
  unfold State.fire
  dsimp only
  rw [hc, if_neg (by simp [hair])]

theorem State.fire_refused (hc : s.lineCfg n = c) (hen : c.enabled = true) (hair : (s.out c.outlet).air ≠ .dark)
    (hv : s.fireVersion c.outlet c.cart = none) : s.fire n = s.refuseFire c.outlet c.cart := by
  unfold State.fire
  dsimp only
  rw [hc, if_pos (by simp [hen, hair]), hv]

theorem State.fire_fresh (hc : s.lineCfg n = c) (hen : c.enabled = true) (hair : (s.out c.outlet).air ≠ .dark)
    (hv : s.fireVersion c.outlet c.cart = some v) (hl : s.lines[n]? = some l) (hcur : l.current = none) :
    s.fire n = s.freshFire n c.outlet v := by
  unfold State.fire
  dsimp only
  rw [hc, if_pos (by simp [hen, hair]), hv, State.line_of hl, hcur]

theorem State.fire_again {f : Instant} (hc : s.lineCfg n = c) (hen : c.enabled = true) (hair : (s.out c.outlet).air ≠ .dark)
    (hv : s.fireVersion c.outlet c.cart = some v) (hl : s.lines[n]? = some l) (hcur : l.current = some f) :
    s.fire n = s.refire n c.outlet v f := by
  unfold State.fire
  dsimp only
  rw [hc, if_pos (by simp [hen, hair]), hv, State.line_of hl, hcur]

end fire

/-! ### A refused fire (R33) -/

/-- A refused fire writes one record, of an instant that was REFUSED, and changes no line. -/
theorem State.refuseFire_writes (s : State) (o : OutletId) (cart : Nat) :
    (s.refuseFire o cart).lines = s.lines ∧
      ∃ r : Record, s.log.Wrote (s.refuseFire o cart).log [r] ∧ r.source = .instant ∧ r.outcome = .refused ∧ r.outlet = o ∧ r.cart = cart ∧
        r.planned = some s.now ∧ r.actual = none := by
  obtain ⟨lg, tl, e, r, hw, hr⟩ := s.record_eq o
    { Record.blank .instant .refused with
      cart := cart, serial := ((s.store.current cart).map Version.serial).getD 0, planned := some s.now } none
  rw [State.refuseFire, e]
  exact ⟨rfl, r, hw, congrArg Record.source hr, congrArg Record.outcome hr, congrArg Record.outlet hr, congrArg Record.cart hr,
    congrArg Record.planned hr, congrArg Record.actual hr⟩

/-! ### The voice of a fire (R33, R89, R92, R93) -/

theorem State.voiceFor_eq_none {s : State} {o : OutletId} :
    s.voiceFor o = none ↔ ∀ z ∈ s.voices, z.use = none → z.reserved ≠ some o ∧ z.reserved ≠ none := by
  refine ⟨fun h z hz hu => ?_, State.voiceFor_none⟩
  have hfound : ∀ r, z.reserved = r → s.freeVoice r ≠ none := fun r hr => by
    unfold State.freeVoice
    dsimp only
    rw [if_pos (List.findIdx_lt_length_of_exists ⟨z, hz, by simp [hu, hr]⟩)]
    exact Option.some_ne_none _
  unfold State.voiceFor at h
  cases hown : s.freeVoice (some o) with
  | some i => rw [hown] at h; cases h
  | none =>
    rw [hown] at h
    exact ⟨fun hr => hfound _ hr hown, fun hr => hfound _ hr h⟩

/-- Passing samples neither free a voice nor take one. -/
theorem State.elapse_voiceFor_none (s : State) (dt : Nat) (o : OutletId) :
    (s.elapse dt).voiceFor o = none ↔ ∀ z ∈ s.voices, z.use = none → z.reserved ≠ some o ∧ z.reserved ≠ none := by
  rw [State.voiceFor_eq_none]
  refine ⟨fun h z hz hu => ?_, fun h => State.elapse_free h dt⟩
  unfold State.elapse at h
  split at h
  · exact h z hz hu
  · exact h { z with use := z.use.map fun u => u.elapse dt } (List.mem_map_of_mem hz) (by simp [hu])

/-- A voice of an instant as it begins to prime: on the version's in-cue, nothing sounded (R33, R93). -/
structure VoiceUse.Primes (w : VoiceUse) (o : OutletId) (n : Nat) (v : Version) : Prop where
  outlet : w.outlet = o
  holder : w.holder = .line n
  cart : w.cart = v.cart
  serial : w.serial = v.serial
  startPos : w.startPos = v.inCue
  sounded : w.sounded = 0
  state : w.state = .priming ∨ w.state = .primed

theorem freshUse_primes (o : OutletId) (n : Nat) (v : Version) (t : Time) : (freshUse o (.line n) v v.inCue false t).Primes o n v := by
  unfold freshUse
  extract_lets u
  split
  · exact ⟨rfl, rfl, rfl, rfl, rfl, rfl, .inl rfl⟩
  · exact ⟨rfl, rfl, rfl, rfl, rfl, rfl, .inr rfl⟩

theorem State.voice_setVoice_lt {s : State} {i : Nat} (h : i < s.voices.length) (u : Option VoiceUse) : (s.setVoice i u).voice i = u := by
  simp [State.voice, State.setVoice, List.getElem?_modify_eq, List.getElem?_eq_getElem h]

/-- Priming changes the voice that primes and the use counts alone. -/
theorem State.prime_eq (s : State) (i : Nat) (o : OutletId) (h : Holder) (v : Version) (p : Nat) (lp : Bool) (t : Time) :
    ∃ st, s.prime i o h v p lp t = ({ s with store := st } : State).setVoice i (some (freshUse o h v p lp t)) := ⟨_, rfl⟩

theorem State.prime_voice {s : State} {i : Nat} (hi : i < s.voices.length) (o : OutletId) (h : Holder) (v : Version) (p : Nat) (lp : Bool)
    (t : Time) : (s.prime i o h v p lp t).voice i = some (freshUse o h v p lp t) := by
  obtain ⟨st, e⟩ := s.prime_eq i o h v p lp t
  rw [e]
  exact State.voice_setVoice_lt (s := { s with store := st }) hi _

/-- The line's voice takes up the new instant's version (R92). -/
theorem State.reprime_voice {s : State} {i : Nat} {w : VoiceUse} (hw : s.voice i = some w) (n : Nat) (o : OutletId) (v : Version) (t : Time) :
    (s.reprime i n o v t).voice i = some (freshUse o (.line n) v v.inCue false t) := by
  unfold State.reprime
  rw [hw]
  exact State.voice_setVoice_self (w := w) hw _

theorem State.reprime_leaves (s : State) (i n : Nat) (o : OutletId) (v : Version) (t : Time) :
    (s.reprime i n o v t).log = s.log ∧ (s.reprime i n o v t).lines = s.lines := by
  unfold State.reprime
  split <;> exact ⟨rfl, rfl⟩

theorem State.recordInstant_leaves (s : State) (o : OutletId) (n : Nat) (f : Instant) (out : Outcome) (rep : VoiceReport) :
    (s.recordInstant o n f out rep).lines = s.lines ∧ (s.recordInstant o n f out rep).voices = s.voices := by
  obtain ⟨lg, tl, e, -⟩ := s.recordInstant_eq o n f out rep
  rw [e]
  exact ⟨rfl, rfl⟩

section fresh
variable {s : State} {n i : Nat} {l : FireLine} {o : OutletId} {v : Version}

theorem State.freshFire_refused (h : s.voiceFor o = none) (n : Nat) (v : Version) :
    s.freshFire n o v = (s.refuseFire o v.cart).latch { FaultInfo.bare .noVoice with outlet := some o, cart := some (v.cart, 0) } := by
  unfold State.freshFire
  rw [h]

theorem State.freshFire_primes (h : s.voiceFor o = some i) (hl : s.lines[n]? = some l) (v : Version) :
    (s.freshFire n o v).lines =
        s.lines.set n { l with current := some { cart := v.cart, serial := v.serial, fire := s.now, waiting := false, actual := none } } ∧
      (s.freshFire n o v).voice i = some (freshUse o (.line n) v v.inCue false s.now) := by
  unfold State.freshFire
  rw [h]
  dsimp only
  rw [State.modLine_of (s := s.prime i o _ v _ _ _) hl]
  exact ⟨rfl, State.prime_voice (State.voiceFor_lt h) ..⟩

end fresh

theorem Store.usable_cart {st : Store} {c : Nat} {v : Version} (h : st.usable c = some v) : v.cart = c := by
  have hv := List.find?_some (Option.filter_eq_some_iff.1 h).1
  simp only [Bool.and_eq_true, beq_iff_eq] at hv
  exact hv.1

/-! ### A re-fire (R35) -/

section refire
variable {s : State} {n : Nat} {l : FireLine} {o : OutletId} {v : Version} {f : Instant}

/-- A sounding instant ramps out over 480 samples, and the new one waits for its voice. -/
theorem State.refire_sounding (hf : f.actual.isSome = true) (hl : s.lines[n]? = some l) :
    (s.refire n o v f).log = s.log ∧
      (s.refire n o v f).lines = s.lines.set n
        { l with old := some f, current := some { cart := v.cart, serial := v.serial, fire := s.now, waiting := true, actual := none } } ∧
      ∀ i, s.voiceOf o (.line n) = some i → (s.refire n o v f).voice i = (s.voice i).map fun w => w.rampOut s.clock 480 := by
  unfold State.refire
  dsimp only
  rw [if_pos hf]
  cases hv : s.voiceOf o (.line n) with
  | none =>
    dsimp only
    rw [State.modLine_of hl]
    exact ⟨rfl, rfl, nofun⟩
  | some j =>
    dsimp only
    rw [State.modLine_of (s := s.modVoice j _) hl]
    refine ⟨rfl, rfl, fun i hi => ?_⟩
    obtain rfl := Option.some.inj hi
    exact (State.voice_modVoice ..).trans (if_pos rfl)

/-- A re-fire of an instant not yet sounding, up to the new instant that the line takes. -/
theorem State.refire_unsounded (hf : f.actual = none) :
    ∃ u : State,
      s.refire n o v f = u.modLine n (fun l =>
        { l with current := some { cart := v.cart, serial := v.serial, fire := s.now, waiting := f.waiting, actual := none } }) ∧
      u.log = (s.recordInstant o n f .withdrawn .none).log ∧ u.lines = s.lines ∧ (f.waiting = true → u.voices = s.voices) ∧
      ∀ i w, f.waiting = false → s.voiceOf o (.line n) = some i → s.voice i = some w →
        ∃ t, u.voice i = some (freshUse o (.line n) v v.inCue false t) := by
  obtain ⟨hlines, hvoices⟩ := s.recordInstant_leaves o n f .withdrawn .none
  have hvoice : ∀ i, (s.recordInstant o n f .withdrawn .none).voice i = s.voice i := fun i => by
    simp only [State.voice, hvoices]
  have hof : (s.recordInstant o n f .withdrawn .none).voiceOf o (.line n) = s.voiceOf o (.line n) := by
    simp only [State.voiceOf, hvoices]
  unfold State.refire
  dsimp only
  rw [if_neg (by simp [hf]), hof]
  generalize s.recordInstant o n f .withdrawn .none = r at hlines hvoices hvoice
  cases f.waiting with
  | true => exact ⟨r, if_pos rfl, rfl, hlines, fun _ => hvoices, fun _ _ h => Bool.noConfusion h⟩
  | false =>
    cases s.voiceOf o (.line n) with
    | none => exact ⟨r, if_neg Bool.false_ne_true, rfl, hlines, fun h => Bool.noConfusion h, fun _ _ _ hi => absurd hi.symm (Option.some_ne_none _)⟩
    | some j =>
      refine ⟨r.reprime j n o v r.now, if_neg Bool.false_ne_true, (r.reprime_leaves ..).1, (r.reprime_leaves ..).2.trans hlines,
        fun h => Bool.noConfusion h, fun i w _ hi hw => ⟨r.now, ?_⟩⟩
      obtain rfl := Option.some.inj hi
      exact State.reprime_voice ((hvoice _).trans hw) ..

/-- An instant not yet sounding is recorded WITHDRAWN; the new one waits where it waited, and else primes at once on the line's voice. -/
theorem State.refire_withdraws (hf : f.actual = none) (hl : s.lines[n]? = some l) :
    (∃ r, s.log.Wrote (s.refire n o v f).log [r] ∧ r.unnumbered = s.asWritten o (instantRecord f .withdrawn .none)) ∧
      (s.refire n o v f).lines = s.lines.set n
        { l with current := some { cart := v.cart, serial := v.serial, fire := s.now, waiting := f.waiting, actual := none } } ∧
      (f.waiting = true → (s.refire n o v f).voices = s.voices) ∧
      ∀ i w, f.waiting = false → s.voiceOf o (.line n) = some i → s.voice i = some w →
        ∃ w', (s.refire n o v f).voice i = some w' ∧ w'.Primes o n v := by
  obtain ⟨u, e, hlog, hlines, hwait, hprime⟩ := State.refire_unsounded (s := s) (n := n) (o := o) (v := v) hf
  obtain ⟨lg, tl, erec, r, hw, hr⟩ := s.recordInstant_eq o n f .withdrawn .none
  rw [erec] at hlog
  rw [e, State.modLine_of (by rw [hlines]; exact hl)]
  refine ⟨⟨r, ?_, hr⟩, by rw [hlines], hwait, fun i w hnot hi hv => ?_⟩
  · show s.log.Wrote u.log [r]
    rw [hlog]
    exact hw
  · obtain ⟨t, ht⟩ := hprime i w hnot hi hv
    exact ⟨_, ht, freshUse_primes ..⟩

end refire

/-! ### What a fire comes to (R33, R35) -/

section fires
variable {s : State} {n : Nat} {l : FireLine} {c : LineCfg} {v : Version} {f : Instant}

theorem State.MayFire.lit {o : OutletId} (h : s.MayFire o) : (s.out o).air ≠ .dark := by
  obtain ⟨-, hair, -⟩ := h
  rw [hair]
  decide

theorem State.fire_refuses (hc : s.lineCfg n = c) (hen : c.enabled = true) (hair : (s.out c.outlet).air ≠ .dark)
    (h : ¬ s.MayFire c.outlet ∨ s.store.usable c.cart = none) : s.fire n = s.refuseFire c.outlet c.cart := by
  refine State.fire_refused hc hen hair ?_
  by_cases hmay : s.MayFire c.outlet
  · rw [State.fireVersion_may hmay]
    exact h.resolve_left (not_not_intro hmay)
  · exact State.fireVersion_mayNot hmay _

/-- A fire with no voice to take is refused as any other, and latches NO_VOICE (R33). -/
theorem State.fire_noVoice (hc : s.lineCfg n = c) (hen : c.enabled = true) (hmay : s.MayFire c.outlet)
    (hv : s.store.usable c.cart = some v) (hl : s.lines[n]? = some l) (hcur : l.current = none) (hfree : s.voiceFor c.outlet = none) :
    s.fire n =
      (s.refuseFire c.outlet c.cart).latch { FaultInfo.bare .noVoice with outlet := some c.outlet, cart := some (v.cart, 0) } := by
  rw [State.fire_fresh hc hen hmay.lit ((State.fireVersion_may hmay _).trans hv) hl hcur, State.freshFire_refused hfree, Store.usable_cart hv]

theorem State.fire_primes {i : Nat} (hc : s.lineCfg n = c) (hen : c.enabled = true) (hmay : s.MayFire c.outlet)
    (hv : s.store.usable c.cart = some v) (hl : s.lines[n]? = some l) (hcur : l.current = none) (hfree : s.voiceFor c.outlet = some i) :
    (s.fire n).lines =
        s.lines.set n { l with current := some { cart := v.cart, serial := v.serial, fire := s.now, waiting := false, actual := none } } ∧
      ∃ w, (s.fire n).voice i = some w ∧ w.Primes c.outlet n v := by
  rw [State.fire_fresh hc hen hmay.lit ((State.fireVersion_may hmay _).trans hv) hl hcur]
  obtain ⟨hlines, hvoice⟩ := State.freshFire_primes hfree hl v
  exact ⟨hlines, _, hvoice, freshUse_primes ..⟩

theorem State.fire_refires (hc : s.lineCfg n = c) (hen : c.enabled = true) (hmay : s.MayFire c.outlet)
    (hv : s.store.usable c.cart = some v) (hl : s.lines[n]? = some l) (hcur : l.current = some f) :
    s.fire n = s.refire n c.outlet v f :=
  State.fire_again hc hen hmay.lit ((State.fireVersion_may hmay _).trans hv) hl hcur

end fires

/-! ### The unit as a held press makes its fire (R32) -/

/-- The unit after `dt` samples, its line `n`, before `l`, now HELD. -/
def State.firing (s : State) (dt n : Nat) (l : FireLine) : State :=
  { s.elapse dt with lines := s.lines.set n { l with state := .held } }

/-- What a fire finds: the unit `t` is `a`, which `s` has become as samples passed, with the line HELD. -/
structure State.AtFire (s a t : State) (n : Nat) (l : FireLine) (c : LineCfg) : Prop where
  lineCfg : t.lineCfg n = c
  line : t.lines[n]? = some { l with state := .held }
  lines : t.lines = s.lines.set n { l with state := .held }
  log : t.log = s.log
  store : t.store = s.store
  air : ∀ o, (t.out o).air = (s.out o).air
  may : ∀ o, t.MayFire o ↔ s.MayFire o
  noVoice : ∀ o, t.voiceFor o = none ↔ ∀ z ∈ s.voices, z.use = none → z.reserved ≠ some o ∧ z.reserved ≠ none
  free : ∀ i, t.voice i = none → s.voice i = none
  now : t.now = a.now
  clock : t.clock = a.clock
  voices : t.voices = a.voices
  voice : ∀ i, t.voice i = a.voice i
  voiceOf : ∀ o h, t.voiceOf o h = a.voiceOf o h

theorem State.AtFire.set {s a t : State} {n : Nat} {l : FireLine} {c : LineCfg} (h : State.AtFire s a t n l c) (m : FireLine) :
    t.lines.set n m = s.lines.set n m := by rw [h.lines, List.set_set]

theorem State.firing_atFire {s : State} {n : Nat} {l : FireLine} {c : LineCfg} (hl : s.lines[n]? = some l) (hc : s.cfg.lines[n]? = some c)
    (dt : Nat) : State.AtFire s (s.elapse dt) (s.firing dt n l) n l c where
  lineCfg := State.lineCfg_of (s := s.firing dt n l) (show (s.elapse dt).cfg.lines[n]? = some c by rwa [State.elapse_cfg])
  line := List.getElem?_set_self (List.getElem?_eq_some_iff.1 hl).1
  lines := rfl
  log := State.elapse_log s dt
  store := State.elapse_store s dt
  air o := State.elapse_out_air s dt o
  may o := by
    show (s.elapse dt).MayFire o ↔ _
    simp only [State.MayFire, State.elapse_isSelf, State.elapse_out_air, State.elapse_out_entries]
  noVoice o := s.elapse_voiceFor_none dt o
  free i h := by
    have hfree : (s.elapse dt).voice i = none := h
    rwa [State.elapse_voice_map, Option.map_eq_none_iff] at hfree
  now := rfl
  clock := rfl
  voices := rfl
  voice _ := rfl
  voiceOf _ _ := rfl

end Sys2Proof.Machine

open Sys2Proof Sys2Proof.Machine

/-- Settles O49, the input by the line's state, the fire by whether it may be made and what the line then holds. -/
theorem fireLinesMakeInstants : Obligations.FireLinesMakeInstants := by
  intro s dt n l c hp hl hc a o x now
  have hal : a.lines[n.val]? = some l := by rwa [State.elapse_lines]
  refine ⟨fun active => ?_, ?_⟩
  · intro result sets
    have hresult : result = _ := exec_fireLineInput hp dt hl hc active
    refine ⟨fun hsame => by rw [hresult, if_pos hsame], fun hnew hdis => ?_, fun hnew hen => ?_⟩
    · rw [hresult, if_neg hnew, if_neg (by simp [hdis])]
    · rw [hresult, if_neg hnew, if_pos hen]
      refine ⟨fun hs hact => ?_, fun hs hact => ?_, fun hs hact => ?_, fun hs => ?_⟩
      · subst hact
        rw [FireLine.input_idle hs]
      · subst hact
        rw [FireLine.input_pressing hs]
      · subst hact
        rw [FireLine.input_held hs]
      · rw [FireLine.input_waitRelease hs]
  · intro result becomes
    have hresult : result = _ := exec_fireLineStable hp dt hl hc
    refine ⟨fun hno => ?_, fun hen hheld => ?_⟩
    · rw [hresult]
      by_cases hgo : c.enabled = true ∧ l.since + 960 ≤ now
      · rw [if_pos hgo, State.settleLine_stays hal]
        rcases hno with h | h | h
        · exact absurd hgo.1 (by simp [h])
        · exact absurd hgo.2 (by omega)
        · exact h
      · rw [if_neg hgo]
    · have hrun : result = .next (a.settleLine n.val) := by rw [hresult, if_pos ⟨hen, hheld⟩]
      refine ⟨fun hs hact => ?_, fun hs hact => ?_⟩
      · rw [hrun, State.settleLine_released hal hs hact, State.elapse_lines]
      · intro may noVoice refused
        obtain ⟨t, ht⟩ : ∃ t, t = s.firing dt n.val l := ⟨_, rfl⟩
        have hfire : result = .next ((t.fire n.val).finish a) := by
          rw [hrun, State.settleLine_pressed hal hs hact, State.elapse_lines, ht]
          rfl
        have ha : State.AtFire s a t n.val l c := ht ▸ State.firing_atFire hl hc dt
        have hrefused : refused (t.refuseFire o c.cart) := by
          obtain ⟨hlines, r, hw, h1, h2, h3, h4, h5, h6⟩ := t.refuseFire_writes o c.cart
          exact ⟨hlines.trans ha.lines, r, ha.log ▸ hw, h1, h2, h3, h4, ha.now ▸ h5, h6⟩
        refine ⟨fun hdark => ?_, fun hlit hno => ?_, fun v hm hv hcur hnv => ?_, fun v hm hv hcur hsome => ?_, fun v f hm hv hcur => ?_⟩
        · rw [hfire, State.fire_dark ha.lineCfg ((ha.air o).trans hdark), ht]
          rfl
        · exact ⟨_, by rw [hfire, State.fire_refuses ha.lineCfg hen (ha.air o ▸ hlit) (by rwa [ha.may, ha.store])], hrefused⟩
        · rw [State.fire_noVoice ha.lineCfg hen ((ha.may o).2 hm) (ha.store ▸ hv) ha.line hcur ((ha.noVoice o).2 hnv)] at hfire
          exact ⟨_, hfire, hrefused, Option.isSome_iff_exists.2 (State.latch_first (t.refuseFire o c.cart) _)⟩
        · obtain ⟨i, hi⟩ := Option.ne_none_iff_exists'.1 (mt (ha.noVoice o).1 hsome)
          obtain ⟨hlines, w, hw, hprimes⟩ := State.fire_primes ha.lineCfg hen ((ha.may o).2 hm) (ha.store ▸ hv) ha.line hcur hi
          exact ⟨_, i, w, hfire, by rw [hlines, ha.set, ha.now], ha.free i (State.voiceFor_free hi), hw, hprimes.outlet,
            hprimes.holder, hprimes.cart, hprimes.serial, hprimes.startPos, hprimes.sounded, hprimes.state⟩
        · intro fresh
          rw [State.fire_refires ha.lineCfg hen ((ha.may o).2 hm) (ha.store ▸ hv) ha.line hcur] at hfire
          refine ⟨fun hsounds => ?_, fun hsilent => ?_⟩
          · obtain ⟨hl', hlines, hramp⟩ := State.refire_sounding (o := o) (v := v) hsounds ha.line
            refine ⟨_, hfire, hl'.trans ha.log, by rw [hlines, ha.set, ha.now], fun i w hi hw hso => ?_⟩
            obtain ⟨hstate, hstop⟩ := VoiceUse.rampOut_stop hso t.clock 480
            exact ⟨_, by rw [hramp i ((ha.voiceOf ..).trans hi), ha.voice, hw, Option.map_some], hstate, ha.clock ▸ hstop⟩
          · obtain ⟨⟨r, hw, hr⟩, hlines, hwait, hprime⟩ := State.refire_withdraws (o := o) (v := v) hsilent ha.line
            refine ⟨_, r, hfire, ha.log ▸ hw, congrArg Record.source hr, congrArg Record.outcome hr, congrArg Record.outlet hr,
              congrArg Record.cart hr, congrArg Record.serial hr, congrArg Record.planned hr, (congrArg Record.actual hr).trans hsilent,
              by rw [hlines, ha.set, ha.now], fun h => (hwait h).trans ha.voices, fun i w hnot hi hv => ?_⟩
            obtain ⟨w', hw', hprimes⟩ := hprime i w hnot ((ha.voiceOf ..).trans hi) ((ha.voice i).trans hv)
            exact ⟨w', hw', hprimes.outlet, hprimes.holder, hprimes.cart, hprimes.serial, hprimes.startPos, hprimes.sounded, hprimes.state⟩
end

section
/-! A fold over the outlets in which one outlet takes part, and CUE frames that are taken (R48, R177 to R181). -/

namespace Sys2Proof.Machine

/-! ### Folds over the outlets -/

section folds
variable {f : State → OutletId → State} {s : State}

theorem OutletId.foldl_all_idle (h : ∀ p, f s p = s) : OutletId.all.foldl f s = s := by
  simp only [OutletId.all, List.foldl_cons, List.foldl_nil, h]

/-- An outlet acts alone where no other does anything before it or after it. -/
theorem OutletId.foldl_all_alone (o : OutletId) (hbefore : ∀ p, p ≠ o → f s p = s) (hafter : ∀ p, p ≠ o → f (f s o) p = f s o) :
    OutletId.all.foldl f s = f s o := by
  cases o
  case a => simp only [OutletId.all, List.foldl_cons, List.foldl_nil, hafter, ne_eq, reduceCtorEq, not_false_eq_true]
  case b => simp only [OutletId.all, List.foldl_cons, List.foldl_nil, hbefore, hafter, ne_eq, reduceCtorEq, not_false_eq_true]
  case c => simp only [OutletId.all, List.foldl_cons, List.foldl_nil, hbefore, hafter, ne_eq, reduceCtorEq, not_false_eq_true]
  case d => simp only [OutletId.all, List.foldl_cons, List.foldl_nil, hbefore, ne_eq, reduceCtorEq, not_false_eq_true]

end folds

/-! ### CUE frames (R48, R181) -/

/-- The cue of a CUE frame (R181). -/
def cueOf (b : CueBody) (sender : Nat) : Cue :=
  { tag := b.tag, start := b.start, len := b.len, cancel := b.cancel == 1, sender := sender }

theorem cueOk_iff {b : CueBody} : cueOk b = true ↔ (1 ≤ b.feed ∧ b.feed ≤ 64) ∧ b.tag ≠ 0 ∧ b.cancel ≤ 1 := by
  simp only [cueOk, Bool.and_eq_true, feedOk_iff, bne_iff_ne, decide_eq_true_eq, and_assoc]

theorem exec_cueFrame {s : State} {h : FrameHead} {b : CueBody} (hp : s.powered = true) (hh : s.Hears h 16) (hok : cueOk b = true)
    (dt : Nat) : exec (.cueFrame dt h b) s =
      .next (((s.elapse dt).takeCueFeed b.feed (cueOf b h.sender)).finish (s.elapse dt)) := by
  have ht : ((s.elapse dt).takesFrame h 16 && cueOk b) = true := by
    rw [State.elapse_takesFrame, State.takesFrame_iff.2 hh, hok]
    rfl
  rw [exec, execCueFrame, State.run_powered hp, if_pos ht]
  rfl

theorem State.elapse_none (s : State) : s.elapse 0 = s := if_pos rfl

end Sys2Proof.Machine
end

section
/-! BEACON frames of other nodes: the peer table, and what the outlet blocks of a unit carry (R48, R149, R186, R187). -/

namespace Sys2Proof.Machine

/-! ### Outlet blocks (R48, R149) -/

section blocks
variable {s : State} {k : OutletBlock}

theorem State.takeBlockCue_none (h : k.cue = none) (node : Nat) : s.takeBlockCue node k = s := by
  rw [State.takeBlockCue, h]

theorem State.takeBlockCue_some {c : PendingCue} (h : k.cue = some c) (node : Nat) :
    s.takeBlockCue node k =
      if c.tag = 0 then s
      else s.takeCueFeed k.feed { tag := c.tag, start := c.start, len := c.len, cancel := false, sender := node } := by
  rw [State.takeBlockCue, h]

/-- A block's pending cue is taken as the CUE frame that carries it. -/
theorem exec_cueFrame_ofBlock {h : FrameHead} {c : PendingCue} (hp : s.powered = true) (hc : k.cue = some c) (ht : c.tag ≠ 0)
    (hh : s.Hears h 16) (h1 : 1 ≤ k.feed) (h64 : k.feed ≤ 64) :
    exec (.cueFrame 0 h { feed := k.feed, tag := c.tag, start := c.start, len := c.len, cancel := 0 }) s =
      .next ((s.takeBlockCue h.sender k).finish s) := by
  rw [exec_cueFrame hp hh (cueOk_iff.2 ⟨⟨h1, h64⟩, ht, Nat.zero_le 1⟩), State.elapse_none, State.takeBlockCue_some hc, if_neg ht]
  rfl

theorem State.takeBlockEcho_none (h : k.echo = none) : s.takeBlockEcho k = s := by
  rw [State.takeBlockEcho, h]

/-- What an outlet does with an echo: it is judged by one that carries its feed (R149). -/
def State.hearEcho (e : EchoReport) (s : State) (o : OutletId) : State :=
  if (s.ocfg o).valid && (s.ocfg o).feed == e.feed && (s.out o).air != .dark then s.judgeEcho o e else s

theorem State.takeBlockEcho_some {e : EchoReport} (h : k.echo = some e) : s.takeBlockEcho k = OutletId.all.foldl (State.hearEcho e) s := by
  rw [State.takeBlockEcho, h]
  rfl

theorem State.hearEcho_idle {e : EchoReport} {o : OutletId}
    (h : (s.ocfg o).valid = true → (s.ocfg o).feed = e.feed → (s.out o).air = .dark) : s.hearEcho e o = s := by
  refine if_neg fun hc => ?_
  simp only [Bool.and_eq_true, beq_iff_eq, bne_iff_ne] at hc
  exact hc.2 (h hc.1.1 hc.1.2)

theorem State.judgeEcho_ocfg (s : State) (o p : OutletId) (e : EchoReport) : (s.judgeEcho o e).ocfg p = s.ocfg p := by
  have hcfg : (s.judgeEcho o e).cfg = s.cfg := congrArg (fun b => b.2.2.2.1) (State.judgeEcho_moves (w := false) .refl o e).base
  rw [State.ocfg, State.ocfg, hcfg]

/-- An echo is judged by the outlet that carries its feed (R149). -/
theorem State.takeBlockEcho_carried {e : EchoReport} {o : OutletId} (h : k.echo = some e) (hc : s.Carries o e.feed) :
    s.takeBlockEcho k = s.judgeEcho o e := by
  obtain ⟨hvalid, hfeed, -, -, hlit, halone⟩ := hc
  have hown : s.hearEcho e o = s.judgeEcho o e := if_pos (by simp [hvalid, hfeed, hlit])
  have hother : ∀ t : State, (∀ p, t.ocfg p = s.ocfg p) → ∀ p, p ≠ o → t.hearEcho e p = t := fun t ht p hp =>
    State.hearEcho_idle fun hv hf => absurd (halone p (ht p ▸ hv) (ht p ▸ hf)) hp
  rw [State.takeBlockEcho_some h, OutletId.foldl_all_alone o (hother s fun _ => rfl), hown]
  exact hother _ fun p => by rw [hown, State.judgeEcho_ocfg]

theorem State.takeBlockEcho_idle {e : EchoReport} (h : k.echo = some e)
    (hd : ∀ o, (s.ocfg o).valid = true → (s.ocfg o).feed = e.feed → (s.out o).air = .dark) : s.takeBlockEcho k = s := by
  rw [State.takeBlockEcho_some h]
  exact OutletId.foldl_all_idle fun p => State.hearEcho_idle (hd p)

end blocks

/-! ### The peer table (R186, R187) -/

theorem oldestStale_none {l : List Peer} (h : oldestStale l = none) : ∀ q ∈ l, q.stale = false := by
  induction l with
  | nil => exact fun q hq => nomatch hq
  | cons p l ih =>
    unfold oldestStale at h
    split at h
    · split at h <;> cases h
    · rename_i hl
      split at h
      · cases h
      · rename_i hp
        intro q hq
        rcases List.mem_cons.1 hq with rfl | hq
        · simpa using hp
        · exact ih hl q hq

theorem oldestStale_some {l : List Peer} {q : Peer} (h : oldestStale l = some q) :
    q ∈ l ∧ q.stale = true ∧ ∀ r ∈ l, r.stale = true → q.arrival ≤ r.arrival := by
  induction l generalizing q with
  | nil => cases h
  | cons p l ih =>
    unfold oldestStale at h
    split at h
    · rename_i w hw
      obtain ⟨hmem, hstale, hold⟩ := ih hw
      split at h
      · rename_i hp
        obtain rfl := Option.some.inj h
        simp only [Bool.and_eq_true, decide_eq_true_eq] at hp
        refine ⟨List.mem_cons_self, hp.1, fun r hr hs => ?_⟩
        rcases List.mem_cons.1 hr with rfl | hr
        · exact le_refl _
        · exact hp.2.trans (hold r hr hs)
      · rename_i hp
        obtain rfl := Option.some.inj h
        refine ⟨List.mem_cons_of_mem p hmem, hstale, fun r hr hs => ?_⟩
        rcases List.mem_cons.1 hr with rfl | hr
        · simp only [hs, Bool.true_and, decide_eq_true_eq, not_le] at hp
          exact hp.le
        · exact hold r hr hs
    · rename_i hl
      split at h
      · rename_i hp
        obtain rfl := Option.some.inj h
        refine ⟨List.mem_cons_self, hp, fun r hr hs => ?_⟩
        rcases List.mem_cons.1 hr with rfl | hr
        · exact le_refl _
        · rw [oldestStale_none hl r hr] at hs
          cases hs
      · cases h

section table
variable {l : List Peer} {p : Peer}

theorem enterPeer_known (h : ∃ q ∈ l, q.node = p.node) : enterPeer l p = l.map fun q => if q.node = p.node then p else q := by
  have hany : (l.any fun q => q.node == p.node) = true := by simpa using h
  rw [enterPeer, if_pos hany]
  simp only [beq_iff_eq]

theorem enterPeer_unknown (h : ∀ q ∈ l, q.node ≠ p.node) :
    enterPeer l p =
      if l.length < 48 then l ++ [p]
      else
        match oldestStale l with
        | some q => (l.filter fun r => r.node != q.node) ++ [p]
        | none => l := by
  have hany : ¬ (l.any fun q => q.node == p.node) = true := by simpa using h
  rw [enterPeer, if_neg hany]
  rfl

/-- A full table takes a new node in place of the STALE entry with the oldest beacon (R186). -/
theorem enterPeer_displaces (h : ∀ q ∈ l, q.node ≠ p.node) (hfull : 48 ≤ l.length) (hs : ∃ q ∈ l, q.stale = true) :
    ∃ q ∈ l, q.stale = true ∧ (∀ r ∈ l, r.stale = true → q.arrival ≤ r.arrival) ∧
      enterPeer l p = (l.filter fun r => r.node != q.node) ++ [p] := by
  rw [enterPeer_unknown h, if_neg (not_lt.2 hfull)]
  cases hq : oldestStale l with
  | some q =>
    obtain ⟨hmem, hstale, hold⟩ := oldestStale_some hq
    exact ⟨q, hmem, hstale, hold, rfl⟩
  | none =>
    obtain ⟨q, hmem, hstale⟩ := hs
    rw [oldestStale_none hq q hmem] at hstale
    cases hstale

theorem enterPeer_full (h : ∀ q ∈ l, q.node ≠ p.node) (hfull : 48 ≤ l.length) (hs : ∀ q ∈ l, q.stale = false) : enterPeer l p = l := by
  rw [enterPeer_unknown h, if_neg (not_lt.2 hfull)]
  cases hq : oldestStale l with
  | some q =>
    obtain ⟨hmem, hstale, -⟩ := oldestStale_some hq
    rw [hs q hmem] at hstale
    cases hstale
  | none => rfl

end table

theorem State.forgetNode_passed (s : State) (n : Nat) (o : OutletId) :
    ((s.forgetNode n).out o).passed = (s.out o).passed.filter fun m => m != n := by cases o <;> rfl

/-- Nodes forgotten one after the other leave every passed-over set (R129, R187). -/
theorem State.forgetNodes_eq (l : List Peer) (s : State) : ∃ ol, l.foldl (fun s q => s.forgetNode q.node) s = { s with outlets := ol } ∧
    ∀ o m, m ∈ (ol.get o).passed → m ∈ (s.out o).passed ∧ ∀ q ∈ l, q.node ≠ m := by
  induction l generalizing s with
  | nil => exact ⟨s.outlets, rfl, fun o m hm => ⟨hm, fun q hq => nomatch hq⟩⟩
  | cons p l ih =>
    obtain ⟨ol, e, hol⟩ := ih (s.forgetNode p.node)
    refine ⟨ol, e, fun o m hm => ?_⟩
    obtain ⟨hpassed, hrest⟩ := hol o m hm
    rw [State.forgetNode_passed, List.mem_filter, bne_iff_ne] at hpassed
    refine ⟨hpassed.1, fun q hq => ?_⟩
    rcases List.mem_cons.1 hq with rfl | hq
    · exact hpassed.2.symm
    · exact hrest q hq

/-- The entry of a beacon's sender (R186). -/
def State.peerOf (s : State) (node : Nat) (b : BeaconBody) : Peer :=
  { node := node, isUnit := b.role == 1, arrival := s.clock, stale := false, summaries := summariesOf b }

theorem State.enterBeacon_eq (s : State) (node : Nat) (b : BeaconBody) : ∃ ol,
    s.enterBeacon node b = { s with peers := enterPeer s.peers (s.peerOf node b), outlets := ol } ∧
      ∀ q ∈ s.peers, (∀ r ∈ enterPeer s.peers (s.peerOf node b), r.node ≠ q.node) → ∀ o, q.node ∉ (ol.get o).passed := by
  obtain ⟨ol, e, hol⟩ := State.forgetNodes_eq
    (s.peers.filter fun q => !((enterPeer s.peers (s.peerOf node b)).any fun r => r.node == q.node))
    { s with peers := enterPeer s.peers (s.peerOf node b) }
  refine ⟨ol, e, fun q hq hgone o hm => ?_⟩
  refine (hol o q.node hm).2 q (List.mem_filter.2 ⟨hq, ?_⟩) rfl
  simpa using hgone

/-! ### Beacons that are taken (R186) -/

/-- The blocks of a beacon taken in their order: their cues, then their echoes. -/
def State.takeBlocks (s : State) (node : Nat) (l : List OutletBlock) : State :=
  l.foldl (fun u k => u.takeBlockEcho k) (l.foldl (fun u k => u.takeBlockCue node k) s)

theorem State.takeBlocks_moves (s : State) (node : Nat) (l : List OutletBlock) : State.Moves true s (s.takeBlocks node l) :=
  (State.Moves.refl.foldl _ l fun _ k ht => State.takeBlockCue_moves ht node k).foldl _ l fun _ k ht => State.takeBlockEcho_moves ht k

theorem State.takeBeacon_heard (s : State) (node : Nat) (b : BeaconBody) :
    s.takeBeacon node (heardBody b) = (s.enterBeacon node (heardBody b)).judgeReleases.takeBlocks node (heardBody b).blocks := by
  unfold State.takeBeacon
  by_cases hr : b.role = 1
  · exact if_pos hr
  · have hnone : (heardBody b).blocks = [] := if_neg hr
    rw [hnone]
    exact if_neg hr

theorem exec_beaconReceived {s : State} {h : FrameHead} {b : BeaconBody} (hp : s.powered = true)
    (hh : s.Hears h (beaconBodyLen b.role)) (dt : Nat) :
    exec (.beaconReceived dt h b) s = .next (((s.elapse dt).takeBeacon h.sender (heardBody b)).finish (s.elapse dt)) := by
  have ht := State.takesFrame_iff.2 hh
  rw [State.takesFrame, Bool.and_eq_true, bne_iff_ne] at ht
  have hsound : (s.elapse dt).soundHead h (beaconBodyLen b.role) = true := (s.elapse_soundHead dt h _).trans ht.1
  have hother : ¬ h.sender = (s.elapse dt).cfg.nodeId := by rw [State.elapse_cfg]; exact ht.2
  rw [exec, execBeaconReceived, State.run_powered hp, if_pos hsound, if_neg hother]

/-- What a beacon brings leaves the peer table, the clock and isolation as entering the beacon left them (R138, R186). -/
theorem State.takeBlocks_finish_moves (v a : State) (node : Nat) (l : List OutletBlock) (h : v.log = a.log) :
    State.Moves true v ((v.judgeReleases.takeBlocks node l).finish a) :=
  State.finish_moves ((State.judgeReleases_moves .refl).trans (State.takeBlocks_moves _ node l)) (by rw [h])

end Sys2Proof.Machine

open Sys2Proof Sys2Proof.Machine

/-- Settles O32: the blocks' cues and echoes by the feed they name, the table by how `enterPeer` finds the sender. -/
theorem beaconsEnterThePeerTable : Obligations.BeaconsEnterThePeerTable := by
  refine ⟨fun v h k hp => ⟨fun hn => State.takeBlockCue_none hn _, fun c hc => ⟨fun h0 => ?_, fun ht hh h1 h64 =>
    exec_cueFrame_ofBlock hp hc ht hh h1 h64⟩, State.takeBlockEcho_none, fun e he => ⟨fun o ho =>
    State.takeBlockEcho_carried he ho, State.takeBlockEcho_idle he⟩⟩, fun s dt h b hp hh => ?_⟩
  · rw [State.takeBlockCue_some hc, if_pos h0]
  · intro read p
    have hentry : (s.elapse dt).peerOf h.sender (heardBody b) = p := by
      have hsum : summariesOf (heardBody b) = read.map fun k => { feed := k.feed, mode := k.mode, air := k.air, rank := k.rank } := by
        by_cases hr : b.role = 1
        · exact if_pos hr
        · have hnone : read = [] := if_neg hr
          rw [hnone]
          exact if_neg hr
      rw [State.peerOf, hsum, State.elapse_clock]
      rfl
    obtain ⟨ol, hv, hgone⟩ := (s.elapse dt).enterBeacon_eq h.sender (heardBody b)
    rw [hentry, State.elapse_peers] at hv hgone
    have hmoves := State.takeBlocks_finish_moves ((s.elapse dt).enterBeacon h.sender (heardBody b)) (s.elapse dt) h.sender
      (heardBody b).blocks (by rw [hv])
    have hsteady := hmoves.steady
    have hbase := hmoves.base
    simp only [State.steady, State.base, Prod.mk.injEq] at hsteady hbase
    obtain ⟨-, -, hpeers, -, -, hisolated, -⟩ := hsteady
    obtain ⟨-, -, -, -, -, -, hclock⟩ := hbase
    have htable : ((s.elapse dt).enterBeacon h.sender (heardBody b)).peers = enterPeer s.peers p := by rw [hv]
    refine ⟨_, (exec_beaconReceived hp hh dt).trans (by rw [State.takeBeacon_heard]), ?_⟩
    rw [hpeers, hclock, hisolated, htable]
    refine ⟨enterPeer_known (p := p), fun hnew => ⟨fun hroom => (enterPeer_unknown (p := p) hnew).trans (if_pos hroom),
      enterPeer_full (p := p) hnew, enterPeer_displaces (p := p) hnew⟩, ?_, ?_, htable, ?_, rfl⟩
    · rw [hv]
      exact State.elapse_clock s dt
    · rw [hv]
      exact State.elapse_isolated s dt
    · intro q hq hout o
      have hset : ((s.elapse dt).enterBeacon h.sender (heardBody b)).out o = ol.get o := by rw [hv]; rfl
      exact hset ▸ hgone q hq hout o
end

section
/-! The breaks of a FOLLOW outlet: swaps, the start of the break, and the EARLY_REJOIN tail of a shadow (R61, R62, R64, R66, R67, R77 to
R79). -/

namespace Sys2Proof.Machine

/-! ### Where a FOLLOW outlet stands (R44, R76) -/

theorem State.position_follow {s : State} {o : OutletId} (h : s.isFollow o = true) : s.position o = s.followed o := if_pos h

theorem State.reachedPos_follow {s : State} {o : OutletId} (h : s.isFollow o = true) : s.reachedPos o = s.followed o := if_pos h

theorem State.followed_congr {s t : State} {o : OutletId} (hr : (t.out o).relay = (s.out o).relay) (hd : t.disc = s.disc) :
    t.followed o = s.followed o := by rw [State.followed, State.followed, hr, hd]

/-- A position counts on the configuration, the group time and the relay alone (R44, R76). -/
theorem State.position_congr {s t : State} {o : OutletId} (hc : t.cfg = s.cfg) (hr : (t.out o).relay = (s.out o).relay)
    (hd : t.disc = s.disc) : t.position o = s.position o := by
  rw [State.position, State.position, State.followed_congr hr hd, State.isFollow, State.isFollow, State.ocfg, State.ocfg, hc, hd]

@[simp] theorem State.elapse_out_inFallback (s : State) (n : Nat) (o : OutletId) :
    ((s.elapse n).out o).inFallback = (s.out o).inFallback := by
  simp only [Outlet.inFallback, State.elapse_out_air, State.elapse_out_yielding]

theorem Outlet.inFallback_silent {x : Outlet} (h : x.air.sends = false) : x.inFallback = false := by
  cases hf : x.inFallback with
  | false => rfl
  | true => rw [Outlet.inFallback_sends hf] at h; cases h

/-! ### Ramps of the relay (R77) -/

/-- The relay with a ramp of its multiplier over 480 samples from the value in force (R77). -/
def Relay.ramped (r : Relay) (clock : Nat) (v : Int) : Relay :=
  { r with mult := { start := clock, m0 := r.mult.value clock, m1 := v, n := 480 } }

theorem State.relayTo_eq (s : State) (o : OutletId) (v : Int) :
    s.relayTo o v = s.setOut o { s.out o with relay := (s.out o).relay.ramped s.clock v } := rfl

section swaps
variable {a : State} {o : OutletId} {p : Place} {b : FittedBreak} {t pos : Time}

theorem State.swapOut_eq (hb : a.fit o p = some b) (ht : b.start = some t) (hpos : a.followed o = some pos) :
    a.swapOut o p =
      if b.state = .armed ∧ t - 240 ≤ pos ∧ pos < t ∧ (a.out o).relay.mult.m1 ≠ 0 then a.relayTo o 0 else a := by
  unfold State.swapOut
  rw [hb, hpos]
  dsimp only
  rw [ht]
  simp only [Bool.and_eq_true, beq_iff_eq, bne_iff_ne, decide_eq_true_eq, and_assoc]

theorem FittedBreak.handedBack_iff {b : FittedBreak} : b.handedBack = true ↔ b.tail = .earlyRejoin ∧ b.tailBegan.isSome = true := by
  simp only [FittedBreak.handedBack, Bool.and_eq_true, beq_iff_eq]

theorem State.swapIn_eq (hb : a.fit o p = some b) (ht : b.start = some t) (hpos : a.followed o = some pos) :
    a.swapIn o p =
      if b.state = .running ∧ t + b.len - 240 ≤ pos ∧ pos < t + b.len ∧ (a.out o).relay.mult.value a.clock = 0 ∧
          (a.out o).relay.mult.m1 = 0 ∧ (a.out o).inFallback = false ∧ ¬ (b.tail = .earlyRejoin ∧ b.tailBegan.isSome = true)
        then a.relayTo o unity else a := by
  have hr : b.rejoinAt = some (t + b.len) := by rw [FittedBreak.rejoinAt, ht]; rfl
  unfold State.swapIn
  rw [hb, hpos]
  dsimp only
  rw [hr]
  refine if_congr ?_ rfl rfl
  simp only [State.relayMult, Bool.and_eq_true, Bool.not_eq_true', ← Bool.not_eq_true, FittedBreak.handedBack_iff, beq_iff_eq,
    decide_eq_true_eq]
  tauto

end swaps

theorem exec_swapOutStart {s : State} (hp : s.powered = true) (dt : Nat) (o : OutletId) (p : Place) :
    exec (.swapOutStart dt o p) s = .next ((s.elapse dt).swapOut o p) := State.run_powered hp dt fun s => s.swapOut o p

theorem exec_swapInStart {s : State} (hp : s.powered = true) (dt : Nat) (o : OutletId) (p : Place) :
    exec (.swapInStart dt o p) s = .next ((s.elapse dt).swapIn o p) := State.run_powered hp dt fun s => s.swapIn o p

theorem exec_breakStart {s : State} (hp : s.powered = true) (dt : Nat) (o : OutletId) (p : Place) :
    exec (.breakStart dt o p) s = .next (((s.elapse dt).breakStart o p).finish (s.elapse dt)) := State.run_powered hp dt _

/-! ### The start of a break (R61, R66, R67) -/

section starts
variable {a : State} {o : OutletId} {p : Place} {b : FittedBreak} {t pos : Time}

theorem State.breakStart_eq (hf : a.isFollow o = true) (hb : a.fit o p = some b) (ht : b.start = some t) (hpos : a.followed o = some pos) :
    a.breakStart o p = if b.state = .armed ∧ t ≤ pos then a.startFollow o p b t else a := by
  unfold State.breakStart
  rw [hb, hpos]
  dsimp only
  rw [ht]
  simp only [hf, Bool.true_and, Bool.and_eq_true, beq_iff_eq, decide_eq_true_eq]

theorem State.startFollow_shadow (ht : b.start = some t) (hair : (a.out o).air.sends = false) :
    a.startFollow o p b t = a.shadowFit o p t := by
  unfold State.startFollow
  dsimp only
  rw [if_neg (by simp [Outlet.inFallback_silent hair]), if_neg (by simp [hair]), ht]
  rfl

theorem Outlet.inFallback_onAir {x : Outlet} (h : x.air = .onAir) : x.inFallback = false := by simp [Outlet.inFallback, h]

/-- On the air the break starts, and the relay ramps out if no swap has (R61; notes/assumptions/25.md). -/
theorem State.startFollow_onAir (ht : b.start = some t) (hair : (a.out o).air = .onAir) :
    a.startFollow o p b t =
      if (a.out o).relay.mult.m1 = 0 then a.startFit o p t else (a.startFit o p t).relayTo o 0 := by
  unfold State.startFollow
  dsimp only
  rw [if_neg (by simp [Outlet.inFallback_onAir hair]), if_pos (by rw [hair]; rfl), ht]
  dsimp only [Option.getD_some]
  by_cases hm : (a.out o).relay.mult.m1 = 0
  · rw [if_pos hm, if_neg (by simp [hm])]
  · rw [if_neg hm, if_pos (by simpa using hm)]

theorem FittedBreak.started_eq (ht : b.start = some t) :
    b.started t = { b with state := .running, announced := false, cursor := 0, due := some t } := by
  rw [FittedBreak.started, ← ht]

/-- A break started in its place. -/
theorem State.started_out (hb : a.fit o p = some b) (t : Time) :
    (a.modFit o p fun b => b.started t) = a.setOut o ((a.out o).setPlace p (some (b.started t))) := by
  have hplace : (a.out o).place p = some b := hb
  rw [State.modFit, State.modOut, hplace]
  rfl

theorem Outlet.setPlace_playsTimeline (x : Outlet) (p : Place) (b : Option FittedBreak) :
    (x.setPlace p b).playsTimeline = x.playsTimeline := by cases p <;> rfl

theorem Outlet.setPlace_tallies (x : Outlet) (p : Place) (b : Option FittedBreak) : (x.setPlace p b).tallies = x.tallies := by
  cases p <;> rfl

theorem Outlet.setPlace_setPlace (x : Outlet) (p : Place) (b c : Option FittedBreak) : (x.setPlace p b).setPlace p c = x.setPlace p c := by
  cases p <;> rfl

/-- A break starts with its first item where that has its voice PRIMED, and then waits for its next slot (R61, R62). -/
theorem State.startFit_firstItem {it : BreakItem} {i : Nat} {w : VoiceUse} (hb : a.fit o p = some b) (hpos : a.position o = some pos)
    (hplays : (a.out o).playsTimeline = true) (hh : a.horizon = none) (he : b.ending = false) (hres : b.resume = none)
    (hle : t ≤ pos) (hleft : 480 ≤ t + b.len - pos) (hit : b.items[0]? = some it) (hsub : it.progress ≠ .substituted)
    (hplay : 0 < it.playLen) (hv : a.voiceOf o (.slot p 0) = some i) (hw : a.voice i = some w) (hp : w.state = .primed) :
    a.startFit o p t = (a.modFit o p fun b => b.started t).beginItem o p 0 i pos := by
  have hb1 : (a.modFit o p fun b => b.started t).fit o p = some (b.started t) := by
    rw [State.modFit_fit, if_pos ⟨rfl, rfl⟩, hb]
    rfl
  have hout1 : (a.modFit o p fun b => b.started t).out o = (a.out o).setPlace p (some (b.started t)) := by
    rw [State.started_out hb, State.setOut_out]
  have hrelay1 : ((a.modFit o p fun b => b.started t).out o).relay = (a.out o).relay := by rw [hout1, Outlet.setPlace_relay]
  have hpos1 : (a.modFit o p fun b => b.started t).position o = some pos :=
    (State.position_congr (s := a) (t := a.modFit o p fun b => b.started t) rfl hrelay1 rfl).trans hpos
  have hleft1 : 480 ≤ (b.started t).leftAt pos := by
    rw [FittedBreak.leftAt_eq (t := t) rfl]
    exact (Int.le_toNat (show 0 ≤ t + (b.len : Int) - pos by linarith)).2 (by exact_mod_cast hleft)
  have hlater : pos < pos + it.playLen + it.join := by
    have : (0 : Int) < it.playLen := by exact_mod_cast hplay
    linarith [Int.natCast_nonneg it.join]
  have hroom : pos < t + b.len := by linarith
  have hstep := State.stepFit_begins (a := a.modFit o p fun b => b.started t) (due := t) hb1 rfl he
    (by rw [hout1, Outlet.setPlace_playsTimeline]; exact hplays) hh hpos1 rfl hroom rfl hle
    (fun j jt hj _ => nomatch hj) hit hsub (State.primedVoice_of (s := a.modFit o p fun b => b.started t) hv hw hp)
  have hbegins := State.beginItem_begins (a := a.modFit o p fun b => b.started t) (k := 0) hb1 hw hit hres hleft1
  obtain ⟨f, hf, hasked⟩ := hbegins.fit
  have hrelay2 : (((a.modFit o p fun b => b.started t).beginItem o p 0 i pos).out o).relay = (a.out o).relay := by
    obtain ⟨tl, htl⟩ := hbegins.out
    have := congrArg Outlet.relay htl
    rw [Outlet.setPlace_relay] at this
    exact this.trans ((Outlet.setPlace_relay _ _ _).trans hrelay1)
  -- the next slot is not due yet, and the slot begun has its item
  have hwaits : ((a.modFit o p fun b => b.started t).beginItem o p 0 i pos).stepFit o p = none :=
    State.stepFit_waits hf (hbegins.horizon.trans hh) ((State.position_congr (s := a) hbegins.cfg hrelay2 hbegins.disc).trans hpos) hasked.due hlater
      fun j jt hj hjt => by
        have hzero : j = 0 := by simpa [FittedBreak.slotBegun] using (hasked.cursor.symm.trans hj).symm
        subst hzero
        rw [hasked.items 0 (by decide)] at hjt
        have hset : (b.items.set 0 { it with progress := .sounding, actual := some a.now, skipped := 0, mark := .here })[0]? = some jt := hjt
        rw [List.getElem?_set_self (List.getElem?_eq_some_iff.1 hit).1] at hset
        obtain rfl := Option.some.inj hset
        exact fun h => nomatch (show Progress.sounding = .substituted from h)
  have hstep' : (a.modFit o p fun b => b.started t).stepFit o p = some ((a.modFit o p fun b => b.started t).beginItem o p 0 i pos) := hstep
  show State.runFit (62 + 1 + 1) (a.modFit o p fun b => b.started t) o p = _
  rw [State.runFit, hstep']
  dsimp only
  rw [State.runFit, hwaits]

/-- A change of the relay on top of others that have left it and the sample clock. -/
theorem State.relayTo_congr {u : State} (hr : (u.out o).relay = (a.out o).relay) (hc : u.clock = a.clock) (v : Int) :
    u.relayTo o v = u.setOut o { u.out o with relay := (a.out o).relay.ramped a.clock v } := by
  rw [State.relayTo_eq, hr, hc]

theorem FittedBreak.slotBegun_started (ht : b.start = some t) (it : BreakItem) (now due : Time) :
    (b.started t).slotBegun 0 it now due =
      { b with
        state := .running
        announced := false
        items := b.items.set 0 { it with progress := .sounding, actual := some now, skipped := 0, mark := .here }
        cursor := 1
        due := some due } := by
  rw [FittedBreak.started_eq ht]
  rfl

/-- A slot's request leaves the relay and the sample clock (R62). -/
theorem State.requestSlot_relay (s : State) (o : OutletId) (p : Place) (k : Nat) (n : Time) :
    ((s.requestSlot o p k n).out o).relay = (s.out o).relay ∧ (s.requestSlot o p k n).clock = s.clock := by
  have hasks := s.requestSlot_asks o p k n
  refine ⟨?_, ?_⟩
  · have := congrArg Outlet.relay hasks.out
    rwa [Outlet.setPlace_relay, Outlet.setPlace_relay] at this
  · obtain ⟨st, v, q, ol, e⟩ := hasks.beside
    rw [e]

/-- The multiplier of a break's item (R37, R62). -/
def State.itemMult (s : State) (w : VoiceUse) : Ramp := .steady (multiplier (((s.store.find w.cart w.serial).map Version.trim).getD 0))

/-- The unit as a break has started with its first item (R61, R62): the item sounds, and the next slot's voice is asked for. -/
theorem State.startFit_sounds {it : BreakItem} {i : Nat} {w : VoiceUse} (hb : a.fit o p = some b)
    (hpos : a.position o = some pos) (hplays : (a.out o).playsTimeline = true) (hh : a.horizon = none) (he : b.ending = false)
    (hres : b.resume = none) (hle : t ≤ pos) (hleft : 480 ≤ t + b.len - pos) (hit : b.items[0]? = some it)
    (hsub : it.progress ≠ .substituted) (hplay : 0 < it.playLen) (hv : a.voiceOf o (.slot p 0) = some i) (hw : a.voice i = some w)
    (hp : w.state = .primed) (htal : ∀ z ∈ (a.out o).tallies, z.key ≠ .item p 0) :
    a.startFit o p t =
      ((a.startVoice i (a.itemMult w)).setOut o
        { (a.out o).setPlace p (some ((b.started t).slotBegun 0 it a.now (pos + it.playLen + it.join))) with
          tallies := (a.out o).tallies ++ [{ key := .item p 0, since := a.now, stopped := none, tally := .empty }] }).requestSlot
        o p 1 (a.toGroup o (pos + it.playLen + it.join)) := by
  obtain ⟨y, hy⟩ : ∃ y, y = (a.out o).setPlace p (some (b.started t)) := ⟨_, rfl⟩
  have hfit : ((a.setOut o y).out o).place p = some (b.started t) := by
    rw [State.setOut_out, hy]
    cases p <;> rfl
  have htallies : y.tallies = (a.out o).tallies := by rw [hy, Outlet.setPlace_tallies]
  have hgroup : ∀ u, (a.setOut o y).toGroup o u = a.toGroup o u :=
    State.toGroup_congr (s := a) (t := a.setOut o y) rfl (by rw [State.setOut_out, hy, Outlet.setPlace_relay]) rfl
  have hleft1 : 480 ≤ (b.started t).leftAt pos := by
    rw [FittedBreak.leftAt_eq (t := t) rfl]
    exact (Int.le_toNat (show 0 ≤ t + (b.len : Int) - pos by linarith)).2 (by exact_mod_cast hleft)
  obtain ⟨tl, e, htl⟩ := State.beginItem_form (a := a.setOut o y) (k := 0) hfit hw hit hres hleft1
  have e' : (a.setOut o y).beginItem o p 0 i pos =
      (((a.setOut o y).startVoice i (a.itemMult w)).setOut o
        { ((a.setOut o y).out o).setPlace p (some ((b.started t).slotBegun 0 it a.now (pos + it.playLen + it.join))) with
          tallies := tl }).requestSlot o p 1 ((a.setOut o y).toGroup o (pos + it.playLen + it.join)) := e
  have hrun := State.startFit_firstItem hb hpos hplays hh he hres hle hleft hit hsub hplay hv hw hp
  rw [State.started_out hb, ← hy, e', hgroup, State.startVoice, State.startVoiceWith_setOut, State.setOut_setOut, State.setOut_out] at hrun
  rw [hrun, htl (by rwa [State.setOut_out, htallies]), State.setOut_out, htallies, hy, Outlet.setPlace_setPlace]
  rfl

end starts

end Sys2Proof.Machine
end

section
/-! A FOLLOW break that starts without its first item, in FALLBACK or as a shadow, and the tail of a shadow (R61, R64, R66, R67). -/

namespace Sys2Proof.Machine

/-! ### No voice of a place (R60, R96) -/

/-- No request waits, and no voice of the outlet is of a slot of the place. -/
structure State.Unvoiced (s : State) (o : OutletId) (p : Place) : Prop where
  queue : s.voiceQueue = []
  voices : ∀ i w, s.voice i = some w → w.outlet = o → ∀ k, w.holder ≠ .slot p k

section unvoiced
variable {s : State} {o : OutletId} {p : Place}

theorem State.Unvoiced.of_voices {t : State} (h : s.Unvoiced o p) (hq : t.voiceQueue = s.voiceQueue) (hv : t.voices = s.voices) :
    t.Unvoiced o p := ⟨hq.trans h.queue, fun i w hw => h.voices i w (by rw [State.voice, ← hv]; exact hw)⟩

theorem State.Unvoiced.elapse (h : s.Unvoiced o p) (n : Nat) : (s.elapse n).Unvoiced o p := by
  refine ⟨(State.elapse_voiceQueue s n).trans h.queue, fun i w hw ho k hk => ?_⟩
  rw [State.elapse_voice_map] at hw
  obtain ⟨u, hu, rfl⟩ := Option.map_eq_some_iff.1 hw
  rw [VoiceUse.elapse_eq] at ho hk
  exact h.voices i u hu ho k hk

theorem State.Unvoiced.primedVoice (h : s.Unvoiced o p) (k : Nat) : s.primedVoice o (.slot p k) = none := by
  have hnone : s.voiceOf o (.slot p k) = none := Option.eq_none_iff_forall_ne_some.2 fun i hi => by
    obtain ⟨w, hw, ho, hk⟩ := State.voiceOf_holds hi
    exact h.voices i w hw ho k hk
  rw [State.primedVoice, hnone]
  rfl

theorem Holder.ofPlace_iff {h : Holder} {p : Place} : h.ofPlace p = true ↔ ∃ k, h = .slot p k := by
  cases h <;> simp [Holder.ofPlace]

theorem State.voicesWhere_nil {o : OutletId} {f : VoiceUse → Bool} (h : ∀ i w, s.voice i = some w → w.outlet = o → f w = false) :
    s.voicesWhere o f = [] := List.eq_nil_iff_forall_not_mem.2 fun i hi => by
  have hsome := (List.mem_filter.1 hi).2
  rw [Option.any_eq_true] at hsome
  obtain ⟨w, hw, hc⟩ := hsome
  rw [Bool.and_eq_true, beq_iff_eq] at hc
  rw [h i w hw hc.1] at hc
  exact nomatch hc.2

theorem State.Unvoiced.slotVoices (h : s.Unvoiced o p) : s.slotVoices o p = [] :=
  State.voicesWhere_nil fun i w hw ho => by
    have hnone : w.slotOf p = none := Option.eq_none_iff_forall_ne_some.2 fun k hk => h.voices i w hw ho k (VoiceUse.slotOf_eq.1 hk)
    rw [hnone]
    exact Bool.and_false _

/-- What is of no slot of the place is given up by nobody (R90, R96). -/
theorem State.Unvoiced.giveUpWhere (h : s.Unvoiced o p) {k : Holder → Bool} (hk : ∀ x, k x = true → x.ofPlace p = true) :
    s.giveUpWhere o k = s := by
  have hnone : s.voicesWhere o (fun u => k u.holder) = [] := State.voicesWhere_nil fun i w hw ho => by
    cases hc : k w.holder with
    | false => rfl
    | true =>
      obtain ⟨j, hj⟩ := Holder.ofPlace_iff.1 (hk _ hc)
      exact absurd hj (h.voices i w hw ho j)
  unfold State.giveUpWhere
  rw [State.filterQueue_empty h.queue]
  dsimp only
  rw [hnone]
  exact State.offerAll_empty h.queue

end unvoiced

/-! ### The start without a voice (R61, R66, R67) -/

section starts
variable {a : State} {o : OutletId} {p : Place} {b : FittedBreak} {t pos : Time}

/-- A break whose first item has no voice PRIMED becomes RUNNING and waits (R61). -/
theorem State.startFit_unvoiced {it : BreakItem} (hv : a.Unvoiced o p) (hb : a.fit o p = some b) (hpos : a.position o = some pos)
    (hit : b.items[0]? = some it) (hsub : it.progress ≠ .substituted) :
    a.startFit o p t = a.setOut o ((a.out o).setPlace p (some (b.started t))) := by
  obtain ⟨y, hy⟩ : ∃ y, y = (a.out o).setPlace p (some (b.started t)) := ⟨_, rfl⟩
  have hfit : (a.setOut o y).fit o p = some (b.started t) := by
    rw [State.fit, State.setOut_out, hy]
    cases p <;> rfl
  have hpos1 : (a.setOut o y).position o = some pos :=
    (State.position_congr (s := a) (t := a.setOut o y) rfl (by rw [State.setOut_out, hy, Outlet.setPlace_relay]) rfl).trans hpos
  have hnone : (a.setOut o y).primedVoice o (.slot p 0) = none := (hv.of_voices (t := a.setOut o y) rfl rfl).primedVoice 0
  have hwaits : (a.setOut o y).stepFit o p = none := by
    unfold State.stepFit
    rw [hfit, hpos1]
    dsimp only
    split
    · have hbed := FittedBreak.unbedded (b := b.started t) (fun j _ hj _ => nomatch hj) (a.setOut o y) o p hfit
      have hcursor : (b.started t).cursor = 0 := rfl
      have hdue : (b.started t).due = some t := rfl
      have hitem : (b.started t).items[0]? = some it := hit
      rw [hbed, hcursor, hdue]
      dsimp only
      rw [hitem]
      dsimp only
      rw [if_neg (show ¬ (it.progress == .substituted) = true by simpa using hsub), hnone]
      exact ite_self none
    · rfl
  show State.runFit (63 + 1) (a.modFit o p fun b => b.started t) o p = _
  rw [State.started_out hb, ← hy, State.runFit, hwaits]

/-- A shadow break with no voice to release (R66). -/
theorem State.shadowFit_unvoiced (hv : a.Unvoiced o p) (hb : a.fit o p = some b) (ht : b.start = some t) :
    a.shadowFit o p t =
      a.setOut o ((a.out o).setPlace p
        (some
          { b with
            state := .running
            announced := false
            due := none
            items := b.items.map fun it => if it.progress = .priming then { it with progress := .waiting } else it })) := by
  have hplace : (a.out o).place p = some b := hb
  unfold State.shadowFit
  refine ((hv.of_voices (t := a.modFit o p _) rfl rfl).giveUpWhere fun _ h => h).trans ?_
  rw [State.modFit, State.modOut, hplace, ← ht]
  simp only [Option.map_some, beq_iff_eq]

theorem breakRecords_breakTag (b : FittedBreak) (p : Place) (d : Time) : ∀ r ∈ breakRecords b p d, r.1.breakTag = some b.tag := by
  intro r hr
  simp only [breakRecords, List.mem_append, List.mem_map, List.mem_flatMap] at hr
  rcases hr with (⟨x, -, rfl⟩ | ⟨x, -, hx⟩) | hx
  · rfl
  · rcases List.mem_cons.1 hx with rfl | hx
    · rfl
    · split at hx
      · rw [List.mem_singleton.1 hx]
        rfl
      · cases hx
  · split at hx
    · rw [List.mem_singleton.1 hx]
      rfl
    · cases hx

/-- What a break ended early on a FOLLOW outlet leaves of its place: SPENT to its rejoin, its records written (R67, R68). -/
structure State.EndsSpent (o : OutletId) (p : Place) (tag : Nat) (t : Time) (s u : State) : Prop where
  fit : ∃ f, u.fit o p = some f ∧ f.state = .spent ∧ f.tag = tag ∧ f.start = some t ∧ f.items = []
  log : ∃ rs, s.log.Wrote u.log rs ∧ ∀ r ∈ rs, r.breakTag = some tag
  spots : (u.out o).spots = (s.out o).spots.filter fun l => l.tag != tag

/-- A break that is ending ends once none of its voices sounds (R67). -/
theorem State.finishEnding_spent (hf : a.isFollow o = true) (hv : a.slotVoices o p = []) (hb : a.fit o p = some b)
    (ht : b.start = some t) (he : b.ending = true) : State.EndsSpent o p b.tag t a (a.finishEnding o p) := by
  obtain ⟨lg, tl, rs, e, hw, hrs⟩ := a.recordAll_eq o (breakRecords b p (a.posDelay o))
  have hplace : (a.out o).place p = some b := hb
  have hwrite : a.writeBreak o p = ({ a with log := lg } : State).setOut o
      { a.out o with tallies := tl, spots := (a.out o).spots.filter fun l => l.tag != b.tag } := by
    unfold State.writeBreak
    rw [hb]
    dsimp only
    rw [e]
    simp only [State.modOut, State.setOut_out, State.setOut_setOut]
  have hx : ∀ tl sp, ({ a.out o with tallies := tl, spots := sp } : Outlet).place p = some b := fun _ _ => by
    rw [← hplace]
    cases p <;> rfl
  unfold State.finishEnding
  rw [hb]
  dsimp only
  rw [if_pos (by simp [he, hv]), if_pos hf, hwrite]
  refine ⟨⟨{ b with state := .spent, ending := false, items := [], drops := [], tail := .none, tailBed := none, due := none }, ?_, rfl, rfl,
    ht, rfl⟩, ⟨rs, hw, fun r hr => ?_⟩, ?_⟩
  · rw [State.modFit_fit, if_pos ⟨rfl, rfl⟩, State.fit, State.setOut_out, hx]
    rfl
  · have hmem : r.unnumbered ∈ (breakRecords b p (a.posDelay o)).map fun q => a.asWritten o q.1 := hrs ▸ List.mem_map_of_mem hr
    obtain ⟨q, hq, hqr⟩ := List.mem_map.1 hmem
    exact (congrArg Record.breakTag hqr.symm).trans (breakRecords_breakTag b p _ q hq)
  · rw [State.modFit, State.modOut_out, State.setOut_out]
    cases p <;> rfl

/-- In FALLBACK a break ends as it starts (R67). -/
theorem State.startFollow_fallback (hf : a.isFollow o = true) (hv : a.Unvoiced o p) (hb : a.fit o p = some b)
    (hair : (a.out o).inFallback = true) : State.EndsSpent o p b.tag t a (a.startFollow o p b t) := by
  have hheard : ∀ v : State, v.Unvoiced o p → v.endEarly o p = v.modFit o p fun b => b.endedEarly [] := fun v hu => by
    have hslots : v.slotsHeard o p = [] := by rw [State.slotsHeard, hu.slotVoices]; rfl
    unfold State.endEarly
    rw [hslots, hu.slotVoices]
    dsimp only [List.foldl_nil]
    exact (hu.of_voices (t := v.modFit o p fun b => b.endedEarly []) rfl rfl).giveUpWhere fun x hx => (Bool.and_eq_true_iff.1 hx).1
  obtain ⟨c, hc⟩ : ∃ c, c = (a.modFit o p fun b => { b with state := .running, start := some t }).modFit o p fun b => b.endedEarly [] :=
    ⟨_, rfl⟩
  have hfit : c.fit o p = some (({ b with state := .running, start := some t } : FittedBreak).endedEarly []) := by
    rw [hc, State.modFit_fit, if_pos ⟨rfl, rfl⟩, State.modFit_fit, if_pos ⟨rfl, rfl⟩, hb]
    rfl
  have hcv : c.Unvoiced o p := hv.of_voices (by rw [hc]; rfl) (by rw [hc]; rfl)
  have hends := State.finishEnding_spent (a := c) (by rw [hc]; exact hf) hcv.slotVoices hfit rfl rfl
  have hspots : (c.out o).spots = (a.out o).spots := by
    rw [hc, State.modFit, State.modOut_out, State.modFit, State.modOut_out]
    cases p <;> rfl
  have hlog : c.log = a.log := by rw [hc]; rfl
  have hrun : a.startFollow o p b t = c.finishEnding o p := by
    unfold State.startFollow
    dsimp only
    rw [if_pos hair, hheard _ (hv.of_voices (t := a.modFit o p _) rfl rfl), hc]
  rw [hrun]
  exact ⟨hends.fit, hlog ▸ hends.log, hspots ▸ hends.spots⟩

/-! ### The tail of a shadow (R64, R66, R79) -/

theorem BreakItem.followed_eq {it : BreakItem} (h : it.actual = none → it.progress ≠ .substituted →
    it.mark = .elsewhere ∧ it.progress = .ended ∧ t + it.offset + it.playLen ≤ pos) :
    (if it.actual.isSome || it.progress == .substituted || decide (pos < t + it.offset) then it
      else { it with mark := .elsewhere, progress := if t + it.offset + it.playLen ≤ pos then .ended else .sounding }) = it := by
  split
  · rfl
  · rename_i hc
    simp only [Bool.or_eq_true, not_or, beq_iff_eq, Option.not_isSome_iff_eq_none] at hc
    obtain ⟨hmark, hended, hover⟩ := h hc.1.1 hc.1.2
    rw [if_pos hover, ← hmark, ← hended]

/-- A shadow break every slot of which is over follows its plan no further (R66). -/
theorem FittedBreak.followPlan_over (ht : b.start = some t) (h : ∀ it ∈ b.items, it.actual = none → it.progress ≠ .substituted →
    it.mark = .elsewhere ∧ it.progress = .ended ∧ t + it.offset + it.playLen ≤ pos) : b.followPlan pos = b := by
  have hitems : b.items.map (fun it =>
      if it.actual.isSome || it.progress == .substituted || decide (pos < t + it.offset) then it
      else { it with mark := .elsewhere, progress := if t + it.offset + it.playLen ≤ pos then .ended else .sounding }) = b.items :=
    (List.map_congr_left fun it hit => BreakItem.followed_eq (h it hit)).trans (List.map_id' b.items)
  unfold FittedBreak.followPlan
  rw [ht]
  dsimp only
  rw [hitems, ← ht]

/-- An EARLY_REJOIN tail begins: the relay ramps in from there (R64, R79). -/
theorem State.beginTail_early (hb : a.fit o p = some b) (htail : b.tail = .earlyRejoin) (at_ : Time) :
    a.beginTail o p at_ =
      a.setOut o { (a.out o).setPlace p (some { b with tailBegan := some at_ }) with relay := (a.out o).relay.ramped a.clock unity } := by
  have hplace : (a.out o).place p = some b := hb
  have hmod : (a.modFit o p fun b => { b with tailBegan := some at_ }) =
      a.setOut o ((a.out o).setPlace p (some { b with tailBegan := some at_ })) := by
    rw [State.modFit, State.modOut, hplace]
    rfl
  have hfit : (a.setOut o ((a.out o).setPlace p (some { b with tailBegan := some at_ }))).fit o p = some { b with tailBegan := some at_ } := by
    rw [State.fit, State.setOut_out]
    cases p <;> rfl
  unfold State.beginTail
  dsimp only
  rw [hmod, hfit]
  dsimp only
  rw [if_pos (by simp [htail]), State.modOut, State.setOut_out, State.setOut_setOut, Outlet.setPlace_relay]
  rfl

/-- The EARLY_REJOIN tail of a shadow begins where its plan has it (R64, R66, R79). -/
theorem State.stepShadow_tail (hf : a.isFollow o = true) (hb : a.fit o p = some b) (ht : b.start = some t) (hpos : a.followed o = some pos)
    (hr : b.state = .running) (hair : (a.out o).air.sends = false) (htail : b.tail = .earlyRejoin) (hbegan : b.tailBegan = none)
    (hle : t + b.len - b.tailLen ≤ pos) (hlt : pos < t + b.len) (hover : ∀ it ∈ b.items, it.actual = none → it.progress ≠ .substituted →
      it.mark = .elsewhere ∧ it.progress = .ended ∧ t + it.offset + it.playLen ≤ pos) :
    a.stepShadow o p = some (a.beginTail o p (t + b.len - b.tailLen)) := by
  have hplan : b.tailPlan = some (t + b.len - b.tailLen) := by
    rw [FittedBreak.tailPlan, if_pos (by simp [htail, hbegan]), ht]
    rfl
  unfold State.stepShadow
  rw [hb, State.reachedPos_follow hf, hpos]
  dsimp only
  rw [if_pos (by simp [hr, hair]), if_neg (by simp [FittedBreak.followPlan_over ht hover]), hplan, Option.filter_some,
    if_pos (by simp [hle, hlt])]
  rfl

theorem Outlet.playsTimeline_silent {x : Outlet} (h : x.air.sends = false) : x.playsTimeline = false := by
  rw [Outlet.playsTimeline, h]
  rfl

theorem State.stepFit_silent (h : (a.out o).air.sends = false) : a.stepFit o p = none := by
  unfold State.stepFit
  split
  · dsimp only
    rw [if_neg (by simp [Outlet.playsTimeline_silent h])]
  · rfl

/-- ITEM_DUE_TIME on an outlet that does not send: its shadow break moves on (R66). -/
theorem exec_itemDueTime_shadow {s v : State} (hp : s.powered = true) (dt : Nat) (hf : s.isFollow o = true)
    (hb : (s.elapse dt).fit o p = some b) (hr : b.state = .running) (hair : (s.out o).air.sends = false)
    (hpos : (s.elapse dt).followed o = some pos) (hv : (s.elapse dt).stepShadow o p = some v) :
    exec (.itemDueTime dt o p) s = .next (v.finish (s.elapse dt)) := by
  have hfollow : (s.elapse dt).isFollow o = true := (State.elapse_isFollow s dt o).trans hf
  have hcome : (s.elapse dt).itemDue o p = true := by
    unfold State.itemDue
    rw [hb, State.reachedPos_follow hfollow, hpos]
    simp [hr, hv]
  have hsilent : ((s.elapse dt).out o).air.sends = false := (congrArg Air.sends (State.elapse_out_air s dt o)).trans hair
  rw [exec, execItemDueTime, State.run_powered hp, if_pos hcome, State.stepFit_silent hsilent, orStep, hv]
  rfl

end starts

end Sys2Proof.Machine

open Sys2Proof Sys2Proof.Machine

/-- Settles O52: each swap by its own condition, the start by the outlet's air state, the tail of a shadow by its plan. -/
theorem followBreaksStart : Obligations.FollowBreaksStart := by
  intro s dt o p b t pos hp hf hb ht hpos a x m ramps out back none' result
  have hfollow : a.isFollow o = true := (State.elapse_isFollow s dt o).trans hf
  have hfit : a.fit o p = some b := (State.elapse_out_place s dt o p).trans hb
  have hair : (a.out o).air = x.air := State.elapse_out_air s dt o
  have hposition : a.position o = some pos := (State.position_follow hfollow).trans hpos
  have hback : back ↔ b.state = .running ∧ t + b.len - 240 ≤ pos ∧ pos < t + b.len ∧ m.value a.clock = 0 ∧ m.m1 = 0 ∧
      (a.out o).inFallback = false ∧ ¬ (b.tail = .earlyRejoin ∧ b.tailBegan.isSome = true) := by
    rw [State.elapse_out_inFallback]
  have hresult : result = .next ((if b.state = .armed ∧ t ≤ pos then a.startFollow o p b t else a).finish a) := by
    rw [← State.breakStart_eq hfollow hfit ht hpos]
    exact exec_breakStart hp dt o p
  have hstarts : b.state = .armed → t ≤ pos → result = .next ((a.startFollow o p b t).finish a) := fun hs hle => by
    rw [hresult, if_pos ⟨hs, hle⟩]
  have hunvoiced : none' → a.Unvoiced o p := fun h => State.Unvoiced.elapse ⟨h.1, h.2⟩ dt
  refine ⟨fun h => ?_, fun h => ?_, fun h => ?_, fun h => ?_, fun h => ?_, ?_, fun hs hle hn => ⟨fun hoff => ?_, fun hon he hit => ?_,
    fun hfall => ?_⟩, ?_⟩
  · rw [exec_swapOutStart hp, State.swapOut_eq hfit ht hpos, if_pos h]
    rfl
  · rw [exec_swapOutStart hp, State.swapOut_eq hfit ht hpos, if_neg h]
  · rw [exec_swapInStart hp, State.swapIn_eq hfit ht hpos, if_pos (hback.1 h)]
    rfl
  · rw [exec_swapInStart hp, State.swapIn_eq hfit ht hpos, if_neg (mt hback.2 h)]
  · rw [hresult, if_neg]
    rintro ⟨hs, hle⟩
    exact h.elim (absurd hs) (not_lt.2 hle)
  · intro it i w hs hle hon he hres hit hsub hplay hleft hv hw hprimed hh htal c next v
    have hmult : a.itemMult w = .steady (multiplier (((s.store.find w.cart w.serial).map Version.trim).getD 0)) := by
      rw [State.itemMult, State.elapse_store]
    have hv' : a.startFit o p t = v := by
      rw [State.startFit_sounds hfit hposition (Outlet.playsTimeline_onAir (hair.trans hon)) ((State.elapse_horizon s dt).trans hh) he hres
        hle hleft hit hsub hplay hv hw hprimed (by rw [State.elapse_out_tallies]; exact htal), FittedBreak.slotBegun_started ht,
        State.elapse_out_tallies, hmult]
    have hrelay : (v.out o).relay = (a.out o).relay := by
      refine (State.requestSlot_relay _ o p 1 _).1.trans ?_
      rw [State.setOut_out]
      exact Outlet.setPlace_relay _ _ _
    have hclock : v.clock = a.clock :=
      (State.requestSlot_relay _ o p 1 _).2.trans (a.startVoiceWith_engine i _).clock
    rw [hstarts hs hle, State.startFollow_onAir ht (hair.trans hon), hv', State.relayTo_congr hrelay hclock]
    rfl
  · rw [hstarts hs hle, State.startFollow_shadow ht (by rw [hair]; exact hoff), State.shadowFit_unvoiced (hunvoiced hn) hfit ht]
  · obtain ⟨it, hit, hsub⟩ := hit
    rw [hstarts hs hle, State.startFollow_onAir ht (hair.trans hon), State.startFit_unvoiced (hunvoiced hn) hfit hposition hit hsub]
    by_cases hm : m.m1 = 0
    · rw [if_pos hm, if_pos hm, FittedBreak.started_eq ht]
      cases p <;> rfl
    · rw [if_neg hm, if_neg hm, State.relayTo_eq, State.setOut_out, State.setOut_setOut, Outlet.setPlace_relay, FittedBreak.started_eq ht]
      rfl
  · have hends := State.startFollow_fallback (t := t) hfollow (hunvoiced hn) hfit (by simp [Outlet.inFallback, hair, hfall])
    obtain ⟨f, hplace, hspent, htag, hstart, hitems⟩ := hends.fit
    obtain ⟨rs, hw, hrs⟩ := hends.log
    exact ⟨_, f, rs, hstarts hs hle, hplace, hspent, htag, hstart, hitems, State.elapse_log s dt ▸ hw, hrs,
      hends.spots.trans (congrArg _ (State.elapse_out_spots s dt o))⟩
  · intro hr hoff htail hbegan hh hle hlt hover
    have hrun := exec_itemDueTime_shadow hp dt hf hfit hr hoff hpos
      (State.stepShadow_tail hfollow hfit ht hpos hr (by rw [hair]; exact hoff) htail hbegan hle hlt hover)
    rw [State.beginTail_early hfit htail] at hrun
    exact hrun
end

section
/-! CUE frames on the FOLLOW outlet of their feed: the cue for a tag held or new, and what a release leaves (R48 to R51, R60). -/

namespace Sys2Proof.Machine

/-! ### The outlets of a feed (R48) -/

theorem Air.dark_of_off {x y : Air} (h : x.off = y.off) (hx : x = .dark) : y = .dark := by
  subst hx
  cases y with
  | dark => rfl
  | _ => exact absurd h (by decide)

/-- What an outlet does with the cue of a feed (R48). -/
def State.hearCue (feed : Nat) (c : Cue) (s : State) (o : OutletId) : State :=
  if s.isFollow o && (s.ocfg o).followFeed == feed && (s.out o).air != .dark then s.takeCue o c else s

/-- The outlet follows the feed and is not DARK. -/
def State.FollowsFeed (s : State) (feed : Nat) (o : OutletId) : Prop :=
  s.isFollow o = true ∧ (s.ocfg o).followFeed = feed ∧ (s.out o).air ≠ .dark

theorem State.hearCue_eq (s : State) (feed : Nat) (c : Cue) (o : OutletId) [Decidable (s.FollowsFeed feed o)] :
    s.hearCue feed c o = if s.FollowsFeed feed o then s.takeCue o c else s := by
  unfold State.hearCue
  refine if_congr ?_ rfl rfl
  simp only [State.FollowsFeed, Bool.and_eq_true, beq_iff_eq, bne_iff_ne, and_assoc]

/-- The FOLLOW outlet that alone follows a feed takes its cue. -/
theorem State.takeCueFeed_alone {s : State} {feed : Nat} {o : OutletId} (ho : s.FollowsFeed feed o)
    (halone : ∀ p, p ≠ o → ¬ s.FollowsFeed feed p) (c : Cue) : s.takeCueFeed feed c = s.takeCue o c := by
  classical
  have hown : s.hearCue feed c o = s.takeCue o c := by rw [State.hearCue_eq, if_pos ho]
  have hmoves : State.Moves true s (s.takeCue o c) := State.takeCue_moves .refl o c
  have hcfg : (s.takeCue o c).cfg = s.cfg := congrArg (fun b => b.2.2.2.1) hmoves.base
  have hother : ∀ p, p ≠ o → ¬ (s.takeCue o c).FollowsFeed feed p := fun p hp hf => by
    obtain ⟨hfollow, hfeed, hlit⟩ := hf
    rw [State.isFollow, State.ocfg, hcfg] at hfollow
    rw [State.ocfg, hcfg] at hfeed
    have hoff := hmoves.fixed p
    simp only [Outlet.fixed, Prod.mk.injEq] at hoff
    exact halone p hp ⟨hfollow, hfeed, fun hd => hlit (Air.dark_of_off hoff.2.2.2.2.symm hd)⟩
  refine (OutletId.foldl_all_alone (f := State.hearCue feed c) o (fun p hp => ?_) fun p hp => ?_).trans hown
  · rw [State.hearCue_eq, if_neg (halone p hp)]
  · rw [hown, State.hearCue_eq, if_neg (hother p hp)]

/-! ### A cue of a tag (R49, R50) -/

section cues
variable {s : State} {o : OutletId} {c : Cue} {pos : Time}

theorem Outlet.placesWhere_head {x : Outlet} {g : FittedBreak → Bool} {p : Place} {f : FittedBreak} (hp : x.place p = some f)
    (hf : g f = true) (hone : ∀ q h, x.place q = some h → g h = true → q = p) : (x.placesWhere g).head? = some p := by
  have hmem : p ∈ x.placesWhere g := Outlet.mem_placesWhere.2 ⟨f, hp, hf⟩
  cases hl : x.placesWhere g with
  | nil => rw [hl] at hmem; cases hmem
  | cons q l =>
    obtain ⟨h, hq, hh⟩ := Outlet.mem_placesWhere.1 (hl ▸ List.mem_cons_self : q ∈ x.placesWhere g)
    rw [hone q h hq hh]
    rfl

theorem FittedBreak.hasBegun_iff {b : FittedBreak} : b.hasBegun pos = true ↔ b.state ≠ .armed ∨ ∃ t, b.start = some t ∧ t ≤ pos := by
  have hbegun : b.begun = true ↔ b.state ≠ .armed := by
    unfold FittedBreak.begun
    cases b.state <;> simp
  simp only [FittedBreak.hasBegun, Bool.or_eq_true, hbegun, Option.any_eq_true, decide_eq_true_eq]

/-- A cue for a tag the outlet holds (R49). -/
theorem State.takeCue_held {p : Place} {f : FittedBreak} (hpos : s.followed o = some pos) (hp : (s.out o).place p = some f)
    (ht : f.tag = c.tag) (hone : ∀ q g, (s.out o).place q = some g → g.tag = c.tag → q = p) :
    s.takeCue o c =
      if f.hasBegun pos then s
      else if c.cancel then s.releaseFollow o p pos
      else if f.start = some c.start ∧ f.len = clampLen c.len then s
      else (s.releaseFollow o p pos).judgeCue o c pos := by
  have hhead : ((s.out o).placesWhere fun b => b.tag == c.tag).head? = some p :=
    Outlet.placesWhere_head hp (by simpa using ht) fun q g hq hg => hone q g hq (by simpa using hg)
  have hfit : s.fit o p = some f := hp
  unfold State.takeCue
  rw [hpos]
  dsimp only
  rw [hhead]
  dsimp only
  rw [hfit]

/-- A cue for a tag the outlet does not hold (R50). -/
theorem State.takeCue_new (hpos : s.followed o = some pos) (hnew : ∀ p f, (s.out o).place p = some f → f.tag ≠ c.tag) :
    s.takeCue o c = s.judgeCue o c pos := by
  have hnone : (s.out o).placesWhere (fun b => b.tag == c.tag) = [] := List.eq_nil_iff_forall_not_mem.2 fun p hp => by
    obtain ⟨f, hf, ht⟩ := Outlet.mem_placesWhere.1 hp
    exact hnew p f hf (by simpa using ht)
  unfold State.takeCue
  rw [hpos]
  dsimp only
  rw [hnone]
  rfl

theorem State.judgeCue_cancel (h : c.cancel = true) : s.judgeCue o c pos = s := if_pos h

theorem State.judgeCue_late (h : c.cancel = false) (hlate : c.start - pos < 24000) : s.judgeCue o c pos = s.declineCue o c .late := by
  unfold State.judgeCue
  dsimp only
  rw [if_neg (by simp [h]), if_pos hlate]

section intime
variable (h : c.cancel = false) (htime : 24000 ≤ c.start - pos)
include h htime

theorem State.judgeCue_unlisted (hl : ∀ l ∈ (s.out o).spots, l.tag ≠ c.tag) : s.judgeCue o c pos = s := by
  have hfind : ((s.out o).spots.find? fun l => l.tag == c.tag) = none := List.find?_eq_none.2 fun l hm => by simpa using hl l hm
  unfold State.judgeCue
  dsimp only
  rw [if_neg (by simp [h]), if_neg (not_lt.2 htime), hfind]

variable {l : SpotList} (hl : ((s.out o).spots.find? fun l => l.tag == c.tag) = some l)
include hl

theorem State.judgeCue_full (hfull : (s.out o).freePlace = none) : s.judgeCue o c pos = s.declineCue o c .overflow := by
  unfold State.judgeCue
  dsimp only
  rw [if_neg (by simp [h]), if_neg (not_lt.2 htime), hl]
  dsimp only
  rw [hfull]

variable {p : Place} (hfree : (s.out o).freePlace = some p)
include hfree

theorem State.judgeCue_unfit
    (hfit : fitBreak s.store true c.tag (clampLen c.len) none (some c.start) (some l) (s.out o).fills (s.out o).bed = none) :
    s.judgeCue o c pos = s := by
  unfold State.judgeCue
  dsimp only
  rw [if_neg (by simp [h]), if_neg (not_lt.2 htime), hl]
  dsimp only
  rw [hfree]
  dsimp only
  rw [hfit]

theorem State.judgeCue_fits {f : FittedBreak}
    (hfit : fitBreak s.store true c.tag (clampLen c.len) none (some c.start) (some l) (s.out o).fills (s.out o).bed = some f) :
    s.judgeCue o c pos =
      (s.setOut o ((s.out o).setPlace p (some f))).requestSlot o p 0 (s.toGroup o c.start) := by
  unfold State.judgeCue
  dsimp only
  rw [if_neg (by simp [h]), if_neg (not_lt.2 htime), hl]
  dsimp only
  rw [hfree]
  dsimp only
  rw [hfit]
  rfl

end intime

/-- The memory of a declined cue (R50). -/
def Cue.decline (c : Cue) (r : DeclineReason) : DeclinedCue := { tag := c.tag, start := c.start, len := clampLen c.len, reason := r }

/-- The kind of capture a decline latches (R50, R172). -/
def DeclineReason.kind : DeclineReason → FaultKind
  | .late => .lateCue
  | .overflow => .cueOverflow

theorem State.declineCue_known {r : DeclineReason} (h : (s.out o).declined = some (c.decline r)) : s.declineCue o c r = s := if_pos h

theorem State.declineCue_new {r : DeclineReason} (h : (s.out o).declined ≠ some (c.decline r)) :
    s.declineCue o c r = (s.setOut o { s.out o with declined := some (c.decline r) }).latch
      { FaultInfo.bare r.kind with outlet := some o, node := some c.sender } := by
  refine (if_neg h).trans ?_
  cases r <;> rfl

/-- A declined cue is remembered, and latches its capture the first time (R50). -/
theorem State.declineCue_out (s : State) (o : OutletId) (c : Cue) (r : DeclineReason) :
    (∀ p, ((s.declineCue o c r).out o).place p = (s.out o).place p) ∧ ((s.declineCue o c r).out o).declined = some (c.decline r) ∧
      ((s.out o).declined ≠ some (c.decline r) → ((s.declineCue o c r).captures.slot r.kind.cls).first.isSome = true) := by
  by_cases h : (s.out o).declined = some (c.decline r)
  · rw [State.declineCue_known h]
    exact ⟨fun _ => rfl, h, fun hn => absurd h hn⟩
  · rw [State.declineCue_new h]
    have hout : ((s.setOut o { s.out o with declined := some (c.decline r) }).latch
        { FaultInfo.bare r.kind with outlet := some o, node := some c.sender }).out o =
        { s.out o with declined := some (c.decline r) } := State.setOut_out s o _
    rw [hout]
    exact ⟨fun p => by cases p <;> rfl, rfl, fun _ => Option.isSome_iff_exists.2 (State.latch_first _ _)⟩

end cues

theorem Outlet.freePlace_first {x : Outlet} (h : x.place .first = none) : x.freePlace = some .first := if_pos (Option.isNone_iff_eq_none.2 h)

theorem Outlet.freePlace_second {x : Outlet} (h1 : (x.place .first).isSome = true) (h2 : x.place .second = none) :
    x.freePlace = some .second := by
  have h1' : x.place1.isSome = true := h1
  have h2' : x.place2 = none := h2
  simp [Outlet.freePlace, h2', Option.isSome_iff_ne_none.1 h1']

theorem Outlet.freePlace_none {x : Outlet} (h1 : (x.place .first).isSome = true) (h2 : (x.place .second).isSome = true) :
    x.freePlace = none := by
  have h1' : x.place1.isSome = true := h1
  have h2' : x.place2.isSome = true := h2
  simp [Outlet.freePlace, Option.isSome_iff_ne_none.1 h1', Option.isSome_iff_ne_none.1 h2']

/-! ### Places held while voices are offered (R91) -/

/-- The same places hold a break. -/
structure State.HoldsPlaces (s t : State) : Prop where
  fit : ∀ o p, (t.fit o p).isSome = (s.fit o p).isSome

section holds
variable {s t u : State}

theorem State.HoldsPlaces.refl (s : State) : s.HoldsPlaces s := ⟨fun _ _ => rfl⟩

theorem State.HoldsPlaces.trans (h : s.HoldsPlaces t) (h' : t.HoldsPlaces u) : s.HoldsPlaces u :=
  ⟨fun o p => (h'.fit o p).trans (h.fit o p)⟩

theorem State.HoldsPlaces.of_outlets (h : t.outlets = s.outlets) : s.HoldsPlaces t :=
  ⟨fun o p => by rw [State.fit, State.fit, State.out, State.out, h]⟩

theorem State.HoldsPlaces.modFit (s : State) (o : OutletId) (p : Place) (f : FittedBreak → FittedBreak) : s.HoldsPlaces (s.modFit o p f) := by
  refine ⟨fun q r => ?_⟩
  rw [State.modFit_fit]
  split
  · exact Option.isSome_map
  · rfl

theorem State.HoldsPlaces.modOut (s : State) (o : OutletId) {f : Outlet → Outlet} (hf : ∀ x p, (f x).place p = x.place p) :
    s.HoldsPlaces (s.modOut o f) := ⟨fun q r => by rw [State.modOut_fit fun x => hf x r]⟩

theorem State.HoldsPlaces.prime (s : State) (i : Nat) (o : OutletId) (h : Holder) (v : Version) (n : Nat) (l : Bool) (m : Time) :
    s.HoldsPlaces (s.prime i o h v n l m) := .of_outlets rfl

theorem State.HoldsPlaces.grant (s : State) (i : Nat) (r : VoiceRequest) : s.HoldsPlaces (s.grant i r) := by
  unfold State.grant
  split
  · split
    · exact .refl s
    · split
      · split
        · rename_i v _
          obtain ⟨k, hk⟩ := s.startSample_beside v.inCue _
          dsimp only
          rw [hk]
          exact .of_outlets rfl
        · exact .modOut s _ (f := fun x => x.modEntry _ fun e => { e with lost := true }) fun x p => by cases p <;> rfl
      · exact .refl s
  · unfold State.grantSlot
    dsimp only
    split
    · exact .refl s
    · split
      · split
        · exact (State.HoldsPlaces.prime s ..).trans (.modFit _ _ _ _)
        · split
          · exact (State.HoldsPlaces.modFit s _ _ _).trans (.prime _ ..)
          · exact .modFit s _ _ _
      · split
        · exact .prime s ..
        · exact .modFit s _ _ _
  · unfold State.grantFallback
    dsimp only
    split
    · exact (State.HoldsPlaces.prime s ..).trans (.modOut _ _ fun x p => by cases p <;> rfl)
    · exact .modOut s _ fun x p => by cases p <;> rfl
  · exact .refl s

theorem State.HoldsPlaces.offer (n : Nat) (s : State) : s.HoldsPlaces (State.offer n s) := by
  induction n generalizing s with
  | zero => exact .refl s
  | succ n ih =>
    unfold State.offer
    dsimp only
    obtain ⟨k, hk⟩ := s.pick_beside ((List.range s.voices.length).filter fun i => (s.claimant i).isSome).length
    rw [hk]
    split
    · exact .of_outlets rfl
    · split
      · exact .of_outlets rfl
      · refine State.HoldsPlaces.trans ?_ (ih _)
        refine State.HoldsPlaces.trans ?_ (.grant _ _ _)
        exact .of_outlets rfl

theorem State.HoldsPlaces.giveUpWhere (s : State) (o : OutletId) (k : Holder → Bool) : s.HoldsPlaces (s.giveUpWhere o k) := by
  unfold State.giveUpWhere State.freeVoices
  refine State.HoldsPlaces.trans ?_ (.offer _ _)
  exact .of_outlets ((State.Engine.refl _).foldl State.dropVoice _ State.dropVoice_engine).outlets

end holds

/-! ### A break released (R51) -/

/-- What the release of the break of a place leaves of its outlet. -/
structure State.Releases (o : OutletId) (p : Place) (a v : State) : Prop where
  place : (v.out o).place p = none
  other : ∀ q, q ≠ p → ((v.out o).place q).isSome = ((a.out o).place q).isSome
  spots : (v.out o).spots = (a.out o).spots
  fills : (v.out o).fills = (a.out o).fills
  bed : (v.out o).bed = (a.out o).bed
  declined : (v.out o).declined = (a.out o).declined
  group : ∀ t, v.toGroup o t = a.toGroup o t

theorem Outlet.vacate_place (x : Outlet) (p q : Place) : (x.vacate p).place q = if q = p then none else x.place q := by
  cases p <;> cases q <;> rfl

theorem State.releaseFit_releases (a : State) (o : OutletId) (p : Place) : State.Releases o p a (a.releaseFit o p) := by
  have hserves := (State.Serves.refl o a).releaseFit o p
  have hvacant : ∀ q, (a.modOut o fun x => x.vacate p).fit o q = if q = p then none else (a.out o).place q := fun q => by
    rw [State.fit, State.modOut_out, Outlet.vacate_place]
  have hholds := State.HoldsPlaces.giveUpWhere (a.modOut o fun x => x.vacate p) o (Holder.ofPlace p)
  refine ⟨?_, fun q hq => ?_, (congrArg Outlet.spots hserves.core : _), (congrArg Outlet.fills hserves.core : _),
    (congrArg Outlet.bed hserves.core : _), (congrArg Outlet.declined hserves.core : _),
    State.toGroup_congr hserves.cfg (congrArg Outlet.relay hserves.core : _) hserves.disc⟩
  · have := hholds.fit o p
    rw [hvacant, if_pos rfl] at this
    exact Option.isSome_eq_false_iff.1 this |> Option.isNone_iff_eq_none.1
  · have := hholds.fit o q
    rw [hvacant, if_neg hq] at this
    exact this

/-- The place a break released leaves free for the next one (R50, R51). -/
theorem State.Releases.freePlace {o : OutletId} {p q : Place} {a v : State} (h : State.Releases o p a v)
    (hq : q = .first ∧ (p = .first ∨ (a.out o).place .first = none) ∨
      q = .second ∧ p = .second ∧ ((a.out o).place .first).isSome = true) : (v.out o).freePlace = some q := by
  rcases hq with ⟨rfl, hq⟩ | ⟨rfl, rfl, hq⟩
  · refine Outlet.freePlace_first ?_
    by_cases hp : p = .first
    · exact hp ▸ h.place
    · have hsome := h.other .first (Ne.symm hp)
      rw [hq.resolve_left hp] at hsome
      exact Option.isNone_iff_eq_none.1 (Option.isSome_eq_false_iff.1 hsome)
  · exact Outlet.freePlace_second ((h.other .first (by decide)).trans hq) h.place

theorem State.toGroup_relayTo (s : State) (o : OutletId) (m : Int) (t : Time) : (s.relayTo o m).toGroup o t = s.toGroup o t := by
  have hdelay : (s.relayTo o m).relayDelay o = s.relayDelay o := by
    rw [State.relayTo_eq, State.relayDelay, State.setOut_out]
    rfl
  rw [State.toGroup, State.toGroup, hdelay]
  rfl

theorem State.Releases.relayTo {o : OutletId} {p : Place} {a v : State} (h : State.Releases o p a v) (m : Int) :
    State.Releases o p a (v.relayTo o m) := by
  have hout : (v.relayTo o m).out o = { v.out o with relay := (v.out o).relay.ramped v.clock m } := by
    rw [State.relayTo_eq, State.setOut_out]
  have hplace : ∀ q, ((v.relayTo o m).out o).place q = (v.out o).place q := fun q => by
    rw [hout]
    cases q <;> rfl
  refine ⟨(hplace p).trans h.place, fun q hq => (congrArg _ (hplace q)).trans (h.other q hq), ?_, ?_, ?_, ?_, fun t =>
    (v.toGroup_relayTo o m t).trans (h.group t)⟩
  all_goals rw [hout]
  exacts [h.spots, h.fills, h.bed, h.declined]

theorem State.releaseFollow_releases (a : State) (o : OutletId) (p : Place) (pos : Time) :
    State.Releases o p a (a.releaseFollow o p pos) := by
  unfold State.releaseFollow
  dsimp only
  split
  · exact (a.releaseFit_releases o p).relayTo _
  · exact a.releaseFit_releases o p

end Sys2Proof.Machine

open Sys2Proof Sys2Proof.Machine

/-- Settles O51: the cue reaches the one outlet alone; a tag held is released or left, any other judged with what the release leaves. -/
theorem cuesAreTaken : Obligations.CuesAreTaken := by
  intro s dt h b o pos hp hh h1 h64 htag hcancel hfollow hfeed hlit halone hpos a x len result declined
  obtain ⟨c, hc⟩ : ∃ c, c = cueOf b h.sender := ⟨_, rfl⟩
  have hctag : c.tag = b.tag := congrArg Cue.tag hc
  have hcstart : c.start = b.start := congrArg Cue.start hc
  have hclen : clampLen c.len = len := congrArg (fun c => clampLen c.len) hc
  have hcancelled : b.cancel = 1 → c.cancel = true := fun h => by simp [hc, cueOf, h]
  have hkept : b.cancel = 0 → c.cancel = false := fun h => by simp [hc, cueOf, h]
  have hdecline : ∀ r, c.decline r = { tag := b.tag, start := b.start, len := len, reason := r } := fun r => by rw [hc]; rfl
  have hfollows : ∀ q, a.FollowsFeed b.feed q ↔ s.isFollow q = true ∧ (s.ocfg q).followFeed = b.feed ∧ (s.out q).air ≠ .dark := fun q => by
    rw [State.FollowsFeed, State.elapse_isFollow, State.elapse_ocfg, State.elapse_out_air]
  have hresult : result = .next ((a.takeCue o c).finish a) := by
    rw [hc, ← State.takeCueFeed_alone ((hfollows o).2 ⟨hfollow, hfeed, hlit⟩) fun p hne hf => halone p hne ((hfollows p).1 hf)]
    exact exec_cueFrame hp hh (cueOk_iff.2 ⟨⟨h1, h64⟩, htag, hcancel⟩) dt
  have hplace : ∀ p, (a.out o).place p = x.place p := State.elapse_out_place s dt o
  have hspots : (a.out o).spots = x.spots := State.elapse_out_spots s dt o
  have hfills : (a.out o).fills = x.fills := State.elapse_out_fills s dt o
  have hbed : (a.out o).bed = x.bed := State.elapse_out_bed s dt o
  have hdeclined : (a.out o).declined = x.declined := State.elapse_out_declined s dt o
  refine ⟨fun p f hf ht hone => ?_, fun hnew => ?_⟩
  · -- the outlet holds the tag
    have hheld := State.takeCue_held (c := c) hpos ((hplace p).trans hf) (ht.trans hctag.symm) fun q g hg htg =>
      hone q g ((hplace q).symm.trans hg) (htg.trans hctag)
    rw [hheld] at hresult
    refine ⟨fun hb => by rw [hresult, if_pos (FittedBreak.hasBegun_iff.2 hb)], fun hs hstart => ?_⟩
    have hyet : ¬ f.hasBegun pos = true := by
      rw [FittedBreak.hasBegun_iff]
      rintro (h | ⟨t, ht, hle⟩)
      · exact h hs
      · exact not_lt.2 hle (hstart t ht)
    rw [if_neg hyet] at hresult
    refine ⟨fun h => by rw [hresult, if_pos (hcancelled h)], fun h hs hl => ?_, fun h hdiff => ?_⟩
    · rw [hresult, if_neg (by simp [hkept h]), if_pos ⟨hs.trans (congrArg some hcstart.symm), hl.trans hclen.symm⟩]
    · rw [if_neg (by simp [hkept h]), if_neg (by rw [hcstart, hclen]; exact hdiff)] at hresult
      intro v
      have hv : State.Releases o p a v := a.releaseFollow_releases o p pos
      refine ⟨hv.place, fun hlate => ?_, fun htime hl => ?_, fun l htime hl q hq => ?_⟩
      · obtain ⟨hplaces, hmemory, hcapture⟩ := v.declineCue_out o c .late
        refine ⟨_, hresult.trans (by rw [State.judgeCue_late (hkept h) (hcstart ▸ hlate)]), (hplaces p).trans hv.place, ?_, fun hx =>
          hcapture ?_⟩
        · rw [hmemory, hdecline]
        · rw [hv.declined, hdeclined, hdecline]
          exact hx
      · rw [hresult, State.judgeCue_unlisted (hkept h) (hcstart ▸ htime) (by rw [hv.spots, hspots, hctag]; exact hl)]
      · have hfree : (v.out o).freePlace = some q := hv.freePlace (by rwa [hplace])
        have hlist : (v.out o).spots.find? (fun l => l.tag == c.tag) = some l := by rw [hv.spots, hspots, hctag]; exact hl
        have hfit : fitBreak v.store true c.tag (clampLen c.len) none (some c.start) (some l) (v.out o).fills (v.out o).bed =
            fitBreak v.store true b.tag len none (some b.start) (some l) x.fills x.bed := by
          rw [hv.fills, hv.bed, hfills, hbed, hctag, hclen, hcstart]
        refine ⟨fun hn => ?_, fun g hg => ?_⟩
        · rw [hresult, State.judgeCue_unfit (hkept h) (hcstart ▸ htime) hlist hfree (hfit.trans hn)]
        · rw [hresult, State.judgeCue_fits (hkept h) (hcstart ▸ htime) hlist hfree (hfit.trans hg), hv.group, hcstart]
  · -- the tag is new to it
    rw [State.takeCue_new hpos fun p f hf => hctag ▸ hnew p f ((hplace p).symm.trans hf)] at hresult
    have hdeclines : ∀ r, a.judgeCue o c pos = a.declineCue o c r → declined r r.kind := fun r hr => by
      rw [hr] at hresult
      have hd := congrArg some (hdecline r)
      refine ⟨fun hx => ?_, fun hx => ?_⟩
      · rw [hresult, State.declineCue_known (hdeclined.trans (hx.trans hd.symm))]
      · rw [hresult, State.declineCue_new fun h => hx (hdeclined.symm.trans (h.trans hd)), hdecline, hc]
        rfl
    refine ⟨fun h => by rw [hresult, State.judgeCue_cancel (hcancelled h)], fun h hlate => ?_, fun h htime => ⟨fun hl => ?_, fun l hl =>
      ⟨fun hfirst hsecond => ?_, fun p hfree => ?_⟩⟩⟩
    · exact hdeclines .late (State.judgeCue_late (hkept h) (hcstart ▸ hlate))
    · rw [hresult, State.judgeCue_unlisted (hkept h) (hcstart ▸ htime) (by rw [hspots, hctag]; exact hl)]
    · have hfull : (a.out o).freePlace = none := Outlet.freePlace_none (by rwa [hplace]) (by rwa [hplace])
      exact hdeclines .overflow (State.judgeCue_full (hkept h) (hcstart ▸ htime) (by rw [hspots, hctag]; exact hl) hfull)
    · have hfree' : (a.out o).freePlace = some p := by
        rcases hfree with ⟨rfl, hp⟩ | ⟨rfl, hp, hq⟩
        · exact Outlet.freePlace_first ((hplace .first).trans hp)
        · exact Outlet.freePlace_second (by rwa [hplace]) ((hplace .second).trans hq)
      have hlist : (a.out o).spots.find? (fun l => l.tag == c.tag) = some l := by rw [hspots, hctag]; exact hl
      have hfit : fitBreak a.store true c.tag (clampLen c.len) none (some c.start) (some l) (a.out o).fills (a.out o).bed =
          fitBreak s.store true b.tag len none (some b.start) (some l) x.fills x.bed := by
        rw [hfills, hbed, hctag, hclen, hcstart, State.elapse_store]
      refine ⟨fun hn => ?_, fun f hf => ?_⟩
      · rw [hresult, State.judgeCue_unfit (hkept h) (hcstart ▸ htime) hlist hfree' (hfit.trans hn)]
      · rw [hresult, State.judgeCue_fits (hkept h) (hcstart ▸ htime) hlist hfree' (hfit.trans hf), hcstart]
end

section
/-! What a break is fitted from: the items its list offers, and the order in which they go when they are too long (R52 to R54). -/

namespace Sys2Proof.Machine

/-! ### The items offered (R53) -/

/-- The drop of a spot whose cart is not usable (R53). -/
def Store.missing (st : Store) (pos cart : Nat) : Drop :=
  { pos := pos, cart := cart, serial := ((st.current cart).map Version.serial).getD 0, overlength := false }

section eligible
variable (st : Store)

theorem Store.eligible_cons (pos : Nat) (c : Nat × SpotClass) (l : List (Nat × SpotClass)) :
    st.eligible pos (c :: l) =
      (((st.usable c.1).toList.map fun v => planItem .spot v pos (some c.2)) ++ (st.eligible (pos + 1) l).1,
        (if (st.usable c.1).isNone then [st.missing pos c.1] else []) ++ (st.eligible (pos + 1) l).2) := by
  obtain ⟨cart, cls⟩ := c
  rw [Store.eligible]
  dsimp only
  cases st.usable cart <;> rfl

theorem Store.eligible_items (pos : Nat) (l : List (Nat × SpotClass)) :
    (st.eligible pos l).1 = (l.zipIdx pos).flatMap fun c => (st.usable c.1.1).toList.map fun v => planItem .spot v c.2 (some c.1.2) := by
  induction l generalizing pos with
  | nil => rfl
  | cons c l ih => rw [Store.eligible_cons, ih, List.zipIdx_cons, List.flatMap_cons]

theorem Store.mem_eligible_drops (pos : Nat) (l : List (Nat × SpotClass)) (d : Drop) :
    d ∈ (st.eligible pos l).2 ↔ ∃ n c k, l[n]? = some (c, k) ∧ st.usable c = none ∧ d = st.missing (pos + n) c := by
  induction l generalizing pos with
  | nil => simp [Store.eligible]
  | cons e l ih =>
    rw [Store.eligible_cons, List.mem_append, ih]
    constructor
    · rintro (h | ⟨n, c, k, hn, hu, hd⟩)
      · split at h
        · rename_i hu
          exact ⟨0, e.1, e.2, rfl, Option.isNone_iff_eq_none.1 hu, List.mem_singleton.1 h⟩
        · cases h
      · exact ⟨n + 1, c, k, hn, hu, by rw [hd, Nat.add_right_comm, Nat.add_assoc]⟩
    · rintro ⟨n, c, k, hn, hu, hd⟩
      cases n with
      | zero =>
        obtain rfl : e = (c, k) := by simpa using hn
        exact .inl (by simp [hu, hd])
      | succ n => exact .inr ⟨n, c, k, hn, hu, by rw [hd, Nat.add_right_comm, Nat.add_assoc]⟩

/-- Each spot position is offered or missing once. -/
theorem Store.eligible_positions (pos : Nat) (l : List (Nat × SpotClass)) :
    ((st.eligible pos l).1.map BreakItem.pos ++ (st.eligible pos l).2.map Drop.pos).Nodup ∧
      ((st.eligible pos l).1.map BreakItem.pos).Pairwise (· < ·) ∧
      ∀ n ∈ (st.eligible pos l).1.map BreakItem.pos ++ (st.eligible pos l).2.map Drop.pos, pos ≤ n := by
  induction l generalizing pos with
  | nil => simp [Store.eligible]
  | cons e l ih =>
    obtain ⟨hnodup, hsorted, hle⟩ := ih (pos + 1)
    have hnew : pos ∉ (st.eligible (pos + 1) l).1.map BreakItem.pos ++ (st.eligible (pos + 1) l).2.map Drop.pos := fun h =>
      Nat.not_succ_le_self pos (hle pos h)
    have hall : ∀ n ∈ (st.eligible (pos + 1) l).1.map BreakItem.pos ++ (st.eligible (pos + 1) l).2.map Drop.pos, pos ≤ n := fun n hn =>
      Nat.le_of_succ_le (hle n hn)
    rw [Store.eligible_cons]
    cases hu : st.usable e.1 with
    | some v =>
      simp only [Option.toList_some, List.map_cons, List.map_nil, List.cons_append, List.nil_append, Option.isNone_some,
        Bool.false_eq_true, if_false, planItem]
      refine ⟨List.nodup_cons.2 ⟨hnew, hnodup⟩, List.pairwise_cons.2 ⟨fun n hn => hle n (List.mem_append_left _ hn), hsorted⟩,
        fun n hn => ?_⟩
      rcases List.mem_cons.1 hn with rfl | hn
      · exact le_refl _
      · exact hall n hn
    | none =>
      simp only [Option.toList_none, List.map_nil, List.nil_append, Option.isNone_none, if_true, List.cons_append, List.map_cons,
        Store.missing]
      refine ⟨(List.perm_middle.nodup_iff).2 (List.nodup_cons.2 ⟨hnew, hnodup⟩), hsorted, fun n hn => ?_⟩
      rcases List.mem_cons.1 (List.perm_middle.mem_iff.1 hn) with rfl | hn
      · exact le_refl _
      · exact hall n hn

end eligible

/-- What the fit looks at of an item before it has its place (R52). -/
def BreakItem.key (i : BreakItem) : ItemRole × Nat × Nat × Nat × Option SpotClass × Nat := (i.role, i.cart, i.serial, i.pos, i.cls, i.playLen)

/-- The items a list offers (R53): its opener, its spots and its closer, as far as their carts are usable. -/
def Store.offered (st : Store) (sl : SpotList) : List BreakItem :=
  st.edgeItem .opener sl.opener ++ (st.eligible 1 sl.spots).1 ++ st.edgeItem .closer sl.closer

theorem Store.edgeItem_eq (st : Store) (r : ItemRole) (cart : Option Nat) :
    st.edgeItem r cart = (cart.bind st.usable).toList.map fun v => planItem r v 0 none := by
  unfold Store.edgeItem
  cases cart.bind st.usable <;> rfl

theorem Store.offered_keys (st : Store) (sl : SpotList) :
    (st.offered sl).map BreakItem.key =
      ((sl.opener.bind st.usable).toList.map fun v => (.opener, v.cart, v.serial, 0, none, v.len - v.inCue)) ++
        (sl.spots.zipIdx.flatMap fun c => (st.usable c.1.1).toList.map fun v =>
          (.spot, v.cart, v.serial, c.2 + 1, some c.1.2, v.len - v.inCue)) ++
        ((sl.closer.bind st.usable).toList.map fun v => (.closer, v.cart, v.serial, 0, none, v.len - v.inCue)) := by
  have hshift : sl.spots.zipIdx 1 = sl.spots.zipIdx.map fun c => (c.1, c.2 + 1) := List.zipIdx_succ
  rw [Store.offered, Store.edgeItem_eq, Store.edgeItem_eq, Store.eligible_items, hshift, List.map_append, List.map_append, List.map_map,
    List.map_map, List.flatMap_map, List.map_flatMap]
  simp only [List.map_map]
  rfl

/-- An item stands before another in a list that has an opener first, then the spots in their order, then a closer (R52). -/
def BreakItem.Before (a b : BreakItem) : Prop :=
  a.role ≠ .closer ∧ b.role ≠ .opener ∧ (a.role = .spot → b.role = .spot → a.pos < b.pos)

/-- An item that the fit has not placed: an opener, a spot of a class or a closer. -/
structure BreakItem.Offered (i : BreakItem) : Prop where
  kind : i.role = .opener ∨ i.role = .closer ∨ i.role = .spot ∧ ∃ c, i.cls = some c
  join : i.join = 0
  progress : i.progress = .waiting

/-- A list of items as it is offered, or what is left of one. -/
structure OfferedList (l : List BreakItem) : Prop where
  items : ∀ i ∈ l, i.Offered
  order : l.Pairwise BreakItem.Before

theorem OfferedList.sublist {l k : List BreakItem} (h : OfferedList l) (hk : k.Sublist l) : OfferedList k :=
  ⟨fun i hi => h.items i (hk.subset hi), h.order.sublist hk⟩

theorem Store.mem_eligible {st : Store} {pos : Nat} {l : List (Nat × SpotClass)} {i : BreakItem} (h : i ∈ (st.eligible pos l).1) :
    i.role = .spot ∧ i.Offered := by
  rw [Store.eligible_items, List.mem_flatMap] at h
  obtain ⟨c, -, hc⟩ := h
  obtain ⟨v, -, rfl⟩ := List.mem_map.1 hc
  exact ⟨rfl, .inr (.inr ⟨rfl, _, rfl⟩), rfl, rfl⟩

theorem Store.mem_edgeItem {st : Store} {r : ItemRole} {cart : Option Nat} {i : BreakItem} (h : i ∈ st.edgeItem r cart) :
    i.role = r ∧ i.join = 0 ∧ i.progress = .waiting := by
  rw [Store.edgeItem_eq] at h
  obtain ⟨v, -, rfl⟩ := List.mem_map.1 h
  exact ⟨rfl, rfl, rfl⟩

theorem Store.edgeItem_length (st : Store) (r : ItemRole) (cart : Option Nat) : (st.edgeItem r cart).length ≤ 1 := by
  rw [Store.edgeItem_eq, List.length_map]
  cases cart.bind st.usable <;> simp

/-- One item or none is in any order. -/
theorem pairwise_of_length_le_one {α : Type} {R : α → α → Prop} {l : List α} (h : l.length ≤ 1) : l.Pairwise R := by
  match l, h with
  | [], _ => exact .nil
  | [a], _ => exact List.pairwise_singleton R a

theorem Store.offered_list (st : Store) (sl : SpotList) : OfferedList (st.offered sl) := by
  refine ⟨fun i hi => ?_, ?_⟩
  · rcases List.mem_append.1 hi with hi | hi
    · rcases List.mem_append.1 hi with hi | hi
      · obtain ⟨hr, hj, hp⟩ := Store.mem_edgeItem hi
        exact ⟨.inl hr, hj, hp⟩
      · exact (Store.mem_eligible hi).2
    · obtain ⟨hr, hj, hp⟩ := Store.mem_edgeItem hi
      exact ⟨.inr (.inl hr), hj, hp⟩
  · have hspots : (st.eligible 1 sl.spots).1.Pairwise BreakItem.Before := by
      refine (List.pairwise_map.1 (st.eligible_positions 1 sl.spots).2.1).imp_of_mem fun ha hb hlt => ?_
      rw [BreakItem.Before, (Store.mem_eligible ha).1, (Store.mem_eligible hb).1]
      exact ⟨by decide, by decide, fun _ _ => hlt⟩
    refine List.pairwise_append.2 ⟨List.pairwise_append.2 ⟨pairwise_of_length_le_one (st.edgeItem_length _ _), hspots, fun a ha b hb => ?_⟩,
      pairwise_of_length_le_one (st.edgeItem_length _ _), fun a ha b hb => ?_⟩
    · rw [BreakItem.Before, (Store.mem_edgeItem ha).1, (Store.mem_eligible hb).1]
      exact ⟨by decide, by decide, fun h => nomatch h⟩
    · have hrole : a.role = .opener ∨ a.role = .spot :=
        (List.mem_append.1 ha).imp (fun h => (Store.mem_edgeItem h).1) fun h => (Store.mem_eligible h).1
      rw [BreakItem.Before, (Store.mem_edgeItem hb).1]
      refine ⟨?_, by decide, fun _ h => nomatch h⟩
      rcases hrole with h | h <;> rw [h] <;> decide

/-! ### The order of removal (R54) -/

/-- The place of an item's kind in the order of removal (R54). -/
def BreakItem.rank (i : BreakItem) : Nat :=
  if i.role = .opener then 4
  else if i.role = .closer then 2 else if i.cls = some .may then 1 else if i.cls = some .should then 3 else 5

/-- An item goes before another (R54). -/
def BreakItem.GoesBefore (r k : BreakItem) : Prop := r.rank < k.rank ∨ r.rank = k.rank ∧ k.pos < r.pos

theorem BreakItem.GoesBefore.asymm {r k : BreakItem} (h : r.GoesBefore k) : ¬ k.GoesBefore r := by
  unfold BreakItem.GoesBefore at *
  omega

section removal
variable {l : List BreakItem} {i : Nat} {c : SpotClass} {r : ItemRole}

/-- What is at an index of a list. -/
theorem mem_range_filter {α : Type} {l : List α} {g : α → Bool} :
    i ∈ (List.range l.length).filter (fun i => (l[i]?).any g) ↔ ∃ a, l[i]? = some a ∧ g a = true := by
  rw [List.mem_filter, List.mem_range, Option.any_eq_true]
  exact ⟨fun h => h.2, fun ⟨a, ha, hg⟩ => ⟨(List.getElem?_eq_some_iff.1 ha).1, a, ha, hg⟩⟩

theorem lastOfClass_some (h : lastOfClass l c = some i) : (∃ a, l[i]? = some a ∧ a.role = .spot ∧ a.cls = some c) ∧
    ∀ j k, l[j]? = some k → k.role = .spot → k.cls = some c → j ≤ i := by
  obtain ⟨front, hfront⟩ := List.getLast?_eq_some_iff.1 h
  have hmem : ∀ j, j ∈ front ++ [i] ↔ ∃ a, l[j]? = some a ∧ a.role = .spot ∧ a.cls = some c := fun j => by
    rw [← hfront, mem_range_filter]
    simp only [Bool.and_eq_true, beq_iff_eq]
  have hsorted : (front ++ [i]).Pairwise (· < ·) := hfront ▸ List.pairwise_lt_range.filter _
  refine ⟨(hmem i).1 (List.mem_append_right _ (List.mem_singleton.2 rfl)), fun j k hk hr hc => ?_⟩
  rcases List.mem_append.1 ((hmem j).2 ⟨k, hk, hr, hc⟩) with hj | hj
  · exact ((List.pairwise_append.1 hsorted).2.2 j hj i (List.mem_singleton.2 rfl)).le
  · exact (List.mem_singleton.1 hj).le

theorem lastOfClass_none (h : lastOfClass l c = none) : ∀ k ∈ l, ¬ (k.role = .spot ∧ k.cls = some c) := fun k hk hc => by
  obtain ⟨j, hj⟩ := List.mem_iff_getElem?.1 hk
  have hmem := mem_range_filter (g := fun it => it.role == .spot && it.cls == some c) |>.2 ⟨k, hj, by simp [hc]⟩
  rw [List.getLast?_eq_none_iff.1 h] at hmem
  cases hmem

theorem indexOfRole_some (h : indexOfRole l r = some i) : ∃ a, l[i]? = some a ∧ a.role = r := by
  have hany := List.find?_some h
  rw [Option.any_eq_true] at hany
  obtain ⟨a, ha, hr⟩ := hany
  exact ⟨a, ha, by simpa using hr⟩

theorem indexOfRole_none (h : indexOfRole l r = none) : ∀ k ∈ l, k.role ≠ r := fun k hk hr => by
  obtain ⟨j, hj⟩ := List.mem_iff_getElem?.1 hk
  have hno := List.find?_eq_none.1 h j (List.mem_range.2 (List.getElem?_eq_some_iff.1 hj).1)
  simp [hj, hr] at hno

/-- Items of an offered list in their order. -/
theorem OfferedList.before (h : OfferedList l) {j k : Nat} {a b : BreakItem} (ha : l[j]? = some a) (hb : l[k]? = some b) (hlt : j < k) :
    a.Before b := by
  obtain ⟨hj, rfl⟩ := List.getElem?_eq_some_iff.1 ha
  obtain ⟨hk, rfl⟩ := List.getElem?_eq_some_iff.1 hb
  exact List.pairwise_iff_getElem.1 h.order j k hj hk hlt

/-- There is one opener at most and one closer. -/
theorem OfferedList.edge_unique (h : OfferedList l) {j k : Nat} {a b : BreakItem} (ha : l[j]? = some a) (hb : l[k]? = some b)
    (he : a.role = .opener ∧ b.role = .opener ∨ a.role = .closer ∧ b.role = .closer) : j = k := by
  rcases lt_trichotomy j k with hlt | heq | hlt
  · have := h.before ha hb hlt
    rcases he with ⟨-, he⟩ | ⟨he, -⟩
    · exact absurd he this.2.1
    · exact absurd he this.1
  · exact heq
  · have := h.before hb ha hlt
    rcases he with ⟨he, -⟩ | ⟨-, he⟩
    · exact absurd he this.2.1
    · exact absurd he this.1

/-- The item that goes first of a list (R54). -/
def FirstToGo (l : List BreakItem) (i : Nat) : Prop :=
  ∃ a, l[i]? = some a ∧ ∀ j k, j ≠ i → l[j]? = some k → a.GoesBefore k

/-- An item of the lowest rank goes first, if its position is the last of that rank. -/
theorem FirstToGo.of_rank {a : BreakItem} (ha : l[i]? = some a) (hlow : ∀ k ∈ l, a.rank ≤ k.rank)
    (hlast : ∀ j k, j ≠ i → l[j]? = some k → k.rank = a.rank → k.pos < a.pos) : FirstToGo l i :=
  ⟨a, ha, fun j k hj hk => (lt_or_eq_of_le (hlow k (List.mem_of_getElem? hk))).imp id fun e => ⟨e, hlast j k hj hk e.symm⟩⟩

/-- The rank of the spots of a class (R54). -/
def SpotClass.rank : SpotClass → Nat
  | .may => 1
  | .should => 3
  | .must => 5

theorem BreakItem.rank_spot {a : BreakItem} (hr : a.role = .spot) (hc : a.cls = some c) : a.rank = c.rank := by
  cases c <;> simp [BreakItem.rank, SpotClass.rank, hr, hc]

theorem SpotClass.rank_facts (c d : SpotClass) : (c.rank = d.rank → c = d) ∧ c.rank ≠ 2 ∧ c.rank ≠ 4 ∧ 1 ≤ c.rank ∧ c.rank ≤ 5 := by
  cases c <;> cases d <;> decide

/-- The rank of an offered item tells its kind (R54). -/
theorem BreakItem.Offered.rank_eq {k : BreakItem} (h : k.Offered) :
    (∀ c : SpotClass, k.rank = c.rank → k.role = .spot ∧ k.cls = some c) ∧ (k.rank = 2 → k.role = .closer) ∧
      (k.rank = 4 → k.role = .opener) ∧ 1 ≤ k.rank ∧ k.rank ≤ 5 := by
  rcases h.kind with hr | hr | ⟨hr, d, hd⟩
  · have e : k.rank = 4 := by simp [BreakItem.rank, hr]
    exact ⟨fun c hc => absurd (hc.symm.trans e) (c.rank_facts c).2.2.1, fun h2 => by omega, fun _ => hr, by omega, by omega⟩
  · have e : k.rank = 2 := by simp [BreakItem.rank, hr]
    exact ⟨fun c hc => absurd (hc.symm.trans e) (c.rank_facts c).2.1, fun _ => hr, fun h4 => by omega, by omega, by omega⟩
  · have e : k.rank = d.rank := BreakItem.rank_spot hr hd
    obtain ⟨-, h2, h4, hle, hge⟩ := d.rank_facts d
    exact ⟨fun c hc => ⟨hr, by rw [hd, (d.rank_facts c).1 (e.symm.trans hc)]⟩, fun he => absurd (e.symm.trans he) h2,
      fun he => absurd (e.symm.trans he) h4, e ▸ hle, e ▸ hge⟩

theorem FirstToGo.edge (h : OfferedList l) (hi : indexOfRole l r = some i) {n : Nat} (hr : r = .closer ∧ n = 2 ∨ r = .opener ∧ n = 4)
    (hlow : ∀ k ∈ l, n ≤ k.rank) : FirstToGo l i := by
  obtain ⟨a, ha, har⟩ := indexOfRole_some hi
  have hrank : a.rank = n := by
    rcases hr with ⟨rfl, rfl⟩ | ⟨rfl, rfl⟩ <;> simp [BreakItem.rank, har]
  refine .of_rank ha (fun k hk => hrank ▸ hlow k hk) fun j k hj hk he => absurd (h.edge_unique hk ha ?_) hj
  have hkind := (h.items k (List.mem_of_getElem? hk)).rank_eq
  rcases hr with ⟨rfl, rfl⟩ | ⟨rfl, rfl⟩
  · exact .inr ⟨hkind.2.1 (he.trans hrank), har⟩
  · exact .inl ⟨hkind.2.2.1 (he.trans hrank), har⟩

theorem FirstToGo.spot (h : OfferedList l) (hi : lastOfClass l c = some i) (hlow : ∀ k ∈ l, c.rank ≤ k.rank) : FirstToGo l i := by
  obtain ⟨⟨a, ha, har, hac⟩, hlast⟩ := lastOfClass_some hi
  have hrank : a.rank = c.rank := BreakItem.rank_spot har hac
  refine .of_rank ha (fun k hk => hrank ▸ hlow k hk) fun j k hj hk he => ?_
  obtain ⟨hkr, hkc⟩ := (h.items k (List.mem_of_getElem? hk)).rank_eq.1 c (he.trans hrank)
  exact (h.before hk ha (lt_of_le_of_ne (hlast j k hk hkr hkc) hj)).2.2 hkr har

theorem OfferedList.rank_ne_class (h : OfferedList l) (hn : lastOfClass l c = none) : ∀ k ∈ l, k.rank ≠ c.rank := fun k hk e =>
  lastOfClass_none hn k hk ((h.items k hk).rank_eq.1 c e)

/-- The fit removes what goes first (R54). -/
theorem OfferedList.nextRemoval (h : OfferedList l) (hne : l ≠ []) : ∃ i, nextRemoval l = some i ∧ FirstToGo l i := by
  have hbounds : ∀ k ∈ l, 1 ≤ k.rank ∧ k.rank ≤ 5 := fun k hk => (h.items k hk).rank_eq.2.2.2
  unfold Machine.nextRemoval
  cases hmay : lastOfClass l .may with
  | some i => exact ⟨i, rfl, .spot h hmay fun k hk => (hbounds k hk).1⟩
  | none =>
    have h1 : ∀ k ∈ l, 2 ≤ k.rank := fun k hk => lt_of_le_of_ne (hbounds k hk).1 (h.rank_ne_class hmay k hk).symm
    cases hcloser : indexOfRole l .closer with
    | some i => exact ⟨i, rfl, .edge h hcloser (.inl ⟨rfl, rfl⟩) h1⟩
    | none =>
      have h2 : ∀ k ∈ l, 3 ≤ k.rank := fun k hk =>
        lt_of_le_of_ne (h1 k hk) fun e => indexOfRole_none hcloser k hk ((h.items k hk).rank_eq.2.1 e.symm)
      cases hshould : lastOfClass l .should with
      | some i => exact ⟨i, rfl, .spot h hshould h2⟩
      | none =>
        have h3 : ∀ k ∈ l, 4 ≤ k.rank := fun k hk => lt_of_le_of_ne (h2 k hk) (h.rank_ne_class hshould k hk).symm
        cases hopener : indexOfRole l .opener with
        | some i => exact ⟨i, rfl, .edge h hopener (.inr ⟨rfl, rfl⟩) h3⟩
        | none =>
          have h4 : ∀ k ∈ l, 5 ≤ k.rank := fun k hk =>
            lt_of_le_of_ne (h3 k hk) fun e => indexOfRole_none hopener k hk ((h.items k hk).rank_eq.2.2.1 e.symm)
          cases hmust : lastOfClass l .must with
          | some i => exact ⟨i, rfl, .spot h hmust h4⟩
          | none =>
            obtain ⟨k, hk⟩ := List.exists_mem_of_ne_nil l hne
            exact absurd (le_antisymm (hbounds k hk).2 (h4 k hk)) (h.rank_ne_class hmust k hk)

end removal

/-! ### The removals (R54) -/

/-- The drop of a spot that went (R54). -/
def BreakItem.overlength (i : BreakItem) : Drop := { pos := i.pos, cart := i.cart, serial := i.serial, overlength := true }

/-- What removals leave of a list: what stays and what goes, in the order in which it goes, with the drops of the spots that went (R54). -/
structure Removes (len : Nat) (l kept removed : List BreakItem) (d d' : List Drop) : Prop where
  stays : kept.Sublist l
  perm : (kept ++ removed).Perm l
  enough : playSum kept ≤ len
  order : ∀ r ∈ removed, ∀ k ∈ kept, r.GoesBefore k
  needed : ∀ r ∈ removed, (∀ q ∈ removed, q = r ∨ q.GoesBefore r) → len < playSum kept + r.playLen
  drops : d' = ((removed.filter fun i => i.role == .spot).map BreakItem.overlength).reverse ++ d

theorem playSum_cons (i : BreakItem) (l : List BreakItem) : playSum (i :: l) = i.playLen + playSum l := rfl

theorem playSum_perm {l k : List BreakItem} (h : l.Perm k) : playSum l = playSum k := (h.map _).sum_nat

theorem Removes.of_fits {len : Nat} {l : List BreakItem} (h : playSum l ≤ len) (d : List Drop) : Removes len l l [] d d where
  stays := .refl l
  perm := by rw [List.append_nil]
  enough := h
  order := fun _ hr => nomatch hr
  needed := fun _ hr => nomatch hr
  drops := rfl

/-- One item goes first, the rest is removed from what is left. -/
theorem Removes.cons {len i : Nat} {l kept removed : List BreakItem} {a : BreakItem} {d d' : List Drop} (ha : l[i]? = some a)
    (hfirst : ∀ j k, j ≠ i → l[j]? = some k → a.GoesBefore k) (hlong : len < playSum l)
    (h : Removes len (l.eraseIdx i) kept removed (if a.role == .spot then a.overlength :: d else d) d') :
    Removes len l kept (a :: removed) d d' := by
  obtain ⟨hlt, hget⟩ := List.getElem?_eq_some_iff.1 ha
  have hperm : (a :: l.eraseIdx i).Perm l := hget ▸ List.getElem_cons_eraseIdx_perm hlt
  have hrest : ∀ k ∈ l.eraseIdx i, a.GoesBefore k := fun k hk => by
    obtain ⟨j, hj, hk⟩ := List.mem_eraseIdx_iff_getElem?.1 hk
    exact hfirst j k hj hk
  refine ⟨h.stays.trans (List.eraseIdx_sublist ..), (List.perm_middle.trans (h.perm.cons a)).trans hperm, h.enough,
    List.forall_mem_cons.2 ⟨fun k hk => hrest k (h.stays.subset hk), h.order⟩, List.forall_mem_cons.2 ⟨fun hlast => ?_, fun r hr hlast =>
      h.needed r hr fun q hq => hlast q (List.mem_cons_of_mem _ hq)⟩, h.drops.trans ?_⟩
  · have hnil : removed = [] := List.eq_nil_iff_forall_not_mem.2 fun q hq => by
      have hgoes := hrest q (h.perm.subset (List.mem_append_right _ hq))
      rcases hlast q (List.mem_cons_of_mem _ hq) with rfl | hback
      · exact hgoes.asymm hgoes
      · exact hgoes.asymm hback
    have hsum : playSum l = a.playLen + playSum (l.eraseIdx i) := (playSum_perm hperm).symm.trans (playSum_cons _ _)
    have hkept := playSum_perm h.perm
    rw [hnil, List.append_nil] at hkept
    omega
  · rw [List.filter_cons]
    split
    · rw [List.map_cons, List.reverse_cons, List.append_assoc]
      rfl
    · rfl

theorem removeOverlength_cons {len fuel i : Nat} {l : List BreakItem} {a : BreakItem} (hlong : len < playSum l)
    (hi : nextRemoval l = some i) (ha : l[i]? = some a) (d : List Drop) :
    removeOverlength len (fuel + 1) l d =
      removeOverlength len fuel (l.eraseIdx i) (if a.role == .spot then a.overlength :: d else d) := by
  rw [removeOverlength, if_neg (Nat.not_le.2 hlong), hi]
  dsimp only
  rw [ha]
  rfl

theorem removeOverlength_removes {len fuel : Nat} {l : List BreakItem} (h : OfferedList l) (hfuel : l.length ≤ fuel) (d : List Drop) :
    ∃ removed, Removes len l (removeOverlength len fuel l d).1 removed d (removeOverlength len fuel l d).2 := by
  induction fuel generalizing l d with
  | zero =>
    obtain rfl := List.length_eq_zero_iff.1 (Nat.le_zero.1 hfuel)
    exact ⟨[], .of_fits (Nat.zero_le len) d⟩
  | succ fuel ih =>
    by_cases hle : playSum l ≤ len
    · rw [removeOverlength, if_pos hle]
      exact ⟨[], .of_fits hle d⟩
    · obtain ⟨i, hi, a, ha, hfirst⟩ := h.nextRemoval fun e => hle (e ▸ Nat.zero_le len)
      have hlt := (List.getElem?_eq_some_iff.1 ha).1
      rw [removeOverlength_cons (Nat.lt_of_not_le hle) hi ha]
      obtain ⟨removed, hr⟩ := ih (h.sublist (List.eraseIdx_sublist ..)) (by rw [List.length_eraseIdx_of_lt hlt]; omega)
        (if a.role == .spot then a.overlength :: d else d)
      exact ⟨a :: removed, hr.cons ha hfirst (Nat.lt_of_not_le hle)⟩

end Sys2Proof.Machine
end

section
/-! The drops of a fit in their order, and the fills it takes (R53, R54, R57). -/

namespace Sys2Proof.Machine

/-! ### The drops (R53, R54) -/

theorem insertDrop_eq (x : Drop) (l : List Drop) : insertDrop x l = l.orderedInsert (fun a b => a.pos ≤ b.pos) x := by
  induction l with
  | nil => rfl
  | cons y l ih => rw [insertDrop, List.orderedInsert, ih]

theorem sortDrops_eq (l : List Drop) : sortDrops l = l.insertionSort fun a b => a.pos ≤ b.pos := by
  induction l with
  | nil => rfl
  | cons x l ih => rw [sortDrops, List.foldr_cons, insertDrop_eq, List.insertionSort_cons, ← ih, sortDrops]

theorem sortDrops_perm (l : List Drop) : (sortDrops l).Perm l := sortDrops_eq l ▸ List.perm_insertionSort _ l

/-- Drops of different positions are sorted by them. -/
theorem sortDrops_sorted {l : List Drop} (h : (l.map Drop.pos).Nodup) : ((sortDrops l).map Drop.pos).Pairwise (· < ·) := by
  have : Std.Total fun a b : Drop => a.pos ≤ b.pos := ⟨fun a b => le_total a.pos b.pos⟩
  have : IsTrans Drop fun a b => a.pos ≤ b.pos := ⟨fun _ _ _ => le_trans⟩
  have hle : ((sortDrops l).map Drop.pos).Pairwise (· ≤ ·) :=
    List.pairwise_map.2 (sortDrops_eq l ▸ List.pairwise_insertionSort _ l)
  have hne : ((sortDrops l).map Drop.pos).Nodup := ((sortDrops_perm l).map Drop.pos).nodup_iff.2 h
  exact hle.imp₂ (fun _ _ => lt_of_le_of_ne) hne

section drops
variable {st : Store} {sl : SpotList} {len : Nat} {kept removed : List BreakItem} {d : List Drop}

theorem Store.offered_spots (st : Store) (sl : SpotList) : ((st.offered sl).filter fun i => i.role == .spot) = (st.eligible 1 sl.spots).1 := by
  have hedge : ∀ r cart, r ≠ .spot → ((st.edgeItem r cart).filter fun i => i.role == .spot) = [] := fun r cart hr =>
    List.filter_eq_nil_iff.2 fun i hi => by simpa [(Store.mem_edgeItem hi).1] using hr
  have hspots : ((st.eligible 1 sl.spots).1.filter fun i => i.role == .spot) = (st.eligible 1 sl.spots).1 :=
    List.filter_eq_self.2 fun i hi => by simp [(Store.mem_eligible hi).1]
  rw [Store.offered, List.filter_append, List.filter_append, hedge _ _ (by decide), hedge _ _ (by decide), hspots, List.append_nil,
    List.nil_append]

/-- No position is dropped twice. -/
theorem Removes.drops_nodup (h : Removes len (st.offered sl) kept removed (st.eligible 1 sl.spots).2 d) : (d.map Drop.pos).Nodup := by
  have hspots := (h.perm.filter fun i => i.role == .spot).map BreakItem.pos
  rw [Store.offered_spots, List.filter_append, List.map_append] at hspots
  have hnodup := (hspots.append_right _).nodup_iff.2 (st.eligible_positions 1 sl.spots).1
  rw [List.append_assoc] at hnodup
  have hdrop : ((removed.filter fun i => i.role == .spot).map BreakItem.overlength).map Drop.pos =
      (removed.filter fun i => i.role == .spot).map BreakItem.pos := List.map_map
  rw [h.drops, List.map_append, List.map_reverse, hdrop]
  exact ((List.reverse_perm _).append_right _).nodup_iff.2 hnodup.of_append_right

theorem Removes.mem_drops (h : Removes len (st.offered sl) kept removed (st.eligible 1 sl.spots).2 d) (x : Drop) : x ∈ d ↔
    (∃ n c k, sl.spots[n]? = some (c, k) ∧ st.usable c = none ∧ x = st.missing (n + 1) c) ∨
      ∃ r ∈ removed, r.role = .spot ∧ x = r.overlength := by
  rw [h.drops, List.mem_append, List.mem_reverse, List.mem_map, Store.mem_eligible_drops, or_comm]
  simp only [Nat.add_comm 1, List.mem_filter, beq_iff_eq, and_assoc, eq_comm (a := x)]

end drops

/-! ### The fills (R57) -/

section fills
variable {st : Store} {gap : Nat} {pool : List Nat} {v : Version}

theorem Store.bestFill_none (h : st.bestFill gap pool = none) : ∀ c v, c ∈ pool → st.usable c = some v → gap < v.playLen := by
  induction pool with
  | nil => exact fun _ _ hc => nomatch hc
  | cons c pool ih =>
    rw [Store.bestFill] at h
    intro d w hd hw
    cases hrest : st.bestFill gap pool with
    | some u => cases hf : (st.usable c).filter fun v => decide (v.playLen ≤ gap) with
      | none => simp [hf, hrest] at h
      | some v =>
        simp only [hf, hrest] at h
        split at h <;> cases h
    | none => cases hf : (st.usable c).filter fun v => decide (v.playLen ≤ gap) with
      | some v => simp [hf, hrest] at h
      | none =>
        rcases List.mem_cons.1 hd with rfl | hd
        · simpa using Option.filter_eq_none_iff.1 hf w hw
        · exact ih hrest d w hd hw

/-- The longest fill that fits, of equals the earlier in the pool (R57). -/
structure Store.BestFill (st : Store) (gap : Nat) (pool : List Nat) (v : Version) : Prop where
  mem : v.cart ∈ pool
  usable : st.usable v.cart = some v
  fits : v.playLen ≤ gap
  best : ∀ c w, c ∈ pool → st.usable c = some w → w.playLen ≤ gap →
    w.playLen < v.playLen ∨ w.playLen = v.playLen ∧ pool.idxOf v.cart ≤ pool.idxOf c

/-- A fill that fits and is not shorter than any other stands at the head of the pool. -/
theorem Store.BestFill.head (hv : st.usable v.cart = some v) (hfits : v.playLen ≤ gap)
    (hmax : ∀ c w, c ∈ pool → st.usable c = some w → w.playLen ≤ gap → w.playLen ≤ v.playLen) : st.BestFill gap (v.cart :: pool) v where
  mem := List.mem_cons_self
  usable := hv
  fits := hfits
  best := fun c w hc hw hle => by
    have hlen : w.playLen ≤ v.playLen := by
      rcases List.mem_cons.1 hc with rfl | hc
      · rw [hv] at hw
        cases hw
        exact le_refl _
      · exact hmax c w hc hw hle
    rw [List.idxOf_cons_self]
    exact (lt_or_eq_of_le hlen).imp id fun e => ⟨e, Nat.zero_le _⟩

/-- The best of the rest of the pool stays the best if the head is shorter or does not fit. -/
theorem Store.BestFill.tail (h : st.BestFill gap pool v) {c : Nat}
    (hc : ∀ w, st.usable c = some w → w.playLen ≤ gap → w.playLen < v.playLen) : st.BestFill gap (c :: pool) v where
  mem := List.mem_cons_of_mem _ h.mem
  usable := h.usable
  fits := h.fits
  best := fun d w hd hw hle => by
    by_cases hdc : d = c
    · exact .inl (hc w (hdc ▸ hw) hle)
    · have hvc : c ≠ v.cart := fun e => lt_irrefl _ (hc v (e ▸ h.usable) h.fits)
      refine (h.best d w ((List.mem_cons.1 hd).resolve_left hdc) hw hle).imp id fun ⟨e, hidx⟩ => ⟨e, ?_⟩
      rw [List.idxOf_cons_ne _ hvc, List.idxOf_cons_ne _ (Ne.symm hdc)]
      exact Nat.succ_le_succ hidx

theorem Store.bestFill_some (h : st.bestFill gap pool = some v) : st.BestFill gap pool v := by
  induction pool generalizing v with
  | nil => cases h
  | cons c pool ih =>
    rw [Store.bestFill] at h
    cases hf : (st.usable c).filter fun v => decide (v.playLen ≤ gap) with
    | none =>
      simp only [hf] at h
      exact (ih h).tail fun w hw hle => absurd (decide_eq_true hle) (Option.filter_eq_none_iff.1 hf w hw)
    | some u =>
      obtain ⟨hu, hfits⟩ := Option.filter_eq_some_iff.1 hf
      obtain rfl := Store.usable_cart hu
      have hfits := of_decide_eq_true hfits
      cases hrest : st.bestFill gap pool with
      | none =>
        simp only [hf, hrest, Option.some.injEq] at h
        subst h
        exact .head hu hfits fun c w hc hw hle => absurd hle (Nat.not_le.2 (Store.bestFill_none hrest c w hc hw))
      | some x =>
        have hx := ih hrest
        simp only [hf, hrest] at h
        split at h
        · rename_i hle
          cases h
          exact .head hu hfits fun c w hc hw hw' => ((hx.best c w hc hw hw').elim le_of_lt fun e => e.1.le).trans hle
        · rename_i hlt
          cases h
          exact hx.tail fun w hw _ => by
            rw [hu] at hw
            cases hw
            exact Nat.lt_of_not_le hlt

/-- What is left of a list keeps its order. -/
theorem idxOf_le_of_filter {l : List Nat} {p : Nat → Bool} {a b : Nat} (ha : a ∈ l.filter p) (hb : b ∈ l.filter p)
    (h : (l.filter p).idxOf a ≤ (l.filter p).idxOf b) : l.idxOf a ≤ l.idxOf b := by
  induction l with
  | nil => cases ha
  | cons c l ih =>
    by_cases hac : c = a
    · rw [hac, List.idxOf_cons_self]
      exact Nat.zero_le _
    · by_cases hp : p c = true
      · rw [List.filter_cons_of_pos hp] at ha hb h
        have ha := (List.mem_cons.1 ha).resolve_left (Ne.symm hac)
        by_cases hbc : c = b
        · rw [hbc, List.idxOf_cons_self, ← hbc, List.idxOf_cons_ne _ hac] at h
          cases h
        · have hb := (List.mem_cons.1 hb).resolve_left (Ne.symm hbc)
          rw [List.idxOf_cons_ne _ hac, List.idxOf_cons_ne _ hbc] at h ⊢
          exact Nat.succ_le_succ (ih ha hb (Nat.le_of_succ_le_succ h))
      · rw [List.filter_cons_of_neg hp] at ha hb h
        have hbc : c ≠ b := fun e => hp (e ▸ (List.mem_filter.1 hb).2)
        rw [List.idxOf_cons_ne _ hac, List.idxOf_cons_ne _ hbc]
        exact Nat.succ_le_succ (ih ha hb h)

/-- A fill of the pool is the best choice for its gap among those not yet chosen (R57). -/
structure Store.GoodFill (st : Store) (room : Nat) (pool used : List Nat) (f : BreakItem) : Prop where
  mem : f.cart ∈ pool
  fresh : f.cart ∉ used
  fits : f.playLen ≤ room
  version : ∃ v, st.usable f.cart = some v ∧ f.serial = v.serial ∧ f.playLen = v.playLen
  best : ∀ c v, c ∈ pool → c ∉ used → st.usable c = some v → v.playLen ≤ room →
    v.playLen < f.playLen ∨ v.playLen = f.playLen ∧ pool.idxOf f.cart ≤ pool.idxOf c

/-- The fills of a gap in the order chosen, and the gap that is left (R57). -/
structure Store.FillsGap (st : Store) (gap : Nat) (pool : List Nat) (fills : List BreakItem) (left : Nat) : Prop where
  each : ∀ j f, fills[j]? = some f → st.GoodFill (gap - playSum (fills.take j)) pool ((fills.take j).map BreakItem.cart) f
  full : ∀ c v, c ∈ pool → c ∉ fills.map BreakItem.cart → st.usable c = some v → left < v.playLen
  total : playSum fills + left = gap

theorem Store.FillsGap.nil (h : ∀ c v, c ∈ pool → st.usable c = some v → gap < v.playLen) : st.FillsGap gap pool [] gap where
  each := fun _ _ h => nomatch h
  full := fun c v hc _ => h c v hc
  total := Nat.zero_add _

theorem Store.FillsGap.cons {fills : List BreakItem} {left : Nat} (hv : st.BestFill gap pool v)
    (h : st.FillsGap (gap - v.playLen) (pool.filter fun c => c != v.cart) fills left) :
    st.FillsGap gap pool (planItem .fill v 0 none :: fills) left := by
  have hsum : ∀ l, playSum (planItem .fill v 0 none :: l) = v.playLen + playSum l := playSum_cons _
  have hpool : ∀ c, c ∈ pool.filter (fun c => c != v.cart) ↔ c ∈ pool ∧ c ≠ v.cart := fun c => by simp
  refine ⟨fun j f hj => ?_, fun c w hc hfresh hw => ?_, ?_⟩
  · cases j with
    | zero =>
      obtain rfl : planItem .fill v 0 none = f := by simpa using hj
      exact ⟨hv.mem, List.not_mem_nil, hv.fits, ⟨v, hv.usable, rfl, rfl⟩, fun c w hc _ => hv.best c w hc⟩
    | succ j =>
      have hf := h.each j f hj
      rw [List.take_succ_cons, hsum, ← Nat.sub_sub]
      refine ⟨((hpool _).1 hf.mem).1, ?_, hf.fits, hf.version, fun c w hc hfresh hw hle => ?_⟩
      · rw [List.map_cons, List.mem_cons]
        exact not_or.2 ⟨((hpool _).1 hf.mem).2, hf.fresh⟩
      · obtain ⟨hne, hfresh⟩ := not_or.1 (fun e => hfresh (List.mem_cons.2 e))
        have hcpool := (hpool c).2 ⟨hc, hne⟩
        exact (hf.best c w hcpool hfresh hw hle).imp id fun ⟨e, hidx⟩ => ⟨e, idxOf_le_of_filter hf.mem hcpool hidx⟩
  · obtain ⟨hne, hfresh⟩ := not_or.1 (fun e => hfresh (List.mem_cons.2 e))
    exact h.full c w ((hpool c).2 ⟨hc, hne⟩) hfresh hw
  · have htotal := h.total
    have hfits := hv.fits
    rw [hsum]
    omega

theorem Store.chooseFills_fill {fuel : Nat} (hfuel : pool.length ≤ fuel) :
    st.FillsGap gap pool (st.chooseFills fuel gap pool).1 (st.chooseFills fuel gap pool).2 := by
  induction fuel generalizing gap pool with
  | zero =>
    obtain rfl := List.length_eq_zero_iff.1 (Nat.le_zero.1 hfuel)
    exact .nil fun _ _ hc => nomatch hc
  | succ fuel ih =>
    rw [Store.chooseFills]
    cases hb : st.bestFill gap pool with
    | none => exact .nil (Store.bestFill_none hb)
    | some v =>
      have hv := Store.bestFill_some hb
      have hlt : (pool.filter fun c => c != v.cart).length < pool.length :=
        List.length_filter_lt_length_iff_exists.2 ⟨v.cart, hv.mem, by simp⟩
      exact .cons hv (ih (Nat.le_of_lt_succ (hlt.trans_le hfuel)))

theorem Store.chooseFills_items {fuel : Nat} :
    ∀ i ∈ (st.chooseFills fuel gap pool).1, i.role = .fill ∧ i.join = 0 ∧ i.progress = .waiting := by
  induction fuel generalizing gap pool with
  | zero => exact fun _ hi => nomatch hi
  | succ fuel ih =>
    rw [Store.chooseFills]
    cases st.bestFill gap pool with
    | none => exact fun _ hi => nomatch hi
    | some v => exact List.forall_mem_cons.2 ⟨⟨rfl, rfl, rfl⟩, ih⟩

end fills

end Sys2Proof.Machine
end

section
/-! The plan of a fit: the items with their fills, joins and offsets, and the tail (R56 to R59). -/

namespace Sys2Proof.Machine

/-! ### Joins and offsets (R58, R59) -/

/-- An item without its place in the plan. -/
def BreakItem.bare (i : BreakItem) : BreakItem := { i with offset := 0, join := 0 }

/-- A plan of a list: the items of the list with the joins given and the offsets these make (R58, R59). -/
structure LaysOut (l items : List BreakItem) (join : Nat → Nat) : Prop where
  bare : items.map BreakItem.bare = l.map BreakItem.bare
  offset : ∀ k it, items[k]? = some it → it.offset = planSum (items.take k)
  join : ∀ k it, items[k]? = some it → it.join = join k

theorem planSum_cons (i : BreakItem) (l : List BreakItem) : planSum (i :: l) = i.playLen + i.join + planSum l := rfl

theorem setOffsets_getElem? (off : Nat) (l : List BreakItem) (k : Nat) :
    (setOffsets off l)[k]? = l[k]?.map fun i => { i with offset := off + planSum (l.take k) } := by
  induction l generalizing off k with
  | nil => rfl
  | cons i l ih =>
    cases k with
    | zero => rfl
    | succ k =>
      rw [setOffsets, List.getElem?_cons_succ, List.getElem?_cons_succ, ih, List.take_succ_cons, planSum_cons, Nat.add_assoc off,
        Nat.add_assoc off]

/-- The offsets change nothing else. -/
theorem setOffsets_map {α : Type} {f : BreakItem → α} (hf : ∀ i n, f { i with offset := n } = f i) (off : Nat) (l : List BreakItem) :
    (setOffsets off l).map f = l.map f := by
  induction l generalizing off with
  | nil => rfl
  | cons i l ih => rw [setOffsets, List.map_cons, List.map_cons, ih, hf]

theorem planSum_setOffsets (off : Nat) (l : List BreakItem) : planSum (setOffsets off l) = planSum l :=
  congrArg List.sum (setOffsets_map (fun _ _ => rfl) off l)

/-- A list with its joins is laid out by its offsets. -/
theorem LaysOut.setOffsets {l k : List BreakItem} {join : Nat → Nat} (hbare : k.map BreakItem.bare = l.map BreakItem.bare)
    (hjoin : ∀ n i, k[n]? = some i → i.join = join n) : LaysOut l (setOffsets 0 k) join := by
  have hat : ∀ n it, (Machine.setOffsets 0 k)[n]? = some it →
      ∃ i : BreakItem, k[n]? = some i ∧ ({ i with offset := 0 + planSum (k.take n) } : BreakItem) = it := fun n it h => by
    rw [setOffsets_getElem?, Option.map_eq_some_iff] at h
    exact h
  refine ⟨(setOffsets_map (fun _ _ => rfl) 0 k).trans hbare, fun n it h => ?_, fun n it h => ?_⟩
  · obtain ⟨i, -, rfl⟩ := hat n it h
    have hsum : planSum ((Machine.setOffsets 0 k).take n) = planSum (k.take n) := by
      rw [planSum, planSum, List.map_take, List.map_take, setOffsets_map fun _ _ => rfl]
    exact (Nat.zero_add _).trans hsum.symm
  · obtain ⟨i, hi, rfl⟩ := hat n it h
    exact hjoin n i hi

theorem spreadJoins_bare (q r : Nat) (l : List BreakItem) : (spreadJoins q r l).map BreakItem.bare = l.map BreakItem.bare := by
  induction l generalizing r with
  | nil => rfl
  | cons i l ih =>
    cases l with
    | nil => rfl
    | cons k l =>
      rw [spreadJoins, List.map_cons, ih]
      · rfl
      · exact fun h => nomatch h

theorem spreadJoins_cons_cons (q r : Nat) (i k : BreakItem) (l : List BreakItem) :
    spreadJoins q r (i :: k :: l) = { i with join := q + (if 0 < r then 1 else 0) } :: spreadJoins q (r - 1) (k :: l) := by
  rw [spreadJoins]
  exact fun h => nomatch h

/-- The first `r` joins have a sample more, the last item has none (R58). -/
theorem spreadJoins_join {q r : Nat} {l : List BreakItem} {n : Nat} {it : BreakItem} (h : (spreadJoins q r l)[n]? = some it) :
    it.join = if n < l.length - 1 then q + (if n < r then 1 else 0) else 0 := by
  induction l generalizing r n with
  | nil => cases h
  | cons i l ih =>
    cases l with
    | nil =>
      cases n with
      | zero =>
        cases h
        rfl
      | succ n => cases h
    | cons k l =>
      rw [spreadJoins_cons_cons] at h
      cases n with
      | zero =>
        cases h
        rfl
      | succ n =>
        rw [ih h]
        have hlen : n < (k :: l).length - 1 ↔ n + 1 < (i :: k :: l).length - 1 := by simp
        have hr : n < r - 1 ↔ n + 1 < r := by omega
        simp only [hlen, hr]

theorem planSum_spreadJoins (q r : Nat) (l : List BreakItem) :
    planSum (spreadJoins q r l) = playSum l + ((l.length - 1) * q + min r (l.length - 1)) := by
  induction l generalizing r with
  | nil => simp [spreadJoins, planSum, playSum]
  | cons i l ih =>
    cases l with
    | nil => simp [spreadJoins, planSum, playSum]
    | cons k l =>
      have hlen : (i :: k :: l).length - 1 = (k :: l).length - 1 + 1 := rfl
      rw [spreadJoins_cons_cons, planSum_cons, ih, playSum_cons i, hlen, Nat.succ_mul]
      dsimp only
      split <;> omega

/-- The joins of a spread make up its gap (R58). -/
theorem planSum_spread {l : List BreakItem} {g : Nat} (h : spreads l.length g = true) :
    planSum (setOffsets 0 (spreadJoins (g / (l.length - 1)) (g % (l.length - 1)) l)) = playSum l + g := by
  rw [planSum_setOffsets, planSum_spreadJoins]
  rcases Nat.eq_zero_or_pos (l.length - 1) with hj | hj
  · have hg : g = 0 := by simpa [spreads, hj] using h
    rw [hj, hg]
    rfl
  · rw [min_eq_left (Nat.mod_lt g hj).le, Nat.div_add_mod]

/-- A gap the joins can take (R56, R57). -/
def Spreadable (n g : Nat) : Prop := g = 0 ∨ 2 ≤ n ∧ g ≤ (n - 1) * 12000

theorem spreads_iff {n g : Nat} : spreads n g = true ↔ Spreadable n g := by
  have hjoin : 1 ≤ n - 1 ↔ 2 ≤ n := by omega
  have hspread : spreads n g = true ↔ g = 0 ∨ 2 ≤ n ∧ g ≤ (n - 1) * joinLimit := by simp [spreads, hjoin]
  exact hspread

theorem Spreadable.join_le {n g k : Nat} (h : Spreadable n g) : g / (n - 1) + (if k < g % (n - 1) then 1 else 0) ≤ 12000 := by
  rcases h with rfl | ⟨hn, hg⟩
  · simp
  · have hle : g / (n - 1) ≤ 12000 := Nat.div_le_of_le_mul hg
    have hmod := Nat.div_add_mod g (n - 1)
    split
    · rename_i hk
      refine Nat.succ_le_of_lt (lt_of_le_of_ne hle fun e => ?_)
      rw [e] at hmod
      omega
    · exact hle

/-! ### Facts that a plan keeps -/

section bare
variable {l k : List BreakItem}

theorem playSum_bare (h : k.map BreakItem.bare = l.map BreakItem.bare) : playSum k = playSum l := by
  have := congrArg (List.map BreakItem.playLen) h
  rw [List.map_map, List.map_map] at this
  exact congrArg List.sum this

/-- What does not speak of an item's place is the same of all items. -/
theorem map_of_bare {α : Type} {f : BreakItem → α} (hf : ∀ i, f i.bare = f i) (h : k.map BreakItem.bare = l.map BreakItem.bare) :
    k.map f = l.map f := by
  have hmap := congrArg (List.map f) h
  rwa [List.map_map, List.map_map, show f ∘ BreakItem.bare = f from funext hf] at hmap

theorem filter_bare {p : BreakItem → Bool} (hp : ∀ i, p i.bare = p i) (h : k.map BreakItem.bare = l.map BreakItem.bare) :
    (k.filter p).map BreakItem.bare = (l.filter p).map BreakItem.bare := by
  have hfilter := congrArg (List.filter p) h
  rwa [List.filter_map, List.filter_map, show p ∘ BreakItem.bare = p from funext hp] at hfilter

theorem getElem?_bare (h : k.map BreakItem.bare = l.map BreakItem.bare) {n : Nat} {i : BreakItem} (hi : k[n]? = some i) :
    ∃ a, l[n]? = some a ∧ a.bare = i.bare := by
  have hn : (k.map BreakItem.bare)[n]? = some i.bare := by rw [List.getElem?_map, hi]; rfl
  rw [h, List.getElem?_map, Option.map_eq_some_iff] at hn
  exact hn

theorem take_bare (h : k.map BreakItem.bare = l.map BreakItem.bare) (n : Nat) :
    (k.take n).map BreakItem.bare = (l.take n).map BreakItem.bare := by
  rw [List.map_take, List.map_take, h]

/-- Fills that are laid out are the fills that were chosen. -/
theorem Store.FillsGap.of_bare {st : Store} {gap left : Nat} {pool : List Nat} (h : st.FillsGap gap pool l left)
    (hk : k.map BreakItem.bare = l.map BreakItem.bare) : st.FillsGap gap pool k left where
  each := fun j f hj => by
    obtain ⟨a, ha, hbare⟩ := getElem?_bare hk hj
    have hgood := h.each j a ha
    have hcart : a.cart = f.cart := by simpa [BreakItem.bare] using congrArg BreakItem.cart hbare
    have hlen : a.playLen = f.playLen := by simpa [BreakItem.bare] using congrArg BreakItem.playLen hbare
    have hserial : a.serial = f.serial := by simpa [BreakItem.bare] using congrArg BreakItem.serial hbare
    have htake := take_bare hk j
    rw [playSum_bare htake, map_of_bare (f := BreakItem.cart) (fun _ => rfl) htake]
    exact ⟨hcart ▸ hgood.mem, hcart ▸ hgood.fresh, hlen ▸ hgood.fits, hcart ▸ hserial ▸ hlen ▸ hgood.version,
      hcart ▸ hlen ▸ hgood.best⟩
  full := by
    rw [map_of_bare (f := BreakItem.cart) (fun _ => rfl) hk]
    exact h.full
  total := by
    rw [playSum_bare hk]
    exact h.total

end bare

/-! ### The items with their fills (R57) -/

section insert
variable {kept chosen : List BreakItem}

theorem OfferedList.split_closer {l : List BreakItem} (h : l.Pairwise BreakItem.Before) :
    (l.filter fun i => i.role != .closer) ++ (l.filter fun i => i.role == .closer) = l := by
  induction l with
  | nil => rfl
  | cons i l ih =>
    obtain ⟨hbefore, hrest⟩ := List.pairwise_cons.1 h
    by_cases hi : i.role = .closer
    · have hnil : l = [] := List.eq_nil_iff_forall_not_mem.2 fun b hb => (hbefore b hb).1 hi
      subst hnil
      simp [hi]
    · rw [List.filter_cons_of_pos (by simpa using hi), List.filter_cons_of_neg (by simpa using hi), List.cons_append, ih hrest]

theorem OfferedList.insertFills_nil (h : OfferedList kept) : insertFills kept [] = kept := by
  rw [insertFills, List.append_nil]
  exact OfferedList.split_closer h.order

theorem playSum_append (a b : List BreakItem) : playSum (a ++ b) = playSum a + playSum b := by
  rw [playSum, List.map_append, List.sum_append]
  rfl

theorem OfferedList.playSum_insertFills (h : OfferedList kept) : playSum (insertFills kept chosen) = playSum kept + playSum chosen := by
  have hkept := congrArg playSum (OfferedList.split_closer h.order)
  rw [playSum_append] at hkept
  rw [insertFills, playSum_append, playSum_append]
  omega

theorem BreakItem.Offered.not_fill {i : BreakItem} (h : i.Offered) : i.role ≠ .fill := fun e => by
  rcases h.kind with hr | hr | ⟨hr, -⟩ <;> rw [hr] at e <;> cases e

theorem OfferedList.insertFills_fills (h : OfferedList kept) (hc : ∀ i ∈ chosen, i.role = .fill) :
    ((insertFills kept chosen).filter fun i => i.role == .fill) = chosen := by
  have hnone : ∀ p : BreakItem → Bool, ((kept.filter p).filter fun i => i.role == .fill) = [] := fun p =>
    List.filter_eq_nil_iff.2 fun i hi => by simpa using (h.items i (List.mem_of_mem_filter hi)).not_fill
  rw [insertFills, List.filter_append, List.filter_append, hnone, hnone, List.filter_eq_self.2 fun i hi => by simp [hc i hi],
    List.append_nil, List.nil_append]

theorem OfferedList.insertFills_rest (h : OfferedList kept) (hc : ∀ i ∈ chosen, i.role = .fill) :
    ((insertFills kept chosen).filter fun i => i.role != .fill) = kept := by
  have hall : ∀ p : BreakItem → Bool, ((kept.filter p).filter fun i => i.role != .fill) = kept.filter p := fun p =>
    List.filter_eq_self.2 fun i hi => by simpa using (h.items i (List.mem_of_mem_filter hi)).not_fill
  have hnil : (chosen.filter fun i => i.role != .fill) = [] := List.filter_eq_nil_iff.2 fun i hi => by simp [hc i hi]
  rw [insertFills, List.filter_append, List.filter_append, hall, hall, hnil,
    List.append_nil]
  exact OfferedList.split_closer h.order

/-- A fill comes after what is not a fill, but for the closer (R57). -/
def ItemRole.FillsLate (x y : ItemRole) : Prop := (y = .fill → x ≠ .closer) ∧ (x = .fill → y = .fill ∨ y = .closer)

theorem OfferedList.insertFills_order (h : OfferedList kept) (hc : ∀ i ∈ chosen, i.role = .fill) :
    ((insertFills kept chosen).map BreakItem.role).Pairwise ItemRole.FillsLate := by
  have hkept : ∀ i ∈ kept, i.role ≠ .fill := fun i hi => (h.items i hi).not_fill
  have hpart : ∀ p : BreakItem → Bool, (kept.filter p).Pairwise fun x y => x.role.FillsLate y.role := fun p =>
    List.pairwise_of_forall_mem_list fun x hx y hy =>
      ⟨fun e => absurd e (hkept y (List.mem_of_mem_filter hy)), fun e => absurd e (hkept x (List.mem_of_mem_filter hx))⟩
  have hfront : ∀ x ∈ kept.filter (fun i => i.role != .closer), x.role ≠ .closer ∧ x.role ≠ .fill := fun x hx =>
    ⟨by simpa using (List.mem_filter.1 hx).2, hkept x (List.mem_of_mem_filter hx)⟩
  have hback : ∀ y ∈ kept.filter (fun i => i.role == .closer), y.role = .closer := fun y hy => by simpa using (List.mem_filter.1 hy).2
  rw [List.pairwise_map, insertFills, List.pairwise_append, List.pairwise_append]
  refine ⟨⟨hpart _, List.pairwise_of_forall_mem_list fun x hx y hy => ⟨fun _ e => ?_, fun _ => .inl (hc y hy)⟩, fun x hx y _ =>
    ⟨fun _ => (hfront x hx).1, fun e => absurd e (hfront x hx).2⟩⟩, hpart _, fun x _ y hy => ⟨fun e => ?_, fun _ => .inr (hback y hy)⟩⟩
  · rw [hc x hx] at e
    cases e
  · rw [hback y hy] at e
    cases e

end insert

end Sys2Proof.Machine
end

section
/-! A fit fills its break (R52 to R60). -/

namespace Sys2Proof.Machine

/-! ### The plan (R56 to R59) -/

/-- The last stage of a fit: the joins of a list share its gap, or a tail takes it (R58, R59). -/
def Store.layOut (st : Store) (follow : Bool) (bed : Option Nat) (l : List BreakItem) (g : Nat) : List BreakItem × TailKind × Nat :=
  if spreads l.length g then (setOffsets 0 (spreadJoins (g / (l.length - 1)) (g % (l.length - 1)) l), .none, 0)
  else (setOffsets 0 l, if (st.readyBed bed).isSome then .bed else if follow then .earlyRejoin else .silence, g)

/-- How a plan of the items kept fills the break: its fills, its joins and its tail (R56 to R59). -/
structure FillsBreak (st : Store) (follow : Bool) (len : Nat) (fills : List Nat) (bed : Option Nat) (kept items : List BreakItem)
    (tail : TailKind) (tailLen : Nat) : Prop where
  others : (items.filter fun i => i.role != .fill).map BreakItem.key = kept.map BreakItem.key
  unfilled : Spreadable kept.length (len - playSum kept) → (items.filter fun i => i.role == .fill) = []
  filled : ¬ Spreadable kept.length (len - playSum kept) →
    st.FillsGap (len - playSum kept) fills (items.filter fun i => i.role == .fill) (len - playSum items)
  order : (items.map BreakItem.role).Pairwise ItemRole.FillsLate
  total : planSum items + tailLen = len
  offset : ∀ k it, items[k]? = some it → it.offset = planSum (items.take k)
  waiting : ∀ i ∈ items, i.progress = .waiting
  join : ∀ k it, items[k]? = some it → it.join =
    if spreads items.length (len - playSum items) = true ∧ k < items.length - 1 then
      (len - playSum items) / (items.length - 1) + (if k < (len - playSum items) % (items.length - 1) then 1 else 0)
    else 0
  spread : spreads items.length (len - playSum items) = true → tail = .none ∧ tailLen = 0
  tail : ¬ spreads items.length (len - playSum items) = true →
    tailLen = len - playSum items ∧ tail = if (st.readyBed bed).isSome then .bed else if follow then .earlyRejoin else .silence

section plan
variable {st : Store} {follow : Bool} {len : Nat} {fills : List Nat} {bed : Option Nat} {kept chosen l : List BreakItem} {g : Nat}

/-- The items laid out are those of the list, their joins share the gap, and with the tail they make up the list and its gap. -/
theorem Store.layOut_lays (hjoin : ∀ i ∈ l, i.join = 0) :
    (LaysOut l (st.layOut follow bed l g).1 fun k =>
      if spreads l.length g = true ∧ k < l.length - 1 then g / (l.length - 1) + (if k < g % (l.length - 1) then 1 else 0) else 0) ∧
    planSum (st.layOut follow bed l g).1 + (st.layOut follow bed l g).2.2 = playSum l + g := by
  rw [Store.layOut]
  split
  · rename_i hs
    refine ⟨.setOffsets (spreadJoins_bare ..) fun k i hi => ?_, planSum_spread hs⟩
    rw [spreadJoins_join hi]
    simp only [hs, true_and]
  · rename_i hs
    refine ⟨.setOffsets rfl fun k i hi => ?_, ?_⟩
    · rw [if_neg fun h => hs h.1, hjoin i (List.mem_of_getElem? hi)]
    · have hsum : planSum l = playSum l := congrArg List.sum (List.map_congr_left fun i hi => by rw [hjoin i hi, Nat.add_zero])
      rw [planSum_setOffsets, hsum]

/-- Items in a new place keep their number. -/
theorem length_bare (h : l.map BreakItem.bare = kept.map BreakItem.bare) : l.length = kept.length := by
  simpa using congrArg List.length h

/-- A list with its fills, laid out over its gap, fills the break. -/
theorem Store.layOut_fills (h : OfferedList kept) (hc : ∀ i ∈ chosen, i.role = .fill ∧ i.join = 0 ∧ i.progress = .waiting)
    (hle : playSum (insertFills kept chosen) ≤ len) (hnone : Spreadable kept.length (len - playSum kept) → chosen = [])
    (hfills : ¬ Spreadable kept.length (len - playSum kept) →
      st.FillsGap (len - playSum kept) fills chosen (len - playSum (insertFills kept chosen)))
    {p : List BreakItem × TailKind × Nat}
    (hp : st.layOut follow bed (insertFills kept chosen) (len - playSum (insertFills kept chosen)) = p) :
    FillsBreak st follow len fills bed kept p.1 p.2.1 p.2.2 := by
  have hplain : ∀ i ∈ insertFills kept chosen, i.join = 0 ∧ i.progress = .waiting := fun i hi => by
    rcases List.mem_append.1 hi with hi | hi
    · rcases List.mem_append.1 hi with hi | hi
      · have hoffered := h.items i (List.mem_of_mem_filter hi)
        exact ⟨hoffered.join, hoffered.progress⟩
      · exact (hc i hi).2
    · have hoffered := h.items i (List.mem_of_mem_filter hi)
      exact ⟨hoffered.join, hoffered.progress⟩
  have hrole : ∀ i ∈ chosen, i.role = .fill := fun i hi => (hc i hi).1
  obtain ⟨⟨hbare, hoffset, hjoin⟩, htotal⟩ := st.layOut_lays (follow := follow) (bed := bed)
    (g := len - playSum (insertFills kept chosen)) fun i hi => (hplain i hi).1
  rw [hp] at hbare hoffset hjoin htotal
  have hchosen : (p.1.filter fun i => i.role == .fill).map BreakItem.bare = chosen.map BreakItem.bare :=
    (filter_bare (fun _ => rfl) hbare).trans (congrArg _ (h.insertFills_fills hrole))
  have hrest : (p.1.filter fun i => i.role != .fill).map BreakItem.bare = kept.map BreakItem.bare :=
    (filter_bare (fun _ => rfl) hbare).trans (congrArg _ (h.insertFills_rest hrole))
  have hsum := playSum_bare hbare
  have hlen := length_bare hbare
  refine ⟨map_of_bare (fun _ => rfl) hrest, fun hs => ?_, fun hs => ?_, ?_, ?_, hoffset, fun i hi => ?_, ?_, fun hs => ?_, fun hs => ?_⟩
  · rw [hnone hs] at hchosen
    exact List.map_eq_nil_iff.1 hchosen
  · rw [hsum]
    exact (hfills hs).of_bare hchosen
  · rw [map_of_bare (f := BreakItem.role) (fun _ => rfl) hbare]
    exact h.insertFills_order hrole
  · rw [htotal]
    exact Nat.add_sub_cancel' hle
  · obtain ⟨k, hk⟩ := List.mem_iff_getElem?.1 hi
    obtain ⟨a, ha, hab⟩ := getElem?_bare hbare hk
    have hprogress : a.progress = i.progress := by simpa [BreakItem.bare] using congrArg BreakItem.progress hab
    exact hprogress ▸ (hplain a (List.mem_of_getElem? ha)).2
  · rw [hsum, hlen]
    exact hjoin
  · rw [hsum, hlen] at hs
    rw [← hp, Store.layOut, if_pos hs]
    exact ⟨rfl, rfl⟩
  · rw [hsum, hlen] at hs
    rw [hsum, ← hp, Store.layOut, if_neg hs]
    exact ⟨rfl, rfl⟩

theorem planOf_spread (hs : spreads kept.length (len - playSum kept) = true) :
    planOf st follow len fills bed kept = st.layOut follow bed kept (len - playSum kept) := by
  rw [planOf, Store.layOut, if_pos hs, if_pos hs]

theorem planOf_fill (hs : ¬ spreads kept.length (len - playSum kept) = true) :
    planOf st follow len fills bed kept =
      st.layOut follow bed (insertFills kept (st.chooseFills fills.length (len - playSum kept) fills).1)
        (st.chooseFills fills.length (len - playSum kept) fills).2 := by
  rw [planOf, Store.layOut, if_neg hs]

theorem planOf_fills (h : OfferedList kept) (hle : playSum kept ≤ len) :
    FillsBreak st follow len fills bed kept (planOf st follow len fills bed kept).1 (planOf st follow len fills bed kept).2.1
      (planOf st follow len fills bed kept).2.2 := by
  by_cases hs : Spreadable kept.length (len - playSum kept)
  · refine Store.layOut_fills (chosen := []) h (fun _ hi => nomatch hi) ?_ (fun _ => rfl) (fun hn => absurd hs hn) ?_
    · rw [h.insertFills_nil]
      exact hle
    · rw [h.insertFills_nil, planOf_spread (spreads_iff.2 hs)]
  · have hfills := st.chooseFills_fill (gap := len - playSum kept) (le_refl fills.length)
    have hsum := h.playSum_insertFills (chosen := (st.chooseFills fills.length (len - playSum kept) fills).1)
    have htotal := hfills.total
    have hleft : (st.chooseFills fills.length (len - playSum kept) fills).2 =
        len - playSum (insertFills kept (st.chooseFills fills.length (len - playSum kept) fills).1) := by omega
    refine Store.layOut_fills h Store.chooseFills_items (by omega) (fun hp => absurd hp hs) (fun _ => hleft ▸ hfills) ?_
    rw [planOf_fill fun e => hs (spreads_iff.1 e), hleft]

end plan

/-! ### The fit (R52 to R60) -/

section fit
variable (st : Store) (follow : Bool) (tag len : Nat) (entry : Option Nat) (start : Option Time) (list : Option SpotList)
  (fills : List Nat) (bed : Option Nat)

/-- The list of a break, an empty one for want of another (R53). -/
def listFor (tag : Nat) (list : Option SpotList) : SpotList := list.getD { tag := tag, opener := none, closer := none, spots := [] }

/-- What stays of the items of a list, and the drops (R53, R54). -/
def Store.keptAndDrops (st : Store) (sl : SpotList) (len : Nat) : List BreakItem × List Drop :=
  removeOverlength len (st.offered sl).length (st.offered sl) (st.eligible 1 sl.spots).2

theorem Store.keptAndDrops_removes (sl : SpotList) : ∃ removed,
    Removes len (st.offered sl) (st.keptAndDrops sl len).1 removed (st.eligible 1 sl.spots).2 (st.keptAndDrops sl len).2 :=
  removeOverlength_removes (st.offered_list sl) (le_refl _) _

theorem fitBreak_none : fitBreak st follow tag len entry start list fills bed = none ↔
    follow = true ∧ ∀ k ∈ (st.keptAndDrops (listFor tag list) len).1, k.role ≠ .spot := by
  have hnone : fitBreak st follow tag len entry start list fills bed = none ↔
      (follow && !((st.keptAndDrops (listFor tag list) len).1.any fun it => it.role == .spot)) = true := by
    rw [fitBreak]
    exact ite_eq_left_iff.trans ⟨fun h => by_contra fun hn => (nomatch h hn), fun h hn => absurd h hn⟩
  rw [hnone]
  simp

/-- The break of a fit, with its plan (R52 to R60). -/
theorem fitBreak_some {b : FittedBreak} (h : fitBreak st follow tag len entry start list fills bed = some b) :
    b.tag = tag ∧ b.len = len ∧ b.entryTag = entry ∧ b.start = start ∧ b.state = .armed ∧ b.announced = false ∧
    planOf st follow len fills bed (st.keptAndDrops (listFor tag list) len).1 = (b.items, b.tail, b.tailLen) ∧
    b.drops = sortDrops (st.keptAndDrops (listFor tag list) len).2 ∧
    b.bedCart = if playSum (st.keptAndDrops (listFor tag list) len).1 < len then (st.readyBed bed).map fun v => (v.cart, v.serial)
      else none := by
  rw [fitBreak] at h
  dsimp only at h
  split at h
  · cases h
  · cases h
    exact ⟨rfl, rfl, rfl, rfl, rfl, rfl, rfl, rfl, rfl⟩

end fit

/-- A bed of another kind, or none, is no bed (R59). -/
theorem Store.readyBed_isSome {st : Store} {bed : Option Nat} :
    (∀ v, bed.bind st.usable = some v → v.kind = .bed → (st.readyBed bed).isSome = true) ∧
      ((∀ v, bed.bind st.usable = some v → v.kind ≠ .bed) → (st.readyBed bed).isSome = false) := by
  unfold Store.readyBed
  refine ⟨fun v hv hk => by simp [hv, hk], fun h => ?_⟩
  rw [Option.filter_eq_none_iff.2 fun v hv => by simpa using h v hv]
  rfl

end Sys2Proof.Machine

open Sys2Proof Sys2Proof.Machine

/-- Settles O50: the removals take what goes first as long as the list is too long (`removeOverlength_removes`), the fills are each the best
for the gap that is left (`Store.chooseFills_fill`), and the joins or a tail take the rest (`planOf_fills`). -/
theorem fitsFillTheBreak : Obligations.FitsFillTheBreak := by
  unfold Obligations.FitsFillTheBreak
  intro st follow tag len entry start list fills bed sl fit sum key offer rank goesBefore spreadable
  obtain ⟨removed, hr⟩ := st.keptAndDrops_removes len sl
  have hkept : OfferedList (st.keptAndDrops sl len).1 := (st.offered_list sl).sublist hr.stays
  refine ⟨st.offered sl, (st.keptAndDrops sl len).1, removed, st.offered_keys sl, hr.stays, hr.perm, hr.enough, hr.order, hr.needed,
    fitBreak_none st follow tag len entry start list fills bed, fun b hb => ?_⟩
  intro filled room gap joins
  obtain ⟨htag, hlen, hentry, hstart, hstate, hannounced, hplan, hdrops, hbed⟩ := fitBreak_some st follow tag len entry start list fills bed hb
  have hfit := planOf_fills (st := st) (follow := follow) (fills := fills) (bed := bed) hkept hr.enough
  change planOf st follow len fills bed (st.keptAndDrops sl len).1 = _ at hplan
  rw [hplan] at hfit
  dsimp only at hfit
  refine ⟨htag, hlen, hentry, hstart, hstate, hannounced, hfit.others, fun d => ?_, ?_, hfit.unfilled, fun j f hf => ?_,
    fun hs c v hc hfresh hv => ?_, fun i j x y hij hx hy => ?_, hfit.total, fun k it hk => ?_, fun hs => hfit.spread (spreads_iff.2 hs),
    fun hs => ?_, hbed⟩
  · rw [hdrops, (sortDrops_perm _).mem_iff]
    exact hr.mem_drops d
  · rw [hdrops]
    exact sortDrops_sorted hr.drops_nodup
  · have hs : ¬ Spreadable (st.keptAndDrops sl len).1.length (len - playSum (st.keptAndDrops sl len).1) := fun hs => by
      have hnil : filled = [] := hfit.unfilled hs
      rw [hnil] at hf
      cases hf
    obtain ⟨hmem, hfresh, hle, hversion, hbest⟩ := (hfit.filled hs).each j f hf
    exact ⟨hmem, hfresh, hle, hversion, hbest⟩
  · have hgap := hfit.filled hs
    have hroom : room filled.length = len - playSum b.items := by
      have htotal : playSum filled + (len - playSum b.items) = len - playSum (st.keptAndDrops sl len).1 := hgap.total
      change len - playSum (st.keptAndDrops sl len).1 - playSum (filled.take filled.length) = _
      rw [List.take_length]
      omega
    rw [hroom]
    exact hgap.full c v hc hfresh hv
  · obtain ⟨hi, rfl⟩ := List.getElem?_eq_some_iff.1 hx
    obtain ⟨hj, rfl⟩ := List.getElem?_eq_some_iff.1 hy
    exact List.pairwise_iff_getElem.1 (List.pairwise_map.1 hfit.order) i j hi hj hij
  · refine ⟨hfit.offset k it hk, hfit.waiting it (List.mem_of_getElem? hk), ?_, ?_⟩
    · rw [hfit.join k it hk]
      split
      · rename_i hs
        exact (spreads_iff.1 hs.1).join_le
      · exact Nat.zero_le _
    · rw [hfit.join k it hk]
      exact if_congr (and_congr_left' spreads_iff) rfl rfl
  · obtain ⟨htail, hkind⟩ := hfit.tail fun e => hs (spreads_iff.1 e)
    refine ⟨htail, fun v hv hk => ?_, fun h => ?_⟩
    · rw [hkind, Store.readyBed_isSome.1 v hv hk]
      rfl
    · rw [hkind, Store.readyBed_isSome.2 h]
      rfl
end

section
/-! The jitter buffer of a relay: the frames it takes while anchored and while collecting (R71). -/

namespace Sys2Proof.Machine

/-! ### Frames in order (R71) -/

/-- The list `m` is `l` with a frame in its place among the frame times. -/
def HeldFrame.Joins (g : HeldFrame) (l m : List HeldFrame) : Prop :=
  ∃ pre post, l = pre ++ post ∧ m = pre ++ g :: post ∧ (∀ q ∈ pre, q.time < g.time) ∧ ∀ q, post.head? = some q → g.time < q.time

theorem insertFrame_joins {g : HeldFrame} {l : List HeldFrame} (h : ¬ ∃ q ∈ l, q.time = g.time) : g.Joins l (insertFrame g l) := by
  induction l with
  | nil => exact ⟨[], [], rfl, rfl, nofun, nofun⟩
  | cons x l ih =>
    unfold insertFrame
    split
    · rename_i hlt
      exact ⟨[], x :: l, rfl, rfl, nofun, fun q hq => Option.some.inj hq ▸ hlt⟩
    · rename_i hn
      obtain ⟨pre, post, hl, hm, hpre, hpost⟩ := ih fun ⟨q, hq, ht⟩ => h ⟨q, List.mem_cons_of_mem x hq, ht⟩
      have hx : x.time < g.time := lt_of_le_of_ne (not_lt.1 hn) fun e => h ⟨x, List.mem_cons_self, e⟩
      exact ⟨x :: pre, post, by rw [hl]; rfl, by rw [hm]; rfl, List.forall_mem_cons.2 ⟨hx, hpre⟩, hpost⟩

theorem insertFrame_latest {g : HeldFrame} {l : List HeldFrame} (h : ∀ q ∈ l, q.time < g.time) : insertFrame g l = l ++ [g] := by
  induction l with
  | nil => rfl
  | cons x l ih =>
    obtain ⟨hx, hl⟩ := List.forall_mem_cons.1 h
    rw [insertFrame, if_neg (not_lt.2 (le_of_lt hx)), ih hl]
    rfl

theorem insertFrame_earliest {g x : HeldFrame} {l : List HeldFrame} (hx : l.head? = some x) (h : g.time < x.time) :
    insertFrame g l = g :: l := by
  cases l with
  | nil => cases hx
  | cons y l =>
    cases hx
    exact if_pos h

theorem dropFar_eq (f : Time) (l : List HeldFrame) : dropFar f l = l.dropWhile fun q => decide (720 < f - q.time) := by
  induction l with
  | nil => rfl
  | cons x l ih =>
    rw [dropFar, ih, List.dropWhile_cons]
    exact if_congr decide_eq_true_iff.symm rfl rfl

/-! ### An anchored relay (R71, R73) -/

theorem HeldFrame.any_time_iff {l : List HeldFrame} {f : Time} : (l.any fun q => q.time == f) = true ↔ ∃ q ∈ l, q.time = f := by
  simp only [List.any_eq_true, beq_iff_eq]

section anchored
variable {pos : Time} {judged : Option Time} {l : List HeldFrame} {g : HeldFrame}

/-- A frame that an anchored relay discards: late, of the slot judged last, a duplicate, or beyond the 16 slots. -/
def HeldFrame.Discarded (g : HeldFrame) (pos : Time) (judged : Option Time) (l : List HeldFrame) : Prop :=
  g.time < pos ∨ judged = some g.time ∨ (∃ q ∈ l, q.time = g.time) ∨ pos / 48 * 48 + 720 < g.time

theorem anchorFrame_discards (h : g.Discarded pos judged l) : anchorFrame pos judged l g = l := by
  unfold anchorFrame
  split
  · rfl
  · rename_i hlate
    simp only [Bool.or_eq_true, decide_eq_true_eq, beq_iff_eq, not_or] at hlate
    split
    · rfl
    · rename_i hdup
      refine if_pos ?_
      rcases h with h | h | h | h
      · exact absurd h hlate.1
      · exact absurd h hlate.2
      · exact absurd (HeldFrame.any_time_iff.2 h) hdup
      · exact h

theorem anchorFrame_holds (h : ¬ g.Discarded pos judged l) : anchorFrame pos judged l g = insertFrame g l := by
  simp only [HeldFrame.Discarded, not_or] at h
  obtain ⟨hlate, hjudged, hdup, hfar⟩ := h
  unfold anchorFrame
  rw [if_neg (by simp [hlate, hjudged]), if_neg (mt HeldFrame.any_time_iff.1 hdup)]
  exact if_neg hfar

end anchored

/-! ### A collecting relay (R71) -/

section collecting
variable {l : List HeldFrame} {g first last : HeldFrame}

theorem collectFrame_duplicate (h : ∃ q ∈ l, q.time = g.time) : collectFrame l g = l := if_pos (HeldFrame.any_time_iff.2 h)

theorem collectFrame_latest (h : ∀ q ∈ l, q.time < g.time) :
    collectFrame l g = (l ++ [g]).dropWhile fun q => decide (720 < g.time - q.time) := by
  unfold collectFrame
  rw [if_neg (mt HeldFrame.any_time_iff.1 fun ⟨q, hq, ht⟩ => ne_of_lt (h q hq) ht)]
  split
  · rename_i last first hlast _
    rw [if_pos (h last (List.mem_of_getLast? hlast)), insertFrame_latest h, dropFar_eq]
  · rename_i hnone
    have hl : l = [] := by
      cases l with
      | nil => rfl
      | cons x l => exact (hnone _ x (List.getLast?_eq_some_getLast (List.cons_ne_nil x l)) rfl).elim
    subst hl
    rw [List.nil_append, List.dropWhile_cons_of_neg (by simp)]

variable (hl : (l.map HeldFrame.time).Pairwise (· < ·))
include hl

theorem HeldFrame.time_le_last (h : l.getLast? = some last) : ∀ q ∈ l, q.time ≤ last.time := by
  obtain ⟨m, rfl⟩ := List.getLast?_eq_some_iff.1 h
  rw [List.pairwise_map, List.pairwise_append] at hl
  intro q hq
  rcases List.mem_append.1 hq with hq | hq
  · exact le_of_lt (hl.2.2 q hq last List.mem_cons_self)
  · rw [List.mem_singleton.1 hq]

theorem HeldFrame.first_le_time (h : l.head? = some first) : ∀ q ∈ l, first.time ≤ q.time := by
  obtain ⟨m, rfl⟩ := List.head?_eq_some_iff.1 h
  rw [List.pairwise_map, List.pairwise_cons] at hl
  intro q hq
  rcases List.mem_cons.1 hq with rfl | hq
  · exact le_refl _
  · exact le_of_lt (hl.1 q hq)

theorem collectFrame_earliest (hf : l.head? = some first) (hz : l.getLast? = some last) (h : g.time < first.time) :
    collectFrame l g = if last.time - g.time ≤ 720 then g :: l else l := by
  have hmin := HeldFrame.first_le_time hl hf
  have hlast : ¬ last.time < g.time := not_lt.2 (le_of_lt (lt_of_lt_of_le h (hmin last (List.mem_of_getLast? hz))))
  unfold collectFrame
  rw [if_neg (mt HeldFrame.any_time_iff.1 fun ⟨q, hq, ht⟩ => absurd (hmin q hq) (not_le.2 (ht ▸ h))), hf, hz]
  dsimp only
  rw [if_neg hlast, if_pos h, insertFrame_earliest hf h]
  rfl

theorem collectFrame_between (hdup : ¬ ∃ q ∈ l, q.time = g.time) (hless : ∃ q ∈ l, q.time < g.time) (hmore : ∃ q ∈ l, g.time < q.time) :
    collectFrame l g = insertFrame g l := by
  obtain ⟨x, hx, hxg⟩ := hless
  obtain ⟨y, hy, hgy⟩ := hmore
  unfold collectFrame
  rw [if_neg (mt HeldFrame.any_time_iff.1 hdup)]
  split
  · rename_i last first hlast hfirst
    rw [if_neg (not_lt.2 (le_of_lt (lt_of_lt_of_le hgy (HeldFrame.time_le_last hl hlast y hy)))),
      if_neg (not_lt.2 (le_of_lt (lt_of_le_of_lt (HeldFrame.first_le_time hl hfirst x hx) hxg)))]
  · rename_i hnone
    cases l with
    | nil => cases hx
    | cons z l => exact (hnone _ z (List.getLast?_eq_some_getLast (List.cons_ne_nil z l)) rfl).elim

end collecting

end Sys2Proof.Machine
end

section
/-! The relay of a FOLLOW outlet: a frame of its feed placed, the resync, and its slots judged (R71 to R75, R77). -/

namespace Sys2Proof.Machine

/-! ### Frames placed (R71) -/

theorem Outlet.collecting_iff {x : Outlet} : x.collecting = true ↔ x.relay.state = .unset ∨ x.relay.state = .lost ∧ x.inBreak = false := by
  unfold Outlet.collecting
  cases x.relay.state <;> simp

/-- The outlet with other frames held. -/
def Outlet.holding (x : Outlet) (l : List HeldFrame) : Outlet := { x with relay := { x.relay with buffer := l } }

section places
variable {s : State} {o : OutletId}

theorem State.placeFrame_collecting (hc : (s.out o).collecting = true) (g : HeldFrame) :
    s.placeFrame o g = s.setOut o ((s.out o).holding (collectFrame (s.out o).relay.buffer g)) := by
  unfold State.placeFrame State.modOut
  dsimp only
  rw [if_pos hc]
  rfl

theorem State.placeFrame_anchored {pos : Time} (hc : ¬ (s.out o).collecting = true) (hpos : (s.out o).relay.position = some pos)
    (g : HeldFrame) :
    s.placeFrame o g = s.setOut o ((s.out o).holding
      (anchorFrame pos ((s.out o).relay.slot.map Prod.fst) ((s.out o).relay.buffer.filter fun q => decide (pos < q.time + 48)) g)) := by
  unfold State.placeFrame State.modOut
  dsimp only
  rw [if_neg hc]
  split
  · rename_i p hp
    obtain rfl : pos = p := Option.some.inj (hpos.symm.trans hp)
    rfl
  · rename_i hn
    cases hpos.symm.trans hn

end places

/-! ### Resync (R72, R75, R77) -/

/-- The outlet's relay presents from a frame time on, ramping in (R72, R73). -/
def Outlet.presenting (x : Outlet) (t : Time) (clock : Nat) (mult : Ramp) : Outlet :=
  { x with relay :=
      { x.relay with
        state := .relaying, position := some t, missing := 0, conceal := concealRamp clock, slot := none, mult := mult } }

section resync
variable {s : State} {o : OutletId}

theorem State.tryResync_waits
    (h : ¬ (s.out o).collecting = true ∨ (s.out o).relay.buffer.length < 4 ∨ (s.out o).inBreak = true) : s.tryResync o = s := by
  unfold State.tryResync
  dsimp only
  split
  · rfl
  · refine if_neg fun hn => ?_
    simp only [Bool.and_eq_true, Bool.not_eq_true', decide_eq_true_eq] at hn
    obtain ⟨⟨hc, hb⟩, hlen⟩ := hn
    rcases h with h | h | h
    · exact h hc
    · exact absurd hlen (Nat.not_le.2 h)
    · rw [hb] at h
      cases h

theorem State.tryResync_presents {e : HeldFrame} (hc : (s.out o).collecting = true) (hb : (s.out o).inBreak = false)
    (hlen : 4 ≤ (s.out o).relay.buffer.length) (he : (s.out o).relay.buffer.head? = some e) :
    s.tryResync o =
      ((s.out o).passedBreaks (s.followed o) e.time).foldl (fun t p => t.releaseFollow o p ((s.followed o).getD 0))
        (s.setOut o ((s.out o).presenting e.time s.clock
          ((s.out o).resyncMult (s.followed o) ((s.out o).passedBreaks (s.followed o) e.time)))) := by
  unfold State.tryResync
  dsimp only
  rw [he]
  dsimp only
  rw [if_pos (by simp [hc, hb, hlen])]
  rfl

theorem Outlet.mem_passedBreaks {x : Outlet} {old : Option Time} {t : Time} {p : Place} :
    p ∈ x.passedBreaks old t ↔ ∃ q, x.place p = some q ∧ q.state = .armed ∧ ∃ u w, q.start = some u ∧ old = some w ∧ w < u ∧ u ≤ t := by
  simp only [Outlet.passedBreaks, Outlet.mem_placesWhere, Bool.and_eq_true, beq_iff_eq, Option.any_eq_true, decide_eq_true_eq]
  constructor
  · rintro ⟨q, hq, hs, u, hu, ⟨w, hw, hlt⟩, hle⟩
    exact ⟨q, hq, hs, u, w, hu, hw, hlt, hle⟩
  · rintro ⟨q, hq, hs, u, w, hu, hw, hlt, hle⟩
    exact ⟨q, hq, hs, u, hu, ⟨w, hw, hlt⟩, hle⟩

theorem Outlet.resyncMult_unpassed (x : Outlet) (old : Option Time) :
    x.resyncMult old [] = if x.inFallback = true then x.relay.mult else { start := 0, m0 := 16384, m1 := 16384, n := 0 } := by
  simp only [Outlet.resyncMult, List.any_nil, Bool.false_and, Bool.or_false]
  rfl

end resync

/-- From `s` to `t` breaks of the outlet were released: records and spot lists are as they were, of the relay only the multiplier has
changed, and free places are free. -/
structure State.Lets (o : OutletId) (s t : State) : Prop where
  log : t.log = s.log
  spots : (t.out o).spots = (s.out o).spots
  relay : ∃ m, (t.out o).relay = { (s.out o).relay with mult := m }
  vacant : ∀ p, (s.out o).place p = none → (t.out o).place p = none

section lets
variable {o : OutletId} {s t u : State}

theorem State.Lets.refl (o : OutletId) (s : State) : State.Lets o s s := ⟨rfl, rfl, ⟨_, rfl⟩, fun _ h => h⟩

theorem State.Lets.trans (h : State.Lets o s t) (h' : State.Lets o t u) : State.Lets o s u := by
  obtain ⟨m, hm⟩ := h.relay
  obtain ⟨n, hn⟩ := h'.relay
  exact ⟨h'.log.trans h.log, h'.spots.trans h.spots, ⟨n, by rw [hn, hm]⟩, fun p hp => h'.vacant p (h.vacant p hp)⟩

theorem State.Lets.relayTo (s : State) (o : OutletId) (v : Int) : State.Lets o s (s.relayTo o v) := by
  rw [State.relayTo_eq]
  refine ⟨rfl, ?_, ⟨_, by rw [State.setOut_out]; rfl⟩, fun p hp => ?_⟩
  · rw [State.setOut_out]
  · rw [State.setOut_out, ← hp]
    cases p <;> rfl

theorem State.Lets.releaseFollow (s : State) (o : OutletId) (p : Place) (pos : Time) : State.Lets o s (s.releaseFollow o p pos) := by
  have hserves := (State.Serves.refl o s).releaseFit o p
  have hfit : State.Lets o s (s.releaseFit o p) :=
    ⟨hserves.log, (congrArg Outlet.spots hserves.core : _), ⟨_, (congrArg Outlet.relay hserves.core : _)⟩,
      fun _ hq => State.releaseFit_vacant hq o p⟩
  unfold State.releaseFollow
  dsimp only
  split
  · exact hfit.trans (.relayTo _ o _)
  · exact hfit

/-- Breaks released one after the other leave their places free. -/
theorem State.Lets.releases (l : List Place) (s : State) (o : OutletId) (pos : Time) :
    State.Lets o s (l.foldl (fun s p => s.releaseFollow o p pos) s) ∧
      ∀ p ∈ l, ((l.foldl (fun s p => s.releaseFollow o p pos) s).out o).place p = none := by
  induction l generalizing s with
  | nil => exact ⟨.refl o s, nofun⟩
  | cons p l ih =>
    obtain ⟨hlets, hgone⟩ := ih (s.releaseFollow o p pos)
    exact ⟨(State.Lets.releaseFollow s o p pos).trans hlets,
      List.forall_mem_cons.2 ⟨hlets.vacant p (s.releaseFollow_releases o p pos).place, hgone⟩⟩

end lets

/-! ### Frames of the follow feed alone (R70, R148) -/

/-- An outlet's echoes take a frame of the feed it follows, which is not its own, while it sends (R148). -/
theorem State.takeMonitored_followed {s : State} {o : OutletId} {b : AudioBody} (hfollow : s.isFollow o = true)
    (hfeed : (s.ocfg o).followFeed = b.feed) (hown : (s.ocfg o).feed ≠ b.feed) :
    s.takeMonitored o b = if (s.out o).air.sends = true then s.collectEcho o b.frameTime b.samples else s := by
  have hmon : s.monitored o = some b.feed ↔ (s.out o).air.sends = true := by
    unfold State.monitored
    dsimp only
    rw [hfollow, hfeed, if_pos rfl]
    cases (s.out o).air <;> simp [Air.sends, hown]
  unfold State.takeMonitored
  exact if_congr hmon rfl rfl

/-- A frame of a feed that one outlet follows and none carries. -/
theorem State.audioTaken_followed {a : State} {o : OutletId} {b : AudioBody} (h : FrameHead) (hfollow : a.isFollow o = true)
    (hfeed : (a.ocfg o).followFeed = b.feed) (hlit : (a.out o).air ≠ .dark) (hg : a.disc.groupTime.isSome = true)
    (hown : ∀ p, (a.ocfg p).feed ≠ b.feed) (halone : ∀ p, p ≠ o → a.isFollow p = true → (a.ocfg p).followFeed ≠ b.feed) :
    a.audioTaken h b =
      ((a.placeFrame o { time := b.frameTime, sender := h.sender, samples := b.samples }).tryResync o).takeMonitored o b := by
  have hvalid : (a.ocfg o).valid = true := (Bool.and_eq_true _ _ ▸ hfollow : _ ∧ _).1
  have hself : a.takeAudioOn o h b =
      ((a.placeFrame o { time := b.frameTime, sender := h.sender, samples := b.samples }).tryResync o).takeMonitored o b := by
    rw [State.takeAudioOn_eq, hvalid, if_neg (by simpa using hlit), if_neg (hown o), State.takeFollowed,
      if_pos (by simp [hfollow, hfeed])]
  have hcfg : (a.takeAudioOn o h b).cfg = a.cfg :=
    congrArg (fun x => x.2.2.2.1) (State.takeAudioOn_moves_other .refl o h b fun _ => hown o).base
  have hcand : a.takeCandidate b.feed h.sentAt = a := if_pos (by rw [hg, Bool.true_or])
  rw [← hself, State.audioTaken, hcand]
  refine OutletId.foldl_all_alone (f := fun s p => s.takeAudioOn p h b) o
    (fun p hp => State.takeAudioOn_apart h (fun _ => hown p) (halone p hp)) fun p hp => State.takeAudioOn_apart h ?_ ?_
  · rw [State.ocfg, hcfg]
    exact fun _ => hown p
  · rw [State.isFollow, State.ocfg, hcfg]
    exact halone p hp

theorem exec_audioFrame_followed {s : State} {h : FrameHead} {b : AudioBody} {o : OutletId} (hp : s.powered = true) (hh : s.Hears h 314)
    (hf : b.frameTime % 48 = 0) (h1 : 1 ≤ b.feed) (h64 : b.feed ≤ 64) (hfollow : s.isFollow o = true)
    (hfeed : (s.ocfg o).followFeed = b.feed) (hlit : (s.out o).air ≠ .dark) (hg : s.disc.groupTime.isSome = true)
    (href : s.cfg.refFeed ≠ b.feed) (hown : ∀ p, (s.ocfg p).feed ≠ b.feed)
    (halone : ∀ p, p ≠ o → s.isFollow p = true → (s.ocfg p).followFeed ≠ b.feed) (dt phase : Nat) :
    exec (.audioFrame dt h b phase) s =
      .next (((((s.elapse dt).placeFrame o { time := b.frameTime, sender := h.sender, samples := b.samples }).tryResync o).takeMonitored o
        b).finish (s.elapse dt)) := by
  have hg' : (s.elapse dt).disc.groupTime.isSome = true := by
    rw [State.elapse_disc]
    simpa using hg
  rw [exec_audioFrame hp hh hf h1 h64, State.takeReference_other (by rw [State.audioTaken_cfg, State.elapse_cfg]; exact href),
    State.audioTaken_followed h (by simpa using hfollow) (by simpa using hfeed) (by simpa using hlit) hg' (by simpa using hown)
      (by simpa using halone)]

/-! ### Slots judged (R73, R74) -/

section slots
variable {s : State} {o : OutletId} {pos : Time}

theorem State.judgeSlot_unanchored (h : (s.out o).relay.position = none) : s.judgeSlot o = s := by
  unfold State.judgeSlot
  dsimp only
  rw [h]

theorem State.judgeSlot_again (hpos : (s.out o).relay.position = some pos)
    (h : (s.out o).relay.slot.map Prod.fst = some (pos / 48 * 48)) : s.judgeSlot o = s := by
  unfold State.judgeSlot
  dsimp only
  rw [hpos]
  exact if_pos h

variable (hpos : (s.out o).relay.position = some pos) (hslot : (s.out o).relay.slot.map Prod.fst ≠ some (pos / 48 * 48))
include hpos hslot

theorem State.judgeSlot_present {g : HeldFrame} (h : (s.out o).slotFrame (pos / 48 * 48) = some g) :
    s.judgeSlot o = s.setOut o { s.out o with relay := (s.out o).relay.present g s.clock } := by
  unfold State.judgeSlot
  dsimp only
  rw [hpos]
  dsimp only
  rw [if_neg hslot, h]
  rfl

theorem State.judgeSlot_missing (h : (s.out o).slotFrame (pos / 48 * 48) = none) :
    s.judgeSlot o = (s.setOut o { s.out o with relay := (s.out o).relay.miss (pos / 48 * 48) }).loseSource o := by
  unfold State.judgeSlot
  dsimp only
  rw [hpos]
  dsimp only
  rw [if_neg hslot, h]
  rfl

end slots

theorem State.loseSource_keeps {s : State} {o : OutletId} (h : ¬ ((s.out o).relay.state = .relaying ∧ (s.out o).relay.missing = 100)) :
    s.loseSource o = s := if_neg (by simpa using h)

theorem State.loseSource_loses {s : State} {o : OutletId} (hs : (s.out o).relay.state = .relaying) (hm : (s.out o).relay.missing = 100) :
    s.loseSource o =
      (s.setOut o
        { s.out o with
          relay := { (s.out o).relay with state := .lost, buffer := if (s.out o).inBreak then (s.out o).relay.buffer else [] } }).latch
        { FaultInfo.bare .sourceLost with outlet := some o, node := (s.out o).relay.lastSender } := if_pos (by simp [hs, hm])

theorem exec_relaySlotJudge {s : State} (hp : s.powered = true) (dt : Nat) (o : OutletId) :
    exec (.relaySlotJudge dt o) s = .next ((s.elapse dt).judgeSlot o) := State.run_powered hp dt fun s => s.judgeSlot o

end Sys2Proof.Machine
end

section
/-! What a relay does with a frame of its feed, and the obligation on relay frames and slots (R71 to R75, R77). -/

namespace Sys2Proof.Machine

section relay
variable {a : State} {o : OutletId}

/-! ### A frame taken (R71, R72, R75) -/

theorem Outlet.holding_collecting (x : Outlet) (l : List HeldFrame) : (x.holding l).collecting = x.collecting := rfl

theorem State.takeFrame_anchored {pos : Time} (hc : ¬ (a.out o).collecting = true) (hpos : (a.out o).relay.position = some pos)
    (g : HeldFrame) :
    (a.placeFrame o g).tryResync o = a.setOut o ((a.out o).holding
      (anchorFrame pos ((a.out o).relay.slot.map Prod.fst) ((a.out o).relay.buffer.filter fun q => decide (pos < q.time + 48)) g)) := by
  rw [State.placeFrame_anchored hc hpos]
  refine State.tryResync_waits (Or.inl ?_)
  rw [State.setOut_out, Outlet.holding_collecting]
  exact hc

section collecting
variable (hc : (a.out o).collecting = true) (g : HeldFrame)
include hc

theorem State.takeFrame_waits (h : (collectFrame (a.out o).relay.buffer g).length < 4 ∨ (a.out o).inBreak = true) :
    (a.placeFrame o g).tryResync o = a.setOut o ((a.out o).holding (collectFrame (a.out o).relay.buffer g)) := by
  rw [State.placeFrame_collecting hc]
  refine State.tryResync_waits (Or.inr ?_)
  rw [State.setOut_out]
  exact h

variable {e : HeldFrame} (hb : (a.out o).inBreak = false) (hlen : 4 ≤ (collectFrame (a.out o).relay.buffer g).length)
  (he : (collectFrame (a.out o).relay.buffer g).head? = some e)
include hb hlen he

theorem State.takeFrame_presents :
    (a.placeFrame o g).tryResync o =
      ((a.out o).passedBreaks (a.followed o) e.time).foldl (fun t p => t.releaseFollow o p ((a.followed o).getD 0))
        (a.setOut o (((a.out o).holding (collectFrame (a.out o).relay.buffer g)).presenting e.time a.clock
          ((a.out o).resyncMult (a.followed o) ((a.out o).passedBreaks (a.followed o) e.time)))) := by
  rw [State.placeFrame_collecting hc]
  obtain ⟨t, ht⟩ : ∃ t, t = a.setOut o ((a.out o).holding (collectFrame (a.out o).relay.buffer g)) := ⟨_, rfl⟩
  have hout : t.out o = (a.out o).holding (collectFrame (a.out o).relay.buffer g) := by rw [ht, State.setOut_out]
  have hfollowed : t.followed o = a.followed o := by
    rw [State.followed, State.followed, hout, ht]
    rfl
  have hset : ∀ x, t.setOut o x = a.setOut o x := fun x => by rw [ht, State.setOut_setOut]
  rw [← ht, State.tryResync_presents (e := e) (by rw [hout]; exact hc) (by rw [hout]; exact hb) (by rw [hout]; exact hlen)
    (by rw [hout]; exact he), hfollowed, hout, hset, ht]
  rfl

/-- With no ARMED break's start passed over, the resync changes the relay alone. -/
theorem State.takeFrame_resyncs (h : (a.out o).passedBreaks (a.followed o) e.time = []) :
    (a.placeFrame o g).tryResync o =
      a.setOut o (((a.out o).holding (collectFrame (a.out o).relay.buffer g)).presenting e.time a.clock
        (if (a.out o).inFallback = true then (a.out o).relay.mult else { start := 0, m0 := 16384, m1 := 16384, n := 0 })) := by
  rw [State.takeFrame_presents hc g hb hlen he, h, List.foldl_nil, Outlet.resyncMult_unpassed]

/-- An ARMED break whose start the resync passes over is released without records. -/
theorem State.takeFrame_releases {p : Place} (h : p ∈ (a.out o).passedBreaks (a.followed o) e.time) :
    let u := (a.placeFrame o g).tryResync o
    (u.out o).place p = none ∧ u.log = a.log ∧ (u.out o).spots = (a.out o).spots ∧ (u.out o).relay.state = .relaying ∧
      (u.out o).relay.position = some e.time ∧ (u.out o).relay.buffer = collectFrame (a.out o).relay.buffer g := by
  dsimp only
  rw [State.takeFrame_presents hc g hb hlen he]
  obtain ⟨hlets, hgone⟩ := State.Lets.releases ((a.out o).passedBreaks (a.followed o) e.time)
    (a.setOut o (((a.out o).holding (collectFrame (a.out o).relay.buffer g)).presenting e.time a.clock
      ((a.out o).resyncMult (a.followed o) ((a.out o).passedBreaks (a.followed o) e.time)))) o ((a.followed o).getD 0)
  obtain ⟨m, hm⟩ := hlets.relay
  refine ⟨hgone p h, hlets.log, ?_, ?_, ?_, ?_⟩
  · rw [hlets.spots, State.setOut_out]
    rfl
  all_goals
    rw [hm, State.setOut_out]
    rfl

end collecting

/-- The relay judged the slot of a frame time last. -/
theorem Relay.slot_iff {r : Relay} {f : Time} : (∃ y, r.slot = some (f, y)) ↔ r.slot.map Prod.fst = some f := by
  simp only [Option.map_eq_some_iff]
  exact ⟨fun ⟨y, hy⟩ => ⟨(f, y), hy, rfl⟩, fun ⟨⟨_, y⟩, hy, e⟩ => ⟨y, e ▸ hy⟩⟩

/-- The unit with an outlet's relay replaced, its echoes having taken the frame if it sends (R148). -/
def State.relayed (a : State) (o : OutletId) (b : AudioBody) (r : Relay) : State :=
  if (a.out o).air.sends = true then (a.setOut o { a.out o with relay := r }).collectEcho o b.frameTime b.samples
  else a.setOut o { a.out o with relay := r }

theorem State.takeMonitored_relayed {b : AudioBody} (hfollow : a.isFollow o = true) (hfeed : (a.ocfg o).followFeed = b.feed)
    (hown : (a.ocfg o).feed ≠ b.feed) (r : Relay) :
    (a.setOut o { a.out o with relay := r }).takeMonitored o b = a.relayed o b r := by
  have h := State.takeMonitored_followed (s := a.setOut o { a.out o with relay := r }) hfollow hfeed hown
  rw [State.setOut_out] at h
  exact h

theorem State.takeMonitored_out (u : State) (o : OutletId) (b : AudioBody) :
    ((u.takeMonitored o b).out o).spots = (u.out o).spots ∧ ((u.takeMonitored o b).out o).relay = (u.out o).relay ∧
      (∀ p, ((u.takeMonitored o b).out o).place p = (u.out o).place p) ∧ (u.takeMonitored o b).log = u.log := by
  obtain ⟨k, e, h⟩ := u.takeMonitored_eq o b
  rw [h, State.setOut_out]
  exact ⟨rfl, rfl, fun p => by cases p <;> rfl, rfl⟩

end relay

end Sys2Proof.Machine

open Sys2Proof Sys2Proof.Machine

/-- Settles O58: where the frame is placed, what a resync makes of the relay, and what the slot it stands in is judged as. -/
theorem relayFramesArePlacedAndJudged : Obligations.RelayFramesArePlacedAndJudged := by
  intro s dt o hp a x r collecting
  have hcollecting : x.collecting = true ↔ collecting := Outlet.collecting_iff
  refine ⟨fun h b phase hh hf h1 h64 hfollow hfeed hlit hg href hown halone => ?_, ?_⟩
  · -- a frame of the follow feed
    intro f g result taken dup inserted
    have hresult : result = .next ((((a.placeFrame o g).tryResync o).takeMonitored o b).finish a) :=
      exec_audioFrame_followed hp hh hf h1 h64 hfollow hfeed (by simpa [x, a] using hlit) hg href hown
        halone dt phase
    have htaken : ∀ v, (a.placeFrame o g).tryResync o = a.setOut o { x with relay := v } → result = .next (taken v) := fun v hv => by
      rw [hresult, hv, State.takeMonitored_relayed ((State.elapse_isFollow s dt o).trans hfollow)
        (by rw [State.elapse_ocfg]; exact hfeed) (by rw [State.elapse_ocfg]; exact hown o)]
      rfl
    refine ⟨fun pos hn hpos => ?_, fun hc hsorted => ?_⟩
    · -- the relay is anchored
      intro held discarded
      have hplaced := State.takeFrame_anchored (a := a) (mt hcollecting.1 hn) hpos g
      have hdiscarded : discarded ↔ g.Discarded pos (r.slot.map Prod.fst) held :=
        or_congr Iff.rfl (or_congr Relay.slot_iff Iff.rfl)
      refine ⟨fun hd => htaken _ ?_, fun hd => ⟨insertFrame g held, insertFrame_joins fun hdup => hd ?_, htaken _ ?_⟩⟩
      · rw [hplaced, anchorFrame_discards (hdiscarded.1 hd)]
        rfl
      · exact Or.inr (Or.inr (Or.inl hdup))
      · rw [hplaced, anchorFrame_holds (mt hdiscarded.2 hd)]
        rfl
    · -- the relay is collecting
      have hc' : (a.out o).collecting = true := hcollecting.2 hc
      refine ⟨collectFrame r.buffer g, collectFrame_duplicate (g := g), collectFrame_latest (g := g), fun first last hfirst hlast =>
        collectFrame_earliest (g := g) hsorted hfirst hlast, fun hdup hless hmore => ?_, fun hwait => ?_, fun e hlen hb he => ?_⟩
      · rw [collectFrame_between hsorted hdup hless hmore]
        exact insertFrame_joins hdup
      · exact htaken _ (State.takeFrame_waits hc' g hwait)
      · intro passed
        have hpassed : ∀ p, p ∈ x.passedBreaks (a.followed o) e.time ↔ ∃ q, x.place p = some q ∧ passed q := fun p =>
          Outlet.mem_passedBreaks
        refine ⟨fun hnone => htaken _ (State.takeFrame_resyncs hc' g hb hlen he (List.eq_nil_iff_forall_not_mem.2 fun p hmem => ?_)),
          fun p q hq hpq => ⟨_, hresult, ?_⟩⟩
        · obtain ⟨q, hq, hpq⟩ := (hpassed p).1 hmem
          exact hnone p q hq hpq
        · obtain ⟨hplace, hlog, hspots, hstate, hposition, hbuffer⟩ :=
            State.takeFrame_releases hc' g hb hlen he ((hpassed p).2 ⟨q, hq, hpq⟩)
          obtain ⟨hs, hr, hpl, hl⟩ := ((a.placeFrame o g).tryResync o).takeMonitored_out o b
          rw [hs, hr, hpl, hl]
          exact ⟨hplace, hlog.trans (State.elapse_log s dt), hspots, hstate, hposition, hbuffer⟩
  · -- the slot the relay stands in
    intro result
    have hresult : result = .next (a.judgeSlot o) := exec_relaySlotJudge hp dt o
    refine ⟨fun hnone => by rw [hresult, State.judgeSlot_unanchored hnone], fun pos hpos => ?_⟩
    intro f
    refine ⟨fun hy => by rw [hresult, State.judgeSlot_again hpos (Relay.slot_iff.1 hy)], fun hn => ?_⟩
    have hnew : r.slot.map Prod.fst ≠ some f := fun e => (Relay.slot_iff.2 e).elim hn
    refine ⟨fun g hc hg => ?_, fun hmiss => ?_⟩
    · have hframe : x.slotFrame f = some g := (if_neg (mt hcollecting.1 hc)).trans hg
      have ht : g.time = f := by simpa using List.find?_some hg
      rw [hresult, State.judgeSlot_present hpos hnew hframe, Relay.present, ht]
      rfl
    · have hframe : x.slotFrame f = none := by
        unfold Outlet.slotFrame
        split
        · rfl
        · rename_i hc
          exact List.find?_eq_none.2 fun g hg => by simpa using hmiss.resolve_left (mt hcollecting.2 hc) g hg
      have hmissing := State.judgeSlot_missing hpos hnew hframe
      refine ⟨fun hk => ?_, fun hs hm => ?_⟩
      · rw [hresult, hmissing, State.loseSource_keeps]
        · rfl
        · rw [State.setOut_out]
          rintro ⟨hs, hm⟩
          have hm' : min 100 (r.missing + 1) = 100 := hm
          rcases hk with hk | hk
          · exact hk hs
          · omega
      · have h100 : min 100 (r.missing + 1) = 100 := by omega
        rw [hresult, hmissing, State.loseSource_loses (by rw [State.setOut_out]; exact hs) (by rw [State.setOut_out]; exact h100),
          State.setOut_out, State.setOut_setOut, Relay.miss, h100]
        rfl
end

section
/-! The end of FALLBACK: what the end of its period leaves, and RESUME (R129, R157, R159 to R162, R77). -/

namespace Sys2Proof.Machine

/-! ### Voices offered send nothing (R89 to R91) -/

theorem State.grant_sent (s : State) (i : Nat) (r : VoiceRequest) : (s.grant i r).sent = s.sent := by
  unfold State.grant
  split
  · split
    · rfl
    · split
      · split
        · rename_i v _
          obtain ⟨k, hk⟩ := s.startSample_beside v.inCue _
          dsimp only
          rw [hk]
          rfl
        · rfl
      · rfl
  · unfold State.grantSlot
    dsimp only
    split
    · rfl
    · split
      · split
        · rfl
        · split <;> rfl
      · split <;> rfl
  · unfold State.grantFallback
    dsimp only
    split <;> rfl
  · rfl

theorem State.offer_sent (n : Nat) (s : State) : (State.offer n s).sent = s.sent := by
  induction n generalizing s with
  | zero => rfl
  | succ n ih =>
    unfold State.offer
    dsimp only
    obtain ⟨k, hk⟩ := s.pick_beside ((List.range s.voices.length).filter fun i => (s.claimant i).isSome).length
    rw [hk]
    split
    · rfl
    · split
      · rfl
      · exact (ih _).trans (State.grant_sent _ _ _)

theorem State.giveUp_sent (s : State) (o : OutletId) (k : Holder) : (s.giveUp o k).sent = s.sent := by
  unfold State.giveUp
  dsimp only
  split
  · rename_i i _
    rw [State.freeVoices, State.offerAll, State.offer_sent]
    exact ((State.Engine.refl _).foldl State.dropVoice [i] State.dropVoice_engine).sent
  · rfl

/-- A holder with no voice gives up its request alone. -/
theorem State.giveUp_voiceless {s : State} {o : OutletId} {k : Holder} (h : s.voiceOf o k = none) :
    s.giveUp o k = { s with voiceQueue := s.voiceQueue.filter fun r => !(r.outlet == o && r.holder == k) } := by
  have h' : State.voiceOf { s with voiceQueue := s.voiceQueue.filter fun r => !(r.outlet == o && r.holder == k) } o k = none := h
  unfold State.giveUp
  dsimp only
  rw [h']

/-! ### The end of a fallback period (R160, R162) -/

/-- A sounding voice told to ramp out falls to silence in time (R40). -/
theorem VoiceUse.rampOut_silent {w : VoiceUse} (h : w.sounding = true) (clock n : Nat) :
    (w.rampOut clock n).state = .ramping ∧ (w.rampOut clock n).mult.stop ≤ clock + n := by
  unfold VoiceUse.rampOut
  split
  · rename_i hr
    simp only [Bool.and_eq_true, beq_iff_eq, decide_eq_true_eq] at hr
    exact hr
  · exact ⟨rfl, le_refl _⟩

section period
variable {s : State} {o : OutletId} {p : FallbackPeriod} (hp : (s.out o).openPeriod = some p) (how : FallbackEnd) (n : Nat)
include hp

theorem State.endPeriod_sounding {i : Nat} {w : VoiceUse} (hi : s.voiceOf o (.fallback p.id) = some i) (hw : s.voice i = some w)
    (hs : w.sounding = true) :
    s.endPeriod o how n =
      (s.modOut o fun x => x.modPeriod p.id fun q => { q with ended := some how }).modVoice i fun u => u.rampOut s.clock n := by
  unfold State.endPeriod
  rw [hp]
  dsimp only
  have hfind : ((s.modOut o fun x => x.modPeriod p.id fun q => { q with ended := some how }).voiceOf o (.fallback p.id)).filter
      (fun i => ((s.modOut o fun x => x.modPeriod p.id fun q => { q with ended := some how }).voice i).any VoiceUse.sounding) = some i :=
    Option.filter_eq_some_iff.2 ⟨hi, Option.any_eq_true _ _ |>.2 ⟨w, hw, hs⟩⟩
  rw [hfind]
  rfl

theorem State.endPeriod_silent
    (h : ∀ i w, s.voiceOf o (.fallback p.id) = some i → s.voice i = some w → w.sounding = false) :
    s.endPeriod o how n =
      ((s.modOut o fun x => x.modPeriod p.id fun q => { q with ended := some how }).recordPeriod o { p with ended := some how } .none).giveUp o
        (.fallback p.id) := by
  unfold State.endPeriod
  rw [hp]
  dsimp only
  split
  · rename_i i hi
    obtain ⟨hv, ha⟩ := Option.filter_eq_some_iff.1 hi
    obtain ⟨w, hw, hs⟩ := (Option.any_eq_true _ _).1 ha
    exact absurd hs (by rw [h i w hv hw]; decide)
  · rfl

end period

/-- What the end of an outlet's fallback period leaves: a sounding voice falls to silence over `n` samples, and without a voice the period
is over. -/
structure State.EndsPeriod (o : OutletId) (n : Nat) (s t : State) : Prop where
  sent : t.sent = s.sent
  cfg : t.cfg = s.cfg
  clock : t.clock = s.clock
  core : (t.out o).core = (s.out o).core
  ramps : ∀ p, (s.out o).openPeriod = some p → ∀ i w, s.voiceOf o (.fallback p.id) = some i → s.voice i = some w → w.sounding = true →
    ∃ w', t.voice i = some w' ∧ w'.state = .ramping ∧ w'.mult.stop ≤ s.clock + n
  ended : ∀ p, (s.out o).openPeriod = some p → s.voiceOf o (.fallback p.id) = none → ∀ q ∈ (t.out o).periods, q.id ≠ p.id

theorem State.endPeriod_ends (s : State) (o : OutletId) (how : FallbackEnd) (n : Nat) : State.EndsPeriod o n s (s.endPeriod o how n) := by
  cases hp : (s.out o).openPeriod with
  | none =>
    have he : s.endPeriod o how n = s := by
      unfold State.endPeriod
      rw [hp]
    rw [he]
    have hno : ∀ p, (s.out o).openPeriod ≠ some p := fun p => by simp [hp]
    exact ⟨rfl, rfl, rfl, rfl, fun p h => absurd h (hno p), fun p h => absurd h (hno p)⟩
  | some p =>
    have hone : ∀ q, (s.out o).openPeriod = some q → q = p := fun q h => Option.some.inj (h.symm.trans hp)
    by_cases hs : ∃ i w, s.voiceOf o (.fallback p.id) = some i ∧ s.voice i = some w ∧ w.sounding = true
    · obtain ⟨i, w, hi, hw, hs⟩ := hs
      rw [State.endPeriod_sounding hp how n hi hw hs]
      refine ⟨rfl, rfl, rfl, ?_, fun q hq j z hj hz hsz => ?_, fun q hq hnone => ?_⟩
      · exact (congrArg Outlet.core (State.modOut_out s o fun x => x.modPeriod p.id fun q => { q with ended := some how }) : _)
      · obtain rfl := hone q hq
        obtain rfl : i = j := Option.some.inj (hi.symm.trans hj)
        refine ⟨z.rampOut s.clock n, ?_, VoiceUse.rampOut_silent hsz s.clock n⟩
        rw [State.voice_modVoice, if_pos rfl, show State.voice (s.modOut o _) i = some z from hz]
        rfl
      · obtain rfl := hone q hq
        rw [hi] at hnone
        cases hnone
    · have hsilent : ∀ i w, s.voiceOf o (.fallback p.id) = some i → s.voice i = some w → w.sounding = false := fun i w hi hw =>
        Bool.eq_false_iff.2 fun h => hs ⟨i, w, hi, hw, h⟩
      rw [State.endPeriod_silent hp how n hsilent]
      obtain ⟨l, tl, hr, -⟩ := (s.modOut o fun x => x.modPeriod p.id fun q => { q with ended := some how }).recordPeriod_eq o
        { p with ended := some how } .none
      rw [hr, State.modOut_out]
      generalize hv : State.setOut _ o _ = v
      have hserves := (State.Serves.refl o v).giveUp o (.fallback p.id)
      have hcore : (v.out o).core = (s.out o).core := by
        rw [← hv, State.setOut_out]
        rfl
      have hended : ∀ q ∈ (v.out o).periods, q.id ≠ p.id := by
        rw [← hv, State.setOut_out]
        exact fun q hq => by simpa using (List.mem_filter.1 hq).2
      have hvoices : v.voices = s.voices := by rw [← hv]; rfl
      refine ⟨?_, ?_, ?_, hserves.core.trans hcore, fun q hq i w hi hw hsw => ?_, fun q hq hnone => ?_⟩
      · rw [State.giveUp_sent, ← hv]
        rfl
      · rw [hserves.cfg, ← hv]
        rfl
      · rw [hserves.clock, ← hv]
        rfl
      · obtain rfl := hone q hq
        exact absurd hsw (by rw [hsilent i w hi hw]; decide)
      · obtain rfl := hone q hq
        have hnone' : v.voiceOf o (.fallback q.id) = none := by
          rw [State.voiceOf, hvoices]
          exact hnone
        rw [State.giveUp_voiceless hnone']
        exact hended

/-! ### FALLBACK ends (R129, R157, R160) -/

/-- The outlet is ON_AIR from FALLBACK: nobody is passed over (R129), and its meter is started afresh (R157). -/
def Outlet.backOnAir (x : Outlet) : Outlet := { x with air := .onAir, yielding := none, passed := [], programme := .started }

theorem State.leaveFallback_back {s : State} {o : OutletId} (h : (s.out o).air = .fallback) (how : FallbackEnd) (n : Nat) :
    s.leaveFallback o how n = (s.endPeriod o how n).setOut o ((s.endPeriod o how n).out o).backOnAir := by
  have hair : ((s.endPeriod o how n).out o).air = .fallback := (congrArg Outlet.air (s.endPeriod_ends o how n).core : _).trans h
  unfold State.leaveFallback
  dsimp only
  rw [hair, if_neg (by decide), State.restartMeter, State.modOut, State.modOut, State.setOut_out, State.setOut_setOut]
  rfl

/-- RESUME of an outlet in FALLBACK (R160): the period ends, the outlet is ON_AIR, and its relay ramps in or its order goes on. -/
theorem State.resumeAir_back {s : State} {o : OutletId} (h : (s.out o).air = .fallback) :
    ∃ r k, s.resumeAir o =
        (s.endPeriod o .natural 480).setOut o { ((s.endPeriod o .natural 480).out o).backOnAir with relay := r, inherit := k } ∧
      (s.isFollow o = true → r.mult = { start := s.clock, m0 := 0, m1 := 16384, n := 480 }) := by
  have hends := s.endPeriod_ends o .natural 480
  unfold State.resumeAir
  rw [State.leaveFallback_back h]
  generalize s.endPeriod o .natural 480 = t at hends
  have hfollow : (t.setOut o (t.out o).backOnAir).isFollow o = s.isFollow o := by
    rw [State.isFollow, State.isFollow, State.ocfg, State.ocfg, State.setOut_cfg, hends.cfg]
  dsimp only
  rw [hfollow]
  split
  · refine ⟨{ (t.out o).relay with mult := { start := s.clock, m0 := 0, m1 := 16384, n := 480 } }, (t.out o).inherit, ?_,
      fun _ => rfl⟩
    rw [State.rampRelay, State.modOut, State.setOut_out, State.setOut_setOut, State.setOut_clock, hends.clock]
    rfl
  · rename_i hn
    refine ⟨(t.out o).relay, if (t.out o).lead.isSome then some .whenPrimed else none, ?_, fun hf => absurd hf hn⟩
    rw [State.modOut, State.setOut_out, State.setOut_setOut]
    rfl

theorem exec_resume {s : State} {req : RequestHead} {o : OutletId} (h : s.TakesFeed req 0 o) (dt : Nat) :
    exec (.resume dt req) s = .next ((s.elapse dt).judgeResume req o) :=
  h.run dt 11 (fun _ _ => false) fun _ o s => s.judgeResume req o

end Sys2Proof.Machine

open Sys2Proof Sys2Proof.Machine

/-- Settles O43: the outlet judges the request; in FALLBACK its period ends and it is ON_AIR again. -/
theorem resumeEndsFallback : Obligations.ResumeEndsFallback := by
  intro s dt req o htakes a
  have hair : (a.out o).air = (s.out o).air := State.elapse_out_air s dt o
  have hexec : exec (.resume dt req) s = .next (a.judgeResume req o) := exec_resume htakes dt
  have hanswer : ∀ r, a.answer req 11 (some o) r .none = a.answers req 11 (some o) r .none := htakes.answer dt 11
  refine ⟨fun hn => ?_, fun hf => ?_⟩
  · rw [hexec, State.judgeResume, if_neg (by simpa [hair] using hn), hanswer]
  · generalize hv : a.answers req 11 (some o) .ok .none = v at hanswer ⊢
    have hvair : (v.out o).air = .fallback := by
      rw [← hv]
      exact hair.trans hf
    obtain ⟨r, k, hresume, hmult⟩ := State.resumeAir_back hvair
    have hends := v.endPeriod_ends o .natural 480
    refine ⟨v.resumeAir o, by rw [hexec, State.judgeResume, if_pos (by simp [hair, hf]), hanswer, hv], ?_⟩
    have hclock : v.clock = a.clock := by rw [← hv]; rfl
    have hfollow : v.isFollow o = s.isFollow o := by
      rw [← hv]
      exact State.elapse_isFollow s dt o
    rw [hresume, State.setOut_out, ← hclock, ← hfollow]
    generalize v.endPeriod o .natural 480 = t at hends
    refine ⟨hends.sent, rfl, rfl, rfl, rfl, hmult, fun p hp => ?_⟩
    have hperiod : (v.out o).openPeriod = some p := by
      rw [← hv, ← hp]
      exact congrArg (List.find? fun p => p.ended.isNone) (State.elapse_out_periods s dt o)
    have hvoiceOf : v.voiceOf o (.fallback p.id) = a.voiceOf o (.fallback p.id) := by rw [← hv]; rfl
    have hvoice : ∀ i, v.voice i = a.voice i := fun i => by rw [← hv]; rfl
    exact ⟨fun i w hi hw => hends.ramps p hperiod i w (hvoiceOf.trans hi) ((hvoice i).trans hw),
      fun hnone => hends.ended p hperiod (hvoiceOf.trans hnone)⟩
end

section
/-! The configuration, which only a start changes, and what a start leaves: the queue, power, the link address and the sample clock. -/

namespace Sys2Proof.Machine

/-! ### What a RESTART leaves too (R194) -/

/-- Of what every move leaves, the part that no RESTART changes either: the queue, power, the link address and the sample clock. -/
def State.abiding (s : State) : List Instr × Bool × Nat × Nat := (s.pending, s.powered, s.linkAddress, s.clock)

theorem State.abiding_of_base {s t : State} (h : t.base = s.base) : t.abiding = s.abiding :=
  congrArg (fun b : List Instr × Bool × List Byte × UnitCfg × Nat × BootReason × Nat => (b.1, b.2.1, b.2.2.2.2.1, b.2.2.2.2.2.2)) h

/-- A start leaves them (R193, R194). -/
theorem State.start_abiding (s : State) (config : List Byte) : (s.start config).abiding = s.abiding := by
  obtain ⟨l, e, -⟩ := s.start_eq config
  rw [e]
  rfl

/-- RESTART leaves them: its moves leave all that moves leave, and the start after them begins no clock anew (R194). -/
theorem State.restart_abiding (s : State) (config : List Byte) : (s.restart config).abiding = s.abiding := by
  obtain ⟨m, d, hm, -, e, -⟩ := s.restart_eq config
  rw [e, State.start_abiding]
  exact (State.abiding_of_base hm.base : m.abiding = s.abiding)

theorem exec_restart_abiding {s t : State} {dt : Nat} {req : RequestHead} {config : List Byte} (hp : s.powered = true)
    (h : exec (.restart dt req config) s = .next t) : t.abiding = (s.elapse dt).abiding := by
  rw [exec, execRestart, State.run_powered hp] at h
  cases h
  rcases (s.elapse dt).unitRequest_cases req 15 0 false
    (fun s => ((s.answer req 15 none .ok .none).restart config).finish s) with e | hm
  · rw [e]
    have hanswer : State.Moves true (s.elapse dt) ((s.elapse dt).answer req 15 none .ok .none) :=
      State.answer_moves .refl _ _ _ _ _
    obtain ⟨u, l, hu, e'⟩ := State.finish_eq (((s.elapse dt).answer req 15 none .ok .none).restart config) (s.elapse dt)
    calc (State.finish _ _).abiding
        = u.abiding := by rw [e']; rfl
      _ = (((s.elapse dt).answer req 15 none .ok .none).restart config).abiding := State.abiding_of_base hu.base
      _ = ((s.elapse dt).answer req 15 none .ok .none).abiding := State.restart_abiding _ _
      _ = (s.elapse dt).abiding := State.abiding_of_base hanswer.base
  · exact State.abiding_of_base hm.base

/-! ### The commands that start nothing -/

theorem State.Adds.base {a t : State} {c : Instr} (h : State.Adds a c t) : t.base = a.base := by
  cases h with
  | plain h => exact h.base
  | version _ _ _ _ _ h => exact h.base
  | payload _ _ _ h => exact h.base
  | entry _ _ _ _ _ _ _ h => exact h.base
  | spots _ _ h => exact h.base
  | clear _ _ _ _ h _ => exact h.base

theorem State.Adds.reserved {a t : State} {c : Instr} (h : State.Adds a c t) :
    t.voices.map Voice.reserved = a.voices.map Voice.reserved := by
  cases h with
  | plain h => exact h.reserved
  | version _ _ _ _ _ h => exact h.reserved
  | payload _ _ _ h => exact h.reserved
  | entry _ _ _ _ _ _ _ h => exact h.reserved
  | spots _ _ h => exact h.reserved
  | clear _ _ _ _ h _ => exact h.reserved

/-- Passing samples set no voice aside (R87). -/
theorem State.elapse_reserved (s : State) (n : Nat) : (s.elapse n).voices.map Voice.reserved = s.voices.map Voice.reserved := by
  obtain ⟨d, v, q, e, -, -, hv, -⟩ := s.elapse_eq n
  rw [e]
  exact reserved_of_shape hv

/-- Of all that moves leave, a command that starts nothing changes the sample clock alone, and that by its samples (R87, R192). -/
theorem exec_base {c : Instr} {s t : State} (hp : s.powered = true) (h1 : ∀ dt link config, c ≠ .powerOn dt link config)
    (h2 : ∀ dt req config, c ≠ .restart dt req config) (h : exec c s = .next t) :
    t.base = (s.elapse (dtOf c)).base ∧ t.voices.map Voice.reserved = s.voices.map Voice.reserved := by
  rw [← s.elapse_reserved (dtOf c)]
  cases hc : adds c with
  | false => exact ⟨(exec_moves hp hc h).base, (exec_moves hp hc h).reserved⟩
  | true => exact ⟨(exec_adds hp hc h1 h2 h).base, (exec_adds hp hc h1 h2 h).reserved⟩

end Sys2Proof.Machine

open Sys2Proof Sys2Proof.Machine

/-- Settles O12: every command but the starts is moves, or moves after an addition, and a RESTART is moves and a start. -/
theorem configurationChangesOnlyAtAStart : Obligations.ConfigurationChangesOnlyAtAStart := by
  intro c s t h
  by_cases hon : ∃ dt link config, c = .powerOn dt link config
  · obtain ⟨dt, link, config, rfl⟩ := hon
    cases h
    exact ⟨congrArg Prod.fst (State.start_abiding _ config), fun hne => absurd rfl (hne dt link config)⟩
  have h1 : ∀ dt link config, c ≠ .powerOn dt link config := fun dt link config e => hon ⟨dt, link, config, e⟩
  cases hp : s.powered with
  | false =>
    rw [exec_unpowered hp h1] at h
    cases h
    exact ⟨rfl, fun _ => ⟨rfl, hp, rfl, fun _ => ⟨rfl, rfl, rfl, rfl⟩⟩⟩
  | true =>
    have habide : t.abiding = (s.elapse (dtOf c)).abiding := by
      by_cases hre : ∃ dt req config, c = .restart dt req config
      · obtain ⟨dt, req, config, rfl⟩ := hre
        exact exec_restart_abiding hp h
      · exact State.abiding_of_base (exec_base hp h1 (fun dt req config e => hre ⟨dt, req, config, e⟩) h).1
    simp only [State.abiding, State.elapse_pending, State.elapse_powered, State.elapse_linkAddress, State.elapse_clock,
      Prod.mk.injEq] at habide
    obtain ⟨hpending, hpowered, hlink, hclock⟩ := habide
    refine ⟨hpending, fun _ => ⟨hlink, hpowered.trans hp, hclock, fun h2 => ?_⟩⟩
    obtain ⟨hbase, hreserved⟩ := exec_base hp h1 h2 h
    simp only [State.base, State.elapse_cfg, State.elapse_configMemory, State.elapse_boot, Prod.mk.injEq] at hbase
    obtain ⟨-, -, hmemory, hcfg, -, hboot, -⟩ := hbase
    exact ⟨hcfg, hmemory, hboot, hreserved⟩
end

section
/-! The unit as POWER_ON starts it (R193). -/

namespace Sys2Proof.Machine

/-- The unit at POWER_ON before its first beacon: every block in its power-on state, but for what the record settles. -/
def State.poweredUp (s : State) (link : Nat) (config : List Byte) : State :=
  let cfg := settleConfig config
  { State.reset with
    pending := s.pending, sent := s.sent, freeCount := s.freeCount, powered := true, linkAddress := link
    disc := { State.reset.disc with state := if cfg.refFeed = 0 then .free else .acquiring }
    configMemory := config, cfg := cfg, isolated := configIsolates config, voices := poolFor cfg, listenSince := some 0
    outlets := cfg.outlets.mapId fun _ c => startOutlet c (configIsolates config) }

theorem State.powerUp_eq (s : State) (link : Nat) (config : List Byte) :
    s.powerUp link config = (s.poweredUp link config).sendBeacon := rfl

theorem State.poweredUp_out (s : State) (link : Nat) (config : List Byte) (o : OutletId) :
    (s.poweredUp link config).out o = startOutlet ((settleConfig config).outlets.get o) (configIsolates config) :=
  Quad.get_mapId _ _ o

/-- An outlet at a start is one after reset, but for its air state and its source meter (R125, R157). -/
theorem startOutlet_eq (c : OutletCfg) (i : Bool) :
    startOutlet c i =
      { Outlet.reset with
        air := if c.valid = true ∧ i = false then .listening else .dark
        source := if c.valid = true ∧ i = false ∧ c.mode = some .follow then .started else .reset } := by
  unfold startOutlet
  cases c.valid <;> cases i <;> simp [Outlet.reset]

/-- The first beacon sent shows the unit as it is after it (R180, R185). -/
theorem State.powerUp_beacon (s : State) (link : Nat) (config : List Byte) :
    (s.powerUp link config).beacon = (s.poweredUp link config).beacon := by
  have hsilent : ∀ o, ((s.poweredUp link config).out o).air.sends = false := fun o => by
    rw [State.poweredUp_out, startOutlet_air]
    split <;> rfl
  exact State.beacon_sendBeacon hsilent (s.poweredUp link config).sendBeacon.store (s.poweredUp link config).sendBeacon.transfer
    (s.poweredUp link config).sendBeacon.log

/-- Each outlet is in its power-on state, with its first beacon behind it (R46). -/
theorem State.powerUp_out (s : State) (link : Nat) (config : List Byte) (o : OutletId) :
    (s.powerUp link config).out o =
      { startOutlet ((settleConfig config).outlets.get o) (configIsolates config) with cuePhase := 1 } := by
  have hphase : ∀ c i, (startOutlet c i).cuePhase = 0 := fun c i => by
    unfold startOutlet
    split <;> rfl
  rw [State.powerUp_eq, State.sendBeacon_eq_append]
  refine (Quad.get_mapId (s.poweredUp link config).outlets (fun _ x => { x with cuePhase := x.cuePhase + 1 }) o).trans ?_
  rw [show (s.poweredUp link config).outlets.get o = _ from s.poweredUp_out link config o, hphase]

theorem poolFor_voice (cfg : UnitCfg) (i : Nat) : ((poolFor cfg)[i]?).bind Voice.use = none := by
  cases e : (poolFor cfg)[i]? with
  | none => rfl
  | some v => exact poolFor_free cfg v (List.mem_of_getElem? e)

end Sys2Proof.Machine

open Sys2Proof Sys2Proof.Machine

/-- Settles O28, the outlets by what a start makes of each, the pool by its two voices an outlet, the beacon by what it shows. -/
theorem powerOnStartsTheUnit : Obligations.PowerOnStartsTheUnit := by
  intro s dt link config
  have hout := s.powerUp_out link config
  have hbeacon := s.powerUp_beacon link config
  refine ⟨s.powerUp link config, rfl, ?_⟩
  rw [State.powerUp_eq, State.sendBeacon_eq_append] at hout hbeacon ⊢
  refine ⟨rfl, rfl, rfl, rfl, rfl, rfl, rfl, rfl, rfl, rfl, rfl, rfl, rfl, rfl, rfl, rfl, rfl, rfl, rfl, poolFor_length _,
    poolFor_voice _, poolFor_reserved _, fun o => ?_, rfl, ?_⟩
  · rw [hout o, startOutlet_eq, State.reset_out]
    rfl
  · rw [hbeacon]
    rfl
end

section
/-! A block judged, a block that leaves the ring, and a pass of a looping voice that ends (R94, R95, R100 to R104). -/

namespace Sys2Proof.Machine

/-! ### One voice replaced, and replaced again -/

theorem State.modVoice_eq {s : State} {i : Nat} {w : VoiceUse} (h : s.voice i = some w) (f : VoiceUse → VoiceUse) :
    s.modVoice i f = s.setVoice i (some (f w)) := by
  obtain ⟨v, hv, hw⟩ := State.voice_some h
  unfold State.modVoice State.setVoice
  rw [List.modify_eq_set_getElem?, List.modify_eq_set_getElem?, hv, Option.map_eq_map, Option.map_some, Option.map_eq_map,
    Option.map_some, hw, Option.map_some]

theorem State.modVoice_setVoice (s : State) (i : Nat) (u : VoiceUse) (f : VoiceUse → VoiceUse) :
    (s.setVoice i (some u)).modVoice i f = s.setVoice i (some (f u)) := by
  unfold State.modVoice State.setVoice
  rw [List.modify_modify_eq]
  rfl

/-- A voice's change, a latch and a change of the store come to the same in any order. -/
theorem State.modVoice_latch_store (s : State) (i : Nat) (g : VoiceUse → VoiceUse) (f : FaultInfo) (st : Store) :
    ({ (s.modVoice i g).latch f with store := st } : State) = ({ s.latch f with store := st } : State).modVoice i g := rfl

/-! ### Judging (R100 to R102) -/

theorem exec_judgePoint {s : State} (hp : s.powered = true) (dt : Nat) {i : Fin 12} {w : VoiceUse} (h : (s.elapse dt).voice i = some w) :
    exec (.judgePoint dt i) s =
      .next (if w.judgeDue (s.elapse dt).clock then ((s.elapse dt).judge i).pump else s.elapse dt) := by
  rw [exec, execJudgePoint, State.run_powered hp, h]
  rfl

section judging
variable {s : State} {i : Nat} {w : VoiceUse} (h : s.voice i = some w)
include h

theorem State.judge_of_good {b : RingBlock} (hb : w.ring.find? (fun b => b.ord == w.judged) = some b) (hf : b.flagged = false) :
    s.judge i = s.setVoice i (some (w.judgeGood s.clock)) := by
  unfold State.judge
  rw [h]
  dsimp only
  rw [hb]
  dsimp only
  rw [if_neg (by simp [hf])]

theorem State.judge_of_flagged {b : RingBlock} (hb : w.ring.find? (fun b => b.ord == w.judged) = some b) (hf : b.flagged = true) :
    s.judge i = s.setVoice i (some (w.conceal s.clock false)) := by
  unfold State.judge
  rw [h]
  dsimp only
  rw [hb]
  dsimp only
  rw [if_pos hf]

/-- A block the ring does not hold is concealed for underrun, and the first of a run latches UNDERRUN. -/
theorem State.judge_of_missing (hb : ∀ b ∈ w.ring, b.ord ≠ w.judged) :
    s.judge i =
      if w.underrun then s.setVoice i (some (w.conceal s.clock true))
      else (s.setVoice i (some (w.conceal s.clock true))).latch
        { FaultInfo.bare .underrun with
          outlet := some w.outlet, cart := some (w.cart, w.serial), entryTag := w.entryTag, delivered := some w.delivered } := by
  have hnone : w.ring.find? (fun b => b.ord == w.judged) = none := List.find?_eq_none.2 fun b hm => by simpa using hb b hm
  unfold State.judge
  rw [h]
  dsimp only
  rw [hnone]

end judging

/-! ### Blocks that leave the ring (R94, R104) -/

theorem exec_blockLeavesRing {s : State} (hp : s.powered = true) (dt : Nat) {i : Fin 12} {w : VoiceUse}
    (h : (s.elapse dt).voice i = some w) :
    exec (.blockLeavesRing dt i) s =
      .next (if w.sounding && w.blockDone then ((s.elapse dt).setVoice i (some w.leaveBlock)).pump else s.elapse dt) := by
  rw [exec, execBlockLeavesRing, State.run_powered hp, ← State.modVoice_eq h, h]
  rfl

/-- A voice whose played block has left the ring, with the stream check it then has. -/
def VoiceUse.past (w : VoiceUse) (c : StreamCtx) : VoiceUse :=
  { w with leftOrd := w.leftOrd + 1, ring := w.ring.filter fun b => b.ord != w.leftOrd, stream := c }

/-- A VOID check stays so, and a block that was never in the ring makes it so. -/
theorem VoiceUse.leaveBlock_void {w : VoiceUse} (hd : w.blockDone = true)
    (h : w.stream = .void ∨ ∀ b ∈ w.ring, b.ord ≠ w.leftOrd) : w.leaveBlock = w.past .void := by
  unfold VoiceUse.leaveBlock
  rw [if_pos hd]
  rcases h with h | h
  · rw [h]
    rfl
  · have hnone : w.ring.find? (fun b => b.ord == w.leftOrd) = none := List.find?_eq_none.2 fun b hm => by simpa using h b hm
    rw [hnone]
    cases w.stream <;> rfl

/-- A VALID check takes the bytes of a block of the first pass. -/
theorem VoiceUse.leaveBlock_valid {w : VoiceUse} (hd : w.blockDone = true) {b : RingBlock} {c : Crc} {n : Nat}
    (hs : w.stream = .valid c n) (hb : w.ring.find? (fun b => b.ord == w.leftOrd) = some b) :
    w.leaveBlock = w.past (if w.leftOrd < w.firstBlocks then .valid (crcUpdate c (samplesBytes b.data)) (n + 6 * b.data.length)
      else .valid c n) := by
  unfold VoiceUse.leaveBlock
  rw [if_pos hd, hs, hb]
  rfl

/-! ### A pass that ends (R95, R104) -/

theorem exec_loopToInCue {s : State} (hp : s.powered = true) (dt : Nat) {i : Fin 12} {w : VoiceUse}
    (h : (s.elapse dt).voice i = some w) :
    exec (.loopToInCue dt i) s =
      .next (if w.looping && w.atPassEnd then ((s.elapse dt).loopVoice i).pump else s.elapse dt) := by
  rw [exec, execLoopToInCue, State.run_powered hp, h]
  rfl

/-- A voice in its next pass, with the stream check its passes so far have settled. -/
def VoiceUse.nextPass (w : VoiceUse) (c : Option StreamCheck) : VoiceUse := { w with passes := w.passes + 1, streamDone := c }

section passes
variable {s : State} {i : Nat} {w : VoiceUse} (h : s.voice i = some w)
include h

theorem State.loopVoice_of_settled (hd : w.streamDone.isSome = true) : s.loopVoice i = s.setVoice i (some (w.nextPass w.streamDone)) := by
  unfold State.loopVoice State.settleStream
  rw [h]
  dsimp only
  rw [if_pos hd, State.modVoice_eq h]
  rfl

/-- The check settles as the first pass ends; here every block that has played its last sample has already left the ring. -/
theorem State.loopVoice_of_void (hd : w.streamDone = none) (hb : w.blockDone = false) (hv : w.stream = .void) :
    s.loopVoice i = s.setVoice i (some (w.nextPass (some .notChecked))) := by
  unfold State.loopVoice State.settleStream
  rw [h]
  dsimp only
  rw [hd, if_neg (by simp), VoiceUse.leaveBlocks_playing hb]
  split
  · rename_i hc _
    exact nomatch hv.symm.trans hc
  · exact State.modVoice_setVoice _ _ _ _

theorem State.loopVoice_of_valid (hd : w.streamDone = none) (hb : w.blockDone = false) {c : Crc} {n : Nat} {v : Version}
    (hc : w.stream = .valid c n) (hv : s.store.find w.cart w.serial = some v) :
    s.loopVoice i =
      if crcFinal c = v.check then s.setVoice i (some (w.nextPass (some .pass)))
      else
        ({ (s.setVoice i (some (w.nextPass (some .fail)))).latch
            { FaultInfo.bare .streamMismatch with outlet := some w.outlet, cart := some (w.cart, w.serial) } with
          store := s.store.quarantine w.cart w.serial } : State) := by
  unfold State.loopVoice State.settleStream
  rw [h]
  dsimp only
  rw [hd, if_neg (by simp), VoiceUse.leaveBlocks_playing hb]
  split
  · rename_i c' n' v' hc' hv'
    obtain ⟨rfl, rfl⟩ := StreamCtx.valid.inj (hc.symm.trans hc')
    obtain rfl := Option.some.inj (hv.symm.trans hv')
    split
    · exact State.modVoice_setVoice _ _ _ _
    · rw [← State.modVoice_latch_store, State.modVoice_setVoice]
      rfl
  · rename_i hno
    exact (hno c n v hc hv).elim

end passes

end Sys2Proof.Machine

open Sys2Proof Sys2Proof.Machine

/-- Settles O54: a judge point by what the ring holds of the block, a block that leaves by the check it finds, a pass that ends by whether
the check is settled. -/
theorem blocksAreJudgedAndLeave : Obligations.BlocksAreJudgedAndLeave := by
  intro s dt i w hp hw a ahead judged left looped concealed
  have hjudged : judged = .next (if w.judgeDue a.clock then (a.judge i).pump else a) := exec_judgePoint hp dt hw
  have hleft : left = .next (if w.sounding && w.blockDone then (a.setVoice i (some w.leaveBlock)).pump else a) :=
    exec_blockLeavesRing hp dt hw
  have hlooped : looped = .next (if w.looping && w.atPassEnd then (a.loopVoice i).pump else a) := exec_loopToInCue hp dt hw
  refine ⟨fun hn => ?_, fun hd => ⟨fun b hb => ⟨fun hf => ?_, fun hf => ?_⟩, fun hb => ⟨fun hu => ?_, fun hu => ?_⟩⟩, fun hn => ?_,
    fun hs hd => ?_, fun hn => ?_, fun hl he => ?_⟩
  · rw [hjudged, hn]
    rfl
  · rw [hjudged, if_pos hd, State.judge_of_good hw hb hf]
    rfl
  · rw [hjudged, if_pos hd, State.judge_of_flagged hw hb hf]
    rfl
  · rw [hjudged, if_pos hd, State.judge_of_missing hw hb, if_pos hu]
    rfl
  · rw [hjudged, if_pos hd, State.judge_of_missing hw hb, if_neg (by simp [hu])]
    rfl
  · rw [hleft, if_neg (by simpa using hn)]
  · rw [if_pos (by simp [hs, hd])] at hleft
    refine ⟨fun hv => ?_, fun b c n hc hb => ⟨fun hf => ?_, fun hf => ?_⟩⟩
    · rw [hleft, VoiceUse.leaveBlock_void hd hv]
      rfl
    · rw [hleft, VoiceUse.leaveBlock_valid hd hc hb, if_pos hf]
      rfl
    · rw [hleft, VoiceUse.leaveBlock_valid hd hc hb, if_neg (Nat.not_lt.2 hf)]
      rfl
  · rw [hlooped, if_neg (by simpa using hn)]
  · rw [if_pos (by simp [hl, he])] at hlooped
    refine ⟨fun hs => ?_, fun hs hb => ⟨fun hv => ?_, fun c n v hc hf => ?_⟩⟩
    · rw [hlooped, State.loopVoice_of_settled hw hs]
      rfl
    · rw [hlooped, State.loopVoice_of_void hw hs hb hv]
      rfl
    · have hf' : a.store.find w.cart w.serial = some v := (congrArg (fun st : Store => st.find w.cart w.serial) (State.elapse_store s dt)).trans hf
      have hstore : a.store = s.store := State.elapse_store s dt
      rw [hlooped, State.loopVoice_of_valid hw hs hb hc hf', hstore]
      exact ⟨fun e => by rw [if_pos e]; rfl, fun e => by rw [if_neg e]; rfl⟩
end

section
/-! The bytes of a run written to the store's memory (R98). -/

namespace Sys2Proof.Machine

theorem memRead_writeChain_other {chain : List PageRun} {addr : Nat} (bytes : List Byte) {m : List Host.Cell} (hm : memWf m = true) (off : Nat)
    (h : ∀ k, k < bytes.length → byteAddr chain (off + k) ≠ addr) : memRead (writeChain m chain off bytes) addr = memRead m addr := by
  induction bytes generalizing m off with
  | nil => rfl
  | cons b t ih =>
    have htail : ∀ k, k < t.length → byteAddr chain (off + 1 + k) ≠ addr := fun k hk => by
      have := h (k + 1) (Nat.succ_lt_succ hk)
      rwa [Nat.add_right_comm]
    have hhead : addr ≠ byteAddr chain off := (h 0 (Nat.succ_pos _)).symm
    rw [writeChain, ih (memWrite_wf _ _ hm) _ htail, memRead_memWrite hm, if_neg hhead]

/-- Where no two bytes of the run have one address, each is read back. -/
theorem memRead_writeChain {chain : List PageRun} (bytes : List Byte) {m : List Host.Cell} (hm : memWf m = true) (off : Nat)
    (hinj : ∀ j k, j < bytes.length → k < bytes.length → byteAddr chain (off + j) = byteAddr chain (off + k) → j = k) {k : Nat} {b : Byte}
    (hb : bytes[k]? = some b) : memRead (writeChain m chain off bytes) (byteAddr chain (off + k)) = b := by
  induction bytes generalizing m off k with
  | nil => cases hb
  | cons c t ih =>
    cases k with
    | zero =>
      obtain rfl : c = b := by simpa using hb
      have hrest : ∀ k, k < t.length → byteAddr chain (off + 1 + k) ≠ byteAddr chain off := fun k hk e => by
        rw [Nat.add_right_comm] at e
        exact absurd (hinj (k + 1) 0 (Nat.succ_lt_succ hk) (Nat.succ_pos _) e) (Nat.succ_ne_zero k)
      show memRead (writeChain (memWrite m (byteAddr chain off) c) chain (off + 1) t) (byteAddr chain off) = c
      rw [memRead_writeChain_other t (memWrite_wf _ _ hm) _ hrest, memRead_memWrite hm, if_pos rfl]
    | succ k =>
      rw [writeChain, Nat.add_comm k 1, ← Nat.add_assoc]
      refine ih (memWrite_wf _ _ hm) _ (fun i j hi hj e => ?_) (by simpa using hb)
      rw [Nat.add_right_comm, Nat.add_right_comm off 1 j] at e
      exact Nat.succ.inj (hinj (i + 1) (j + 1) (Nat.succ_lt_succ hi) (Nat.succ_lt_succ hj) e)

end Sys2Proof.Machine
end

section
/-! One version of the directory changed, or freed (R106, R111). -/

namespace Sys2Proof.Machine

/-- No version of the directory has the name. -/
def Store.Lacks (st : Store) (c n : Nat) : Prop := ∀ w ∈ st.versions, ¬ (w.cart = c ∧ w.serial = n)

section directory
variable {st : Store} {c n : Nat} {v w : Version}

theorem Store.modVersion_eq (st : Store) (c n : Nat) (f : Version → Version) :
    st.modVersion c n f = { st with versions := st.versions.map fun w => if w.cart = c ∧ w.serial = n then f w else w } := by
  simp only [Store.modVersion, Version.is, Bool.and_eq_true, beq_iff_eq]

/-- The version of a name is found where no two have one name. -/
theorem Store.find_of_mem (hn : (st.versions.map Version.key).Nodup) (hv : v ∈ st.versions) : st.find v.cart v.serial = some v := by
  cases e : st.find v.cart v.serial with
  | none => exact absurd (List.find?_eq_none.1 e v hv) (by simp [Version.is])
  | some w =>
    obtain ⟨hw, hcart, hserial⟩ := Store.find_is e
    exact congrArg some (List.inj_on_of_nodup_map hn hw hv (by simp [Version.key, hcart, hserial]))

theorem Store.find_modVersion {f : Version → Version} (hf : ∀ v, (f v).key = v.key) :
    (st.modVersion c n f).find c n = (st.find c n).map f := by
  have hname : ∀ v : Version, (if v.is c n then f v else v).is c n = v.is c n := fun v => by
    split
    · have := hf v
      simp only [Version.key, Prod.mk.injEq] at this
      simp only [Version.is, this.1, this.2]
    · rfl
  unfold Store.find Store.modVersion
  rw [List.find?_map]
  simp only [Function.comp_def, hname]
  cases e : st.versions.find? fun v => v.is c n with
  | none => rfl
  | some v => rw [Option.map_some, Option.map_some, if_pos (List.find?_some e)]

theorem Store.Lacks.modVersion {c' n' : Nat} {f : Version → Version} (hf : ∀ v, (f v).key = v.key) (h : st.Lacks c n) :
    (st.modVersion c' n' f).Lacks c n := by
  intro w hw hname
  obtain ⟨v, hv, rfl⟩ := List.mem_map.1 hw
  have hkey : (if v.is c' n' then f v else v).key = v.key := by
    split
    · exact hf v
    · rfl
  simp only [Version.key, Prod.mk.injEq] at hkey
  rw [hkey.1, hkey.2] at hname
  exact h v hv hname

/-- A version that no voice holds leaves the directory when it is freed. -/
theorem Store.freeVersion_lacks (hv : st.find c n = some v) (h0 : v.useCount = 0) : (st.freeVersion c n).Lacks c n := by
  unfold Store.freeVersion
  rw [hv]
  dsimp only
  rw [if_pos h0]
  intro w hw hname
  have := (List.mem_filter.1 hw).2
  simp [Version.is, hname.1, hname.2] at this

/-- A version of another name stays as it is. -/
theorem Store.mem_modVersion_other {f : Version → Version} (hw : w ∈ st.versions) (hne : ¬ (w.cart = c ∧ w.serial = n)) :
    w ∈ (st.modVersion c n f).versions := by
  rw [Store.modVersion_eq]
  exact List.mem_map.2 ⟨w, hw, if_neg hne⟩

theorem Store.mem_modVersion_self {f : Version → Version} (hv : st.find c n = some v) : f v ∈ (st.modVersion c n f).versions := by
  obtain ⟨hm, hname⟩ := Store.find_is hv
  rw [Store.modVersion_eq]
  exact List.mem_map.2 ⟨v, hm, if_pos hname⟩

/-- A version that voices hold becomes RETIRING and superseded when it is freed. -/
theorem Store.freeVersion_held (hv : st.find c n = some v) (h0 : v.useCount ≠ 0) :
    { v with state := .retiring, role := .superseded } ∈ (st.freeVersion c n).versions := by
  have hmem := Store.mem_modVersion_self (f := fun w => { w with state := .retiring, role := .superseded }) hv
  unfold Store.freeVersion
  rw [hv]
  dsimp only
  rwa [if_neg h0]

theorem Store.mem_freeVersion_other (hw : w ∈ st.versions) (hne : ¬ (w.cart = c ∧ w.serial = n)) : w ∈ (st.freeVersion c n).versions := by
  unfold Store.freeVersion
  split
  · exact hw
  · split
    · refine List.mem_filter.2 ⟨hw, ?_⟩
      simpa only [Version.is, Bool.not_eq_true', ← Bool.not_eq_true, Bool.and_eq_true, beq_iff_eq] using hne
    · exact Store.mem_modVersion_other hw hne

theorem Store.current_is {old : Version} (h : st.current c = some old) : old ∈ st.versions ∧ old.cart = c := by
  have := List.find?_some h
  simp only [Bool.and_eq_true, beq_iff_eq] at this
  exact ⟨List.mem_of_find?_eq_some h, this.1⟩

end directory

/-- A discarded version with no transfer in flight is freed, unless voices hold it (R116). -/
theorem State.discard_lacks {s : State} {c n : Nat} {v : Version} (ht : s.transfer = none) (hv : s.store.find c n = some v)
    (h0 : v.useCount = 0) : (s.discard c n).store.Lacks c n := by
  have hflight : s.inFlight c n = false := by rw [State.inFlight, ht]; rfl
  have hfind : (s.store.modVersion c n fun v => { v with role := .discarding, state := .quarantined }).find c n =
      some { v with role := .discarding, state := .quarantined } :=
    (Store.find_modVersion (f := fun v => { v with role := .discarding, state := .quarantined }) fun _ => rfl).trans
      (congrArg (Option.map _) hv)
  unfold State.discard
  dsimp only
  rw [hflight, if_neg Bool.false_ne_true]
  exact Store.freeVersion_lacks
    (st := { s.store.modVersion c n fun v => { v with role := .discarding, state := .quarantined } with
      loadQueue := _, verifyQueue := _, sweep := _ }) hfind h0

end Sys2Proof.Machine
end

section
/-! The end of a verification (R119, R120). -/

namespace Sys2Proof.Machine

/-- The verification answer, if the version was closed by a CART_CLOSE. -/
def State.verificationFrames (s : State) (v : Version) (pass : Bool) : List SentFrame :=
  v.closeTag.toList.map fun z => s.frame (.answer
    { dest := z.node, tag := z.tag, kind := 3, outlet := none, followUp := true, result := .ok, fields := .verified v.cart v.serial pass })

theorem State.verificationAnswer_eq {s : State} (hi : s.isolated = false) (v : Version) (pass : Bool) :
    s.verificationAnswer v pass = { s with sent := s.sent ++ s.verificationFrames v pass } := by
  unfold State.verificationAnswer State.verificationFrames
  cases v.closeTag with
  | none => exact congrArg (fun l => ({ s with sent := l } : State)) (List.append_nil _).symm
  | some z => exact State.send_open hi _

/-- The version leaves the verify queue. -/
def Store.unverified (st : Store) (v : Version) : Store :=
  { st with
    verifyQueue := st.verifyQueue.filter fun q => q != (v.cart, v.serial)
    sweep := st.sweep.filter fun w => !(w.cart == v.cart && w.serial == v.serial) }

/-- VERIFY_MISMATCH with the version and the page of an uncorrectable word (R172). -/
def Version.mismatch (v : Version) (page : Option Nat) : FaultInfo :=
  { FaultInfo.bare .verifyMismatch with cart := some (v.cart, v.serial), page := page }

theorem State.endVerification_pass (s : State) (v : Version) (page : Option Nat) :
    s.endVerification v true true page =
      (({ s with store := s.store.unverified v } : State).settleVerification v true).verificationAnswer v true := rfl

theorem State.endVerification_fail (s : State) (v : Version) (page : Option Nat) :
    s.endVerification v false true page =
      (({ s.latch (v.mismatch page) with store := s.store.unverified v } : State).settleVerification v false).verificationAnswer v false := rfl

/-- Settling a verification touches no more than the store and the transfer in flight. -/
theorem State.settleVerification_eq (s : State) (v : Version) (pass : Bool) :
    ∃ st tr, s.settleVerification v pass = { s with store := st, transfer := tr } := by
  have hdiscard : ∃ st tr, s.discard v.cart v.serial = { s with store := st, transfer := tr } := by
    unfold State.discard
    dsimp only
    split <;> exact ⟨_, _, rfl⟩
  unfold State.settleVerification
  split
  · split <;> exact ⟨_, _, rfl⟩
  · split
    · exact hdiscard
    · exact ⟨_, _, rfl⟩

/-- The answer goes out, and no capture is touched, as a verification is settled. -/
theorem State.settled_answer {s : State} (hi : s.isolated = false) (v : Version) (pass : Bool) :
    let t := (s.settleVerification v pass).verificationAnswer v pass
    t.store = (s.settleVerification v pass).store ∧ t.sent = s.sent ++ s.verificationFrames v pass ∧ t.captures = s.captures := by
  obtain ⟨st, tr, e⟩ := s.settleVerification_eq v pass
  dsimp only
  rw [State.verificationAnswer_eq (by rw [e]; exact hi), e]
  exact ⟨rfl, rfl, rfl⟩

/-! ### A current version -/

/-- The unit `u` after the verification of a current version, which takes the state `k`. -/
def State.verified (u : State) (v : Version) (k : VersionState) : State :=
  ({ u with store := (u.store.unverified v).modVersion v.cart v.serial fun w => { w with state := k, closeTag := none } } : State).verificationAnswer
    v (k == .ready)

theorem State.endVerification_current_pass (s : State) {v : Version} (hr : v.role = .current) (page : Option Nat) :
    s.endVerification v true true page = s.verified v .ready := by
  rw [State.endVerification_pass]
  unfold State.settleVerification
  rw [hr]
  rfl

theorem State.endVerification_current_fail (s : State) {v : Version} (hr : v.role = .current) (page : Option Nat) :
    s.endVerification v false true page = (s.latch (v.mismatch page)).verified v .quarantined := by
  rw [State.endVerification_fail]
  unfold State.settleVerification
  rw [hr]
  rfl

/-! ### An incoming version -/

/-- What an incoming version that passes leaves of the directory: it is current, and the former current version is freed. -/
structure Store.Succeeds (st : Store) (v : Version) (r : Store) : Prop where
  current : { v with state := .ready, role := .current, closeTag := none } ∈ r.versions
  freed : ∀ old, st.current v.cart = some old → old.useCount = 0 → r.Lacks old.cart old.serial
  retired : ∀ old, st.current v.cart = some old → old.useCount ≠ 0 → { old with state := .retiring, role := .superseded } ∈ r.versions

theorem State.settleVerification_succeeds {s : State} {v : Version} (hr : v.role = .incoming)
    (hn : (s.store.versions.map Version.key).Nodup) (hv : v ∈ s.store.versions)
    (hne : ∀ old, s.store.current v.cart = some old → old.serial ≠ v.serial) :
    s.store.Succeeds v (s.settleVerification v true).store := by
  have hkey : ∀ w : Version, ({ w with state := .ready, role := .current, closeTag := none } : Version).key = w.key := fun _ => rfl
  unfold State.settleVerification
  rw [if_pos rfl, hr]
  dsimp only
  cases e : s.store.current v.cart with
  | none =>
    exact ⟨Store.mem_modVersion_self (f := fun w => { w with state := .ready, role := .current, closeTag := none })
      (Store.find_of_mem hn hv), fun old h => (nomatch e.symm.trans h), fun old h => (nomatch e.symm.trans h)⟩
  | some old =>
    obtain ⟨hold, -⟩ := Store.current_is e
    have hother : ¬ (v.cart = old.cart ∧ v.serial = old.serial) := fun h => hne old e h.2.symm
    have hfind := Store.find_of_mem hn hold
    have hkept : ((s.store.freeVersion old.cart old.serial).versions.map Version.key).Nodup :=
      Store.keys_of_sublist ((Store.Kept.refl s.store).freeVersion old.cart old.serial).versions hn
    refine ⟨Store.mem_modVersion_self (f := fun w => { w with state := .ready, role := .current, closeTag := none })
      (Store.find_of_mem hkept (Store.mem_freeVersion_other hv hother)), fun old' h h0 => ?_, fun old' h h0 => ?_⟩
    all_goals
      obtain rfl : old = old' := Option.some.inj (e.symm.trans h)
    · exact (Store.freeVersion_lacks hfind h0).modVersion hkey
    · exact Store.mem_modVersion_other (Store.freeVersion_held hfind h0) fun h => hother ⟨h.1.symm, h.2.symm⟩

theorem State.settleVerification_lacks {s : State} {v : Version} (hr : v.role = .incoming) (ht : s.transfer = none)
    (hv : s.store.find v.cart v.serial = some v) (h0 : v.useCount = 0) : (s.settleVerification v false).store.Lacks v.cart v.serial := by
  unfold State.settleVerification
  rw [if_neg Bool.false_ne_true, hr]
  exact State.discard_lacks ht hv h0

/-- An incoming version that passes is current, and answered so. -/
theorem State.endVerification_succeeds {s : State} {v : Version} (hi : s.isolated = false) (hr : v.role = .incoming)
    (hn : (s.store.versions.map Version.key).Nodup) (hv : v ∈ s.store.versions)
    (hne : ∀ old, s.store.current v.cart = some old → old.serial ≠ v.serial) (page : Option Nat) :
    s.store.Succeeds v (s.endVerification v true true page).store ∧
      (s.endVerification v true true page).sent = s.sent ++ s.verificationFrames v true := by
  rw [State.endVerification_pass]
  obtain ⟨hstore, hsent, -⟩ := State.settled_answer (s := { s with store := s.store.unverified v }) hi v true
  obtain ⟨hcurrent, hfreed, hretired⟩ := State.settleVerification_succeeds (s := { s with store := s.store.unverified v }) hr hn hv hne
  rw [hstore]
  exact ⟨⟨hcurrent, hfreed, hretired⟩, hsent⟩

/-- An incoming version that fails is discarded, and answered so; VERIFY_MISMATCH is latched. -/
theorem State.endVerification_discards {s : State} {v : Version} (hi : s.isolated = false) (hr : v.role = .incoming)
    (ht : s.transfer = none) (hv : s.store.find v.cart v.serial = some v) (page : Option Nat) :
    (s.endVerification v false true page).sent = s.sent ++ s.verificationFrames v false ∧
      (v.useCount = 0 → (s.endVerification v false true page).store.Lacks v.cart v.serial) ∧
      ((s.endVerification v false true page).captures.slot FaultKind.verifyMismatch.cls).first.isSome = true := by
  rw [State.endVerification_fail]
  obtain ⟨hstore, hsent, hcaptures⟩ := State.settled_answer
    (s := { s.latch (v.mismatch page) with store := s.store.unverified v }) hi v false
  rw [hstore, hsent, hcaptures]
  exact ⟨rfl, State.settleVerification_lacks (s := { s.latch (v.mismatch page) with store := s.store.unverified v }) hr ht hv,
    Option.isSome_iff_exists.2 (s.latch_first (v.mismatch page))⟩

end Sys2Proof.Machine
end

section
/-! What each completion of the fetch engine does (R93, R97 to R99, R115, R119). -/

namespace Sys2Proof.Machine

/-- The unit after a transfer that read, before its data is used: the corrected words are counted (R173). -/
def State.readDone (s : State) (ecc : Ecc) : State := ({ s with transfer := none } : State).corrected ecc.corrected

/-- The voice after a block read for it has joined its ring (R93, R99). -/
def VoiceUse.takeBlock (w : VoiceUse) (flagged : Bool) (data : List SampleFrame) : VoiceUse :=
  { w with
    ring := w.ring ++ [{ ord := w.nextOrd, flagged := flagged, data := data }]
    nextOrd := w.nextOrd + 1
    delivered := w.delivered + 1
    bad := w.bad || flagged
    state := if w.state = .priming ∧ w.primeSet ≤ w.delivered + 1 then .primed else w.state }

/-! ### Block reads -/

/-- UNCORRECTABLE with the page of a voice's block (R99, R172). -/
def VoiceUse.uncorrectable (w : VoiceUse) (page : Option Nat) : FaultInfo :=
  { FaultInfo.bare .uncorrectable with
    outlet := some w.outlet, cart := some (w.cart, w.serial), entryTag := w.entryTag, page := page }

theorem State.deliver_eq {s : State} {i : Nat} {w : VoiceUse} {v : Version} (hw : s.voice i = some w)
    (hv : s.store.find w.cart w.serial = some v) (ecc : Ecc) :
    let u := s.setVoice i (some (w.takeBlock ecc.uncorrectable.isSome (s.store.readBlock v (w.blockIndex w.nextOrd))))
    s.deliver i w.nextOrd ecc = if ecc.uncorrectable.isSome then u.latch (w.uncorrectable ecc.uncorrectable) else u := by
  have hprimed : ∀ u : VoiceUse, (if u.state == .priming && u.primeSet ≤ u.delivered then { u with state := .primed } else u) =
      { u with state := if u.state = .priming ∧ u.primeSet ≤ u.delivered then .primed else u.state } := fun u => by
    simp only [Bool.and_eq_true, beq_iff_eq, decide_eq_true_eq]
    split <;> rfl
  unfold State.deliver
  rw [hw]
  dsimp only
  rw [hv, if_pos rfl]
  exact congrArg (fun u => if ecc.uncorrectable.isSome then (s.setVoice i (some u)).latch (w.uncorrectable ecc.uncorrectable)
    else s.setVoice i (some u)) (hprimed
      { w with
        ring := w.ring ++ [{ ord := w.nextOrd, flagged := ecc.uncorrectable.isSome, data := s.store.readBlock v (w.blockIndex w.nextOrd) }]
        nextOrd := w.nextOrd + 1
        delivered := w.delivered + 1
        bad := w.bad || ecc.uncorrectable.isSome })

section completions
variable {s : State} (hp : s.powered = true) {t : Transfer} (ht : s.transfer = some t) (dt : Nat)
include hp ht

theorem exec_primingTransferComplete {i ord : Nat} (hk : t.kind = .priming i ord) (ecc : Ecc) :
    exec (.primingTransferComplete dt ecc) s = .next (((s.elapse dt).completeRead t i ord ecc).finish (s.elapse dt)) := by
  rw [exec, execPrimingTransferComplete, State.run_powered hp, State.elapse_transfer, ht]
  dsimp only
  rw [hk]

theorem exec_refillComplete {i ord : Nat} (hk : t.kind = .refill i ord) (ecc : Ecc) :
    exec (.refillComplete dt ecc) s = .next ((s.elapse dt).completeRead t i ord ecc).pump := by
  rw [exec, execRefillComplete, State.run_powered hp, State.elapse_transfer, ht]
  dsimp only
  rw [hk]

theorem exec_loadWriteComplete {p : Payload} (hk : t.kind = .load p) :
    exec (.loadWriteComplete dt) s = .next ((s.elapse dt).completeLoad t p).pump := by
  rw [exec, execLoadWriteComplete, State.run_powered hp, State.elapse_transfer, ht]
  dsimp only
  rw [hk]

theorem exec_verifyReadComplete {cart serial off size : Nat} (hk : t.kind = .verify cart serial off size) (ecc : Ecc) :
    exec (.verifyReadComplete dt ecc) s = .next ((s.elapse dt).completeVerify t cart serial off size ecc).pump := by
  rw [exec, execVerifyReadComplete, State.run_powered hp, State.elapse_transfer, ht]
  dsimp only
  rw [hk]

end completions

theorem State.completeRead_eq (s : State) (t : Transfer) (i ord : Nat) (ecc : Ecc) :
    s.completeRead t i ord ecc = if t.stale then s.readDone ecc else (s.readDone ecc).deliver i ord ecc := rfl

/-! ### Load writes -/

theorem State.completeLoad_eq {s : State} {t : Transfer} {p : Payload} {v : Version} (hs : t.stale = false)
    (hv : s.store.find p.cart p.serial = some v) :
    s.completeLoad t p =
      { s with
        transfer := none
        store :=
          { s.store with
            mem := writeChain s.store.mem v.chain p.offset p.bytes
            versions := s.store.versions.map fun w =>
              if w.cart = p.cart ∧ w.serial = p.serial then { w with written := w.written + p.bytes.length } else w } } := by
  unfold State.completeLoad
  dsimp only
  rw [if_neg (by simp [hs]), hv, Store.modVersion_eq]

/-! ### Verify reads -/

/-- The running check of the sweep after a span more of a version's bytes (R119). -/
def Store.sweepCrc (st : Store) (v : Version) (off size : Nat) : Crc :=
  crcUpdate ((st.sweep.map Sweep.crc).getD crcInit) (readChain st.mem v.chain off size)

/-- What a verify read that is not stale comes to. -/
theorem State.completeVerify_eq {s : State} {t : Transfer} {cart serial off size : Nat} {v : Version} {ecc : Ecc} (hs : t.stale = false)
    (hv : s.store.find cart serial = some v) :
    (∀ page, ecc.uncorrectable = some page →
      s.completeVerify t cart serial off size ecc = (s.readDone ecc).endVerification v false true (some page)) ∧
    (ecc.uncorrectable = none → 6 * v.len ≤ off + size →
      s.completeVerify t cart serial off size ecc =
        (s.readDone ecc).endVerification v (crcFinal (s.store.sweepCrc v off size) == v.check) true none) ∧
    (ecc.uncorrectable = none → off + size < 6 * v.len →
      s.completeVerify t cart serial off size ecc =
        { s.readDone ecc with
          store := { s.store with
            sweep := some { cart := cart, serial := serial, next := off + size, crc := s.store.sweepCrc v off size } } }) := by
  have hfind : (s.readDone ecc).store.find cart serial = some v := hv
  have hcrc : crcUpdate (match s.store.sweep with
      | some w => w.crc
      | none => crcInit) (readChain s.store.mem v.chain off size) = s.store.sweepCrc v off size := by
    unfold Store.sweepCrc
    cases s.store.sweep <;> rfl
  have heq : s.completeVerify t cart serial off size ecc =
      match ecc.uncorrectable with
      | some page => (s.readDone ecc).endVerification v false true (some page)
      | none =>
        if 6 * v.len ≤ off + size then
          (s.readDone ecc).endVerification v (crcFinal (s.store.sweepCrc v off size) == v.check) true none
        else
          { s.readDone ecc with
            store := { s.store with
              sweep := some { cart := cart, serial := serial, next := off + size, crc := s.store.sweepCrc v off size } } } := by
    rw [← hcrc]
    unfold State.completeVerify
    dsimp only
    rw [if_neg (by simp [hs])]
    change (match (s.readDone ecc).store.find cart serial with
      | none => _
      | some v => _) = _
    rw [hfind]
    rfl
  refine ⟨fun page he => ?_, fun he hle => ?_, fun he hlt => ?_⟩
  · rw [heq, he]
  · rw [heq, he]
    exact if_pos hle
  · rw [heq, he]
    exact if_neg (Nat.not_le.2 hlt)

/-- A stale verify read frees a version that awaits its discard, and does no more. -/
theorem State.completeVerify_stale {s : State} {t : Transfer} {cart serial off size : Nat} {v : Version} {ecc : Ecc} (hs : t.stale = true)
    (hv : s.store.find cart serial = some v) :
    s.completeVerify t cart serial off size ecc =
      if v.role = .discarding then { s.readDone ecc with store := s.store.freeVersion cart serial } else s.readDone ecc := by
  have hfind : (s.readDone ecc).store.find cart serial = some v := hv
  have heq : s.completeVerify t cart serial off size ecc = (s.readDone ecc).freeDiscarded cart serial := if_pos hs
  rw [heq, State.freeDiscarded, hfind]
  simp only [beq_iff_eq]
  rfl

end Sys2Proof.Machine

open Sys2Proof Sys2Proof.Machine

/-- Settles O56, a block read by what joins the ring, a load by the bytes of its run, a verify read by how the verification ends for the
version's role. -/
theorem transfersComplete : Obligations.TransfersComplete := by
  intro s dt ecc t hp hi ht a read
  have hread : a.readDone ecc = read :=
    congrArg (fun c : Captures => ({ a with
      transfer := none, captures := { c with corrected := min 4294967295 (c.corrected + ecc.corrected) } } : State)) (State.elapse_captures s dt)
  have hstore : a.store = s.store := State.elapse_store s dt
  have hiso : read.isolated = false := (State.elapse_isolated s dt).trans hi
  have hsent : read.sent = s.sent := State.elapse_sent s dt
  have hreadStore : read.store = s.store := hstore
  refine ⟨fun c i ord fin hc => ?_, fun p v hk hs hv hm => ?_, fun cart serial off size v hk hs hv => ?_,
    fun cart serial off size v hk hs hv => ?_⟩
  · have hexec : exec c s = .next (fin (a.completeRead t i ord ecc)) := by
      rcases hc with ⟨rfl, hk, rfl⟩ | ⟨rfl, hk, rfl⟩
      · exact exec_primingTransferComplete hp ht dt hk ecc
      · exact exec_refillComplete hp ht dt hk ecc
    rw [State.completeRead_eq, hread] at hexec
    refine ⟨fun hs => ?_, fun w v hs hw ho hv => ?_⟩
    · rw [hexec, if_pos hs]
    · have hfresh : ¬ t.stale = true := by simp [hs]
      obtain rfl := ho
      have hdeliver := State.deliver_eq (s := read) hw (hreadStore ▸ hv) ecc
      rw [hreadStore] at hdeliver
      rw [hexec, if_neg hfresh, hdeliver]
      refine ⟨fun he => ?_, fun page he => ?_⟩
      · rw [he]
        rfl
      · rw [he]
        rfl
  · refine ⟨writeChain s.store.mem v.chain p.offset p.bytes, ?_, fun hinj k b hb => memRead_writeChain p.bytes hm p.offset hinj hb,
      fun addr h => memRead_writeChain_other p.bytes hm p.offset h⟩
    rw [exec_loadWriteComplete hp ht dt hk, State.completeLoad_eq (s := a) hs (hstore ▸ hv), hstore]
  · intro result crc ends failure
    obtain ⟨-, hcart, hserial⟩ := Store.find_is hv
    obtain ⟨hword, hlast, hmore⟩ := State.completeVerify_eq (s := a) (off := off) (size := size) (ecc := ecc) hs (hstore ▸ hv)
    have hresult : result = .next (a.completeVerify t cart serial off size ecc).pump := exec_verifyReadComplete hp ht dt hk ecc
    rw [hread] at hword hlast hmore
    rw [hstore] at hlast hmore
    have hpass : crcFinal crc = v.check → (crcFinal (s.store.sweepCrc v off size) == v.check) = true := fun h => beq_iff_eq.2 h
    have hfail : crcFinal crc ≠ v.check → (crcFinal (s.store.sweepCrc v off size) == v.check) = false := fun h => beq_eq_false_iff_ne.2 h
    have hends : ∀ (u : State) (k : VersionState), u.isolated = false → u.store = s.store → u.verified v k = ends u k := fun u k hu hst => by
      unfold State.verified
      rw [hst, Store.modVersion_eq]
      unfold State.verificationAnswer
      dsimp only [ends]
      cases v.closeTag with
      | none => rfl
      | some z =>
        apply State.send_open
        exact hu
    refine ⟨fun he hlt => ?_, fun hr => ⟨fun he hle hc => ?_, fun he hle hc => ?_, fun page he => ?_⟩, ?_⟩
    · rw [hresult, hmore he hlt]
      rfl
    · rw [hresult, hlast he hle, hpass hc, State.endVerification_current_pass _ hr, hends read .ready hiso hreadStore]
    · rw [hresult, hlast he hle, hfail hc, State.endVerification_current_fail _ hr,
        hends (read.latch (v.mismatch none)) .quarantined hiso hreadStore]
      rfl
    · rw [hresult, hword page he, State.endVerification_current_fail _ hr,
        hends (read.latch (v.mismatch (some page))) .quarantined hiso hreadStore]
      rfl
    · intro gone answers hr hpaged
      have hv' : read.store.find v.cart v.serial = some v := by rw [hcart, hserial, hreadStore]; exact hv
      have hanswers : ∀ pass, read.sent ++ read.verificationFrames v pass = answers pass := fun pass => by
        rw [hsent]
        dsimp only [answers]
        unfold State.verificationFrames
        cases v.closeTag with
        | none => exact List.append_nil _
        | some z => rfl
      refine ⟨fun he hle hc hne => ?_, fun hbad => ?_⟩
      · obtain ⟨⟨hcurrent, hfreed, hretired⟩, hout⟩ := State.endVerification_succeeds hiso hr
          (hreadStore ▸ hpaged.1) (Store.find_is hv').1 (hreadStore ▸ hne) none
        rw [hanswers] at hout
        rw [hreadStore] at hfreed hretired
        refine ⟨_, _, ?_, hout, hcurrent, rfl, fun old hold => ⟨hfreed old hold, hretired old hold⟩⟩
        rw [hresult, hlast he hle, hpass hc]
      · have hcomplete : ∃ page, a.completeVerify t cart serial off size ecc = read.endVerification v false true page := by
          cases he : ecc.uncorrectable with
          | some page => exact ⟨_, hword page he⟩
          | none =>
            obtain ⟨hle, hc⟩ := hbad.resolve_left (by simp [he])
            exact ⟨none, (hlast he hle).trans (by rw [hfail hc])⟩
        obtain ⟨page, hpage⟩ := hcomplete
        obtain ⟨hout, hlacks, hlatched⟩ := State.endVerification_discards hiso hr rfl hv' page
        rw [hanswers] at hout
        exact ⟨_, by rw [hresult, hpage], hout, hlacks, hlatched⟩
  · have hstale := State.completeVerify_stale (s := a) (off := off) (size := size) (ecc := ecc) hs (hstore ▸ hv)
    rw [hread] at hstale
    have hexec := exec_verifyReadComplete hp ht dt hk ecc
    obtain ⟨-, hcart, hserial⟩ := Store.find_is hv
    refine ⟨fun hr => ⟨_, hexec, ?_⟩, fun hr => ?_⟩
    · rw [show (s.elapse dt).completeVerify t cart serial off size ecc = _ from hstale, if_pos hr, hcart, hserial]
      exact ⟨hsent, Store.freeVersion_lacks (hstore ▸ hv)⟩
    · rw [hexec, show (s.elapse dt).completeVerify t cart serial off size ecc = _ from hstale, if_neg hr]
end

section
/-! Frames sent, versions and pages: what no command takes back, and what only CART_OPEN and POWER_ON renew (R106, R109). -/

namespace Sys2Proof.Machine

/-! ### What lasts -/

/-- From `a` to `t` no frame sent is taken back, every version is one of those held before with what it was opened with, no load serial is
taken, and the pages stay shared out (R106, R109, R110). -/
structure State.Retains (a t : State) : Prop where
  sent : a.sent <+: t.sent
  versions : (t.store.versions.map Version.fixed).Sublist (a.store.versions.map Version.fixed)
  serial : t.store.serialCounter = a.store.serialCounter
  pages : a.store.Paged → t.store.Paged

section retains
variable {a s t : State}

/-- Only the frames sent and the store are looked at. -/
theorem State.Retains.of_store (hsent : a.sent <+: t.sent) (hstore : t.store = a.store) : a.Retains t :=
  ⟨hsent, hstore ▸ List.Sublist.refl _, congrArg _ hstore, fun h => hstore ▸ h⟩

theorem State.Retains.refl (a : State) : a.Retains a := .of_store (List.prefix_refl _) rfl

theorem State.Retains.trans (h : a.Retains s) (h' : s.Retains t) : a.Retains t :=
  ⟨h.sent.trans h'.sent, h'.versions.trans h.versions, h'.serial.trans h.serial, fun hp => h'.pages (h.pages hp)⟩

theorem State.Moves.retains {k : Bool} (h : State.Moves k a t) : a.Retains t :=
  ⟨h.sent, h.versions.1, h.versions.2.1, h.paged⟩

theorem State.elapse_retains (s : State) (n : Nat) : s.Retains (s.elapse n) :=
  .of_store (s.elapse_sent n ▸ List.prefix_refl _) (s.elapse_store n)

end retains

/-! ### The requests that add -/

theorem State.modOut_retains (s : State) (o : OutletId) (f : Outlet → Outlet) : s.Retains (s.modOut o f) :=
  .of_store (List.prefix_refl _) rfl

/-- A payload that joins the load receive queue changes no version but for the bytes received (R115). -/
theorem State.accept_retains (s : State) (v : Version) (offset : Nat) (bytes : List Byte) :
    s.Retains { s with store := s.store.accept v offset bytes } := by
  have hheld := (Store.Held.refl s.store).modVersion v.cart v.serial (fun w => { w with received := w.received + bytes.length }) fun _ => rfl
  exact ⟨List.prefix_refl _, hheld.versions, rfl, hheld.paged⟩

theorem State.loadData_retains (s : State) (req : RequestHead) (cart offset : Nat) (payload : List Byte) :
    s.Retains (s.loadData req cart offset payload) := by
  unfold State.loadData
  split
  · exact (State.answer_moves (w := true) .refl _ _ _ _ _).retains
  next v _ =>
    split
    · exact (State.pump_moves (w := true) (State.answer_moves (State.failLoad_moves .refl _ _) _ _ _ _ _)).retains
    · split
      · exact (State.answer_moves (w := true) .refl _ _ _ _ _).retains
      · exact (s.accept_retains v offset payload).trans (State.pump_moves (w := true) (State.answer_moves .refl _ _ _ _ _)).retains

theorem State.addEntry_retains (s : State) (req : RequestHead) (f : EntryFields) (o : OutletId) : s.Retains (s.addEntry req f o) := by
  unfold State.addEntry
  split
  · exact (State.answer_moves (w := true) .refl _ _ _ _ _).retains
  · split
    · split
      · exact (State.answer_moves (w := true) .refl _ _ _ _ _).retains
      · exact (s.modOut_retains o _).trans
          (State.finish_moves (w := true) (State.displace_moves (State.answer_moves .refl _ _ _ _ _) _ _) (Nat.le_refl _)).retains
    · exact .refl s

theorem State.setSpots_retains (s : State) (req : RequestHead) (f : SpotFields) (o : OutletId) : s.Retains (s.setSpots req f o) := by
  unfold State.setSpots
  split
  · exact (State.answer_moves (w := true) .refl _ _ _ _ _).retains
  · exact (s.modOut_retains o _).trans (State.answer_moves (w := true) .refl _ _ _ _ _).retains

theorem State.clearSlot_retains (s : State) (req : RequestHead) (cls : Nat) : s.Retains (s.clearSlot req cls) := by
  unfold State.clearSlot
  split
  · exact (State.answer_moves (w := true) .refl _ _ _ _ _).retains.trans (.of_store (List.prefix_refl _) rfl)
  · exact .refl s

/-- A new version takes its pages from the free page list (R113). -/
theorem State.openCart_paged {s : State} (h : s.store.Paged) (req : RequestHead) (f : CartFields) (kind : CartKind) :
    (s.openCart req f kind).store.Paged := by
  unfold State.openCart
  split
  · exact (State.answer_moves (w := true) .refl _ _ _ _ _).paged h
  next hb =>
    split
    · exact (State.answer_moves (w := true) .refl _ _ _ _ _).paged h
    next hf =>
      exact (State.answer_moves (w := true) .refl _ _ _ _ _).paged
        (Store.openVersion_paged h f kind (by simpa using hb) (by simpa using hf))

/-! ### A RESTART -/

/-- A start sends its first beacon and leaves the store (R193, R194). -/
theorem State.start_retains (s : State) (config : List Byte) : s.Retains (s.start config) := by
  obtain ⟨l, e, -⟩ := s.start_eq config
  rw [e]
  exact .of_store (List.prefix_append _ _) rfl

theorem State.restart_retains (s : State) (config : List Byte) : s.Retains (s.restart config) := by
  obtain ⟨m, d, hm, -, e, -⟩ := s.restart_eq config
  rw [e]
  have hset : m.Retains { m with captures := .reset, boot := .restartRequest, disc := d } := .of_store (List.prefix_refl _) rfl
  exact (hm.retains.trans hset).trans (State.start_retains _ config)

theorem State.finish_retains (s a : State) : s.Retains (s.finish a) := by
  obtain ⟨u, l, hu, e⟩ := s.finish_eq a
  rw [e]
  exact hu.retains.trans (.of_store (List.prefix_refl _) rfl)

/-! ### Every command -/

theorem State.unitRequest_retains (s : State) (req : RequestHead) (kind need : Nat) (bad : Bool) {act : State → State}
    (hact : s.Retains (act s)) : s.Retains (s.unitRequest req kind need bad act) := by
  rcases s.unitRequest_cases req kind need bad act with e | hm
  · exact e ▸ hact
  · exact hm.retains

theorem State.feedRequest_retains (s : State) (req : RequestHead) (kind need : Nat) (bad : OutletId → Bool)
    {act : OutletId → State → State} (hact : ∀ o, s.Retains (act o s)) : s.Retains (s.feedRequest req kind need bad act) := by
  rcases s.feedRequest_cases req kind need bad act with ⟨o, e⟩ | hm
  · exact e ▸ hact o
  · exact hm.retains

/-- Every command but POWER_ON and CART_OPEN. -/
theorem exec_retains {c : Instr} {s t : State} (h : exec c s = .next t) (hon : ∀ dt link config, c ≠ .powerOn dt link config)
    (hopen : ∀ dt req f, c ≠ .cartOpen dt req f) : s.Retains t := by
  cases hp : s.powered with
  | false =>
    rw [exec_unpowered hp hon] at h
    cases h
    exact .refl s
  | true =>
    refine (s.elapse_retains (dtOf c)).trans ?_
    cases ha : adds c with
    | false => exact (exec_moves hp ha h).retains
    | true =>
      cases c
      case powerOn => exact absurd rfl (hon _ _ _)
      case cartOpen => exact absurd rfl (hopen _ _ _)
      case restart dt req config =>
        simp only [exec, execRestart, State.run_powered hp] at h
        cases h
        exact State.unitRequest_retains _ _ _ _ _ (((State.answer_moves (w := true) .refl _ _ _ _ _).retains.trans
          (State.restart_retains _ config)).trans (State.finish_retains _ _))
      case cartData dt req cart offset payload =>
        simp only [exec, execCartData, State.run_powered hp] at h
        cases h
        exact State.unitRequest_retains _ _ _ _ _ (State.loadData_retains _ _ _ _ _)
      case entryAdd dt req f =>
        simp only [exec, execEntryAdd, State.run_powered hp] at h
        cases h
        exact State.feedRequest_retains _ _ _ _ _ fun o => State.addEntry_retains _ _ _ o
      case spotsSet dt req f =>
        simp only [exec, execSpotsSet, State.run_powered hp] at h
        cases h
        exact State.feedRequest_retains _ _ _ _ _ fun o => State.setSpots_retains _ _ _ o
      case captureClear dt req cls =>
        simp only [exec, execCaptureClear, State.run_powered hp] at h
        cases h
        exact State.unitRequest_retains _ _ _ _ _ (State.clearSlot_retains _ _ _)
      all_goals cases ha

/-- CART_OPEN adds a version, with pages of its own, and takes no frame back. -/
theorem exec_cartOpen_keeps {s t : State} {dt : Nat} {req : RequestHead} {f : CartFields} (h : exec (.cartOpen dt req f) s = .next t) :
    s.sent <+: t.sent ∧ (s.store.Paged → t.store.Paged) := by
  cases hp : s.powered with
  | false =>
    rw [exec_unpowered (c := .cartOpen dt req f) hp nofun] at h
    cases h
    exact ⟨List.prefix_refl _, id⟩
  | true =>
    have hsent : (s.elapse dt).sent <+: t.sent := by
      cases exec_adds (c := .cartOpen dt req f) hp rfl nofun nofun h with
      | plain hm => exact hm.sent
      | version _ _ _ _ st hm => exact hm.sent
      | payload st _ _ hm => exact hm.sent
      | spots p l hm => exact hm.sent
      | clear _ _ _ e => cases e
      | entry _ _ _ e => cases e
    have hpages : (s.elapse dt).store.Paged → t.store.Paged := fun hs => by
      simp only [exec, execCartOpen, State.run_powered hp] at h
      cases h
      rcases (s.elapse dt).unitRequest_cases req 1 22 (cartOpenBad f) (fun s =>
        match CartKind.ofCode f.kind with
        | some k => s.openCart req f k
        | none => s) with e | hm
      · refine (congrArg (fun u : State => u.store.Paged) e).mpr ?_
        split
        · exact State.openCart_paged hs _ _ _
        · exact hs
      · exact hm.paged hs
    rw [State.elapse_sent] at hsent
    rw [State.elapse_store] at hpages
    exact ⟨hsent, hpages⟩

theorem State.powerUp_paged (s : State) (link : Nat) (config : List Byte) : (s.powerUp link config).store.Paged :=
  (State.start_retains _ config).pages Store.reset_paged

theorem exec_paged {c : Instr} {s t : State} (hs : s.store.Paged) (h : exec c s = .next t) : t.store.Paged := by
  by_cases hon : ∃ dt link config, c = .powerOn dt link config
  · obtain ⟨dt, link, config, rfl⟩ := hon
    cases h
    exact s.powerUp_paged link config
  by_cases hopen : ∃ dt req f, c = .cartOpen dt req f
  · obtain ⟨dt, req, f, rfl⟩ := hopen
    exact (exec_cartOpen_keeps h).2 hs
  exact (exec_retains h (fun dt link config e => hon ⟨dt, link, config, e⟩) fun dt req f e => hopen ⟨dt, req, f, e⟩).pages hs

theorem step_paged {s t : State} (hs : s.store.Paged) (h : step s = .next t) : t.store.Paged := by
  unfold step at h
  split at h
  · cases h
    split
    · exact (s.elapse_retains 1).pages hs
    · exact hs
  next c rest _ => exact exec_paged (s := { s with pending := rest }) hs h

end Sys2Proof.Machine

open Sys2Proof Sys2Proof.Machine

/-- Settles O8: POWER_ON frees every page, CART_OPEN takes what it needs from the free page list, every other command retains the store. -/
theorem everyStepKeepsPagesSharedOut : Obligations.EveryStepKeepsPagesSharedOut := fun _ _ hs h => step_paged hs h

/-- Settles O13. -/
theorem versionsKeepWhatTheyWereOpenedWith : Obligations.VersionsKeepWhatTheyWereOpenedWith := by
  intro c s t h hon
  by_cases hopen : ∃ dt req f, c = .cartOpen dt req f
  · obtain ⟨dt, req, f, rfl⟩ := hopen
    exact ⟨(exec_cartOpen_keeps h).1, fun hne => absurd rfl (hne dt req f)⟩
  · have hretains := exec_retains h hon fun dt req f e => hopen ⟨dt, req, f, e⟩
    exact ⟨hretains.sent, fun _ => ⟨hretains.versions, hretains.serial⟩⟩
end

section
/-! Requests by unit mask that reach the unit's judgement: how they are answered (R188 to R190). -/

namespace Sys2Proof.Machine

section taken
variable {s : State} {req : RequestHead} {n : Nat}

theorem State.TakesUnit.isolated (h : s.TakesUnit req n) : s.isolated = false := by
  obtain ⟨-, hg, -⟩ := h
  unfold State.unitGate at hg
  split at hg
  · cases hg
  next hj =>
    simp only [State.judgesRequest, Bool.not_and, Bool.not_not, Bool.or_eq_true, not_or, Bool.not_eq_true] at hj
    exact hj.1

/-- The unit after a request is answered MALFORMED and latched so (R188). -/
def State.misread (s : State) (req : RequestHead) (kind : Nat) : State :=
  (s.answers req kind none .malformed .none).latch { FaultInfo.bare .malformed with node := some req.head.sender }

/-- A request that reaches the unit's judgement is answered MALFORMED, or judged. -/
theorem State.TakesUnit.run (h : s.TakesUnit req n) (dt kind : Nat) (bad : Bool) (act : State → State) :
    (s.run dt fun s => s.unitRequest req kind n bad act) =
      .next (if bad then (s.elapse dt).misread req kind else act (s.elapse dt)) := by
  have hi : (s.elapse dt).isolated = false := by rw [State.elapse_isolated, h.isolated]
  obtain ⟨hp, hg, hn⟩ := h
  have hf : holdsFields req n = true := decide_eq_true hn
  rw [State.run_powered hp]
  simp only [State.unitRequest, State.elapse_unitGate, hg, hf, State.malformed, State.answer_open hi, Bool.not_true, Bool.false_or,
    State.misread]

end taken

/-- An answer sent from a changed store. -/
theorem State.answer_withStore {s : State} (h : s.isolated = false) (st : Store) (tr : Option Transfer) (req : RequestHead) (kind : Nat)
    (r : ResultCode) (f : AnswerFields) :
    ({ s with store := st, transfer := tr } : State).answer req kind none r f =
      ({ s with store := st, transfer := tr } : State).answers req kind none r f := 
    State.answer_open (s := { s with store := st, transfer := tr }) h req kind none r f

/-! ### Malformed fields -/

theorem CartKind.ofCode_eq_none {k : Nat} : CartKind.ofCode k = none ↔ k = 0 ∨ 6 < k := by
  refine ⟨fun h => ?_, ?_⟩
  · by_contra hk
    obtain ⟨hlow, hhigh⟩ : 1 ≤ k ∧ k ≤ 6 := by omega
    interval_cases k <;> cases h
  · rintro (rfl | h)
    · rfl
    · unfold CartKind.ofCode
      split
      case h_7 => rfl
      all_goals exact absurd h (by decide)

theorem cartOpenBad_iff {f : CartFields} :
    cartOpenBad f = true ↔ (f.cart = 0 ∨ 999999 < f.cart) ∨ f.kind = 0 ∨ 6 < f.kind ∨ f.len = 0 ∨ 172800000 < f.len := by
  simp only [cartOpenBad, Bool.or_eq_true, Bool.not_eq_true', cartOk_eq_false, Option.isNone_iff_eq_none,
    CartKind.ofCode_eq_none, beq_iff_eq, decide_eq_true_eq, or_assoc]
  rfl

theorem cartDataBad_iff {cart : Nat} {payload : List Byte} :
    cartDataBad cart payload = true ↔ (cart = 0 ∨ 999999 < cart) ∨ payload = [] ∨ 1152 < payload.length := by
  simp only [cartDataBad, Bool.or_eq_true, Bool.not_eq_true', cartOk_eq_false, List.isEmpty_iff, decide_eq_true_eq, or_assoc]

end Sys2Proof.Machine
end

section
/-! CART_OPEN: the version it makes (R110, R112 to R114). -/

namespace Sys2Proof.Machine

theorem Store.ofRole_isSome {st : Store} {cart : Nat} {r : Role} :
    (st.ofRole cart r).isSome = true ↔ ∃ v ∈ st.versions, v.cart = cart ∧ v.role = r := by
  simp [Store.ofRole, List.find?_isSome]

section openCart
variable {st m : Store} {cart len : Nat} {v : Version}

theorem Store.openBusy_iff : st.openBusy cart = true ↔
    (∃ v ∈ st.versions, v.cart = cart ∧ v.role = .incoming) ∨ 2 ≤ (st.versions.filter fun v => v.cart == cart).length ∨
      ∃ v, st.current cart = some v ∧ (v.state = .loading ∨ v.state = .verifying) := by
  simp only [Store.openBusy, Bool.or_eq_true, Store.ofRole_isSome, Option.any_eq_true, beq_iff_eq, decide_eq_true_eq]
  exact or_assoc

/-- The store a CART_OPEN opens its version in: a QUARANTINED current version that no voice holds is freed first (R113). -/
inductive Store.ClearedFor (st : Store) (cart : Nat) : Store → Prop
  | kept (h : st.replaced cart = none) : ClearedFor st cart st
  | freed {v : Version} (h : st.replaced cart = some v) (hp : st.Paged) : ClearedFor st cart (st.freeVersion v.cart v.serial)

theorem Store.replaced_eq_none (h : ∀ v, st.current cart = some v → v.state ≠ .quarantined ∨ v.useCount ≠ 0) : st.replaced cart = none := by
  refine Option.filter_eq_none_iff.2 fun v hv => ?_
  have := h v hv
  simp only [Bool.and_eq_true, beq_iff_eq]
  tauto

theorem Store.replaced_eq_some (hv : st.current cart = some v) (hq : v.state = .quarantined) (h0 : v.useCount = 0) :
    st.replaced cart = some v :=
  Option.filter_eq_some_iff.2 ⟨hv, by simp [hq, h0]⟩

/-- A version that no voice holds leaves the directory as it is freed, and its pages return. -/
theorem Store.freeVersion_unheld (hv : st.find v.cart v.serial = some v) (h0 : v.useCount = 0) :
    st.freeVersion v.cart v.serial =
      { st with versions := st.versions.filter fun w => !w.is v.cart v.serial, free := givePages v.chain st.free } := by
  unfold Store.freeVersion
  rw [hv]
  exact if_pos h0

/-- The pages and places of a version to be replaced count as already freed (R112). -/
theorem Store.ClearedFor.openFull_iff (h : st.ClearedFor cart m) :
    st.openFull cart len = true ↔ runsCount m.free < pagesFor len ∨ 4096 ≤ m.versions.length := by
  simp only [Store.openFull, directoryCapacity, Bool.or_eq_true, decide_eq_true_eq]
  cases h with
  | kept h => simp [h]
  | @freed v h hp =>
    obtain ⟨hv, h0⟩ := Store.replaced_is h
    have hlength : (st.versions.filter fun w => !w.is v.cart v.serial).length + 1 = st.versions.length := by
      simpa using sum_filter_key hp.1 hv fun _ => 1
    rw [Store.freeVersion_unheld (Store.find_of_mem hp.1 hv) h0, h]
    dsimp only
    rw [givePages_size, ← hlength, Nat.add_comm (runsCount v.chain)]
    simp

/-- The version that a CART_OPEN opens, its pages from the store cleared for it (R113). -/
def Store.opened (st m : Store) (f : CartFields) (kind : CartKind) : Version :=
  newVersion f kind (st.newSerial f.cart) (if (m.current f.cart).isSome then .incoming else .current) (takePages m.free (pagesFor f.len)).1

theorem Store.ClearedFor.openVersion {f : CartFields} (h : st.ClearedFor f.cart m) (kind : CartKind) :
    st.openVersion f kind = ((st.opened m f kind).serial, (st.opened m f kind).role,
      { m with
        free := (takePages m.free (pagesFor f.len)).2, serialCounter := (st.opened m f kind).serial
        versions := m.versions ++ [st.opened m f kind] }) := by
  unfold Store.openVersion
  cases h with
  | kept h => rw [h]; rfl
  | freed h _ => rw [h]; rfl

/-- The load serial is the counter's next, and the one after it where a version of the cart has that (R110). -/
theorem Store.newSerial_held (h : ∃ z ∈ st.versions, z.cart = cart ∧ z.serial = nextSerial st.serialCounter) :
    st.newSerial cart = nextSerial (nextSerial st.serialCounter) := by
  obtain ⟨z, hz, hcart, hserial⟩ := h
  exact if_pos (List.any_eq_true.2 ⟨z, List.mem_filter.2 ⟨hz, by simp [hcart]⟩, by simp [hserial]⟩)

theorem Store.newSerial_free (h : ∀ z ∈ st.versions, z.cart = cart → z.serial ≠ nextSerial st.serialCounter) :
    st.newSerial cart = nextSerial st.serialCounter := by
  refine if_neg fun hany => ?_
  obtain ⟨z, hz, hserial⟩ := List.any_eq_true.1 hany
  obtain ⟨hm, hcart⟩ := List.mem_filter.1 hz
  exact h z hm (beq_iff_eq.1 hcart) (beq_iff_eq.1 hserial)

end openCart

/-- The in-cue as taken (R114). -/
theorem cueIn_eq (n inCue : Nat) : cueIn n inCue = if inCue < n then inCue else 0 := by
  unfold cueIn
  split <;> split <;> omega

section judged
variable {s : State} {f : CartFields} {m : Store}

theorem State.openCart_busy (h : s.store.openBusy f.cart = true) (req : RequestHead) (k : CartKind) :
    s.openCart req f k = s.answer req 1 none .busy .none := if_pos h

theorem State.openCart_full (hb : s.store.openBusy f.cart = false) (h : s.store.openFull f.cart f.len = true) (req : RequestHead)
    (k : CartKind) : s.openCart req f k = s.answer req 1 none .full .none := by
  unfold State.openCart
  rw [if_neg (by simp [hb]), if_pos h]

theorem State.openCart_opens (hc : s.store.ClearedFor f.cart m) (hb : s.store.openBusy f.cart = false)
    (h : s.store.openFull f.cart f.len = false) (req : RequestHead) (k : CartKind) :
    s.openCart req f k =
      ({ s with store :=
          { m with
            free := (takePages m.free (pagesFor f.len)).2, serialCounter := (s.store.opened m f k).serial
            versions := m.versions ++ [s.store.opened m f k] } } : State).answer
        req 1 none .ok (.opened (s.store.opened m f k).serial (s.store.opened m f k).role) := by
  unfold State.openCart
  rw [if_neg (by simp [hb]), if_neg (by simp [h]), hc.openVersion]

end judged

theorem exec_cartOpen {s : State} {req : RequestHead} (h : s.TakesUnit req 22) (dt : Nat) (f : CartFields) :
    exec (.cartOpen dt req f) s = .next (if cartOpenBad f then (s.elapse dt).misread req 1 else
      match CartKind.ofCode f.kind with
      | some k => (s.elapse dt).openCart req f k
      | none => s.elapse dt) := h.run dt 1 (cartOpenBad f) _

theorem exec_cartOpen_sound {s : State} {req : RequestHead} (h : s.TakesUnit req 22) (dt : Nat) {f : CartFields} {k : CartKind}
    (hbad : cartOpenBad f = false) (hk : CartKind.ofCode f.kind = some k) :
    exec (.cartOpen dt req f) s = .next ((s.elapse dt).openCart req f k) := by
  rw [exec_cartOpen h, if_neg (by simp [hbad]), hk]

end Sys2Proof.Machine
end

section
/-! CART_DATA and CART_CLOSE: a load goes on, ends, or fails (R115 to R117). -/

namespace Sys2Proof.Machine

/-- What is left of a freed version is superseded, and a voice held it (R111). -/
theorem Store.freeVersion_at {st : Store} {c n : Nat} {w : Version} (hw : w ∈ (st.freeVersion c n).versions) (hk : w.key = (c, n)) :
    w.role = .superseded ∧ ∃ v ∈ st.versions, v.key = (c, n) ∧ v.useCount ≠ 0 := by
  unfold Store.freeVersion at hw
  split at hw
  next hfind => exact absurd (Version.is_iff.2 hk) (List.find?_eq_none.1 hfind w hw)
  next v hfind =>
    obtain ⟨hv, hcart, hserial⟩ := Store.find_is hfind
    split at hw
    · have := (List.mem_filter.1 hw).2
      rw [Version.is_iff.2 hk] at this
      cases this
    next h0 =>
      obtain ⟨x, -, -, rfl⟩ := (Store.modVersion_at (f := fun w => { w with state := .retiring, role := .superseded }) (fun _ => rfl) hk).1 hw
      exact ⟨rfl, v, hv, Prod.ext hcart hserial, h0⟩

theorem State.discard_eq (s : State) (c n : Nat) : ∃ st tr, s.discard c n = { s with store := st, transfer := tr } := by
  unfold State.discard
  dsimp only
  split <;> exact ⟨_, _, rfl⟩

/-- What is left of a discarded version has no role, but for one that voices hold, which is superseded (R111, R116). -/
theorem State.discard_at {s : State} {c n : Nat} {w : Version} (hw : w ∈ (s.discard c n).store.versions) (hk : w.key = (c, n)) :
    w.role = .discarding ∨ w.role = .superseded ∧ ∃ v ∈ s.store.versions, v.key = (c, n) ∧ v.useCount ≠ 0 := by
  have hmod : ∀ x ∈ (s.store.modVersion c n fun v => { v with role := .discarding, state := .quarantined }).versions, x.key = (c, n) →
      ∃ v ∈ s.store.versions, v.key = (c, n) ∧ { v with role := .discarding, state := .quarantined } = x := fun x hx hxk =>
    (Store.modVersion_at (f := fun v => { v with role := .discarding, state := .quarantined }) (fun _ => rfl) hxk).1 hx
  unfold State.discard at hw
  dsimp only at hw
  split at hw
  · obtain ⟨v, -, -, rfl⟩ := hmod w hw hk
    exact .inl rfl
  · obtain ⟨hrole, x, hx, hxk, h0⟩ := Store.freeVersion_at hw hk
    obtain ⟨v, hv, hvk, rfl⟩ := hmod x hx hxk
    exact .inr ⟨hrole, v, hv, hvk, h0⟩

/-- A load that fails is answered SEQUENCE, latched and discarded (R116). -/
theorem State.failLoad_answers {s : State} (hi : s.isolated = false) (v : Version) (req : RequestHead) (k : Nat) :
    let u := (s.failLoad v req.head.sender).answer req k none .sequence .none
    u.sent = (s.answers req k none .sequence .none).sent ∧ (u.captures.slot .request).first.isSome = true ∧
      ((∀ w ∈ s.store.versions, w.cart = v.cart → w.serial = v.serial → w.useCount = 0) →
        ∀ w ∈ u.store.versions, w.cart = v.cart → w.serial = v.serial → w.role = .discarding) := by
  obtain ⟨st, tr, e⟩ := s.discard_eq v.cart v.serial
  have hdiscard : st = (s.discard v.cart v.serial).store := by rw [e]
  unfold State.failLoad
  rw [e]
  dsimp only
  rw [State.answer_open (s := State.latch { s with store := st, transfer := tr } _) hi]
  refine ⟨rfl, Option.isSome_iff_exists.2 (State.latch_first { s with store := st, transfer := tr }
    { FaultInfo.bare .loadSequence with cart := some (v.cart, v.serial), node := some req.head.sender }), fun h0 w hw hcart hserial => ?_⟩
  have hw' : w ∈ (s.discard v.cart v.serial).store.versions := hdiscard ▸ hw
  refine (State.discard_at hw' (Prod.ext hcart hserial)).resolve_right ?_
  rintro ⟨-, x, hx, hxk, hne⟩
  simp only [Version.key, Prod.mk.injEq] at hxk
  exact hne (h0 x hx hxk.1 hxk.2)

theorem Store.accept_eq (st : Store) (v : Version) (offset : Nat) (bytes : List Byte) :
    st.accept v offset bytes =
      { st with
        loadQueue := st.loadQueue ++ [{ cart := v.cart, serial := v.serial, offset := offset, bytes := bytes }]
        versions := st.versions.map fun w =>
          if w.cart = v.cart ∧ w.serial = v.serial then { w with received := w.received + bytes.length } else w } := by
  unfold Store.accept
  rw [Store.modVersion_eq]

theorem Store.close_eq (st : Store) (v : Version) (tag : CloseTag) :
    st.close v tag =
      { st with
        verifyQueue := st.verifyQueue ++ [(v.cart, v.serial)]
        versions := st.versions.map fun w =>
          if w.cart = v.cart ∧ w.serial = v.serial then { w with state := .verifying, closeTag := some tag } else w } := by
  unfold Store.close
  rw [Store.modVersion_eq]

theorem exec_cartData {s : State} {req : RequestHead} {payload : List Byte} (h : s.TakesUnit req (10 + payload.length))
    (dt cart offset : Nat) :
    exec (.cartData dt req cart offset payload) s =
      .next (if cartDataBad cart payload then (s.elapse dt).misread req 2 else (s.elapse dt).loadData req cart offset payload) :=
  h.run dt 2 (cartDataBad cart payload) _

theorem exec_cartClose {s : State} {req : RequestHead} (h : s.TakesUnit req 4) (dt cart : Nat) :
    exec (.cartClose dt req cart) s =
      .next (if !cartOk cart then (s.elapse dt).misread req 3 else (s.elapse dt).closeLoad req cart) := h.run dt 3 (!cartOk cart) _

section load
variable {s : State} {cart : Nat} {v : Version}

theorem State.loadData_noLoad (hv : s.store.loading cart = none) (req : RequestHead) (offset : Nat) (payload : List Byte) :
    s.loadData req cart offset payload = s.answer req 2 none .noLoad .none := by
  unfold State.loadData
  rw [hv]

theorem State.loadData_loading (hv : s.store.loading cart = some v) (req : RequestHead) (offset : Nat) (payload : List Byte) :
    s.loadData req cart offset payload =
      if offset ≠ v.received ∨ 6 * v.len < offset + payload.length then
        ((s.failLoad v req.head.sender).answer req 2 none .sequence .none).pump
      else if 64 ≤ s.store.loadQueue.length then s.answer req 2 none .busy .none
      else (({ s with store := s.store.accept v offset payload } : State).answer req 2 none .ok .none).pump := by
  unfold State.loadData
  rw [hv]
  rfl

theorem State.closeLoad_noLoad (hv : s.store.loading cart = none) (req : RequestHead) :
    s.closeLoad req cart = s.answer req 3 none .noLoad .none := by
  unfold State.closeLoad
  rw [hv]

theorem State.closeLoad_loading (hv : s.store.loading cart = some v) (req : RequestHead) :
    s.closeLoad req cart =
      if v.received ≠ 6 * v.len then ((s.failLoad v req.head.sender).answer req 3 none .sequence .none).pump
      else (({ s with store := s.store.close v { tag := req.tag, node := req.head.sender } } : State).answer req 3 none .ok .none).pump := by
  unfold State.closeLoad
  rw [hv]
  rfl

end load

end Sys2Proof.Machine
end

section
/-! CART_DROP: the versions of a cart, one after the other (R123). -/

namespace Sys2Proof.Machine

/-- A version that CART_DROP drops (R123). -/
def Version.drops (v : Version) : Prop := v.role = .current ∨ v.role = .incoming

theorem State.dropVersion_left {s : State} {v : Version} (h : ¬ v.drops) : s.dropVersion v = s := by
  unfold State.dropVersion
  cases e : v.role with
  | current => exact absurd (.inl e) h
  | incoming => exact absurd (.inr e) h
  | superseded => rfl
  | discarding => rfl

/-- A load or verification is discarded, any other version freed. -/
theorem State.dropVersion_dropped (s : State) {v : Version} (h : v.drops) :
    s.dropVersion v =
      if v.state = .loading ∨ v.state = .verifying then s.discard v.cart v.serial
      else { s with store := s.store.freeVersion v.cart v.serial } := by
  unfold State.dropVersion
  rcases h with e | e <;> rw [e] <;> cases v.state <;> rfl

theorem State.dropVersion_eq (s : State) (v : Version) : ∃ st tr, s.dropVersion v = { s with store := st, transfer := tr } := by
  by_cases h : v.drops
  · rw [s.dropVersion_dropped h]
    split
    · exact s.discard_eq _ _
    · exact ⟨_, _, rfl⟩
  · exact ⟨s.store, s.transfer, State.dropVersion_left h⟩

/-- A dropped version keeps neither of the two roles. -/
theorem State.dropVersion_at {s : State} {v w : Version} (h : v.drops) (hw : w ∈ (s.dropVersion v).store.versions) (hk : w.key = v.key) :
    ¬ w.drops := by
  have hrole : w.role = .discarding ∨ w.role = .superseded := by
    rw [s.dropVersion_dropped h] at hw
    split at hw
    · exact (State.discard_at hw hk).imp_right And.left
    · exact .inr (Store.freeVersion_at hw hk).1
  unfold Version.drops
  rcases hrole with e | e <;> simp [e]

/-! ### Every other version stays as it is -/

theorem Store.modVersion_sameAt {c n : Nat} {k : Nat × Nat} (hk : k ≠ (c, n)) (st : Store) {f : Version → Version}
    (hf : ∀ v, (f v).key = v.key) : Store.SameAt k st (st.modVersion c n f) := by
  refine ⟨fun w hw => ?_, Iff.rfl⟩
  subst hw
  refine ⟨fun hm => ?_, fun hm => Store.mem_modVersion_other hm fun e => hk (Prod.ext e.1 e.2)⟩
  obtain ⟨x, hx, e⟩ := List.mem_map.1 hm
  split at e
  next his => exact absurd (by rw [← e, hf, Version.is_iff.1 his]) hk
  · exact e ▸ hx

theorem Store.freeVersion_sameAt {c n : Nat} {k : Nat × Nat} (hk : k ≠ (c, n)) (st : Store) : Store.SameAt k st (st.freeVersion c n) := by
  unfold Store.freeVersion
  split
  · exact .refl k st
  · split
    · refine ⟨fun w hw => ⟨fun hm => (List.mem_filter.1 hm).1, fun hm => List.mem_filter.2 ⟨hm, ?_⟩⟩, Iff.rfl⟩
      subst hw
      simpa only [Bool.not_eq_true', ← Bool.not_eq_true, Version.is_iff] using hk
    · exact Store.modVersion_sameAt hk st fun _ => rfl

theorem State.discard_sameAt {c n : Nat} {k : Nat × Nat} (hk : k ≠ (c, n)) (s : State) : Store.SameAt k s.store (s.discard c n).store := by
  have hmod := Store.modVersion_sameAt hk s.store (f := fun v => { v with role := .discarding, state := .quarantined }) fun _ => rfl
  have hqueues : Store.SameAt k (s.store.modVersion c n fun v => { v with role := .discarding, state := .quarantined })
      { s.store.modVersion c n fun v => { v with role := .discarding, state := .quarantined } with
        loadQueue := s.store.loadQueue.filter fun p => !(p.cart == c && p.serial == n)
        verifyQueue := s.store.verifyQueue.filter fun q => q != (c, n)
        sweep := s.store.sweep.filter fun w => !(w.cart == c && w.serial == n) } :=
    ⟨fun _ _ => Iff.rfl, by simp [Store.modVersion, hk]⟩
  unfold State.discard
  dsimp only
  split
  · exact hmod.trans hqueues
  · exact (hmod.trans hqueues).trans (Store.freeVersion_sameAt hk _)

theorem State.dropVersion_sameAt {v : Version} {k : Nat × Nat} (hk : k ≠ v.key) (s : State) :
    Store.SameAt k s.store (s.dropVersion v).store := by
  by_cases h : v.drops
  · rw [s.dropVersion_dropped h]
    split
    · exact s.discard_sameAt hk
    · exact Store.freeVersion_sameAt hk s.store
  · rw [State.dropVersion_left h]
    exact .refl k s.store

/-- A pass over versions of different names does to each what dropping it alone does. -/
theorem State.dropVersions_at (l : List Version) (hl : (l.map Version.key).Nodup) (s : State) :
    (∀ k, k ∉ l.map Version.key → Store.SameAt k s.store (l.foldl State.dropVersion s).store) ∧
      ∀ v ∈ l, ∃ t : State, State.Moves true s t ∧ Store.SameAt v.key s.store t.store ∧
        Store.SameAt v.key (t.dropVersion v).store (l.foldl State.dropVersion s).store := by
  induction l generalizing s with
  | nil => exact ⟨fun k _ => .refl k s.store, fun v hv => nomatch hv⟩
  | cons x l ih =>
    rw [List.map_cons, List.nodup_cons] at hl
    obtain ⟨hother, heach⟩ := ih hl.2 (s.dropVersion x)
    refine ⟨fun k hk => ?_, fun v hv => ?_⟩
    · rw [List.map_cons, List.mem_cons, not_or] at hk
      exact (s.dropVersion_sameAt hk.1).trans (hother k hk.2)
    · rcases List.mem_cons.1 hv with rfl | hv
      · exact ⟨s, .refl, .refl _ _, hother _ hl.1⟩
      · obtain ⟨t, hm, hbefore, hafter⟩ := heach v hv
        have hne : v.key ≠ x.key := fun e => hl.1 (e ▸ List.mem_map_of_mem hv)
        exact ⟨t, (State.dropVersion_moves .refl x).trans hm, (s.dropVersion_sameAt hne).trans hbefore, hafter⟩

theorem State.dropVersions_eq (l : List Version) (s : State) : ∃ st tr, l.foldl State.dropVersion s = { s with store := st, transfer := tr } := by
  induction l generalizing s with
  | nil => exact ⟨s.store, s.transfer, rfl⟩
  | cons x l ih =>
    obtain ⟨st, tr, e⟩ := s.dropVersion_eq x
    obtain ⟨st', tr', e'⟩ := ih (s.dropVersion x)
    exact ⟨st', tr', by rw [List.foldl_cons, e', e]⟩

/-! ### The cart is dropped -/

/-- What CART_DROP makes of the directory `st` (R123): no version of the cart is current or incoming, a READY or QUARANTINED one is gone or, while
voices hold it, RETIRING. -/
structure Store.Dropped (st : Store) (cart : Nat) (r : Store) : Prop where
  unnamed : ∀ w ∈ r.versions, w.cart = cart → ¬ w.drops
  gone : ∀ v ∈ st.versions, v.cart = cart → v.drops → v.state = .ready ∨ v.state = .quarantined → v.useCount = 0 →
    r.Lacks v.cart v.serial
  retired : ∀ v ∈ st.versions, v.cart = cart → v.drops → v.state = .ready ∨ v.state = .quarantined → v.useCount ≠ 0 →
    { v with state := .retiring, role := .superseded } ∈ r.versions

theorem State.dropVersions_dropped {s : State} (hn : (s.store.versions.map Version.key).Nodup) (cart : Nat) :
    s.store.Dropped cart ((s.store.versionsOf cart).foldl State.dropVersion s).store := by
  have hof : ∀ v ∈ s.store.versions, v.cart = cart → v ∈ s.store.versionsOf cart := fun v hv hc => List.mem_filter.2 ⟨hv, by simp [hc]⟩
  obtain ⟨-, heach⟩ := s.dropVersions_at (s.store.versionsOf cart) ((List.filter_sublist.map _).nodup hn)
  have hmoves : State.Moves true s ((s.store.versionsOf cart).foldl State.dropVersion s) :=
    State.Moves.refl.foldl _ _ fun t v ht => State.dropVersion_moves ht v
  -- a READY or QUARANTINED version is freed from a directory that has it
  have hfreed : ∀ v ∈ s.store.versions, v.cart = cart → v.drops → v.state = .ready ∨ v.state = .quarantined →
      ∃ st : Store, st.find v.cart v.serial = some v ∧
        Store.SameAt v.key (st.freeVersion v.cart v.serial) ((s.store.versionsOf cart).foldl State.dropVersion s).store :=
    fun v hv hc hd hs => by
      obtain ⟨t, hm, hbefore, hafter⟩ := heach v (hof v hv hc)
      rw [t.dropVersion_dropped hd, if_neg (by rcases hs with e | e <;> simp [e])] at hafter
      exact ⟨t.store, Store.find_of_mem (Store.keys_of_sublist hm.versions.1 hn) ((hbefore.1 v rfl).2 hv), hafter⟩
  refine ⟨fun w hw hc hd => ?_, fun v hv hc hd hs h0 w hw hname => ?_, fun v hv hc hd hs h0 => ?_⟩
  · obtain ⟨v, hv, -, hk⟩ := hmoves.keys hw
    have hcart : v.cart = cart := (congrArg Prod.fst hk).trans hc
    obtain ⟨t, -, hbefore, hafter⟩ := heach v (hof v hv hcart)
    have hdropped : w ∈ (t.dropVersion v).store.versions := (hafter.1 w hk.symm).1 hw
    by_cases hvd : v.drops
    · exact State.dropVersion_at hvd hdropped hk.symm hd
    · rw [State.dropVersion_left hvd] at hdropped
      have hmem : w ∈ s.store.versions := (hbefore.1 w hk.symm).1 hdropped
      exact hvd (List.inj_on_of_nodup_map hn hv hmem hk ▸ hd)
  · obtain ⟨st, hfind, hafter⟩ := hfreed v hv hc hd hs
    exact Store.freeVersion_lacks hfind h0 w ((hafter.1 w (Prod.ext hname.1 hname.2)).1 hw) hname
  · obtain ⟨st, hfind, hafter⟩ := hfreed v hv hc hd hs
    exact (hafter.1 { v with state := .retiring, role := .superseded } rfl).2 (Store.freeVersion_held hfind h0)

theorem exec_cartDrop {s : State} {req : RequestHead} (h : s.TakesUnit req 4) (dt cart : Nat) :
    exec (.cartDrop dt req cart) s =
      .next (if !cartOk cart then (s.elapse dt).misread req 4 else (s.elapse dt).dropCart req cart) := h.run dt 4 (!cartOk cart) _

theorem State.dropCart_notFound {s : State} {cart : Nat} (h : ∀ v ∈ s.store.versions, ¬ (v.cart = cart ∧ v.drops)) (req : RequestHead) :
    s.dropCart req cart = s.answer req 4 none .notFound .none := by
  have hnone : ∀ r : Role, r = .current ∨ r = .incoming → (s.store.ofRole cart r).isNone = true := fun r hr =>
    Option.isNone_iff_eq_none.2 (List.find?_eq_none.2 fun v hv hvr => by
      simp only [Bool.and_eq_true, beq_iff_eq] at hvr
      obtain ⟨hcart, rfl⟩ := hvr
      exact h v hv ⟨hcart, hr⟩)
  exact if_pos (by rw [Store.current, hnone _ (.inl rfl), hnone _ (.inr rfl)]; rfl)

theorem State.dropCart_found {s : State} {cart : Nat} (h : ∃ v ∈ s.store.versions, v.cart = cart ∧ v.drops) (req : RequestHead) :
    s.dropCart req cart = (((s.store.versionsOf cart).foldl State.dropVersion s).answer req 4 none .ok .none).pump := by
  refine if_neg fun hnone => ?_
  simp only [Bool.and_eq_true, Option.isNone_iff_eq_none, Store.current, Store.ofRole, List.find?_eq_none, beq_iff_eq] at hnone
  obtain ⟨v, hv, hc, hd⟩ := h
  exact hd.elim (fun e => hnone.1 v hv ⟨hc, e⟩) fun e => hnone.2 v hv ⟨hc, e⟩

end Sys2Proof.Machine

open Sys2Proof Sys2Proof.Machine

/-- Settles O57: each request by what its operands are judged to be, a failed load by `State.failLoad_answers`, a dropped cart by
`State.dropVersions_dropped`. -/
theorem cartRequestsAreAnswered : Obligations.CartRequestsAreAnswered := by
  intro s dt req a answered malformed cartBad next failed
  have hstore : a.store = s.store := s.elapse_store dt
  have answer_eq : s.isolated = false → ∀ k r, a.answer req k none r .none = answered k r := fun hi k r =>
    State.answer_open ((s.elapse_isolated dt).trans hi) req k none r .none
  refine ⟨fun f ht => ?_, fun cart offset payload ht => ?_, fun cart ht => ?_, fun cart ht => ?_⟩
  all_goals
    intro result
    have hi : a.isolated = false := (s.elapse_isolated dt).trans ht.isolated
    have hanswer := answer_eq ht.isolated
  · intro bad busy need
    have hbad : cartOpenBad f = true ↔ bad := cartOpenBad_iff
    have hbusy : a.store.openBusy f.cart = true ↔ busy := hstore ▸ Store.openBusy_iff
    refine ⟨fun hb => ?_, fun hb hy => ?_, fun hb hy st hst => ?_⟩
    · exact (exec_cartOpen ht dt f).trans (by rw [if_pos (hbad.2 hb)]; rfl)
    all_goals
      obtain ⟨k, hk⟩ : ∃ k, CartKind.ofCode f.kind = some k := Option.ne_none_iff_exists'.1 fun e =>
        hb (.inr ((CartKind.ofCode_eq_none.1 e).elim .inl fun h => .inr (.inl h)))
      have hresult : result = .next (a.openCart req f k) := exec_cartOpen_sound ht dt (Bool.eq_false_iff.2 fun h => hb (hbad.1 h)) hk
      rw [hresult]
    · rw [State.openCart_busy (hbusy.2 hy), hanswer]
    · have hfree : a.store.openBusy f.cart = false := Bool.eq_false_iff.2 fun h => hy (hbusy.1 h)
      have hc : a.store.ClearedFor f.cart st := by
        rw [hstore]
        rcases hst with ⟨rfl, h⟩ | ⟨v, hv, hq, h0, hp, rfl⟩
        · exact .kept (Store.replaced_eq_none h)
        · exact .freed (Store.replaced_eq_some hv hq h0) hp
      have hfull : a.store.openFull f.cart f.len = true ↔ runsCount st.free < need ∨ 4096 ≤ st.versions.length := hc.openFull_iff
      refine ⟨fun h => ?_, fun hpages hplaces => ?_⟩
      · rw [State.openCart_full hfree (hfull.2 h), hanswer]
      · have hroom : a.store.openFull f.cart f.len = false := Bool.eq_false_iff.2 fun h => by
          rcases hfull.1 h with h | h <;> omega
        refine ⟨s.store.opened st f k, (takePages st.free need).2, ?_, rfl, takePages_size _ _ hpages, hk, rfl, rfl, cueIn_eq _ _, rfl, rfl,
          rfl, rfl, rfl, rfl, rfl, rfl, Store.newSerial_held, Store.newSerial_free⟩
        rw [State.openCart_opens hc hfree hroom, State.answer_withStore hi, hstore]
        rfl
  · intro bad
    have hbad : cartDataBad cart payload = true ↔ bad := cartDataBad_iff
    have hexec : result = .next (if cartDataBad cart payload then a.misread req 2 else a.loadData req cart offset payload) :=
      exec_cartData ht dt cart offset
    refine ⟨fun hb => ?_, fun hb hv => ?_, fun v hb hv => ?_⟩
    · rw [hexec, if_pos (hbad.2 hb)]
      rfl
    all_goals rw [if_neg fun h => hb (hbad.1 h)] at hexec
    · rw [hexec, State.loadData_noLoad (hstore ▸ hv), hanswer]
    · rw [State.loadData_loading (hstore ▸ hv)] at hexec
      refine ⟨fun h => ?_, fun ho hl => ⟨fun hq => ?_, fun hq => ?_⟩⟩
      · rw [if_pos h] at hexec
        exact ⟨_, hexec, hstore ▸ State.failLoad_answers hi v req 2⟩
      all_goals rw [if_neg (by rintro (h | h); exacts [h ho, absurd hl (not_le.2 h)]), hstore] at hexec
      · rw [hexec, if_pos hq, hanswer]
      · rw [hexec, if_neg (not_le.2 hq), State.answer_withStore hi, Store.accept_eq]
  · have hbad : (!cartOk cart) = true ↔ cartBad cart := by simp [cartOk_eq_false, cartBad]
    have hexec : result = .next (if !cartOk cart then a.misread req 3 else a.closeLoad req cart) := exec_cartClose ht dt cart
    refine ⟨fun hb => ?_, fun hb hv => ?_, fun v hb hv => ?_⟩
    · rw [hexec, if_pos (hbad.2 hb)]
      rfl
    all_goals rw [if_neg fun h => hb (hbad.1 h)] at hexec
    · rw [hexec, State.closeLoad_noLoad (hstore ▸ hv), hanswer]
    · rw [State.closeLoad_loading (hstore ▸ hv)] at hexec
      refine ⟨fun h => ?_, fun h => ?_⟩
      · rw [if_pos h] at hexec
        exact ⟨_, hexec, hstore ▸ State.failLoad_answers hi v req 3⟩
      · rw [hexec, if_neg (not_not.2 h), State.answer_withStore hi, hstore, Store.close_eq]
  · intro named
    have hbad : (!cartOk cart) = true ↔ cartBad cart := by simp [cartOk_eq_false, cartBad]
    have hexec : result = .next (if !cartOk cart then a.misread req 4 else a.dropCart req cart) := exec_cartDrop ht dt cart
    refine ⟨fun hb => ?_, fun hb hv => ?_, fun hb hv hp => ?_⟩
    · rw [hexec, if_pos (hbad.2 hb)]
      rfl
    all_goals rw [if_neg fun h => hb (hbad.1 h)] at hexec
    · rw [hexec, State.dropCart_notFound (hstore ▸ hv), hanswer]
    · rw [State.dropCart_found (hstore ▸ hv)] at hexec
      obtain ⟨hunnamed, hgone, hretired⟩ := State.dropVersions_dropped (hstore ▸ hp.1) cart
      obtain ⟨st, tr, e⟩ := State.dropVersions_eq (a.store.versionsOf cart) a
      rw [e] at hexec hunnamed hgone hretired
      rw [State.answer_withStore hi] at hexec
      rw [hstore] at hgone hretired
      exact ⟨_, hexec, rfl, fun v hv hn => hunnamed v hv hn.1 hn.2, fun v hv hn hs =>
        ⟨fun h0 w hw hc hs' => hgone v hv hn.1 hn.2 hs h0 w hw ⟨hc, hs'⟩, hretired v hv hn.1 hn.2 hs⟩⟩
end
